-- ==== Sys2Proof/Word.lean ====
section
/-!
DEFINITION. The word types of the Z24 and their plainest arithmetic: bytes, 64-bit register values, 512-bit vector
registers, physical and virtual addresses (R5, R15, R172).
-/
namespace Sys2Proof

/-- One byte of memory. -/
abbrev Byte := BitVec 8

/-- A 64-bit value: a `g` register, a mask register, a queue entry, a CSR (R172, R175). -/
abbrev Word := BitVec 64

/-- A 512-bit vector register (R172). -/
abbrev VWord := BitVec 512

/-- The all-ones mask that `m0` reads as (R172). -/
def onesWord : Word := BitVec.allOnes 64

/-- Sign extension of the low `n` bits of a natural number to 64 bits. -/
def sextTo64 (n x : Nat) : Word := (BitVec.ofNat n x).signExtend 64

/-- Bits `[lo + n - 1 : lo]` of a 64-bit value as a natural number. -/
def Word.bits (x : Word) (lo n : Nat) : Nat := x.toNat / 2 ^ lo % 2 ^ n

/-- One bit of a 64-bit value. -/
def Word.bit (x : Word) (i : Nat) : Bool := x.toNat / 2 ^ i % 2 == 1

/-- A natural number written as a 64-bit value. -/
def word (n : Nat) : Word := BitVec.ofNat 64 n

/-- `a` if the condition holds and 0 otherwise, as a 64-bit value: the form of every compare result. -/
def boolWord (b : Bool) : Word := if b then 1#64 else 0#64

end Sys2Proof
end

