-- ==== Sys2Proof/Syntax.lean ====
section
/-!
DEFINITION. The abstract syntax of the Z24: operand types and the one inductive `Instr`, with one constructor per row
of the opcode table. The first 235 constructors are the DZ words of R187 and R188. The other 101 are the indivisible
events that have no encoding; what an event carries stands in the state's agenda (Machine/Event.lean), so these
constructors have no arguments.
-/
namespace Sys2Proof

/-! ## Operands of the words -/

/-- A `g` register number (R172). -/
abbrev GReg := Fin 32
/-- A `v` register number (R172). -/
abbrev VReg := Fin 32
/-- A mask register number (R172); in a mask field 0 means unmasked (R170). -/
abbrev MReg := Fin 8
/-- A queue register number (R172). -/
abbrev QReg := Fin 4
/-- An even `g` register and the one after it: pair `k` is `g(2k)` and `g(2k+1)` (R172). -/
abbrev GPair := Fin 16
/-- A payload length of `SEND`, `SPAWN` or `LAUNCH`, 0 to 14 (R288). -/
abbrev Plen := Fin 15

/-- A scope code 0 to 5 (R31). -/
inductive Scope where
  | core | quad | die | pkg | dom | sys
deriving DecidableEq, Repr

/-- The order field of CM (R168). -/
inductive Order where
  | none | aq | rl | ar
deriving DecidableEq, Repr

/-- A binary floating-point format (R63). -/
inductive Fmt where
  | fp32 | fp64 | h16 | b16
deriving DecidableEq, Repr

/-- A rounding field of three bits (R66). -/
inductive Rnd where
  | rne | rtz | rdn | rup | dyn
deriving DecidableEq, Repr

/-- A rounding field of two bits: A4 words and `VCVT` (R169, R262). -/
inductive Rnd4 where
  | rne | rtz | rdn | dyn
deriving DecidableEq, Repr

/-- An element width (R246). -/
inductive EW where
  | e8 | e16 | e32 | e64
deriving DecidableEq, Repr

/-- A conversion type (R73). -/
inductive CvtType where
  | fp32 | fp64 | h16 | b16 | f8 | f8w | i32 | n32 | i64 | n64 | i8 | n8
deriving DecidableEq, Repr

/-- An accumulator element type (R112, R284). -/
inductive AccType where
  | fp32 | fp64 | i32 | i64
deriving DecidableEq, Repr

/-- The type of `VDOT4` (R263). -/
inductive Dot4Type where
  | f8 | i8
deriving DecidableEq, Repr

/-- The destination type of `VQ8` (R264). -/
inductive Q8Type where
  | f8 | f8w | i8 | n8
deriving DecidableEq, Repr

/-- The destination of an INT word: a `g` register, or `q0` or `q1` (R174). -/
inductive SDst where
  | g (r : GReg) | q (n : Fin 2)
deriving DecidableEq, Repr

/-- The first source of an INT word: a `g` register, or `q2` (0) or `q3` (1) (R174). -/
inductive SSrc where
  | g (r : GReg) | q (n : Fin 2)
deriving DecidableEq, Repr

/-- The destination of VRED and `VEXT`: a `g` register, or `q2` (0) or `q3` (1) (R174). -/
inductive VDst where
  | g (r : GReg) | q (n : Fin 2)
deriving DecidableEq, Repr

/-- The source of `VBCAST`: a `g` register, or `q0` or `q1` (R174). -/
inductive VSrc where
  | g (r : GReg) | q (n : Fin 2)
deriving DecidableEq, Repr

/-- One constructor per row of the opcode table: the DZ words (R187, R188), then the indivisible events. -/
inductive Instr where
  /-- LDB, R273. -/
  | ldb (d : GReg) (a : GReg) (i : BitVec 14)
  /-- LDBN, R273. -/
  | ldbn (d : GReg) (a : GReg) (i : BitVec 14)
  /-- LDH, R273. -/
  | ldh (d : GReg) (a : GReg) (i : BitVec 14)
  /-- LDHN, R273. -/
  | ldhn (d : GReg) (a : GReg) (i : BitVec 14)
  /-- LDW, R273. -/
  | ldw (d : GReg) (a : GReg) (i : BitVec 14)
  /-- LDWN, R273. -/
  | ldwn (d : GReg) (a : GReg) (i : BitVec 14)
  /-- LDD, R273. -/
  | ldd (d : GReg) (a : GReg) (i : BitVec 14)
  /-- LDQ, R273. -/
  | ldq (d : GPair) (a : GReg) (i : BitVec 14)
  /-- STB, R274. -/
  | stb (b : GReg) (a : GReg) (i : BitVec 14)
  /-- STH, R274. -/
  | sth (b : GReg) (a : GReg) (i : BitVec 14)
  /-- STW, R274. -/
  | stw (b : GReg) (a : GReg) (i : BitVec 14)
  /-- STD, R274. -/
  | std (b : GReg) (a : GReg) (i : BitVec 14)
  /-- STQ, R274. -/
  | stq (b : GPair) (a : GReg) (i : BitVec 14)
  /-- VLD, R277. -/
  | vld (v : VReg) (a : GReg) (m : MReg) (i : BitVec 6)
  /-- VST, R277. -/
  | vst (v : VReg) (a : GReg) (m : MReg) (i : BitVec 6)
  /-- VLDS, R277. -/
  | vlds (v : VReg) (a : GReg) (b : GReg) (m : MReg) (i : BitVec 6)
  /-- VSTS, R277. -/
  | vsts (v : VReg) (a : GReg) (b : GReg) (m : MReg) (i : BitVec 6)
  /-- VLDX, R277. -/
  | vldx (v : VReg) (a : GReg) (x : VReg) (m : MReg) (i : BitVec 6)
  /-- VSTX, R277. -/
  | vstx (v : VReg) (a : GReg) (x : VReg) (m : MReg) (i : BitVec 6)
  /-- VLDB, R277. -/
  | vldb (v : VReg) (a : GReg) (m : MReg) (i : BitVec 6)
  /-- AMOADD_W, R279. -/
  | amoaddW (d : GReg) (a : GReg) (b : GReg) (s : Scope) (o : Order)
  /-- AMOAND_W, R279. -/
  | amoandW (d : GReg) (a : GReg) (b : GReg) (s : Scope) (o : Order)
  /-- AMOOR_W, R279. -/
  | amoorW (d : GReg) (a : GReg) (b : GReg) (s : Scope) (o : Order)
  /-- AMOXOR_W, R279. -/
  | amoxorW (d : GReg) (a : GReg) (b : GReg) (s : Scope) (o : Order)
  /-- AMOMIN_W, R279. -/
  | amominW (d : GReg) (a : GReg) (b : GReg) (s : Scope) (o : Order)
  /-- AMOMAX_W, R279. -/
  | amomaxW (d : GReg) (a : GReg) (b : GReg) (s : Scope) (o : Order)
  /-- AMOMINN_W, R279. -/
  | amominnW (d : GReg) (a : GReg) (b : GReg) (s : Scope) (o : Order)
  /-- AMOMAXN_W, R279. -/
  | amomaxnW (d : GReg) (a : GReg) (b : GReg) (s : Scope) (o : Order)
  /-- AMOSWP_W, R279. -/
  | amoswpW (d : GReg) (a : GReg) (b : GReg) (s : Scope) (o : Order)
  /-- AMOCAS_W, R279. -/
  | amocasW (d : GReg) (a : GReg) (b : GReg) (s : Scope) (o : Order)
  /-- AMOADD_D, R279. -/
  | amoaddD (d : GReg) (a : GReg) (b : GReg) (s : Scope) (o : Order)
  /-- AMOAND_D, R279. -/
  | amoandD (d : GReg) (a : GReg) (b : GReg) (s : Scope) (o : Order)
  /-- AMOOR_D, R279. -/
  | amoorD (d : GReg) (a : GReg) (b : GReg) (s : Scope) (o : Order)
  /-- AMOXOR_D, R279. -/
  | amoxorD (d : GReg) (a : GReg) (b : GReg) (s : Scope) (o : Order)
  /-- AMOMIN_D, R279. -/
  | amominD (d : GReg) (a : GReg) (b : GReg) (s : Scope) (o : Order)
  /-- AMOMAX_D, R279. -/
  | amomaxD (d : GReg) (a : GReg) (b : GReg) (s : Scope) (o : Order)
  /-- AMOMINN_D, R279. -/
  | amominnD (d : GReg) (a : GReg) (b : GReg) (s : Scope) (o : Order)
  /-- AMOMAXN_D, R279. -/
  | amomaxnD (d : GReg) (a : GReg) (b : GReg) (s : Scope) (o : Order)
  /-- AMOSWP_D, R279. -/
  | amoswpD (d : GReg) (a : GReg) (b : GReg) (s : Scope) (o : Order)
  /-- AMOCAS_D, R279. -/
  | amocasD (d : GReg) (a : GReg) (b : GReg) (s : Scope) (o : Order)
  /-- CAS2, R282. -/
  | cas2 (d : GPair) (a : GReg) (b : GPair) (s : Scope) (o : Order)
  /-- SWP2, R282. -/
  | swp2 (d : GPair) (a : GReg) (b : GPair) (s : Scope) (o : Order)
  /-- RED_FADD_S, R283. -/
  | redFaddS (a : GReg) (b : GReg) (s : Scope) (o : Order)
  /-- RED_FADD_D, R283. -/
  | redFaddD (a : GReg) (b : GReg) (s : Scope) (o : Order)
  /-- RED_IADD_W, R283. -/
  | redIaddW (a : GReg) (b : GReg) (s : Scope) (o : Order)
  /-- RED_IADD_D, R283. -/
  | redIaddD (a : GReg) (b : GReg) (s : Scope) (o : Order)
  /-- VACC, R284. -/
  | vacc (v : VReg) (a : GReg) (t : AccType) (m : MReg) (i : BitVec 6)
  /-- ACCINIT, R285. -/
  | accinit (a : GReg) (b : GReg) (s : Scope) (o : Order)
  /-- ACCRD, R285. -/
  | accrd (d : GReg) (a : GReg) (s : Scope) (o : Order)
  /-- ACCZ, R285. -/
  | accz (a : GReg) (s : Scope) (o : Order)
  /-- FISS, R131. -/
  | fiss (d : GReg) (c : BitVec 4) (s : Scope)
  /-- FWAIT, R133. -/
  | fwait (a : GReg)
  /-- FTEST, R133. -/
  | ftest (d : GReg) (a : GReg)
  /-- FENCE, R134. -/
  | fence (c : BitVec 4) (s : Scope)
  /-- FENCEF, R134. -/
  | fencef
  /-- CLEAN, R287. -/
  | clean (a : GReg) (s : Scope)
  /-- INVL, R287. -/
  | invl (a : GReg) (s : Scope)
  /-- FLUSH, R287. -/
  | flush (a : GReg) (s : Scope)
  /-- ZLINE, R287. -/
  | zline (a : GReg) (s : Scope)
  /-- PREF, R287. -/
  | pref (a : GReg) (s : Scope)
  /-- BEQ, R201. -/
  | beq (a : GReg) (b : GReg) (o : BitVec 14)
  /-- BNE, R201. -/
  | bne (a : GReg) (b : GReg) (o : BitVec 14)
  /-- BLT, R201. -/
  | blt (a : GReg) (b : GReg) (o : BitVec 14)
  /-- BGE, R201. -/
  | bge (a : GReg) (b : GReg) (o : BitVec 14)
  /-- BLTN, R201. -/
  | bltn (a : GReg) (b : GReg) (o : BitVec 14)
  /-- BGEN, R201. -/
  | bgen (a : GReg) (b : GReg) (o : BitVec 14)
  /-- BMANY, R202. -/
  | bmany (m : MReg) (o : BitVec 14)
  /-- BMALL, R202. -/
  | bmall (m : MReg) (o : BitVec 14)
  /-- JAL, R203. -/
  | jal (d : GReg) (o : BitVec 19)
  /-- JALR, R204. -/
  | jalr (d : GReg) (a : GReg) (i : BitVec 14)
  /-- LUI, R205. -/
  | lui (d : GReg) (i : BitVec 19)
  /-- ADDPC, R205. -/
  | addpc (d : GReg) (i : BitVec 19)
  /-- SEND, R289. -/
  | send (a : GReg) (b : GReg) (p : Fin 32) (n : Plen)
  /-- SPAWN, R289. -/
  | spawn (d : GReg) (a : GReg) (b : GReg) (p : Fin 32) (n : Plen)
  /-- LAUNCH, R289. -/
  | launch (d : GReg) (a : GReg) (b : GReg) (p : Fin 32) (n : Plen)
  /-- MIGR, R290. -/
  | migr (a : GReg) (i : BitVec 14)
  /-- DONE, R292. -/
  | done
  /-- YIELD, R293. -/
  | yield
  /-- TCANCEL, R294. -/
  | tcancel (d : GReg) (a : GReg)
  /-- TQRY, R294. -/
  | tqry (d : GReg) (a : GReg)
  /-- BARA, R296. -/
  | bara (a : GReg) (b : GReg) (s : Scope)
  /-- BARW, R296. -/
  | barw (d : GReg) (a : GReg) (g : GReg) (s : Scope)
  /-- SAFEPT, R299. -/
  | safept (o : BitVec 19)
  /-- MMA, R313. -/
  | mma (a : GReg) (b : GReg)
  /-- MQD, R319. -/
  | mqd (a : GReg) (b : GReg)
  /-- REP, R266. -/
  | rep (t : Bool) (u : Bool) (v : Bool) (x : Bool) (a : GReg) (s : Fin 4) (k : BitVec 8) (n : Fin 8)
  /-- CSRR, R206. -/
  | csrr (d : GReg) (c : BitVec 11)
  /-- CSRW, R206. -/
  | csrw (a : GReg) (c : BitVec 11)
  /-- CSRRW, R206. -/
  | csrrw (d : GReg) (a : GReg) (c : BitVec 11)
  /-- CSRS, R206. -/
  | csrs (a : GReg) (c : BitVec 11)
  /-- CSRC, R206. -/
  | csrc (a : GReg) (c : BitVec 11)
  /-- ECALL, R208. -/
  | ecall (a : GReg)
  /-- EBREAK, R208. -/
  | ebreak (c : BitVec 10)
  /-- TRET, R409. -/
  | tret
  /-- WFM, R210. -/
  | wfm (d : GReg) (a : GReg)
  /-- TLBINV, R212. -/
  | tlbinv (d : GReg) (a : GReg) (b : GReg)
  /-- HALT, R213. -/
  | halt (d : GReg)
  /-- CAPMINT, R214. -/
  | capmint (d : GReg) (a : GReg) (b : GReg)
  /-- ADD, R191. -/
  | add (d : SDst) (a : SSrc) (b : GReg)
  /-- SUB, R191. -/
  | sub (d : SDst) (a : SSrc) (b : GReg)
  /-- AND, R191. -/
  | and (d : SDst) (a : SSrc) (b : GReg)
  /-- OR, R191. -/
  | or (d : SDst) (a : SSrc) (b : GReg)
  /-- XOR, R191. -/
  | xor (d : SDst) (a : SSrc) (b : GReg)
  /-- ANDN, R191. -/
  | andn (d : SDst) (a : SSrc) (b : GReg)
  /-- ORN, R191. -/
  | orn (d : SDst) (a : SSrc) (b : GReg)
  /-- XNOR, R191. -/
  | xnor (d : SDst) (a : SSrc) (b : GReg)
  /-- SLL, R191. -/
  | sll (d : SDst) (a : SSrc) (b : GReg)
  /-- SRL, R191. -/
  | srl (d : SDst) (a : SSrc) (b : GReg)
  /-- SRA, R191. -/
  | sra (d : SDst) (a : SSrc) (b : GReg)
  /-- ROL, R191. -/
  | rol (d : SDst) (a : SSrc) (b : GReg)
  /-- ROR, R191. -/
  | ror (d : SDst) (a : SSrc) (b : GReg)
  /-- MIN, R191. -/
  | min (d : SDst) (a : SSrc) (b : GReg)
  /-- MAX, R191. -/
  | max (d : SDst) (a : SSrc) (b : GReg)
  /-- MINN, R191. -/
  | minn (d : SDst) (a : SSrc) (b : GReg)
  /-- MAXN, R191. -/
  | maxn (d : SDst) (a : SSrc) (b : GReg)
  /-- SLT, R191. -/
  | slt (d : SDst) (a : SSrc) (b : GReg)
  /-- SLTN, R191. -/
  | sltn (d : SDst) (a : SSrc) (b : GReg)
  /-- SEL, R191. -/
  | sel (d : SDst) (a : SSrc) (b : GReg)
  /-- MUL, R194. -/
  | mul (d : GReg) (a : GReg) (b : GReg)
  /-- MULH, R194. -/
  | mulh (d : GReg) (a : GReg) (b : GReg)
  /-- MULHN, R194. -/
  | mulhn (d : GReg) (a : GReg) (b : GReg)
  /-- MULHSN, R194. -/
  | mulhsn (d : GReg) (a : GReg) (b : GReg)
  /-- DIV, R194. -/
  | div (d : GReg) (a : GReg) (b : GReg)
  /-- DIVN, R194. -/
  | divn (d : GReg) (a : GReg) (b : GReg)
  /-- REM, R194. -/
  | rem (d : GReg) (a : GReg) (b : GReg)
  /-- REMN, R194. -/
  | remn (d : GReg) (a : GReg) (b : GReg)
  /-- CLZ, R195. -/
  | clz (d : GReg) (a : GReg)
  /-- CTZ, R195. -/
  | ctz (d : GReg) (a : GReg)
  /-- POPC, R195. -/
  | popc (d : GReg) (a : GReg)
  /-- BREV, R195. -/
  | brev (d : GReg) (a : GReg)
  /-- BSWAP, R195. -/
  | bswap (d : GReg) (a : GReg)
  /-- EXTS, R196. -/
  | exts (d : GReg) (a : GReg) (p : BitVec 6) (l : BitVec 6)
  /-- EXTZ, R196. -/
  | extz (d : GReg) (a : GReg) (p : BitVec 6) (l : BitVec 6)
  /-- INS, R196. -/
  | ins (d : GReg) (a : GReg) (p : BitVec 6) (l : BitVec 6)
  /-- ADDSH, R197. -/
  | addsh (d : GReg) (a : GReg) (b : GReg) (k : BitVec 3)
  /-- ADDI, R198. -/
  | addi (d : GReg) (a : GReg) (i : BitVec 14)
  /-- ANDI, R198. -/
  | andi (d : GReg) (a : GReg) (i : BitVec 14)
  /-- ORI, R198. -/
  | ori (d : GReg) (a : GReg) (i : BitVec 14)
  /-- XORI, R198. -/
  | xori (d : GReg) (a : GReg) (i : BitVec 14)
  /-- SLLI, R199. -/
  | slli (d : GReg) (a : GReg) (k : BitVec 6)
  /-- SRLI, R199. -/
  | srli (d : GReg) (a : GReg) (k : BitVec 6)
  /-- SRAI, R199. -/
  | srai (d : GReg) (a : GReg) (k : BitVec 6)
  /-- RORI, R199. -/
  | rori (d : GReg) (a : GReg) (k : BitVec 6)
  /-- SLTI, R198. -/
  | slti (d : GReg) (a : GReg) (i : BitVec 14)
  /-- SLTNI, R198. -/
  | sltni (d : GReg) (a : GReg) (i : BitVec 14)
  /-- ADDW, R200. -/
  | addw (d : GReg) (a : GReg) (b : GReg)
  /-- SUBW, R200. -/
  | subw (d : GReg) (a : GReg) (b : GReg)
  /-- SLLW, R200. -/
  | sllw (d : GReg) (a : GReg) (b : GReg)
  /-- SRLW, R200. -/
  | srlw (d : GReg) (a : GReg) (b : GReg)
  /-- SRAW, R200. -/
  | sraw (d : GReg) (a : GReg) (b : GReg)
  /-- MULW, R200. -/
  | mulw (d : GReg) (a : GReg) (b : GReg)
  /-- FADD, R218. -/
  | fadd (d : GReg) (a : GReg) (b : GReg) (r : Rnd) (f : Fmt)
  /-- FSUB, R218. -/
  | fsub (d : GReg) (a : GReg) (b : GReg) (r : Rnd) (f : Fmt)
  /-- FMUL, R218. -/
  | fmul (d : GReg) (a : GReg) (b : GReg) (r : Rnd) (f : Fmt)
  /-- FDIV, R218. -/
  | fdiv (d : GReg) (a : GReg) (b : GReg) (r : Rnd) (f : Fmt)
  /-- FSQRT, R218. -/
  | fsqrt (d : GReg) (a : GReg) (r : Rnd) (f : Fmt)
  /-- FMIN, R218. -/
  | fmin (d : GReg) (a : GReg) (b : GReg) (r : Rnd) (f : Fmt)
  /-- FMAX, R218. -/
  | fmax (d : GReg) (a : GReg) (b : GReg) (r : Rnd) (f : Fmt)
  /-- FSGNJ, R219. -/
  | fsgnj (d : GReg) (a : GReg) (b : GReg) (f : Fmt)
  /-- FSGNJN, R219. -/
  | fsgnjn (d : GReg) (a : GReg) (b : GReg) (f : Fmt)
  /-- FSGNJX, R219. -/
  | fsgnjx (d : GReg) (a : GReg) (b : GReg) (f : Fmt)
  /-- FEQ, R220. -/
  | feq (d : GReg) (a : GReg) (b : GReg) (f : Fmt)
  /-- FLT, R220. -/
  | flt (d : GReg) (a : GReg) (b : GReg) (f : Fmt)
  /-- FLE, R220. -/
  | fle (d : GReg) (a : GReg) (b : GReg) (f : Fmt)
  /-- FCLASS, R221. -/
  | fclass (d : GReg) (a : GReg) (f : Fmt)
  /-- FCVT, R223. -/
  | fcvt (d : GReg) (a : GReg) (s : CvtType) (r : Rnd) (t : CvtType)
  /-- FRSQE, R224. -/
  | frsqe (d : GReg) (a : GReg) (f : Fmt)
  /-- FRCPE, R224. -/
  | frcpe (d : GReg) (a : GReg) (f : Fmt)
  /-- FEXP2, R225. -/
  | fexp2 (d : GReg) (a : GReg) (f : Fmt)
  /-- FLOG2, R225. -/
  | flog2 (d : GReg) (a : GReg) (f : Fmt)
  /-- FSIN, R225. -/
  | fsin (d : GReg) (a : GReg) (f : Fmt)
  /-- FCOS, R225. -/
  | fcos (d : GReg) (a : GReg) (f : Fmt)
  /-- FTANH, R225. -/
  | ftanh (d : GReg) (a : GReg) (f : Fmt)
  /-- FATAN, R225. -/
  | fatan (d : GReg) (a : GReg) (f : Fmt)
  /-- FRSQ, R225. -/
  | frsq (d : GReg) (a : GReg) (f : Fmt)
  /-- FRCP, R225. -/
  | frcp (d : GReg) (a : GReg) (f : Fmt)
  /-- FFMA, R226. -/
  | ffma (d : GReg) (a : GReg) (b : GReg) (c : GReg) (f : Fmt) (r : Rnd4)
  /-- FFMS, R226. -/
  | ffms (d : GReg) (a : GReg) (b : GReg) (c : GReg) (f : Fmt) (r : Rnd4)
  /-- FNFMA, R226. -/
  | fnfma (d : GReg) (a : GReg) (b : GReg) (c : GReg) (f : Fmt) (r : Rnd4)
  /-- FNFMS, R226. -/
  | fnfms (d : GReg) (a : GReg) (b : GReg) (c : GReg) (f : Fmt) (r : Rnd4)
  /-- VADD, R250. -/
  | vadd (d : VReg) (a : VReg) (b : VReg) (m : MReg) (e : EW)
  /-- VSUB, R250. -/
  | vsub (d : VReg) (a : VReg) (b : VReg) (m : MReg) (e : EW)
  /-- VMUL, R250. -/
  | vmul (d : VReg) (a : VReg) (b : VReg) (m : MReg) (e : EW)
  /-- VMULH, R250. -/
  | vmulh (d : VReg) (a : VReg) (b : VReg) (m : MReg) (e : EW)
  /-- VAND, R250. -/
  | vand (d : VReg) (a : VReg) (b : VReg) (m : MReg) (e : EW)
  /-- VOR, R250. -/
  | vor (d : VReg) (a : VReg) (b : VReg) (m : MReg) (e : EW)
  /-- VXOR, R250. -/
  | vxor (d : VReg) (a : VReg) (b : VReg) (m : MReg) (e : EW)
  /-- VSLL, R250. -/
  | vsll (d : VReg) (a : VReg) (b : VReg) (m : MReg) (e : EW)
  /-- VSRL, R250. -/
  | vsrl (d : VReg) (a : VReg) (b : VReg) (m : MReg) (e : EW)
  /-- VSRA, R250. -/
  | vsra (d : VReg) (a : VReg) (b : VReg) (m : MReg) (e : EW)
  /-- VMIN, R250. -/
  | vmin (d : VReg) (a : VReg) (b : VReg) (m : MReg) (e : EW)
  /-- VMAX, R250. -/
  | vmax (d : VReg) (a : VReg) (b : VReg) (m : MReg) (e : EW)
  /-- VMINN, R250. -/
  | vminn (d : VReg) (a : VReg) (b : VReg) (m : MReg) (e : EW)
  /-- VMAXN, R250. -/
  | vmaxn (d : VReg) (a : VReg) (b : VReg) (m : MReg) (e : EW)
  /-- VFADD, R251. -/
  | vfadd (d : VReg) (a : VReg) (b : VReg) (m : MReg) (f : Fmt)
  /-- VFSUB, R251. -/
  | vfsub (d : VReg) (a : VReg) (b : VReg) (m : MReg) (f : Fmt)
  /-- VFMUL, R251. -/
  | vfmul (d : VReg) (a : VReg) (b : VReg) (m : MReg) (f : Fmt)
  /-- VFDIV, R251. -/
  | vfdiv (d : VReg) (a : VReg) (b : VReg) (m : MReg) (f : Fmt)
  /-- VFSQRT, R251. -/
  | vfsqrt (d : VReg) (a : VReg) (m : MReg) (f : Fmt)
  /-- VFMIN, R251. -/
  | vfmin (d : VReg) (a : VReg) (b : VReg) (m : MReg) (f : Fmt)
  /-- VFMAX, R251. -/
  | vfmax (d : VReg) (a : VReg) (b : VReg) (m : MReg) (f : Fmt)
  /-- VFFMA, R252. -/
  | vffma (d : VReg) (a : VReg) (b : VReg) (c : VReg) (f : Fmt)
  /-- VFFMS, R252. -/
  | vffms (d : VReg) (a : VReg) (b : VReg) (c : VReg) (f : Fmt)
  /-- VFNFMA, R252. -/
  | vfnfma (d : VReg) (a : VReg) (b : VReg) (c : VReg) (f : Fmt)
  /-- VFNFMS, R252. -/
  | vfnfms (d : VReg) (a : VReg) (b : VReg) (c : VReg) (f : Fmt)
  /-- VEQ, R254. -/
  | veq (d : MReg) (a : VReg) (b : VReg) (m : MReg) (e : EW)
  /-- VLT, R254. -/
  | vlt (d : MReg) (a : VReg) (b : VReg) (m : MReg) (e : EW)
  /-- VLTN, R254. -/
  | vltn (d : MReg) (a : VReg) (b : VReg) (m : MReg) (e : EW)
  /-- VFEQ, R254. -/
  | vfeq (d : MReg) (a : VReg) (b : VReg) (m : MReg) (f : Fmt)
  /-- VFLT, R254. -/
  | vflt (d : MReg) (a : VReg) (b : VReg) (m : MReg) (f : Fmt)
  /-- VFLE, R254. -/
  | vfle (d : MReg) (a : VReg) (b : VReg) (m : MReg) (f : Fmt)
  /-- VSEL, R255. -/
  | vsel (d : VReg) (a : VReg) (b : VReg) (m : MReg) (e : EW)
  /-- VRSUM, R257. -/
  | vrsum (d : VDst) (a : VReg) (m : MReg) (e : EW)
  /-- VRMIN, R257. -/
  | vrmin (d : VDst) (a : VReg) (m : MReg) (e : EW)
  /-- VRMAX, R257. -/
  | vrmax (d : VDst) (a : VReg) (m : MReg) (e : EW)
  /-- VRFSUM, R257. -/
  | vrfsum (d : VDst) (a : VReg) (m : MReg) (f : Fmt)
  /-- VPERM, R260. -/
  | vperm (d : VReg) (a : VReg) (b : VReg) (m : MReg) (e : EW)
  /-- VZIP, R261. -/
  | vzip (d : VReg) (a : VReg) (b : VReg) (m : MReg) (e : EW)
  /-- VUNZIP, R261. -/
  | vunzip (d : VReg) (a : VReg) (b : VReg) (m : MReg) (e : EW)
  /-- VBCAST, R259. -/
  | vbcast (d : VReg) (a : VSrc) (m : MReg) (e : EW)
  /-- VEXT, R258. -/
  | vext (d : VDst) (a : VReg) (b : GReg) (m : MReg) (e : EW)
  /-- VINS, R258. -/
  | vins (d : VReg) (a : GReg) (b : GReg) (m : MReg) (e : EW)
  /-- VCVT, R262. -/
  | vcvt (d : VReg) (a : VReg) (s : CvtType) (m : MReg) (r : Rnd4) (t : CvtType)
  /-- VDOT4, R263. -/
  | vdot4 (d : VReg) (a : VReg) (b : VReg) (m : MReg) (t : Dot4Type)
  /-- VQ8, R264. -/
  | vq8 (d : VReg) (a : VReg) (b : VReg) (m : MReg) (t : Q8Type) (p : Fin 4)
  /-- VFRSQE, R253. -/
  | vfrsqe (d : VReg) (a : VReg) (m : MReg) (f : Fmt)
  /-- VFRCPE, R253. -/
  | vfrcpe (d : VReg) (a : VReg) (m : MReg) (f : Fmt)
  /-- MAND, R256. -/
  | mand (d : MReg) (a : MReg) (b : MReg)
  /-- MOR, R256. -/
  | mor (d : MReg) (a : MReg) (b : MReg)
  /-- MXOR, R256. -/
  | mxor (d : MReg) (a : MReg) (b : MReg)
  /-- MNOT, R256. -/
  | mnot (d : MReg) (a : MReg)
  /-- MPOP, R256. -/
  | mpop (d : GReg) (a : MReg)
  /-- MFIRST, R256. -/
  | mfirst (d : GReg) (a : MReg)
  /-- QCNT, R265. -/
  | qcnt (d : GReg) (q : QReg)
  /-- BARQ, R323. -/
  | barq (d : VReg) (a : VReg) (b : VReg) (c : BitVec 2)
  /-- XLAUNCH_READ, R306. -/
  | xlaunchRead
  /-- TQUOTA_WRITE, R352. -/
  | tquotaWrite
  /-- ASIDR_WRITE, R213. -/
  | asidrWrite
  /-- REGISTER_WRITE, R6. -/
  | registerWrite
  /-- ISSUE_CYCLE, R335. -/
  | issueCycle
  /-- BASSOON_ISSUE, R336. -/
  | bassoonIssue
  /-- FAULT_PATH, R410. -/
  | faultPath
  /-- QUEUE_WATCHDOG, R466. -/
  | queueWatchdog
  /-- TASK_MESSAGE_ARRIVAL, R45. -/
  | taskMessageArrival
  /-- FAULT_REPORT_ARRIVAL, R45. -/
  | faultReportArrival
  /-- BLOCK_MESSAGE, R321. -/
  | blockMessage
  /-- REDELIVERY, R47. -/
  | redelivery
  /-- DISPATCH, R333. -/
  | dispatch
  /-- AGING_RISE, R49. -/
  | agingRise
  /-- ACKNOWLEDGEMENT, R50. -/
  | acknowledgement
  /-- PRE_EMPT_MESSAGE, R55. -/
  | preEmptMessage
  /-- SAFE_POINT_SAVE, R56. -/
  | safePointSave
  /-- RESUME_MESSAGE, R60. -/
  | resumeMessage
  /-- RESUMPTION, R60. -/
  | resumption
  /-- REMOTE_ATOMIC_MESSAGE, R281. -/
  | remoteAtomicMessage
  /-- REMOTE_ATOMIC_REPLY, R281. -/
  | remoteAtomicReply
  /-- ATOMIC_AT_HOME, R144. -/
  | atomicAtHome
  /-- SHIP_PACKET_ARRIVAL, R231. -/
  | shipPacketArrival
  /-- SHIP_RESEND, R228. -/
  | shipResend
  /-- GUEST_ENTRY_COMPLETION, R231. -/
  | guestEntryCompletion
  /-- SHIP_REPLY, R236. -/
  | shipReply
  /-- SQUASH_NOTICE, R237. -/
  | squashNotice
  /-- SHIP_TIMEOUT, R436. -/
  | shipTimeout
  /-- ENGINE_COMMAND_ARRIVAL, R300. -/
  | engineCommandArrival
  /-- COMMAND_ACCEPTANCE_REPLY, R313. -/
  | commandAcceptanceReply
  /-- RESEND_AFTER_BACKOFF, R300. -/
  | resendAfterBackoff
  /-- COMPLETION_MESSAGE, R302. -/
  | completionMessage
  /-- ENGINE_FAULT, R452. -/
  | engineFault
  /-- MXACT_RESTART, R454. -/
  | mxactRestart
  /-- MXACT_ABANDON, R454. -/
  | mxactAbandon
  /-- NRU_UPDATE, R114. -/
  | nruUpdate
  /-- UPDATE_REFUSAL, R448. -/
  | updateRefusal
  /-- ACCUMULATOR_READ, R114. -/
  | accumulatorRead
  /-- ACCUMULATOR_EVICTION, R116. -/
  | accumulatorEviction
  /-- CLAIM, R153. -/
  | claim
  /-- RECALL, R154. -/
  | recall
  /-- RECALL_ACK, R154. -/
  | recallAck
  /-- LL_TLB_EVICTION, R155. -/
  | llTlbEviction
  /-- PAGE_WALK, R118. -/
  | pageWalk
  /-- GETS, R159. -/
  | gets
  /-- GETM, R159. -/
  | getm
  /-- PUTS, R159. -/
  | puts
  /-- PUTE, R159. -/
  | pute
  /-- PUTM, R159. -/
  | putm
  /-- FWD_GETS, R159. -/
  | fwdGets
  /-- FWD_GETM, R159. -/
  | fwdGetm
  /-- INV, R159. -/
  | inv
  /-- DATA, R159. -/
  | data
  /-- INV_ACK, R159. -/
  | invAck
  /-- PUT_ACK, R159. -/
  | putAck
  /-- SNPINV, R162. -/
  | snpinv
  /-- SNPDATA, R162. -/
  | snpdata
  /-- HOST_MEMORY_REQUEST, R161. -/
  | hostMemoryRequest
  /-- HOST_REQUEST_FAILURE, R479. -/
  | hostRequestFailure
  /-- HOST_COMPLETION_TIMEOUT, R479. -/
  | hostCompletionTimeout
  /-- HCO_FALLBACK, R480. -/
  | hcoFallback
  /-- HOST_LINK_DOWN, R481. -/
  | hostLinkDown
  /-- WORK_QUEUE_RECORD_ARRIVAL, R329. -/
  | workQueueRecordArrival
  /-- DISPENSER_ASSIGN, R331. -/
  | dispenserAssign
  /-- REBALANCER_PASS, R337. -/
  | rebalancerPass
  /-- TASK_MOVE, R338. -/
  | taskMove
  /-- FORWARDING_ENTRY_EXPIRY, R339. -/
  | forwardingEntryExpiry
  /-- LQBELL_WRITE, R324. -/
  | lqbellWrite
  /-- LAUNCH_RECORD, R328. -/
  | launchRecord
  /-- LAUNCH_RECORD_COMPLETE, R328. -/
  | launchRecordComplete
  /-- BOOST_BOUNDARY, R345. -/
  | boostBoundary
  /-- CLOCK_CHANGE_COMPLETE, R343. -/
  | clockChangeComplete
  /-- CURRENT_WINDOW_END, R347. -/
  | currentWindowEnd
  /-- ATTREQ_GO, R362. -/
  | attreqGo
  /-- ATTESTATION_REPORT, R362. -/
  | attestationReport
  /-- MAC_RETURN, R215. -/
  | macReturn
  /-- ACCEPT_HIGH_WRITE, R364. -/
  | acceptHighWrite
  /-- ACCEPT_COMMIT, R364. -/
  | acceptCommit
  /-- RCVREQ_GO, R486. -/
  | rcvreqGo
  /-- START_UP, R354. -/
  | startUp
  /-- PWRFAIL, R472. -/
  | pwrfail
  /-- SECURITY_ALARM, R482. -/
  | securityAlarm
  /-- HOUSEKEEPING_RANGE_VIOLATION, R361. -/
  | housekeepingRangeViolation
  /-- FLIT_CRC_ERROR, R476. -/
  | flitCrcError
  /-- BOUNDARY_RETRAIN, R476. -/
  | boundaryRetrain
  /-- FABRIC_CRC_ERROR, R478. -/
  | fabricCrcError
  /-- FABRIC_PORT_DISABLE, R478. -/
  | fabricPortDisable
  /-- PATROL_SCRUB, R443. -/
  | patrolScrub
  /-- DIRECTORY_ENTRY_ERROR, R445. -/
  | directoryEntryError
  /-- OWNER_FIELD_ERROR, R445. -/
  | ownerFieldError
  /-- CORE_REGISTER_ERROR, R471. -/
  | coreRegisterError
  /-- SHOOTDOWN_TIMEOUT, R457. -/
  | shootdownTimeout
  /-- WFM_WAKE, R210. -/
  | wfmWake
  /-- BARRIER_EPISODE_COMPLETION, R296. -/
  | barrierEpisodeCompletion
  /-- FENCE_TOKEN_COMPLETION, R132. -/
  | fenceTokenCompletion
  /-- VECTOR_WORD_START, R241. -/
  | vectorWordStart
  /-- VECTOR_WORD_COMPLETION, R243. -/
  | vectorWordCompletion
  /-- TASK_CONTROL_REQUEST, R294. -/
  | taskControlRequest
  /-- FABRIC_MEMORY_REQUEST, R148. -/
  | fabricMemoryRequest
  /-- BACK_INVALIDATION_RESPONSE, R161. -/
  | backInvalidationResponse
  /-- QUINCE_MAC_VERIFICATION, R314. -/
  | quinceMacVerification
deriving DecidableEq, Repr

end Sys2Proof
end

