-- ==== Sys2Proof/Decode.lean ====
section
/-!
DEFINITION. The decoder of DZ words (R163, R168, R169, R171, R187, R188), total on every 32-bit value and rejecting by
name, and after it the encoder of the same tables. A word is a natural number below 2^32; bit 30 (the place in a
bundle) is no operand. Checks that depend on the slot, and the field combinations of R424 details 5 (barriers), 7 and
9, follow the decoder (`encodingFault` in Machine/Issue.lean).
-/
namespace Sys2Proof

/-- Why a word is no instruction of R187 or R188 (R171, R424). -/
inductive DecodeError where
  /-- A reserved major opcode (R189). -/
  | reservedMajor
  /-- A reserved sub-operation, or `fn[3:0] = 15` of a message word. -/
  | subOp
  /-- A non-zero bit in a field that must be zero (R272, R193, R248). -/
  | zeroField
  /-- A rounding code 4 to 6. -/
  | rounding
  /-- A reserved type or scope code. -/
  | typeCode
  /-- A queue named outside R174. -/
  | queueName
deriving DecidableEq, Repr

/-- The detail of R424. -/
def DecodeError.detail : DecodeError → Nat
  | .reservedMajor => 1
  | .subOp => 2
  | .zeroField => 3
  | .rounding => 4
  | .typeCode => 5
  | .queueName => 6

/-- The field of `n` bits at `lo`. -/
def fld (w lo n : Nat) : Nat := w / 2 ^ lo % 2 ^ n

def gAt (w lo : Nat) : GReg := Fin.ofNat 32 (w / 2 ^ lo)
def vAt (w lo : Nat) : VReg := Fin.ofNat 32 (w / 2 ^ lo)
def mAt (w lo : Nat) : MReg := Fin.ofNat 8 (w / 2 ^ lo)
def qAt (w lo : Nat) : QReg := Fin.ofNat 4 (w / 2 ^ lo)
def pairAt (w lo : Nat) : GPair := Fin.ofNat 16 (w / 2 ^ lo)
def fin4At (w lo : Nat) : Fin 4 := Fin.ofNat 4 (w / 2 ^ lo)
def fin8At (w lo : Nat) : Fin 8 := Fin.ofNat 8 (w / 2 ^ lo)
def fin32At (w lo : Nat) : Fin 32 := Fin.ofNat 32 (w / 2 ^ lo)
def bvAt (n w lo : Nat) : BitVec n := BitVec.ofNat n (w / 2 ^ lo)
def bitAt (w lo : Nat) : Bool := w / 2 ^ lo % 2 == 1

/-- The order field of CM (R168). -/
def orderAt (w lo : Nat) : Order :=
  match fld w lo 2 with | 0 => .none | 1 => .aq | 2 => .rl | _ => .ar
def Order.code : Order → Nat | .none => 0 | .aq => 1 | .rl => 2 | .ar => 3

/-- Two-bit rounding: 0 RNE, 1 RTZ, 2 RDN, 3 dynamic (R169). -/
def rnd4At (w lo : Nat) : Rnd4 :=
  match fld w lo 2 with | 0 => .rne | 1 => .rtz | 2 => .rdn | _ => .dyn
def Rnd4.code : Rnd4 → Nat | .rne => 0 | .rtz => 1 | .rdn => 2 | .dyn => 3

/-- Format codes (R63). -/
def fmtAt (w lo : Nat) : Fmt :=
  match fld w lo 2 with | 0 => .fp32 | 1 => .fp64 | 2 => .h16 | _ => .b16
def Fmt.code : Fmt → Nat | .fp32 => 0 | .fp64 => 1 | .h16 => 2 | .b16 => 3

/-- Width codes (R246). -/
def ewAt (w lo : Nat) : EW :=
  match fld w lo 2 with | 0 => .e8 | 1 => .e16 | 2 => .e32 | _ => .e64
def EW.code : EW → Nat | .e8 => 0 | .e16 => 1 | .e32 => 2 | .e64 => 3

/-- Element types of `VACC` (R284). -/
def accTypeAt (w lo : Nat) : AccType :=
  match fld w lo 2 with | 0 => .fp32 | 1 => .fp64 | 2 => .i32 | _ => .i64
def AccType.code : AccType → Nat | .fp32 => 0 | .fp64 => 1 | .i32 => 2 | .i64 => 3

/-- The type bit of `VDOT4` (R263). -/
def dot4At (w lo : Nat) : Dot4Type := if fld w lo 1 = 0 then .f8 else .i8
def Dot4Type.code : Dot4Type → Nat | .f8 => 0 | .i8 => 1

/-- The destination type of `VQ8` (R264). -/
def q8At (w lo : Nat) : Q8Type :=
  match fld w lo 2 with | 0 => .f8 | 1 => .f8w | 2 => .i8 | _ => .n8
def Q8Type.code : Q8Type → Nat | .f8 => 0 | .f8w => 1 | .i8 => 2 | .n8 => 3

/-- Scope codes; 6 and 7 are reserved (R31, R271). -/
def scopeAt (w lo : Nat) : Except DecodeError Scope :=
  match fld w lo 3 with
  | 0 => .ok .core | 1 => .ok .quad | 2 => .ok .die | 3 => .ok .pkg | 4 => .ok .dom | 5 => .ok .sys
  | _ => .error .typeCode
def Scope.code : Scope → Nat | .core => 0 | .quad => 1 | .die => 2 | .pkg => 3 | .dom => 4 | .sys => 5

/-- Three-bit rounding; 4 to 6 are reserved (R66). -/
def rndAt (w lo : Nat) : Except DecodeError Rnd :=
  match fld w lo 3 with
  | 0 => .ok .rne | 1 => .ok .rtz | 2 => .ok .rdn | 3 => .ok .rup | 7 => .ok .dyn
  | _ => .error .rounding
def Rnd.code : Rnd → Nat | .rne => 0 | .rtz => 1 | .rdn => 2 | .rup => 3 | .dyn => 7

/-- Conversion type codes; 12 to 15 are reserved (R73). -/
def cvtAt (w lo : Nat) : Except DecodeError CvtType :=
  match fld w lo 4 with
  | 0 => .ok .fp32 | 1 => .ok .fp64 | 2 => .ok .h16 | 3 => .ok .b16 | 4 => .ok .f8 | 5 => .ok .f8w
  | 6 => .ok .i32 | 7 => .ok .n32 | 8 => .ok .i64 | 9 => .ok .n64 | 10 => .ok .i8 | 11 => .ok .n8
  | _ => .error .typeCode
def CvtType.code : CvtType → Nat
  | .fp32 => 0 | .fp64 => 1 | .h16 => 2 | .b16 => 3 | .f8 => 4 | .f8w => 5
  | .i32 => 6 | .n32 => 7 | .i64 => 8 | .n64 => 9 | .i8 => 10 | .n8 => 11

/-- rd of an INT word: fn9[8] selects `q0` or `q1` (R174). -/
def sdstAt (w : Nat) : Except DecodeError SDst :=
  if fld w 8 1 = 0 then .ok (.g (gAt w 19))
  else if fld w 19 5 < 2 then .ok (.q (Fin.ofNat 2 (w / 2 ^ 19))) else .error .queueName
def SDst.code : SDst → Nat | .g r => r.val * 0x80000 | .q n => n.val * 0x80000 + 0x100

/-- rs1 of an INT word: fn9[7] selects `q2` or `q3` (R174). -/
def ssrcAt (w : Nat) : Except DecodeError SSrc :=
  if fld w 7 1 = 0 then .ok (.g (gAt w 14))
  else if fld w 15 4 = 1 then .ok (.q (Fin.ofNat 2 (w / 2 ^ 14))) else .error .queueName
def SSrc.code : SSrc → Nat | .g r => r.val * 0x4000 | .q n => n.val * 0x4000 + 0x8080

/-- rd of VRED and `VEXT`: fn6[3] selects `q2` or `q3` (R174). -/
def vdstAt (w : Nat) : Except DecodeError VDst :=
  if fld w 3 1 = 0 then .ok (.g (gAt w 19))
  else if fld w 20 4 = 1 then .ok (.q (Fin.ofNat 2 (w / 2 ^ 19))) else .error .queueName
def VDst.code : VDst → Nat | .g r => r.val * 0x80000 | .q n => n.val * 0x80000 + 0x100008

/-- vs1 of `VBCAST`: fn6[3] selects `q0` or `q1` (R174). -/
def vsrcAt (w : Nat) : Except DecodeError VSrc :=
  if fld w 3 1 = 0 then .ok (.g (gAt w 14))
  else if fld w 14 5 < 2 then .ok (.q (Fin.ofNat 2 (w / 2 ^ 14))) else .error .queueName
def VSrc.code : VSrc → Nat | .g r => r.val * 0x4000 | .q n => n.val * 0x4000 + 8

/-- PLEN of a message word: 15 is no PLEN (R272, R288). -/
def plenAt (w : Nat) : Except DecodeError Plen :=
  if h : fld w 0 4 < 15 then .ok ⟨fld w 0 4, h⟩ else .error .subOp

/-- A field that must be zero (R171). -/
def zeroAt (w lo n : Nat) : Except DecodeError Unit :=
  if fld w lo n = 0 then .ok () else .error .zeroField

/-- fn[8:4] of a message word is zero when PLEN is zero (R272). -/
def zeroPayload (n : Plen) (w : Nat) : Except DecodeError Unit :=
  if n.val = 0 ∧ fld w 4 5 ≠ 0 then .error .zeroField else .ok ()

/-- C major 0x18: sub-operations of R187. -/
def decodeC18 (w : Nat) : Except DecodeError Instr :=
  match fld w 0 4 with
  | 0 => do
    let s ← scopeAt w 6
    .ok (.amoaddW (gAt w 19) (gAt w 14) (gAt w 9) s (orderAt w 4))
  | 1 => do
    let s ← scopeAt w 6
    .ok (.amoandW (gAt w 19) (gAt w 14) (gAt w 9) s (orderAt w 4))
  | 2 => do
    let s ← scopeAt w 6
    .ok (.amoorW (gAt w 19) (gAt w 14) (gAt w 9) s (orderAt w 4))
  | 3 => do
    let s ← scopeAt w 6
    .ok (.amoxorW (gAt w 19) (gAt w 14) (gAt w 9) s (orderAt w 4))
  | 4 => do
    let s ← scopeAt w 6
    .ok (.amominW (gAt w 19) (gAt w 14) (gAt w 9) s (orderAt w 4))
  | 5 => do
    let s ← scopeAt w 6
    .ok (.amomaxW (gAt w 19) (gAt w 14) (gAt w 9) s (orderAt w 4))
  | 6 => do
    let s ← scopeAt w 6
    .ok (.amominnW (gAt w 19) (gAt w 14) (gAt w 9) s (orderAt w 4))
  | 7 => do
    let s ← scopeAt w 6
    .ok (.amomaxnW (gAt w 19) (gAt w 14) (gAt w 9) s (orderAt w 4))
  | 8 => do
    let s ← scopeAt w 6
    .ok (.amoswpW (gAt w 19) (gAt w 14) (gAt w 9) s (orderAt w 4))
  | 9 => do
    let s ← scopeAt w 6
    .ok (.amocasW (gAt w 19) (gAt w 14) (gAt w 9) s (orderAt w 4))
  | _ => .error .subOp

/-- C major 0x19: sub-operations of R187. -/
def decodeC19 (w : Nat) : Except DecodeError Instr :=
  match fld w 0 4 with
  | 0 => do
    let s ← scopeAt w 6
    .ok (.amoaddD (gAt w 19) (gAt w 14) (gAt w 9) s (orderAt w 4))
  | 1 => do
    let s ← scopeAt w 6
    .ok (.amoandD (gAt w 19) (gAt w 14) (gAt w 9) s (orderAt w 4))
  | 2 => do
    let s ← scopeAt w 6
    .ok (.amoorD (gAt w 19) (gAt w 14) (gAt w 9) s (orderAt w 4))
  | 3 => do
    let s ← scopeAt w 6
    .ok (.amoxorD (gAt w 19) (gAt w 14) (gAt w 9) s (orderAt w 4))
  | 4 => do
    let s ← scopeAt w 6
    .ok (.amominD (gAt w 19) (gAt w 14) (gAt w 9) s (orderAt w 4))
  | 5 => do
    let s ← scopeAt w 6
    .ok (.amomaxD (gAt w 19) (gAt w 14) (gAt w 9) s (orderAt w 4))
  | 6 => do
    let s ← scopeAt w 6
    .ok (.amominnD (gAt w 19) (gAt w 14) (gAt w 9) s (orderAt w 4))
  | 7 => do
    let s ← scopeAt w 6
    .ok (.amomaxnD (gAt w 19) (gAt w 14) (gAt w 9) s (orderAt w 4))
  | 8 => do
    let s ← scopeAt w 6
    .ok (.amoswpD (gAt w 19) (gAt w 14) (gAt w 9) s (orderAt w 4))
  | 9 => do
    let s ← scopeAt w 6
    .ok (.amocasD (gAt w 19) (gAt w 14) (gAt w 9) s (orderAt w 4))
  | _ => .error .subOp

/-- C major 0x1A: sub-operations of R187. -/
def decodeC1A (w : Nat) : Except DecodeError Instr :=
  match fld w 0 4 with
  | 0 => do
    zeroAt w 9 1
    zeroAt w 19 1
    let s ← scopeAt w 6
    .ok (.cas2 (pairAt w 20) (gAt w 14) (pairAt w 10) s (orderAt w 4))
  | 1 => do
    zeroAt w 9 1
    zeroAt w 19 1
    let s ← scopeAt w 6
    .ok (.swp2 (pairAt w 20) (gAt w 14) (pairAt w 10) s (orderAt w 4))
  | _ => .error .subOp

/-- C major 0x1B: sub-operations of R187. -/
def decodeC1B (w : Nat) : Except DecodeError Instr :=
  match fld w 0 4 with
  | 0 => do
    zeroAt w 19 5
    let s ← scopeAt w 6
    .ok (.redFaddS (gAt w 14) (gAt w 9) s (orderAt w 4))
  | 1 => do
    zeroAt w 19 5
    let s ← scopeAt w 6
    .ok (.redFaddD (gAt w 14) (gAt w 9) s (orderAt w 4))
  | 2 => do
    zeroAt w 19 5
    let s ← scopeAt w 6
    .ok (.redIaddW (gAt w 14) (gAt w 9) s (orderAt w 4))
  | 3 => do
    zeroAt w 19 5
    let s ← scopeAt w 6
    .ok (.redIaddD (gAt w 14) (gAt w 9) s (orderAt w 4))
  | _ => .error .subOp

/-- C major 0x1D: sub-operations of R187. -/
def decodeC1D (w : Nat) : Except DecodeError Instr :=
  match fld w 0 4 with
  | 0 => do
    zeroAt w 19 5
    let s ← scopeAt w 6
    .ok (.accinit (gAt w 14) (gAt w 9) s (orderAt w 4))
  | 1 => do
    zeroAt w 9 5
    let s ← scopeAt w 6
    .ok (.accrd (gAt w 19) (gAt w 14) s (orderAt w 4))
  | 2 => do
    zeroAt w 9 5
    zeroAt w 19 5
    let s ← scopeAt w 6
    .ok (.accz (gAt w 14) s (orderAt w 4))
  | _ => .error .subOp

/-- C major 0x1E: sub-operations of R187. -/
def decodeC1E (w : Nat) : Except DecodeError Instr :=
  match fld w 0 4 with
  | 0 => do
    zeroAt w 4 2
    zeroAt w 13 6
    let s ← scopeAt w 6
    .ok (.fiss (gAt w 19) (bvAt 4 w 9) s)
  | 1 => do
    zeroAt w 4 10
    zeroAt w 19 5
    .ok (.fwait (gAt w 14))
  | 2 => do
    zeroAt w 4 10
    .ok (.ftest (gAt w 19) (gAt w 14))
  | 3 => do
    zeroAt w 4 2
    zeroAt w 13 11
    let s ← scopeAt w 6
    .ok (.fence (bvAt 4 w 9) s)
  | 4 => do
    zeroAt w 4 20
    .ok (.fencef)
  | _ => .error .subOp

/-- C major 0x1F: sub-operations of R187. -/
def decodeC1F (w : Nat) : Except DecodeError Instr :=
  match fld w 0 4 with
  | 0 => do
    zeroAt w 4 2
    zeroAt w 9 5
    zeroAt w 19 5
    let s ← scopeAt w 6
    .ok (.clean (gAt w 14) s)
  | 1 => do
    zeroAt w 4 2
    zeroAt w 9 5
    zeroAt w 19 5
    let s ← scopeAt w 6
    .ok (.invl (gAt w 14) s)
  | 2 => do
    zeroAt w 4 2
    zeroAt w 9 5
    zeroAt w 19 5
    let s ← scopeAt w 6
    .ok (.flush (gAt w 14) s)
  | 3 => do
    zeroAt w 4 2
    zeroAt w 9 5
    zeroAt w 19 5
    let s ← scopeAt w 6
    .ok (.zline (gAt w 14) s)
  | 4 => do
    zeroAt w 4 2
    zeroAt w 9 5
    zeroAt w 19 5
    let s ← scopeAt w 6
    .ok (.pref (gAt w 14) s)
  | _ => .error .subOp

/-- C major 0x34: sub-operations of R187. -/
def decodeC34 (w : Nat) : Except DecodeError Instr :=
  match fld w 0 4 with
  | 0 => do
    zeroAt w 4 20
    .ok (.done)
  | 1 => do
    zeroAt w 4 20
    .ok (.yield)
  | 2 => do
    zeroAt w 4 10
    .ok (.tcancel (gAt w 19) (gAt w 14))
  | 3 => do
    zeroAt w 4 10
    .ok (.tqry (gAt w 19) (gAt w 14))
  | _ => .error .subOp

/-- C major 0x35: sub-operations of R187. -/
def decodeC35 (w : Nat) : Except DecodeError Instr :=
  match fld w 0 4 with
  | 0 => do
    zeroAt w 4 2
    zeroAt w 19 5
    let s ← scopeAt w 6
    .ok (.bara (gAt w 14) (gAt w 9) s)
  | 1 => do
    zeroAt w 4 2
    let s ← scopeAt w 6
    .ok (.barw (gAt w 19) (gAt w 14) (gAt w 9) s)
  | _ => .error .subOp

/-- C major 0x3A: sub-operations of R187. -/
def decodeC3A (w : Nat) : Except DecodeError Instr :=
  match fld w 11 3 with
  | 0 => do
    zeroAt w 14 5
    .ok (.csrr (gAt w 19) (bvAt 11 w 0))
  | 1 => do
    zeroAt w 19 5
    .ok (.csrw (gAt w 14) (bvAt 11 w 0))
  | 2 => .ok (.csrrw (gAt w 19) (gAt w 14) (bvAt 11 w 0))
  | 3 => do
    zeroAt w 19 5
    .ok (.csrs (gAt w 14) (bvAt 11 w 0))
  | 4 => do
    zeroAt w 19 5
    .ok (.csrc (gAt w 14) (bvAt 11 w 0))
  | _ => .error .subOp

/-- C major 0x3B: sub-operations of R187. -/
def decodeC3B (w : Nat) : Except DecodeError Instr :=
  match fld w 0 4 with
  | 0 => do
    zeroAt w 4 10
    zeroAt w 19 5
    .ok (.ecall (gAt w 14))
  | 1 => do
    zeroAt w 4 5
    zeroAt w 19 5
    .ok (.ebreak (bvAt 10 w 9))
  | 2 => do
    zeroAt w 4 20
    .ok (.tret)
  | 3 => do
    zeroAt w 4 10
    .ok (.wfm (gAt w 19) (gAt w 14))
  | 4 => do
    zeroAt w 4 5
    .ok (.tlbinv (gAt w 19) (gAt w 14) (gAt w 9))
  | 5 => do
    zeroAt w 4 15
    .ok (.halt (gAt w 19))
  | 6 => do
    zeroAt w 4 5
    .ok (.capmint (gAt w 19) (gAt w 14) (gAt w 9))
  | _ => .error .subOp

/-- The C-class majors (R187); an unlisted major is reserved (R189). -/
def decodeC (w : Nat) : Except DecodeError Instr :=
  match fld w 24 6 with
  | 0x00 => .ok (.ldb (gAt w 19) (gAt w 14) (bvAt 14 w 0))
  | 0x01 => .ok (.ldbn (gAt w 19) (gAt w 14) (bvAt 14 w 0))
  | 0x02 => .ok (.ldh (gAt w 19) (gAt w 14) (bvAt 14 w 0))
  | 0x03 => .ok (.ldhn (gAt w 19) (gAt w 14) (bvAt 14 w 0))
  | 0x04 => .ok (.ldw (gAt w 19) (gAt w 14) (bvAt 14 w 0))
  | 0x05 => .ok (.ldwn (gAt w 19) (gAt w 14) (bvAt 14 w 0))
  | 0x06 => .ok (.ldd (gAt w 19) (gAt w 14) (bvAt 14 w 0))
  | 0x07 => do
    zeroAt w 19 1
    .ok (.ldq (pairAt w 20) (gAt w 14) (bvAt 14 w 0))
  | 0x08 => .ok (.stb (gAt w 19) (gAt w 14) (bvAt 14 w 0))
  | 0x09 => .ok (.sth (gAt w 19) (gAt w 14) (bvAt 14 w 0))
  | 0x0A => .ok (.stw (gAt w 19) (gAt w 14) (bvAt 14 w 0))
  | 0x0B => .ok (.std (gAt w 19) (gAt w 14) (bvAt 14 w 0))
  | 0x0C => do
    zeroAt w 19 1
    .ok (.stq (pairAt w 20) (gAt w 14) (bvAt 14 w 0))
  | 0x10 => do
    zeroAt w 9 5
    .ok (.vld (vAt w 19) (gAt w 14) (mAt w 6) (bvAt 6 w 0))
  | 0x11 => do
    zeroAt w 9 5
    .ok (.vst (vAt w 19) (gAt w 14) (mAt w 6) (bvAt 6 w 0))
  | 0x12 => .ok (.vlds (vAt w 19) (gAt w 14) (gAt w 9) (mAt w 6) (bvAt 6 w 0))
  | 0x13 => .ok (.vsts (vAt w 19) (gAt w 14) (gAt w 9) (mAt w 6) (bvAt 6 w 0))
  | 0x14 => .ok (.vldx (vAt w 19) (gAt w 14) (vAt w 9) (mAt w 6) (bvAt 6 w 0))
  | 0x15 => .ok (.vstx (vAt w 19) (gAt w 14) (vAt w 9) (mAt w 6) (bvAt 6 w 0))
  | 0x16 => do
    zeroAt w 9 5
    .ok (.vldb (vAt w 19) (gAt w 14) (mAt w 6) (bvAt 6 w 0))
  | 0x18 => decodeC18 w
  | 0x19 => decodeC19 w
  | 0x1A => decodeC1A w
  | 0x1B => decodeC1B w
  | 0x1C => do
    zeroAt w 11 3
    .ok (.vacc (vAt w 19) (gAt w 14) (accTypeAt w 9) (mAt w 6) (bvAt 6 w 0))
  | 0x1D => decodeC1D w
  | 0x1E => decodeC1E w
  | 0x1F => decodeC1F w
  | 0x20 => .ok (.beq (gAt w 19) (gAt w 14) (bvAt 14 w 0))
  | 0x21 => .ok (.bne (gAt w 19) (gAt w 14) (bvAt 14 w 0))
  | 0x22 => .ok (.blt (gAt w 19) (gAt w 14) (bvAt 14 w 0))
  | 0x23 => .ok (.bge (gAt w 19) (gAt w 14) (bvAt 14 w 0))
  | 0x24 => .ok (.bltn (gAt w 19) (gAt w 14) (bvAt 14 w 0))
  | 0x25 => .ok (.bgen (gAt w 19) (gAt w 14) (bvAt 14 w 0))
  | 0x26 => do
    zeroAt w 14 5
    zeroAt w 22 2
    .ok (.bmany (mAt w 19) (bvAt 14 w 0))
  | 0x27 => do
    zeroAt w 14 5
    zeroAt w 22 2
    .ok (.bmall (mAt w 19) (bvAt 14 w 0))
  | 0x28 => .ok (.jal (gAt w 19) (bvAt 19 w 0))
  | 0x29 => .ok (.jalr (gAt w 19) (gAt w 14) (bvAt 14 w 0))
  | 0x2A => .ok (.lui (gAt w 19) (bvAt 19 w 0))
  | 0x2B => .ok (.addpc (gAt w 19) (bvAt 19 w 0))
  | 0x30 => do
    let n ← plenAt w
    zeroAt w 19 5
    zeroPayload n w
    .ok (.send (gAt w 14) (gAt w 9) (fin32At w 4) n)
  | 0x31 => do
    let n ← plenAt w
    zeroPayload n w
    .ok (.spawn (gAt w 19) (gAt w 14) (gAt w 9) (fin32At w 4) n)
  | 0x32 => do
    let n ← plenAt w
    zeroPayload n w
    .ok (.launch (gAt w 19) (gAt w 14) (gAt w 9) (fin32At w 4) n)
  | 0x33 => do
    zeroAt w 19 5
    .ok (.migr (gAt w 14) (bvAt 14 w 0))
  | 0x34 => decodeC34 w
  | 0x35 => decodeC35 w
  | 0x36 => do
    zeroAt w 19 5
    .ok (.safept (bvAt 19 w 0))
  | 0x37 => do
    zeroAt w 0 9
    zeroAt w 19 5
    .ok (.mma (gAt w 14) (gAt w 9))
  | 0x38 => do
    zeroAt w 0 9
    zeroAt w 19 5
    .ok (.mqd (gAt w 14) (gAt w 9))
  | 0x39 => do
    zeroAt w 13 1
    zeroAt w 23 1
    .ok (.rep (bitAt w 22) (bitAt w 21) (bitAt w 20) (bitAt w 19) (gAt w 14) (fin4At w 11) (bvAt 8 w 3) (fin8At w 0))
  | 0x3A => decodeC3A w
  | 0x3B => decodeC3B w
  | _ => .error .reservedMajor

/-- A major 0x00: sub-operations of R188. -/
def decodeA00 (w : Nat) : Except DecodeError Instr :=
  match fld w 0 5 with
  | 0 => do
    zeroAt w 5 2
    let d ← sdstAt w
    let a ← ssrcAt w
    .ok (.add d a (gAt w 9))
  | 1 => do
    zeroAt w 5 2
    let d ← sdstAt w
    let a ← ssrcAt w
    .ok (.sub d a (gAt w 9))
  | 2 => do
    zeroAt w 5 2
    let d ← sdstAt w
    let a ← ssrcAt w
    .ok (.and d a (gAt w 9))
  | 3 => do
    zeroAt w 5 2
    let d ← sdstAt w
    let a ← ssrcAt w
    .ok (.or d a (gAt w 9))
  | 4 => do
    zeroAt w 5 2
    let d ← sdstAt w
    let a ← ssrcAt w
    .ok (.xor d a (gAt w 9))
  | 5 => do
    zeroAt w 5 2
    let d ← sdstAt w
    let a ← ssrcAt w
    .ok (.andn d a (gAt w 9))
  | 6 => do
    zeroAt w 5 2
    let d ← sdstAt w
    let a ← ssrcAt w
    .ok (.orn d a (gAt w 9))
  | 7 => do
    zeroAt w 5 2
    let d ← sdstAt w
    let a ← ssrcAt w
    .ok (.xnor d a (gAt w 9))
  | 8 => do
    zeroAt w 5 2
    let d ← sdstAt w
    let a ← ssrcAt w
    .ok (.sll d a (gAt w 9))
  | 9 => do
    zeroAt w 5 2
    let d ← sdstAt w
    let a ← ssrcAt w
    .ok (.srl d a (gAt w 9))
  | 10 => do
    zeroAt w 5 2
    let d ← sdstAt w
    let a ← ssrcAt w
    .ok (.sra d a (gAt w 9))
  | 11 => do
    zeroAt w 5 2
    let d ← sdstAt w
    let a ← ssrcAt w
    .ok (.rol d a (gAt w 9))
  | 12 => do
    zeroAt w 5 2
    let d ← sdstAt w
    let a ← ssrcAt w
    .ok (.ror d a (gAt w 9))
  | 13 => do
    zeroAt w 5 2
    let d ← sdstAt w
    let a ← ssrcAt w
    .ok (.min d a (gAt w 9))
  | 14 => do
    zeroAt w 5 2
    let d ← sdstAt w
    let a ← ssrcAt w
    .ok (.max d a (gAt w 9))
  | 15 => do
    zeroAt w 5 2
    let d ← sdstAt w
    let a ← ssrcAt w
    .ok (.minn d a (gAt w 9))
  | 16 => do
    zeroAt w 5 2
    let d ← sdstAt w
    let a ← ssrcAt w
    .ok (.maxn d a (gAt w 9))
  | 17 => do
    zeroAt w 5 2
    let d ← sdstAt w
    let a ← ssrcAt w
    .ok (.slt d a (gAt w 9))
  | 18 => do
    zeroAt w 5 2
    let d ← sdstAt w
    let a ← ssrcAt w
    .ok (.sltn d a (gAt w 9))
  | 19 => do
    zeroAt w 5 2
    let d ← sdstAt w
    let a ← ssrcAt w
    .ok (.sel d a (gAt w 9))
  | _ => .error .subOp

/-- A major 0x01: sub-operations of R188. -/
def decodeA01 (w : Nat) : Except DecodeError Instr :=
  match fld w 0 3 with
  | 0 => do
    zeroAt w 3 6
    .ok (.mul (gAt w 19) (gAt w 14) (gAt w 9))
  | 1 => do
    zeroAt w 3 6
    .ok (.mulh (gAt w 19) (gAt w 14) (gAt w 9))
  | 2 => do
    zeroAt w 3 6
    .ok (.mulhn (gAt w 19) (gAt w 14) (gAt w 9))
  | 3 => do
    zeroAt w 3 6
    .ok (.mulhsn (gAt w 19) (gAt w 14) (gAt w 9))
  | 4 => do
    zeroAt w 3 6
    .ok (.div (gAt w 19) (gAt w 14) (gAt w 9))
  | 5 => do
    zeroAt w 3 6
    .ok (.divn (gAt w 19) (gAt w 14) (gAt w 9))
  | 6 => do
    zeroAt w 3 6
    .ok (.rem (gAt w 19) (gAt w 14) (gAt w 9))
  | _ => do
    zeroAt w 3 6
    .ok (.remn (gAt w 19) (gAt w 14) (gAt w 9))

/-- A major 0x02: sub-operations of R188. -/
def decodeA02 (w : Nat) : Except DecodeError Instr :=
  match fld w 0 3 with
  | 0 => do
    zeroAt w 3 11
    .ok (.clz (gAt w 19) (gAt w 14))
  | 1 => do
    zeroAt w 3 11
    .ok (.ctz (gAt w 19) (gAt w 14))
  | 2 => do
    zeroAt w 3 11
    .ok (.popc (gAt w 19) (gAt w 14))
  | 3 => do
    zeroAt w 3 11
    .ok (.brev (gAt w 19) (gAt w 14))
  | 4 => do
    zeroAt w 3 11
    .ok (.bswap (gAt w 19) (gAt w 14))
  | _ => .error .subOp

/-- A major 0x03: sub-operations of R188. -/
def decodeA03 (w : Nat) : Except DecodeError Instr :=
  match fld w 0 2 with
  | 0 => .ok (.exts (gAt w 19) (gAt w 14) (bvAt 6 w 8) (bvAt 6 w 2))
  | 1 => .ok (.extz (gAt w 19) (gAt w 14) (bvAt 6 w 8) (bvAt 6 w 2))
  | 2 => .ok (.ins (gAt w 19) (gAt w 14) (bvAt 6 w 8) (bvAt 6 w 2))
  | _ => .error .subOp

/-- A major 0x09: sub-operations of R188. -/
def decodeA09 (w : Nat) : Except DecodeError Instr :=
  match fld w 6 2 with
  | 0 => do
    zeroAt w 8 6
    .ok (.slli (gAt w 19) (gAt w 14) (bvAt 6 w 0))
  | 1 => do
    zeroAt w 8 6
    .ok (.srli (gAt w 19) (gAt w 14) (bvAt 6 w 0))
  | 2 => do
    zeroAt w 8 6
    .ok (.srai (gAt w 19) (gAt w 14) (bvAt 6 w 0))
  | _ => do
    zeroAt w 8 6
    .ok (.rori (gAt w 19) (gAt w 14) (bvAt 6 w 0))

/-- A major 0x0C: sub-operations of R188. -/
def decodeA0C (w : Nat) : Except DecodeError Instr :=
  match fld w 0 3 with
  | 0 => do
    zeroAt w 3 6
    .ok (.addw (gAt w 19) (gAt w 14) (gAt w 9))
  | 1 => do
    zeroAt w 3 6
    .ok (.subw (gAt w 19) (gAt w 14) (gAt w 9))
  | 2 => do
    zeroAt w 3 6
    .ok (.sllw (gAt w 19) (gAt w 14) (gAt w 9))
  | 3 => do
    zeroAt w 3 6
    .ok (.srlw (gAt w 19) (gAt w 14) (gAt w 9))
  | 4 => do
    zeroAt w 3 6
    .ok (.sraw (gAt w 19) (gAt w 14) (gAt w 9))
  | 5 => do
    zeroAt w 3 6
    .ok (.mulw (gAt w 19) (gAt w 14) (gAt w 9))
  | _ => .error .subOp

/-- A major 0x10: sub-operations of R188. -/
def decodeA10 (w : Nat) : Except DecodeError Instr :=
  match fld w 0 4 with
  | 0 => do
    let r ← rndAt w 6
    .ok (.fadd (gAt w 19) (gAt w 14) (gAt w 9) r (fmtAt w 4))
  | 1 => do
    let r ← rndAt w 6
    .ok (.fsub (gAt w 19) (gAt w 14) (gAt w 9) r (fmtAt w 4))
  | 2 => do
    let r ← rndAt w 6
    .ok (.fmul (gAt w 19) (gAt w 14) (gAt w 9) r (fmtAt w 4))
  | 3 => do
    let r ← rndAt w 6
    .ok (.fdiv (gAt w 19) (gAt w 14) (gAt w 9) r (fmtAt w 4))
  | 4 => do
    zeroAt w 9 5
    let r ← rndAt w 6
    .ok (.fsqrt (gAt w 19) (gAt w 14) r (fmtAt w 4))
  | 5 => do
    let r ← rndAt w 6
    .ok (.fmin (gAt w 19) (gAt w 14) (gAt w 9) r (fmtAt w 4))
  | 6 => do
    let r ← rndAt w 6
    .ok (.fmax (gAt w 19) (gAt w 14) (gAt w 9) r (fmtAt w 4))
  | _ => .error .subOp

/-- A major 0x11: sub-operations of R188. -/
def decodeA11 (w : Nat) : Except DecodeError Instr :=
  match fld w 0 4 with
  | 0 => do
    zeroAt w 6 3
    .ok (.fsgnj (gAt w 19) (gAt w 14) (gAt w 9) (fmtAt w 4))
  | 1 => do
    zeroAt w 6 3
    .ok (.fsgnjn (gAt w 19) (gAt w 14) (gAt w 9) (fmtAt w 4))
  | 2 => do
    zeroAt w 6 3
    .ok (.fsgnjx (gAt w 19) (gAt w 14) (gAt w 9) (fmtAt w 4))
  | _ => .error .subOp

/-- A major 0x12: sub-operations of R188. -/
def decodeA12 (w : Nat) : Except DecodeError Instr :=
  match fld w 0 4 with
  | 0 => do
    zeroAt w 6 3
    .ok (.feq (gAt w 19) (gAt w 14) (gAt w 9) (fmtAt w 4))
  | 1 => do
    zeroAt w 6 3
    .ok (.flt (gAt w 19) (gAt w 14) (gAt w 9) (fmtAt w 4))
  | 2 => do
    zeroAt w 6 3
    .ok (.fle (gAt w 19) (gAt w 14) (gAt w 9) (fmtAt w 4))
  | _ => .error .subOp

/-- A major 0x13: sub-operations of R188. -/
def decodeA13 (w : Nat) : Except DecodeError Instr :=
  match fld w 0 4 with
  | 0 => do
    zeroAt w 6 8
    .ok (.fclass (gAt w 19) (gAt w 14) (fmtAt w 4))
  | _ => .error .subOp

/-- A major 0x15: sub-operations of R188. -/
def decodeA15 (w : Nat) : Except DecodeError Instr :=
  match fld w 0 4 with
  | 0 => do
    zeroAt w 6 8
    .ok (.frsqe (gAt w 19) (gAt w 14) (fmtAt w 4))
  | 1 => do
    zeroAt w 6 8
    .ok (.frcpe (gAt w 19) (gAt w 14) (fmtAt w 4))
  | _ => .error .subOp

/-- A major 0x16: sub-operations of R188. -/
def decodeA16 (w : Nat) : Except DecodeError Instr :=
  match fld w 0 4 with
  | 0 => do
    zeroAt w 6 8
    .ok (.fexp2 (gAt w 19) (gAt w 14) (fmtAt w 4))
  | 1 => do
    zeroAt w 6 8
    .ok (.flog2 (gAt w 19) (gAt w 14) (fmtAt w 4))
  | 2 => do
    zeroAt w 6 8
    .ok (.fsin (gAt w 19) (gAt w 14) (fmtAt w 4))
  | 3 => do
    zeroAt w 6 8
    .ok (.fcos (gAt w 19) (gAt w 14) (fmtAt w 4))
  | 4 => do
    zeroAt w 6 8
    .ok (.ftanh (gAt w 19) (gAt w 14) (fmtAt w 4))
  | 5 => do
    zeroAt w 6 8
    .ok (.fatan (gAt w 19) (gAt w 14) (fmtAt w 4))
  | 6 => do
    zeroAt w 6 8
    .ok (.frsq (gAt w 19) (gAt w 14) (fmtAt w 4))
  | 7 => do
    zeroAt w 6 8
    .ok (.frcp (gAt w 19) (gAt w 14) (fmtAt w 4))
  | _ => .error .subOp

/-- A major 0x20: sub-operations of R188. -/
def decodeA20 (w : Nat) : Except DecodeError Instr :=
  match fld w 0 4 with
  | 0 => .ok (.vadd (vAt w 19) (vAt w 14) (vAt w 9) (mAt w 6) (ewAt w 4))
  | 1 => .ok (.vsub (vAt w 19) (vAt w 14) (vAt w 9) (mAt w 6) (ewAt w 4))
  | 2 => .ok (.vmul (vAt w 19) (vAt w 14) (vAt w 9) (mAt w 6) (ewAt w 4))
  | 3 => .ok (.vmulh (vAt w 19) (vAt w 14) (vAt w 9) (mAt w 6) (ewAt w 4))
  | 4 => .ok (.vand (vAt w 19) (vAt w 14) (vAt w 9) (mAt w 6) (ewAt w 4))
  | 5 => .ok (.vor (vAt w 19) (vAt w 14) (vAt w 9) (mAt w 6) (ewAt w 4))
  | 6 => .ok (.vxor (vAt w 19) (vAt w 14) (vAt w 9) (mAt w 6) (ewAt w 4))
  | 7 => .ok (.vsll (vAt w 19) (vAt w 14) (vAt w 9) (mAt w 6) (ewAt w 4))
  | 8 => .ok (.vsrl (vAt w 19) (vAt w 14) (vAt w 9) (mAt w 6) (ewAt w 4))
  | 9 => .ok (.vsra (vAt w 19) (vAt w 14) (vAt w 9) (mAt w 6) (ewAt w 4))
  | 10 => .ok (.vmin (vAt w 19) (vAt w 14) (vAt w 9) (mAt w 6) (ewAt w 4))
  | 11 => .ok (.vmax (vAt w 19) (vAt w 14) (vAt w 9) (mAt w 6) (ewAt w 4))
  | 12 => .ok (.vminn (vAt w 19) (vAt w 14) (vAt w 9) (mAt w 6) (ewAt w 4))
  | 13 => .ok (.vmaxn (vAt w 19) (vAt w 14) (vAt w 9) (mAt w 6) (ewAt w 4))
  | _ => .error .subOp

/-- A major 0x21: sub-operations of R188. -/
def decodeA21 (w : Nat) : Except DecodeError Instr :=
  match fld w 0 4 with
  | 0 => .ok (.vfadd (vAt w 19) (vAt w 14) (vAt w 9) (mAt w 6) (fmtAt w 4))
  | 1 => .ok (.vfsub (vAt w 19) (vAt w 14) (vAt w 9) (mAt w 6) (fmtAt w 4))
  | 2 => .ok (.vfmul (vAt w 19) (vAt w 14) (vAt w 9) (mAt w 6) (fmtAt w 4))
  | 3 => .ok (.vfdiv (vAt w 19) (vAt w 14) (vAt w 9) (mAt w 6) (fmtAt w 4))
  | 4 => do
    zeroAt w 9 5
    .ok (.vfsqrt (vAt w 19) (vAt w 14) (mAt w 6) (fmtAt w 4))
  | 5 => .ok (.vfmin (vAt w 19) (vAt w 14) (vAt w 9) (mAt w 6) (fmtAt w 4))
  | 6 => .ok (.vfmax (vAt w 19) (vAt w 14) (vAt w 9) (mAt w 6) (fmtAt w 4))
  | _ => .error .subOp

/-- A major 0x22: sub-operations of R188. -/
def decodeA22 (w : Nat) : Except DecodeError Instr :=
  match fld w 0 2 with
  | 0 => .ok (.vffma (vAt w 19) (vAt w 14) (vAt w 9) (vAt w 4) (fmtAt w 2))
  | 1 => .ok (.vffms (vAt w 19) (vAt w 14) (vAt w 9) (vAt w 4) (fmtAt w 2))
  | 2 => .ok (.vfnfma (vAt w 19) (vAt w 14) (vAt w 9) (vAt w 4) (fmtAt w 2))
  | _ => .ok (.vfnfms (vAt w 19) (vAt w 14) (vAt w 9) (vAt w 4) (fmtAt w 2))

/-- A major 0x23: sub-operations of R188. -/
def decodeA23 (w : Nat) : Except DecodeError Instr :=
  match fld w 0 4 with
  | 0 => do
    zeroAt w 22 2
    .ok (.veq (mAt w 19) (vAt w 14) (vAt w 9) (mAt w 6) (ewAt w 4))
  | 1 => do
    zeroAt w 22 2
    .ok (.vlt (mAt w 19) (vAt w 14) (vAt w 9) (mAt w 6) (ewAt w 4))
  | 2 => do
    zeroAt w 22 2
    .ok (.vltn (mAt w 19) (vAt w 14) (vAt w 9) (mAt w 6) (ewAt w 4))
  | 3 => do
    zeroAt w 22 2
    .ok (.vfeq (mAt w 19) (vAt w 14) (vAt w 9) (mAt w 6) (fmtAt w 4))
  | 4 => do
    zeroAt w 22 2
    .ok (.vflt (mAt w 19) (vAt w 14) (vAt w 9) (mAt w 6) (fmtAt w 4))
  | 5 => do
    zeroAt w 22 2
    .ok (.vfle (mAt w 19) (vAt w 14) (vAt w 9) (mAt w 6) (fmtAt w 4))
  | _ => .error .subOp

/-- A major 0x25: sub-operations of R188. -/
def decodeA25 (w : Nat) : Except DecodeError Instr :=
  match fld w 0 2 with
  | 0 => do
    zeroAt w 2 1
    zeroAt w 9 5
    let d ← vdstAt w
    .ok (.vrsum d (vAt w 14) (mAt w 6) (ewAt w 4))
  | 1 => do
    zeroAt w 2 1
    zeroAt w 9 5
    let d ← vdstAt w
    .ok (.vrmin d (vAt w 14) (mAt w 6) (ewAt w 4))
  | 2 => do
    zeroAt w 2 1
    zeroAt w 9 5
    let d ← vdstAt w
    .ok (.vrmax d (vAt w 14) (mAt w 6) (ewAt w 4))
  | _ => do
    zeroAt w 2 1
    zeroAt w 9 5
    let d ← vdstAt w
    .ok (.vrfsum d (vAt w 14) (mAt w 6) (fmtAt w 4))

/-- A major 0x27: sub-operations of R188. -/
def decodeA27 (w : Nat) : Except DecodeError Instr :=
  match fld w 0 1 with
  | 0 => do
    zeroAt w 1 3
    .ok (.vzip (vAt w 19) (vAt w 14) (vAt w 9) (mAt w 6) (ewAt w 4))
  | _ => do
    zeroAt w 1 3
    .ok (.vunzip (vAt w 19) (vAt w 14) (vAt w 9) (mAt w 6) (ewAt w 4))

/-- A major 0x29: sub-operations of R188. -/
def decodeA29 (w : Nat) : Except DecodeError Instr :=
  match fld w 0 1 with
  | 0 => do
    zeroAt w 1 2
    let d ← vdstAt w
    .ok (.vext d (vAt w 14) (gAt w 9) (mAt w 6) (ewAt w 4))
  | _ => do
    zeroAt w 1 3
    .ok (.vins (vAt w 19) (gAt w 14) (gAt w 9) (mAt w 6) (ewAt w 4))

/-- A major 0x2D: sub-operations of R188. -/
def decodeA2D (w : Nat) : Except DecodeError Instr :=
  match fld w 0 1 with
  | 0 => do
    zeroAt w 1 3
    zeroAt w 9 5
    .ok (.vfrsqe (vAt w 19) (vAt w 14) (mAt w 6) (fmtAt w 4))
  | _ => do
    zeroAt w 1 3
    zeroAt w 9 5
    .ok (.vfrcpe (vAt w 19) (vAt w 14) (mAt w 6) (fmtAt w 4))

/-- A major 0x2E: sub-operations of R188. -/
def decodeA2E (w : Nat) : Except DecodeError Instr :=
  match fld w 0 3 with
  | 0 => do
    zeroAt w 3 6
    zeroAt w 12 2
    zeroAt w 17 2
    zeroAt w 22 2
    .ok (.mand (mAt w 19) (mAt w 14) (mAt w 9))
  | 1 => do
    zeroAt w 3 6
    zeroAt w 12 2
    zeroAt w 17 2
    zeroAt w 22 2
    .ok (.mor (mAt w 19) (mAt w 14) (mAt w 9))
  | 2 => do
    zeroAt w 3 6
    zeroAt w 12 2
    zeroAt w 17 2
    zeroAt w 22 2
    .ok (.mxor (mAt w 19) (mAt w 14) (mAt w 9))
  | 3 => do
    zeroAt w 3 11
    zeroAt w 17 2
    zeroAt w 22 2
    .ok (.mnot (mAt w 19) (mAt w 14))
  | 4 => do
    zeroAt w 3 11
    zeroAt w 17 2
    .ok (.mpop (gAt w 19) (mAt w 14))
  | 5 => do
    zeroAt w 3 11
    zeroAt w 17 2
    .ok (.mfirst (gAt w 19) (mAt w 14))
  | _ => .error .subOp

/-- The A-class majors (R188); an unlisted major is reserved (R189). -/
def decodeA (w : Nat) : Except DecodeError Instr :=
  match fld w 24 6 with
  | 0x00 => decodeA00 w
  | 0x01 => decodeA01 w
  | 0x02 => decodeA02 w
  | 0x03 => decodeA03 w
  | 0x04 => do
    zeroAt w 3 6
    .ok (.addsh (gAt w 19) (gAt w 14) (gAt w 9) (bvAt 3 w 0))
  | 0x05 => .ok (.addi (gAt w 19) (gAt w 14) (bvAt 14 w 0))
  | 0x06 => .ok (.andi (gAt w 19) (gAt w 14) (bvAt 14 w 0))
  | 0x07 => .ok (.ori (gAt w 19) (gAt w 14) (bvAt 14 w 0))
  | 0x08 => .ok (.xori (gAt w 19) (gAt w 14) (bvAt 14 w 0))
  | 0x09 => decodeA09 w
  | 0x0A => .ok (.slti (gAt w 19) (gAt w 14) (bvAt 14 w 0))
  | 0x0B => .ok (.sltni (gAt w 19) (gAt w 14) (bvAt 14 w 0))
  | 0x0C => decodeA0C w
  | 0x10 => decodeA10 w
  | 0x11 => decodeA11 w
  | 0x12 => decodeA12 w
  | 0x13 => decodeA13 w
  | 0x14 => do
    zeroAt w 0 2
    zeroAt w 13 1
    let r ← rndAt w 6
    let s ← cvtAt w 9
    let t ← cvtAt w 2
    .ok (.fcvt (gAt w 19) (gAt w 14) s r t)
  | 0x15 => decodeA15 w
  | 0x16 => decodeA16 w
  | 0x17 => .ok (.ffma (gAt w 19) (gAt w 14) (gAt w 9) (gAt w 4) (fmtAt w 2) (rnd4At w 0))
  | 0x18 => .ok (.ffms (gAt w 19) (gAt w 14) (gAt w 9) (gAt w 4) (fmtAt w 2) (rnd4At w 0))
  | 0x19 => .ok (.fnfma (gAt w 19) (gAt w 14) (gAt w 9) (gAt w 4) (fmtAt w 2) (rnd4At w 0))
  | 0x1A => .ok (.fnfms (gAt w 19) (gAt w 14) (gAt w 9) (gAt w 4) (fmtAt w 2) (rnd4At w 0))
  | 0x20 => decodeA20 w
  | 0x21 => decodeA21 w
  | 0x22 => decodeA22 w
  | 0x23 => decodeA23 w
  | 0x24 => do
    zeroAt w 0 4
    .ok (.vsel (vAt w 19) (vAt w 14) (vAt w 9) (mAt w 6) (ewAt w 4))
  | 0x25 => decodeA25 w
  | 0x26 => do
    zeroAt w 0 4
    .ok (.vperm (vAt w 19) (vAt w 14) (vAt w 9) (mAt w 6) (ewAt w 4))
  | 0x27 => decodeA27 w
  | 0x28 => do
    zeroAt w 0 3
    zeroAt w 9 5
    let a ← vsrcAt w
    .ok (.vbcast (vAt w 19) a (mAt w 6) (ewAt w 4))
  | 0x29 => decodeA29 w
  | 0x2A => do
    zeroAt w 13 1
    let s ← cvtAt w 9
    let t ← cvtAt w 0
    .ok (.vcvt (vAt w 19) (vAt w 14) s (mAt w 6) (rnd4At w 4) t)
  | 0x2B => do
    zeroAt w 1 5
    .ok (.vdot4 (vAt w 19) (vAt w 14) (vAt w 9) (mAt w 6) (dot4At w 0))
  | 0x2C => do
    zeroAt w 2 2
    .ok (.vq8 (vAt w 19) (vAt w 14) (vAt w 9) (mAt w 6) (q8At w 4) (fin4At w 0))
  | 0x2D => decodeA2D w
  | 0x2E => decodeA2E w
  | 0x2F => do
    zeroAt w 0 14
    zeroAt w 16 3
    .ok (.qcnt (gAt w 19) (qAt w 14))
  | 0x30 => do
    zeroAt w 2 7
    .ok (.barq (vAt w 19) (vAt w 14) (vAt w 9) (bvAt 2 w 0))
  | _ => .error .reservedMajor

/-- A 32-bit word read as an instruction of its class (R163): W[31] is the class. -/
def decodeWord (w : Nat) : Except DecodeError Instr :=
  if fld w 31 1 = 0 then decodeC w else decodeA w

/-- W[30]: a lone word, or a word of a pair (R163). -/
def loneBit (w : Nat) : Bool := bitAt w 30

/-- W[31]: the A class (R163). -/
def classA (w : Nat) : Bool := bitAt w 31

/-- The bits of a word other than bit 30, from the encoding tables of R187 and R188; an event has no encoding. -/
def encode : Instr → Option Nat
  | .ldb d a i => some (0x00000000 + d.val * 0x80000 + a.val * 0x4000 + i.toNat)
  | .ldbn d a i => some (0x01000000 + d.val * 0x80000 + a.val * 0x4000 + i.toNat)
  | .ldh d a i => some (0x02000000 + d.val * 0x80000 + a.val * 0x4000 + i.toNat)
  | .ldhn d a i => some (0x03000000 + d.val * 0x80000 + a.val * 0x4000 + i.toNat)
  | .ldw d a i => some (0x04000000 + d.val * 0x80000 + a.val * 0x4000 + i.toNat)
  | .ldwn d a i => some (0x05000000 + d.val * 0x80000 + a.val * 0x4000 + i.toNat)
  | .ldd d a i => some (0x06000000 + d.val * 0x80000 + a.val * 0x4000 + i.toNat)
  | .ldq d a i => some (0x07000000 + d.val * 0x100000 + a.val * 0x4000 + i.toNat)
  | .stb b a i => some (0x08000000 + b.val * 0x80000 + a.val * 0x4000 + i.toNat)
  | .sth b a i => some (0x09000000 + b.val * 0x80000 + a.val * 0x4000 + i.toNat)
  | .stw b a i => some (0x0A000000 + b.val * 0x80000 + a.val * 0x4000 + i.toNat)
  | .std b a i => some (0x0B000000 + b.val * 0x80000 + a.val * 0x4000 + i.toNat)
  | .stq b a i => some (0x0C000000 + b.val * 0x100000 + a.val * 0x4000 + i.toNat)
  | .vld v a m i => some (0x10000000 + v.val * 0x80000 + a.val * 0x4000 + m.val * 0x40 + i.toNat)
  | .vst v a m i => some (0x11000000 + v.val * 0x80000 + a.val * 0x4000 + m.val * 0x40 + i.toNat)
  | .vlds v a b m i => some (0x12000000 + v.val * 0x80000 + a.val * 0x4000 + b.val * 0x200 + m.val * 0x40 + i.toNat)
  | .vsts v a b m i => some (0x13000000 + v.val * 0x80000 + a.val * 0x4000 + b.val * 0x200 + m.val * 0x40 + i.toNat)
  | .vldx v a x m i => some (0x14000000 + v.val * 0x80000 + a.val * 0x4000 + x.val * 0x200 + m.val * 0x40 + i.toNat)
  | .vstx v a x m i => some (0x15000000 + v.val * 0x80000 + a.val * 0x4000 + x.val * 0x200 + m.val * 0x40 + i.toNat)
  | .vldb v a m i => some (0x16000000 + v.val * 0x80000 + a.val * 0x4000 + m.val * 0x40 + i.toNat)
  | .amoaddW d a b s o => some (0x18000000 + d.val * 0x80000 + a.val * 0x4000 + b.val * 0x200 + s.code * 0x40 + o.code * 0x10)
  | .amoandW d a b s o => some (0x18000001 + d.val * 0x80000 + a.val * 0x4000 + b.val * 0x200 + s.code * 0x40 + o.code * 0x10)
  | .amoorW d a b s o => some (0x18000002 + d.val * 0x80000 + a.val * 0x4000 + b.val * 0x200 + s.code * 0x40 + o.code * 0x10)
  | .amoxorW d a b s o => some (0x18000003 + d.val * 0x80000 + a.val * 0x4000 + b.val * 0x200 + s.code * 0x40 + o.code * 0x10)
  | .amominW d a b s o => some (0x18000004 + d.val * 0x80000 + a.val * 0x4000 + b.val * 0x200 + s.code * 0x40 + o.code * 0x10)
  | .amomaxW d a b s o => some (0x18000005 + d.val * 0x80000 + a.val * 0x4000 + b.val * 0x200 + s.code * 0x40 + o.code * 0x10)
  | .amominnW d a b s o => some (0x18000006 + d.val * 0x80000 + a.val * 0x4000 + b.val * 0x200 + s.code * 0x40 + o.code * 0x10)
  | .amomaxnW d a b s o => some (0x18000007 + d.val * 0x80000 + a.val * 0x4000 + b.val * 0x200 + s.code * 0x40 + o.code * 0x10)
  | .amoswpW d a b s o => some (0x18000008 + d.val * 0x80000 + a.val * 0x4000 + b.val * 0x200 + s.code * 0x40 + o.code * 0x10)
  | .amocasW d a b s o => some (0x18000009 + d.val * 0x80000 + a.val * 0x4000 + b.val * 0x200 + s.code * 0x40 + o.code * 0x10)
  | .amoaddD d a b s o => some (0x19000000 + d.val * 0x80000 + a.val * 0x4000 + b.val * 0x200 + s.code * 0x40 + o.code * 0x10)
  | .amoandD d a b s o => some (0x19000001 + d.val * 0x80000 + a.val * 0x4000 + b.val * 0x200 + s.code * 0x40 + o.code * 0x10)
  | .amoorD d a b s o => some (0x19000002 + d.val * 0x80000 + a.val * 0x4000 + b.val * 0x200 + s.code * 0x40 + o.code * 0x10)
  | .amoxorD d a b s o => some (0x19000003 + d.val * 0x80000 + a.val * 0x4000 + b.val * 0x200 + s.code * 0x40 + o.code * 0x10)
  | .amominD d a b s o => some (0x19000004 + d.val * 0x80000 + a.val * 0x4000 + b.val * 0x200 + s.code * 0x40 + o.code * 0x10)
  | .amomaxD d a b s o => some (0x19000005 + d.val * 0x80000 + a.val * 0x4000 + b.val * 0x200 + s.code * 0x40 + o.code * 0x10)
  | .amominnD d a b s o => some (0x19000006 + d.val * 0x80000 + a.val * 0x4000 + b.val * 0x200 + s.code * 0x40 + o.code * 0x10)
  | .amomaxnD d a b s o => some (0x19000007 + d.val * 0x80000 + a.val * 0x4000 + b.val * 0x200 + s.code * 0x40 + o.code * 0x10)
  | .amoswpD d a b s o => some (0x19000008 + d.val * 0x80000 + a.val * 0x4000 + b.val * 0x200 + s.code * 0x40 + o.code * 0x10)
  | .amocasD d a b s o => some (0x19000009 + d.val * 0x80000 + a.val * 0x4000 + b.val * 0x200 + s.code * 0x40 + o.code * 0x10)
  | .cas2 d a b s o => some (0x1A000000 + d.val * 0x100000 + a.val * 0x4000 + b.val * 0x400 + s.code * 0x40 + o.code * 0x10)
  | .swp2 d a b s o => some (0x1A000001 + d.val * 0x100000 + a.val * 0x4000 + b.val * 0x400 + s.code * 0x40 + o.code * 0x10)
  | .redFaddS a b s o => some (0x1B000000 + a.val * 0x4000 + b.val * 0x200 + s.code * 0x40 + o.code * 0x10)
  | .redFaddD a b s o => some (0x1B000001 + a.val * 0x4000 + b.val * 0x200 + s.code * 0x40 + o.code * 0x10)
  | .redIaddW a b s o => some (0x1B000002 + a.val * 0x4000 + b.val * 0x200 + s.code * 0x40 + o.code * 0x10)
  | .redIaddD a b s o => some (0x1B000003 + a.val * 0x4000 + b.val * 0x200 + s.code * 0x40 + o.code * 0x10)
  | .vacc v a t m i => some (0x1C000000 + v.val * 0x80000 + a.val * 0x4000 + t.code * 0x200 + m.val * 0x40 + i.toNat)
  | .accinit a b s o => some (0x1D000000 + a.val * 0x4000 + b.val * 0x200 + s.code * 0x40 + o.code * 0x10)
  | .accrd d a s o => some (0x1D000001 + d.val * 0x80000 + a.val * 0x4000 + s.code * 0x40 + o.code * 0x10)
  | .accz a s o => some (0x1D000002 + a.val * 0x4000 + s.code * 0x40 + o.code * 0x10)
  | .fiss d c s => some (0x1E000000 + d.val * 0x80000 + c.toNat * 0x200 + s.code * 0x40)
  | .fwait a => some (0x1E000001 + a.val * 0x4000)
  | .ftest d a => some (0x1E000002 + d.val * 0x80000 + a.val * 0x4000)
  | .fence c s => some (0x1E000003 + c.toNat * 0x200 + s.code * 0x40)
  | .fencef => some (0x1E000004)
  | .clean a s => some (0x1F000000 + a.val * 0x4000 + s.code * 0x40)
  | .invl a s => some (0x1F000001 + a.val * 0x4000 + s.code * 0x40)
  | .flush a s => some (0x1F000002 + a.val * 0x4000 + s.code * 0x40)
  | .zline a s => some (0x1F000003 + a.val * 0x4000 + s.code * 0x40)
  | .pref a s => some (0x1F000004 + a.val * 0x4000 + s.code * 0x40)
  | .beq a b o => some (0x20000000 + a.val * 0x80000 + b.val * 0x4000 + o.toNat)
  | .bne a b o => some (0x21000000 + a.val * 0x80000 + b.val * 0x4000 + o.toNat)
  | .blt a b o => some (0x22000000 + a.val * 0x80000 + b.val * 0x4000 + o.toNat)
  | .bge a b o => some (0x23000000 + a.val * 0x80000 + b.val * 0x4000 + o.toNat)
  | .bltn a b o => some (0x24000000 + a.val * 0x80000 + b.val * 0x4000 + o.toNat)
  | .bgen a b o => some (0x25000000 + a.val * 0x80000 + b.val * 0x4000 + o.toNat)
  | .bmany m o => some (0x26000000 + m.val * 0x80000 + o.toNat)
  | .bmall m o => some (0x27000000 + m.val * 0x80000 + o.toNat)
  | .jal d o => some (0x28000000 + d.val * 0x80000 + o.toNat)
  | .jalr d a i => some (0x29000000 + d.val * 0x80000 + a.val * 0x4000 + i.toNat)
  | .lui d i => some (0x2A000000 + d.val * 0x80000 + i.toNat)
  | .addpc d i => some (0x2B000000 + d.val * 0x80000 + i.toNat)
  | .send a b p n => some (0x30000000 + a.val * 0x4000 + b.val * 0x200 + p.val * 0x10 + n.val)
  | .spawn d a b p n => some (0x31000000 + d.val * 0x80000 + a.val * 0x4000 + b.val * 0x200 + p.val * 0x10 + n.val)
  | .launch d a b p n => some (0x32000000 + d.val * 0x80000 + a.val * 0x4000 + b.val * 0x200 + p.val * 0x10 + n.val)
  | .migr a i => some (0x33000000 + a.val * 0x4000 + i.toNat)
  | .done => some (0x34000000)
  | .yield => some (0x34000001)
  | .tcancel d a => some (0x34000002 + d.val * 0x80000 + a.val * 0x4000)
  | .tqry d a => some (0x34000003 + d.val * 0x80000 + a.val * 0x4000)
  | .bara a b s => some (0x35000000 + a.val * 0x4000 + b.val * 0x200 + s.code * 0x40)
  | .barw d a g s => some (0x35000001 + d.val * 0x80000 + a.val * 0x4000 + g.val * 0x200 + s.code * 0x40)
  | .safept o => some (0x36000000 + o.toNat)
  | .mma a b => some (0x37000000 + a.val * 0x4000 + b.val * 0x200)
  | .mqd a b => some (0x38000000 + a.val * 0x4000 + b.val * 0x200)
  | .rep t u v x a s k n => some (0x39000000 + t.toNat * 0x400000 + u.toNat * 0x200000 + v.toNat * 0x100000 + x.toNat * 0x80000 + a.val * 0x4000 + s.val * 0x800 + k.toNat * 0x8 + n.val)
  | .csrr d c => some (0x3A000000 + d.val * 0x80000 + c.toNat)
  | .csrw a c => some (0x3A000800 + a.val * 0x4000 + c.toNat)
  | .csrrw d a c => some (0x3A001000 + d.val * 0x80000 + a.val * 0x4000 + c.toNat)
  | .csrs a c => some (0x3A001800 + a.val * 0x4000 + c.toNat)
  | .csrc a c => some (0x3A002000 + a.val * 0x4000 + c.toNat)
  | .ecall a => some (0x3B000000 + a.val * 0x4000)
  | .ebreak c => some (0x3B000001 + c.toNat * 0x200)
  | .tret => some (0x3B000002)
  | .wfm d a => some (0x3B000003 + d.val * 0x80000 + a.val * 0x4000)
  | .tlbinv d a b => some (0x3B000004 + d.val * 0x80000 + a.val * 0x4000 + b.val * 0x200)
  | .halt d => some (0x3B000005 + d.val * 0x80000)
  | .capmint d a b => some (0x3B000006 + d.val * 0x80000 + a.val * 0x4000 + b.val * 0x200)
  | .add d a b => some (0x80000000 + d.code + a.code + b.val * 0x200)
  | .sub d a b => some (0x80000001 + d.code + a.code + b.val * 0x200)
  | .and d a b => some (0x80000002 + d.code + a.code + b.val * 0x200)
  | .or d a b => some (0x80000003 + d.code + a.code + b.val * 0x200)
  | .xor d a b => some (0x80000004 + d.code + a.code + b.val * 0x200)
  | .andn d a b => some (0x80000005 + d.code + a.code + b.val * 0x200)
  | .orn d a b => some (0x80000006 + d.code + a.code + b.val * 0x200)
  | .xnor d a b => some (0x80000007 + d.code + a.code + b.val * 0x200)
  | .sll d a b => some (0x80000008 + d.code + a.code + b.val * 0x200)
  | .srl d a b => some (0x80000009 + d.code + a.code + b.val * 0x200)
  | .sra d a b => some (0x8000000A + d.code + a.code + b.val * 0x200)
  | .rol d a b => some (0x8000000B + d.code + a.code + b.val * 0x200)
  | .ror d a b => some (0x8000000C + d.code + a.code + b.val * 0x200)
  | .min d a b => some (0x8000000D + d.code + a.code + b.val * 0x200)
  | .max d a b => some (0x8000000E + d.code + a.code + b.val * 0x200)
  | .minn d a b => some (0x8000000F + d.code + a.code + b.val * 0x200)
  | .maxn d a b => some (0x80000010 + d.code + a.code + b.val * 0x200)
  | .slt d a b => some (0x80000011 + d.code + a.code + b.val * 0x200)
  | .sltn d a b => some (0x80000012 + d.code + a.code + b.val * 0x200)
  | .sel d a b => some (0x80000013 + d.code + a.code + b.val * 0x200)
  | .mul d a b => some (0x81000000 + d.val * 0x80000 + a.val * 0x4000 + b.val * 0x200)
  | .mulh d a b => some (0x81000001 + d.val * 0x80000 + a.val * 0x4000 + b.val * 0x200)
  | .mulhn d a b => some (0x81000002 + d.val * 0x80000 + a.val * 0x4000 + b.val * 0x200)
  | .mulhsn d a b => some (0x81000003 + d.val * 0x80000 + a.val * 0x4000 + b.val * 0x200)
  | .div d a b => some (0x81000004 + d.val * 0x80000 + a.val * 0x4000 + b.val * 0x200)
  | .divn d a b => some (0x81000005 + d.val * 0x80000 + a.val * 0x4000 + b.val * 0x200)
  | .rem d a b => some (0x81000006 + d.val * 0x80000 + a.val * 0x4000 + b.val * 0x200)
  | .remn d a b => some (0x81000007 + d.val * 0x80000 + a.val * 0x4000 + b.val * 0x200)
  | .clz d a => some (0x82000000 + d.val * 0x80000 + a.val * 0x4000)
  | .ctz d a => some (0x82000001 + d.val * 0x80000 + a.val * 0x4000)
  | .popc d a => some (0x82000002 + d.val * 0x80000 + a.val * 0x4000)
  | .brev d a => some (0x82000003 + d.val * 0x80000 + a.val * 0x4000)
  | .bswap d a => some (0x82000004 + d.val * 0x80000 + a.val * 0x4000)
  | .exts d a p l => some (0x83000000 + d.val * 0x80000 + a.val * 0x4000 + p.toNat * 0x100 + l.toNat * 0x4)
  | .extz d a p l => some (0x83000001 + d.val * 0x80000 + a.val * 0x4000 + p.toNat * 0x100 + l.toNat * 0x4)
  | .ins d a p l => some (0x83000002 + d.val * 0x80000 + a.val * 0x4000 + p.toNat * 0x100 + l.toNat * 0x4)
  | .addsh d a b k => some (0x84000000 + d.val * 0x80000 + a.val * 0x4000 + b.val * 0x200 + k.toNat)
  | .addi d a i => some (0x85000000 + d.val * 0x80000 + a.val * 0x4000 + i.toNat)
  | .andi d a i => some (0x86000000 + d.val * 0x80000 + a.val * 0x4000 + i.toNat)
  | .ori d a i => some (0x87000000 + d.val * 0x80000 + a.val * 0x4000 + i.toNat)
  | .xori d a i => some (0x88000000 + d.val * 0x80000 + a.val * 0x4000 + i.toNat)
  | .slli d a k => some (0x89000000 + d.val * 0x80000 + a.val * 0x4000 + k.toNat)
  | .srli d a k => some (0x89000040 + d.val * 0x80000 + a.val * 0x4000 + k.toNat)
  | .srai d a k => some (0x89000080 + d.val * 0x80000 + a.val * 0x4000 + k.toNat)
  | .rori d a k => some (0x890000C0 + d.val * 0x80000 + a.val * 0x4000 + k.toNat)
  | .slti d a i => some (0x8A000000 + d.val * 0x80000 + a.val * 0x4000 + i.toNat)
  | .sltni d a i => some (0x8B000000 + d.val * 0x80000 + a.val * 0x4000 + i.toNat)
  | .addw d a b => some (0x8C000000 + d.val * 0x80000 + a.val * 0x4000 + b.val * 0x200)
  | .subw d a b => some (0x8C000001 + d.val * 0x80000 + a.val * 0x4000 + b.val * 0x200)
  | .sllw d a b => some (0x8C000002 + d.val * 0x80000 + a.val * 0x4000 + b.val * 0x200)
  | .srlw d a b => some (0x8C000003 + d.val * 0x80000 + a.val * 0x4000 + b.val * 0x200)
  | .sraw d a b => some (0x8C000004 + d.val * 0x80000 + a.val * 0x4000 + b.val * 0x200)
  | .mulw d a b => some (0x8C000005 + d.val * 0x80000 + a.val * 0x4000 + b.val * 0x200)
  | .fadd d a b r f => some (0x90000000 + d.val * 0x80000 + a.val * 0x4000 + b.val * 0x200 + r.code * 0x40 + f.code * 0x10)
  | .fsub d a b r f => some (0x90000001 + d.val * 0x80000 + a.val * 0x4000 + b.val * 0x200 + r.code * 0x40 + f.code * 0x10)
  | .fmul d a b r f => some (0x90000002 + d.val * 0x80000 + a.val * 0x4000 + b.val * 0x200 + r.code * 0x40 + f.code * 0x10)
  | .fdiv d a b r f => some (0x90000003 + d.val * 0x80000 + a.val * 0x4000 + b.val * 0x200 + r.code * 0x40 + f.code * 0x10)
  | .fsqrt d a r f => some (0x90000004 + d.val * 0x80000 + a.val * 0x4000 + r.code * 0x40 + f.code * 0x10)
  | .fmin d a b r f => some (0x90000005 + d.val * 0x80000 + a.val * 0x4000 + b.val * 0x200 + r.code * 0x40 + f.code * 0x10)
  | .fmax d a b r f => some (0x90000006 + d.val * 0x80000 + a.val * 0x4000 + b.val * 0x200 + r.code * 0x40 + f.code * 0x10)
  | .fsgnj d a b f => some (0x91000000 + d.val * 0x80000 + a.val * 0x4000 + b.val * 0x200 + f.code * 0x10)
  | .fsgnjn d a b f => some (0x91000001 + d.val * 0x80000 + a.val * 0x4000 + b.val * 0x200 + f.code * 0x10)
  | .fsgnjx d a b f => some (0x91000002 + d.val * 0x80000 + a.val * 0x4000 + b.val * 0x200 + f.code * 0x10)
  | .feq d a b f => some (0x92000000 + d.val * 0x80000 + a.val * 0x4000 + b.val * 0x200 + f.code * 0x10)
  | .flt d a b f => some (0x92000001 + d.val * 0x80000 + a.val * 0x4000 + b.val * 0x200 + f.code * 0x10)
  | .fle d a b f => some (0x92000002 + d.val * 0x80000 + a.val * 0x4000 + b.val * 0x200 + f.code * 0x10)
  | .fclass d a f => some (0x93000000 + d.val * 0x80000 + a.val * 0x4000 + f.code * 0x10)
  | .fcvt d a s r t => some (0x94000000 + d.val * 0x80000 + a.val * 0x4000 + s.code * 0x200 + r.code * 0x40 + t.code * 0x4)
  | .frsqe d a f => some (0x95000000 + d.val * 0x80000 + a.val * 0x4000 + f.code * 0x10)
  | .frcpe d a f => some (0x95000001 + d.val * 0x80000 + a.val * 0x4000 + f.code * 0x10)
  | .fexp2 d a f => some (0x96000000 + d.val * 0x80000 + a.val * 0x4000 + f.code * 0x10)
  | .flog2 d a f => some (0x96000001 + d.val * 0x80000 + a.val * 0x4000 + f.code * 0x10)
  | .fsin d a f => some (0x96000002 + d.val * 0x80000 + a.val * 0x4000 + f.code * 0x10)
  | .fcos d a f => some (0x96000003 + d.val * 0x80000 + a.val * 0x4000 + f.code * 0x10)
  | .ftanh d a f => some (0x96000004 + d.val * 0x80000 + a.val * 0x4000 + f.code * 0x10)
  | .fatan d a f => some (0x96000005 + d.val * 0x80000 + a.val * 0x4000 + f.code * 0x10)
  | .frsq d a f => some (0x96000006 + d.val * 0x80000 + a.val * 0x4000 + f.code * 0x10)
  | .frcp d a f => some (0x96000007 + d.val * 0x80000 + a.val * 0x4000 + f.code * 0x10)
  | .ffma d a b c f r => some (0x97000000 + d.val * 0x80000 + a.val * 0x4000 + b.val * 0x200 + c.val * 0x10 + f.code * 0x4 + r.code)
  | .ffms d a b c f r => some (0x98000000 + d.val * 0x80000 + a.val * 0x4000 + b.val * 0x200 + c.val * 0x10 + f.code * 0x4 + r.code)
  | .fnfma d a b c f r => some (0x99000000 + d.val * 0x80000 + a.val * 0x4000 + b.val * 0x200 + c.val * 0x10 + f.code * 0x4 + r.code)
  | .fnfms d a b c f r => some (0x9A000000 + d.val * 0x80000 + a.val * 0x4000 + b.val * 0x200 + c.val * 0x10 + f.code * 0x4 + r.code)
  | .vadd d a b m e => some (0xA0000000 + d.val * 0x80000 + a.val * 0x4000 + b.val * 0x200 + m.val * 0x40 + e.code * 0x10)
  | .vsub d a b m e => some (0xA0000001 + d.val * 0x80000 + a.val * 0x4000 + b.val * 0x200 + m.val * 0x40 + e.code * 0x10)
  | .vmul d a b m e => some (0xA0000002 + d.val * 0x80000 + a.val * 0x4000 + b.val * 0x200 + m.val * 0x40 + e.code * 0x10)
  | .vmulh d a b m e => some (0xA0000003 + d.val * 0x80000 + a.val * 0x4000 + b.val * 0x200 + m.val * 0x40 + e.code * 0x10)
  | .vand d a b m e => some (0xA0000004 + d.val * 0x80000 + a.val * 0x4000 + b.val * 0x200 + m.val * 0x40 + e.code * 0x10)
  | .vor d a b m e => some (0xA0000005 + d.val * 0x80000 + a.val * 0x4000 + b.val * 0x200 + m.val * 0x40 + e.code * 0x10)
  | .vxor d a b m e => some (0xA0000006 + d.val * 0x80000 + a.val * 0x4000 + b.val * 0x200 + m.val * 0x40 + e.code * 0x10)
  | .vsll d a b m e => some (0xA0000007 + d.val * 0x80000 + a.val * 0x4000 + b.val * 0x200 + m.val * 0x40 + e.code * 0x10)
  | .vsrl d a b m e => some (0xA0000008 + d.val * 0x80000 + a.val * 0x4000 + b.val * 0x200 + m.val * 0x40 + e.code * 0x10)
  | .vsra d a b m e => some (0xA0000009 + d.val * 0x80000 + a.val * 0x4000 + b.val * 0x200 + m.val * 0x40 + e.code * 0x10)
  | .vmin d a b m e => some (0xA000000A + d.val * 0x80000 + a.val * 0x4000 + b.val * 0x200 + m.val * 0x40 + e.code * 0x10)
  | .vmax d a b m e => some (0xA000000B + d.val * 0x80000 + a.val * 0x4000 + b.val * 0x200 + m.val * 0x40 + e.code * 0x10)
  | .vminn d a b m e => some (0xA000000C + d.val * 0x80000 + a.val * 0x4000 + b.val * 0x200 + m.val * 0x40 + e.code * 0x10)
  | .vmaxn d a b m e => some (0xA000000D + d.val * 0x80000 + a.val * 0x4000 + b.val * 0x200 + m.val * 0x40 + e.code * 0x10)
  | .vfadd d a b m f => some (0xA1000000 + d.val * 0x80000 + a.val * 0x4000 + b.val * 0x200 + m.val * 0x40 + f.code * 0x10)
  | .vfsub d a b m f => some (0xA1000001 + d.val * 0x80000 + a.val * 0x4000 + b.val * 0x200 + m.val * 0x40 + f.code * 0x10)
  | .vfmul d a b m f => some (0xA1000002 + d.val * 0x80000 + a.val * 0x4000 + b.val * 0x200 + m.val * 0x40 + f.code * 0x10)
  | .vfdiv d a b m f => some (0xA1000003 + d.val * 0x80000 + a.val * 0x4000 + b.val * 0x200 + m.val * 0x40 + f.code * 0x10)
  | .vfsqrt d a m f => some (0xA1000004 + d.val * 0x80000 + a.val * 0x4000 + m.val * 0x40 + f.code * 0x10)
  | .vfmin d a b m f => some (0xA1000005 + d.val * 0x80000 + a.val * 0x4000 + b.val * 0x200 + m.val * 0x40 + f.code * 0x10)
  | .vfmax d a b m f => some (0xA1000006 + d.val * 0x80000 + a.val * 0x4000 + b.val * 0x200 + m.val * 0x40 + f.code * 0x10)
  | .vffma d a b c f => some (0xA2000000 + d.val * 0x80000 + a.val * 0x4000 + b.val * 0x200 + c.val * 0x10 + f.code * 0x4)
  | .vffms d a b c f => some (0xA2000001 + d.val * 0x80000 + a.val * 0x4000 + b.val * 0x200 + c.val * 0x10 + f.code * 0x4)
  | .vfnfma d a b c f => some (0xA2000002 + d.val * 0x80000 + a.val * 0x4000 + b.val * 0x200 + c.val * 0x10 + f.code * 0x4)
  | .vfnfms d a b c f => some (0xA2000003 + d.val * 0x80000 + a.val * 0x4000 + b.val * 0x200 + c.val * 0x10 + f.code * 0x4)
  | .veq d a b m e => some (0xA3000000 + d.val * 0x80000 + a.val * 0x4000 + b.val * 0x200 + m.val * 0x40 + e.code * 0x10)
  | .vlt d a b m e => some (0xA3000001 + d.val * 0x80000 + a.val * 0x4000 + b.val * 0x200 + m.val * 0x40 + e.code * 0x10)
  | .vltn d a b m e => some (0xA3000002 + d.val * 0x80000 + a.val * 0x4000 + b.val * 0x200 + m.val * 0x40 + e.code * 0x10)
  | .vfeq d a b m f => some (0xA3000003 + d.val * 0x80000 + a.val * 0x4000 + b.val * 0x200 + m.val * 0x40 + f.code * 0x10)
  | .vflt d a b m f => some (0xA3000004 + d.val * 0x80000 + a.val * 0x4000 + b.val * 0x200 + m.val * 0x40 + f.code * 0x10)
  | .vfle d a b m f => some (0xA3000005 + d.val * 0x80000 + a.val * 0x4000 + b.val * 0x200 + m.val * 0x40 + f.code * 0x10)
  | .vsel d a b m e => some (0xA4000000 + d.val * 0x80000 + a.val * 0x4000 + b.val * 0x200 + m.val * 0x40 + e.code * 0x10)
  | .vrsum d a m e => some (0xA5000000 + d.code + a.val * 0x4000 + m.val * 0x40 + e.code * 0x10)
  | .vrmin d a m e => some (0xA5000001 + d.code + a.val * 0x4000 + m.val * 0x40 + e.code * 0x10)
  | .vrmax d a m e => some (0xA5000002 + d.code + a.val * 0x4000 + m.val * 0x40 + e.code * 0x10)
  | .vrfsum d a m f => some (0xA5000003 + d.code + a.val * 0x4000 + m.val * 0x40 + f.code * 0x10)
  | .vperm d a b m e => some (0xA6000000 + d.val * 0x80000 + a.val * 0x4000 + b.val * 0x200 + m.val * 0x40 + e.code * 0x10)
  | .vzip d a b m e => some (0xA7000000 + d.val * 0x80000 + a.val * 0x4000 + b.val * 0x200 + m.val * 0x40 + e.code * 0x10)
  | .vunzip d a b m e => some (0xA7000001 + d.val * 0x80000 + a.val * 0x4000 + b.val * 0x200 + m.val * 0x40 + e.code * 0x10)
  | .vbcast d a m e => some (0xA8000000 + d.val * 0x80000 + a.code + m.val * 0x40 + e.code * 0x10)
  | .vext d a b m e => some (0xA9000000 + d.code + a.val * 0x4000 + b.val * 0x200 + m.val * 0x40 + e.code * 0x10)
  | .vins d a b m e => some (0xA9000001 + d.val * 0x80000 + a.val * 0x4000 + b.val * 0x200 + m.val * 0x40 + e.code * 0x10)
  | .vcvt d a s m r t => some (0xAA000000 + d.val * 0x80000 + a.val * 0x4000 + s.code * 0x200 + m.val * 0x40 + r.code * 0x10 + t.code)
  | .vdot4 d a b m t => some (0xAB000000 + d.val * 0x80000 + a.val * 0x4000 + b.val * 0x200 + m.val * 0x40 + t.code)
  | .vq8 d a b m t p => some (0xAC000000 + d.val * 0x80000 + a.val * 0x4000 + b.val * 0x200 + m.val * 0x40 + t.code * 0x10 + p.val)
  | .vfrsqe d a m f => some (0xAD000000 + d.val * 0x80000 + a.val * 0x4000 + m.val * 0x40 + f.code * 0x10)
  | .vfrcpe d a m f => some (0xAD000001 + d.val * 0x80000 + a.val * 0x4000 + m.val * 0x40 + f.code * 0x10)
  | .mand d a b => some (0xAE000000 + d.val * 0x80000 + a.val * 0x4000 + b.val * 0x200)
  | .mor d a b => some (0xAE000001 + d.val * 0x80000 + a.val * 0x4000 + b.val * 0x200)
  | .mxor d a b => some (0xAE000002 + d.val * 0x80000 + a.val * 0x4000 + b.val * 0x200)
  | .mnot d a => some (0xAE000003 + d.val * 0x80000 + a.val * 0x4000)
  | .mpop d a => some (0xAE000004 + d.val * 0x80000 + a.val * 0x4000)
  | .mfirst d a => some (0xAE000005 + d.val * 0x80000 + a.val * 0x4000)
  | .qcnt d q => some (0xAF000000 + d.val * 0x80000 + q.val * 0x4000)
  | .barq d a b c => some (0xB0000000 + d.val * 0x80000 + a.val * 0x4000 + b.val * 0x200 + c.toNat)
  | .xlaunchRead => none
  | .tquotaWrite => none
  | .asidrWrite => none
  | .registerWrite => none
  | .issueCycle => none
  | .bassoonIssue => none
  | .faultPath => none
  | .queueWatchdog => none
  | .taskMessageArrival => none
  | .faultReportArrival => none
  | .blockMessage => none
  | .redelivery => none
  | .dispatch => none
  | .agingRise => none
  | .acknowledgement => none
  | .preEmptMessage => none
  | .safePointSave => none
  | .resumeMessage => none
  | .resumption => none
  | .remoteAtomicMessage => none
  | .remoteAtomicReply => none
  | .atomicAtHome => none
  | .shipPacketArrival => none
  | .shipResend => none
  | .guestEntryCompletion => none
  | .shipReply => none
  | .squashNotice => none
  | .shipTimeout => none
  | .engineCommandArrival => none
  | .commandAcceptanceReply => none
  | .resendAfterBackoff => none
  | .completionMessage => none
  | .engineFault => none
  | .mxactRestart => none
  | .mxactAbandon => none
  | .nruUpdate => none
  | .updateRefusal => none
  | .accumulatorRead => none
  | .accumulatorEviction => none
  | .claim => none
  | .recall => none
  | .recallAck => none
  | .llTlbEviction => none
  | .pageWalk => none
  | .gets => none
  | .getm => none
  | .puts => none
  | .pute => none
  | .putm => none
  | .fwdGets => none
  | .fwdGetm => none
  | .inv => none
  | .data => none
  | .invAck => none
  | .putAck => none
  | .snpinv => none
  | .snpdata => none
  | .hostMemoryRequest => none
  | .hostRequestFailure => none
  | .hostCompletionTimeout => none
  | .hcoFallback => none
  | .hostLinkDown => none
  | .workQueueRecordArrival => none
  | .dispenserAssign => none
  | .rebalancerPass => none
  | .taskMove => none
  | .forwardingEntryExpiry => none
  | .lqbellWrite => none
  | .launchRecord => none
  | .launchRecordComplete => none
  | .boostBoundary => none
  | .clockChangeComplete => none
  | .currentWindowEnd => none
  | .attreqGo => none
  | .attestationReport => none
  | .macReturn => none
  | .acceptHighWrite => none
  | .acceptCommit => none
  | .rcvreqGo => none
  | .startUp => none
  | .pwrfail => none
  | .securityAlarm => none
  | .housekeepingRangeViolation => none
  | .flitCrcError => none
  | .boundaryRetrain => none
  | .fabricCrcError => none
  | .fabricPortDisable => none
  | .patrolScrub => none
  | .directoryEntryError => none
  | .ownerFieldError => none
  | .coreRegisterError => none
  | .shootdownTimeout => none
  | .wfmWake => none
  | .barrierEpisodeCompletion => none
  | .fenceTokenCompletion => none
  | .vectorWordStart => none
  | .vectorWordCompletion => none
  | .taskControlRequest => none
  | .fabricMemoryRequest => none
  | .backInvalidationResponse => none
  | .quinceMacVerification => none

/-- The word of an instruction in a place: bit 30 is 1 for a lone word (R163). -/
def encodeWord (lone : Bool) (i : Instr) : Option Nat :=
  (encode i).map fun w => if lone then w + 0x40000000 else w

/-- The instruction the decoder reads from the bits `w` of an opcode-table row of `nbits` bits: one 32-bit word,
little-endian at a multiple of 4 (R163), so the bits are the word. A row without an encoding has no bits. -/
def decodeTableWord (nbits w : Nat) : Option Instr :=
  if nbits = 32 then (decodeWord (w % 0x100000000)).toOption else none

end Sys2Proof
end

