-- ==== Sys2Proof/Machine/Event.lean ====
section
/-!
DEFINITION. The events that have no encoding, with what each carries: messages in flight between units, and inputs
from outside the package.
-/
namespace Sys2Proof

/-! ## What the events carry -/

/-- A message of 2 to 16 doublewords (R38): the handler address, the meta word and the payload. -/
structure Msg where
  handler : Word
  metaWord : Word
  payload : List Word
deriving DecidableEq, Repr

/-- Who is told that a task was accepted (R42, R50, R289). -/
inductive Creator where
  /-- Nobody: `SEND`, `YIELD`, a completion message, an acknowledgement nobody waits for. -/
  | none
  /-- A `SEND` or `YIELD` of slot `slot` in its activation `gen`: never acknowledged, but held back while it is retried (R463). -/
  | send (slot gen : Nat)
  /-- A `SPAWN` or `LAUNCH` of slot `slot` in its activation `gen`, whose rd is `rd`; counted by `SLIM`
  if `counted`. -/
  | slot (slot gen : Nat) (rd : GReg) (counted : Bool)
  /-- A `MIGR` of slot `slot`, counted under R50, whose activation has ended. -/
  | migr (slot : Nat)
  /-- The launch agent waiting for the tasks of record `ctx` (R328). -/
  | agent (ctx : Nat)
deriving DecidableEq, Repr

/-- The operands of a ship packet by kind (R229). -/
inductive ShipOps where
  | scalar (a b c : Word)
  | pair (addr dlo dhi blo bhi : Word)
  | vector (a b c : VWord) (mask : Word)
deriving DecidableEq, Repr

/-- A ship packet (R229). `slot` is the key of the sending slot and `gen` its activation. -/
structure ShipPacket where
  iword : Nat
  slot : Nat
  gen : Nat
  tag : Fin 8
  ctx : Nat
  rm : Nat
  supervisor : Bool
  te : Nat
  asid : Nat
  lcore : Nat
  ops : ShipOps
  /-- `SHIPTGT` as read when it was first sent (R228), and its word's program-order stamp: both known to the sender
  only. -/
  target : Nat
  order : Nat
deriving DecidableEq, Repr

/-- A reply to a ship packet (R230): clean with flags and a result of at most 512 bits, or an exception with its
cause, `TRAPVAL` and detail. -/
inductive ShipResult where
  | clean (flags : Nat) (value : VWord)
  | exception (cause detail : Nat) (value : Word)
deriving DecidableEq, Repr

/-- A remote-atomic message (R281): the sender's slot, activation and ship tag, the instruction word, the raw
scratchpad address, the operand and the comparand. -/
structure AtomMsg where
  slot : Nat
  gen : Nat
  /-- The id under which a `RED` is outstanding (R143). -/
  id : Nat
  tag : Option (Fin 8)
  iword : Nat
  pa : Nat
  operand : Nat
  comparand : Nat
deriving DecidableEq, Repr

/-- The reply to a remote-atomic message (R281, R444): the old value, or the poisoned ECC word it met. -/
inductive AtomReply where
  | old (x : Nat)
  | poison (wd : Nat)
deriving DecidableEq, Repr

/-- An update of an accumulator line (R89, R114, R283, R284): elements of one type at one line, with the contributor
index and the slot that is told of a refusal. -/
structure NruUpdate where
  slot : Nat
  gen : Nat
  /-- The activation that sent it, as a report names it should the activation have ended (R448). -/
  ctx : Nat
  lcore : Nat
  taskId : Nat
  supervisor : Bool
  /-- The id under which it is outstanding (R143). -/
  id : Nat
  ty : AccType
  contrib : Nat
  /-- ACCN of the granule as the update was translated (R111). -/
  accn : Nat
  /-- Physical address, virtual address and value of each element, lowest element first. -/
  elems : List (Nat × Word × Word)
deriving DecidableEq, Repr

/-- A block transfer: the captured shadow set and parameter block of a read of `XLAUNCH` (R304 to R306). -/
structure BteCmd where
  slot : Nat
  gen : Nat
  rd : GReg
  ctx : Nat
  lcore : Nat
  supervisor : Bool
  src : Word
  dst : Word
  cnt : Word
  strs : Word
  strd : Word
  shape : Word
  deal : Word
  handler : Word
  doneLc : Nat
  prio : Nat
  tag : Word
  auto : Bool
  bte : Fin 8
  /-- The id of its registration in the range-lock table. -/
  lock : Nat
  /-- The transfer id given at acceptance (R306). -/
  id : Nat
  /-- Registrations of earlier commands of the slot whose updates come before its reads (R140). -/
  after : List Nat
deriving DecidableEq, Repr

/-- A command of a matrix engine: the bytes of its command or quantise block (R310, R319). -/
structure MxeCmd where
  slot : Nat
  gen : Nat
  ctx : Nat
  lcore : Nat
  supervisor : Bool
  fromDie : Nat
  mqd : Bool
  block : Word
  bytes : List Byte
  /-- Row progress from which it starts: SB, or the band of a restart (R318, R454). -/
  sb : Nat
  lock : Nat
  /-- ASID of the issuing context at issue (R313). -/
  asid : Nat
  /-- Registrations of earlier commands of the slot whose updates come before its reads (R140). -/
  after : List Nat
deriving DecidableEq, Repr

/-- A command of an engine. -/
inductive EngineCmd where
  | bte (c : BteCmd)
  | mxe (c : MxeCmd)
deriving DecidableEq, Repr

/-- The reply of an engine to a command (R306, R313, R434): the id of a transfer for the register that waits, or whether a
matrix engine accepted. -/
inductive EngineReply where
  | transfer (rd : GReg) (id : Nat)
  | accepted
  | refused (detail : Nat) (capability : Word)
deriving DecidableEq, Repr

/-- A record of a work queue (R329): a message with no destination yet, the candidate range and the footprint. -/
structure WorkRecord where
  msg : Msg
  first : Nat
  count : Nat
  fpOff : Nat
  fpLen : Nat
  creator : Creator
deriving DecidableEq, Repr

/-- What a network interface sends again after a refusal (R300, R411). -/
inductive Resend where
  | command (die engine : Nat) (c : EngineCmd)
  | record (die : Nat) (r : WorkRecord)
  | message (core : Nat) (m : Msg) (creator : Creator) (range : Option (Nat × Nat × Nat × Nat))
  | packet (p : ShipPacket) (toAlt : Bool)
deriving DecidableEq, Repr


/-- What must have taken place before a token of `TLBINV` or `HALT` completes (R61, R212, R213): the acceptance of a
message, an update, the eviction of an owner field, the remote atomics of an activation, a held store, one remote atomic, the
end of a command. -/
inductive Await where
  | message (m : Msg)
  | update (id : Nat)
  | field (pte : Nat)
  | atomics (slot gen : Nat)
  /-- A store held behind a shipped word, by its slot, activation and program-order stamp. -/
  | store (slot gen order : Nat)
  /-- One remote atomic, and a command that an engine has accepted, by its registration. -/
  | atomic (a : AtomMsg)
  | command (lock : Nat)
deriving DecidableEq, Repr

/-- A request from another package that arrives over a fabric port (R148): a load, a store, an atomic or a clean,
with the physical address at its home. -/
inductive FabricRequest where
  | load (pa n : Nat)
  | store (pa : Nat) (data : List Byte)
  | atomic (a : AtomMsg)
  | clean (pa : Nat) (cells : List (Nat × Byte))
  /-- A store that another package performs at its own memory, `pa` being the address in this one's domain window. -/
  | elsewhere (pa : Nat) (data : List Byte)
deriving DecidableEq, Repr

/-- A leaf held by a TLB (R97, R98, R118, R119). -/
structure TlbEntry where
  asid : Nat
  global : Bool
  /-- Page base virtual address and log2 of the page size. -/
  base : Nat
  size : Nat
  pa : Nat
  r : Bool
  w : Bool
  x : Bool
  u : Bool
  dirty : Bool
  /-- Address of the leaf PTE. -/
  pte : Nat
  /-- Its copy of the owner field (R153): `some true` private-own, `some false` shared, none for a leaf that is not COH or
  whose claim has not been answered. -/
  mark : Option Bool
  /-- MCT bytes of granules that it maps, by granule number, as they were when it first served them (R111, R119). -/
  classes : List (Nat × Nat)
deriving DecidableEq, Repr

/-- What a die's counters and sensors report at the end of a 1 µs window (R347, R351, R474, R475). Currents are in one unit
of the implementation's. -/
structure PowerWindow where
  /-- Predicted current of each domain. -/
  domains : List (Nat × Nat)
  /-- Energy of each context in µJ. -/
  energy : List (Nat × Nat)
  /-- Sensed current of the die. -/
  current : Nat
  /-- Quad sensors, in units of 0.25 °C. -/
  temps : List Nat
deriving DecidableEq, Repr, Inhabited

/-- What the steps of a start find (R354, R484, R485): which steps fail, with the optional units that fail. -/
structure StartReport where
  failed : List Nat
  chansOut : List Nat
  portsOut : List Nat
  shawmsOut : List Nat
deriving DecidableEq, Repr, Inhabited

/-- Who writes a device register: an activation of a slot, the host, the housekeeping firmware, or a supervisor's Shawm
hart, 4 × die + core (R360, R363). -/
inductive Writer where
  | slot (ctx : Nat) (supervisor : Bool)
  | host | housekeeping
  | shawm (hart : Nat)
deriving DecidableEq, Repr

/-- Kinds of signed image (R354, R358, R486). -/
inductive ImageKind where
  | trusted | config | housekeeping | supervisor | recovery | enrolment
deriving DecidableEq, Repr, Inhabited

/-- A firmware image or the configuration records (R358): the fields of the header, the body, the public key that comes with
it, and the signature. -/
structure Image where
  kind : ImageKind
  version : Nat
  body : List Byte
  publicKey : List Byte
  signature : List Byte
deriving DecidableEq, Repr, Inhabited

/-- Package flash beside the boot record (R356 to R360): the images in use, updates that the housekeeping firmware has staged,
and the device identity: helper data, wrapped private key, public key, and its signature by the production key. -/
structure Flash where
  images : List Image
  staged : List Image
  helper : List Byte
  wrapped : List Byte
  publicKey : List Byte
  certificate : List Byte
deriving DecidableEq, Repr, Inhabited

/-- A register that is written from outside the DZ cores: one of a die's register block (R94), or a supervisor CSR, named
by its context, core and number (R175, R360). -/
inductive RegTarget where
  | device (die offset : Nat)
  | csr (ctx core number : Nat)
  /-- The address of `DONE` that a context's loader sets (R43). -/
  | runtime (ctx : Nat)
  /-- A save record that a restoring loader writes at a position (R58, R371). -/
  | record (ctx lcore position : Nat) (bytes : List Byte)
  /-- A flash update that the housekeeping firmware stages (R360). -/
  | flash (image : Image)
  /-- A store of a Shawm hart to memory (R15, R121). -/
  | memory (pa : Nat) (bytes : List Byte)
deriving DecidableEq, Repr

/-- Where an ECC word is stored (R443): the L1 of a core, its instruction cache, the L2 of a die, or what an address itself names,
DRAM or a scratchpad. -/
inductive EccUnit where
  | l1 (core : Nat) | code (core : Nat) | l2 (die : Nat) | store
deriving DecidableEq, Repr

/-- An event on its way: a message in flight or an input from outside, with what it carries (one constructor per row of
the opcode table without an encoding). `src` is the stop of the die of arrival from which the traffic comes (R493). -/
inductive Event where
  /-- XLAUNCH_READ, R306. -/
  | xlaunchRead (d : GReg)
  /-- TQUOTA_WRITE, R352. -/
  | tquotaWrite (die : Nat) (ctx : Nat) (value : Word)
  /-- ASIDR_WRITE, R213. -/
  | asidrWrite (ctx : Nat) (value : Word)
  /-- REGISTER_WRITE, R6. -/
  | registerWrite (who : Writer) (target : RegTarget) (value : Word)
  /-- ISSUE_CYCLE, R335. -/
  | issueCycle (core : Nat)
  /-- BASSOON_ISSUE, R336. -/
  | bassoonIssue (core : Nat)
  /-- FAULT_PATH, R410. -/
  | faultPath (k : Nat)
  /-- QUEUE_WATCHDOG, R466. -/
  | queueWatchdog (k : Nat)
  /-- TASK_MESSAGE_ARRIVAL, R45. -/
  | taskMessageArrival (core : Nat) (src : Nat) (msg : Msg) (creator : Creator)
  /-- FAULT_REPORT_ARRIVAL, R45. -/
  | faultReportArrival (core : Nat) (src : Nat) (msg : Msg)
  /-- BLOCK_MESSAGE, R321. -/
  | blockMessage (die : Nat) (side : Fin 4) (core : Nat) (msg : Msg) (creator : Creator)
  /-- REDELIVERY, R47. -/
  | redelivery (core : Nat)
  /-- DISPATCH, R333. -/
  | dispatch (core : Nat)
  /-- AGING_RISE, R49. -/
  | agingRise (core : Nat) (idx : Nat)
  /-- ACKNOWLEDGEMENT, R50. -/
  | acknowledgement (creator : Creator) (taskId : Nat) (outside : Bool)
  /-- PRE_EMPT_MESSAGE, R55. -/
  | preEmptMessage (core : Nat) (msg : Msg) (trusted : Bool)
  /-- SAFE_POINT_SAVE, R56. -/
  | safePointSave (k : Nat)
  /-- RESUME_MESSAGE, R60. -/
  | resumeMessage (core : Nat) (msg : Msg) (trusted : Bool)
  /-- RESUMPTION, R60. -/
  | resumption (core : Nat)
  /-- REMOTE_ATOMIC_MESSAGE, R281. -/
  | remoteAtomicMessage (a : AtomMsg)
  /-- REMOTE_ATOMIC_REPLY, R281. -/
  | remoteAtomicReply (a : AtomMsg) (r : AtomReply)
  /-- ATOMIC_AT_HOME, R144; of another package or not, and whether it stands in the home's queue already (R62). -/
  | atomicAtHome (a : AtomMsg) (outside queued : Bool)
  /-- SHIP_PACKET_ARRIVAL, R231. -/
  | shipPacketArrival (core : Nat) (p : ShipPacket)
  /-- SHIP_RESEND, R228. -/
  | shipResend (p : ShipPacket) (toAlt : Bool)
  /-- GUEST_ENTRY_COMPLETION, R231. -/
  | guestEntryCompletion (core : Nat) (p : ShipPacket)
  /-- SHIP_REPLY, R236. -/
  | shipReply (k : Nat) (gen : Nat) (tag : Fin 8) (order : Nat) (r : ShipResult)
  /-- SQUASH_NOTICE, R237. -/
  | squashNotice (core : Nat) (k : Nat) (gen : Nat) (order : Nat)
  /-- SHIP_TIMEOUT, R436. -/
  | shipTimeout (k : Nat) (gen : Nat) (tag : Fin 8)
  /-- ENGINE_COMMAND_ARRIVAL, R300. -/
  | engineCommandArrival (die : Nat) (engine : Nat) (src : Nat) (c : EngineCmd)
  /-- COMMAND_ACCEPTANCE_REPLY, R313. -/
  | commandAcceptanceReply (k : Nat) (gen : Nat) (r : EngineReply)
  /-- RESEND_AFTER_BACKOFF, R300. -/
  | resendAfterBackoff (x : Resend)
  /-- COMPLETION_MESSAGE, R302. -/
  | completionMessage (die : Nat) (engine : Nat)
  /-- ENGINE_FAULT, R452. -/
  | engineFault (die : Nat) (engine : Nat)
  /-- MXACT_RESTART, R454. -/
  | mxactRestart (die : Nat) (entry : Fin 16)
  /-- MXACT_ABANDON, R454. -/
  | mxactAbandon (die : Nat) (entry : Fin 16)
  /-- NRU_UPDATE, R114. -/
  | nruUpdate (u : NruUpdate)
  /-- UPDATE_REFUSAL, R448. -/
  | updateRefusal (u : NruUpdate) (detail : Nat) (va : Word)
  /-- ACCUMULATOR_READ, R114. -/
  | accumulatorRead (line : Nat) (metaLost : Bool)
  /-- ACCUMULATOR_EVICTION, R116. -/
  | accumulatorEviction (line : Nat) (acked : Bool)
  /-- CLAIM, R153. -/
  | claim (e : TlbEntry) (agent : Nat) (mayOwn : Bool)
  /-- RECALL, R154. -/
  | recall (pte : Nat)
  /-- RECALL_ACK, R154. -/
  | recallAck (pte : Nat)
  /-- LL_TLB_EVICTION, R155. -/
  | llTlbEviction (pte : Nat)
  /-- PAGE_WALK, R118. -/
  | pageWalk (core : Nat) (ctx : Nat) (supervisor : Bool) (va : Word) (write : Bool)
  /-- GETS, R159. -/
  | gets (line : Nat) (agent : Nat) (sent : Bool)
  /-- GETM, R159. -/
  | getm (line : Nat) (agent : Nat) (sent : Bool)
  /-- PUTS, R159. -/
  | puts (line : Nat) (agent : Nat) (sent : Bool)
  /-- PUTE, R159. -/
  | pute (line : Nat) (agent : Nat) (sent : Bool)
  /-- PUTM, R159. -/
  | putm (line : Nat) (agent : Nat) (sent : Bool)
  /-- FWD_GETS, R159. -/
  | fwdGets (line : Nat) (cache : Nat) (requester : Nat)
  /-- FWD_GETM, R159. -/
  | fwdGetm (line : Nat) (cache : Nat) (requester : Nat)
  /-- INV, R159. -/
  | inv (line : Nat) (cache : Nat) (requester : Nat)
  /-- DATA, R159. -/
  | data (line : Nat) (dest : Nat) (acks : Nat) (exclusive : Bool)
  /-- INV_ACK, R159. -/
  | invAck (line : Nat) (cache : Nat)
  /-- PUT_ACK, R159. -/
  | putAck (line : Nat) (cache : Nat)
  /-- SNPINV, R162. -/
  | snpinv (line : Nat)
  /-- SNPDATA, R162. -/
  | snpdata (line : Nat)
  /-- HOST_MEMORY_REQUEST, R161. -/
  | hostMemoryRequest (port : Fin 2) (pa : Nat) (n : Nat) (data : Option (List Byte)) (expect : Option (List Byte))
  /-- HOST_REQUEST_FAILURE, R479. -/
  | hostRequestFailure (k : Nat) (gen : Nat) (poison : Bool) (va : Word)
  /-- HOST_COMPLETION_TIMEOUT, R479. -/
  | hostCompletionTimeout (k : Nat) (gen : Nat) (va : Word)
  /-- HCO_FALLBACK, R480; or an error of the port that the link corrects, which its record alone shows (R487). -/
  | hcoFallback (port : Fin 2) (lost : List Nat) (correctable : Bool)
  /-- HOST_LINK_DOWN, R481. -/
  | hostLinkDown (port : Fin 2) (waiting : List (Nat × Word))
  /-- WORK_QUEUE_RECORD_ARRIVAL, R329. -/
  | workQueueRecordArrival (die : Nat) (r : WorkRecord)
  /-- DISPENSER_ASSIGN, R331. -/
  | dispenserAssign (die : Nat)
  /-- REBALANCER_PASS, R337. -/
  | rebalancerPass (die : Nat)
  /-- TASK_MOVE, R338. -/
  | taskMove (core : Nat) (ctx : Nat) (taskId : Nat)
  /-- FORWARDING_ENTRY_EXPIRY, R339. -/
  | forwardingEntryExpiry (core : Nat) (ctx : Nat) (taskId : Nat)
  /-- LQBELL_WRITE, R324. -/
  | lqbellWrite (ctx : Nat) (tail : Nat)
  /-- LAUNCH_RECORD, R328. -/
  | launchRecord
  /-- LAUNCH_RECORD_COMPLETE, R328. -/
  | launchRecordComplete (ctx : Nat)
  /-- BOOST_BOUNDARY, R345. -/
  | boostBoundary (die : Nat) (temps : List Nat)
  /-- CLOCK_CHANGE_COMPLETE, R343. -/
  | clockChangeComplete (die : Nat) (domain : Nat)
  /-- CURRENT_WINDOW_END, R347. -/
  | currentWindowEnd (die : Nat) (w : PowerWindow)
  /-- ATTREQ_GO, R362. -/
  | attreqGo (value : Word)
  /-- ATTESTATION_REPORT, R362. -/
  | attestationReport
  /-- MAC_RETURN, R215. -/
  | macReturn (k : Nat) (gen : Nat) (rd : GReg) (capHigh : BitVec 32)
  /-- ACCEPT_HIGH_WRITE, R364. -/
  | acceptHighWrite (value : Word)
  /-- ACCEPT_COMMIT, R364. -/
  | acceptCommit (value : Word)
  /-- RCVREQ_GO, R486. -/
  | rcvreqGo (value : Word)
  /-- START_UP, R354. -/
  | startUp (report : StartReport)
  /-- PWRFAIL, R472. -/
  | pwrfail
  /-- SECURITY_ALARM, R482. -/
  | securityAlarm (die : Nat) (level : Fin 3)
  /-- HOUSEKEEPING_RANGE_VIOLATION, R361. -/
  | housekeepingRangeViolation (pa : Nat)
  /-- FLIT_CRC_ERROR, R476. -/
  | flitCrcError (boundary : Nat) (again : Bool)
  /-- BOUNDARY_RETRAIN, R476. -/
  | boundaryRetrain (boundary : Nat) (group : Nat) (works : Bool)
  /-- FABRIC_CRC_ERROR, R478. -/
  | fabricCrcError (port : Nat) (again : Bool)
  /-- FABRIC_PORT_DISABLE, R478. -/
  | fabricPortDisable (port : Nat) (lost : List Nat) (waiting : List (Nat × Word))
  /-- PATROL_SCRUB, R443. -/
  | patrolScrub (at_ : EccUnit) (pa : Nat) (error : Fin 3)
  /-- DIRECTORY_ENTRY_ERROR, R445. -/
  | directoryEntryError (line : Nat)
  /-- OWNER_FIELD_ERROR, R445. -/
  | ownerFieldError (pte : Nat)
  /-- CORE_REGISTER_ERROR, R471. -/
  | coreRegisterError (k : Nat)
  /-- SHOOTDOWN_TIMEOUT, R457. -/
  | shootdownTimeout (agent : Nat)
  /-- WFM_WAKE, R210. -/
  | wfmWake (k : Nat) (seen : Option (Nat × Nat × Word))
  /-- BARRIER_EPISODE_COMPLETION, R296. -/
  | barrierEpisodeCompletion (ctx : Nat) (gang : Nat) (unit : Nat) (scope : Scope) (id : Nat)
  /-- FENCE_TOKEN_COMPLETION, R132. -/
  | fenceTokenCompletion (k : Nat) (gen : Nat) (entry : Fin 8) (seq : Nat) (await : List Await) (halts : Option Nat)
  /-- VECTOR_WORD_START, R241. -/
  | vectorWordStart (k : Nat)
  /-- VECTOR_WORD_COMPLETION, R243. -/
  | vectorWordCompletion (k : Nat)
  /-- TASK_CONTROL_REQUEST, R294. -/
  | taskControlRequest (core : Nat) (k : Nat) (gen : Nat) (rd : GReg) (ctx : Nat) (taskId : Nat) (query : Bool)
  /-- FABRIC_MEMORY_REQUEST, R148. -/
  | fabricMemoryRequest (r : FabricRequest)
  /-- BACK_INVALIDATION_RESPONSE, R161. -/
  | backInvalidationResponse (line : Nat) (cache : Nat) (requester : Nat) (exclusive inv : Bool)
  /-- QUINCE_MAC_VERIFICATION, R314. -/
  | quinceMacVerification (die : Nat) (engine : Nat)
deriving DecidableEq, Repr, Inhabited

/-- The row of the opcode table that the event is. -/
def Event.row : Event → Instr
  | .xlaunchRead .. => .xlaunchRead
  | .tquotaWrite .. => .tquotaWrite
  | .asidrWrite .. => .asidrWrite
  | .registerWrite .. => .registerWrite
  | .issueCycle .. => .issueCycle
  | .bassoonIssue .. => .bassoonIssue
  | .faultPath .. => .faultPath
  | .queueWatchdog .. => .queueWatchdog
  | .taskMessageArrival .. => .taskMessageArrival
  | .faultReportArrival .. => .faultReportArrival
  | .blockMessage .. => .blockMessage
  | .redelivery .. => .redelivery
  | .dispatch .. => .dispatch
  | .agingRise .. => .agingRise
  | .acknowledgement .. => .acknowledgement
  | .preEmptMessage .. => .preEmptMessage
  | .safePointSave .. => .safePointSave
  | .resumeMessage .. => .resumeMessage
  | .resumption .. => .resumption
  | .remoteAtomicMessage .. => .remoteAtomicMessage
  | .remoteAtomicReply .. => .remoteAtomicReply
  | .atomicAtHome .. => .atomicAtHome
  | .shipPacketArrival .. => .shipPacketArrival
  | .shipResend .. => .shipResend
  | .guestEntryCompletion .. => .guestEntryCompletion
  | .shipReply .. => .shipReply
  | .squashNotice .. => .squashNotice
  | .shipTimeout .. => .shipTimeout
  | .engineCommandArrival .. => .engineCommandArrival
  | .commandAcceptanceReply .. => .commandAcceptanceReply
  | .resendAfterBackoff .. => .resendAfterBackoff
  | .completionMessage .. => .completionMessage
  | .engineFault .. => .engineFault
  | .mxactRestart .. => .mxactRestart
  | .mxactAbandon .. => .mxactAbandon
  | .nruUpdate .. => .nruUpdate
  | .updateRefusal .. => .updateRefusal
  | .accumulatorRead .. => .accumulatorRead
  | .accumulatorEviction .. => .accumulatorEviction
  | .claim .. => .claim
  | .recall .. => .recall
  | .recallAck .. => .recallAck
  | .llTlbEviction .. => .llTlbEviction
  | .pageWalk .. => .pageWalk
  | .gets .. => .gets
  | .getm .. => .getm
  | .puts .. => .puts
  | .pute .. => .pute
  | .putm .. => .putm
  | .fwdGets .. => .fwdGets
  | .fwdGetm .. => .fwdGetm
  | .inv .. => .inv
  | .data .. => .data
  | .invAck .. => .invAck
  | .putAck .. => .putAck
  | .snpinv .. => .snpinv
  | .snpdata .. => .snpdata
  | .hostMemoryRequest .. => .hostMemoryRequest
  | .hostRequestFailure .. => .hostRequestFailure
  | .hostCompletionTimeout .. => .hostCompletionTimeout
  | .hcoFallback .. => .hcoFallback
  | .hostLinkDown .. => .hostLinkDown
  | .workQueueRecordArrival .. => .workQueueRecordArrival
  | .dispenserAssign .. => .dispenserAssign
  | .rebalancerPass .. => .rebalancerPass
  | .taskMove .. => .taskMove
  | .forwardingEntryExpiry .. => .forwardingEntryExpiry
  | .lqbellWrite .. => .lqbellWrite
  | .launchRecord => .launchRecord
  | .launchRecordComplete .. => .launchRecordComplete
  | .boostBoundary .. => .boostBoundary
  | .clockChangeComplete .. => .clockChangeComplete
  | .currentWindowEnd .. => .currentWindowEnd
  | .attreqGo .. => .attreqGo
  | .attestationReport => .attestationReport
  | .macReturn .. => .macReturn
  | .acceptHighWrite .. => .acceptHighWrite
  | .acceptCommit .. => .acceptCommit
  | .rcvreqGo .. => .rcvreqGo
  | .startUp .. => .startUp
  | .pwrfail => .pwrfail
  | .securityAlarm .. => .securityAlarm
  | .housekeepingRangeViolation .. => .housekeepingRangeViolation
  | .flitCrcError .. => .flitCrcError
  | .boundaryRetrain .. => .boundaryRetrain
  | .fabricCrcError .. => .fabricCrcError
  | .fabricPortDisable .. => .fabricPortDisable
  | .patrolScrub .. => .patrolScrub
  | .directoryEntryError .. => .directoryEntryError
  | .ownerFieldError .. => .ownerFieldError
  | .coreRegisterError .. => .coreRegisterError
  | .shootdownTimeout .. => .shootdownTimeout
  | .wfmWake .. => .wfmWake
  | .barrierEpisodeCompletion .. => .barrierEpisodeCompletion
  | .fenceTokenCompletion .. => .fenceTokenCompletion
  | .vectorWordStart .. => .vectorWordStart
  | .vectorWordCompletion .. => .vectorWordCompletion
  | .taskControlRequest .. => .taskControlRequest
  | .fabricMemoryRequest .. => .fabricMemoryRequest
  | .backInvalidationResponse .. => .backInvalidationResponse
  | .quinceMacVerification .. => .quinceMacVerification

end Sys2Proof
end

