-- ==== Sys2Proof/Config.lean ====
section
/-!
DEFINITION. What an implementation fixes and the spec leaves open. Every free value is an opaque constant: nothing in
Lean can evaluate it, so a statement that holds holds whatever it is.
-/
namespace Sys2Proof

/-- A fresh 64-bit value the spec leaves open, applied to a counter of the state: an undefined register (R43, R60). -/
opaque Config.freeWord : Nat → Word

/-- A fresh 512-bit value the spec leaves open: an undefined `v` register (R43, R60). -/
opaque Config.freeVec : Nat → VWord

/-- The hundredths of a tick of `TIME` that pass before an event: R175 fixes the meaning of a tick, no rule how many an event
takes. -/
opaque Config.ticks : Nat → Nat

/-- How many more arrivals at a unit come in the mesh cycle of one (R45, R300). -/
opaque Config.sameCycle : Nat → Nat

/-- The back-off hint of a refusal is not architectural (R228); no step depends on its value. -/
opaque Config.hint : Nat → BitVec 4

/-- The fallback of the interval refinement of a transcendental function, reached only if the fuel of the refinement
runs out (Machine/FpTrans.lean). -/
opaque Config.transcendental : Nat → Nat → Nat → Nat

/-- The 64-byte boot key drawn by the Quince core (R215, R354): a free value of each start-up. -/
opaque Config.bootKey : Nat → BitVec 512

/-- What reaches the package from outside, and which of its units acts next, at each moment: the choice is free. -/
opaque Config.input : Nat → Event

/-- Whether that choice takes place before what is already on its way. -/
opaque Config.interleave : Nat → Bool

/-- What the first start finds: the outcomes of its steps (R354). -/
opaque Config.startInput : StartReport

/-- What a later start finds, by its draw. -/
opaque Config.restart : Nat → StartReport

/-- The 32-byte boot nonce of a start, by its draw (R354). -/
opaque Config.bootNonce : Nat → BitVec 256

/-- Package flash as it left the factory (R357 to R359): no rule gives the images or the identity. -/
opaque Config.flash : Flash

/-- The counter of the board root of trust when the package is first started (R359). -/
opaque Config.boardCounter : Nat

/-- To what value the trusted firmware asks the board to advance the counter at a start, by its draw (R359). -/
opaque Config.advance : Nat → Nat

/-- The 64-byte PUF root of the package's SRAM with helper data: the same at every start (R357). -/
opaque Config.pufRoot : List Byte → BitVec 512

/-- The identity private key, unwrapped under the key derived from the PUF root (R357). -/
opaque Config.unwrap : BitVec 512 → List Byte → List Byte

/-- SHA3-512 digest of the Seraravar key, in the Quince ROM (R358). -/
opaque Config.romDigest : List Byte

/-- The bytes of the header of an image with a length, security version and kind: their layout is not given (R358). -/
opaque Config.imageHeader : Nat → Nat → ImageKind → List Byte

/-- Whether a signature of a digest verifies under an ML-DSA-87 public key (R358). -/
opaque Config.verifies : List Byte → List Byte → List Byte → Bool

/-- How many bytes an image has, from its first 8 KiB, and the image that bytes from the host hold (R486): the layout is not
given. -/
opaque Config.imageBytes : List Byte → Nat
opaque Config.parseImage : List Byte → Option Image

/-- The wrapped private key, the public key and its certificate that an enrolment image brings (R483, R486). -/
opaque Config.enrol : List Byte → List Byte × List Byte × List Byte

/-- What configuration records hold, by their body: the digest of the owner key (R358), the current share of a domain of a
die and the current limit of a die (R347, R475), and the housekeeping partition (R361). -/
opaque Config.ownerDigest : List Byte → List Byte
opaque Config.share : List Byte → Nat → Nat → Nat
opaque Config.currentLimit : List Byte → Nat → Nat
opaque Config.partition : List Byte → List (Nat × Nat)

/-- The reading of a sensor of a die's quad at a boundary, in units of 0.25 °C (R349). -/
opaque Config.sensor : Nat → Nat → Nat → Nat

/-- What a die's counters and sensors report at the end of a window (R347, R351, R474, R475). -/
opaque Config.window : Nat → Nat → PowerWindow

/-- A register of a Shawm core after RV64 code that this spec does not give (R15). -/
opaque Config.shawmWord : Nat → Nat → Word

/-- Byte of the ML-DSA-87 signature of a message by a private key (R357, R362). -/
opaque Config.signature : List Byte → List Byte → Nat → Byte

end Sys2Proof
end

