-- ==== Sys2Proof/Machine/State.lean ====
section
/-!
DEFINITION. The state of one package as plain data, the reasons a step can stop, and the state after reset.
-/
namespace Sys2Proof.Machine

/-! ## Why a step can stop -/

/-- The machine stops with a fault. -/
inductive Fault where
  /-- Raised by `step` when the package has stopped (supply loss, R472; an unreachable die, R477) and no start-up is
  pending: nothing executes. Safe: the machine takes no step. -/
  | packageStopped
deriving DecidableEq, Repr

/-- An instruction has no meaning here. -/
inductive Refusal where
  /-- Raised by a dispatch arm of an instruction that is not modelled. Safe: no next state is claimed. -/
  | notModelled (mnemonic : String)
deriving DecidableEq, Repr

/-! ## Tables: lists of keyed entries, keys rising -/

/-- The value at a key, or the default. -/
def tabGet {V : Type} (d : V) : List (Nat × V) → Nat → V
  | [], _ => d
  | (k, v) :: t, x => if k < x then tabGet d t x else if k = x then v else d

/-- The table with a key set. -/
def tabSet {V : Type} : List (Nat × V) → Nat → V → List (Nat × V)
  | [], x, y => [(x, y)]
  | (k, v) :: t, x, y => if k < x then (k, v) :: tabSet t x y else if k = x then (x, y) :: t else (x, y) :: (k, v) :: t

/-- The table without a key. -/
def tabErase {V : Type} : List (Nat × V) → Nat → List (Nat × V)
  | [], _ => []
  | (k, v) :: t, x => if k < x then (k, v) :: tabErase t x else if k = x then t else (k, v) :: t

/-- Whether a key is present. -/
def tabHas {V : Type} : List (Nat × V) → Nat → Bool
  | [], _ => false
  | (k, _) :: t, x => if k < x then tabHas t x else k == x

/-! ## Memory kinds -/

/-- What a physical address is for the access that reached it (R94, R110): a memory class, scratchpad through a
window, or the domain window of another package. -/
inductive MemKind where
  | coh | swm
  /-- ACC with the granule's ACCN (R109). -/
  | acc (n : Nat)
  | dev | hco | hnc
  /-- Scratchpad through window `w` (R102); the address is the raw one of window w0. -/
  | spad (w : Nat)
  | domain
deriving DecidableEq, Repr

/-- A translated place: the kind and the physical address (raw for scratchpad). -/
structure Phys where
  kind : MemKind
  pa : Nat
deriving DecidableEq, Repr

/-! ## The slot -/

/-- What the last word did. -/
inductive Did where
  | done | stalled | trapped
deriving DecidableEq, Repr

/-- A fence token entry (R132). -/
structure Token where
  seq : Nat
  /-- Covered updates not yet applied (R143), by id; complete when none is left and its event has taken place. -/
  need : List Nat
  complete : Bool
deriving DecidableEq, Repr

/-- A logged register value (R235). -/
inductive Undo where
  | g (r : GReg) (x : Word)
  | v (r : VReg) (x : VWord)
  | m (r : MReg) (x : Word)
  | fcsr (x : Word)
deriving DecidableEq, Repr

/-- An exception a slot holds or takes: cause, detail, remote bit, value and address (R407, R408). -/
structure Exc where
  cause : Nat
  detail : Nat
  remote : Bool
  value : Word
  pc : Word
  /-- Sequence number of the syndrome record written for it, or 0 (R411). -/
  record : Nat
deriving DecidableEq, Repr

/-- A store: its translated place and its bytes, lowest address first. -/
structure StoreReq where
  place : Phys
  bytes : List Byte
deriving DecidableEq, Repr

/-- A store held behind a shipped word (R234, R235): its program-order stamp and its parts in order. -/
structure HeldStore where
  order : Nat
  parts : List StoreReq
deriving DecidableEq, Repr

/-- A ship-window entry (R233). -/
structure ShipEntry where
  instr : Instr
  addr : Word
  order : Nat
  /-- `SPD` and `RETIRED` as they stood before the word (R234, R235). -/
  spd : Nat
  retired : Word
  /-- The link register a branch C word of the same pair wrote, with its prior value (R437). -/
  link : Option (GReg × Word)
  /-- The packet, until it has left (R238, R249). -/
  packet : Option ShipPacket
  reply : Option ShipResult
  /-- Sequence number of the syndrome record written for its failure, or 0 (R411). -/
  record : Nat
deriving DecidableEq, Repr

/-- A V word in the vector issue queue or the repetition buffer, with its `g` operands as read at issue (R164, R241). -/
structure VEntry where
  instr : Instr
  addr : Word
  gops : List Word
  rm : Nat
  te : Nat
  order : Nat
  tag : Option (Fin 8)
  /-- Pass and index in the repetition buffer, if captured (R267). -/
  cap : Option (Nat × Nat)
  /-- Whether the word issued while the V stream had to be empty, with all traps precise (R244). -/
  serial : Bool
  /-- The link register a branch C word of the same pair wrote, with its prior value (R167). -/
  link : Option (GReg × Word)
  /-- `SPD` and `RETIRED` as they stood before the word, or before its pair behind a branch (R167, R422). -/
  spd : Nat
  retired : Word
deriving DecidableEq, Repr

/-- The effect of a V word: the registers it writes, what it appends, and the flags raised with the lanes (modulo 32)
that raised them (R243, R431). -/
structure VRes where
  v : Option (VReg × VWord)
  m : Option (MReg × Word)
  g : Option (GReg × Word)
  q : Option (QReg × Word)
  raised : List (Nat × Nat)
deriving DecidableEq, Repr

/-- The repetition buffer (R266 to R270). -/
structure Rep where
  /-- Words still to capture. -/
  todo : Nat
  captured : List VEntry
  k : Nat
  stride : Nat
  stagger : Nat
  /-- Words captured in all. -/
  n : Nat
  /-- `FCSR.TE` was non-zero when `REP` issued. -/
  te : Bool
  /-- Next pass and index to run, once the capture is complete. -/
  pass : Nat
  index : Nat
  /-- Program-order stamp of the last captured word: V words after it wait for the passes (R267). -/
  last : Nat
deriving DecidableEq, Repr

/-- What a slot is doing beside issuing. -/
inductive Phase where
  | running
  /-- In `WFM`: rd, and the tick of `TIME` at which the limit passes, if any (R210). -/
  | wfm (rd : GReg) (limit : Option Nat)
  /-- At a safe point of a pre-empting context: the descriptor's address and its parts (R56). -/
  | saving (desc : Word) (gmap vmap mmap : Nat)
  /-- On the fault path (R410). -/
  | faulting (e : Exc)
deriving DecidableEq, Repr

/-- A request that the word at the head of the slot waits on: sent, or answered. -/
inductive Wait where
  | sent
  /-- The old value of an atomic performed at a scratchpad (R281). -/
  | old (x : Nat)
  /-- The micro-handler met poison: the poisoned ECC word, as a multiple of 8 (R444). -/
  | poison (wd : Nat)
  /-- An engine accepted the command (R313). -/
  | accepted
  /-- An engine refused it: CAPABILITY detail and the capability (R434). -/
  | refused (detail : Nat) (capability : Word)
  /-- `BARW` waits for the open episode of a barrier, named by its id. -/
  | barrier (id : Nat)
  /-- The combined value of the episode, and what gS receives: 1, or 2 if the participants disagreed on OP (R467). -/
  | combined (value : Word) (code : Nat)
deriving DecidableEq, Repr

/-- Which reply a scoreboarded `g` register waits for (R289, R294, R215, R281). -/
inductive BusyFor where
  | task | control | mac | atomic | engine
deriving DecidableEq, Repr

structure Slot where
  active : Bool
  ctx : Nat
  lcore : Nat
  taskId : Nat
  prio : Nat
  supervisor : Bool
  lastCtx : Option Nat
  /-- Activation counter of the slot: replies for an earlier activation are discarded. The model's own. -/
  gen : Nat
  g : Vector Word 32
  v : Vector VWord 32
  m : Vector Word 8
  q : Vector (List Word) 4
  pc : Word
  /-- Address of the word being executed, the address an exception of it reports, and the following bundle. -/
  wa : Word
  tpc : Word
  nxt : Word
  aOnly : Bool
  /-- Bit 30 of the word being executed. The model's own. -/
  lone : Bool
  did : Did
  fcsr : Word
  contrib : Word
  spd : Nat
  splim : Nat
  slim : Nat
  retired : Word
  xset : Vector Word 8
  xid : Word
  trapvec : Word
  trapcause : Word
  trapval : Word
  trappc : Word
  tctx : Nat
  tokens : Vector (Option Token) 8
  seq : Nat
  window : Vector (Option ShipEntry) 8
  history : List (Nat × Undo)
  held : List HeldStore
  heldTrap : Option Exc
  order : Nat
  vq : List VEntry
  vrun : Option (VEntry × VRes)
  rep : Option Rep
  busy : List (GReg × BusyFor)
  creations : Nat
  /-- Unacknowledged creations that `SLIM` does not count: of `SPAWN` to the own core (R50, R56). -/
  ownCreations : Nat
  /-- Updates sent and not yet applied: id and line address, oldest first (R143). -/
  updates : List (Nat × Nat)
  /-- `MMA` commands sent and not yet ended, by registration: their updates belong to the slot's reductions (R122, R143). -/
  matrix : List Nat
  /-- Messages of the slot, of any activation of it, that a full spill queue refused and its interface still retries (R463). -/
  retrying : Nat
  /-- The request of a word that waits for its reply, and the reply (R281, R313). -/
  wait : Option Wait
  refusal : Option (Nat × Word)
  /-- The last activation of the slot that had an update refused, and how many of its updates were (R448). -/
  refusals : Nat × Nat
  /-- Operands taken from queues, at most one of each, by INT words that then stalled on the queue they append to (R191). -/
  taken : List (QReg × Word)
  phase : Phase
  /-- Resume address while a rebuild stub runs, with its save position (R60). -/
  stub : Option (Word × Nat)
  /-- The leaf PTE of a page that a word has claimed and may still have to access, and the word's program-order stamp (R154). -/
  claiming : Option (Nat × Nat)
deriving DecidableEq, Repr

/-- A slot right after reset: register files zeroed (R354, step 3), CSRs at the resets of R175. -/
def Slot.reset : Slot where
  active := false
  ctx := 0
  lcore := 0
  taskId := 0
  prio := 0
  supervisor := false
  lastCtx := none
  gen := 0
  g := Vector.replicate 32 0
  v := Vector.replicate 32 0
  m := Vector.replicate 8 0
  q := Vector.replicate 4 []
  pc := 0
  wa := 0
  tpc := 0
  nxt := 0
  aOnly := false
  lone := true
  did := .done
  fcsr := 0
  contrib := 0
  spd := 0
  splim := 4096
  slim := 16
  retired := 0
  xset := Vector.replicate 8 0
  xid := 0
  trapvec := 0
  trapcause := 0
  trapval := 0
  trappc := 0
  tctx := 0
  tokens := Vector.replicate 8 none
  seq := 0
  window := Vector.replicate 8 none
  history := []
  held := []
  heldTrap := none
  order := 0
  vq := []
  vrun := none
  rep := none
  busy := []
  creations := 0
  ownCreations := 0
  updates := []
  matrix := []
  retrying := 0
  wait := none
  refusal := none
  refusals := (0, 0)
  taken := []
  phase := .running
  stub := none
  claiming := none

/-! ## The core -/

/-- An entry of the arrival queue (R45, R333). -/
structure ArrEntry where
  msg : Msg
  taskId : Nat
  prio : Nat
  /-- Core cycle of acceptance or of the last rise (R49). -/
  since : Nat
  /-- Candidate range and footprint of a dispensed task, which is movable (R331, R332). -/
  range : Option (Nat × Nat × Nat × Nat)
  /-- The target of a move in progress (R338). -/
  moving : Option Nat
  /-- The move has copied the footprint, and is about to hand the entry over (R338, R340). -/
  copied : Bool
deriving DecidableEq, Repr

/-- The mark of a logical core under pre-emption (R55, R61). -/
structure PreMark where
  ctx : Nat
  lcore : Nat
  preempted : Bool
  /-- Handler address from the pre-empt message, and the save positions written since (R59). -/
  handler : Word
  saved : List Nat
deriving DecidableEq, Repr

structure Core where
  arrival : List ArrEntry
  marks : List PreMark
  /-- Accepted resumes: context, logical core, mask of the positions still to reload, and activations that have not yet
  executed their first bundle at the resume address (R60). -/
  resuming : List (Nat × Nat × Nat × Nat)
  rrSlot : Nat
  rrCtx : Option Nat
  rrLc : List (Nat × Nat)
  /-- Forwarding table: context and task id to the new core, with the core's cycle when it was written (R339). -/
  fwd : List (Nat × Nat × Nat × Nat)
  /-- Core-table cache: context, logical core, entry (R120). -/
  ctCache : List (Nat × Nat × Word)
  tlb : List TlbEntry
  boostReq : Nat
  gshare : Nat
  /-- `GSHARE` as it stood when the present cycle began, the share in force (R231). -/
  share : Nat
  deficit : Nat
  guest : List ShipPacket
  running : List ShipPacket
  isolated : Bool
  errors : List Nat
  /-- Dirty bytes of SWM and domain-window lines in the core's L1 (R105, R125). -/
  l1 : List Host.Cell
  /-- SWM and domain-window lines in the core's L1 as they were when it took them (R105, R125). -/
  l1c : List (Nat × List Byte)
  /-- Poisoned ECC words of those copies, as multiples of 8 (R444). -/
  l1p : List Nat
  /-- Lines of the instruction cache, newest first (R106), and the poisoned ECC words among them (R444). -/
  icache : List (Nat × List Byte)
  icachep : List Nat
deriving DecidableEq, Repr

/-- A core right after reset. -/
def Core.reset : Core where
  arrival := []
  marks := []
  resuming := []
  rrSlot := 3
  rrCtx := none
  rrLc := []
  fwd := []
  ctCache := []
  tlb := []
  boostReq := 0
  gshare := 1
  share := 1
  deficit := 0
  guest := []
  running := []
  isolated := false
  errors := []
  l1 := []
  l1c := []
  l1p := []
  icache := []
  icachep := []

/-! ## Contexts, accumulator lines -/

/-- What the hardware keeps of a spilled message beside its ring entry (R42, R294, R332; log 12): logical core, ring
index, task id, whether it is void, and its candidate range and footprint. -/
structure Spilled where
  lcore : Nat
  index : Nat
  taskId : Nat
  void : Bool
  range : Option (Nat × Nat × Nat × Nat)
  /-- The core that accepted it, its cycle at the acceptance or last rise, and the priority (R42, R49). -/
  core : Nat
  since : Nat
  prio : Nat
deriving DecidableEq, Repr

structure Context where
  live : Bool
  everLive : Bool
  haltDone : Bool
  cbase : Word
  clim : Word
  csave : Word
  asidr : Word
  coretab : Word
  routetab : Word
  ownmap : Word
  spillbase : Word
  supctx : Word
  lqbase : Word
  lqerr : Word
  /-- Acceptance counters by logical core (R42). -/
  accept : List (Nat × Nat)
  /-- Occupied save positions: logical core × 4 + position (R58). -/
  occupied : List Nat
  /-- The fence-token count of the activation saved at a position, where the hardware wrote the record (R56, R132). -/
  seqs : List (Nat × Nat)
  runtime : Word
  /-- What belongs to the entries of its spill rings. -/
  spilled : List Spilled
  /-- The last 1 ms window in which each spill queue's first refusal was logged (R463). -/
  refusedAt : List (Nat × Nat)
deriving DecidableEq, Repr

/-- A context right after reset. -/
def Context.reset : Context where
  live := false
  everLive := false
  haltDone := false
  cbase := 0
  clim := 0
  csave := 0
  asidr := 0
  coretab := 0
  routetab := 0
  ownmap := 0
  spillbase := 0
  supctx := 0
  lqbase := 0
  lqerr := 0
  accept := []
  occupied := []
  seqs := []
  runtime := 0
  spilled := []
  refusedAt := []

/-- Accumulator state of a line of an ACC granule (R112). -/
structure AccState where
  ty : AccType
  ordered : Bool
  n : Nat
  dirty : Bool
  /-- The line and its state lie in the home slice, not in DRAM (R116). -/
  resident : Bool
deriving DecidableEq, Repr

/-! ## Barriers (R295 to R297) -/

/-- A contribution that has not reached its network: its logical core, OP and operand, and the reductions of its slot that
must be applied first (R139, R296). -/
structure Contribution where
  lcore : Nat
  op : Nat
  operand : Word
  need : List Nat
deriving DecidableEq, Repr

/-- A barrier id of a gang on one network, with its open episode. -/
structure Barrier where
  /-- Its name for waiting words. The model's own. -/
  key : Nat
  ctx : Nat
  /-- First logical core of the gang, or 0x10000 + the logical core of a gang of one. -/
  gang : Nat
  scope : Scope
  /-- The unit of the scope. -/
  unit : Nat
  id : Nat
  /-- Participants of the open episode, fixed when it opened. -/
  members : List Nat
  /-- Contributions: logical core, OP and operand. -/
  given : List (Nat × Nat × Word)
  early : List Contribution
  /-- Completed current episodes not yet returned by a `BARW`: logical core, value and code. -/
  results : List (Nat × Word × Nat)
deriving DecidableEq, Repr

/-! ## Coherence (R152 to R162) -/

/-- KIND of an owner field, with the die and agent of a private owner (R152). -/
inductive Owner where
  | none
  | priv (die agent : Nat)
  | shared
deriving DecidableEq, Repr

/-- An authoritative owner field, in the LL-TLB entry of the classifying die, with the claimants that wait for a recall
(R153, R154). -/
structure Page where
  owner : Owner
  /-- The leaf that the entry holds. -/
  leaf : TlbEntry
  recalling : Bool
  /-- The recall is for an eviction of the entry, which leaves no field (R155). -/
  evicting : Bool
  /-- Waiting claimants: die × 256 + agent. -/
  waiting : List Nat
deriving DecidableEq, Repr

/-- State of a line in a private cache (R159); a count is of acknowledgements still expected. -/
inductive CState where
  | isD | imAD (got : Int) | imA (need : Int) | s | smAD (got : Int) | smA (need : Int) | e | m | miA | siA | iiA
deriving DecidableEq, Repr

/-- State of a line at its home slice (R159); a line not listed is in I. -/
inductive HState where
  | s (sharers : List Nat)
  | o (owner : Nat)
  | sd (sharers : List Nat)
  /-- The home recalls the line from every holder: acknowledgements and data still expected (R144, R157). -/
  | rc (due : Nat)
deriving DecidableEq, Repr

/-- A request that waits at the home in S_D, or at a die proxy for the line (R159, R160). -/
structure Waiter where
  line : Nat
  die : Nat
  agent : Nat
  exclusive : Bool
deriving DecidableEq, Repr

/-! ## Start-up, trust, links -/

/-- A step entry of the boot record (R355): outcome, parameter set, consecutive failures. -/
structure StepEntry where
  outcome : Nat
  params : Nat
  fails : Nat
deriving DecidableEq, Repr

/-- One copy of the boot record (R355), with whether its digest is valid; units out of service in place of the masks. -/
structure BootRecord where
  valid : Bool
  seq : Nat
  starts : Nat
  /-- The boot nonce, as the number of its draw. -/
  nonce : Nat
  steps : Vector StepEntry 14
  chansOut : List Nat
  portsOut : List Nat
  shawmsOut : List Nat
deriving DecidableEq, Repr

/-- A boot record copy never written. -/
def BootRecord.reset : BootRecord where
  valid := false
  seq := 0
  starts := 0
  nonce := 0
  steps := Vector.replicate 14 ⟨0, 0, 0⟩
  chansOut := []
  portsOut := []
  shawmsOut := []

/-- Width of a die boundary (R476). -/
inductive Width where
  | full | spared | half | isolated
deriving DecidableEq, Repr

/-- A die boundary (R476): width, and failed replays in a row of the flit being replayed. -/
structure Boundary where
  width : Width
  replays : Nat
  /-- Groups of 32 lanes that use their spare lane. -/
  spares : List Nat
deriving DecidableEq, Repr

/-- A launch record in progress (R328): context, acceptances still due, NOTIFY and VEC. -/
structure Launch where
  ctx : Nat
  due : Nat
  notify : Bool
  vec : Nat
deriving DecidableEq, Repr

/-- Registers and flags of the package as a whole (R324, R355, R359 to R364, R416, R472, R482 to R486). -/
structure Package where
  /-- `BOOTSTS`.STATE and STEP. -/
  bootState : Nat
  bootStep : Nat
  boot : Vector BootRecord 2
  /-- Number of the draw of the boot key (R354), and whether the keys are erased (R482). -/
  key : Nat
  keysErased : Bool
  /-- The PUF root and the identity private key in Quince RAM, from step 0 of a start until they are erased (R356, R482). -/
  pufRoot : Option (BitVec 512)
  identityKey : Option (List Byte)
  /-- The wrapped identity in flash is erased (R482). -/
  identityErased : Bool
  flash : Flash
  /-- The monotonic counter of the board root of trust, and its value as read at step 1 (R359, R362). -/
  boardCounter : Nat
  counterRead : Nat
  features : Nat
  acceptHigh : Word
  accepted : Nat
  committed : Bool
  attreq : Word
  rcvreq : Word
  ckptsts : Nat
  /-- The housekeeping range table, physical base and size of at most 16 ranges, and whether it is locked (R361). -/
  ranges : List (Nat × Nat)
  locked : Bool
  errnote : Word
  /-- `ERRSUM`: records of containment context, die and package. -/
  errsum : Nat × Nat × Nat
  /-- Errors reported through PCIe AER, newest last: host port, and whether it was correctable (R479, R487). -/
  aer : List (Nat × Bool)
  /-- `THERMCRIT_N` is asserted to the board (R474). -/
  thermcrit : Bool
  /-- Host notifications sent, newest last: port and MSI-X vector (R328, R419). -/
  msix : List (Nat × Nat)
  /-- Messages that have left for other packages: fabric port and message, oldest first (R37). -/
  fabricOut : List (Nat × Msg)
  /-- Creators of messages that left for other packages, whose acknowledgement has still to come (R50, R328). -/
  owed : List Creator
  hostDown : List Nat
  /-- Shawm harts, 4 × die + hart, that a shootdown has reset and put out of service (R457). -/
  shawmsReset : List Nat
  /-- Ports whose HCO accesses fall back to HNC (R480). -/
  fallback : List Nat
  /-- Fabric ports disabled (R478), and failed replays in a row by port. -/
  portsOff : List Nat
  replays : List (Nat × Nat)
  boundaries : List (Nat × Boundary)
  /-- Times of the level 1 alarms of the last second (R482). -/
  alarms : List Nat
  /-- Launch records in progress, at most one of a context. -/
  launches : List Launch
  rrLaunch : Option Nat
  /-- Contexts whose agent has work (R324). -/
  belled : List Nat
  /-- The package has stopped and waits for a restart (R472, R477). -/
  halted : Bool
deriving DecidableEq, Repr

/-- The package right after reset. -/
def Package.reset : Package where
  bootState := 0
  bootStep := 0
  boot := Vector.replicate 2 BootRecord.reset
  key := 0
  keysErased := false
  pufRoot := none
  identityKey := none
  identityErased := false
  flash := Config.flash
  boardCounter := Config.boardCounter
  counterRead := 0
  features := 0
  acceptHigh := 0
  accepted := 0
  committed := false
  attreq := 0
  rcvreq := 0
  ckptsts := 0
  ranges := []
  locked := false
  errnote := 0
  errsum := (0, 0, 0)
  aer := []
  thermcrit := false
  msix := []
  fabricOut := []
  owed := []
  hostDown := []
  shawmsReset := []
  fallback := []
  portsOff := []
  replays := []
  boundaries := []
  alarms := []
  launches := []
  rrLaunch := none
  belled := []
  halted := false

/-! ## Engines, dies -/

/-- A registered range of a command (R301): an interval of virtual addresses of a context. -/
structure Lock where
  ctx : Nat
  lo : Nat
  hi : Nat
  write : Bool
  cmd : Nat
deriving DecidableEq, Repr

/-- A parked command of a matrix engine (R453): its command, with the row progress from which it would restart, its
engine, the completion code and the faulting address, and whether a restart waits for a place in the queue (R454). -/
structure Parked where
  cmd : MxeCmd
  bassoon : Nat
  code : Nat
  va : Word
  restart : Bool
deriving DecidableEq, Repr

/-- A power domain of a die (R341 to R350). -/
structure Domain where
  /-- Level of the interval: 0 low, 1 nominal, 2 step, 3 boost (R342). -/
  level : Nat
  /-- A clock change in progress, and the level before it: until its end the domain runs at the lower of the two (R343). -/
  changing : Bool
  before : Nat
  /-- It has run above nominal in this interval, although its level has changed since (R345). -/
  ran : Bool
  throttled : Bool
  /-- `TIME` at the last change of its throttle state, plus 1 (R349). -/
  changedAt : Nat
  /-- Last sensor reading, in units of 0.25 °C. -/
  temp : Nat
  /-- Withheld for its current (R347). -/
  withheld : Bool
  /-- Its current share, which firmware sets from the configuration records (R347). -/
  share : Nat
  /-- Its clock's cycles since reset beyond those of the nominal clock, modulo 2⁶⁴ (R23, R175). -/
  offset : Word
deriving DecidableEq, Repr

def Domain.reset : Domain where
  level := 1
  changing := false
  before := 1
  ran := false
  throttled := false
  changedAt := 0
  temp := 0
  withheld := false
  share := 0
  offset := 0

/-- A Shawm core (R12, R15): the register files and the CSRs of an RV64 hart of the RVA23 profile with the hypervisor extension,
and its program counter. The spec names the profile and no register: the numbers of the CSRs and a vector length of 128 bits, the
least that the profile allows, are PRESUMED (log 77), unsafe. What its RV64 code does between the events that show it is outside
this spec: its registers are then free values. -/
structure Shawm where
  x : Vector Word 32
  f : Vector Word 32
  v : Vector (BitVec 128) 32
  /-- CSRs by number; one not listed is 0. -/
  csr : List (Nat × Word)
  pc : Word
deriving DecidableEq, Repr

/-- The registers zeroed (R354, step 3). -/
def Shawm.reset : Shawm := ⟨Vector.replicate 32 0, Vector.replicate 32 0, Vector.replicate 32 0, [], 0⟩

/-- What a syndrome record says beside its sequence number and time (R417). -/
structure LogRecord where
  cls : Nat
  containment : Nat
  cause : Nat
  action : Nat
  ctx : Option Nat
  /-- Address, and whether it is physical. -/
  addr : Option (Nat × Bool)
  location : Nat
  detail : Nat
deriving DecidableEq, Repr

structure Die where
  pool : Nat
  grant : Nat
  domains : List (Nat × Domain)
  /-- `TIME` at which the die became critical, plus 1; 0 when it is not (R474). -/
  critical : Nat
  /-- The limit of its supply current from the configuration records, and whether it is over it (R475). -/
  limit : Nat
  limited : Bool
  shawms : Vector Shawm 4
  work : List WorkRecord
  rrDispLc : List (Nat × Nat)
  rrRebal : Nat
  /-- Logical cores that have taken an entry of the rebalancer's last pass (R337). -/
  passUsed : List Nat
  /-- Range-lock table: entry to lock (R301). -/
  locks : List (Nat × Lock)
  /-- Command queues of BTE 0 to 7, head first (R300). -/
  bteQ : Vector (List BteCmd) 8
  bteCtr : Vector Nat 8
  mxeQ : Vector (List MxeCmd) 4
  /-- Capabilities whose MAC an MXE keeps, newest first (R314). -/
  macs : Vector (List Word) 4
  /-- Commands waiting for the Quince core to compute a MAC (R314). -/
  macWait : List (Nat × MxeCmd)
  park : List (Nat × Parked)
  gateway : Vector Word 4
  elbase : Word
  elhead : Nat
  eltail : Nat
  lost : Nat
  recSeq : Nat
  /-- Dirty bytes of SWM and domain-window lines in the die's L2 (R287). -/
  l2 : List Host.Cell
  /-- SWM and domain-window lines in the die's L2 as they were when it took them. -/
  l2c : List (Nat × List Byte)
  /-- Poisoned ECC words of its dirty bytes and copies (R444). -/
  l2p : List Nat
  /-- `TQUOTA` and DROPCNT by context (R351, R414). -/
  tquota : List (Nat × Word)
  quotaHeld : List Nat
  /-- Recent corrected records, which identical ones merge into: record, 1 ms window, address of its bytes (R417). -/
  recent : List (LogRecord × Nat × Nat)
  dropcnt : List (Nat × Nat)
deriving DecidableEq, Repr

def Die.reset : Die where
  pool := 64
  grant := 35
  domains := []
  critical := 0
  limit := 0
  limited := false
  shawms := Vector.replicate 4 Shawm.reset
  work := []
  rrDispLc := []
  rrRebal := 0
  passUsed := []
  locks := []
  bteQ := Vector.replicate 8 []
  bteCtr := Vector.replicate 8 0
  mxeQ := Vector.replicate 4 []
  macs := Vector.replicate 4 []
  macWait := []
  park := []
  gateway := Vector.replicate 4 0
  elbase := 0
  elhead := 0
  eltail := 0
  lost := 0
  recSeq := 0
  l2 := []
  l2c := []
  l2p := []
  tquota := []
  quotaHeld := []
  recent := []
  dropcnt := []

/-! ## The package -/

structure State where
  /-- Key of the slot whose words execute, its state, and whether it holds an issue grant. The model's own. -/
  hotId : Nat
  hot : Slot
  issuing : Bool
  /-- Slots of its core still to be examined for this issue position; whether a second position of a Bassoon's cycle
  follows; and in that position the slot that took the first (R335, R336). The model's own. -/
  scan : Nat
  second : Bool
  first : Option Nat
  /-- Messages in flight and inputs from outside, oldest first: the next event to take place. The model's own. -/
  agenda : List Event
  /-- What network interfaces hold after a refusal, to be sent again after its back-off (R300, R463). -/
  backoff : List Resend
  /-- Counter of the free values used so far. The model's own. -/
  freeCtr : Nat
  /-- The last event took place ahead of those on their way; and the turn of the units that act of themselves (R62). The
  model's own. -/
  spun : Bool
  duty : Nat
  /-- Counter of the ids given to updates, registrations and waits so far. The model's own. -/
  ids : Nat
  slots : List (Nat × Slot)
  /-- Cores, by die × 256 + physical core number. TLBs that belong to no core (R118) are kept here too, as the `tlb` of a
  number that no core has: 160 to 171 the engines, 192 to 223 the quads, 224 the LL-TLB of the die. -/
  cores : List (Nat × Core)
  shiptgt : List (Nat × Word)
  dies : List (Nat × Die)
  ctxs : List (Nat × Context)
  mem : List Host.Cell
  /-- Poisoned ECC words at their homes, as multiples of 8 (R444). -/
  poison : List Nat
  acc : List (Nat × AccState)
  /-- The MCT byte under which caches and home slices hold a 2 MiB granule: that of its last class sweep, or as it was first
  met (R111). -/
  mct : List (Nat × Nat)
  time : Word
  /-- Hundredths of a tick of `TIME` that have passed since it last advanced. The model's own. -/
  fine : Nat
  mctbase : Word
  /-- Package number in the domain, 0 to 63 (R176). -/
  pkg : Nat
  barriers : List Barrier
  /-- Authoritative owner fields, by address of the leaf PTE (R153). -/
  pages : List (Nat × Page)
  /-- Home states by line × 32 + die: at its home, and at the die proxies of other dies (R160). Private-cache states by
  line × 8192 + die × 256 + agent, where agent 255 is the die's proxy. Requests that wait at a home or proxy (R159). -/
  homes : List (Nat × HState)
  caches : List (Nat × CState)
  waiters : List Waiter
  /-- Forwards that a cache stalls, in order of arrival (R158). -/
  forwards : List Event
  /-- HCO lines that a port's agent has from the host, and whether it owns them (R162). -/
  hco : List (Nat × Bool)
  /-- Atomics that wait at the homes of their lines, oldest first, and whether they are of another package (R62, R144). -/
  atHome : List (AtomMsg × Bool)
  package : Package
deriving DecidableEq, Repr

/-- The machine right after reset: nothing runs, memory lists nothing, and the start is about to take place (R354). The package
is number 0 of its domain, where no rule assigns `SLOTID.PKG` (R176). DESIGN CHOICE (log 66), unsafe. -/
def State.reset : State where
  hotId := 0
  hot := Slot.reset
  issuing := false
  scan := 0
  second := false
  first := none
  agenda := [.startUp Config.startInput]
  backoff := []
  freeCtr := 0
  spun := false
  duty := 0
  ids := 0
  slots := []
  cores := []
  shiptgt := []
  dies := []
  ctxs := []
  mem := []
  poison := []
  acc := []
  mct := []
  time := 0
  fine := 0
  mctbase := 0
  pkg := 0
  barriers := []
  pages := []
  homes := []
  caches := []
  waiters := []
  forwards := []
  hco := []
  atHome := []
  package := Package.reset

end Sys2Proof.Machine
end

