-- ==== Sys2Proof/Machine/Ops.lean ====
section
/-!
DEFINITION. The named operations over registers, slots, cores, contexts and memory bytes; retiring, stalling and
taking an exception, and the return from one (R167, R408, R409).
-/
namespace Sys2Proof.Machine

/-- What a meaning answers. -/
abbrev Out := Host.Outcome State Fault Refusal

/-! ## Who executes (R12, R32, R176) -/

/-- Key of a core: die × 256 + physical core number. -/
def coreKey (die pcore : Nat) : Nat := die * 256 + pcore
/-- Key of a slot: core key × 4 + slot. -/
def slotKey (core slot : Nat) : Nat := core * 4 + slot
def dieOfCore (core : Nat) : Nat := core / 256
def pcoreOf (core : Nat) : Nat := core % 256
def coreOfSlot (slot : Nat) : Nat := slot / 4
def dieOfSlot (slot : Nat) : Nat := slot / 1024
/-- Physical core numbers 128 to 131 are Bassoons (R32). -/
def isBassoonCore (core : Nat) : Bool := 128 ≤ pcoreOf core
def State.core (s : State) : Nat := coreOfSlot s.hotId
def State.die (s : State) : Nat := dieOfSlot s.hotId
/-- The executing core is a Piccolo. -/
def State.piccolo (s : State) : Bool := !isBassoonCore s.core

/-! ## Units -/

/-- The state of a slot, the executing one included. -/
def State.getSlot (s : State) (k : Nat) : Slot := if k = s.hotId then s.hot else tabGet Slot.reset s.slots k

/-- Replaces the state of a slot. -/
def State.setSlot (s : State) (k : Nat) (x : Slot) : State :=
  if k = s.hotId then { s with hot := x } else { s with slots := tabSet s.slots k x }

/-- Makes slot `k` the executing slot; the former one keeps its state in the table. -/
def State.focus (s : State) (k : Nat) : State :=
  if k = s.hotId then s
  else { s with hot := tabGet Slot.reset s.slots k, slots := tabSet s.slots s.hotId s.hot, hotId := k }

def State.getCore (s : State) (k : Nat) : Core := tabGet Core.reset s.cores k
def State.setCore (s : State) (k : Nat) (c : Core) : State := { s with cores := tabSet s.cores k c }
def State.getDie (s : State) (d : Nat) : Die := tabGet Die.reset s.dies d
def State.setDie (s : State) (d : Nat) (x : Die) : State := { s with dies := tabSet s.dies d x }
def State.getCtx (s : State) (c : Nat) : Context := tabGet Context.reset s.ctxs c
def State.setCtx (s : State) (c : Nat) (x : Context) : State := { s with ctxs := tabSet s.ctxs c x }

/-- Sends a message or an input on its way: it takes place after everything already on its way (R20, R48). -/
def State.post (s : State) (i : Event) : State := { s with agenda := s.agenda ++ [i] }

/-- A fresh free value. -/
def State.bump (s : State) : State := { s with freeCtr := s.freeCtr + 1 }

/-! ## Registers (R172) -/

/-- `g[r]`: `g0` reads as zero. -/
def Slot.getG (x : Slot) (r : GReg) : Word := if r = 0 then 0 else x.g[r.val]
/-- A write to `g0` is discarded. -/
def Slot.setG (x : Slot) (r : GReg) (w : Word) : Slot := if r = 0 then x else { x with g := x.g.set r.val w }
def Slot.getV (x : Slot) (r : VReg) : VWord := x.v[r.val]
def Slot.setV (x : Slot) (r : VReg) (w : VWord) : Slot := { x with v := x.v.set r.val w }
/-- `m0` reads as all ones. -/
def Slot.getM (x : Slot) (r : MReg) : Word := if r = 0 then onesWord else x.m[r.val]
/-- A write to `m0` is discarded. -/
def Slot.setM (x : Slot) (r : MReg) (w : Word) : Slot := if r = 0 then x else { x with m := x.m.set r.val w }
def Slot.getQ (x : Slot) (r : QReg) : List Word := x.q[r.val]
def Slot.setQ (x : Slot) (r : QReg) (l : List Word) : Slot := { x with q := x.q.set r.val l }

/-- Queue depth (R173). -/
def queueDepth : Nat := 8

/-! ## The order of shipped words (R233 to R236) -/

/-- The order of a shipped word that has not returned cleanly. A clean reply that waits for a full queue has returned
(R234, R249). -/
def ShipEntry.outstanding (e : ShipEntry) : Option Nat :=
  match e.reply with
  | some (.clean ..) => none
  | _ => some e.order

/-- The orders of the shipped words still outstanding. -/
def Slot.shipOrders (x : Slot) : List Nat := x.window.toList.filterMap fun e => e.bind ShipEntry.outstanding

/-- Whether a shipped word of the slot is outstanding (R234). -/
def Slot.shipping (x : Slot) : Bool := !x.shipOrders.isEmpty

/-- Whether stores of the slot are held: behind a shipped word, or behind older ones that still wait for their lines (R234,
R236). -/
def Slot.holding (x : Slot) : Bool := x.shipping || !x.held.isEmpty

/-- Whether a word stands before every shipped word still outstanding. -/
def Slot.beforeShips (x : Slot) (order : Nat) : Bool := x.shipOrders.all fun o => decide (order < o)

/-- The oldest of them. -/
def Slot.oldestShip (x : Slot) : Option Nat := x.shipOrders.find? fun o => x.shipOrders.all fun p => decide (o ≤ p)

/-- The reductions of a slot not yet applied, by id (R122, R143). -/
def Slot.reductions (x : Slot) : List Nat := x.updates.map (·.1) ++ x.matrix

/-- The history with an entry of the word being executed, in program order: a word may complete after younger ones. -/
def Slot.logged (x : Slot) (u : Undo) : List (Nat × Undo) :=
  x.history.takeWhile (fun h => decide (h.1 ≤ x.order)) ++ (x.order, u) :: x.history.dropWhile (fun h => decide (h.1 ≤ x.order))

/-- Logs a value about to be overwritten while an older shipped word is outstanding (R234, R235). -/
def Slot.log (x : Slot) (u : Undo) : Slot := if x.beforeShips x.order then x else { x with history := x.logged u }

/-- Writes a `g` register of the executing slot, logging its prior value. -/
def Slot.writeG (x : Slot) (r : GReg) (w : Word) : Slot := if r = 0 then x else (x.log (.g r (x.getG r))).setG r w
def Slot.writeV (x : Slot) (r : VReg) (w : VWord) : Slot := (x.log (.v r (x.getV r))).setV r w
def Slot.writeM (x : Slot) (r : MReg) (w : Word) : Slot := if r = 0 then x else (x.log (.m r (x.getM r))).setM r w
/-- `FCSR` as it stood before the word being executed, in program order: what the next younger word that changed it logged. -/
def Slot.fcsrBefore (x : Slot) : Word :=
  (x.history.findSome? fun h => match h.2 with | .fcsr w => if x.order < h.1 then some w else none | _ => none).getD x.fcsr

/-- The values of `FCSR` that younger words logged hold the flags of the word being executed too (R236, R237). -/
def accrueLogged (order flags : Nat) (h : Nat × Undo) : Nat × Undo :=
  match h.2 with
  | .fcsr w => if order < h.1 then (h.1, .fcsr (w ||| word flags)) else h
  | _ => h

/-- Accrues flags into `FCSR`[4:0]: an operation sets flags and never clears them (R67). -/
def Slot.accrue (x : Slot) (flags : Nat) : Slot :=
  if flags = 0 then x
  else
    let y := x.log (.fcsr x.fcsrBefore)
    { y with fcsr := x.fcsr ||| word flags, history := y.history.map (accrueLogged x.order flags) }

def State.g (s : State) (r : GReg) : Word := s.hot.getG r
def State.writeG (s : State) (r : GReg) (w : Word) : State := { s with hot := s.hot.writeG r w }
def State.v (s : State) (r : VReg) : VWord := s.hot.getV r
def State.writeV (s : State) (r : VReg) (w : VWord) : State := { s with hot := s.hot.writeV r w }
def State.m (s : State) (r : MReg) : Word := s.hot.getM r
def State.writeM (s : State) (r : MReg) (w : Word) : State := { s with hot := s.hot.writeM r w }
def State.accrue (s : State) (flags : Nat) : State := { s with hot := s.hot.accrue flags }

/-- The even register of a pair and the one after it (R172). -/
def GPair.lo (p : GPair) : GReg := ⟨2 * p.val, by omega⟩
def GPair.hi (p : GPair) : GReg := ⟨2 * p.val + 1, by omega⟩

/-- The 128-bit value of a pair: the even register holds the low 64 bits (R172). -/
def State.pair (s : State) (p : GPair) : Nat := (s.g (GPair.lo p)).toNat + (s.g (GPair.hi p)).toNat * 2 ^ 64

/-- Writes a 128-bit value to a pair. -/
def State.writePair (s : State) (p : GPair) (x : Nat) : State :=
  (s.writeG (GPair.lo p) (word x)).writeG (GPair.hi p) (word (x / 2 ^ 64))

/-- The word being executed as `TRAPVAL` shows it: zext(word, 32), with bit 30 as fetched (R424). -/
def State.wordVal (s : State) (i : Instr) : Word := word ((encodeWord s.hot.lone i).getD 0)

/-! ## Ending a word -/

/-- The word retires and execution continues at `target`. -/
def State.retireTo (s : State) (target : Word) : State :=
  { s with hot := { s.hot with pc := target, retired := s.hot.retired + 1, did := .done } }

/-- The word retires and execution continues at the following bundle. -/
def State.retire (s : State) : State := s.retireTo s.hot.nxt

/-- The word waits: nothing changes but the record that it stalled. -/
def State.stall (s : State) : State := { s with hot := { s.hot with did := .stalled } }

/-! ## Exceptions (R407, R408) -/

/-- Cause codes of R407. -/
inductive Cause where
  | illegal | pairing | privilege | misaligned | fetchPage | loadPage | storePage | access | bounds | rangeLock | spd
  | fp | repMisuse | queueStall | capability | engine | poison | cls | message | ship | break | ecall | timeout
deriving DecidableEq, Repr

def Cause.code : Cause → Nat
  | .illegal => 0x01 | .pairing => 0x02 | .privilege => 0x03 | .misaligned => 0x04 | .fetchPage => 0x05
  | .loadPage => 0x06 | .storePage => 0x07 | .access => 0x08 | .bounds => 0x09 | .rangeLock => 0x0A | .spd => 0x0B
  | .fp => 0x0C | .repMisuse => 0x0D | .queueStall => 0x0E | .capability => 0x0F | .engine => 0x10 | .poison => 0x11
  | .cls => 0x12 | .message => 0x13 | .ship => 0x14 | .break => 0x15 | .ecall => 0x16 | .timeout => 0x17

/-- `TRAPCAUSE` fields (R408). -/
def trapHnd (x : Slot) : Bool := x.trapcause.bit 9

/-- Causes that can take path 1 (R408): FP, QUEUE_STALL, CAPABILITY, BREAK and ECALL. -/
def userTrapCause (c : Nat) : Bool := c == 0x0C || c == 0x0E || c == 0x0F || c == 0x15 || c == 0x16

/-- The repetition buffer after a trap: an incomplete capture ends (R270). -/
def Slot.endCapture (x : Slot) : Slot :=
  match x.rep with
  | some r => if r.todo = 0 then x else { x with rep := none }
  | none => x

/-- Whether a queue has room for what a waiting word took from it. -/
def Slot.roomFor (x : Slot) (t : QReg × Word) : Bool := decide ((x.getQ t.1).length < queueDepth)

/-- An operand that a waiting word took goes back to its queue: the word has no effect (R167, R422), and queue entries are
kept (R466). Where the queue has filled since, the slot keeps it as the oldest entry of that queue, which the next word that reads
the queue takes: R191 returns it to no queue. DESIGN CHOICE (log 63), unsafe. -/
def Slot.giveBack (x : Slot) : Slot :=
  { x with
    q := Vector.ofFn fun (r : Fin 4) => ((x.taken.filter fun t => t.1 == r && x.roomFor t).map (·.2)) ++ x.getQ r
    taken := x.taken.filter fun t => !x.roomFor t }

/-- Path 1 is admitted (R408). -/
def Slot.admitsTrap (x : Slot) (cause : Nat) : Bool := x.trapvec != 0 && !trapHnd x && userTrapCause cause

/-- Entry at `TRAPVEC` (R408): no register changes but the trap CSRs. -/
def Slot.enterTrap (x : Slot) (e : Exc) : Slot :=
  { x with
    trappc := e.pc
    trapval := e.value
    trapcause := word (e.detail * 2 ^ 16 + 2 ^ 9 + (if e.remote then 2 ^ 8 else 0) + e.cause)
    pc := x.trapvec
    aOnly := false
    did := .trapped }

/-- Delivery of an exception at slot `k` (R408): the user trap, or the fault path, which the event FAULT_PATH
completes when earlier work has drained (R410). -/
def State.deliver (s : State) (k : Nat) (e : Exc) : State :=
  let x := (s.getSlot k).endCapture.giveBack
  if x.admitsTrap e.cause then s.setSlot k (x.enterTrap e)
  else (s.setSlot k { x with phase := .faulting e, did := .trapped }).post (.faultPath k)

/-- A word of the executing slot raises an exception at the address to report (R167): taken at once, or held behind
an older shipped word (R234). -/
def State.raiseAt (s : State) (pc : Word) (c : Cause) (detail : Nat) (value : Word) : State :=
  let e : Exc := ⟨c.code, detail, false, value, pc, 0⟩
  if s.hot.shipping then { s with hot := { s.hot with heldTrap := some e, did := .trapped } }
  else s.deliver s.hotId e

/-- `trap(cause, value)` at the word being executed. -/
def State.raise (s : State) (c : Cause) (detail : Nat) (value : Word) : State := s.raiseAt s.hot.tpc c detail value

/-- `TRET` (R209, R409): HND clears and execution continues at `TRAPPC` with bits [1:0] taken as zero; an A word
there runs alone (R167). -/
def State.trapReturn (s : State) : State :=
  let x := s.hot
  { s with hot := { x with
      trapcause := x.trapcause &&& ~~~(0x200#64)
      pc := x.trappc &&& ~~~(3#64)
      aOnly := true
      retired := x.retired + 1
      did := .done } }

/-! ## Messages (R38) -/

/-- A meta word. -/
def metaOf (type plen prio ctx src dst : Nat) : Word :=
  word (dst % 2 ^ 16 + src % 2 ^ 16 * 2 ^ 16 + ctx % 2 ^ 8 * 2 ^ 32 + type % 2 ^ 4 * 2 ^ 40 + plen % 2 ^ 4 * 2 ^ 44 +
    prio % 2 ^ 2 * 2 ^ 48)

/-! ## Memory bytes -/

/-- The byte at a physical address; a byte nothing has written reads as 0 (R354; log 4). -/
def memGet (m : List Host.Cell) (a : Nat) : Byte := tabGet 0#8 m a

/-- Writes a byte; writing what an unlisted byte reads as removes the entry. -/
def memSet (m : List Host.Cell) (a : Nat) (b : Byte) : List Host.Cell :=
  if b = 0#8 then tabErase m a else tabSet m a b

/-- The canonical form of memory: addresses strictly rising, no entry equal to the unlisted value. -/
def memWf : List Host.Cell → Bool
  | [] => true
  | [(_, b)] => b != 0#8
  | (a, b) :: (a', b') :: t => b != 0#8 && decide (a < a') && memWf ((a', b') :: t)

/-- Reads `n` bytes, lowest address first. -/
def memRead (m : List Host.Cell) (a : Nat) : Nat → List Byte
  | 0 => []
  | n + 1 => memGet m a :: memRead m (a + 1) n

/-- Writes bytes, lowest address first. -/
def memWrite (m : List Host.Cell) (a : Nat) : List Byte → List Host.Cell
  | [] => m
  | b :: t => memWrite (memSet m a b) (a + 1) t

/-- Writes bytes at listed physical addresses. -/
def memScatter (m : List Host.Cell) : List Nat → List Byte → List Host.Cell
  | a :: as, b :: bs => memScatter (memSet m a b) as bs
  | _, _ => m

/-- Little-endian value of bytes (R5). -/
def leNat : List Byte → Nat
  | [] => 0
  | b :: t => b.toNat + 256 * leNat t

/-- The `n` low bytes of a number, little-endian (R5). -/
def leBytes (x : Nat) : Nat → List Byte
  | 0 => []
  | n + 1 => BitVec.ofNat 8 x :: leBytes (x / 256) n

def State.readMem (s : State) (a n : Nat) : Nat := leNat (memRead s.mem a n)
def State.writeMem (s : State) (a n x : Nat) : State := { s with mem := memWrite s.mem a (leBytes x n) }

/-- Whether the passes of a complete capture remain to run (R267). -/
def Slot.passesLeft (x : Slot) : Bool := match x.rep with | some r => r.todo == 0 && decide (r.pass < r.k) | .none => false

end Sys2Proof.Machine
end

