-- ==== Sys2Proof/Machine/Mesh.lean ====
section
/-!
DEFINITION. Where things stand: the stops of a die's mesh and the units at them (R12 to R14), the die grid (R9, R10), the
route on a mesh and the input port by which traffic reaches a stop (R45, R493), and the L2 slice of a line (R107).
-/
namespace Sys2Proof.Machine

/-! ## Stops and units (R13) -/

/-- Quad-row and quad-column of a stop; the stop of quad `q` is `q`, and L2 slice `q` is attached to it. -/
def quadRow (stop : Nat) : Nat := stop / 8
def quadCol (stop : Nat) : Nat := stop % 8

def bassoonStop (b : Nat) : Nat := [0, 7, 24, 31].getD b 0
def shawmStop (i : Nat) : Nat := [11, 12, 19, 20].getD i 0
/-- The dispenser, the LL-TLB and the page walkers. -/
def dispenserStop : Nat := 19
def bteStop (b : Nat) : Nat := [1, 2, 5, 6, 25, 26, 29, 30].getD b 0
def quinceStop : Nat := 12
def hostStop : Nat := 16

/-- The stop of a core: a Piccolo's is its quad's. -/
def coreStop (pcore : Nat) : Nat := if pcore < 128 then pcore / 4 else bassoonStop (pcore - 128)

/-- The stop of an engine: 0 to 7 the BTEs, 8 to 11 the MXEs, each at its Bassoon. -/
def engineStop (engine : Nat) : Nat := if engine < 8 then bteStop engine else bassoonStop (engine - 8)

/-! ## Sides and edge quads (R9, R14) -/

/-- The edge quad of a side, whose stop traffic across that side's boundary passes: north, west, east, south. -/
def edgeQuad (side : Fin 4) : Nat := [3, 8, 23, 28].getD side.val 0

/-- Whether a die has a neighbour across a side; without one its edge quad receives no gateway block. -/
def hasNeighbour (die : Nat) (side : Fin 4) : Bool :=
  match side.val with
  | 0 => decide (6 ≤ die)
  | 1 => die % 6 != 0
  | 2 => die % 6 != 5
  | _ => decide (die < 18)

/-- The side of a die across which a neighbour's traffic arrives. -/
def sideFrom (prev die : Nat) : Fin 4 :=
  if prev + 6 = die then 0 else if prev + 1 = die then 1 else if prev = die + 1 then 2 else 3

/-! ## The route on a mesh (R493) -/

/-- An input port of a stop, in the order of R45. -/
inductive Port where
  | north | east | south | west | local
deriving DecidableEq, Repr

def Port.rank : Port → Nat | .north => 0 | .east => 1 | .south => 2 | .west => 3 | .local => 4

/-- The stops from `a` to `b` after `a`: first along the row of `a`, then along the column of `b`. -/
def meshRoute (a b : Nat) : List Nat :=
  let row := if quadCol a ≤ quadCol b then (List.range (quadCol b - quadCol a)).map fun i => a + (i + 1)
    else (List.range (quadCol a - quadCol b)).map fun i => a - (i + 1)
  let c := quadRow a * 8 + quadCol b
  let col := if quadRow a ≤ quadRow b then (List.range (quadRow b - quadRow a)).map fun i => c + 8 * (i + 1)
    else (List.range (quadRow a - quadRow b)).map fun i => c - 8 * (i + 1)
  row ++ col

/-- The port by which traffic from stop `a` reaches stop `b`: traffic that travels south enters by the north port. -/
def inputPort (a b : Nat) : Port :=
  if quadRow a < quadRow b then .north
  else if quadRow b < quadRow a then .south
  else if quadCol a < quadCol b then .west
  else if quadCol b < quadCol a then .east
  else .local

/-! ## L2 slices (R107) -/

/-- The slice of a die's L2 in which a line lies. -/
def sliceOf (pa : Nat) : Nat := (pa / 128 ^^^ pa / 4096) % 32

/-- The set of that slice. -/
def sliceSet (pa : Nat) : Nat := pa / 2 ^ 17 % 1024

end Sys2Proof.Machine
end

