-- ==== Sys2Proof/Machine/Map.lean ====
section
/-!
DEFINITION. The physical map (R94 to R96, R107), memory classes as each die's LL-TLB records them (R108 to R110, R119), the
features that open a region, and Sv57 walks (R97, R98, R438).
-/
namespace Sys2Proof.Machine

/-! ## The physical map (R94, R95, R96) -/

def nearTop : Nat := 24 * 2 ^ 36
def farBase : Nat := 0x100000000000
def farTop : Nat := 0x160000000000
def spadBase : Nat := 0x200000000000
def devBase : Nat := 0x300000000000
def hostBase : Nat := 0x400000000000
def hostTop : Nat := 0x800000000000
def domBase : Nat := 0x8000000000000
def domTop : Nat := domBase + 64 * 2 ^ 43
/-- Bytes of another package's scratchpads, reached through the core table, are kept above the 52-bit map. -/
def remoteBase : Nat := 2 ^ 56

/-- The part of the map in which a physical address lies. -/
inductive Region where
  | near (die : Nat) | far | spad (window raw : Nat) | dev (die off : Nat) | host (port : Nat)
  | domain (pkg off : Nat) | remote | unmapped | window7
deriving DecidableEq, Repr

/-- Scale of a scratchpad window (R102). -/
def windowScale (w : Nat) : Nat :=
  match w with | 0 => 1 | 1 => 4 | 2 => 4 | 3 => 2 | 4 => 4 | 5 => 4 | 6 => 2 | _ => 1

/-- Whether a raw scratchpad offset names bytes of a quad or a Bassoon (R100). -/
def spadPopulated (r : Nat) : Bool :=
  let d := r / 0x40000000
  let o := r % 0x40000000
  decide (d < 24) && (decide (o < 32 * 0x100000) || (decide (0x20000000 ≤ o) && decide (o < 0x20000000 + 4 * 0x200000)))

/-- The region of a physical address. -/
def region (pkg pa : Nat) : Region :=
  if pa < nearTop then (if pa % 2 ^ 36 < 0xC00000000 then .near (pa / 2 ^ 36) else .unmapped)
  else if farBase ≤ pa ∧ pa < farTop then .far
  else if spadBase ≤ pa ∧ pa < spadBase + 8 * 2 ^ 40 then
    let w := (pa - spadBase) / 2 ^ 40
    let r := (pa - spadBase) % 2 ^ 40 / windowScale w
    if w = 7 then .window7 else if spadPopulated r then .spad w (spadBase + r) else .unmapped
  else if devBase ≤ pa ∧ pa < devBase + 24 * 2 ^ 32 then .dev ((pa - devBase) / 2 ^ 32) ((pa - devBase) % 2 ^ 32)
  else if hostBase ≤ pa ∧ pa < hostTop then .host (if pa < 0x600000000000 then 0 else 1)
  else if domBase ≤ pa ∧ pa < domTop then
    let p := (pa - domBase) / 2 ^ 43
    let o := (pa - domBase) % 2 ^ 43
    if p = pkg then .unmapped
    else if o < 2 ^ 41 then (if o < nearTop ∧ o % 2 ^ 36 < 0xC00000000 then .domain p o else .unmapped)
    else .domain p (farBase + (o - 2 ^ 41))
  else if remoteBase ≤ pa then .remote
  else .unmapped

/-- Perimeter die of a rank (R10, R21). -/
def perimeterDie (rank : Nat) : Nat := [0, 1, 2, 3, 4, 5, 6, 11, 12, 17, 18, 19, 20, 21, 22, 23].getD rank 0

/-- The home die of a near or far address (R95, R107). -/
def homeDie (pa : Nat) : Nat :=
  if pa < nearTop then pa / 2 ^ 36
  else
    let g := (pa - farBase) / 4096
    perimeterDie ((g % 16) ^^^ (g / 16 % 4))

/-! ## Memory classes (R108 to R110) -/

/-- Index of the MCT byte of an address (R109). -/
def mctIndex (pkg pa : Nat) : Option Nat :=
  match region pkg pa with
  | .near _ => some (pa / 2 ^ 21)
  | .far => some (786432 + (pa - farBase) / 2 ^ 21)
  | .host _ => some (3932160 + (pa - hostBase) / 2 ^ 21)
  | _ => none

/-- The key of the LL-TLB of a die. -/
def llTlb (die : Nat) : Nat := coreKey die 224

/-- The TLBs that a core or engine looks in, nearest first: its own, its quad's, and its die's LL-TLB; a Bassoon and an
engine belong to no quad, and a Shawm's misses go to the LL-TLB (R118). -/
def tlbLevels (core : Nat) : List Nat :=
  let own := coreKey (dieOfCore core) 0
  if pcoreOf core < 128 then [core, own + 192 + pcoreOf core / 4, own + 224] else [core, own + 224]

/-- Whether an address lies in the page of a leaf. -/
def leafHolds (e : TlbEntry) (pa : Nat) : Bool := decide (e.pa ≤ pa) && decide (pa < e.pa + 2 ^ e.size)

/-- The MCT byte of an address in memory. -/
def State.mctEntry (s : State) (idx : Nat) : Nat := (memGet s.mem (s.mctbase.toNat / 4096 * 4096 % 2 ^ 52 + idx)).toNat

/-- The MCT byte of a granule that a TLB's entries hold. -/
def classCopy (l : List TlbEntry) (granule : Nat) : Option Nat :=
  l.findSome? fun e => (e.classes.find? fun c => c.1 == granule).map (·.2)

/-- The MCT byte of an address as TLBs give it, the nearest first: the copy in an entry, else memory (R110, R119). -/
def State.mctByte (s : State) (tlbs : List Nat) (pa idx : Nat) : Nat :=
  (tlbs.findSome? fun k => classCopy (s.getCore k).tlb (pa / 2 ^ 21)).getD (s.mctEntry idx)

/-- Least power of two at or above `n + 1` (R113), for `n ≤ 16`. -/
def accParts (n : Nat) : Nat :=
  if n = 0 then 1 else if n = 1 then 2 else if n ≤ 3 then 4 else if n ≤ 7 then 8 else if n ≤ 15 then 16 else 32

/-! ## Features and units in service (R355, R364, R469, R478 to R481) -/

/-- The current boot record: the valid copy of higher sequence number (R355). -/
def Package.record (p : Package) : BootRecord :=
  let a := p.boot[0]
  let b := p.boot[1]
  if b.valid && (!a.valid || decide (a.seq < b.seq)) then b else a

/-- Whether a bit of `FEATURES` has been accepted (R363, R364). -/
def Package.accepts (p : Package) (bit : Nat) : Bool := p.accepted / 2 ^ bit % 2 == 1

/-- Whether fabric port `j` can carry traffic: in service, not disabled, accepted. -/
def Package.portOk (p : Package) (j : Nat) : Bool :=
  p.accepts 12 && !p.record.portsOut.contains j && !p.portsOff.contains j

/-- The LPDDR-6 channel of a far address, as numbered in the boot record (R95, R355). -/
def farChannel (pa : Nat) : Nat :=
  let g := (pa - farBase) / 4096
  12 * ((g % 16) ^^^ (g / 16 % 4)) + g / 16 % 12

/-- The memory reserved for the checkpoint marker (R473). -/
def reservedBase : Nat := 0xBFFE00000

/-- Whether an address that R94 maps is absent or closed on this package (R440 detail 1). -/
def State.closed (s : State) (pa : Nat) : Bool :=
  match region s.pkg pa with
  | .near _ => decide (reservedBase ≤ pa) && decide (pa < 0xC00000000)
  | .far => s.package.record.chansOut.contains (farChannel pa)
  | .host j => s.package.hostDown.contains j || (j == 1 && !s.package.accepts 11)
  | .domain _ _ => !s.package.accepts 12
  | _ => false

/-- The kind of an MCT byte, or ACCESS detail 2 (R109, R110, R469); `host` names the port of a host window. -/
def Package.kindOfByte (p : Package) (host : Option Nat) (b : Nat) : Except Nat MemKind :=
  let c := b % 8
  let n := b / 8
  if c ≠ 2 ∧ n ≠ 0 then .error 2
  else match host, c with
    | none, 0 => .ok .coh
    | none, 1 => .ok .swm
    | none, 2 => if 16 < n then .error 2 else .ok (.acc n)
    | _, 3 => .ok .dev
    | some j, 4 => if !p.accepts 9 then .error 2 else if p.fallback.contains j then .ok .hnc else .ok .hco
    | some _, 5 => .ok .hnc
    | _, _ => .error 2

/-- The host port of an address in a host window. -/
def hostPort (pkg pa : Nat) : Option Nat := match region pkg pa with | .host j => some j | _ => none

/-- The window of raw scratchpad in which a physical address lies, if it is an expanded one (R102). -/
def windowAt (pa : Nat) : Nat := if spadBase ≤ pa ∧ pa < spadBase + 8 * 2 ^ 40 then (pa - spadBase) / 2 ^ 40 else 0

/-- The kind of memory at a physical address by the class copies of TLBs, or the detail of ACCESS (R440): 1 unmapped, 2
class, 4 window 7. -/
def State.classifyBy (s : State) (tlbs : List Nat) (pa : Nat) : Except Nat Phys :=
  if s.closed pa then .error 1
  else
    match region s.pkg pa with
    | .spad w r => .ok ⟨.spad w, r⟩
    | .dev _ _ => .ok ⟨.dev, pa⟩
    | .domain _ _ => .ok ⟨.domain, pa⟩
    | .remote => .ok ⟨.spad 0, pa⟩
    | .window7 => .error 4
    | .unmapped => .error 1
    | .near _ | .far | .host _ =>
      if s.mctbase.bit 0 then
        match mctIndex s.pkg pa with
        | none => .error 1
        | some i =>
          match s.package.kindOfByte (hostPort s.pkg pa) (s.mctByte tlbs pa i) with
          | .error d => .error d
          | .ok (.acc n) => if 2 ^ 21 / accParts n ≤ pa % 2 ^ 21 then .error 1 else .ok ⟨.acc n, pa⟩
          | .ok k => .ok ⟨k, pa⟩
      else .ok ⟨if hostBase ≤ pa then .hnc else .coh, pa⟩

/-- The kind of memory at a physical address as a unit of a die finds it, by the die's LL-TLB. -/
def State.classify (s : State) (die pa : Nat) : Except Nat Phys := s.classifyBy [llTlb die] pa

/-- An entry that maps an address holds its granule's MCT byte. -/
def noteLeaf (e : TlbEntry) (pa b : Nat) : TlbEntry :=
  if leafHolds e pa && !(e.classes.any fun c => c.1 == pa / 2 ^ 21) then { e with classes := (pa / 2 ^ 21, b) :: e.classes } else e

/-- A granule is met for the first time since its last class sweep: its lines are held under this MCT byte (R111). -/
def State.meetClass (s : State) (pa b : Nat) : State :=
  if tabHas s.mct (pa / 2 ^ 21) then s else { s with mct := tabSet s.mct (pa / 2 ^ 21) b }

/-- The entries of TLBs that map an address record its granule's class (R110, R119). -/
def State.noteClass (s : State) (tlbs : List Nat) (pa : Nat) : State :=
  if s.mctbase.bit 0 then
    match mctIndex s.pkg pa with
    | some i =>
      let b := s.mctByte tlbs pa i
      (tlbs.foldl (fun s k =>
        let c := s.getCore k
        s.setCore k { c with tlb := c.tlb.map fun e => noteLeaf e pa b }) s).meetClass pa b
    | none => s
  else s

/-! ## Sv57 (R97, R98) -/

/-- A leaf found by a walk. -/
structure Leaf where
  pa : Nat
  size : Nat
  r : Bool
  w : Bool
  x : Bool
  u : Bool
  g : Bool
  pteAddr : Nat
  pte : Nat
deriving DecidableEq, Repr

/-- Bit `i` of a number. -/
def nbit (x i : Nat) : Bool := x / 2 ^ i % 2 == 1

/-- Whether a physical range meets a scratchpad window (R101). -/
def meetsSpad (pa size : Nat) : Bool := decide (pa < spadBase + 8 * 2 ^ 40) && decide (spadBase < pa + size)

/-- A leaf PTE at a level, or the detail of its fault: 4 before 5 (R438). -/
def leafOf (level pteAddr pte : Nat) : Except Nat Leaf :=
  let ppn := pte / 2 ^ 10 % 2 ^ 44
  let napot := nbit pte 63
  if napot && (level != 0 || ppn % 16 != 8) then .error 4
  else if level ≠ 0 ∧ ppn % 2 ^ (9 * level) ≠ 0 then .error 4
  else
    let size := if napot then 16 else 12 + 9 * level
    let pa := ppn * 4096 / 2 ^ size * 2 ^ size
    if 21 ≤ size ∧ meetsSpad pa (2 ^ size) then .error 4
    else if level = 4 then .error 5
    else .ok ⟨pa, size, nbit pte 1, nbit pte 2, nbit pte 3, nbit pte 4, nbit pte 5, pteAddr, pte⟩

/-- One walk by the walkers of a die (R98, R438): at each level the checks 8, 9, 1, 4 and 5 in this order. -/
def State.walkFrom (s : State) (die va : Nat) : List Nat → Nat → Except Nat Leaf
  | [], _ => .error 4
  | level :: rest, table =>
    let a := table + 8 * (va / 2 ^ (12 + 9 * level) % 512)
    match s.classify die a with
    | .ok ⟨.coh, _⟩ =>
      if s.poison.contains (a / 8) then .error 9
      else
        let pte := s.readMem a 8
        if !nbit pte 0 then .error 1
        else if pte / 2 ^ 54 % 128 ≠ 0 ∨ (nbit pte 2 && !nbit pte 1) then .error 4
        else if nbit pte 1 || nbit pte 3 then leafOf level a pte
        else if nbit pte 63 || nbit pte 4 || nbit pte 6 || nbit pte 7 then .error 4
        else s.walkFrom die va rest (pte / 2 ^ 10 % 2 ^ 44 * 4096)
    | _ => .error 8

/-- The walk of a virtual address under an `ASIDR` value (R97). -/
def State.walk (s : State) (die : Nat) (asidr : Word) (va : Nat) : Except Nat Leaf :=
  if asidr.bits 60 4 ≠ 10 then .error 6
  else s.walkFrom die va [4, 3, 2, 1, 0] (asidr.bits 0 44 * 4096)

/-- Canonical addresses are sign-extended from bit 56 (R98). -/
def canonical (va : Word) : Bool := va.bits 56 8 == 0 || va.bits 56 8 == 255

/-- The scratchpad aperture (R99). -/
def inAperture (va : Word) : Bool := decide (0x00F0000000000000 ≤ va.toNat) && decide (va.toNat < 0x00F8000000000000)

/-- Sets A, and D on a write, in a PTE (R98). -/
def State.setAD (s : State) (l : Leaf) (write : Bool) : State :=
  let pte := l.pte ||| 0x40 ||| (if write then 0x80 else 0)
  if pte = l.pte then s else s.writeMem l.pteAddr 8 pte


end Sys2Proof.Machine
end

