-- ==== Sys2Proof/Machine/Device.lean ====
section
/-!
DEFINITION. The device register blocks (R6, R94, R440): reads and writes of the registers that the chapters lay out; every
other offset reads as zero and ignores writes.
-/
namespace Sys2Proof.Machine

/-! ## Power domains as their status registers show them (R341, R347, R349, R350, R474, R475) -/

/-- The power domain of a core: its quad, or 32 + the Bassoon (R341). -/
def domainOf (pcore : Nat) : Nat := if pcore < 128 then pcore / 4 else 32 + (pcore - 128)

/-- A domain of a die. -/
def Die.domain (d : Die) (i : Nat) : Domain := tabGet Domain.reset d.domains i

/-- The clock of a level in units of 100 MHz (R23). -/
def clockRate (level : Nat) : Nat := match level with | 0 => 20 | 1 => 40 | 2 => 43 | _ => 46

/-- The clock at which a domain runs: until a change completes, the lower of the two (R343). -/
def Domain.rate (x : Domain) : Nat := if x.changing then min (clockRate x.level) (clockRate x.before) else clockRate x.level

/-- Cycles of a clock from reset to an instant in hundredths of a tick. -/
def cyclesAt (rate instant : Nat) : Nat := instant * rate / 1000

/-- The present instant, in hundredths of a tick of `TIME`. -/
def State.instant (s : State) : Nat := s.time.toNat * 100 + s.fine

/-- The cycles of a core since reset, modulo 2⁶⁴ (R175): those of the nominal clock, and what its domain has run beyond. -/
def State.cycleOf (s : State) (core : Nat) : Word :=
  word (cyclesAt 40 s.instant) + ((s.getDie (dieOfCore core)).domain (domainOf (pcoreOf core))).offset

/-- A domain from one instant to a later one. -/
def Domain.advance (x : Domain) (i j : Nat) : Domain :=
  { x with offset := x.offset + word (cyclesAt x.rate j - cyclesAt x.rate i) - word (cyclesAt 40 j - cyclesAt 40 i) }

/-- A domain is throttled, or its die is critical and treats it so (R349, R474). -/
def Die.hot (d : Die) (i : Nat) : Bool := (d.domain i).throttled || d.critical != 0

/-- A domain is withheld: for its current, for the current of its die, or for heat (R347, R475). -/
def Die.withheld (d : Die) (i : Nat) : Bool := (d.domain i).withheld || d.limited || d.hot i

/-- The domain status register (R350). -/
def Die.statusReg (d : Die) (i : Nat) : Word :=
  let x := d.domain i
  word (x.temp % 2 ^ 11 * 2 ^ 16 + (d.withheld i).toNat * 8 + (d.hot i).toNat * 4 + x.level % 4)

/-! ## The registers -/

/-- A register of a block, with its context, side, domain or half. -/
inductive DevReg where
  | bootsts | features (high : Bool) | accept (high : Bool) | attreq | errsum | ckptsts | rcvreq
  | gateway (side : Fin 4)
  | lqbell (ctx : Nat) | lqbase (ctx : Nat) | supctx (ctx : Nat) | dropcnt (ctx : Nat) | lqerr (ctx : Nat)
  | domain (i : Nat)
  | elbase | elhead | eltail | errnote
  | mxact | mxpark
deriving DecidableEq, Repr

/-- An array of registers of 8 bytes from an offset: the index. -/
def regIndex (base count off : Nat) : Option Nat :=
  if base ≤ off ∧ off < base + 8 * count then some ((off - base) / 8) else none

/-- The registers that each die has (R320, R350, R414, R416, R454). -/
def anyDieReg (off : Nat) : Option DevReg :=
  if off = 0x400000 then some .elbase
  else if off = 0x400008 then some .elhead
  else if off = 0x400010 then some .eltail
  else if off = 0x500000 then some .mxact
  else if off = 0x500008 then some .mxpark
  else if (regIndex 0x100000 4 off).isSome then (regIndex 0x100000 4 off).map fun i => .gateway (Fin.ofNat 4 i)
  else if (regIndex 0x203000 256 off).isSome then (regIndex 0x203000 256 off).map .dropcnt
  else (regIndex 0x300000 36 off).map .domain

/-- The registers that only die 0 has (R324, R362 to R364, R412, R416, R419, R468, R473, R486). -/
def rootReg (off : Nat) : Option DevReg :=
  if off = 0x00 then some .bootsts
  else if off = 0x10 then some (.features false)
  else if off = 0x18 then some (.features true)
  else if off = 0x20 then some (.accept false)
  else if off = 0x28 then some (.accept true)
  else if off = 0x40 then some .attreq
  else if off = 0x80 then some .errsum
  else if off = 0x88 then some .ckptsts
  else if off = 0x90 then some .rcvreq
  else if off = 0x400018 then some .errnote
  else if (regIndex 0x200000 256 off).isSome then (regIndex 0x200000 256 off).map .lqbell
  else if (regIndex 0x201000 256 off).isSome then (regIndex 0x201000 256 off).map .lqbase
  else if (regIndex 0x202000 256 off).isSome then (regIndex 0x202000 256 off).map .supctx
  else (regIndex 0x204000 256 off).map .lqerr

/-- The register at an offset of the block of a die. -/
def devReg (die off : Nat) : Option DevReg :=
  if off % 8 ≠ 0 then none
  else match anyDieReg off with
    | some r => some r
    | none => if die = 0 then rootReg off else none

/-! ## Reads -/

/-- The busy entries of a park table (R454). -/
def parkBits (park : List (Nat × Parked)) : Nat := ((List.range 16).filter (tabHas park)).foldl (fun m i => m + 2 ^ i) 0

/-- `ERRSUM` (R419). -/
def Package.errSum (p : Package) : Word := word (p.errsum.1 + p.errsum.2.1 * 2 ^ 16 + p.errsum.2.2 * 2 ^ 32)

/-- A read of a device register: write-only and unassigned ones read as zero (R6, R440). -/
def State.devRead (s : State) (die off : Nat) : Word :=
  let d := s.getDie die
  match devReg die off with
  | some .bootsts => word (s.package.bootState % 4 * 2 ^ 8 + s.package.bootStep % 16)
  | some (.features high) => word (if high then s.package.features / 2 ^ 64 else s.package.features)
  | some .attreq => s.package.attreq
  | some .errsum => s.package.errSum
  | some .ckptsts => word s.package.ckptsts
  | some .rcvreq => s.package.rcvreq
  | some (.gateway side) => d.gateway[side.val]
  | some (.lqbase c) => (s.getCtx c).lqbase
  | some (.supctx c) => (s.getCtx c).supctx
  | some (.dropcnt c) => word (tabGet 0 d.dropcnt c)
  | some (.lqerr c) => (s.getCtx c).lqerr
  | some (.domain i) => d.statusReg i
  | some .elbase => d.elbase
  | some .elhead => word d.elhead
  | some .eltail => word (d.lost % 2 ^ 32 * 2 ^ 32 + d.eltail % 2 ^ 32)
  | some .errnote => s.package.errnote
  | some .mxpark => word (parkBits d.park)
  | some (.accept _) | some (.lqbell _) | some .mxact | none => 0

/-! ## Writes -/

/-- Whether the host's writes reach a register: `LQBELL`, `ACCEPT` and `ATTREQ`, or in recovery mode `RCVREQ` (R363). -/
def Package.hostWrites (p : Package) (r : DevReg) : Bool :=
  match r with
  | .lqbell _ | .accept _ | .attreq => p.bootState != 3
  | .rcvreq => p.bootState == 3
  | _ => false

/-- Whether the supervisor writes: an activation of it, or one of its Shawm harts (R360). -/
def supervises : Writer → Bool
  | .slot _ supervisor => supervisor
  | .shawm _ => true
  | _ => false

/-- A supervisor activation. -/
def isActivation : Writer → Bool
  | .slot _ supervisor => supervisor
  | _ => false

/-- Whether a writer may write a register (R320, R324, R360, R363, R364, R412, R416). -/
def State.mayWrite (s : State) (who : Writer) (r : DevReg) : Bool :=
  match r with
  | .accept _ | .attreq | .rcvreq => who == .host && s.package.hostWrites r
  | .lqbell _ => who != .housekeeping && (who != .host || s.package.hostWrites r)
  | .gateway _ | .lqbase _ => supervises who
  | .supctx _ | .mxact => isActivation who
  | .elbase | .elhead | .errnote => who == .housekeeping || isActivation who
  | _ => false

/-- A write of `MXACT` counts from the supervisor context of the parked command's context, for an entry that is busy and
not about to restart (R454). -/
def State.mxactCounts (s : State) (who : Writer) (die : Nat) (w : Word) : Bool :=
  match who, (s.getDie die).park.find? fun p => p.1 == w.bits 0 4 with
  | .slot c _, some (_, p) =>
    let sup := (s.getCtx p.cmd.ctx).supctx
    sup.bit 8 && sup.bits 0 8 == c && !p.restart
  | _, _ => false

/-- The writable fields of a register are stored; a write that is an event of its own takes place as that event. -/
def State.storeReg (s : State) (who : Writer) (die : Nat) (r : DevReg) (w : Word) : State :=
  let d := s.getDie die
  match r with
  | .accept high => s.post (if high then .acceptHighWrite w else .acceptCommit w)
  | .attreq => s.post (.attreqGo w)
  | .rcvreq => s.post (.rcvreqGo w)
  | .lqbell c => s.post (.lqbellWrite c (w.bits 0 32))
  | .gateway side => s.setDie die { d with gateway := d.gateway.set side.val (w &&& 0x800000FF0000FFFF) }
  | .lqbase c => s.setCtx c { s.getCtx c with lqbase := w &&& 0x000FFFFFFFFFFFE1 }
  | .supctx c => s.setCtx c { s.getCtx c with supctx := w &&& 0x1FF }
  | .elbase => s.setDie die { d with elbase := w &&& 0xFFFFFFFFFFFFFFC0 }
  | .elhead => s.setDie die { d with elhead := w.bits 0 32 }
  | .errnote => { s with package := { s.package with errnote := w &&& 0xFFFF000F } }
  | .mxact =>
    if s.mxactCounts who die w then
      s.post (if w.bit 16 then .mxactAbandon die (Fin.ofNat 16 (w.bits 0 4)) else .mxactRestart die (Fin.ofNat 16 (w.bits 0 4)))
    else s
  | _ => s

/-- A write of a device register: discarded where its writer may not write it, or where it is read-only or unassigned. -/
def State.devWrite (s : State) (who : Writer) (die off : Nat) (w : Word) : State :=
  match devReg die off with
  | some r => if s.mayWrite who r then s.storeReg who die r w else s
  | none => s

end Sys2Proof.Machine
end

