-- ==== Sys2Proof/Machine/Fp.lean ====
section
/-!
DEFINITION. Number formats, exact values and rounding (R63 to R75, R84 to R86, R216 to R226): every operation forms
its exact result as a signed integer times a power of two and rounds it once.
-/
namespace Sys2Proof

/-! ## Values -/

/-- A value of a floating-point format: a NaN (signalling or quiet), an infinity, a zero, or `m × 2^e` with `m > 0`. -/
inductive FVal where
  | nan (signalling : Bool)
  | inf (neg : Bool)
  | zero (neg : Bool)
  | num (neg : Bool) (m : Nat) (e : Int)
deriving DecidableEq, Repr

/-- The bits of a result with the flags it raises, in the order of `FCSR`[4:0] (R67). -/
structure FRes where
  bits : Nat
  flags : Nat
deriving DecidableEq, Repr

/-- Flag bits of R67. -/
def flagNX : Nat := 1
def flagUF : Nat := 2
def flagOF : Nat := 4
def flagDZ : Nat := 8
def flagNV : Nat := 16

/-- A rounding mode of R66. -/
inductive RMode where
  | rne | rtz | rdn | rup
deriving DecidableEq, Repr

/-- A mode from its code; codes above 3 are never used for rounding (R424 detail 4). -/
def RMode.ofCode (n : Nat) : RMode :=
  match n with | 0 => .rne | 1 => .rtz | 2 => .rdn | _ => .rup

/-! ## Formats -/

/-- Fraction bits of a format (R63). -/
def Fmt.fracBits : Fmt → Nat | .fp32 => 23 | .fp64 => 52 | .h16 => 10 | .b16 => 7
/-- Exponent bits of a format (R63). -/
def Fmt.expBits : Fmt → Nat | .fp32 => 8 | .fp64 => 11 | .h16 => 5 | .b16 => 8
/-- Width of a format in bits (R63, R216). -/
def Fmt.width : Fmt → Nat | .fp32 => 32 | .fp64 => 64 | .h16 => 16 | .b16 => 16
/-- Bias of a format (R63). -/
def Fmt.bias : Fmt → Nat | .fp32 => 127 | .fp64 => 1023 | .h16 => 15 | .b16 => 127
/-- The canonical NaN (R63). -/
def Fmt.canonNaN : Fmt → Nat
  | .fp32 => 0x7FC00000 | .fp64 => 0x7FF8000000000000 | .h16 => 0x7E00 | .b16 => 0x7FC0
/-- The exponent of the last place of a subnormal. -/
def Fmt.emin (f : Fmt) : Int := 1 - (f.bias : Int) - f.fracBits
/-- The bits of an infinity without its sign. -/
def Fmt.infBits (f : Fmt) : Nat := (2 ^ f.expBits - 1) * 2 ^ f.fracBits
/-- The sign bit of a format. -/
def Fmt.signBit (f : Fmt) : Nat := 2 ^ (f.width - 1)

/-- Reads the low bits of a natural number in a format (R63, R216). -/
def Fmt.read (f : Fmt) (x : Nat) : FVal :=
  let b := x % 2 ^ f.width
  let neg := b / f.signBit == 1
  let ex := b / 2 ^ f.fracBits % 2 ^ f.expBits
  let fr := b % 2 ^ f.fracBits
  if ex = 2 ^ f.expBits - 1 then
    if fr = 0 then .inf neg else .nan (fr < 2 ^ (f.fracBits - 1))
  else if ex = 0 then
    if fr = 0 then .zero neg else .num neg fr f.emin
  else .num neg (2 ^ f.fracBits + fr) (f.emin + (ex : Int) - 1)

/-! ## Rounding -/

/-- Whether a truncated magnitude is incremented: `n` is the truncated integer, `r` the remainder below it out of `d`. -/
def roundInc (rm : RMode) (neg : Bool) (n r d : Nat) : Bool :=
  match rm with
  | .rne => 2 * r > d || (2 * r == d && n % 2 == 1)
  | .rtz => false
  | .rdn => neg && r != 0
  | .rup => !neg && r != 0

/-- `m × 2^e` rounded to a multiple of `2^q`: the integer multiple and whether it is inexact. -/
def roundAt (rm : RMode) (neg : Bool) (m : Nat) (e q : Int) : Nat × Bool :=
  if q ≤ e then (m * 2 ^ (e - q).toNat, false)
  else
    let d := 2 ^ (q - e).toNat
    let n := m / d
    let r := m % d
    (if roundInc rm neg n r d then n + 1 else n, r != 0)

/-- Whether `m × 2^e` rounded to `p` bits with an unbounded exponent lies below `2^k` (R68: tininess after rounding). -/
def tinyAfter (rm : RMode) (neg : Bool) (m : Nat) (e : Int) (p : Nat) (k : Int) : Bool :=
  let top : Int := Nat.log2 m + e
  let q := top - (p - 1 : Nat)
  let n := (roundAt rm neg m e q).1
  decide ((Nat.log2 n : Int) + q < k)

/-- `round(m × 2^e, fmt, rm)` for a non-zero magnitude (R68). -/
def roundNum (f : Fmt) (rm : RMode) (neg : Bool) (m : Nat) (e : Int) : FRes :=
  let fb := f.fracBits
  let top : Int := Nat.log2 m + e
  let q := max (top - fb) f.emin
  let (n, inexact) := roundAt rm neg m e q
  let sgn := if neg then f.signBit else 0
  if n ≠ 0 ∧ (Nat.log2 n : Int) + q > f.bias then
    let toInf := match rm with | .rne => true | .rtz => false | .rdn => neg | .rup => !neg
    ⟨sgn + (if toInf then f.infBits else f.infBits - 1), flagOF + flagNX⟩
  else
    let tiny := tinyAfter rm neg m e (fb + 1) (f.emin + fb)
    ⟨sgn + (if n = 0 then 0 else (q - f.emin).toNat * 2 ^ fb + n),
      (if inexact then flagNX + (if tiny then flagUF else 0) else 0)⟩

/-- `round(x, fmt, rm)` of any exact value; a NaN gives the canonical NaN (R64, R68). -/
def roundVal (f : Fmt) (rm : RMode) : FVal → FRes
  | .nan _ => ⟨f.canonNaN, 0⟩
  | .inf neg => ⟨(if neg then f.signBit else 0) + f.infBits, 0⟩
  | .zero neg => ⟨if neg then f.signBit else 0, 0⟩
  | .num neg m e => if m = 0 then ⟨if neg then f.signBit else 0, 0⟩ else roundNum f rm neg m e

/-! ## Exact operations -/

def FVal.isNaN : FVal → Bool | .nan _ => true | _ => false
def FVal.isSNaN : FVal → Bool | .nan s => s | _ => false
def FVal.isInf : FVal → Bool | .inf _ => true | _ => false
def FVal.isZero : FVal → Bool | .zero _ => true | _ => false

/-- The sign of a value that is no NaN. -/
def FVal.neg? : FVal → Bool
  | .nan _ => false | .inf n => n | .zero n => n | .num n _ _ => n

/-- The value with its sign turned; a NaN stays as it is. -/
def FVal.negate : FVal → FVal
  | .nan s => .nan s | .inf n => .inf (!n) | .zero n => .zero (!n) | .num n m e => .num (!n) m e

/-- A signed integer times a power of two. -/
def FVal.ofInt (x : Int) (e : Int) (zeroNeg : Bool) : FVal :=
  if x = 0 then .zero zeroNeg else .num (x < 0) x.natAbs e

/-- `±m` as an integer. -/
def signed (neg : Bool) (m : Nat) : Int := if neg then -(m : Int) else m

/-- The exact sum; opposite infinities are invalid and give a NaN; an exact zero of two zeros of one sign keeps it, and
every other exact zero is +0 except under RDN (R68, R216, R218). -/
def FVal.add (rm : RMode) : FVal → FVal → FVal
  | .nan s, _ => .nan s
  | _, .nan s => .nan s
  | .inf a, .inf b => if a == b then .inf a else .nan true
  | .inf a, _ => .inf a
  | _, .inf b => .inf b
  | .zero a, .zero b => if a == b then .zero a else .zero (rm == .rdn)
  | .zero _, y => y
  | x, .zero _ => x
  | .num na ma ea, .num nb mb eb =>
    let e := min ea eb
    FVal.ofInt (signed na (ma * 2 ^ (ea - e).toNat) + signed nb (mb * 2 ^ (eb - e).toNat)) e (rm == .rdn)

/-- The exact product; zero times infinity is invalid and gives a NaN. -/
def FVal.mul : FVal → FVal → FVal
  | .nan s, _ => .nan s
  | _, .nan s => .nan s
  | .inf a, .zero _ => .nan (a == a)
  | .zero _, .inf b => .nan (b == b)
  | .inf a, y => .inf (xor a y.neg?)
  | x, .inf b => .inf (xor x.neg? b)
  | .zero a, y => .zero (xor a y.neg?)
  | x, .zero b => .zero (xor x.neg? b)
  | .num na ma ea, .num nb mb eb => .num (xor na nb) (ma * mb) (ea + eb)

/-- Whether a product is zero times infinity. -/
def mulInvalid : FVal → FVal → Bool
  | .inf _, .zero _ => true
  | .zero _, .inf _ => true
  | _, _ => false

/-- NV for signalling NaN operands (R64). -/
def nvOf (xs : List FVal) : Nat := if xs.any FVal.isSNaN then flagNV else 0

/-- Flags as a union. -/
def orFlags (a b : Nat) : Nat := a ||| b

/-- A result with further flags. -/
def FRes.withFlags (r : FRes) (fl : Nat) : FRes := ⟨r.bits, orFlags r.flags fl⟩

/-- The canonical NaN with NV. -/
def invalid (f : Fmt) : FRes := ⟨f.canonNaN, flagNV⟩

/-- The canonical NaN for NaN operands: NV if one is signalling (R64). -/
def nanRes (f : Fmt) (xs : List FVal) : FRes := ⟨f.canonNaN, nvOf xs⟩

/-- `FADD` on values (R218). -/
def fAddVal (f : Fmt) (rm : RMode) (x y : FVal) : FRes :=
  if x.isNaN || y.isNaN then nanRes f [x, y]
  else match x.add rm y with
    | .nan _ => invalid f
    | z => roundVal f rm z

def fAdd (f : Fmt) (rm : RMode) (a b : Nat) : FRes := fAddVal f rm (f.read a) (f.read b)
def fSub (f : Fmt) (rm : RMode) (a b : Nat) : FRes := fAddVal f rm (f.read a) (f.read b).negate

/-- `FMUL` (R218). -/
def fMul (f : Fmt) (rm : RMode) (a b : Nat) : FRes :=
  let x := f.read a
  let y := f.read b
  if x.isNaN || y.isNaN then nanRes f [x, y]
  else if mulInvalid x y then invalid f
  else roundVal f rm (x.mul y)

/-- The quotient of two magnitudes to more bits than any format, with a sticky last bit. -/
def divNum (p ma mb : Nat) (ea eb : Int) : Nat × Int :=
  let k := p + 3 + Nat.log2 mb - Nat.log2 ma
  let n := ma * 2 ^ k
  (2 * (n / mb) + (if n % mb = 0 then 0 else 1), ea - eb - k - 1)

/-- `FDIV` (R218). -/
def fDiv (f : Fmt) (rm : RMode) (a b : Nat) : FRes :=
  let x := f.read a
  let y := f.read b
  match x, y with
  | .nan _, _ => nanRes f [x, y]
  | _, .nan _ => nanRes f [x, y]
  | .inf _, .inf _ => invalid f
  | .zero _, .zero _ => invalid f
  | .inf s, y => roundVal f rm (.inf (xor s y.neg?))
  | x, .inf s => roundVal f rm (.zero (xor x.neg? s))
  | .zero s, y => roundVal f rm (.zero (xor s y.neg?))
  | x, .zero s => (roundVal f rm (.inf (xor x.neg? s))).withFlags flagDZ
  | .num na ma ea, .num nb mb eb =>
    let (m, e) := divNum (f.fracBits + 1) ma mb ea eb
    roundVal f rm (.num (xor na nb) m e)

/-- Integer square root of `n`, digit by digit: the largest `r < 2^k` with `r² ≤ n`, starting from `r`. -/
def isqrtGo (n : Nat) : Nat → Nat → Nat
  | 0, r => r
  | k + 1, r => if (r + 2 ^ k) * (r + 2 ^ k) ≤ n then isqrtGo n k (r + 2 ^ k) else isqrtGo n k r

/-- Integer square root. -/
def isqrt (n : Nat) : Nat := isqrtGo n (Nat.log2 n / 2 + 1) 0

/-- The square root of `m × 2^e` to more bits than any format, with a sticky last bit. -/
def sqrtNum (p m : Nat) (e : Int) : Nat × Int :=
  let m1 := if e % 2 = 0 then m else 2 * m
  let e1 := if e % 2 = 0 then e else e - 1
  let k := p + 3
  let n := m1 * 2 ^ (2 * k)
  let s := isqrt n
  (2 * s + (if s * s = n then 0 else 1), e1 / 2 - k - 1)

/-- `FSQRT` (R218). -/
def fSqrt (f : Fmt) (rm : RMode) (a : Nat) : FRes :=
  match f.read a with
  | .nan s => ⟨f.canonNaN, if s then flagNV else 0⟩
  | .zero s => roundVal f rm (.zero s)
  | .inf true => invalid f
  | .inf false => roundVal f rm (.inf false)
  | .num true _ _ => invalid f
  | .num false m e =>
    let (m', e') := sqrtNum (f.fracBits + 1) m e
    roundVal f rm (.num false m' e')

/-- `a < b` of two values that are no NaN, with −0 = +0. -/
def FVal.lt (x y : FVal) : Bool :=
  match x, y with
  | .nan _, _ => false
  | _, .nan _ => false
  | .inf a, .inf b => a && !b
  | .inf a, _ => a
  | _, .inf b => !b
  | x, y =>
    let (sx, mx, ex) := match x with | .num n m e => (n, m, e) | _ => (false, 0, 0)
    let (sy, my, ey) := match y with | .num n m e => (n, m, e) | _ => (false, 0, 0)
    let e := min ex ey
    decide (signed sx (mx * 2 ^ (ex - e).toNat) < signed sy (my * 2 ^ (ey - e).toNat))

/-- `a = b` of two values that are no NaN, with −0 = +0. -/
def FVal.eqv (x y : FVal) : Bool := !x.isNaN && !y.isNaN && !x.lt y && !y.lt x

/-- `FMIN` and `FMAX` (R65, R218): minimumNumber and maximumNumber, with −0 below +0. -/
def fMinMax (f : Fmt) (wantMax : Bool) (a b : Nat) : FRes :=
  let x := f.read a
  let y := f.read b
  let fl := nvOf [x, y]
  let a := a % 2 ^ f.width
  let b := b % 2 ^ f.width
  if x.isNaN && y.isNaN then ⟨f.canonNaN, fl⟩
  else if x.isNaN then ⟨b, fl⟩
  else if y.isNaN then ⟨a, fl⟩
  else
    let less := x.lt y || (x.isZero && y.isZero && x.neg? && !y.neg?)
    ⟨if less == wantMax then b else a, fl⟩

/-- The fused multiply-adds (R226): `± (a × b) ± c` rounded once. -/
def fFma (f : Fmt) (rm : RMode) (negProd negC : Bool) (a b c : Nat) : FRes :=
  let x := f.read a
  let y := f.read b
  let z := f.read c
  if mulInvalid x y then ⟨f.canonNaN, flagNV⟩
  else if x.isNaN || y.isNaN || z.isNaN then nanRes f [x, y, z]
  else
    let p := if negProd then (x.mul y).negate else x.mul y
    let z := if negC then z.negate else z
    match p.add rm z with
    | .nan _ => invalid f
    | r => roundVal f rm r

/-- FSGN words (R219): a sign composed with the magnitude of the first operand; no flag. -/
def fSgn (f : Fmt) (sign : Bool) (a : Nat) : FRes :=
  if (f.read a).isNaN then ⟨f.canonNaN, 0⟩
  else ⟨a % f.signBit + (if sign then f.signBit else 0), 0⟩

/-- The sign bit of an operand. -/
def Fmt.signOf (f : Fmt) (a : Nat) : Bool := a / f.signBit % 2 == 1

/-- Relations of FCMP (R220). -/
inductive FRel where | eq | lt | le
deriving DecidableEq, Repr

/-- FCMP (R220): the relation, and NV for a signalling NaN, or for any NaN in `FLT` and `FLE`. -/
def fCmp (f : Fmt) (r : FRel) (a b : Nat) : FRes :=
  let x := f.read a
  let y := f.read b
  let any := x.isNaN || y.isNaN
  let holds := match r with
    | .eq => x.eqv y
    | .lt => x.lt y
    | .le => x.lt y || x.eqv y
  let fl := match r with
    | .eq => nvOf [x, y]
    | _ => if any then flagNV else 0
  ⟨if holds && !any then 1 else 0, fl⟩

/-- `FCLASS` (R221). -/
def fClass (f : Fmt) (a : Nat) : Nat :=
  match f.read a with
  | .inf true => 1
  | .num neg m _ =>
    let normal := 2 ^ f.fracBits ≤ m
    if neg then (if normal then 2 else 4) else (if normal then 64 else 32)
  | .zero true => 8
  | .zero false => 16
  | .inf false => 128
  | .nan true => 256
  | .nan false => 512

/-! ## The 8-bit formats -/

/-- F8 and F8W (R69). -/
inductive Fmt8 where | f8 | f8w
deriving DecidableEq, Repr

def Fmt8.fracBits : Fmt8 → Nat | .f8 => 3 | .f8w => 2
/-- The exponent of the last place of a subnormal. -/
def Fmt8.emin : Fmt8 → Int | .f8 => -10 | .f8w => -17

/-- The value of a code (R69). -/
def Fmt8.read (f : Fmt8) (x : Nat) : FVal :=
  let b := x % 256
  let neg := b / 128 == 1
  let mag := b % 128
  let ex := mag / 2 ^ f.fracBits
  let fr := mag % 2 ^ f.fracBits
  if b = 128 then .nan false
  else if mag = 0 then .zero false
  else if ex = 0 then .num neg fr f.emin
  else .num neg (2 ^ f.fracBits + fr) (f.emin + (ex : Int) - 1)

/-- Conversion to an 8-bit format, always to nearest-even (R70). -/
def toFmt8 (f : Fmt8) : FVal → FRes
  | .nan s => ⟨0x80, if s then flagNV else 0⟩
  | .inf neg => ⟨if neg then 0xFF else 0x7F, flagOF + flagNX⟩
  | .zero _ => ⟨0, 0⟩
  | .num neg m e =>
    if m = 0 then ⟨0, 0⟩ else
    let fb := f.fracBits
    let top : Int := Nat.log2 m + e
    let q := max (top - fb) f.emin
    let (n, inexact) := roundAt .rne neg m e q
    let code := if n = 0 then 0 else (q - f.emin).toNat * 2 ^ fb + n
    if code > 0x7F then ⟨if neg then 0xFF else 0x7F, flagOF + flagNX⟩
    else
      let tiny := tinyAfter .rne neg m e (fb + 1) (f.emin + fb)
      ⟨if code = 0 then 0 else code + (if neg then 0x80 else 0),
        if inexact then flagNX + (if tiny then flagUF else 0) else 0⟩

/-! ## Conversions -/

/-- What a conversion type holds. -/
inductive CvtKind where
  | bin (f : Fmt) | eight (f : Fmt8) | int (signed : Bool) (width : Nat)
deriving DecidableEq, Repr

def CvtType.kind : CvtType → CvtKind
  | .fp32 => .bin .fp32 | .fp64 => .bin .fp64 | .h16 => .bin .h16 | .b16 => .bin .b16
  | .f8 => .eight .f8 | .f8w => .eight .f8w
  | .i32 => .int true 32 | .n32 => .int false 32 | .i64 => .int true 64 | .n64 => .int false 64
  | .i8 => .int true 8 | .n8 => .int false 8

/-- Width of a conversion type in bits (R73). -/
def CvtType.width : CvtType → Nat
  | .fp32 => 32 | .fp64 => 64 | .h16 => 16 | .b16 => 16 | .f8 => 8 | .f8w => 8
  | .i32 => 32 | .n32 => 32 | .i64 => 64 | .n64 => 64 | .i8 => 8 | .n8 => 8

/-- The low bits of a number read as a signed or unsigned integer (R222). -/
def readInt (sgn : Bool) (w x : Nat) : Int :=
  let b := x % 2 ^ w
  if sgn && decide (2 ^ (w - 1) ≤ b) then (b : Int) - 2 ^ w else b

/-- Least and greatest value of an integer type. -/
def intMin (sgn : Bool) (w : Nat) : Int := if sgn then -(2 ^ (w - 1) : Nat) else 0
def intMax (sgn : Bool) (w : Nat) : Int := if sgn then (2 ^ (w - 1) : Nat) - 1 else (2 ^ w : Nat) - 1

/-- An integer in `w` bits of two's complement. -/
def intBits (w : Nat) (x : Int) : Nat := (x % (2 ^ w : Nat)).toNat

/-- An integer limited to a type's range (R74). -/
def clampInt (sgn : Bool) (w : Nat) (x : Int) : Int := max (intMin sgn w) (min (intMax sgn w) x)

/-- A value converted to an integer type (R74). -/
def toInt (sgn : Bool) (w : Nat) (rm : RMode) : FVal → FRes
  | .nan _ => ⟨0, flagNV⟩
  | .inf neg => ⟨intBits w (if neg then intMin sgn w else intMax sgn w), flagNV⟩
  | .zero _ => ⟨0, 0⟩
  | .num neg m e =>
    let (n, inexact) := roundAt rm neg m e 0
    let x := signed neg n
    if x < intMin sgn w ∨ intMax sgn w < x then ⟨intBits w (clampInt sgn w x), flagNV⟩
    else ⟨intBits w x, if inexact then flagNX else 0⟩

/-- The exact value of an integer. -/
def valOfInt (x : Int) : FVal := FVal.ofInt x 0 false

/-- One conversion of the low bits of `x`, the result in the destination's width (R222, R223). -/
def convert (src dst : CvtType) (rm : RMode) (x : Nat) : FRes :=
  match src.kind, dst.kind with
  | .bin f, .bin g =>
    let v := f.read x
    (roundVal g rm v).withFlags (nvOf [v])
  | .bin f, .eight g => toFmt8 g (f.read x)
  | .bin f, .int s w => toInt s w rm (f.read x)
  | .eight f, .bin g => roundVal g rm (f.read x)
  | .eight f, .eight g => toFmt8 g (f.read x)
  | .eight f, .int s w => toInt s w rm (f.read x)
  | .int s w, .bin g => roundVal g rm (valOfInt (readInt s w x))
  | .int s w, .eight g => toFmt8 g (valOfInt (readInt s w x))
  | .int s w, .int s' w' => ⟨intBits w' (clampInt s' w' (readInt s w x)), 0⟩

/-- A conversion result as a 64-bit register value: I8 and I32 sign-extended, every other type zero-extended (R222). -/
def cvtExtend (dst : CvtType) (bits : Nat) : Word :=
  match dst with
  | .i8 => sextTo64 8 bits
  | .i32 => sextTo64 32 bits
  | _ => word bits

/-! ## Seeds -/

/-- The seed index of a magnitude: the first 10 fraction bits of `M` (R84). -/
def seedIndex (m : Nat) : Nat :=
  let l := Nat.log2 m
  (if l ≤ 10 then m * 2 ^ (10 - l) else m / 2 ^ (l - 10)) % 1024

/-- The seed of a positive finite input, rounded to 12 significant bits: `n × 2^e` (R84). -/
def seedNum (rsq : Bool) (m : Nat) (e : Int) : Nat × Int :=
  let top : Int := Nat.log2 m + e
  let d := 2049 + 2 * seedIndex m
  if rsq then
    if top % 2 = 0 then ((isqrt (0x4000000 * 2048 / d) + 1) / 2, -(top / 2) - 12)
    else ((isqrt (0x4000000 * 1024 / d) + 1) / 2, -((top - 1) / 2) - 12)
  else ((8192 * 2048 / d + 1) / 2, -top - 12)

/-- `FRSQE` and `FRCPE` with their special inputs (R84, R85). -/
def fSeed (f : Fmt) (rsq : Bool) (a : Nat) : FRes :=
  match f.read a with
  | .nan s => ⟨f.canonNaN, if s then flagNV else 0⟩
  | .zero neg => (roundVal f .rne (.inf neg)).withFlags flagDZ
  | .inf neg => if rsq && neg then invalid f else roundVal f .rne (.zero neg)
  | .num neg m e =>
    if rsq && neg then invalid f
    else
      let (n, k) := seedNum rsq m e
      roundVal f .rne (.num neg n k)

/-! ## Sums in fixed orders -/

/-- The exact sum of a list of values as an integer at a common exponent; only numbers and zeros. -/
def exactSum (xs : List FVal) (e : Int) : Int :=
  xs.foldl (fun s v => match v with | .num n m k => s + signed n (m * 2 ^ (k - e).toNat) | _ => s) 0

/-- The least exponent of the numbers of a list. -/
def minExp (xs : List FVal) : Int :=
  xs.foldl (fun s v => match v with | .num _ _ k => min s k | _ => s) 0

/-- The exact sum of numbers and zeros as a value; an exact zero is +0 unless every term is −0 (R91). -/
def sumVals (xs : List FVal) : FVal :=
  let e := minExp xs
  FVal.ofInt (exactSum xs e) e (xs.all fun v => match v with | .zero n => n | _ => false)

/-- One level of the pairwise tree (R92): absent members pass the other unchanged. Each value carries its lanes, and
each addition reports the lanes beneath it with its flags. -/
def treeLevel (f : Fmt) (rm : RMode) :
    List (Option (Nat × Nat)) → List (Option (Nat × Nat)) × List (Nat × Nat)
  | x :: y :: t =>
    let (rest, fl) := treeLevel f rm t
    match x, y with
    | some (a, la), some (b, lb) =>
      let r := fAdd f rm a b
      (some (r.bits, la ||| lb) :: rest, (la ||| lb, r.flags) :: fl)
    | some a, none => (some a :: rest, fl)
    | none, b => (b :: rest, fl)
  | [x] => ([x], [])
  | [] => ([], [])

/-- The pairwise tree of R92 over at most `2^k` members; +0 if every member is absent. -/
def treeSum (f : Fmt) (rm : RMode) : Nat → List (Option (Nat × Nat)) → Nat × List (Nat × Nat)
  | 0, xs => (match xs with | some (a, _) :: _ => a | _ => 0, [])
  | k + 1, xs =>
    let (ys, fl) := treeLevel f rm xs
    let (r, fl') := treeSum f rm k ys
    (r, fl ++ fl')

end Sys2Proof
end

