-- ==== Sys2Proof/Machine/Line.lean ====
section
/-!
DEFINITION. The bytes at a place: scratchpad windows (R103), accumulator lines (R112 to R115, R449), the copies that caches
hold of memory that software keeps consistent (R105, R125, R287), device registers, and poison (R444).
-/
namespace Sys2Proof.Machine

/-! ## Windows (R102, R103) -/

/-- The 4-byte form of a stored element. -/
def expandElem (w x : Nat) : Nat :=
  match w with
  | 1 => (roundVal .fp32 .rne (Fmt8.f8.read x)).bits
  | 2 => (roundVal .fp32 .rne (Fmt8.f8w.read x)).bits
  | 3 => (roundVal .fp32 .rne (Fmt.b16.read x)).bits
  | 4 => intBits 32 (readInt true 8 x)
  | 5 => x % 256
  | 6 => (roundVal .fp32 .rne (Fmt.h16.read x)).bits
  | _ => x

/-- Implicit narrowing of a 4-byte element to the stored format (R75, R103). -/
def narrowElem (w x : Nat) : Nat :=
  match w with
  | 1 => (toFmt8 .f8 (Fmt.fp32.read x)).bits
  | 2 => (toFmt8 .f8w (Fmt.fp32.read x)).bits
  | 3 => (roundVal .b16 .rne (Fmt.fp32.read x)).bits
  | 4 => intBits 8 (clampInt true 8 (readInt true 32 x))
  | 5 => intBits 8 (clampInt false 8 (readInt false 32 x))
  | 6 => (roundVal .h16 .rne (Fmt.fp32.read x)).bits
  | _ => x

/-- Raw bytes of a stored element. -/
def storedBytes (w : Nat) : Nat := 4 / windowScale w

/-- Expands raw bytes: `k` elements. -/
def expandBytes (w : Nat) (raw : List Byte) : Nat → List Byte
  | 0 => []
  | k + 1 =>
    leBytes (expandElem w (leNat (raw.take (storedBytes w)))) 4 ++ expandBytes w (raw.drop (storedBytes w)) k

/-- Narrows expanded bytes: `k` elements. -/
def narrowBytes (w : Nat) (bs : List Byte) : Nat → List Byte
  | 0 => []
  | k + 1 => leBytes (narrowElem w (leNat (bs.take 4))) (storedBytes w) ++ narrowBytes w (bs.drop 4) k

/-! ## Accumulator lines (R112 to R115) -/

def accSize : AccType → Nat | .fp32 => 4 | .fp64 => 8 | .i32 => 4 | .i64 => 8

/-- One sum of two elements: FP under RNE, integers modulo 2ⁿ (R89, R90). -/
def accAdd (t : AccType) (a b : Nat) : Nat :=
  match t with
  | .fp32 => (fAdd .fp32 .rne a b).bits
  | .fp64 => (fAdd .fp64 .rne a b).bits
  | .i32 => (a + b) % 2 ^ 32
  | .i64 => (a + b) % 2 ^ 64

/-- The line of an address. -/
def lineOf (pa : Nat) : Nat := pa / 128 * 128

/-- Address of slot line `j` of the base line at `line` in a granule with ACCN `n` (R113). -/
def slotLine (n line j : Nat) : Nat := line + (j + 1) * (2 ^ 21 / accParts n)

/-- The combined slot value of the element at `a`: `s0`, then the others in increasing order (R90). -/
def State.slotSum (s : State) (t : AccType) (n a : Nat) : Nat → Nat
  | 0 => 0
  | 1 => s.readMem (slotLine n a 0) (accSize t)
  | k + 2 => accAdd t (s.slotSum t n a (k + 1)) (s.readMem (slotLine n a (k + 1)) (accSize t))

/-- Zeroes `len` bytes at the same offset of the first `k` slot lines. -/
def State.clearSlots (s : State) (n a len : Nat) : Nat → State
  | 0 => s
  | k + 1 => (s.clearSlots n a len k).writeMem (slotLine n a k) len 0

/-- Combines `k` elements of a line, from the element at `a` upward. -/
def State.combineElems (s : State) (t : AccType) (n slots a : Nat) : Nat → State
  | 0 => s
  | k + 1 =>
    let x := accAdd t (s.readMem a (accSize t)) (s.slotSum t n a slots)
    (s.writeMem a (accSize t) x).combineElems t n slots (a + accSize t) k

/-- Poison of the slot lines passes to the base words they are combined into (R450). -/
def State.combinePoison (s : State) (n line slots : Nat) : State :=
  if s.poison.isEmpty then s
  else
    let hit := (List.range 16).filter fun i => (List.range slots).any fun j => s.poison.contains (slotLine n line j / 8 + i)
    let clean := s.poison.filter fun w => !((List.range slots).any fun j => decide (slotLine n line j / 8 ≤ w) && decide (w < slotLine n line j / 8 + 16))
    { s with poison := clean ++ (hit.map (line / 8 + ·)).filter fun w => !clean.contains w }

/-- The combine before a read of a DIRTY line (R90, R114); a line with DIRTY clear combines nothing. An evicted line
comes back (R116). -/
def State.combine (s : State) (n line : Nat) : State :=
  if tabHas s.acc line then
    let st := tabGet ⟨.fp32, false, 1, false, true⟩ s.acc line
    let s :=
      if st.dirty then ((s.combineElems st.ty n st.n line (128 / accSize st.ty)).clearSlots n line 128 st.n).combinePoison n line st.n
      else s
    { s with acc := tabSet s.acc line { st with dirty := false, resident := true } }
  else s

/-- Whether a line is typed (R112). -/
def State.typed (s : State) (line : Nat) : Bool := tabHas s.acc line
def State.accState (s : State) (line : Nat) : AccState := tabGet ⟨.fp32, false, 1, false, true⟩ s.acc line

/-- `ACCINIT` and `ACCZ`: zero the base line and its slot lines, clear DIRTY and the line's poison (R112, R450). -/
def State.zeroLine (s : State) (n line slots : Nat) : State :=
  let s := (s.writeMem line 128 0).clearSlots n line 128 slots
  { s with poison := s.poison.filter fun w =>
      !(decide (line / 8 ≤ w) && decide (w < line / 8 + 16)) &&
      !((List.range slots).any fun j => decide (slotLine n line j / 8 ≤ w) && decide (w < slotLine n line j / 8 + 16)) }

/-! ## Copies of SWM and domain-window lines (R105, R125, R287) -/

/-- Whether a die is the home of a line of this package: its L2 holds no copy beside the home slice. -/
def isHome (die : Nat) (p : Phys) : Bool :=
  match p.kind with | .domain => false | _ => homeDie p.pa == die

/-- Memory that software keeps consistent. -/
def MemKind.bySoftware : MemKind → Bool | .swm | .domain => true | _ => false

/-- The listed bytes of one line. -/
def lineCells (t : List Host.Cell) (line : Nat) : List Host.Cell :=
  t.filter fun c => decide (line ≤ c.1) && decide (c.1 < line + 128)

/-- The bytes of all other lines. -/
def otherCells (t : List Host.Cell) (line : Nat) : List Host.Cell :=
  t.filter fun c => !(decide (line ≤ c.1) && decide (c.1 < line + 128))

/-- A line's bytes with dirty ones over them. -/
def overLine (line : Nat) (bs : List Byte) (cells : List Host.Cell) : List Byte :=
  cells.foldl (fun l (c : Host.Cell) => l.set (c.1 - line) c.2) bs

/-- A cache's own copy of a line, if it has one, with cleaned bytes in it. -/
def mergeCopy (t : List (Nat × List Byte)) (line : Nat) (cells : List Host.Cell) : List (Nat × List Byte) :=
  if tabHas t line then tabSet t line (overLine line (tabGet [] t line) cells) else t

/-- Whether listed bytes cover an ECC word, and whether one of them lies in it. -/
def coversWord (cells : List Host.Cell) (w : Nat) : Bool := (List.range 8).all fun i => cells.any fun c => c.1 == 8 * w + i
def touchesWord (cells : List Host.Cell) (w : Nat) : Bool := cells.any fun c => c.1 / 8 == w

/-- Poisoned words after bytes are laid over words of which those of `old` are poisoned; `bad` are the poisoned words from which
the bytes come (R444, R446). -/
def mixPoison (old : List Nat) (cells : List Host.Cell) (bad : List Nat) : List Nat :=
  let kept := old.filter fun w => !coversWord cells w
  kept ++ bad.dedup.filter fun w => touchesWord cells w && !kept.contains w

/-- The listed ECC words of a line, and all others. -/
def lineWords (l : List Nat) (line : Nat) : List Nat := l.filter fun w => w / 16 == line / 128
def otherWords (l : List Nat) (line : Nat) : List Nat := l.filter fun w => w / 16 != line / 128

/-- A line as the L2 of a die shows it. -/
def State.l2Line (s : State) (die : Nat) (p : Phys) : List Byte :=
  let line := lineOf p.pa
  let d := s.getDie die
  let home := if tabHas d.l2c line then tabGet [] d.l2c line else memRead s.mem line 128
  overLine line home (lineCells d.l2 line)

/-- The poisoned words of a line as the L2 of a die shows it. -/
def State.l2Words (s : State) (die : Nat) (p : Phys) : List Nat :=
  let line := lineOf p.pa
  let d := s.getDie die
  if tabHas d.l2c line then lineWords d.l2p line else mixPoison (lineWords s.poison line) (lineCells d.l2 line) d.l2p

/-- The L1 of a core takes a line that it has not, through the L2 of its die; poison comes with it. -/
def State.takeCopy (s : State) (core : Nat) (p : Phys) : State :=
  let line := lineOf p.pa
  let die := dieOfCore core
  if !p.kind.bySoftware || tabHas (s.getCore core).l1c line then s
  else
    let s := if isHome die p || tabHas (s.getDie die).l2c line then s
      else s.setDie die { s.getDie die with
        l2c := tabSet (s.getDie die).l2c line (memRead s.mem line 128)
        l2p := otherWords (s.getDie die).l2p line ++ s.l2Words die p }
    s.setCore core { s.getCore core with
      l1c := tabSet (s.getCore core).l1c line (s.l2Line die p)
      l1p := (s.getCore core).l1p ++ s.l2Words die p }

/-! ## Reading and writing bytes -/

/-- The latest held byte of the slot at an address (R127, R234). -/
def heldPart (parts : List StoreReq) (pa : Nat) (d : Option Byte) : Option Byte :=
  parts.foldl (fun r p =>
    if p.place.pa ≤ pa ∧ pa < p.place.pa + p.bytes.length then some (p.bytes.getD (pa - p.place.pa) 0) else r) d

def heldByte (hs : List HeldStore) (pa : Nat) : Option Byte := hs.foldl (fun r h => heldPart h.parts pa r) none

/-- The byte that a core's cache shows of memory that software keeps consistent. -/
def Core.cacheByte (c : Core) (pa : Nat) : Byte :=
  if tabHas c.l1 pa then tabGet 0 c.l1 pa else (tabGet [] c.l1c (lineOf pa)).getD (pa % 128) 0

/-- The byte a party sees: a slot of core `view` sees its held stores and its core's copy of SWM and domain-window lines; an
engine, a guest or the hardware (`none`) reads at the home (R125, R127). -/
def State.seeByte (s : State) (view : Option Nat) (kind : MemKind) (pa : Nat) : Byte :=
  match view with
  | none => memGet s.mem pa
  | some c =>
    match heldByte s.hot.held pa with
    | some b => b
    | none => if kind.bySoftware && tabHas (s.getCore c).l1c (lineOf pa) then (s.getCore c).cacheByte pa else memGet s.mem pa

def State.seeBytes (s : State) (view : Option Nat) (kind : MemKind) (pa : Nat) : Nat → List Byte
  | 0 => []
  | n + 1 => s.seeByte view kind pa :: s.seeBytes view kind (pa + 1) n

/-- Whether an address is a device register (R94). -/
def State.isDevReg (s : State) (pa : Nat) : Bool := match region s.pkg pa with | .dev _ _ => true | _ => false

/-- Device registers from an offset, doubleword by doubleword. -/
def State.devBytes (s : State) (die off n : Nat) : List Byte :=
  ((List.range ((n + 7) / 8)).flatMap fun i => leBytes (s.devRead die (off + 8 * i)).toNat 8).take n

/-- A line is taken before it is read. -/
def State.takeFor (s : State) (view : Option Nat) (p : Phys) : State :=
  match view with | some c => s.takeCopy c p | none => s

/-- Reads `n` bytes at a place, combining an accumulator line first (R114) and expanding a window (R103). -/
def State.readPlace (s : State) (view : Option Nat) (p : Phys) (n : Nat) : State × List Byte :=
  match p.kind with
  | .acc k =>
    let s := s.combine k (lineOf p.pa)
    (s, s.seeBytes view p.kind p.pa n)
  | .dev =>
    match region s.pkg p.pa with
    | .dev d o => (s, s.devBytes d o n)
    | _ => (s, s.seeBytes view p.kind p.pa n)
  | .spad w =>
    if w = 0 then (s, s.seeBytes view p.kind p.pa n)
    else (s, expandBytes w (s.seeBytes view p.kind p.pa (n / windowScale w)) (n / 4))
  | _ =>
    let s := s.takeFor view p
    (s, s.seeBytes view p.kind p.pa n)

/-- Whether an ECC word is wholly written. -/
def wordWritten (written : List (Nat × Nat)) (w : Nat) : Bool :=
  (List.range 8).all fun i => written.any fun x => decide (x.1 ≤ 8 * w + i) && decide (8 * w + i < x.1 + x.2)

/-- Words wholly written lose their poison (R444). -/
def State.unpoison (s : State) (written : List (Nat × Nat)) : State :=
  if s.poison.isEmpty then s else { s with poison := s.poison.filter fun w => !wordWritten written w }

/-- Words that the stores of one word cover together lose their poison: at their home, or in the core's own copies. -/
def State.unpoisonStores (s : State) (core : Nat) (rs : List StoreReq) : State :=
  let ranges := fun (l : List StoreReq) => l.map fun r => (r.place.pa, r.bytes.length)
  let s := s.unpoison (ranges (rs.filter fun r => !r.place.kind.bySoftware))
  let own := ranges (rs.filter fun r => r.place.kind.bySoftware)
  if own.isEmpty then s
  else s.setCore core { s.getCore core with l1p := (s.getCore core).l1p.filter fun w => !wordWritten own w }

/-- Writes bytes into a sparse byte table, canonical form not needed: a dirty byte may be zero. -/
def cellsWrite (t : List Host.Cell) (a : Nat) : List Byte → List Host.Cell
  | [] => t
  | b :: bs => cellsWrite (tabSet t a b) (a + 1) bs

/-- A plain store to an accumulator line (R115, R449): it sets the combined value of the elements it writes. -/
def State.storeAcc (s : State) (n pa : Nat) (bs : List Byte) : State :=
  let line := lineOf pa
  if s.typed line then
    let st := s.accState line
    let es := accSize st.ty
    let s := if pa % es = 0 ∧ bs.length % es = 0 then s else s.combine n line
    let s := { s with mem := memWrite s.mem pa bs }
    if st.ordered then s.clearSlots n (pa / es * es) ((pa + bs.length + es - 1) / es * es - pa / es * es) st.n else s
  else { s with mem := memWrite s.mem pa bs }

/-- Writes device registers, doubleword by doubleword. -/
def State.devBytesWrite (s : State) (who : Writer) (die off : Nat) (bs : List Byte) : State :=
  (List.range ((bs.length + 7) / 8)).foldl
    (fun s i => s.devWrite who die (off + 8 * i) (word (leNat ((bs.drop (8 * i)).take 8)))) s

/-- Performs one store whose bytes are already in stored form (R104, R125). -/
def State.writePlace (s : State) (view : Option Nat) (who : Writer) (p : Phys) (bs : List Byte) : State :=
  match p.kind with
  | .acc n => (s.storeAcc n p.pa bs).unpoison [(p.pa, bs.length)]
  | .dev =>
    match region s.pkg p.pa with
    | .dev d o => s.devBytesWrite who d o bs
    | _ => ({ s with mem := memWrite s.mem p.pa bs }).unpoison [(p.pa, bs.length)]
  | .swm | .domain =>
    match view with
    | some c =>
      let s := s.takeCopy c p
      s.setCore c { s.getCore c with
        l1 := cellsWrite (s.getCore c).l1 p.pa bs
        l1p := (s.getCore c).l1p.filter fun w => !wordWritten [(p.pa, bs.length)] w }
    | none => ({ s with mem := memWrite s.mem p.pa bs }).unpoison [(p.pa, bs.length)]
  | _ => ({ s with mem := memWrite s.mem p.pa bs }).unpoison [(p.pa, bs.length)]

/-- The stored form of the bytes a program writes at a place (R103). -/
def storedForm (p : Phys) (bs : List Byte) : StoreReq :=
  match p.kind with
  | .spad w => if w = 0 then ⟨p, bs⟩ else ⟨p, narrowBytes w bs (bs.length / 4)⟩
  | _ => ⟨p, bs⟩

/-! ## Cleaning and discarding (R126, R287) -/

/-- Lays bytes over memory, at the home; `bad` are the poisoned words from which they come (R444). -/
def State.writeHome (s : State) (cells : List Host.Cell) (bad : List Nat) : State :=
  { s with
    mem := cells.foldl (fun m (c : Host.Cell) => memSet m c.1 c.2) s.mem
    poison := mixPoison s.poison cells bad }

/-- Lays dirty bytes over a die's L2 copy. -/
def overlay (t cells : List Host.Cell) : List Host.Cell := cells.foldl (fun t (c : Host.Cell) => tabSet t c.1 c.2) t

/-- The L2 of a die writes its dirty bytes of a line home, with `more` over them, which come from words of which `bad` are
poisoned; its copy stays. -/
def State.cleanL2 (s : State) (die line : Nat) (more : List Host.Cell) (bad : List Nat) : State :=
  let d := s.getDie die
  let cells := overlay (lineCells d.l2 line) more
  let p := mixPoison d.l2p more bad
  (s.setDie die { d with
    l2 := otherCells d.l2 line
    l2c := mergeCopy d.l2c line cells
    l2p := if tabHas d.l2c line then p else otherWords p line }).writeHome cells p

/-- `CLEAN` of a line by a core: to the die's L2, or, `wide`, to its home. The line stays in the L1. -/
def State.cleanLine (s : State) (core : Nat) (p : Phys) (wide : Bool) : State :=
  let line := lineOf p.pa
  let die := dieOfCore core
  let c := s.getCore core
  let dirty := lineCells c.l1 line
  let s := s.setCore core { c with l1 := otherCells c.l1 line, l1c := mergeCopy c.l1c line dirty }
  if isHome die p then s.writeHome dirty c.l1p
  else if wide then s.cleanL2 die line dirty c.l1p
  else s.setDie die { s.getDie die with
    l2 := overlay (s.getDie die).l2 dirty
    l2p := mixPoison (s.getDie die).l2p dirty c.l1p }

/-- `INVL` of a line by a core. -/
def State.invalLine (s : State) (core : Nat) (p : Phys) (wide : Bool) : State :=
  let line := lineOf p.pa
  let die := dieOfCore core
  let c := s.getCore core
  let s := s.setCore core { c with l1 := otherCells c.l1 line, l1c := tabErase c.l1c line, l1p := otherWords c.l1p line }
  if wide && !isHome die p then
    let d := s.getDie die
    s.setDie die { d with l2 := otherCells d.l2 line, l2c := tabErase d.l2c line, l2p := otherWords d.l2p line }
  else s

/-- The L1 of a core evicts a line of software-kept memory: dirty bytes go to the die's L2 (R105, R126). -/
def State.evictCopy (s : State) (core : Nat) (p : Phys) : State := (s.cleanLine core p false).invalLine core p false

/-- The L2 of a die evicts such a line: dirty bytes go home. -/
def State.evictL2 (s : State) (die line : Nat) : State :=
  let s := s.cleanL2 die line [] []
  s.setDie die { s.getDie die with
    l2c := tabErase (s.getDie die).l2c line
    l2p := otherWords (s.getDie die).l2p line }

end Sys2Proof.Machine
end

