-- ==== Sys2Proof/Machine/Cache.lean ====
section
/-!
DEFINITION. Coherent agents, classified pages and the states of lines (R151 to R160, R162), and what an access asks of
them: a hit, a request, an eviction, a recall. The bytes of a line are held once, in memory (log 7): the states say who
may use them.
-/
namespace Sys2Proof.Machine

/-! ## Agents (R152, R160) -/

/-- The proxy of a die as an agent, and the home slice or proxy directory of a die as the target of data. -/
def proxyOf (die : Nat) : Nat := die * 256 + 255
def homeAgent (die : Nat) : Nat := die * 256 + 254
def isProxy (agent : Nat) : Bool := agent % 256 == 255
def isHomeAgent (agent : Nat) : Bool := agent % 256 == 254
/-- The coherence agent of a host port. -/
def hostAgent (port : Fin 2) : Nat := (if port = 0 then 0 else 23) * 256 + 136
def isHostAgent (agent : Nat) : Bool := agent % 256 == 136

/-- Whether the Shawm of an agent is out of service (R355, R457). -/
def Package.shawmOut (p : Package) (agent : Nat) : Bool :=
  let hart := 4 * (agent / 256) + (agent % 256 - 132)
  decide (132 ≤ agent % 256) && decide (agent % 256 < 136) && (p.record.shawmsOut.contains hart || p.shawmsReset.contains hart)

/-- A DZ core, or a Shawm in service: the agents that may own a page. -/
def State.ownerAgent (s : State) (a : Nat) : Bool :=
  decide (a / 256 < 24) && decide (a % 256 < 136) && !s.package.shawmOut a

/-- The agents that may hold lines: those, the host agents of dies 0 and 23, and the proxies. -/
def State.cacheAgent (s : State) (a : Nat) : Bool :=
  s.ownerAgent a || a == hostAgent 0 || a == hostAgent 1 || (isProxy a && decide (a / 256 < 24))

/-! ## Tables -/

/-- State of a line in a cache; none is I. -/
def State.cst (s : State) (line a : Nat) : Option CState :=
  if tabHas s.caches (line * 8192 + a) then some (tabGet .s s.caches (line * 8192 + a)) else none
def State.setCst (s : State) (line a : Nat) (x : Option CState) : State :=
  { s with caches := match x with
    | some x => tabSet s.caches (line * 8192 + a) x
    | none => tabErase s.caches (line * 8192 + a) }

/-- State of a line at the home or proxy directory of a die; none is I. -/
def State.hst (s : State) (line die : Nat) : Option HState :=
  if tabHas s.homes (line * 32 + die) then some (tabGet (.rc 0) s.homes (line * 32 + die)) else none
def State.setHst (s : State) (line die : Nat) (x : Option HState) : State :=
  { s with homes := match x with
    | some x => tabSet s.homes (line * 32 + die) x
    | none => tabErase s.homes (line * 32 + die) }

/-- A line of a host window of class HCO, which the agent of its port keeps (R162). -/
def State.isHco (s : State) (line : Nat) : Bool := match region s.pkg line with | .host _ => true | _ => false

/-- The home die of a line; an HCO line is kept on the die of its port (R107, R162). -/
def State.lineHome (s : State) (line : Nat) : Nat :=
  match region s.pkg line with | .host j => if j = 0 then 0 else 23 | _ => homeDie line

/-- The die whose directory an agent asks: its own, or for a proxy the line's home (R160). -/
def State.levelOf (s : State) (line a : Nat) : Nat := if isProxy a then s.lineHome line else a / 256

/-! ## Pages (R153) -/

/-- The classified page that holds an address, by the address of its leaf PTE. Where several leaf PTEs map the page, the spec
does not say whose owner field governs (R156): the one at the lowest address does. DESIGN CHOICE (log 57), unsafe. -/
def State.pageOf (s : State) (pa : Nat) : Option (Nat × Page) := s.pages.find? fun p => leafHolds p.2.leaf pa

/-- The private owner of the page of an address. -/
def State.privateOwner (s : State) (pa : Nat) : Option Nat :=
  match s.pageOf pa with
  | some (_, p) => match p.owner with | .priv d a => some (d * 256 + a) | _ => none
  | none => none

/-- Whether a slot waits to make the access for which it claimed a page (R154, step 2). -/
def Slot.claims (x : Slot) (pte : Nat) : Bool :=
  x.active && x.phase == .running && x.did == .stalled && x.claiming == some (pte, x.order)

/-- Whether an agent's accesses to the page of an address go on: it owns the page or the page is
shared, and no recall is under way (R153 to R155), but for the access that made the owner's claim (R154). -/
def State.pageReady (s : State) (pa agent : Nat) : Bool :=
  match s.pageOf pa with
  | some (pte, p) => match p.owner with
    | .priv d a => agent == d * 256 + a && (!p.recalling || (s.core == agent && s.hot.claims pte))
    | .shared => !p.evicting
    | .none => false
  | none => false

/-! ## Lines -/

/-- A state on its way to another. -/
def CState.moving : CState → Bool
  | .s | .e | .m => false
  | _ => true

/-- A state in which a load hits (R159). -/
def CState.reads : CState → Bool
  | .s | .e | .m | .smAD _ | .smA _ => true
  | _ => false

/-- Whether an agent may hold copies of a line of a kind (R151). -/
def State.mayCache (s : State) (kind : MemKind) (line a : Nat) : Bool :=
  match kind with
  | .hco => decide (a / 256 < 24) && (decide (a % 256 < 132) || isProxy a)
  | .coh => s.cacheAgent a && (isProxy a || (isHostAgent a && (s.privateOwner line).isNone) || s.pageReady line a)
  | _ => false

/-- Memory that the protocol keeps consistent. -/
def MemKind.byHardware : MemKind → Bool | .coh | .hco => true | _ => false

/-- Whether a line is one of a private page of an agent: its copies have no directory entry (R156). -/
def State.ownPage (s : State) (line a : Nat) : Bool := s.privateOwner line == some a

/-- An eviction: of a line of a private page, silent when clean; of another, announced. A proxy evicts a line that no agent
of its die holds. -/
def State.evictLine (s : State) (line a : Nat) : State :=
  if isProxy a && (s.hst line (a / 256)).isSome then s
  else match s.cst line a with
    | some .s => (s.setCst line a (some .siA)).post (.puts line a true)
    | some .e => if s.ownPage line a then s.setCst line a none else (s.setCst line a (some .miA)).post (.pute line a true)
    | some .m => (s.setCst line a (some .miA)).post (.putm line a true)
    | _ => s

/-! ## Recalls by the home (R144, R155 to R157) -/

/-- A recall of a line from every holder that a directory records, as a GetM by the home itself. -/
def State.homeRecall (s : State) (line die : Nat) : State :=
  match s.hst line die with
  | some (.s l) => l.foldl (fun s c => s.post (.inv line c (homeAgent die))) (s.setHst line die (some (.rc l.length)))
  | some (.o o) => (s.setHst line die (some (.rc 1))).post (.fwdGetm line o (homeAgent die))
  | _ => s

/-! ## Room (R12, R15, R105, R107) -/

/-- The lines that the caches of an agent have: under the protocol of R159, evictions under way included, and copies of memory
that software keeps consistent, in a DZ L1 or, at a die's proxy, in the L2 of the die. -/
def State.cachedLines (s : State) (a : Nat) : List Nat :=
  (s.caches.filterMap fun (c : Nat × CState) => if c.1 % 8192 == a then some (c.1 / 8192) else none) ++
    (if isProxy a then (s.getDie (a / 256)).l2c.map (·.1) else if a % 256 < 132 then (s.getCore a).l1c.map (·.1) else [])

/-- Whether two lines compete for the ways of one set of the caches of an agent: in a DZ L1 by PA[14:7] (R105), in an L2 by
slice and set (R107). A Shawm's caches are taken whole, for the spec gives them no sets. DESIGN CHOICE (log 73), unsafe. -/
def sameSet (a x y : Nat) : Bool :=
  if isProxy a then sliceOf x == sliceOf y && sliceSet x == sliceSet y
  else if a % 256 < 132 then x / 128 % 256 == y / 128 % 256 else true

/-- Ways of such a set: 20 of a DZ L1, 24 of an L2 slice; the lines of a Shawm's 64 KiB and 2 MiB. A host's caches are its own. -/
def waysOf (a : Nat) : Option Nat :=
  if isProxy a then some 24 else if a % 256 < 132 then some 20 else if a % 256 < 136 then some (512 + 16384) else none

/-- Whether the caches of an agent have room for lines that they have not. -/
def State.fits (s : State) (a : Nat) (new : List Nat) : Bool :=
  match waysOf a with
  | none => true
  | some n => new.all fun l => decide (((s.cachedLines a).filter (sameSet a l)).length + (new.filter (sameSet a l)).length ≤ n)

/-- The event with which an eviction of a line begins. -/
def State.evictEvent (s : State) (line a : Nat) : Event :=
  match s.cst line a with
  | some .s => .puts line a false
  | some .e => .pute line a false
  | _ => .putm line a false

/-- A cache without room begins to evict a line that competes with a new one, once; not one that the same word needs, nor one
on its way. A die's L2 first has the agents of its die give the line up. Which line goes the spec does not say: DESIGN CHOICE
(log 73), unsafe. -/
def State.makeRoom (s : State) (a line : Nat) (keep : List Nat) : State :=
  let movable := fun v => match s.cst v a with | some x => !x.moving | none => true
  match (s.cachedLines a).find? fun v => sameSet a v line && !keep.contains v && movable v with
  | some v =>
    if isProxy a && (s.hst v (a / 256)).isSome then s.homeRecall v (a / 256)
    else if s.agenda.contains (s.evictEvent v a) then s else s.post (s.evictEvent v a)
  | none => s

/-! ## Misses (R159) -/

/-- A load that misses sends its request, where the cache has room for the line; `keep` are the lines that the word needs. -/
def State.missLoad (s : State) (kind : MemKind) (keep : List Nat) (line a : Nat) : State :=
  if s.mayCache kind line a && (s.cst line a).isNone then
    if s.fits a [line] then (s.setCst line a (some .isD)).post (.gets line a true) else s.makeRoom a line keep
  else s

/-- A store that misses, or that hits a copy it may not write, sends its request; a store to a line in E makes it M silently. -/
def State.missStore (s : State) (kind : MemKind) (keep : List Nat) (line a : Nat) : State :=
  if s.mayCache kind line a then
    match s.cst line a with
    | none =>
      if s.fits a [line] then (s.setCst line a (some (.imAD 0))).post (.getm line a true) else s.makeRoom a line keep
    | some .s => (s.setCst line a (some (.smAD 0))).post (.getm line a true)
    | some .e => s.setCst line a (some .m)
    | _ => s
  else s

/-- Whether no cache has a copy of a line, and none is about to get one: of a private page, at its owner; of another line, by
the home's directory. -/
def State.lineFree (s : State) (line : Nat) : Bool :=
  match s.privateOwner line with
  | some o => (s.cst line o).isNone
  | none => (s.hst line (s.lineHome line)).isNone

/-- Whether atomics to a line wait at its home (R62). -/
def State.atomicQueued (s : State) (line : Nat) : Bool := s.atHome.any fun a => lineOf a.1.pa == line

/-- A recall of one line from whoever holds it, put on its way once. -/
def State.recallLine (s : State) (line : Nat) : State :=
  match s.privateOwner line with
  | some o =>
    let e : Event := .fwdGetm line o (homeAgent (s.lineHome line))
    match s.cst line o with
    | some .e | some .m => if s.agenda.contains e then s else s.post e
    | _ => s
  | none => s.homeRecall line (s.lineHome line)

/-- The port's agent obtains an HCO line from the host: by RdShared, or to own it by RdOwn (R162). -/
def State.obtain (s : State) (line : Nat) (own : Bool) : State :=
  if s.isHco line then
    { s with hco := tabSet s.hco line (own || (tabHas s.hco line && tabGet false s.hco line)) }
  else s

/-- Whether the home may give a line exclusively: always, but for an HCO line that the port's agent has only shared. -/
def State.homeOwns (s : State) (line : Nat) : Bool := !s.isHco line || tabGet false s.hco line

/-- No copy of a HCO line is left at the port's agent: DirtyEvict or CleanEvict (R162). -/
def State.giveBack (s : State) (line : Nat) : State := { s with hco := tabErase s.hco line }

/-! ## Hits (R159) -/

/-- Whether a load of a kind hits in the cache of an agent. -/
def State.loadHits (s : State) (kind : MemKind) (line a : Nat) : Bool :=
  !kind.byHardware || (s.mayCache kind line a && match s.cst line a with | some x => x.reads | none => false)

/-- Whether a store of a kind performs: its line is in no state on its way, or there is room for it, and the page is the agent's
to use. -/
def State.storeHits (s : State) (kind : MemKind) (line a : Nat) : Bool :=
  !kind.byHardware || (s.mayCache kind line a && match s.cst line a with | some x => !x.moving | none => s.fits a [line])

end Sys2Proof.Machine
end

