-- ==== Sys2Proof/Machine/Table.lean ====
section
/-!
DEFINITION. The tables of a context, as the hardware reads and writes them (R494), and the two that name places: the core
table (R33, R100, R120) and the route table (R37, R464).
-/
namespace Sys2Proof.Machine

/-! ## Reading and writing tables (R494) -/

/-- The die by which the hardware's own accesses to tables find a memory class: one that has no TLB and no copy of the MCT.
The spec names no TLB for these accesses: each walks the page tables and reads the MCT in memory. DESIGN CHOICE (log 84),
unsafe. -/
def tableDie : Nat := 32

/-- The leaf and place of an address of a context's table, with supervisor rights; U is not tested, and a write needs W. A
place in a domain window needs a way to its package (R440, detail 7). -/
def State.tablePlaceBy (s : State) (way : Nat → Bool) (c : Nat) (va : Word) (write : Bool) : Option (Leaf × Phys) :=
  if !canonical va || inAperture va then none
  else match s.walk tableDie (s.getCtx c).asidr va.toNat with
    | .error _ => none
    | .ok l =>
      if !(if write then l.w else l.r) then none
      else match s.classify tableDie (l.pa + va.toNat % 2 ^ l.size) with
        | .error _ => none
        | .ok p =>
          match region s.pkg p.pa with
          | .domain pkg _ => if way pkg then some (l, p) else none
          | _ => some (l, p)

/-- The parts of a range of addresses that lie in one line each: address and length. -/
def lineParts (va : Word) (n : Nat) : Nat → List (Word × Nat)
  | 0 => []
  | fuel + 1 =>
    if n = 0 then []
    else
      let k := min n (128 - va.toNat % 128)
      (va, k) :: lineParts (va + word k) (n - k) fuel

/-- The parts of a table access. -/
def tableParts (va : Word) (n : Nat) : List (Word × Nat) := lineParts va n (n / 128 + 2)

/-- Whether bytes at a place meet poison, in the line or in the slot lines that a read combines (R444, R450). -/
def State.placePoison (s : State) (p : Phys) (n : Nat) : Bool :=
  !s.poison.isEmpty && ((List.range ((p.pa + n - 1) / 8 + 1 - p.pa / 8)).map (p.pa / 8 + ·)).any fun w =>
    s.poison.contains w || match p.kind with
      | .acc k =>
        let st := s.accState (lineOf p.pa)
        s.typed (lineOf p.pa) && st.dirty && (List.range st.n).any fun j => s.poison.contains (slotLine k (8 * w) j / 8)
      | _ => false

/-- One part of a hardware read: the bytes, if translation, access and poison allow it; A is set in its PTE (R98). -/
def State.tablePart (s : State) (way : Nat → Bool) (c : Nat) (x : Word × Nat) : State × Option (List Byte) :=
  match s.tablePlaceBy way c x.1 false with
  | none => (s, none)
  | some (l, p) =>
    let s := s.setAD l false
    if s.placePoison p x.2 then (s, none) else ((s.readPlace none p x.2).1, some (s.readPlace none p x.2).2)

/-- The parts of a hardware read in order; all or none. -/
def State.tableReadParts (s : State) (way : Nat → Bool) (c : Nat) : List (Word × Nat) → State × Option (List Byte)
  | [] => (s, some [])
  | x :: t =>
    match s.tablePart way c x with
    | (s, none) => (s, none)
    | (s, some bs) =>
      match s.tableReadParts way c t with
      | (s, none) => (s, none)
      | (s, some rest) => (s, some (bs ++ rest))

/-- A hardware read of `n` bytes of a table, as a little-endian number; none if it fails. -/
def State.tableAccessBy (s : State) (way : Nat → Bool) (c : Nat) (va : Word) (n : Nat) : State × Option Nat :=
  match s.tableReadParts way c (tableParts va n) with
  | (s, some bs) => (s, some (leNat bs))
  | (s, none) => (s, none)

/-! ## Routes to other packages (R37, R440, R459, R464, R469) -/

/-- What the route table says of a package. -/
inductive Route where
  | open (port : Nat)
  /-- No entry, or a port that is out of service, disabled or not accepted. -/
  | shut
  /-- The entry could not be read, or bits [63:7] are not zero: the context is made dead (R464). -/
  | unreadable
deriving DecidableEq, Repr

/-- A read of a context's route entry for a package: A is set in the PTE that it translates through. With `ROUTETAB` zero
there is no table, and the table itself may not lie in another package's memory, which only it could tell the way to.
DESIGN CHOICE (log 10), safe. -/
def State.routeAccess (s : State) (c pkg : Nat) : State × Route :=
  let t := (s.getCtx c).routetab
  if t = 0 then (s, .shut)
  else match s.tableAccessBy (fun _ => false) c (t + word (8 * pkg)) 8 with
    | (s, none) => (s, .unreadable)
    | (s, some e) => (s, if e / 128 ≠ 0 then .unreadable else if s.package.portOk e then .open e else .shut)

def State.route (s : State) (c pkg : Nat) : Route := (s.routeAccess c pkg).2
def State.routeTouch (s : State) (c pkg : Nat) : State := (s.routeAccess c pkg).1

/-- Whether a context's messages and accesses have a way to a package. -/
def State.way (s : State) (c pkg : Nat) : Bool := match s.route c pkg with | .open _ => true | _ => false

def State.tablePlace (s : State) (c : Nat) (va : Word) (write : Bool) : Option (Leaf × Phys) :=
  s.tablePlaceBy (s.way c) c va write

/-- A hardware read, through domain windows too. -/
def State.tableAccess (s : State) (c : Nat) (va : Word) (n : Nat) : State × Option Nat := s.tableAccessBy (s.way c) c va n

/-- The value that a hardware read returns. -/
def State.tableRead (s : State) (c : Nat) (va : Word) (n : Nat) : Option Nat := (s.tableAccess c va n).2

/-- What a hardware read leaves behind: A in the PTEs, combined accumulator lines. -/
def State.tableTouch (s : State) (c : Nat) (va : Word) (n : Nat) : State := (s.tableAccess c va n).1

/-- The leaves and places of the parts of a write; all or none. -/
def State.tablePlaces (s : State) (c : Nat) : List (Word × Nat) → Option (List (Leaf × Phys × Nat))
  | [] => some []
  | x :: t =>
    match s.tablePlace c x.1 true, s.tablePlaces c t with
    | some (l, p), some rest => some ((l, p, x.2) :: rest)
    | _, _ => none

/-- Writes the parts in order, with supervisor rights (R494); A and D are set in their PTEs. -/
def State.tableWriteParts (s : State) (c : Nat) (bs : List Byte) : List (Leaf × Phys × Nat) → State
  | [] => s
  | (l, p, k) :: t => ((s.setAD l true).writePlace none (.slot c true) p (bs.take k)).tableWriteParts c (bs.drop k) t

/-- A hardware write to a table, ring or save record; none if it fails. -/
def State.tableWrite (s : State) (c : Nat) (va : Word) (bs : List Byte) : Option State :=
  (s.tablePlaces c (tableParts va bs.length)).map fun l => s.tableWriteParts c bs l

/-! ## The core table (R33, R100, R120) -/

/-- A core-table entry that names a core (R33). -/
structure CtEntry where
  pkg : Nat
  die : Nat
  pcore : Nat
  pbase : Nat
  psize : Nat
  gfirst : Nat
  gsize : Nat
deriving DecidableEq, Repr

/-- Reads an entry; one that breaks R33 counts as V = 0. -/
def ctDecode (w : Word) : Option CtEntry :=
  let e : CtEntry := ⟨w.bits 57 6, w.bits 52 5, w.bits 44 8, w.bits 40 4, w.bits 36 4, w.bits 20 16, w.bits 4 16⟩
  if w.bit 63 && decide (e.die ≤ 23) && decide (e.pcore ≤ 131) && decide (e.pbase + e.psize + 1 ≤ 12) && w.bits 0 4 == 0
  then some e else none

/-- What a lookup in a core table answers. -/
inductive CtLookup where
  /-- The table could not be read: the context is made dead (R494, R464). -/
  | unreadable
  /-- No valid entry. -/
  | unmapped
  | entry (w : Word) (e : CtEntry)
deriving DecidableEq, Repr

/-- Reads the entry of logical core `k` from the table in memory (R33); A is set in the PTEs that it translates through
(R98, R494). -/
def State.ctAccess (s : State) (c k : Nat) : State × CtLookup :=
  let base := (s.getCtx c).coretab
  match s.tableAccess c base 4 with
  | (s, none) => (s, .unreadable)
  | (s, some n) =>
    if n ≤ k ∨ 0xFFFF ≤ k then (s, .unmapped)
    else match s.tableAccess c (base + 64 + word (8 * k)) 8 with
      | (s, none) => (s, .unreadable)
      | (s, some x) => (s, match ctDecode (word x) with | some e => .entry (word x) e | none => .unmapped)

def State.ctRead (s : State) (c k : Nat) : CtLookup := (s.ctAccess c k).2
def State.ctTouch (s : State) (c k : Nat) : State := (s.ctAccess c k).1

/-- The entry as a core sees it: its core-table cache first (R120). An engine has a cache of its own of as many entries, where
the spec speaks of cores only. DESIGN CHOICE (log 54), unsafe. -/
def State.ctLookup (s : State) (core c k : Nat) : CtLookup :=
  match (s.getCore core).ctCache.find? fun x => x.1 == c && x.2.1 == k with
  | some (_, _, w) => match ctDecode w with | some e => .entry w e | none => .unmapped
  | none => s.ctRead c k

/-- Records a valid entry in a core's core-table cache of 32 entries (R120); a new entry displaces the one filled longest
ago, where the spec names none. DESIGN CHOICE (log 53), unsafe. -/
def State.ctFill (s : State) (core c k : Nat) (w : Word) : State :=
  let x := s.getCore core
  if x.ctCache.any fun y => y.1 == c && y.2.1 == k then s
  else (s.ctTouch c k).setCore core { x with ctCache := ((c, k, w) :: x.ctCache).take 32 }

/-- What a lookup that finds no entry leaves behind: the table has been read. -/
def State.ctMiss (s : State) (core c k : Nat) : State :=
  if (s.getCore core).ctCache.any fun y => y.1 == c && y.2.1 == k then s else s.ctTouch c k

/-- Raw base of the physical share of a core (R100). -/
def shareBase (die pcore : Nat) : Nat :=
  spadBase + die * 0x40000000 +
    (if pcore < 128 then pcore / 4 * 0x100000 + pcore % 4 * 0x40000 else 0x20000000 + (pcore - 128) * 0x200000)

/-- The raw address of a share offset of a core-table entry; another package's bytes lie above the map. -/
def shareAddr (pkg : Nat) (e : CtEntry) (o : Nat) : Nat :=
  let a := shareBase e.die e.pcore + o
  if e.pkg = pkg then a else remoteBase + e.pkg * 2 ^ 48 + a

/-! ## The housekeeping partition (R360, R361) -/

/-- Whether an access lies in one range of the housekeeping hart's table, which is locked before its firmware starts (R354,
R361). -/
def Package.inPartition (p : Package) (pa n : Nat) : Bool :=
  p.locked && p.ranges.any fun r => decide (r.1 ≤ pa) && decide (pa + n ≤ r.1 + r.2)

/-- Whether bytes meet the memory that a context's range of addresses maps to. -/
def State.mapsTo (s : State) (c : Nat) (va : Word) (n pa len : Nat) : Bool :=
  (List.range (n / 4096 + 2)).any fun i =>
    match s.tablePlaceBy (fun _ => true) c ((va &&& ~~~(4095#64)) + word (4096 * i)) false with
    | some (_, p) => decide (p.pa < pa + len) && decide (pa < p.pa + 4096)
    | none => false

/-- Whether bytes meet the MCT, or the core table, route table or save area of a context (R109, R33, R37, R57). -/
def State.meetsTables (s : State) (pa len : Nat) : Bool :=
  let mct := s.mctbase.toNat / 4096 * 4096 % 2 ^ 52
  (s.mctbase.bit 0 && decide (mct < pa + len) && decide (pa < mct + 2 ^ 23)) ||
  s.ctxs.any fun (x : Nat × Context) =>
    let n := (s.tableRead x.1 x.2.coretab 4).getD 0
    x.2.live && (s.mapsTo x.1 x.2.coretab (64 + 8 * n) pa len || (x.2.routetab != 0 && s.mapsTo x.1 x.2.routetab 512 pa len) ||
      s.mapsTo x.1 x.2.csave (16384 * n) pa len)

/-- Whether the housekeeping hart may make an access: in its partition, and writing none of the tables that R360 keeps from it,
whatever the partition says. DEDUCED (log 83), safe. -/
def State.housekeepingMay (s : State) (pa n : Nat) (write : Bool) : Bool :=
  s.package.inPartition pa n && !(write && s.meetsTables pa n)

/-- The agent that the housekeeping hart, Shawm 0 of die 0, is. -/
def housekeepingAgent : Nat := 132

end Sys2Proof.Machine
end

