-- ==== Sys2Proof/Machine/Translate.lean ====
section
/-!
DEFINITION. The translation of an access: the aperture (R99, R100), TLBs and walks (R97, R98, R118, R119, R438), claims of
COH pages (R153), and the kind of memory that an address reaches (R440).
-/
namespace Sys2Proof.Machine

/-! ## Translating an access -/

/-- Who makes an access: the address space, and the logical core and slot of R100 step 4. -/
structure Who where
  ctx : Nat
  lcore : Nat
  slot : Nat
  supervisor : Bool
  core : Nat
  engine : Bool
  /-- The ASID that tags its translations: of the context now, or as a packet or command carries it (R232, R313). -/
  asid : Nat
deriving DecidableEq, Repr

/-- The ASID of a context. -/
def State.asidOf (s : State) (c : Nat) : Nat := (s.getCtx c).asidr.bits 44 16

/-- The executing activation. -/
def State.me (s : State) : Who := ⟨s.hot.ctx, s.hot.lcore, s.hotId % 4, s.hot.supervisor, s.core, false, s.asidOf s.hot.ctx⟩

/-- What an access needs of a translation. -/
structure Need where
  read : Bool
  write : Bool
  exec : Bool
deriving DecidableEq, Repr

/-- The failure of a translation or access: a page reason of R438, or an ACCESS reason of R440, or a table that could
not be read, which makes the context dead. -/
inductive TFault where
  | page (detail : Nat)
  /-- With the number of the window through which the access goes, if it goes through one. -/
  | access (detail window : Nat)
  | dead
deriving DecidableEq, Repr

/-- Aperture translation (R100). -/
def State.transAperture (s : State) (w : Who) (va : Word) : State × Except TFault Phys :=
  let a := va.toNat - 0x00F0000000000000
  let win := a / 0x0001000000000000
  let off := a % 0x0001000000000000
  if win = 7 then (s, .error (.access 4 win))
  else
    let x := windowScale win
    let k := off / (262144 * x)
    let o := off % (262144 * x) / x
    match s.ctLookup w.core w.ctx k with
    | .unreadable => (s.ctMiss w.core w.ctx k, .error .dead)
    | .unmapped => (s.ctMiss w.core w.ctx k, .error (.page 10))
    | .entry raw e =>
      let s := s.ctFill w.core w.ctx k raw
      let place : Option Nat :=
        if o < 16384 * (e.psize + 1) then some (shareAddr s.pkg e (e.pbase * 16384 + o))
        else if 0x30000 ≤ o ∧ o < 0x34000 ∧ k = w.lcore ∧ !w.engine then
          some (shareAddr s.pkg e (0x30000 + w.slot * 0x4000 + (o - 0x30000)))
        else none
      match place with
      | none => (s, .error (.page 11))
      | some pa =>
        match (if e.pkg = s.pkg then (s, Route.open 0) else s.routeAccess w.ctx e.pkg) with
        | (s, .unreadable) => (s, .error .dead)
        | (s, .shut) => (s, .error (.access 7 win))
        | (s, .open _) => (s, .ok ⟨.spad win, pa⟩)

/-- Whether a TLB entry translates an address in an address space. -/
def leafCovers (e : TlbEntry) (asid va : Nat) : Bool :=
  (e.global || e.asid == asid) && e.base == va / 2 ^ e.size * 2 ^ e.size

/-- The permission test of a leaf: detail 3 before detail 2 (R438). -/
def permFault (supervisor u r w x : Bool) (n : Need) : Option Nat :=
  if !supervisor && !u then some 3
  else if (n.read && !r) || (n.write && !w) || (n.exec && !x) then some 2
  else none

/-! ## TLBs (R118, R119) -/

/-- Entries of a TLB. Each matrix engine is given one load pipe with a TLB, and each BTE a TLB of the same size, where the
spec counts neither; a Shawm hart's own TLB has as many as a DZ core's, where the spec gives no number. DESIGN CHOICE (log
54), unsafe. -/
def tlbPlaces (core : Nat) : Nat :=
  let n := pcoreOf core
  if n < 160 then 64 else if n < 192 then 128 else if n < 224 then 1024 else 8192

/-- Whether a leaf's authoritative owner field lies in the LL-TLB of a die (R153). -/
def State.holdsField (s : State) (die : Nat) (e : TlbEntry) : Bool := homeDie e.pte == die && tabHas s.pages e.pte

/-- The entry that a full TLB gives up for a new one, of those that it had: the one filled longest ago; of an LL-TLB, that among those without an authoritative
owner field while there is one (R155). Which one goes is otherwise open: DESIGN CHOICE (log 53), unsafe. -/
def State.victim (s : State) (key : Nat) (l : List TlbEntry) : Option TlbEntry :=
  if pcoreOf key = 224 then
    match l.reverse.find? fun e => !s.holdsField (dieOfCore key) e with
    | some e => some e
    | none => l.getLast?
  else l.getLast?

/-- A TLB that its newest entry has overfilled gives one up; if an LL-TLB gives up an authoritative field, its eviction begins (R155). -/
def State.giveUpLeaf (s : State) (key : Nat) : State :=
  let c := s.getCore key
  if c.tlb.length ≤ tlbPlaces key then s
  else match s.victim key (c.tlb.drop 1) with
    | none => s
    | some e =>
      let s := s.setCore key { c with tlb := c.tlb.erase e }
      if pcoreOf key = 224 && s.holdsField (dieOfCore key) e then s.post (.llTlbEviction e.pte) else s

/-- An entry is held in a TLB, in front of the others. -/
def State.holdLeaf (s : State) (e : TlbEntry) (key : Nat) : State :=
  let c := s.getCore key
  let old := c.tlb.filter fun x => !(x.base == e.base && x.size == e.size && x.asid == e.asid)
  (s.setCore key { c with tlb := e :: old }).giveUpLeaf key

/-- The nearest entry that translates an address. -/
def State.tlbFind (s : State) (core asid va : Nat) (write : Bool) : Option TlbEntry :=
  (tlbLevels core).findSome? fun k => (s.getCore k).tlb.find? fun e => leafCovers e asid va && (!write || e.dirty)

/-- A leaf as a TLB holds it. -/
def tlbEntryOf (asid va : Nat) (l : Leaf) (write : Bool) : TlbEntry :=
  ⟨asid, l.g, va / 2 ^ l.size * 2 ^ l.size, l.size, l.pa, l.r, l.w, l.x, l.u, write || nbit l.pte 7, l.pteAddr, none, []⟩

/-- The copies of an owner field in the TLBs of an agent take a mark (R153, R154). -/
def State.markLeaf (s : State) (agent pte : Nat) (own : Bool) : State :=
  (tlbLevels agent).foldl (fun s k =>
    let c := s.getCore k
    s.setCore k { c with tlb := c.tlb.map fun (e : TlbEntry) => if e.pte = pte then { e with mark := some own } else e }) s

/-! ## Claims (R153) -/

/-- A claim of an agent on its way to the classifying die, once. -/
def State.sendClaim (s : State) (e : TlbEntry) (agent : Nat) (mayOwn : Bool) : State :=
  let m : Event := .claim { e with classes := [] } agent mayOwn
  if s.agenda.contains m then s else s.post m

/-- A walk that ends at a COH leaf sends a claim. A leaf larger than a granule of the MCT may span classes; the class of its
base decides, where the spec is silent. DESIGN CHOICE (log 55), unsafe. -/
def State.claimLeaf (s : State) (w : Who) (e : TlbEntry) : State :=
  match s.classifyBy (tlbLevels w.core) e.pa with
  | .ok ⟨.coh, _⟩ => s.sendClaim e w.core (!w.engine && s.ownerAgent w.core)
  | _ => s

/-- An access that finds its page unclaimed, or private to another, sends a claim through the entry that translates it: the
spec speaks of walkers only, and an entry that another agent's walk filled would else never be claimed. DESIGN CHOICE
(log 56), unsafe. -/
def State.reclaim (s : State) (w : Who) (va : Word) : State :=
  match s.tlbFind w.core w.asid (va.toNat % 2 ^ 57) false with
  | some e => s.sendClaim e w.core (!w.engine && s.ownerAgent w.core)
  | none => s

/-- Page translation through the TLBs, else a walk that fills them (R98, R118). -/
def State.transLeaf (s : State) (w : Who) (va : Word) (n : Need) : State × Except TFault Nat :=
  let asidr := (s.getCtx w.ctx).asidr
  let v := va.toNat % 2 ^ 57
  if asidr.bits 60 4 ≠ 10 then (s, .error (.page 6))
  else
    match s.tlbFind w.core w.asid v n.write with
    | some e =>
      match permFault w.supervisor e.u e.r e.w e.x n with
      | some d => (s, .error (.page d))
      | none => (if (s.getCore w.core).tlb.contains e then s else s.holdLeaf e w.core, .ok (e.pa + v % 2 ^ e.size))
    | none =>
      match s.walk (dieOfCore w.core) asidr v with
      | .error d => (s, .error (.page d))
      | .ok l =>
        match permFault w.supervisor l.u l.r l.w l.x n with
        | some d => (s, .error (.page d))
        | none =>
          let e := tlbEntryOf w.asid v l n.write
          ((tlbLevels w.core).foldl (fun s k => s.holdLeaf e k) ((s.setAD l n.write).claimLeaf w e), .ok (l.pa + v % 2 ^ l.size))

/-- Page translation, after which the entries that serve the address hold the class of its granule (R119). -/
def State.transPage (s : State) (w : Who) (va : Word) (n : Need) : State × Except TFault Nat :=
  match s.transLeaf w va n with
  | (s, .ok pa) => (s.noteClass (tlbLevels w.core) pa, .ok pa)
  | r => r

/-- The translation of one address (R98, R100) with the kind of memory it reaches (R440). -/
def State.translate (s : State) (w : Who) (va : Word) (n : Need) : State × Except TFault Phys :=
  if !canonical va then (s, .error (.page 7))
  else if inAperture va then s.transAperture w va
  else
    match s.transPage w va n with
    | (s, .error f) => (s, .error f)
    | (s, .ok pa) =>
      match s.classifyBy (tlbLevels w.core) pa with
      | .error d => (s, .error (.access d (windowAt pa)))
      | .ok p =>
        match region s.pkg pa with
        | .domain pkg _ =>
          match s.routeAccess w.ctx pkg with
          | (s, .unreadable) => (s, .error .dead)
          | (s, .shut) => (s, .error (.access 7 0))
          | (s, .open _) => (s, .ok p)
        | _ => (s, .ok p)

end Sys2Proof.Machine
end

