-- ==== Sys2Proof/Machine/Contain.lean ====
section
/-!
DEFINITION. Containment: syndrome records and host notification (R416 to R419), `DROPCNT` (R414), freeing a slot, and
making a context dead (R213, R415, R464).
-/
namespace Sys2Proof.Machine

/-! ## Host notification -/

/-- Sends an MSI-X vector through host port 0, or through the other port if that one is down (R419, R481). -/
def State.notify (s : State) (vec : Nat) : State :=
  let down := s.package.hostDown
  if !down.contains 0 then { s with package := { s.package with msix := s.package.msix ++ [(0, vec)] } }
  else if !down.contains 1 && s.package.accepts 11 then
    { s with package := { s.package with msix := s.package.msix ++ [(1, vec)] } }
  else s

/-- A count that saturates. -/
def satIncr (x bits : Nat) : Nat := min (x + 1) (2 ^ bits - 1)

/-- Counts a record in `ERRSUM` and notifies the host if it is at or above `ERRNOTE`.MIN − 1 (R416, R419). -/
def State.recordSeen (s : State) (containment : Nat) : State :=
  let (c, d, p) := s.package.errsum
  let s := { s with package := { s.package with errsum :=
    (if containment = 2 then satIncr c 16 else c, if containment = 3 then satIncr d 16 else d,
     if containment = 4 then satIncr p 16 else p) } }
  let min := s.package.errnote.bits 0 4
  if min ≠ 0 ∧ min - 1 ≤ containment then s.notify (s.package.errnote.bits 16 16) else s

/-! ## Syndrome records (R416, R417) -/

/-- The location field of a unit (R417, R418). -/
def location (kind index pkg die slot : Nat) : Nat := kind * 2 ^ 56 + index * 2 ^ 40 + pkg * 2 ^ 20 + die * 2 ^ 15 + slot

/-- The location of a slot. -/
def State.slotPlace (s : State) (k : Nat) : Nat := location 0 (pcoreOf (coreOfSlot k)) s.pkg (dieOfSlot k) (k % 4)

/-- The location of a core, of an engine of a die, 0 to 7 the BTEs and 8 to 11 the MXEs, and of a unit at a mesh stop: the
dispenser and the launch agent, for which R418 has no kind of their own. DESIGN CHOICE (log 74), unsafe. -/
def State.corePlace (s : State) (core : Nat) : Nat := location 0 (pcoreOf core) s.pkg (dieOfCore core) 0
def State.unitPlace (s : State) (die engine : Nat) : Nat :=
  location (if engine < 8 then 2 else 3) (if engine < 8 then engine else engine - 8) s.pkg die 0
def State.stopPlace (s : State) (die stop : Nat) : Nat := location 4 stop s.pkg die 0

/-- The die and the mesh stop of a unit by its location (R13, R493); for a fabric port, which R13 gives no stop, that of a host
port. DESIGN CHOICE (log 74), unsafe. -/
def placeDie (place : Nat) : Nat := place / 2 ^ 15 % 32
def placeStop (place : Nat) : Nat :=
  let index := place / 2 ^ 40 % 2 ^ 16
  match place / 2 ^ 56 with
  | 0 => coreStop index
  | 1 | 4 => index
  | 2 => bteStop index
  | 3 => bassoonStop index
  | 9 => shawmStop index
  | 10 => quinceStop
  | _ => hostStop

/-- The location of who accesses a table: a slot of a core, or an engine, which stands in the number of a core. -/
def State.whoPlace (s : State) (w : Who) : Nat :=
  if w.engine then s.unitPlace (dieOfCore w.core) (pcoreOf w.core - 160) else s.slotPlace (slotKey w.core w.slot)

/-- The 64 bytes of a record. -/
def recordBytes (r : LogRecord) (seq time repeats : Nat) : List Byte :=
  leBytes seq 8 ++ leBytes time 8 ++ leBytes r.cls 1 ++ leBytes r.containment 1 ++ leBytes r.cause 2 ++ leBytes r.action 1 ++
  leBytes (r.ctx.getD 0) 1 ++
  leBytes ((if r.ctx.isSome then 1 else 0) + (match r.addr with | some (_, p) => if p then 6 else 2 | none => 0)) 1 ++
  leBytes 0 1 ++ leBytes r.location 8 ++ leBytes ((r.addr.map (·.1)).getD 0) 8 ++ leBytes r.detail 8 ++
  leBytes repeats 4 ++ leBytes 0 12

/-- The place of bytes of a die's error log ring: the ring lies in the die's near DRAM (R416), as the die finds it there, a
slot area being no place (R113). -/
def State.ringPlace (s : State) (die a : Nat) : Option Phys :=
  match region s.pkg a with
  | .near d => if d = die then (s.classify die a).toOption else none
  | _ => none

/-- An identical corrected record only raises the repeat count of the first (R417), read as any agent reads it (R114). -/
def State.repeatRecord (s : State) (die a : Nat) : State :=
  match s.ringPlace die (a + 48) with
  | some p =>
    let (s, bs) := s.readPlace none p 4
    s.writePlace none .housekeeping p (leBytes (leNat bs + 1) 4)
  | none => s

/-- Writes a record to the error log ring of a die, or counts it lost (R416). An identical corrected record of the same
1 ms window only raises the repeat count (R417). A ring that software has not set up, or that is no memory of the die, takes
none (log 11). A record that has been written is counted, and the host notified (R419). -/
def State.logRecord (s : State) (die : Nat) (r : LogRecord) : State :=
  let d := s.getDie die
  let window := s.time.toNat / 1000000
  match (if r.containment = 0 then d.recent.find? fun x => x.1 == r && x.2.1 == window else none) with
  | some (_, _, a) => s.repeatRecord die a
  | none =>
    let cap := d.elbase.bits 52 12
    let used := (d.eltail + 2 ^ 32 - d.elhead) % 2 ^ 32
    let a := d.elbase.bits 6 46 * 64 + 64 * (d.eltail % 2 ^ cap)
    match (if cap < 6 ∨ 16 < cap ∨ 2 ^ cap ≤ used then none else s.ringPlace die a) with
    | none => s.setDie die { d with lost := satIncr d.lost 32 }
    | some p =>
      let s := s.writePlace none .housekeeping p (recordBytes r (d.recSeq + 1) s.time.toNat 1)
      (s.setDie die { s.getDie die with
        recSeq := d.recSeq + 1
        eltail := (d.eltail + 1) % 2 ^ 32
        recent := if r.containment = 0 then (r, window, a) :: d.recent.filter fun x => x.2.1 == window else d.recent }).recordSeen
        r.containment

/-- Sequence number of the last record of a die (R411 payload 5). -/
def State.lastRecord (s : State) (die : Nat) : Nat := (s.getDie die).recSeq

/-! ## `DROPCNT` (R414, R460) -/

/-- Counts a discarded message of a context that has been live since the last start. -/
def State.dropped (s : State) (die ctx : Nat) : State :=
  if (s.getCtx ctx).everLive then
    let d := s.getDie die
    s.setDie die { d with dropcnt := tabSet d.dropcnt ctx (satIncr (tabGet 0 d.dropcnt ctx) 64) }
  else s

/-! ## Ending an activation -/

/-- The keys of all slots that have ever been used. -/
def State.slotKeys (s : State) : List Nat := s.hotId :: (s.slots.map (·.1)).filter (· ≠ s.hotId)

/-- A slot whose activation has ended: nothing of it waits any more, and replies to it are discarded (R50, R292). -/
def Slot.freed (x : Slot) : Slot :=
  { x with
    active := false
    gen := x.gen + 1
    lastCtx := some x.ctx
    q := Vector.replicate 4 []
    tokens := Vector.replicate 8 none
    window := Vector.replicate 8 none
    history := []
    held := []
    heldTrap := none
    vq := []
    vrun := none
    rep := none
    busy := []
    creations := 0
    ownCreations := 0
    updates := []
    matrix := []
    wait := none
    refusal := none
    taken := []
    phase := .running
    stub := none
    claiming := none }

/-- The key of the `SHIPTGT` that a core reads and writes: die × 32 + quad of a Piccolo. A Bassoon belongs to no quad, and
the spec does not say what 0x110 names there: the model gives each a register of its own, which no ship uses. DESIGN CHOICE
(log 58), unsafe. -/
def quadKey (core : Nat) : Nat := if isBassoonCore core then 1024 + core else dieOfCore core * 32 + pcoreOf core / 4

/-- `SHIPTGT` of the quad of a core (R228). -/
def State.shipTarget (s : State) (core : Nat) : Word := tabGet 0 s.shiptgt (quadKey core)

/-- The Bassoon core of a die that HOME, or ALT, of a `SHIPTGT` value names (R228). -/
def bassoonOf (die target : Nat) (alt : Bool) : Nat := coreKey die (128 + (if alt then target / 4 % 4 else target % 4))

/-- Whether resends alternate between ALT and HOME (R228). -/
def alternates (target : Nat) : Bool := target / 128 % 2 == 1 && target / 4 % 4 != target % 4

/-- The Bassoon to which a packet goes now; none if HOME, and ALT where R228 uses it, is out of service (R436). -/
def State.shipCore (s : State) (die target : Nat) (alt : Bool) : Option Nat :=
  let want := bassoonOf die target (alt && alternates target)
  let other := bassoonOf die target (!alt)
  if !(s.getCore want).isolated then some want
  else if alternates target && !(s.getCore other).isolated then some other
  else none

/-- Sends a squash notice for a shipped word to every Bassoon that may hold it; an unsent packet goes no further (R237). -/
def State.squashOne (s : State) (k : Nat) (e : ShipEntry) : State :=
  let x := s.getSlot k
  let target := match e.packet with | some p => p.target | none => 0
  let s := { s with backoff := s.backoff.filter fun r =>
    match r with | .packet p _ => !(p.slot == k && p.gen == x.gen && p.order == e.order) | _ => true }
  let s := s.post (.squashNotice (bassoonOf (dieOfSlot k) target false) k x.gen e.order)
  if alternates target then s.post (.squashNotice (bassoonOf (dieOfSlot k) target true) k x.gen e.order) else s

/-- Squashes every shipped word of a slot that has no reply yet. -/
def State.squashAll (s : State) (k : Nat) : State :=
  (s.getSlot k).window.toList.foldl (fun s e =>
    match e with | some e => if e.reply.isNone then s.squashOne k e else s | none => s) s

/-- Stops an activation without a save record: shipped words squashed, held stores dropped (R213). -/
def State.stopSlot (s : State) (k : Nat) : State :=
  let s := s.squashAll k
  (s.setSlot k (s.getSlot k).freed).post (.dispatch (coreOfSlot k))

/-- An event of a slot that waits for its earlier work to end, posted once (R56, R410). -/
def State.poke (s : State) (k : Nat) : State :=
  match (s.getSlot k).phase with
  | .saving .. => if s.agenda.contains (.safePointSave k) then s else s.post (.safePointSave k)
  | .faulting _ => if s.agenda.contains (.faultPath k) then s else s.post (.faultPath k)
  | _ => s

/-! ## Updates on their way (R143) -/

/-- A barrier after one reduction has been applied: contributions that wait for no other reach the network (R296). -/
def Barrier.settle (b : Barrier) (id : Nat) : Barrier :=
  let rest := b.early.map fun (e : Contribution) => { e with need := e.need.filter (· != id) }
  { b with
    early := rest.filter fun e => !e.need.isEmpty
    given := b.given ++ (rest.filter fun e => e.need.isEmpty).map fun e => (e.lcore, e.op, e.operand) }

/-- Every participant of the open episode has contributed. -/
def Barrier.full (b : Barrier) : Bool := b.members.all fun m => b.given.any (·.1 == m)

/-- The barriers of the package after one reduction has been applied; an episode that this fills completes. -/
def State.settleBarriers (s : State) (id : Nat) : State :=
  let met := s.barriers.filter fun b => b.early.any fun e => e.need.contains id
  met.foldl (fun s b =>
    if (b.settle id).full then s.post (.barrierEpisodeCompletion b.ctx b.gang b.unit b.scope b.id) else s)
    { s with barriers := s.barriers.map fun b => b.settle id }

/-- A reduction of a slot has been applied or refused: fences that cover it go on (R132), and so do barriers and a slot that
wait for it. -/
def State.updateDone (s : State) (k gen id : Nat) : State :=
  let s := s.settleBarriers id
  let x := s.getSlot k
  if x.gen ≠ gen then s
  else
    let tokens := x.tokens.map fun t => t.map fun t => { t with need := t.need.filter (· != id) }
    let s := s.setSlot k { x with
      updates := x.updates.filter (·.1 != id), matrix := x.matrix.filter (· != id), tokens := tokens }
    let s := (List.finRange 8).foldl (fun s e =>
      match tokens[e.val] with
      | some t =>
        if t.need.isEmpty && !t.complete && !s.agenda.contains (.fenceTokenCompletion k gen e t.seq [] none) then
          s.post (.fenceTokenCompletion k gen e t.seq [] none)
        else s
      | none => s) s
    s.poke k

/-! ## Range locks -/

/-- Drops the locks of a registration (R302). -/
def State.dropLocks (s : State) (die id : Nat) : State :=
  let d := s.getDie die
  s.setDie die { d with locks := d.locks.filter fun x => x.2.cmd != id }

/-! ## Engine commands that no engine has accepted -/

def cmdCtx : EngineCmd → Nat | .bte c => c.ctx | .mxe c => c.ctx
/-- A command of a matrix engine has ended or was refused: its locks drop, and its slot waits for no update of it (R143). -/
def State.endMatrix (s : State) (die : Nat) (c : MxeCmd) : State := (s.dropLocks die c.lock).updateDone c.slot c.gen c.lock

def cmdLock : EngineCmd → Nat | .bte c => c.lock | .mxe c => c.lock

/-- The die and registration of a command of a context that is on its way to an engine, or waits to be sent again. -/
def eventCommand (c : Nat) : Event → Option (Nat × Nat)
  | .engineCommandArrival d _ _ x => if cmdCtx x = c then some (d, cmdLock x) else none
  | _ => none
def resendCommand (c : Nat) : Resend → Option (Nat × Nat)
  | .command d _ x => if cmdCtx x = c then some (d, cmdLock x) else none
  | _ => none

/-- Commands of a dead context that no engine has accepted go no further, and their locks drop (R213). -/
def State.dropCommands (s : State) (c : Nat) : State :=
  let gone := s.agenda.filterMap (eventCommand c) ++ s.backoff.filterMap (resendCommand c) ++
    s.dies.flatMap fun (d : Nat × Die) => d.2.macWait.filterMap fun x => if x.2.ctx = c then some (d.1, x.2.lock) else none
  let s := gone.foldl (fun s x => s.dropLocks x.1 x.2) s
  { s with
    agenda := s.agenda.filter fun e => (eventCommand c e).isNone
    backoff := s.backoff.filter fun r => (resendCommand c r).isNone
    dies := s.dies.map fun (d : Nat × Die) => (d.1, { d.2 with macWait := d.2.macWait.filter fun x => x.2.ctx != c }) }

/-! ## Dead contexts (R213, R415, R464) -/

/-- The logical cores of a context's core table. -/
def State.tableCores (s : State) (c : Nat) : Nat := (s.tableRead c (s.getCtx c).coretab 4).getD 0

/-- Empties the spill queue of a logical core, where its descriptor can be read and written: HEAD := TAIL. -/
def State.emptySpill (s : State) (c l : Nat) : State :=
  let a := (s.getCtx c).spillbase + word (32 * l)
  match s.tableRead c (a + 8) 4, s.tableRead c (a + 12) 4 with
  | some h, some t =>
    let s := (s.tableTouch c (a + 8) 4).tableTouch c (a + 12) 4
    if h = t then s else (s.tableWrite c (a + 8) (leBytes t 4)).getD s
  | _, _ => s

/-! ## Save positions (R57, R58, R371) -/

/-- How many of the low `n` bits of a number are set. -/
def onesIn (x n : Nat) : Nat := ((List.range n).filter fun i => nbit x i).length

/-- The size of a save record, from its 32-byte header. -/
def recordSize (h : Nat) : Nat :=
  let g := 32 + 8 * onesIn (h / 2 ^ 128) 32
  (g + 63) / 64 * 64 + 64 * onesIn (h / 2 ^ 160) 32 + 8 * onesIn (h / 2 ^ 192) 8

/-- The address of a save record. -/
def Context.saveAddr (c : Context) (l p : Nat) : Word := c.csave + word ((l * 4 + p) * 4096)

/-- A read of the record that stands at a position: its bytes; none if it cannot be read. -/
def State.recordAccess (s : State) (c l p : Nat) : State × Option (List Byte) :=
  let a := (s.getCtx c).saveAddr l p
  match s.tableAccess c a 32 with
  | (s, none) => (s, none)
  | (s, some h) => ((s.tableAccess c a (recordSize h)).1, (s.tableAccess c a (recordSize h)).2.map fun x => leBytes x (recordSize h))
def State.recordAt (s : State) (c l p : Nat) : Option (List Byte) := (s.recordAccess c l p).2

/-- A position is given up: it is occupied no more (R58). -/
def State.giveUp (s : State) (c l p : Nat) : State :=
  let x := s.getCtx c
  s.setCtx c { x with occupied := x.occupied.filter (· ≠ l * 4 + p), seqs := tabErase x.seqs (l * 4 + p) }

/-- A position becomes occupied by a record that a restoring loader has written (R58, R371). -/
def State.occupy (s : State) (c l p : Nat) : State :=
  let x := s.getCtx c
  s.setCtx c { x with
    occupied := if x.occupied.contains (l * 4 + p) then x.occupied else (l * 4 + p) :: x.occupied
    seqs := tabErase x.seqs (l * 4 + p) }

/-- The context of a message. -/
def msgCtx (m : Msg) : Nat := m.metaWord.bits 32 8

/-- A core without the work of a dead context. -/
def Core.without (x : Core) (c : Nat) : Core :=
  { x with
    arrival := x.arrival.filter fun e => msgCtx e.msg != c
    marks := x.marks.filter fun m => m.ctx != c
    resuming := x.resuming.filter fun r => r.1 != c
    guest := x.guest.filter fun p => p.ctx != c
    running := x.running.filter fun p => p.ctx != c }

/-- A die without the waiting work of a dead context: records, and parked commands with their locks (R213, R456). -/
def Die.without (d : Die) (c : Nat) : Die :=
  let parked := d.park.filter fun p => p.2.cmd.ctx == c
  { d with
    work := d.work.filter fun r => msgCtx r.msg != c
    park := d.park.filter fun p => p.2.cmd.ctx != c
    locks := d.locks.filter fun l => !(parked.any fun p => p.2.cmd.lock == l.2.cmd) }

/-- Makes a context dead: its activations stop without a save record, its queued work is discarded, its pre-empted
state ends, and its parked commands are abandoned. Accepted engine commands run on. -/
def State.killContext (s : State) (c : Nat) : State :=
  let s := (s.slotKeys.filter fun k => (s.getSlot k).active && (s.getSlot k).ctx == c).foldl State.stopSlot s
  let s := (List.range (s.tableCores c)).foldl (fun s l => s.emptySpill c l) (s.tableTouch c (s.getCtx c).coretab 4)
  let s := s.dropCommands c
  let x := s.getCtx c
  let s := { s with
    cores := s.cores.map fun (y : Nat × Core) => (y.1, y.2.without c)
    dies := s.dies.map fun (y : Nat × Die) => (y.1, y.2.without c)
    barriers := s.barriers.filter fun b => b.ctx != c }
  s.setCtx c { x with live := false, haltDone := false, occupied := [], seqs := [], spilled := [] }

/-- A failed access of the unit at `place` to a table, ring or save record: the context is made dead and the event logged
on that unit's die (R464). -/
def State.tableFailure (s : State) (place c : Nat) : State :=
  (s.killContext c).logRecord (placeDie place) ⟨2, 2, 5, 4, some c, none, place, c⟩

end Sys2Proof.Machine
end

