-- ==== Sys2Proof/Machine/Access.lean ====
section
/-!
DEFINITION. Accesses to memory: the checks of rank 10 in their order (R420, R421, R438, R440 to R444, R447), windows
(R103), accumulator lines (R112 to R115, R449), and the reading and writing of bytes. Each access performs in the step
that makes it (log 7).
-/
namespace Sys2Proof.Machine

/-! ## What is accessed -/

/-- The operation of an access, as the checks of rank 10 distinguish them. -/
inductive AccOp where
  | load | store
  /-- An AMO; `hnc` if PCIe has it (R280). -/
  | amo (hnc : Bool)
  | cas2 | red | vacc
  | accinit (v : Word)
  | accrd | accz | zline
  /-- `CLEAN`, `INVL`, `FLUSH`. -/
  | maint
deriving DecidableEq, Repr

/-- What the translation must permit (R438). -/
def AccOp.need : AccOp → Need
  | .load | .accrd | .maint => ⟨true, false, false⟩
  | .amo _ | .cas2 => ⟨true, true, false⟩
  | _ => ⟨false, true, false⟩

/-- Whether the access has a write half (R438). -/
def AccOp.writes : AccOp → Bool
  | .load | .accrd | .maint => false
  | _ => true

/-- A failed access: its rank among the causes of rank 10 (R420), the cause and its detail, and the address. The cause
is absent when a table of the context could not be read: the context is made dead (R494). -/
structure AccFault where
  rank : Nat
  cause : Option Cause
  detail : Nat
  va : Word
deriving DecidableEq, Repr

/-! ## The checks of rank 10 -/

/-- The page cause of an operation (R438). -/
def AccOp.pageCause (o : AccOp) : Cause := if o.writes then .storePage else .loadPage

/-- Whether an AMO or compare of `n` bytes is refused at a place: ACCESS detail 3 or 6 (R280, R440). -/
def State.accessDetail (s : State) (o : AccOp) (p : Phys) (n : Nat) : Option Nat :=
  match p.kind with
  | .spad w =>
    if w = 0 then none
    else match o with
      | .load | .store => if n = 4 ∨ n = 8 ∨ n = 16 ∨ n = 64 then none else some 4
      | .maint => none
      | _ => some 4
  | .hnc => match o with | .amo ok => if ok then none else some 3 | _ => none
  | .dev =>
    match o with
    | .cas2 => some 3
    | .maint => none
    | _ => if s.isDevReg p.pa && n != 8 then some 6 else none
  | _ => none

/-- Whether a window expands what it shows (R102). -/
def expands (window : Nat) : Bool := window != 0 && window != 7

/-- The detail of ACCESS for an address that a window does not reach: 4 comes first (R440). -/
def State.refusedDetail (s : State) (o : AccOp) (d window n : Nat) : Nat :=
  if expands window then (s.accessDetail o ⟨.spad window, 0⟩ n).getD d else d

/-- CLASS of an operation at a place (R447). -/
def State.classDetail (s : State) (o : AccOp) (p : Phys) : Option Nat :=
  match p.kind with
  | .acc k =>
    match o with
    | .amo _ | .cas2 => some 1
    | .accinit v =>
      let rsv := v.bits 12 52 != 0 || v.bits 5 3 != 0 || v.bits 2 2 != 0
      let ordered := v.bit 4
      let nm1 := v.bits 8 4
      if rsv || (!ordered && nm1 != 0) || (ordered && decide (k < nm1 + 1)) then some 5 else none
    | .accrd | .accz => if s.typed (lineOf p.pa) then none else some 6
    | _ => none
  | .spad w =>
    match o with
    | .red => if w = 0 then none else some 1
    | .vacc | .accinit _ | .accrd | .accz => some 1
    | _ => none
  | _ =>
    match o with
    | .red | .vacc | .accinit _ | .accrd | .accz => some 1
    | _ => none

/-- The lowest table entry that a thread access of a context meets (R442). -/
def lockHit (locks : List (Nat × Lock)) (o : AccOp) (ctx va n : Nat) : Option Nat :=
  match o with
  | .maint => none
  | _ => (locks.find? fun x => x.2.ctx == ctx && decide (x.2.lo < va + n) && decide (va < x.2.hi) && (o.writes || x.2.write)).map (·.1)

/-- Whether an access of a core finds a word poisoned: a load of memory that software keeps consistent in the core's own copy,
or as the die's L2 shows it; any other at the home. -/
def State.wordPoisoned (s : State) (core : Nat) (o : AccOp) (p : Phys) (w : Nat) : Bool :=
  if p.kind.bySoftware && o == .load then
    if tabHas (s.getCore core).l1c (lineOf p.pa) then (s.getCore core).l1p.contains w
    else (s.l2Words (dieOfCore core) p).contains w
  else s.poison.contains w

/-- The first poisoned word that an access of `len` stored bytes reads (R444, R450). -/
def State.poisonHit (s : State) (core : Nat) (o : AccOp) (p : Phys) (len : Nat) : Option (Nat × Nat) :=
  if s.poison.isEmpty && !p.kind.bySoftware then none
  else match o with
    | .load | .accrd | .amo _ | .cas2 =>
      let ws := (List.range ((p.pa + len - 1) / 8 + 1 - p.pa / 8)).map (p.pa / 8 + ·)
      let detail := match o with | .amo _ | .cas2 => 2 | _ => match p.kind with | .acc _ => if s.typed (lineOf p.pa) then 4 else 1 | _ => 1
      let slotHit (w : Nat) : Bool := match p.kind with
        | .acc n =>
          let st := s.accState (lineOf p.pa)
          s.typed (lineOf p.pa) && st.dirty && (List.range st.n).any fun j => s.poison.contains ((slotLine n (8 * w) j) / 8)
        | _ => false
      (ws.find? fun w => s.wordPoisoned core o p w || slotHit w).map fun w => (w, detail)
    | _ => none

/-- One element of an access: `n` bytes at `va`, which must be a multiple of `align`; `mis` marks a byte of a
misaligned scalar access. -/
structure Elem where
  va : Word
  n : Nat
  align : Nat
  mis : Bool
deriving DecidableEq, Repr

/-- An element of a vector load, or a part of a scalar one: POISON reports its address (R421), of any other access that of the
lowest poisoned word (R444; log 20). -/
def Elem.part (e : Elem) (o : AccOp) : Bool := o == .load && (e.mis || e.align == 4)

/-- Stored bytes of an element at a place. -/
def storedLen (p : Phys) (n : Nat) : Nat := match p.kind with | .spad w => n / windowScale w | _ => n

/-- The checks of one element in the order of R420, rank 10: alignment, translation, access, class, range lock,
poison. -/
def State.checkElem (s : State) (w : Who) (lockDie : Nat) (o : AccOp) (e : Elem) : State × Except AccFault Phys :=
  if e.va.toNat % e.align ≠ 0 then (s, .error ⟨0, some .misaligned, 0, e.va⟩)
  else
    match s.translate w e.va o.need with
    | (s, .error (.page d)) => (s, .error ⟨1, some o.pageCause, d, e.va⟩)
    | (s, .error (.access d k)) =>
      if expands k && e.va.toNat % 4 != 0 then (s, .error ⟨0, some .misaligned, 0, e.va⟩)
      else (s, .error ⟨2, some .access, s.refusedDetail o d k e.n, e.va⟩)
    | (s, .error .dead) => (s, .error ⟨1, none, 0, e.va⟩)
    | (s, .ok p) =>
      let misaligned : Bool := match p.kind with
        | .dev | .hnc => e.mis
        | .spad k => k != 0 && (e.va.toNat % 4 != 0)
        | .acc _ => o == .accrd && s.typed (lineOf p.pa) && p.pa % accSize (s.accState (lineOf p.pa)).ty != 0
        | _ => false
      if misaligned then (s, .error ⟨0, some .misaligned, 0, e.va⟩)
      else match s.accessDetail o p e.n with
        | some d => (s, .error ⟨2, some .access, d, e.va⟩)
        | none =>
          match s.classDetail o p with
          | some d => (s, .error ⟨3, some .cls, d, e.va⟩)
          | none =>
            match lockHit (s.getDie lockDie).locks o w.ctx e.va.toNat e.n with
            | some i => (s, .error ⟨4, some .rangeLock, i, e.va⟩)
            | none =>
              match s.poisonHit w.core o p (storedLen p e.n) with
              | some (wd, d) =>
                let scale := match p.kind with | .spad k => windowScale k | _ => 1
                (s, .error ⟨5, some .poison, d, if e.part o then e.va else e.va + word (8 * wd * scale) - word (p.pa * scale)⟩)
              | none => (s, .ok p)

/-- Keeps the fault of lowest rank, and among equals the first (R421). -/
def worse (a b : Option AccFault) : Option AccFault :=
  match a, b with
  | some x, some y => if y.rank < x.rank then some y else some x
  | some x, none => some x
  | none, y => y

/-- Every element is checked before any is performed (R421): the places, or the fault with the index of its element
in DETAIL[11:8]. -/
def State.checkAll (s : State) (w : Who) (lockDie : Nat) (o : AccOp) :
    List (Nat × Elem) → State × Option AccFault × List (Phys × Elem)
  | [] => (s, none, [])
  | (i, e) :: t =>
    match s.checkElem w lockDie o e with
    | (s, .error f) =>
      let (s, g, ps) := s.checkAll w lockDie o t
      (s, worse (some { f with detail := f.detail + i % 16 * 256 }) g, ps)
    | (s, .ok p) =>
      let (s, g, ps) := s.checkAll w lockDie o t
      (s, g, (p, e) :: ps)

/-- The elements of a scalar access (R275, R421): one; or, through an expanded window aligned to 4 only, its 4-byte
elements; or the bytes of a misaligned one. -/
def scalarElems (va : Word) (n : Nat) (window : Bool) : List (Nat × Elem) :=
  if window && va.toNat % 4 != 0 then [(0, ⟨va, n, 4, false⟩)]
  else if va.toNat % n = 0 then [(0, ⟨va, n, 1, false⟩)]
  else if window then (List.range (n / 4)).map fun i => (4 * i, ⟨va + word (4 * i), 4, 4, false⟩)
  else (List.range n).map fun i => (i, ⟨va + word i, 1, 1, true⟩)

/-- Whether an address lies in an expanded window: by the aperture, whether or not it is mapped, or by the page that
maps it. -/
def State.expanded (s : State) (w : Who) (va : Word) : Bool :=
  if inAperture va then expands (va.bits 48 3)
  else match (s.translate w va ⟨false, false, false⟩).2 with
  | .ok ⟨.spad k, _⟩ | .error (.access _ k) => expands k
  | _ => false

/-- The bytes of checked places, in order. -/
def State.readAll (s : State) (view : Option Nat) : List (Phys × Elem) → State × List Byte
  | [] => (s, [])
  | (p, e) :: t =>
    let (s, bs) := s.readPlace view p e.n
    let (s, rest) := s.readAll view t
    (s, bs ++ rest)

/-- The stores of checked places, in order, from the bytes a program writes. -/
def storeReqs : List (Phys × Elem) → List Byte → List StoreReq
  | [], _ => []
  | (p, e) :: t, bs => storedForm p (bs.take e.n) :: storeReqs t (bs.drop e.n)

/-- A store of a core to a line that hardware keeps consistent asks for the right to write it (R159). -/
def State.takeLine (s : State) (view : Option Nat) (p : Phys) : State :=
  match view with
  | some c => if p.kind.byHardware then s.missStore p.kind [] (lineOf p.pa) c else s
  | none => s

/-- Performs stores in order. -/
def State.performStores (s : State) (view : Option Nat) (who : Writer) : List StoreReq → State
  | [] => s
  | r :: t => ((s.takeLine view r.place).writePlace view who r.place r.bytes).performStores view who t

/-- The writer that the executing slot is. -/
def State.writer (s : State) : Writer := .slot s.hot.ctx s.hot.supervisor

/-- A store of the executing slot: performed at once, or held behind an older shipped word or held store (R234). -/
def State.issueStores (s : State) (rs : List StoreReq) : State :=
  if s.hot.holding then { s with hot := { s.hot with held := s.hot.held ++ [⟨s.hot.order, rs⟩] } }
  else (s.performStores (some s.core) s.writer rs).unpoisonStores s.core rs

/-! ## Hits (R153, R159) -/

/-- What an access of the executing slot that does not hit sends: a claim while its page is not the core's to use, which the
slot remembers (R154), else `ask`. -/
def State.askFor (s : State) (x : Phys × Elem) (ask : State → State) : State :=
  if x.1.kind = .coh ∧ !s.pageReady x.1.pa s.core then
    match s.tlbFind s.core s.me.asid (x.2.va.toNat % 2 ^ 57) false with
    | some e => { s with hot := { s.hot with claiming := some (e.pte, s.hot.order) } }.reclaim s.me x.2.va
    | none => s
  else ask s

/-- The lines of an element. -/
def elemLines (x : Phys × Elem) : List Nat :=
  (List.range ((x.1.pa + x.2.n - 1) / 128 + 1 - x.1.pa / 128)).map fun i => lineOf x.1.pa + 128 * i

/-- Whether an element of a load hits in the cache of a core. -/
def State.elemLoads (s : State) (core : Nat) (x : Phys × Elem) : Bool :=
  !x.1.kind.byHardware || (elemLines x).all fun line => s.loadHits x.1.kind line core

/-- Whether an element of a store of a core can perform. -/
def State.elemStores (s : State) (core : Nat) (x : Phys × Elem) : Bool :=
  !x.1.kind.byHardware || (elemLines x).all fun line => s.storeHits x.1.kind line core

/-- The lines that elements would newly bring into the L1 of a core, without repeats; those of them that come through the L2 of
its die too, which is not their home and has not got them (R105, R107). -/
def State.newLines (s : State) (core : Nat) (ps : List (Phys × Elem)) : List Nat :=
  (ps.flatMap fun x => (elemLines x).filter fun line =>
    (x.1.kind.byHardware && (s.cst line core).isNone) ||
    (x.1.kind.bySoftware && !tabHas (s.getCore core).l1c line)).dedup
def State.newL2Lines (s : State) (core : Nat) (ps : List (Phys × Elem)) : List Nat :=
  (ps.flatMap fun x => (elemLines x).filter fun line =>
    x.1.kind.bySoftware && !isHome (dieOfCore core) x.1 && !tabHas (s.getCore core).l1c line &&
      !tabHas (s.getDie (dieOfCore core)).l2c line).dedup

/-- Whether the caches have room for the lines that elements newly bring in. -/
def State.haveRoom (s : State) (core : Nat) (ps : List (Phys × Elem)) : Bool :=
  s.fits core (s.newLines core ps) && s.fits (proxyOf (dieOfCore core)) (s.newL2Lines core ps)

/-- Caches without room begin evictions. -/
def State.askRoom (s : State) (core : Nat) (ps : List (Phys × Elem)) : State :=
  let keep := ps.flatMap elemLines
  let proxy := proxyOf (dieOfCore core)
  let s := if s.fits core (s.newLines core ps) then s else (s.newLines core ps).foldl (fun s l => s.makeRoom core l keep) s
  if s.fits proxy (s.newL2Lines core ps) then s else (s.newL2Lines core ps).foldl (fun s l => s.makeRoom proxy l keep) s

/-- Whether every element of a load hits, and what those that do not send. -/
def State.loadsHit (s : State) (ps : List (Phys × Elem)) : Bool := ps.all (s.elemLoads s.core) && s.haveRoom s.core ps
def State.askLoads (s : State) (ps : List (Phys × Elem)) : State :=
  ps.foldl (fun s x => if s.elemLoads s.core x then s
    else s.askFor x fun s => (elemLines x).foldl (fun s line => s.missLoad x.1.kind (ps.flatMap elemLines) line s.core) s)
    (s.askRoom s.core ps)

/-- Whether every element of a store can perform, and what those that cannot send. -/
def State.storesHit (s : State) (ps : List (Phys × Elem)) : Bool := ps.all (s.elemStores s.core) && s.haveRoom s.core ps
def State.askStores (s : State) (ps : List (Phys × Elem)) : State :=
  ps.foldl (fun s x => if s.elemStores s.core x then s else s.askFor x id) (s.askRoom s.core ps)

/-! ## Stores held behind shipped words (R234, R236) -/

/-- The parts of a held store as elements of an access. -/
def HeldStore.elems (h : HeldStore) : List (Phys × Elem) := h.parts.map fun r => (r.place, ⟨0, r.bytes.length, 1, false⟩)

/-- An entry of a TLB of a core that maps an address. -/
def State.tlbHolds (s : State) (core pa : Nat) : Option TlbEntry :=
  (tlbLevels core).findSome? fun k => (s.getCore k).tlb.find? fun e => leafHolds e pa

/-- A held store whose page is not the core's to use claims it, through what maps the page; and one whose page nobody has
classified any more needs no line. -/
def State.heldClaim (s : State) (core pa : Nat) : Option TlbEntry :=
  if s.pageReady pa core then none
  else match s.pageOf pa with | some (_, p) => some p.leaf | none => s.tlbHolds core pa

/-- Whether a part of a held store can perform. -/
def State.heldReady (s : State) (core : Nat) (x : Phys × Elem) : Bool :=
  s.elemStores core x || (x.1.kind == .coh && (s.pageOf x.1.pa).isNone && (s.tlbHolds core x.1.pa).isNone)

/-- What a part of a held store that cannot perform sends. -/
def State.askHeld (s : State) (core : Nat) (x : Phys × Elem) : State :=
  if s.heldReady core x || x.1.kind != .coh then s
  else match s.heldClaim core x.1.pa with
    | some e => s.sendClaim e core (s.ownerAgent core)
    | none => s

/-- Performs held stores in order, up to one that does not hit: that one asks for what it needs, and it and the later ones stay
held. -/
def State.performHeld (s : State) (k : Nat) : List HeldStore → State × List HeldStore
  | [] => (s, [])
  | h :: t =>
    let core := coreOfSlot k
    let x := s.getSlot k
    if h.elems.all (s.heldReady core) && s.haveRoom core h.elems then
      ((s.performStores (some core) (.slot x.ctx x.supervisor) h.parts).unpoisonStores core h.parts).performHeld k t
    else (h.elems.foldl (fun s x => s.askHeld core x) (s.askRoom core h.elems), h :: t)

/-! ## Outcomes of an access -/

/-- Delivers the fault of an access at the word being executed (R420, R421), or makes the context dead (R494). -/
def State.accessFault (s : State) (f : AccFault) : State :=
  match f.cause with
  | some c => s.raise c f.detail f.va
  | none => (s.tableFailure (s.slotPlace s.hotId) s.hot.ctx).stall

end Sys2Proof.Machine
end

