-- ==== Sys2Proof/Machine/Fetch.lean ====
section
/-!
DEFINITION. Instruction fetch (R106, R428, R438, R440, R444): code bounds, translation with X, poison.
-/
namespace Sys2Proof.Machine

/-- Whether `n` bytes lie in the code bounds of a context (R40, R428). -/
def Context.holdsCode (x : Context) (a : Word) (n : Nat) : Bool :=
  decide (x.cbase.toNat ≤ a.toNat) && decide (a.toNat + n ≤ x.clim.toNat)

/-- A handler address that a context accepts (R40). -/
def Context.acceptsHandler (x : Context) (a : Word) : Bool :=
  decide (x.cbase.toNat ≤ a.toNat) && decide (a.toNat < x.clim.toNat) && a.bits 0 2 == 0

/-- Why a fetch gives no bytes. -/
inductive FetchFault where
  /-- A cause of rank 2 with its detail. -/
  | raise (c : Cause) (detail : Nat)
  /-- A table of the context could not be read, which made it dead (R494). -/
  | dead
  /-- Its page has been claimed, and the claim is not answered yet (R153). -/
  | wait
deriving DecidableEq, Repr

/-! ## The instruction cache (R106) -/

/-- A line as the instruction cache of a core holds it. -/
def Core.codeLine (c : Core) (line : Nat) : Option (List Byte) := (c.icache.find? fun x => x.1 == line).map (·.2)

/-- The instruction cache with a line: 64 sets of 8 ways; a full set gives up the line taken longest ago, where the spec names
none. DESIGN CHOICE (log 53), unsafe. -/
def takeCode (l : List (Nat × List Byte)) (line : Nat) (bs : List Byte) : List (Nat × List Byte) :=
  let ways := l.filter fun x => x.1 / 128 % 64 == line / 128 % 64
  let l := if ways.length < 8 then l else match ways.getLast? with | some x => l.erase x | none => l
  (line, bs) :: l

/-- Memory that caches may hold. -/
def MemKind.cached (k : MemKind) : Bool := k.byHardware || k.bySoftware

/-- The instruction cache of the executing core takes the line of a place, through the L2 of its die, with its poison; no store
changes it. A line of class HCO comes from the agent of its port (R162). -/
def State.fillCode (s : State) (p : Phys) : State :=
  let line := lineOf p.pa
  let c := s.getCore s.core
  if (c.codeLine line).isSome then s
  else
    let s := if p.kind = .hco then s.obtain line false else s
    let bs := if p.kind.bySoftware then s.l2Line s.die p else memRead s.mem line 128
    let bad := if p.kind.bySoftware then s.l2Words s.die p else lineWords s.poison line
    s.setCore s.core { c with icache := takeCode c.icache line bs, icachep := otherWords c.icachep line ++ bad }

/-- The bytes that fetch finds at a place: of memory that caches may hold, those in the instruction cache. -/
def State.codeBytes (s : State) (p : Phys) (n : Nat) : State × List Byte :=
  if p.kind.cached then
    let s := s.fillCode p
    (s, (((s.getCore s.core).codeLine (lineOf p.pa)).getD []).drop (p.pa % 128) |>.take n)
  else s.readPlace none p n

/-- Whether fetch meets poison (R444): in the line that the cache has, else where it would take the line from. -/
def State.codePoison (s : State) (p : Phys) : Bool :=
  let c := s.getCore s.core
  let w := p.pa / 8
  if p.kind.cached && (c.codeLine (lineOf p.pa)).isSome then c.icachep.contains w
  else if p.kind.bySoftware then (s.l2Words s.die p).contains w
  else s.poison.contains w

/-- Fetches `n` bytes that lie in one page, as a little-endian number. The page of a COH line is claimed first (R153), and a
place may refuse the access (R440). -/
def State.fetch (s : State) (va : Word) (n : Nat) : State × Except FetchFault Nat :=
  match s.translate s.me va ⟨false, false, true⟩ with
  | (s, .error (.page d)) => (s, .error (.raise .fetchPage d))
  | (s, .error (.access d k)) => (s, .error (.raise .access (s.refusedDetail .load d k n)))
  | (s, .error .dead) => (s, .error .dead)
  | (s, .ok p) =>
    match s.accessDetail .load p n with
    | some d => (s, .error (.raise .access d))
    | none =>
      if p.kind = .coh ∧ !s.pageReady p.pa s.core then (s.askFor (p, ⟨va, n, 1, false⟩) id, .error .wait)
      else if s.codePoison p then (s, .error (.raise .poison 3))
      else
        let (s, bs) := s.codeBytes p n
        (s, .ok (leNat bs))

/-- Fetches `k` doublewords from an address aligned to 8, lowest first. -/
def State.fetchWords (s : State) (va : Word) : Nat → State × Except FetchFault (List Nat)
  | 0 => (s, .ok [])
  | k + 1 =>
    match s.fetch va 8 with
    | (s, .error f) => (s, .error f)
    | (s, .ok x) =>
      match s.fetchWords (va + 8) k with
      | (s, .error f) => (s, .error f)
      | (s, .ok l) => (s, .ok (x :: l))

end Sys2Proof.Machine
end

