-- ==== Sys2Proof/Machine/Operands.lean ====
section
/-!
DEFINITION. Operand forms of the words: immediates and branch targets (R168, R169), queue operands (R173, R174), masks
(R170) and lanes (R246).
-/
namespace Sys2Proof.Machine

/-! ## Immediates and targets (R168, R169) -/

/-- sext(imm14, 14). -/
def imm14 (i : BitVec 14) : Word := i.signExtend 64
/-- The value of CU: imm19 in bits [31:13], sign-extended from bit 31. -/
def immU (i : BitVec 19) : Word := (i ++ 0#13).signExtend 64
/-- Word address + sext(off14, 14) × 4. -/
def target14 (wa : Word) (o : BitVec 14) : Word := wa + o.signExtend 64 * 4
/-- Word address + sext(off19, 19) × 4. -/
def target19 (wa : Word) (o : BitVec 19) : Word := wa + o.signExtend 64 * 4
/-- zext(imm6, 6) × 64, the offset of CV (R168). -/
def imm6 (i : BitVec 6) : Word := i.setWidth 64 * 64

/-! ## Queue operands of the S stream (R173, R174, R191) -/

/-- The queue that the S stream reads under a field: `q2` or `q3`. -/
def sReads (n : Fin 2) : QReg := ⟨2 + n.val, by omega⟩
/-- The queue that the S stream writes under a field: `q0` or `q1`. -/
def sWrites (n : Fin 2) : QReg := ⟨n.val, by omega⟩

/-- The first operand of an INT word: a register, the entry already taken, or the oldest entry of `q2` or `q3`, taken
now; none while the queue is empty. -/
def State.takeSrc (s : State) (a : SSrc) : Option (Word × State) :=
  match a with
  | .g r => some (s.g r, s)
  | .q n =>
    let r := sReads n
    match s.hot.taken.find? fun y => y.1 == r with
    | some (_, x) => some (x, s)
    | none =>
      match s.hot.getQ r with
      | [] => none
      | x :: t => some (x, { s with hot := { s.hot.setQ r t with taken := (r, x) :: s.hot.taken } })

/-- The result of an INT word: a register write, or an append to `q0` or `q1`; none while the queue is full. -/
def State.putDst (s : State) (d : SDst) (x : Word) : Option State :=
  match d with
  | .g r => some (s.writeG r x)
  | .q n =>
    let r := sWrites n
    let l := s.hot.getQ r
    if queueDepth ≤ l.length then none else some { s with hot := s.hot.setQ r (l ++ [x]) }

/-- What stays taken when a word with source `a` completes: all but its own entry. -/
def leaveTaken (a : SSrc) (l : List (QReg × Word)) : List (QReg × Word) :=
  match a with
  | .g _ => l
  | .q n => l.filter fun y => y.1 != sReads n

/-- The entry taken is forgotten when its word completes. -/
def State.clearTaken (s : State) (a : SSrc) : State := { s with hot := { s.hot with taken := leaveTaken a s.hot.taken } }

/-! ## Masks and lanes (R170, R246) -/

/-- Whether lane `i` is active under a mask value. -/
def lanesActive (mask : Word) (i : Nat) : Bool := mask.bit i

end Sys2Proof.Machine

namespace Sys2Proof

/-- The lane width a `t` field names (R246). -/
def EW.bits : EW → Nat | .e8 => 8 | .e16 => 16 | .e32 => 32 | .e64 => 64

end Sys2Proof

namespace Sys2Proof.Machine

/-- Lane `i` of width `w` of a vector register. -/
def lane (w : Nat) (x : VWord) (i : Nat) : Nat := x.toNat / 2 ^ (w * i) % 2 ^ w

/-- The lanes of width `w`, lane 0 first. -/
def lanes (w : Nat) (x : VWord) : List Nat := (List.range (512 / w)).map (lane w x)

/-- A number from lanes of width `w`, lane 0 lowest. -/
def packNat (w : Nat) : List Nat → Nat
  | [] => 0
  | x :: t => x % 2 ^ w + 2 ^ w * packNat w t

/-- A vector register from its lanes. -/
def pack (w : Nat) (l : List Nat) : VWord := BitVec.ofNat 512 (packNat w l)

/-- Lane by lane: an active lane takes its new value, an inactive one keeps the prior value (R247). -/
def mergeLanes (mask : Word) (new old : List Nat) : List Nat :=
  (List.zip new old).mapIdx fun i (x, y) => if lanesActive mask i then x else y

end Sys2Proof.Machine
end

