-- ==== Sys2Proof/Machine/Flags.lean ====
section
/-!
DEFINITION. `FCSR`: rounding modes as a word sees them, accrued flags, enabled traps and the `TRAPVAL` of an FP trap
(R66, R67, R424 detail 4, R430, R431).
-/
namespace Sys2Proof.Machine

/-- `FCSR.RM`. -/
def Slot.rm (x : Slot) : Nat := x.fcsr.bits 5 3
/-- `FCSR.TE`. -/
def Slot.te (x : Slot) : Nat := x.fcsr.bits 8 5

/-- The code a rounding field resolves to with a dynamic mode `rm` (R66, R216). -/
def rndCode (r : Rnd) (rm : Nat) : Nat := match r with | .rne => 0 | .rtz => 1 | .rdn => 2 | .rup => 3 | .dyn => rm
def rnd4Code (r : Rnd4) (rm : Nat) : Nat := match r with | .rne => 0 | .rtz => 1 | .rdn => 2 | .dyn => rm

/-- Flags of a list of (lanes, flags). -/
def unionFlags (l : List (Nat × Nat)) : Nat := l.foldl (fun a x => a ||| x.2) 0

/-- The lanes, modulo 32, that raised an enabled flag (R431). -/
def trapLanes (te : Nat) (l : List (Nat × Nat)) : Nat :=
  l.foldl (fun a x => if x.2 &&& te = 0 then a else a ||| x.1) 0

/-- `TRAPVAL` of an FP trap (R431). -/
def fpTrapVal (te flags lanes : Nat) : Word := word (lanes % 2 ^ 32 * 2 ^ 32 + (flags &&& te) * 2 ^ 8 + flags)

end Sys2Proof.Machine
end

