-- ==== Sys2Proof/Machine/Ship.lean ====
section
/-!
DEFINITION. Shipping: the ship window and the packets a Piccolo sends (R227 to R239). The events of the ship path are
in Machine/ShipPath.lean.
-/
namespace Sys2Proof.Machine

/-- The lowest free entry of the ship window (R233). -/
def Slot.freeTag (x : Slot) : Option (Fin 8) := (List.finRange 8).find? fun t => (x.window[t.val]).isNone

/-- The packet of a word of the executing slot (R229); dynamic rounding and trap enables are those at issue. -/
def State.packet (s : State) (i : Instr) (tag : Fin 8) (ops : ShipOps) : ShipPacket where
  iword := (encodeWord s.hot.lone i).getD 0
  slot := s.hotId
  gen := s.hot.gen
  tag := tag
  ctx := s.hot.ctx
  rm := s.hot.rm
  supervisor := s.hot.supervisor
  te := s.hot.te
  asid := (s.getCtx s.hot.ctx).asidr.bits 44 16
  lcore := s.hot.lcore
  ops := ops
  target := (s.shipTarget s.core).bits 0 8
  order := s.hot.order

/-- Takes a ship-window entry for the word being executed; none while all 8 are busy (R233). -/
def State.shipEntry (s : State) (i : Instr) (ops : ShipOps) : Option (Fin 8 × State) :=
  match s.hot.freeTag with
  | none => none
  | some t =>
    let e : ShipEntry := ⟨i, s.hot.tpc, s.hot.order, s.hot.spd, s.hot.retired, none, some (s.packet i t ops), none, 0⟩
    some (t, { s with hot := { s.hot with window := s.hot.window.set t.val (some e) } })

/-- Sends a packet to HOME, or to ALT on an alternating resend (R228); with no Bassoon in service the word raises SHIP
detail 1 (R436). -/
def State.sendPacket (s : State) (p : ShipPacket) (alt : Bool) : State :=
  match s.shipCore (dieOfSlot p.slot) p.target alt with
  | some b => s.post (.shipPacketArrival b p)
  | none => s.post (.shipReply p.slot p.gen p.tag p.order (.exception Cause.ship.code 1 (word p.iword)))

/-- A scalar word that a Piccolo ships: its packet leaves at once (R234). -/
def State.shipNow (s : State) (i : Instr) (ops : ShipOps) : Out :=
  match s.shipEntry i ops with
  | none => .next s.stall
  | some (t, s) => .next ((s.sendPacket (s.packet i t ops) false).retire)

end Sys2Proof.Machine
end

