-- ==== Sys2Proof/Machine/Task.lean ====
section
/-!
DEFINITION. The words that create, end, cancel and query tasks (R288 to R294), migration (R51, R52, R290), the routes
of messages (R20, R321, R477), and the checks of a destination (R459).
-/
namespace Sys2Proof.Machine

/-! ## Messages (R38) -/

def msgDst (m : Msg) : Nat := m.metaWord.bits 0 16
def msgSrc (m : Msg) : Nat := m.metaWord.bits 16 16
def msgType (m : Msg) : Nat := m.metaWord.bits 40 4
def msgPlen (m : Msg) : Nat := m.metaWord.bits 44 4
def msgPrio (m : Msg) : Nat := m.metaWord.bits 48 2
def msgFlags (m : Msg) : Nat := m.metaWord.bits 50 14

/-- A message with its DST replaced. -/
def msgTo (m : Msg) (dst : Nat) : Msg := { m with metaWord := (m.metaWord &&& ~~~(0xFFFF#64)) ||| word (dst % 2 ^ 16) }

/-! ## Routes between dies (R20, R477) -/

/-- The boundary between two neighbouring dies: twice the lower die number, plus 1 for a die-row boundary. -/
def boundaryOf (a b : Nat) : Nat := 2 * min a b + (if a / 6 = b / 6 then 0 else 1)

/-- Whether two dies are neighbours in the 4 × 6 grid (R17). -/
def adjacent (a b : Nat) : Bool :=
  (a / 6 == b / 6 && (a == b + 1 || b == a + 1)) || (a % 6 == b % 6 && (a == b + 6 || b == a + 6))

/-- Whether a boundary carries traffic. -/
def State.linkUp (s : State) (a b : Nat) : Bool :=
  (tabGet ⟨.full, 0, []⟩ s.package.boundaries (boundaryOf a b)).width != .isolated

/-- Dies in steps of one from `a` to `b`, without `a`. -/
def stepsTo (a b unit : Nat) : List Nat :=
  if a ≤ b then (List.range ((b - a) / unit)).map fun i => a + (i + 1) * unit
  else (List.range ((a - b) / unit)).map fun i => a - (i + 1) * unit

/-- The dies of a route after the first: along the die-row first, or along the die-column first. -/
def gridRoute (rowFirst : Bool) (a b : Nat) : List Nat :=
  if rowFirst then stepsTo a (a / 6 * 6 + b % 6) 1 ++ stepsTo (a / 6 * 6 + b % 6) b 6
  else stepsTo a (b / 6 * 6 + a % 6) 6 ++ stepsTo (b / 6 * 6 + a % 6) b 1

/-- Whether every boundary of a route works. -/
def State.routeUp (s : State) (a : Nat) : List Nat → Bool
  | [] => true
  | b :: t => s.linkUp a b && s.routeUp b t

/-- One relaxation of the distances to a die. -/
def State.relax (s : State) (d : List Nat) : List Nat :=
  (List.range 24).map fun i =>
    (List.range 24).foldl (fun m j => if adjacent i j && s.linkUp i j then min m (d.getD j 99 + 1) else m) (d.getD i 99)

/-- Distances to a die over working boundaries; 99 where there is no way. -/
def State.distances (s : State) (b : Nat) : Nat → List Nat
  | 0 => (List.range 24).map fun i => if i = b then 0 else 99
  | n + 1 => s.relax (s.distances b n)

/-- The shortest route over working boundaries, least die numbers first. -/
def State.descend (s : State) (d : List Nat) (a : Nat) : Nat → List Nat
  | 0 => []
  | n + 1 =>
    match (List.range 24).find? fun j => adjacent a j && s.linkUp a j && d.getD j 99 + 1 == d.getD a 99 with
    | some j => j :: s.descend d j n
    | none => []

/-- The route between two dies, without the first. -/
def State.dieRoute (s : State) (a b : Nat) : List Nat :=
  if s.routeUp a (gridRoute true a b) then gridRoute true a b
  else if s.routeUp a (gridRoute false a b) then gridRoute false a b
  else s.descend (s.distances b 24) a 24

/-- Whether one die reaches another. -/
def State.reaches (s : State) (a b : Nat) : Bool := a == b || (s.dieRoute a b).getLast? == some b

/-- The side across which traffic from another die enters a die. -/
def State.entrySide (s : State) (fromDie toDie : Nat) : Option (Fin 4) :=
  match (fromDie :: s.dieRoute fromDie toDie).reverse with
  | _ :: prev :: _ => some (sideFrom prev toDie)
  | _ => none

/-- The stop of a die from which traffic that set out at a stop of a die comes (R493). -/
def State.entryStop (s : State) (fromDie src toDie : Nat) : Nat := ((s.entrySide fromDie toDie).map edgeQuad).getD src

/-- A task-carrying message sets out from a stop of a die to a core of this package: one that crosses a die boundary comes to
the queue of its side (R321). -/
def State.sendTo (s : State) (fromDie src core : Nat) (m : Msg) (c : Creator) : State :=
  match s.entrySide fromDie (dieOfCore core) with
  | some side => s.post (.blockMessage (dieOfCore core) side core m c)
  | none => s.post (.taskMessageArrival core src m c)

/-! ## Destinations (R33, R37, R459) -/

/-- What a logical core names as a destination: a core of this package, a fabric port, a MESSAGE detail, or a table
that could not be read. -/
inductive Dest where
  | here (core : Nat) | away (port : Nat) | refused (detail : Nat) | dead
deriving DecidableEq, Repr

/-- The destination of a message of a context as a core finds it. -/
def State.destination (s : State) (core c lc : Nat) : State × Dest :=
  match s.ctLookup core c lc with
  | .unreadable => (s.ctMiss core c lc, .dead)
  | .unmapped => (s.ctMiss core c lc, .refused 1)
  | .entry raw e =>
    let s := s.ctFill core c lc raw
    if e.pkg = s.pkg then (s, .here (coreKey e.die e.pcore))
    else match s.routeAccess c e.pkg with
      | (s, .open p) => (s, .away p)
      | (s, .shut) => (s, .refused 3)
      | (s, .unreadable) => (s, .dead)

/-- A message leaves the package by a fabric port; its acknowledgement is awaited where its creator waits for one. -/
def State.sendAway (s : State) (port : Nat) (m : Msg) (c : Creator) : State :=
  let owed : List Creator := match c with | .slot .. | .agent _ => [c] | _ => []
  { s with package := { s.package with fabricOut := s.package.fabricOut ++ [(port, m)], owed := s.package.owed ++ owed } }

/-- A message of the executing slot leaves for its destination. -/
def State.dispatchTo (s : State) (d : Dest) (m : Msg) (c : Creator) : State :=
  match d with
  | .here k => s.sendTo s.die (coreStop (pcoreOf s.core)) k m c
  | .away p => s.sendAway p m c
  | _ => s

/-! ## Fault reports (R411) -/

/-- What a fault report says. -/
structure Report where
  cause : Nat
  remote : Bool
  ctx : Nat
  /-- Save position, if a record was written. -/
  saved : Option Nat
  lcore : Nat
  pc : Word
  value : Word
  taskId : Nat
  detail : Nat
  place : Word
  record : Nat
deriving DecidableEq, Repr

/-- The message of a report. -/
def Report.msg (r : Report) (sup : Nat) (handler : Word) : Msg :=
  ⟨handler, metaOf 5 6 3 sup r.lcore 0xFFFF,
    [word (r.cause % 2 ^ 8 + (if r.remote then 2 ^ 8 else 0) + r.ctx % 2 ^ 8 * 2 ^ 16 + r.saved.getD 0 % 4 * 2 ^ 24 +
      (if r.saved.isSome then 2 ^ 26 else 0) + r.lcore % 2 ^ 16 * 2 ^ 32),
     r.pc, r.value, word (r.taskId % 2 ^ 32 + r.detail % 2 ^ 16 * 2 ^ 32), r.place, word r.record]⟩

/-- What the fault message of a context that is lost outside its activations says. No word of an activation is at fault, and the spec states
neither the cause code, which is one of R407, nor the place: free values. DESIGN CHOICE (log 65), safe. -/
def lostReport (n c : Nat) : Report :=
  ⟨1 + (Config.freeWord n).toNat % 0x17, (Config.freeWord (n + 1)).bit 0, c, none, (Config.freeWord (n + 2)).bits 0 16,
    Config.freeWord (n + 3), Config.freeWord (n + 4), (Config.freeWord (n + 5)).bits 0 32, (Config.freeWord (n + 6)).bits 0 16,
    Config.freeWord (n + 7), 0⟩

/-! ## The supervisor endpoint (R33, R59, R411, R412, R415) -/

/-- Where a message to the supervisor of a context goes. -/
inductive Endpoint where
  | here (core : Nat) | away (port : Nat)
  /-- No core is named, or none that a route reaches. -/
  | nowhere
  | unreadable
deriving DecidableEq, Repr

/-- The endpoint of a context, and the handler address of its core-table header. -/
def State.endpoint (s : State) (fromDie c : Nat) : Endpoint × Word :=
  match s.tableRead c (s.getCtx c).coretab 16 with
  | none => (.unreadable, 0)
  | some h =>
    let e := h / 2 ^ 32 % 2 ^ 16
    let pkg := h / 2 ^ 48 % 2 ^ 8
    let die := e % 32
    let core := e / 256
    let handler := word (h / 2 ^ 64)
    if e / 32 % 8 ≠ 0 ∨ 23 < die ∨ 131 < core ∨ 63 < pkg then (.nowhere, handler)
    else if pkg = s.pkg then (if s.reaches fromDie die then .here (coreKey die core) else .nowhere, handler)
    else match s.route c pkg with
      | .open p => (.away p, handler)
      | .shut => (.nowhere, handler)
      | .unreadable => (.unreadable, handler)

/-- The supervisor context of a context, if `SUPCTX` is valid (R412). -/
def State.supervisorOf (s : State) (c : Nat) : Option Nat :=
  if (s.getCtx c).supctx.bit 8 then some ((s.getCtx c).supctx.bits 0 8) else none

/-- Whether a context is a supervisor context (R177). -/
def State.isSupervisor (s : State) (c : Nat) : Bool := s.ctxs.any fun x => x.2.supctx.bit 8 && x.2.supctx.bits 0 8 == c

/-- Makes a context dead under R415, and logs it with the cause of the fault and the unit that met it. -/
def State.containmentKill (s : State) (place c cls cause : Nat) : State :=
  (s.killContext c).logRecord (placeDie place) ⟨cls, 2, cause, 4, some c, none, place, c⟩

/-- Where a message that is never spilled goes: to a core of this package, or to another package by a port, with the
supervisor context and the handler; nowhere, which R415 answers; or not known, as a table could not be read (R494). -/
inductive ReportPath where
  | core (core sup : Nat) (handler : Word)
  | port (port sup : Nat) (handler : Word)
  | nowhere | unreadable
deriving DecidableEq, Repr

/-- The core-table header of a context has been read: A is set in the PTE that it translates through (R494). -/
def State.headerTouch (s : State) (c : Nat) : State := s.tableTouch c (s.getCtx c).coretab 16

/-- The way to the supervisor of a context (R412, R415). `handler` is that of the pre-empt message, else that of the header. -/
def State.reportPath (s : State) (place c : Nat) (handler : Option Word) : ReportPath :=
  match s.endpoint (placeDie place) c with
  | (.unreadable, _) => .unreadable
  | (.nowhere, _) => .nowhere
  | (e, h) =>
    let h := handler.getD h
    match s.supervisorOf c with
    | none => .nowhere
    | some sup =>
      if !(s.getCtx sup).acceptsHandler h || (handler.isNone && !(s.getCtx sup).live) then .nowhere
      else match e with
        | .here k => .core k sup h
        | .away p => .port p sup h
        | _ => .nowhere

/-- A message of a unit sets out on such a way. -/
def State.sendReportOn (s : State) (place : Nat) (w : ReportPath) (m : Nat → Word → Msg) : State :=
  match w with
  | .core k sup h => s.post (.faultReportArrival k (s.entryStop (placeDie place) (placeStop place) (dieOfCore k)) (m sup h))
  | .port p sup h => s.sendAway p (m sup h) .none
  | .nowhere | .unreadable => s

/-- A fault of containment context (R406): the context is made dead, the fault is logged, and its supervisor, where it has one
that can be told, gets a fault message with the number of the record. -/
def State.loseReported (s : State) (place c : Nat) (r : LogRecord) (m : Nat → Nat → Word → Msg) : State :=
  let die := placeDie place
  let w := s.reportPath place c none
  let s := s.headerTouch c
  let before := s.lastRecord die
  let s := (s.killContext c).logRecord die r
  if s.supervisorOf c = some c then s
  else s.sendReportOn place w (m (if s.lastRecord die = before then 0 else s.lastRecord die))

/-- A context lost outside its activations: dead, logged once, and told to its supervisor (R406). -/
def State.loseContext (s : State) (place c : Nat) (r : LogRecord) : State :=
  let n := s.freeCtr
  { s with freeCtr := n + 8 }.loseReported place c r fun seq => { lostReport n c with record := seq }.msg

/-- Sends a message that is never spilled to the supervisor of a context. The context is made dead where R415 says so: that is
a fault of containment context, told to the supervisor by the header's handler, where only the message's own handler failed
(R406). -/
def State.tellSupervisor (s : State) (place c cls cause : Nat) (handler : Option Word) (m : Nat → Word → Msg) : State :=
  match s.reportPath place c handler with
  | .unreadable => s.tableFailure place c
  | .nowhere =>
    if handler.isSome then s.loseContext place c ⟨cls, 2, cause, 4, some c, none, place, c⟩ else s.containmentKill place c cls cause
  | w => (s.headerTouch c).sendReportOn place w m

/-- `SLOTID` of a slot (R176). -/
def State.slotIdOf (s : State) (k : Nat) : Word :=
  word (s.pkg * 2 ^ 20 + dieOfSlot k * 2 ^ 15 + pcoreOf (coreOfSlot k) * 4 + k % 4)

/-! ## Pre-emption of a logical core (R55, R59) -/

/-- Whether a slot of a core runs an activation of a logical core. -/
def State.runs (s : State) (core c l : Nat) : Bool :=
  (List.range 4).any fun i => let x := s.getSlot (slotKey core i); x.active && x.ctx == c && x.lcore == l

/-- Whether a pre-emption of a logical core is pending on a core. -/
def State.preempting (s : State) (core c l : Nat) : Bool :=
  (s.getCore core).marks.any fun m => m.ctx == c && m.lcore == l && !m.preempted

/-- Whether a pre-emption of a context is pending on a core: of some logical core of it (R55, R61). -/
def State.pendingPreempt (s : State) (core c : Nat) : Bool :=
  (s.getCore core).marks.any fun m => m.ctx == c && !m.preempted

/-- Whether a logical core is pre-empting or pre-empted on a core. -/
def State.marked (s : State) (core c l : Nat) : Bool := (s.getCore core).marks.any fun m => m.ctx == c && m.lcore == l

/-- A pre-emption completion (R59): logical core, count of save records, and the mask of their positions. -/
def completionMsg (l : Nat) (saved : List Nat) (sup : Nat) (handler : Word) : Msg :=
  ⟨handler, metaOf 2 1 3 sup l 0xFFFF,
    [word (l * 2 ^ 16 + saved.length % 8 * 16 + saved.foldl (fun a p => a ||| 2 ^ (p % 4)) 0)]⟩

/-- A pre-empting logical core of which no slot runs any more is pre-empted, and its supervisor is told: at each logical core
as it is, not once all of the context on the core are (R59; DESIGN CHOICE, log 49). -/
def State.preemptSettle (s : State) (core c l : Nat) : State :=
  let x := s.getCore core
  match x.marks.find? fun m => m.ctx == c && m.lcore == l && !m.preempted with
  | none => s
  | some m =>
    if s.runs core c l then s
    else
      let marks := x.marks.map fun y => if y == m then { y with preempted := true } else y
      (s.setCore core { x with marks := marks }).tellSupervisor (s.corePlace core) c 2 5 (some m.handler)
        (completionMsg l m.saved)

/-! ## SEND, SPAWN, LAUNCH (R288, R289) -/

/-- The three words. -/
inductive SendKind where
  | send | spawn | launch
deriving DecidableEq, Repr

/-- Payload doublewords from consecutive registers. -/
def State.payload (s : State) (p : Fin 32) (n : Nat) : List Word := (List.range n).map fun j => s.g (Fin.ofNat 32 (p.val + j))

/-- The message of the word being executed. -/
def State.taskMsg (s : State) (a b : GReg) (p : Fin 32) (n : Nat) : Msg :=
  ⟨s.g a, metaOf 0 n ((s.g b).bits 16 2) s.hot.ctx s.hot.lcore ((s.g b).bits 0 16), s.payload p n⟩

/-- A scoreboarded register waits for a reply (R289); `g0` waits for nothing. -/
def State.await (s : State) (d : GReg) (f : BusyFor) : State :=
  if d = 0 then s else { s with hot := { s.hot with busy := (d, f) :: s.hot.busy } }

/-- The creation of the word being executed is outstanding (R50): `SLIM` counts it, or the safe point alone awaits it. -/
def State.create (s : State) (counted : Bool) : State :=
  if counted then { s with hot := { s.hot with creations := s.hot.creations + 1 } }
  else { s with hot := { s.hot with ownCreations := s.hot.ownCreations + 1 } }

/-- The candidate range of a posted task: the gang of the issuing core's entry, or the core alone (R329). -/
def State.gangRange (s : State) (core c lc : Nat) : Option (Nat × Nat) :=
  match s.ctLookup core c lc with
  | .unreadable => none
  | .unmapped => some (lc, 1)
  | .entry _ e => if e.gfirst = 0xFFFF then some (lc, 1) else some (e.gfirst, e.gsize + 1)

/-- Kills the context of the executing slot after a failed table access, and waits (R464). -/
def State.tableDead (s : State) : Out := .next (s.tableFailure (s.slotPlace s.hotId) s.hot.ctx).stall

/-- A `SPAWN` with ANY set posts a record to the work queue of its die (R289, R329). -/
def postRecord (d : GReg) (m : Msg) (s : State) : Out :=
  match s.gangRange s.core s.hot.ctx s.hot.lcore with
  | none => s.tableDead
  | some (first, count) =>
    let s := s.ctMiss s.core s.hot.ctx s.hot.lcore
    let r : WorkRecord := ⟨m, first, count, 0, 0, .slot s.hotId s.hot.gen d true⟩
    .next (((s.await d .task).create true).post (.workQueueRecordArrival s.die r)).retire

/-- `SEND`, `SPAWN` and `LAUNCH`. -/
def sendWord (i : Instr) (k : SendKind) (d a b : GReg) (p : Fin 32) (n : Plen) (s : State) : Out :=
  if 32 < p.val + n.val then .next (s.raise .illegal 7 (s.wordVal i))
  else
    let w := s.g b
    let lc := w.bits 0 16
    let any : Bool := k == .spawn && w.bit 18
    let counted : Bool := match k with | .send => false | .spawn => any || lc != s.hot.lcore | .launch => true
    let m := s.taskMsg a b p n.val
    if decide (0 < s.hot.retrying) || (counted && decide (s.hot.slim ≤ s.hot.creations)) then .next s.stall
    else if any then postRecord d m s
    else
      match s.destination s.core s.hot.ctx lc with
      | (s, .dead) => s.tableDead
      | (s, .refused 1) => .next (s.raise .message 1 w)
      | (s, dest) =>
        let far : Bool := match dest with | .here c => dieOfCore c != s.die | _ => true
        if k = .spawn ∧ far then .next (s.raise .message 2 w)
        else match dest with
          | .refused e => .next (s.raise .message e w)
          | _ =>
            if k = .send then .next (s.dispatchTo dest m (.send s.hotId s.hot.gen)).retire
            else .next (((s.await d .task).create counted).dispatchTo dest m (.slot s.hotId s.hot.gen d counted)).retire

def execSend (a : GReg) (b : GReg) (p : Fin 32) (n : Plen) (s : State) : Out := sendWord (.send a b p n) .send 0 a b p n s
def execSpawn (d : GReg) (a : GReg) (b : GReg) (p : Fin 32) (n : Plen) (s : State) : Out :=
  sendWord (.spawn d a b p n) .spawn d a b p n s
def execLaunch (d : GReg) (a : GReg) (b : GReg) (p : Fin 32) (n : Plen) (s : State) : Out :=
  sendWord (.launch d a b p n) .launch d a b p n s

/-! ## Ending an activation (R51, R52, R290, R292, R293) -/

/-- Whether a capture is incomplete (R266). -/
def Slot.repCapturing (x : Slot) : Bool := match x.rep with | some r => r.todo != 0 | none => false

/-- A resumed activation has executed its first bundle at the resume address, or has ended (R60, step 3). -/
def State.resumedOne (s : State) (k : Nat) : State :=
  let x := s.getSlot k
  let core := coreOfSlot k
  let c := s.getCore core
  let rows := c.resuming.map fun (r : Nat × Nat × Nat × Nat) =>
    if r.1 = x.ctx ∧ r.2.1 = x.lcore then (r.1, r.2.1, r.2.2.1, r.2.2.2 - 1) else r
  ((s.setSlot k { x with stub := none }).setCore core { c with resuming := rows }).post (.resumption core)

/-- The executing slot's activation ends: the slot is free for dispatch, and its logical core is pre-empted if nothing
of it runs any more (R56). -/
def State.endActivation (s : State) : State :=
  let core := s.core
  let c := s.hot.ctx
  let l := s.hot.lcore
  let s := if s.hot.stub.isSome then s.resumedOne s.hotId else s
  let s := { s with hot := { s.hot.freed with retired := s.hot.retired + 1, did := .done } }
  (s.preemptSettle core c l).post (.dispatch core)

/-- The repetition buffer holds an incomplete capture: `SAFEPT`, `DONE`, `YIELD` and `MIGR` raise REP_MISUSE detail 2
(R433). -/
def repOpen (i : Instr) (s : State) (k : Out) : Out :=
  if s.hot.repCapturing then .next (s.raise .repMisuse 2 (s.wordVal i)) else k

/-- `DONE`. -/
def execDone (s : State) : Out := repOpen .done s (.next s.endActivation)

/-- The migrate message of the executing activation (R51). -/
def State.migrateMsg (s : State) (cont : Word) (dst : Nat) : Msg :=
  ⟨cont, metaOf 1 8 s.hot.prio s.hot.ctx s.hot.lcore dst, s.payload 8 8⟩

/-- `YIELD`: the message leaves once every earlier access has performed, to the issuing core itself. -/
def execYield (s : State) : Out :=
  repOpen .yield s
    (if s.hot.reductions ≠ [] ∨ 0 < s.hot.retrying then .next s.stall
     else .next (s.post (.taskMessageArrival s.core (coreStop (pcoreOf s.core)) (s.migrateMsg s.hot.nxt s.hot.lcore)
        (.send s.hotId s.hot.gen))).endActivation)

/-- The owner of an address: the logical core, ACCESS detail 5, or a map that cannot be read or is broken (R52). -/
inductive OwnerOf where
  | lcore (k : Nat) | outside | dead
deriving DecidableEq, Repr

/-- The owner of an address (R52); the reads of the map set A in the PTEs that they translate through (R494). -/
def State.ownerAccess (s : State) (c : Nat) (va : Word) : State × OwnerOf :=
  if inAperture va then
    let a := va.toNat - 0x00F0000000000000
    (s, .lcore (a % 2 ^ 48 / (262144 * windowScale (a / 2 ^ 48))))
  else
    let m := (s.getCtx c).ownmap
    match s.tableAccess c m 32 with
    | (s, none) => (s, .dead)
    | (s, some h) =>
      let base := h % 2 ^ 64
      let limit := h / 2 ^ 64 % 2 ^ 64
      let g := h / 2 ^ 128 % 2 ^ 8
      if g < 12 ∨ 30 < g ∨ h / 2 ^ 136 ≠ 0 then (s, .dead)
      else if va.toNat < base ∨ limit ≤ va.toNat then (s, .outside)
      else match s.tableAccess c (m + word (32 + 2 * ((va.toNat - base) / 2 ^ g))) 2 with
        | (s, none) => (s, .dead)
        | (s, some k) => (s, .lcore k)

/-- `MIGR`. -/
def execMigr (a : GReg) (i : BitVec 14) (s : State) : Out :=
  repOpen (.migr a i) s
    (if s.hot.reductions ≠ [] ∨ 0 < s.hot.retrying ∨ s.hot.slim ≤ s.hot.creations then .next s.stall
     else
       let va := s.g a
       let cont := if i = 0 then s.hot.nxt else target14 s.hot.wa i
       match s.ownerAccess s.hot.ctx va with
       | (s, .dead) => s.tableDead
       | (s, .outside) => .next (s.raise .access 5 va)
       | (s, .lcore k) =>
         match s.destination s.core s.hot.ctx k with
         | (s, .dead) => s.tableDead
         | (s, .refused d) => .next (s.raise .message d va)
         | (s, dest) => .next (s.dispatchTo dest (s.migrateMsg cont k) (.migr s.hotId)).endActivation)

/-! ## TCANCEL, TQRY (R294) -/

/-- A request about a task goes to the core that holds its logical core. With no such core the task is not found; a core
of another package answers with a value that the model leaves free within R294: whether it was found, a code of 0 to 2 and an
occupancy of 0 to 64. -/
def taskQuery (query : Bool) (d a : GReg) (s : State) : Out :=
  let id := (s.g a).bits 0 32
  match s.ctLookup s.core s.hot.ctx (id / 2 ^ 16) with
  | .unreadable => s.tableDead
  | .unmapped => .next ((s.ctMiss s.core s.hot.ctx (id / 2 ^ 16)).writeG d (if query then 2 else 1)).retire
  | .entry raw e =>
    let s := s.ctFill s.core s.hot.ctx (id / 2 ^ 16) raw
    if e.pkg = s.pkg then
      .next ((s.await d .control).post
        (.taskControlRequest (coreKey e.die e.pcore) s.hotId s.hot.gen d s.hot.ctx id query)).retire
    else
      let x := Config.freeWord s.freeCtr
      .next (s.bump.writeG d (if query then word (x.bits 0 32 % 3 + x.bits 32 32 % 65 * 2 ^ 8) else x &&& 1)).retire

def execTcancel (d : GReg) (a : GReg) (s : State) : Out := taskQuery false d a s
def execTqry (d : GReg) (a : GReg) (s : State) : Out := taskQuery true d a s

end Sys2Proof.Machine
end

