-- ==== Sys2Proof/Machine/F8k.lean ====
section
/-!
DEFINITION. F8K: blocks and tiles, decoded and written in canonical form (R76 to R82), and the combination of two
blocks (R93).
-/
namespace Sys2Proof.Machine

/-! ## Blocks (R78, R79) -/

/-- The bits of bytes, least significant first (R79). -/
def bitsOfBytes (bs : List Byte) : List Bool := bs.flatMap fun b => (List.range 8).map fun i => nbitB b i
where
  nbitB (b : Byte) (i : Nat) : Bool := b.toNat / 2 ^ i % 2 == 1

/-- A number from bits, least significant first. -/
def natOfBits : List Bool → Nat
  | [] => 0
  | b :: t => (if b then 1 else 0) + 2 * natOfBits t

/-- One exponent token at the head of a stream: the exponent and the rest (R79, R80). -/
def takeToken (base : Nat) (bits : List Bool) : Option (Nat × List Bool) :=
  let down (d : Nat) (rest : List Bool) : Option (Nat × List Bool) := if d ≤ base then some (base - d, rest) else none
  match bits with
  | false :: t => down 0 t
  | true :: false :: t => down 1 t
  | true :: true :: false :: t => down 2 t
  | true :: true :: true :: false :: t => down 3 t
  | true :: true :: true :: true :: a :: b :: c :: d :: t => some (natOfBits [a, b, c, d], t)
  | _ => none

/-- `n` tokens, then padding of zeros. -/
def takeTokens (base : Nat) : Nat → List Bool → Option (List Nat)
  | 0, rest => if rest.any id then none else some []
  | n + 1, bits =>
    match takeToken base bits with
    | none => none
    | some (e, rest) => (takeTokens base n rest).map (e :: ·)

/-- The nibble of element `j` of a block: sign and fraction (R78). -/
def nibbleAt (bs : List Byte) (j : Nat) : Nat :=
  let b := (bs.getD (2 + j / 2) 0).toNat
  if j % 2 = 0 then b % 16 else b / 16

/-- The 32 codes of a block, none if it is malformed (R80). -/
def decodeBlock (bs : List Byte) : Option (List Nat) :=
  let b0 := (bs.getD 0 0).toNat
  let t := (bs.getD 1 0).toNat
  if 15 < b0 ∨ t < 4 ∨ 32 < t then none
  else
    (takeTokens b0 32 (bitsOfBytes ((bs.drop 18).take t))).map fun es =>
      es.mapIdx fun j e =>
        let nb := nibbleAt bs j
        nb / 8 * 128 + e * 8 + nb % 8

/-- Exponent field of a code. -/
def codeExp (c : Nat) : Nat := c / 8 % 16

/-- The canonical token of an exponent (R81). -/
def tokenOf (base e : Nat) : List Bool :=
  let d := base - e
  if d < 4 then List.replicate d true ++ [false]
  else [true, true, true, true] ++ (List.range 4).map fun i => e / 2 ^ i % 2 == 1

/-- Bytes of bits, least significant first, `n` bytes. -/
def bytesOfBits : Nat → List Bool → List Byte
  | 0, _ => []
  | n + 1, bits => BitVec.ofNat 8 (natOfBits (bits.take 8)) :: bytesOfBits n (bits.drop 8)

/-- The canonical block of 32 codes (R81). -/
def encodeBlock (codes : List Nat) : List Byte :=
  let base := codes.foldl (fun m c => max m (codeExp c)) 0
  let bits := codes.flatMap fun c => tokenOf base (codeExp c)
  let t := max 4 ((bits.length + 7) / 8)
  let nib (c : Nat) : Nat := c / 128 % 2 * 8 + c % 8
  let nibs := (List.range 16).map fun k => BitVec.ofNat 8 (nib (codes.getD (2 * k) 0) + 16 * nib (codes.getD (2 * k + 1) 0))
  [BitVec.ofNat 8 base, BitVec.ofNat 8 t] ++ nibs ++ bytesOfBits t bits

/-! ## Tiles (R76, R77, R80, R81) -/

/-- Bytes of a tile slot. -/
def tileBytes : Nat := 1792

/-- A tile decoded: scale, orientation and the 32 blocks; none if it is malformed (R80). -/
structure Tile where
  scale : Int
  column : Bool
  blocks : List (List Nat)
deriving DecidableEq, Repr

/-- Whether the blocks at (offset, length) lie within bytes 128 to 1,791 and do not overlap (R78). -/
def blocksFit (bl : List (Nat × Nat)) : Bool :=
  bl.all (fun x => decide (128 ≤ x.1) && decide (x.1 + x.2 ≤ tileBytes)) &&
  bl.zipIdx.all fun x => bl.zipIdx.all fun y => x.2 == y.2 || decide (x.1.1 + x.1.2 ≤ y.1.1) || decide (y.1.1 + y.1.2 ≤ x.1.1)

/-- The blocks of a tile, all or none. -/
def decodeBlocks (bs : List Byte) : List Nat → Option (List (List Nat))
  | [] => some []
  | o :: t =>
    match decodeBlock (bs.drop o), decodeBlocks bs t with
    | some b, some r => some (b :: r)
    | _, _ => none

/-- The first blocks of a tile slot that its first `rows` rows and `cols` columns need, by its orientation. -/
def neededBlocks (bs : List Byte) (rows cols : Nat) : Nat := if (bs.getD 65 0) = 1 then cols else rows

/-- The offsets of the first `n` blocks of a slot. -/
def tileOffsets (bs : List Byte) (n : Nat) : List Nat := (List.range n).map fun i => leNat ((bs.drop (2 * i)).take 2)

/-- The places of all 32 blocks by the header: of a needed block by its token byte count, of another, of which no byte is fetched
(R315), as short as a block can be. -/
def tilePlaces (bs : List Byte) (needed : Nat) : List (Nat × Nat) :=
  (tileOffsets bs 32).zipIdx.map fun x => (x.1, if x.2 < needed then 18 + (bs.getD (x.1 + 1) 0).toNat else 22)

/-- Decodes what the first `rows` rows and `cols` columns need of a tile slot of 1,792 bytes: its header line and the blocks
that hold them. -/
def decodeTile (bs : List Byte) (rows cols : Nat) : Option Tile :=
  let offs := tileOffsets bs (neededBlocks bs rows cols)
  let o := (bs.getD 65 0).toNat
  if 1 < o ∨ (bs.getD 66 0) ≠ 0 ∨ ((bs.drop 67).take 61).any (· != 0) then none
  else if !blocksFit (tilePlaces bs (neededBlocks bs rows cols)) then none
  else (decodeBlocks bs offs).map fun b => ⟨readInt true 8 (bs.getD 64 0).toNat, o == 1, b⟩

/-- Element (row, col) of a tile (R77). -/
def Tile.elem (t : Tile) (row col : Nat) : Nat :=
  if t.column then (t.blocks.getD col []).getD row 0 else (t.blocks.getD row []).getD col 0

/-- Offsets of consecutive blocks. -/
def blockOffsets : Nat → List (List Byte) → List Nat
  | _, [] => []
  | o, b :: t => o :: blockOffsets (o + b.length) t

/-- The canonical tile of 32 blocks of codes (R81). -/
def encodeTile (scale : Int) (column : Bool) (blocks : List (List Nat)) : List Byte :=
  let bl := blocks.map encodeBlock
  let head := (blockOffsets 128 bl).flatMap fun o => leBytes o 2
  let body := bl.flatten
  head ++ [BitVec.ofNat 8 (intBits 8 scale), if column then 1 else 0, 0] ++ List.replicate 61 0 ++ body ++
    List.replicate (tileBytes - 128 - body.length) 0

/-! ## Scaling and quantising -/

/-- A value times a power of two. -/
def scaleVal (x : FVal) (k : Int) : FVal := match x with | .num n m e => .num n m (e + k) | y => y

/-- The least `s` in `[lo, hi]` with `m × 2^e ≤ 240 × 2^s`, searched upward (R82). -/
def scaleSearch (m : Nat) (e : Int) : Nat → Int → Int
  | 0, s => s
  | n + 1, s =>
    let k := min e s
    if m * 2 ^ (e - k).toNat ≤ 240 * 2 ^ (s - k).toNat then s else scaleSearch m e n (s + 1)

/-- The tile scale `MQD` chooses for FP32 elements (R82). -/
def quantScale (xs : List Nat) : Int :=
  let best := xs.foldl (fun (b : Option (Nat × Int)) x =>
    match Fmt.fp32.read x with
    | .num _ m e =>
      match b with
      | none => some (m, e)
      | some (bm, be) => if (FVal.num false bm be).lt (.num false m e) then some (m, e) else b
    | _ => b) none
  match best with
  | none => 0
  | some (m, e) => scaleSearch m e 255 (-128)

/-- One element quantised at scale `s`: exact scaling, R70, no flag kept (R75, R82). -/
def quantElem (s : Int) (x : Nat) : Nat := (toFmt8 .f8 (scaleVal (Fmt.fp32.read x) (-s))).bits

/-! ## `BARQ` (R93, R323, R455) -/

/-- The sum of two scaled F8 codes rounded to FP32, then quantised: code and flags. -/
def barqElem (sa sb so : Int) (a b : Nat) : Nat × Nat :=
  let x := scaleVal (Fmt8.f8.read a) sa
  let y := scaleVal (Fmt8.f8.read b) sb
  let t := fAddExact x y
  let q := toFmt8 .f8 (scaleVal (Fmt.fp32.read t.bits) (-so))
  (q.bits, t.flags ||| q.flags)
where
  fAddExact (x y : FVal) : FRes := if x.isNaN || y.isNaN then ⟨Fmt.fp32.canonNaN, 0⟩ else roundVal .fp32 .rne (x.add .rne y)

/-- The result register of `BARQ` with the flags of each element. -/
def barq (va vb : List Byte) (c : Nat) : List Byte × List Nat :=
  let sa := readInt true 8 (va.getD 63 0).toNat
  let sb := readInt true 8 (vb.getD 63 0).toNat
  let so := min (max sa sb + c) 127
  let res : List (Nat × Nat) :=
    match decodeBlock va, decodeBlock vb with
    | some xs, some ys => (List.zip xs ys).map fun x => barqElem sa sb so x.1 x.2
    | _, _ => List.replicate 32 (0x80, flagNV)
  let blk := encodeBlock (res.map (·.1))
  (blk ++ List.replicate (63 - blk.length) 0 ++ [BitVec.ofNat 8 (intBits 8 so)], res.map (·.2))

end Sys2Proof.Machine
end

