-- ==== Sys2Proof/Machine/Integer.lean ====
section
/-!
DEFINITION. The integer and address words: INT, MULDIV, BIT, BFLD, `ADDSH`, immediate forms, SHI, W32, `LUI`, `ADDPC`
(R190 to R200, R205).
-/
namespace Sys2Proof.Machine

/-! ## Operations -/

/-- A shift count: bits [5:0] (R191). -/
def shamt (b : Word) : Nat := b.bits 0 6
def aluMin (a b : Word) : Word := if a.toInt < b.toInt then a else b
def aluMax (a b : Word) : Word := if a.toInt < b.toInt then b else a
def aluMinn (a b : Word) : Word := if a.toNat < b.toNat then a else b
def aluMaxn (a b : Word) : Word := if a.toNat < b.toNat then b else a
def aluSlt (a b : Word) : Word := boolWord (decide (a.toInt < b.toInt))
def aluSltn (a b : Word) : Word := boolWord (decide (a.toNat < b.toNat))

/-- Bits [127:64] of an exact product. -/
def highHalf (x : Int) : Word := BitVec.ofInt 64 (x / 2 ^ 64)
def aluDiv (a b : Word) : Word := if b = 0 then onesWord else a.sdiv b
def aluDivn (a b : Word) : Word := if b = 0 then onesWord else a.udiv b
def aluRem (a b : Word) : Word := if b = 0 then a else a.srem b
def aluRemn (a b : Word) : Word := if b = 0 then a else a.umod b

def aluClz (a : Word) : Word := if a = 0 then 64 else word (63 - Nat.log2 a.toNat)
def aluCtz (a : Word) : Word := if a = 0 then 64 else word (Nat.log2 (a &&& -a).toNat)
/-- Number of one bits among the low `n`. -/
def popcount (x : Nat) : Nat → Nat
  | 0 => 0
  | n + 1 => x % 2 + popcount (x / 2) n
def aluPopc (a : Word) : Word := word (popcount a.toNat 64)
/-- The low `n` bits in reverse order. -/
def reverseBits (x : Nat) : Nat → Nat
  | 0 => 0
  | n + 1 => x % 2 * 2 ^ n + reverseBits (x / 2) n
def aluBrev (a : Word) : Word := word (reverseBits a.toNat 64)
def aluBswap (a : Word) : Word := word (leNat (leBytes a.toNat 8).reverse)

/-- EXTS, EXTZ and INS on a field of `n` bits at `p` (R196). -/
def aluExts (a : Word) (p n : Nat) : Word := sextTo64 n (a.toNat / 2 ^ p)
def aluExtz (a : Word) (p n : Nat) : Word := word (a.toNat / 2 ^ p % 2 ^ n)
def aluIns (t a : Word) (p n : Nat) : Word :=
  let mask := (2 ^ n - 1) * 2 ^ p
  (t &&& ~~~(word mask)) ||| word (a.toNat % 2 ^ n * 2 ^ p)

/-- sext(r[31:0], 32), the result form of W32 (R200). -/
def w32 (x : BitVec 32) : Word := x.signExtend 64
def lo32 (x : Word) : BitVec 32 := x.setWidth 32

/-! ## Shared forms -/

/-- An INT word (R191): take or read `a`, compute, append or write. -/
def intWord (d : SDst) (a : SSrc) (op : Word → Word) (s : State) : Out :=
  match s.takeSrc a with
  | none => .next s.stall
  | some (x, s1) =>
    match s1.putDst d (op x) with
    | none => .next s1.stall
    | some s2 => .next (s2.clearTaken a).retire

/-- A word that writes one `g` register and does nothing else. -/
def gWord (d : GReg) (x : Word) (s : State) : Out := .next (s.writeG d x).retire

/-! ## INT (R191) -/

def execAdd (d : SDst) (a : SSrc) (b : GReg) (s : State) : Out := intWord d a (fun x => x + s.g b) s
def execSub (d : SDst) (a : SSrc) (b : GReg) (s : State) : Out := intWord d a (fun x => x - s.g b) s
def execAnd (d : SDst) (a : SSrc) (b : GReg) (s : State) : Out := intWord d a (fun x => x &&& s.g b) s
def execOr (d : SDst) (a : SSrc) (b : GReg) (s : State) : Out := intWord d a (fun x => x ||| s.g b) s
def execXor (d : SDst) (a : SSrc) (b : GReg) (s : State) : Out := intWord d a (fun x => x ^^^ s.g b) s
def execAndn (d : SDst) (a : SSrc) (b : GReg) (s : State) : Out := intWord d a (fun x => x &&& ~~~(s.g b)) s
def execOrn (d : SDst) (a : SSrc) (b : GReg) (s : State) : Out := intWord d a (fun x => x ||| ~~~(s.g b)) s
def execXnor (d : SDst) (a : SSrc) (b : GReg) (s : State) : Out := intWord d a (fun x => ~~~(x ^^^ s.g b)) s
def execSll (d : SDst) (a : SSrc) (b : GReg) (s : State) : Out := intWord d a (fun x => x <<< shamt (s.g b)) s
def execSrl (d : SDst) (a : SSrc) (b : GReg) (s : State) : Out := intWord d a (fun x => x >>> shamt (s.g b)) s
def execSra (d : SDst) (a : SSrc) (b : GReg) (s : State) : Out := intWord d a (fun x => x.sshiftRight (shamt (s.g b))) s
def execRol (d : SDst) (a : SSrc) (b : GReg) (s : State) : Out := intWord d a (fun x => x.rotateLeft (shamt (s.g b))) s
def execRor (d : SDst) (a : SSrc) (b : GReg) (s : State) : Out := intWord d a (fun x => x.rotateRight (shamt (s.g b))) s
def execMin (d : SDst) (a : SSrc) (b : GReg) (s : State) : Out := intWord d a (fun x => aluMin x (s.g b)) s
def execMax (d : SDst) (a : SSrc) (b : GReg) (s : State) : Out := intWord d a (fun x => aluMax x (s.g b)) s
def execMinn (d : SDst) (a : SSrc) (b : GReg) (s : State) : Out := intWord d a (fun x => aluMinn x (s.g b)) s
def execMaxn (d : SDst) (a : SSrc) (b : GReg) (s : State) : Out := intWord d a (fun x => aluMaxn x (s.g b)) s
def execSlt (d : SDst) (a : SSrc) (b : GReg) (s : State) : Out := intWord d a (fun x => aluSlt x (s.g b)) s
def execSltn (d : SDst) (a : SSrc) (b : GReg) (s : State) : Out := intWord d a (fun x => aluSltn x (s.g b)) s

/-- `SEL`: a if g[rd] ≠ 0, else b; rd is read before it is written. A queue destination is ILLEGAL detail 7, found at
decode (R191, R424). -/
def execSel (d : SDst) (a : SSrc) (b : GReg) (s : State) : Out :=
  match d with
  | .g r => intWord d a (fun x => if s.g r ≠ 0 then x else s.g b) s
  | .q n => .next (s.raise .illegal 7 (s.wordVal (.sel (.q n) a b)))

/-! ## MULDIV (R194) -/

def execMul (d a b : GReg) (s : State) : Out := gWord d (s.g a * s.g b) s
def execMulh (d a b : GReg) (s : State) : Out := gWord d (highHalf ((s.g a).toInt * (s.g b).toInt)) s
def execMulhn (d a b : GReg) (s : State) : Out := gWord d (highHalf (((s.g a).toNat * (s.g b).toNat : Nat) : Int)) s
def execMulhsn (d a b : GReg) (s : State) : Out := gWord d (highHalf ((s.g a).toInt * ((s.g b).toNat : Int))) s
def execDiv (d a b : GReg) (s : State) : Out := gWord d (aluDiv (s.g a) (s.g b)) s
def execDivn (d a b : GReg) (s : State) : Out := gWord d (aluDivn (s.g a) (s.g b)) s
def execRem (d a b : GReg) (s : State) : Out := gWord d (aluRem (s.g a) (s.g b)) s
def execRemn (d a b : GReg) (s : State) : Out := gWord d (aluRemn (s.g a) (s.g b)) s

/-! ## BIT, BFLD, ADDSH (R195 to R197) -/

def execClz (d a : GReg) (s : State) : Out := gWord d (aluClz (s.g a)) s
def execCtz (d a : GReg) (s : State) : Out := gWord d (aluCtz (s.g a)) s
def execPopc (d a : GReg) (s : State) : Out := gWord d (aluPopc (s.g a)) s
def execBrev (d a : GReg) (s : State) : Out := gWord d (aluBrev (s.g a)) s
def execBswap (d a : GReg) (s : State) : Out := gWord d (aluBswap (s.g a)) s

/-- A BFLD word with p + n > 64 is ILLEGAL detail 7, found at decode (R192, R424). -/
def fieldWord (i : Instr) (d : GReg) (p l : BitVec 6) (x : Word) (s : State) : Out :=
  if 64 < p.toNat + l.toNat + 1 then .next (s.raise .illegal 7 (s.wordVal i)) else gWord d x s

def execExts (d a : GReg) (p l : BitVec 6) (s : State) : Out :=
  fieldWord (.exts d a p l) d p l (aluExts (s.g a) p.toNat (l.toNat + 1)) s
def execExtz (d a : GReg) (p l : BitVec 6) (s : State) : Out :=
  fieldWord (.extz d a p l) d p l (aluExtz (s.g a) p.toNat (l.toNat + 1)) s
def execIns (d a : GReg) (p l : BitVec 6) (s : State) : Out :=
  fieldWord (.ins d a p l) d p l (aluIns (s.g d) (s.g a) p.toNat (l.toNat + 1)) s

def execAddsh (d a b : GReg) (k : BitVec 3) (s : State) : Out := gWord d (s.g a + s.g b <<< k.toNat) s

/-! ## Immediate forms and SHI (R198, R199) -/

def execAddi (d a : GReg) (i : BitVec 14) (s : State) : Out := gWord d (s.g a + imm14 i) s
def execAndi (d a : GReg) (i : BitVec 14) (s : State) : Out := gWord d (s.g a &&& imm14 i) s
def execOri (d a : GReg) (i : BitVec 14) (s : State) : Out := gWord d (s.g a ||| imm14 i) s
def execXori (d a : GReg) (i : BitVec 14) (s : State) : Out := gWord d (s.g a ^^^ imm14 i) s
def execSlti (d a : GReg) (i : BitVec 14) (s : State) : Out := gWord d (aluSlt (s.g a) (imm14 i)) s
def execSltni (d a : GReg) (i : BitVec 14) (s : State) : Out := gWord d (aluSltn (s.g a) (imm14 i)) s
def execSlli (d a : GReg) (k : BitVec 6) (s : State) : Out := gWord d (s.g a <<< k.toNat) s
def execSrli (d a : GReg) (k : BitVec 6) (s : State) : Out := gWord d (s.g a >>> k.toNat) s
def execSrai (d a : GReg) (k : BitVec 6) (s : State) : Out := gWord d ((s.g a).sshiftRight k.toNat) s
def execRori (d a : GReg) (k : BitVec 6) (s : State) : Out := gWord d ((s.g a).rotateRight k.toNat) s

/-! ## W32 (R200) -/

def execAddw (d a b : GReg) (s : State) : Out := gWord d (w32 (lo32 (s.g a) + lo32 (s.g b))) s
def execSubw (d a b : GReg) (s : State) : Out := gWord d (w32 (lo32 (s.g a) - lo32 (s.g b))) s
def execSllw (d a b : GReg) (s : State) : Out := gWord d (w32 (lo32 (s.g a) <<< (s.g b).bits 0 5)) s
def execSrlw (d a b : GReg) (s : State) : Out := gWord d (w32 (lo32 (s.g a) >>> (s.g b).bits 0 5)) s
def execSraw (d a b : GReg) (s : State) : Out := gWord d (w32 ((lo32 (s.g a)).sshiftRight ((s.g b).bits 0 5))) s
def execMulw (d a b : GReg) (s : State) : Out := gWord d (w32 (lo32 (s.g a) * lo32 (s.g b))) s

/-! ## LUI and ADDPC (R205) -/

def execLui (d : GReg) (i : BitVec 19) (s : State) : Out := gWord d (immU i) s
def execAddpc (d : GReg) (i : BitVec 19) (s : State) : Out := gWord d (s.hot.wa + immU i) s

end Sys2Proof.Machine
end

