-- ==== Sys2Proof/Machine/Vector.lean ====
section
/-!
DEFINITION. The vector words: their effect as a function of operand values (R245 to R264, R323), used by the V stream
of a slot and by a Bassoon guest entry, and their issue (R241 to R244, R249, R267).
-/
namespace Sys2Proof.Machine

/-- The operand values of a V word: vs1, vs2, vs3 or the prior vd, the selected mask, and two 64-bit operands (`g`
registers read at issue, a queue entry, or mask registers). -/
structure VOps where
  a : VWord
  b : VWord
  c : VWord
  mask : Word
  x : Word
  y : Word
deriving DecidableEq, Repr

/-- An effect that writes nothing. -/
def VRes.none : VRes := ⟨.none, .none, .none, .none, []⟩

/-! ## Integer lanes (R250) -/

/-- Signed value of a lane. -/
def laneInt (w x : Nat) : Int := readInt true w x

def laneBits (w : Nat) (x : Int) : Nat := intBits w x

/-- Lane by lane with a mask: an inactive lane of vd keeps its prior value (R247). -/
def vLanes (d : VReg) (w : Nat) (o : VOps) (op : Nat → Nat → Nat) : VRes :=
  { VRes.none with v := some (d, pack w (mergeLanes o.mask (List.zipWith op (lanes w o.a) (lanes w o.b)) (lanes w o.c))) }

/-- The lanes, modulo 32, and flags of FP results in active lanes. -/
def raisedOf (mask : Word) (rs : List FRes) : List (Nat × Nat) :=
  (rs.mapIdx fun i r => (i, r.flags)).filterMap fun x =>
    if x.2 = 0 ∨ !lanesActive mask x.1 then .none else some (2 ^ (x.1 % 32), x.2)

/-- FP lane by lane with a mask; only active lanes raise flags (R247, R251). -/
def vFLanes (d : VReg) (f : Fmt) (o : VOps) (op : Nat → Nat → FRes) : VRes :=
  let rs := List.zipWith op (lanes f.width o.a) (lanes f.width o.b)
  { VRes.none with
    v := some (d, pack f.width (mergeLanes o.mask (rs.map FRes.bits) (lanes f.width o.c)))
    raised := raisedOf o.mask rs }

/-- FP lane by lane on three operands, unmasked (R252). -/
def vF3Lanes (d : VReg) (f : Fmt) (o : VOps) (op : Nat → Nat → Nat → FRes) : VRes :=
  let rs := (List.zip (lanes f.width o.a) (List.zip (lanes f.width o.b) (lanes f.width o.c))).map fun x => op x.1 x.2.1 x.2.2
  { VRes.none with v := some (d, pack f.width (rs.map FRes.bits)), raised := raisedOf onesWord rs }

/-! ## Compares (R254) -/

/-- The `n` result bits repeat through all 64 bits of the mask register. -/
def repeatBits (bits : List Bool) : Word :=
  word (natOfBits ((List.range 64).map fun i => bits.getD (i % bits.length) false))

def vCmpLanes (d : MReg) (w : Nat) (o : VOps) (rel : Nat → Nat → Bool) : VRes :=
  let r := (List.zipWith rel (lanes w o.a) (lanes w o.b)).mapIdx fun i x => lanesActive o.mask i && x
  { VRes.none with m := some (d, repeatBits r) }

def vFCmpLanes (d : MReg) (f : Fmt) (o : VOps) (rel : FRel) : VRes :=
  let rs := List.zipWith (fCmp f rel) (lanes f.width o.a) (lanes f.width o.b)
  { VRes.none with
    m := some (d, repeatBits (rs.mapIdx fun i r => lanesActive o.mask i && r.bits == 1))
    raised := raisedOf o.mask rs }

/-! ## Scalars out of a vector (R257, R258) -/

/-- Writes a scalar to a `g` register or appends it to `q2` or `q3` (R174). -/
def vScalar (d : VDst) (x : Word) (raised : List (Nat × Nat)) : VRes :=
  match d with
  | .g r => { VRes.none with g := some (r, x), raised := raised }
  | .q n => { VRes.none with q := some (⟨2 + n.val, by omega⟩, x), raised := raised }

/-- The active lanes. -/
def activeLanes (mask : Word) (w : Nat) (x : VWord) : List Nat :=
  ((lanes w x).mapIdx fun i y => (i, y)).filterMap fun p => if lanesActive mask p.1 then some p.2 else .none

/-- Number of levels of a tree over the lanes of a format. -/
def treeDepth (f : Fmt) : Nat := match f with | .fp32 => 4 | .fp64 => 3 | _ => 5

/-- `VRFSUM` (R92, R257). -/
def vrfsumRes (d : VDst) (f : Fmt) (rm : RMode) (o : VOps) : VRes :=
  let members := (lanes f.width o.a).mapIdx fun i x => if lanesActive o.mask i then some (x, 2 ^ (i % 32)) else .none
  let (r, fl) := treeSum f rm (treeDepth f) members
  vScalar d (word r) (fl.filter fun x => x.2 != 0)

/-! ## Conversion and 8-bit arithmetic (R262 to R264) -/

/-- `VCVT` (R262). -/
def vcvtRes (d : VReg) (src dst : CvtType) (rm : RMode) (o : VOps) : VRes :=
  let ws := src.width
  let wd := dst.width
  let m := 512 / max ws wd
  let rs := (List.range m).map fun i => convert src dst rm (lane ws o.a i)
  let old := (List.range m).map (lane wd o.c)
  { VRes.none with
    v := some (d, BitVec.ofNat 512 (packNat wd (mergeLanes o.mask (rs.map FRes.bits) old)))
    raised := raisedOf o.mask rs }

/-- One lane of `VDOT4.f8` (R91, R263). -/
def dotF8 (l a b : Nat) : FRes :=
  let xs := (List.range 4).map fun k => Fmt8.f8.read (a / 2 ^ (8 * k))
  let ys := (List.range 4).map fun k => Fmt8.f8.read (b / 2 ^ (8 * k))
  let z := Fmt.fp32.read l
  if xs.any FVal.isNaN || ys.any FVal.isNaN || z.isNaN then nanRes .fp32 [z]
  else roundVal .fp32 .rne (z.add .rne (sumVals (List.zipWith FVal.mul xs ys)))

/-- One lane of `VDOT4.i8`. -/
def dotI8 (l a b : Nat) : Nat :=
  let s := (List.range 4).foldl (fun s k => s + readInt true 8 (a / 2 ^ (8 * k)) * readInt true 8 (b / 2 ^ (8 * k))) (0 : Int)
  intBits 32 ((l : Int) + s)

/-- `VQ8` of one element: exact scaling, one rounding (R70, R74, R264). Scale exponents beyond ±1,000 give the same
code as ±1,000, since FP32 magnitudes lie between 2⁻¹⁴⁹ and 2¹²⁸. -/
def quant8 (t : Q8Type) (sc : Int) (x : Nat) : FRes :=
  let v := scaleVal (Fmt.fp32.read x) (-(max (-1000) (min 1000 sc)))
  match t with
  | .f8 => toFmt8 .f8 v
  | .f8w => toFmt8 .f8w v
  | .i8 => toInt true 8 .rne v
  | .n8 => toInt false 8 .rne v

/-- `VQ8` (R264). -/
def vq8Res (d : VReg) (t : Q8Type) (p : Fin 4) (o : VOps) : VRes :=
  let sc := readInt true 32 (lane 32 o.b 0)
  let rs := (lanes 32 o.a).map (quant8 t sc)
  let old := lanes 8 o.c
  let new := old.mapIdx fun i x =>
    if 16 * p.val ≤ i ∧ i < 16 * p.val + 16 ∧ lanesActive o.mask (i - 16 * p.val) then ((rs.map FRes.bits).getD (i - 16 * p.val) 0) else x
  { VRes.none with v := some (d, pack 8 new), raised := raisedOf o.mask rs }

/-- Bytes of a vector register, byte 0 first. -/
def vBytes (x : VWord) : List Byte := leBytes x.toNat 64

/-- `BARQ` (R323). -/
def barqRes (d : VReg) (c : BitVec 2) (o : VOps) : VRes :=
  let (bs, fl) := barq (vBytes o.a) (vBytes o.b) c.toNat
  { VRes.none with
    v := some (d, BitVec.ofNat 512 (leNat bs))
    raised := (fl.mapIdx fun i f => (2 ^ i, f)).filter fun x => x.2 != 0 }

/-! ## The effect of each V word -/

/-- The effect of a V word on operand values with rounding mode `rm` (R250 to R264, R323). -/
def evalV (i : Instr) (o : VOps) (rm : Nat) : VRes :=
  let m := RMode.ofCode rm
  match i with
  | .vadd d _ _ _ e => vLanes d e.bits o fun x y => x + y
  | .vsub d _ _ _ e => vLanes d e.bits o fun x y => laneBits e.bits ((x : Int) - y)
  | .vmul d _ _ _ e => vLanes d e.bits o fun x y => x * y
  | .vmulh d _ _ _ e => vLanes d e.bits o fun x y => laneBits e.bits (laneInt e.bits x * laneInt e.bits y / 2 ^ e.bits)
  | .vand d _ _ _ e => vLanes d e.bits o fun x y => x &&& y
  | .vor d _ _ _ e => vLanes d e.bits o fun x y => x ||| y
  | .vxor d _ _ _ e => vLanes d e.bits o fun x y => x ^^^ y
  | .vsll d _ _ _ e => vLanes d e.bits o fun x y => x * 2 ^ (y % e.bits)
  | .vsrl d _ _ _ e => vLanes d e.bits o fun x y => x / 2 ^ (y % e.bits)
  | .vsra d _ _ _ e => vLanes d e.bits o fun x y => laneBits e.bits (laneInt e.bits x / 2 ^ (y % e.bits))
  | .vmin d _ _ _ e => vLanes d e.bits o fun x y => if laneInt e.bits x < laneInt e.bits y then x else y
  | .vmax d _ _ _ e => vLanes d e.bits o fun x y => if laneInt e.bits x < laneInt e.bits y then y else x
  | .vminn d _ _ _ e => vLanes d e.bits o fun x y => if x < y then x else y
  | .vmaxn d _ _ _ e => vLanes d e.bits o fun x y => if x < y then y else x
  | .vfadd d _ _ _ f => vFLanes d f o (fAdd f m)
  | .vfsub d _ _ _ f => vFLanes d f o (fSub f m)
  | .vfmul d _ _ _ f => vFLanes d f o (fMul f m)
  | .vfdiv d _ _ _ f => vFLanes d f o (fDiv f m)
  | .vfsqrt d _ _ f => vFLanes d f { o with b := o.a } fun x _ => fSqrt f m x
  | .vfmin d _ _ _ f => vFLanes d f o (fMinMax f false)
  | .vfmax d _ _ _ f => vFLanes d f o (fMinMax f true)
  | .vffma d _ _ _ f => vF3Lanes d f o (fFma f m false false)
  | .vffms d _ _ _ f => vF3Lanes d f o (fFma f m false true)
  | .vfnfma d _ _ _ f => vF3Lanes d f o (fFma f m true true)
  | .vfnfms d _ _ _ f => vF3Lanes d f o (fFma f m true false)
  | .veq d _ _ _ e => vCmpLanes d e.bits o fun x y => x == y
  | .vlt d _ _ _ e => vCmpLanes d e.bits o fun x y => decide (laneInt e.bits x < laneInt e.bits y)
  | .vltn d _ _ _ e => vCmpLanes d e.bits o fun x y => decide (x < y)
  | .vfeq d _ _ _ f => vFCmpLanes d f o .eq
  | .vflt d _ _ _ f => vFCmpLanes d f o .lt
  | .vfle d _ _ _ f => vFCmpLanes d f o .le
  | .vsel d _ _ _ e => { VRes.none with v := some (d, pack e.bits (mergeLanes o.mask (lanes e.bits o.a) (lanes e.bits o.b))) }
  | .vrsum d _ _ e => vScalar d (BitVec.ofInt 64 ((activeLanes o.mask e.bits o.a).foldl (fun s x => s + laneInt e.bits x) 0)) []
  | .vrmin d _ _ e =>
    vScalar d (BitVec.ofInt 64 ((activeLanes o.mask e.bits o.a).foldl (fun s x => min s (laneInt e.bits x)) (2 ^ (e.bits - 1) - 1))) []
  | .vrmax d _ _ e =>
    vScalar d (BitVec.ofInt 64 ((activeLanes o.mask e.bits o.a).foldl (fun s x => max s (laneInt e.bits x)) (-2 ^ (e.bits - 1)))) []
  | .vrfsum d _ _ f => vrfsumRes d f m o
  | .vperm d _ _ _ e => vLanes d e.bits o fun _ y => lane e.bits o.a (y % (512 / e.bits))
  | .vzip d _ _ _ e =>
    { VRes.none with v := some (d, pack e.bits (mergeLanes o.mask
      ((List.range (512 / e.bits)).map fun i => if i % 2 = 0 then lane e.bits o.a (i / 2) else lane e.bits o.b (i / 2)) (lanes e.bits o.c))) }
  | .vunzip d _ _ _ e =>
    { VRes.none with v := some (d, pack e.bits (mergeLanes o.mask
      ((List.range (512 / e.bits)).map fun i =>
        if 2 * i < 512 / e.bits then lane e.bits o.a (2 * i) else lane e.bits o.b (2 * i - 512 / e.bits)) (lanes e.bits o.c))) }
  | .vbcast d _ _ e => vLanes d e.bits o fun _ _ => o.x.toNat % 2 ^ e.bits
  | .vext d _ _ _ e =>
    let idx := o.x.toNat % (512 / e.bits)
    vScalar d (if lanesActive o.mask idx then word (lane e.bits o.a idx) else 0) []
  | .vins d _ _ _ e =>
    let idx := o.y.toNat % (512 / e.bits)
    { VRes.none with v := some (d, pack e.bits ((lanes e.bits o.c).mapIdx fun i x =>
      if i = idx ∧ lanesActive o.mask idx then o.x.toNat % 2 ^ e.bits else x)) }
  | .vcvt d _ s _ r t => vcvtRes d s t (RMode.ofCode (rnd4Code r rm)) o
  | .vdot4 d _ _ _ .f8 =>
    let rs := (List.zip (lanes 32 o.c) (List.zip (lanes 32 o.a) (lanes 32 o.b))).map fun x => dotF8 x.1 x.2.1 x.2.2
    { VRes.none with v := some (d, pack 32 (mergeLanes o.mask (rs.map FRes.bits) (lanes 32 o.c))), raised := raisedOf o.mask rs }
  | .vdot4 d _ _ _ .i8 =>
    let rs := (List.zip (lanes 32 o.c) (List.zip (lanes 32 o.a) (lanes 32 o.b))).map fun x => dotI8 x.1 x.2.1 x.2.2
    { VRes.none with v := some (d, pack 32 (mergeLanes o.mask rs (lanes 32 o.c))) }
  | .vq8 d _ _ _ t p => vq8Res d t p o
  | .vfrsqe d _ _ f => vFLanes d f { o with b := o.a } fun x _ => fSeed f true x
  | .vfrcpe d _ _ f => vFLanes d f { o with b := o.a } fun x _ => fSeed f false x
  | .mand d _ _ => { VRes.none with m := some (d, o.x &&& o.y) }
  | .mor d _ _ => { VRes.none with m := some (d, o.x ||| o.y) }
  | .mxor d _ _ => { VRes.none with m := some (d, o.x ^^^ o.y) }
  | .mnot d _ => { VRes.none with m := some (d, ~~~o.x) }
  | .mpop d _ => { VRes.none with g := some (d, aluPopc o.x) }
  | .mfirst d _ => { VRes.none with g := some (d, aluCtz o.x) }
  | .barq d _ _ c => barqRes d c o
  | _ => VRes.none

/-! ## Operands of a V word -/

/-- The `v` register fields of a V word: vs1, vs2, and vs3 or vd; and its mask field. -/
structure VFields where
  a : VReg
  b : VReg
  c : VReg
  m : MReg
deriving DecidableEq, Repr

/-- The `v` fields of each word; a field that names something else is 0 here and is not used. -/
def vFields : Instr → VFields
  | .vadd d a b m _ | .vsub d a b m _ | .vmul d a b m _ | .vmulh d a b m _ | .vand d a b m _ | .vor d a b m _
  | .vxor d a b m _ | .vsll d a b m _ | .vsrl d a b m _ | .vsra d a b m _ | .vmin d a b m _ | .vmax d a b m _
  | .vminn d a b m _ | .vmaxn d a b m _ | .vfadd d a b m _ | .vfsub d a b m _ | .vfmul d a b m _ | .vfdiv d a b m _
  | .vfmin d a b m _ | .vfmax d a b m _ | .vsel d a b m _ | .vperm d a b m _ | .vzip d a b m _ | .vunzip d a b m _
  | .vdot4 d a b m _ | .vq8 d a b m _ _ => ⟨a, b, d, m⟩
  | .vfsqrt d a m _ | .vfrsqe d a m _ | .vfrcpe d a m _ | .vcvt d a _ m _ _ => ⟨a, 0, d, m⟩
  | .vffma _ a b c _ | .vffms _ a b c _ | .vfnfma _ a b c _ | .vfnfms _ a b c _ => ⟨a, b, c, 0⟩
  | .veq _ a b m _ | .vlt _ a b m _ | .vltn _ a b m _ | .vfeq _ a b m _ | .vflt _ a b m _ | .vfle _ a b m _ => ⟨a, b, 0, m⟩
  | .vrsum _ a m _ | .vrmin _ a m _ | .vrmax _ a m _ | .vrfsum _ a m _ | .vext _ a _ m _ => ⟨a, 0, 0, m⟩
  | .vbcast d _ m _ | .vins d _ _ m _ => ⟨0, 0, d, m⟩
  | .barq _ a b _ => ⟨a, b, 0, 0⟩
  | _ => ⟨0, 0, 0, 0⟩

/-- The `g` operands of a V word, read when its bundle issues (R164, R258, R259). -/
def vGops (i : Instr) (x : Slot) : List Word :=
  match i with
  | .vbcast _ (.g r) _ _ => [x.getG r]
  | .vext _ _ r _ _ => [x.getG r]
  | .vins _ a b _ _ => [x.getG a, x.getG b]
  | _ => []

/-- The queue a V word takes from (R174). -/
def vTakes : Instr → Option QReg
  | .vbcast _ (.q n) _ _ => some ⟨n.val, by omega⟩
  | _ => .none

/-- The queue a V word appends to (R174). -/
def vAppends : Instr → Option QReg
  | .vrsum (.q n) _ _ _ | .vrmin (.q n) _ _ _ | .vrmax (.q n) _ _ _ | .vrfsum (.q n) _ _ _ | .vext (.q n) _ _ _ _ =>
    some ⟨2 + n.val, by omega⟩
  | _ => .none

/-- The `v` operands and the mask of a shipped word as its packet carries them: zero where the word's field names no `v`
register (R229, R249). -/
def vPacket (i : Instr) (x : Slot) : ShipOps :=
  let f := vFields i
  let b := match i with | .vfsqrt .. | .vfrsqe .. | .vfrcpe .. | .vcvt .. | .vrfsum .. => 0 | _ => x.getV f.b
  let c := match i with | .vfeq .. | .vflt .. | .vfle .. | .vrfsum .. => 0 | _ => x.getV f.c
  .vector (x.getV f.a) b c (x.getM f.m)

/-- Operand values as the V stream reads them when it starts a word; `taken` is its queue entry. -/
def vOps (i : Instr) (x : Slot) (gops : List Word) (taken : Word) : VOps :=
  let f := vFields i
  let scalars : Word × Word :=
    match i with
    | .mand _ a b | .mor _ a b | .mxor _ a b => (x.getM a, x.getM b)
    | .mnot _ a => (x.getM a, 0)
    | .mpop _ a | .mfirst _ a => (x.getM a, 0)
    | .vbcast _ (.q _) _ _ => (taken, 0)
    | _ => (gops.getD 0 0, gops.getD 1 0)
  ⟨x.getV f.a, x.getV f.b, x.getV f.c, x.getM f.m, scalars.1, scalars.2⟩

/-! ## Where and how V words run -/

/-- Whether a Piccolo ships a V word (R249). -/
def shipsV : Instr → Bool
  | .vfadd _ _ _ _ f | .vfsub _ _ _ _ f | .vfmul _ _ _ _ f | .vfdiv _ _ _ _ f | .vfsqrt _ _ _ f | .vfmin _ _ _ _ f
  | .vfmax _ _ _ _ f | .vffma _ _ _ _ f | .vffms _ _ _ _ f | .vfnfma _ _ _ _ f | .vfnfms _ _ _ _ f
  | .vfeq _ _ _ _ f | .vflt _ _ _ _ f | .vfle _ _ _ _ f | .vrfsum _ _ _ f | .vfrsqe _ _ _ f | .vfrcpe _ _ _ f => f == .fp64
  | .vcvt _ _ s _ _ t => s == .fp64 || t == .fp64
  | _ => false

/-- The words that issue serialised while `FCSR.TE` is non-zero (R244, R323). -/
def serialV : Instr → Bool
  | .vfadd .. | .vfsub .. | .vfmul .. | .vfdiv .. | .vfsqrt .. | .vfmin .. | .vfmax .. | .vffma .. | .vffms ..
  | .vfnfma .. | .vfnfms .. | .vfeq .. | .vflt .. | .vfle .. | .vrfsum .. | .vcvt .. | .vdot4 _ _ _ _ .f8 | .vq8 ..
  | .vfrsqe .. | .vfrcpe .. | .barq .. => true
  | _ => false

/-- The words that consult `FCSR.RM` (R243, R424 detail 4): VFP, VFMA4, `VRFSUM`, and `VCVT` with a dynamic field and a
destination that rounds. -/
def vConsultsRm : Instr → Bool
  | .vfadd .. | .vfsub .. | .vfmul .. | .vfdiv .. | .vfsqrt .. | .vfmin .. | .vfmax .. | .vffma .. | .vffms ..
  | .vfnfma .. | .vfnfms .. | .vrfsum .. => true
  | .vcvt _ _ _ _ r t => r == .dyn && t != .f8 && t != .f8w
  | _ => false

/-- The repetition buffer is idle once its last pass, which is pass 0 for k = 1, has completed (R269). -/
def Slot.closeRep (x : Slot) : Slot :=
  match x.rep with
  | some r =>
    let waits := x.vq.any (·.cap.isSome) || (match x.vrun with | some (e, _) => e.cap.isSome | .none => false)
    if r.todo = 0 ∧ r.k ≤ r.pass ∧ !waits then { x with rep := .none } else x
  | .none => x

/-- The V stream is empty (R244): no word waits or runs and no pass remains. -/
def Slot.vIdle (x : Slot) : Bool := x.vq.isEmpty && x.vrun.isNone && !x.passesLeft

/-- Whether a word can start and complete now as far as its queues go (R173). -/
def Slot.vQueuesReady (x : Slot) (i : Instr) : Bool :=
  (match vTakes i with | some q => !(x.getQ q).isEmpty | .none => true) &&
  (match vAppends i with | some q => decide ((x.getQ q).length < queueDepth) | .none => true)

/-- Takes the queue entry of a word, if it takes one (R173). -/
def Slot.vTake (x : Slot) (i : Instr) : Word × Slot :=
  match vTakes i with
  | some q => ((x.getQ q).headD 0, x.setQ q (x.getQ q).tail)
  | .none => (0, x)

/-- Applies the effect of a completed V word: registers, queue entry and flags (R243). The log of a younger word
carries that word's own stamp. -/
def Slot.applyV (x : Slot) (order : Nat) (r : VRes) : Slot :=
  let x := { x with order := order }
  let x := match r.v with | some (d, y) => x.writeV d y | .none => x
  let x := match r.m with | some (d, y) => x.writeM d y | .none => x
  let x := match r.g with | some (d, y) => x.writeG d y | .none => x
  let x := match r.q with | some (q, y) => x.setQ q (x.getQ q ++ [y]) | .none => x
  x.accrue (unionFlags r.raised)

/-- DETAIL of an FP trap: pass and index of a captured word (R431). -/
def capDetail : Option (Nat × Nat) → Nat
  | some (j, i) => j * 256 + (if j = 0 then 0 else 128) + i
  | .none => 0

/-- The flags a V word raises whose traps are enabled (R430). -/
def vTrapped (te : Nat) (r : VRes) : Bool := unionFlags r.raised &&& te != 0

def vTrapVal (te : Nat) (r : VRes) : Word := fpTrapVal te (unionFlags r.raised) (trapLanes te r.raised)

/-! ## Issue of a V word (R241, R244, R249, R267) -/

/-- The queue entry of a V word of the executing slot. -/
def State.vEntry (s : State) (i : Instr) (tag : Option (Fin 8)) (cap : Option (Nat × Nat)) : VEntry :=
  ⟨i, s.hot.tpc, vGops i s.hot, s.hot.rm, s.hot.te, s.hot.order, tag, cap,
    decide (s.hot.te ≠ 0) && serialV i && !(s.piccolo && shipsV i), .none, s.hot.spd, s.hot.retired⟩

/-- Records a captured word; the capture is complete when the last has issued (R267). With k = 0 nothing runs. -/
def Slot.capture (x : Slot) (e : VEntry) : Slot :=
  match x.rep with
  | .none => x
  | some r =>
    let r := { r with todo := r.todo - 1, captured := r.captured ++ [e], last := x.order }
    if r.todo = 0 ∧ r.k = 0 then { x with rep := .none } else { x with rep := some r }

/-- Whether a capture is incomplete, and how many words it has captured (R266). -/
def Slot.capturing (x : Slot) : Option Rep :=
  match x.rep with | some r => if r.todo = 0 then .none else some r | .none => .none

/-- A V word of the executing slot issues. It performs at once when the V stream is empty and its queues allow, else it
enters the vector issue queue; a Piccolo ships FP64 words (R249). A captured word of a `REP` with k = 0 has no effect
(R267). -/
def vectorWord (i : Instr) (s : State) : Out :=
  if vConsultsRm i && decide (3 < s.hot.rm) then .next (s.raise .illegal 4 (s.wordVal i))
  else
    let ships := s.piccolo && shipsV i
    match s.hot.capturing with
    | some r =>
      match i with
      | .barq .. => .next (s.raise .repMisuse 3 (s.wordVal i))
      | _ =>
        if ships then .next (s.raise .repMisuse 4 (s.wordVal i))
        else
          let e := s.vEntry i .none (some (0, r.captured.length))
          let s' := { s with hot := s.hot.capture e }
          if r.k = 0 then .next s'.retire else place e s s'
    | .none =>
      if ships then
        match s.shipEntry i (vPacket i s.hot) with
        | .none => .next s.stall
        | some (t, s') => place (s.vEntry i (some t) .none) s s'
      else place (s.vEntry i .none .none) s s
where
  /-- Starts and completes the word at once, or queues it; a shipped word's packet leaves as it starts. `s0` is the
  state before the word took anything: a full queue leaves it. -/
  place (e : VEntry) (s0 s : State) : Out :=
    let x := s.hot
    let free := x.vq.isEmpty && x.vrun.isNone && !(x.passesLeft && decide (x.order ≠ (x.rep.map Rep.last).getD 0))
    match e.tag with
    | some t =>
      if free then
        match x.window[t.val] with
        | some w =>
          match w.packet with
          | some p => .next (({ s with hot := { x with vrun := some (e, VRes.none) } }.sendPacket p false).retire)
          | .none => .next s.retire
        | .none => .next s.retire
      else if 16 ≤ x.vq.length then .next s0.stall
      else .next ({ s with hot := { x with vq := x.vq ++ [e] } }.retire)
    | .none =>
      if free && x.vQueuesReady e.instr then
        let (tk, x1) := x.vTake e.instr
        let r := evalV e.instr (vOps e.instr x1 e.gops tk) e.rm
        if vTrapped e.te r then
          let x := { x with rep := if e.cap.isSome then .none else x.rep }
          .next ({ s with hot := x }.raise .fp (capDetail e.cap) (vTrapVal e.te r))
        else .next ({ s with hot := (x1.applyV x.order r).closeRep }.retire)
      else if 16 ≤ x.vq.length then .next s0.stall
      else .next ({ s with hot := { x with vq := x.vq ++ [e] } }.retire)

/-! ## The words -/

/-- `VADD` (R250). -/
def execVadd (d : VReg) (a : VReg) (b : VReg) (m : MReg) (e : EW) (s : State) : Out :=
  vectorWord (.vadd d a b m e) s
/-- `VSUB` (R250). -/
def execVsub (d : VReg) (a : VReg) (b : VReg) (m : MReg) (e : EW) (s : State) : Out :=
  vectorWord (.vsub d a b m e) s
/-- `VMUL` (R250). -/
def execVmul (d : VReg) (a : VReg) (b : VReg) (m : MReg) (e : EW) (s : State) : Out :=
  vectorWord (.vmul d a b m e) s
/-- `VMULH` (R250). -/
def execVmulh (d : VReg) (a : VReg) (b : VReg) (m : MReg) (e : EW) (s : State) : Out :=
  vectorWord (.vmulh d a b m e) s
/-- `VAND` (R250). -/
def execVand (d : VReg) (a : VReg) (b : VReg) (m : MReg) (e : EW) (s : State) : Out :=
  vectorWord (.vand d a b m e) s
/-- `VOR` (R250). -/
def execVor (d : VReg) (a : VReg) (b : VReg) (m : MReg) (e : EW) (s : State) : Out :=
  vectorWord (.vor d a b m e) s
/-- `VXOR` (R250). -/
def execVxor (d : VReg) (a : VReg) (b : VReg) (m : MReg) (e : EW) (s : State) : Out :=
  vectorWord (.vxor d a b m e) s
/-- `VSLL` (R250). -/
def execVsll (d : VReg) (a : VReg) (b : VReg) (m : MReg) (e : EW) (s : State) : Out :=
  vectorWord (.vsll d a b m e) s
/-- `VSRL` (R250). -/
def execVsrl (d : VReg) (a : VReg) (b : VReg) (m : MReg) (e : EW) (s : State) : Out :=
  vectorWord (.vsrl d a b m e) s
/-- `VSRA` (R250). -/
def execVsra (d : VReg) (a : VReg) (b : VReg) (m : MReg) (e : EW) (s : State) : Out :=
  vectorWord (.vsra d a b m e) s
/-- `VMIN` (R250). -/
def execVmin (d : VReg) (a : VReg) (b : VReg) (m : MReg) (e : EW) (s : State) : Out :=
  vectorWord (.vmin d a b m e) s
/-- `VMAX` (R250). -/
def execVmax (d : VReg) (a : VReg) (b : VReg) (m : MReg) (e : EW) (s : State) : Out :=
  vectorWord (.vmax d a b m e) s
/-- `VMINN` (R250). -/
def execVminn (d : VReg) (a : VReg) (b : VReg) (m : MReg) (e : EW) (s : State) : Out :=
  vectorWord (.vminn d a b m e) s
/-- `VMAXN` (R250). -/
def execVmaxn (d : VReg) (a : VReg) (b : VReg) (m : MReg) (e : EW) (s : State) : Out :=
  vectorWord (.vmaxn d a b m e) s
/-- `VFADD` (R251). -/
def execVfadd (d : VReg) (a : VReg) (b : VReg) (m : MReg) (f : Fmt) (s : State) : Out :=
  vectorWord (.vfadd d a b m f) s
/-- `VFSUB` (R251). -/
def execVfsub (d : VReg) (a : VReg) (b : VReg) (m : MReg) (f : Fmt) (s : State) : Out :=
  vectorWord (.vfsub d a b m f) s
/-- `VFMUL` (R251). -/
def execVfmul (d : VReg) (a : VReg) (b : VReg) (m : MReg) (f : Fmt) (s : State) : Out :=
  vectorWord (.vfmul d a b m f) s
/-- `VFDIV` (R251). -/
def execVfdiv (d : VReg) (a : VReg) (b : VReg) (m : MReg) (f : Fmt) (s : State) : Out :=
  vectorWord (.vfdiv d a b m f) s
/-- `VFSQRT` (R251). -/
def execVfsqrt (d : VReg) (a : VReg) (m : MReg) (f : Fmt) (s : State) : Out :=
  vectorWord (.vfsqrt d a m f) s
/-- `VFMIN` (R251). -/
def execVfmin (d : VReg) (a : VReg) (b : VReg) (m : MReg) (f : Fmt) (s : State) : Out :=
  vectorWord (.vfmin d a b m f) s
/-- `VFMAX` (R251). -/
def execVfmax (d : VReg) (a : VReg) (b : VReg) (m : MReg) (f : Fmt) (s : State) : Out :=
  vectorWord (.vfmax d a b m f) s
/-- `VFFMA` (R252). -/
def execVffma (d : VReg) (a : VReg) (b : VReg) (c : VReg) (f : Fmt) (s : State) : Out :=
  vectorWord (.vffma d a b c f) s
/-- `VFFMS` (R252). -/
def execVffms (d : VReg) (a : VReg) (b : VReg) (c : VReg) (f : Fmt) (s : State) : Out :=
  vectorWord (.vffms d a b c f) s
/-- `VFNFMA` (R252). -/
def execVfnfma (d : VReg) (a : VReg) (b : VReg) (c : VReg) (f : Fmt) (s : State) : Out :=
  vectorWord (.vfnfma d a b c f) s
/-- `VFNFMS` (R252). -/
def execVfnfms (d : VReg) (a : VReg) (b : VReg) (c : VReg) (f : Fmt) (s : State) : Out :=
  vectorWord (.vfnfms d a b c f) s
/-- `VEQ` (R254). -/
def execVeq (d : MReg) (a : VReg) (b : VReg) (m : MReg) (e : EW) (s : State) : Out :=
  vectorWord (.veq d a b m e) s
/-- `VLT` (R254). -/
def execVlt (d : MReg) (a : VReg) (b : VReg) (m : MReg) (e : EW) (s : State) : Out :=
  vectorWord (.vlt d a b m e) s
/-- `VLTN` (R254). -/
def execVltn (d : MReg) (a : VReg) (b : VReg) (m : MReg) (e : EW) (s : State) : Out :=
  vectorWord (.vltn d a b m e) s
/-- `VFEQ` (R254). -/
def execVfeq (d : MReg) (a : VReg) (b : VReg) (m : MReg) (f : Fmt) (s : State) : Out :=
  vectorWord (.vfeq d a b m f) s
/-- `VFLT` (R254). -/
def execVflt (d : MReg) (a : VReg) (b : VReg) (m : MReg) (f : Fmt) (s : State) : Out :=
  vectorWord (.vflt d a b m f) s
/-- `VFLE` (R254). -/
def execVfle (d : MReg) (a : VReg) (b : VReg) (m : MReg) (f : Fmt) (s : State) : Out :=
  vectorWord (.vfle d a b m f) s
/-- `VSEL` (R255). -/
def execVsel (d : VReg) (a : VReg) (b : VReg) (m : MReg) (e : EW) (s : State) : Out :=
  vectorWord (.vsel d a b m e) s
/-- `VRSUM` (R257). -/
def execVrsum (d : VDst) (a : VReg) (m : MReg) (e : EW) (s : State) : Out :=
  vectorWord (.vrsum d a m e) s
/-- `VRMIN` (R257). -/
def execVrmin (d : VDst) (a : VReg) (m : MReg) (e : EW) (s : State) : Out :=
  vectorWord (.vrmin d a m e) s
/-- `VRMAX` (R257). -/
def execVrmax (d : VDst) (a : VReg) (m : MReg) (e : EW) (s : State) : Out :=
  vectorWord (.vrmax d a m e) s
/-- `VRFSUM` (R257). -/
def execVrfsum (d : VDst) (a : VReg) (m : MReg) (f : Fmt) (s : State) : Out :=
  vectorWord (.vrfsum d a m f) s
/-- `VPERM` (R260). -/
def execVperm (d : VReg) (a : VReg) (b : VReg) (m : MReg) (e : EW) (s : State) : Out :=
  vectorWord (.vperm d a b m e) s
/-- `VZIP` (R261). -/
def execVzip (d : VReg) (a : VReg) (b : VReg) (m : MReg) (e : EW) (s : State) : Out :=
  vectorWord (.vzip d a b m e) s
/-- `VUNZIP` (R261). -/
def execVunzip (d : VReg) (a : VReg) (b : VReg) (m : MReg) (e : EW) (s : State) : Out :=
  vectorWord (.vunzip d a b m e) s
/-- `VBCAST` (R259). -/
def execVbcast (d : VReg) (a : VSrc) (m : MReg) (e : EW) (s : State) : Out :=
  vectorWord (.vbcast d a m e) s
/-- `VEXT` (R258). -/
def execVext (d : VDst) (a : VReg) (b : GReg) (m : MReg) (e : EW) (s : State) : Out :=
  vectorWord (.vext d a b m e) s
/-- `VINS` (R258). -/
def execVins (d : VReg) (a : GReg) (b : GReg) (m : MReg) (e : EW) (s : State) : Out :=
  vectorWord (.vins d a b m e) s
/-- `VCVT` (R262). -/
def execVcvt (d : VReg) (a : VReg) (src : CvtType) (m : MReg) (r : Rnd4) (dst : CvtType) (s : State) : Out :=
  vectorWord (.vcvt d a src m r dst) s
/-- `VDOT4` (R263). -/
def execVdot4 (d : VReg) (a : VReg) (b : VReg) (m : MReg) (t : Dot4Type) (s : State) : Out :=
  vectorWord (.vdot4 d a b m t) s
/-- `VQ8` (R264). -/
def execVq8 (d : VReg) (a : VReg) (b : VReg) (m : MReg) (t : Q8Type) (p : Fin 4) (s : State) : Out :=
  vectorWord (.vq8 d a b m t p) s
/-- `VFRSQE` (R253). -/
def execVfrsqe (d : VReg) (a : VReg) (m : MReg) (f : Fmt) (s : State) : Out :=
  vectorWord (.vfrsqe d a m f) s
/-- `VFRCPE` (R253). -/
def execVfrcpe (d : VReg) (a : VReg) (m : MReg) (f : Fmt) (s : State) : Out :=
  vectorWord (.vfrcpe d a m f) s
/-- `MAND` (R256). -/
def execMand (d : MReg) (a : MReg) (b : MReg) (s : State) : Out :=
  vectorWord (.mand d a b) s
/-- `MOR` (R256). -/
def execMor (d : MReg) (a : MReg) (b : MReg) (s : State) : Out :=
  vectorWord (.mor d a b) s
/-- `MXOR` (R256). -/
def execMxor (d : MReg) (a : MReg) (b : MReg) (s : State) : Out :=
  vectorWord (.mxor d a b) s
/-- `MNOT` (R256). -/
def execMnot (d : MReg) (a : MReg) (s : State) : Out :=
  vectorWord (.mnot d a) s
/-- `MPOP` (R256). -/
def execMpop (d : GReg) (a : MReg) (s : State) : Out :=
  vectorWord (.mpop d a) s
/-- `MFIRST` (R256). -/
def execMfirst (d : GReg) (a : MReg) (s : State) : Out :=
  vectorWord (.mfirst d a) s
/-- `BARQ` (R323). -/
def execBarq (d : VReg) (a : VReg) (b : VReg) (c : BitVec 2) (s : State) : Out :=
  vectorWord (.barq d a b c) s

end Sys2Proof.Machine
end

