-- ==== Sys2Proof/Machine/Report.lean ====
section
/-!
DEFINITION. Save records (R57, R58), fault reports (R410, R411, R415), and the events FAULT_PATH and
SAFE_POINT_SAVE (R56, R410).
-/
namespace Sys2Proof.Machine

/-! ## Save records (R57) -/

/-- The bytes of the registers that a bitmap lists, in increasing number. -/
def listedBytes (map count size : Nat) (f : Nat → Nat) : List Byte :=
  (List.range count).flatMap fun r => if nbit map r then leBytes (f r) size else []

/-- A save record: header, live `g` registers, padding to a multiple of 64 bytes, live `v` and `m` registers. -/
def saveRecord (x : Slot) (resume desc : Word) (gmap vmap mmap format : Nat) : List Byte :=
  let head := leBytes resume.toNat 8 ++ leBytes desc.toNat 8 ++ leBytes gmap 4 ++ leBytes vmap 4 ++ leBytes mmap 1 ++
    leBytes format 1 ++ leBytes x.prio 1 ++ leBytes 0 1 ++ leBytes x.taskId 4
  let gs := listedBytes gmap 32 8 fun r => (x.getG (Fin.ofNat 32 r)).toNat
  let pad := List.replicate ((64 - (32 + gs.length) % 64) % 64) (0#8)
  head ++ gs ++ pad ++ (listedBytes vmap 32 64 fun r => (x.getV (Fin.ofNat 32 r)).toNat) ++
    listedBytes mmap 8 8 fun r => (x.getM (Fin.ofNat 8 r)).toNat

/-- What became of a save. -/
inductive SaveAt where
  | position (p : Nat)
  /-- All four positions of the logical core are occupied. -/
  | full
  /-- The record could not be written: the context is made dead (R464). -/
  | failed
deriving DecidableEq, Repr

/-- The lowest position of a logical core that is not occupied (R57, R58). -/
def Context.freePosition (c : Context) (l : Nat) : Option Nat := (List.range 4).find? fun p => !c.occupied.contains (l * 4 + p)

/-- Writes the save record of a slot at the lowest position that is free. -/
def State.writeSave (s : State) (k : Nat) (bytes : List Byte) : State × SaveAt :=
  let x := s.getSlot k
  let c := s.getCtx x.ctx
  match c.freePosition x.lcore with
  | none => (s, .full)
  | some p =>
    match s.tableWrite x.ctx (c.saveAddr x.lcore p) bytes with
    | none => (s, .failed)
    | some s =>
      let c := s.getCtx x.ctx
      let i := x.lcore * 4 + p
      (s.setCtx x.ctx { c with occupied := i :: c.occupied, seqs := tabSet c.seqs i x.seq }, .position p)

/-- Nothing of the slot's earlier work is still to come (R56, R410): shipped words, V words, reductions, creations,
replies, engine acceptances. -/
def Slot.quiet (x : Slot) : Bool :=
  !x.holding && x.vIdle && x.reductions.isEmpty && x.creations == 0 && x.ownCreations == 0 && x.busy.isEmpty &&
  (match x.wait with | none => true | some .sent => false | some _ => true)

/-- Ends an activation that has been saved or reported: the slot is free for dispatch, and its logical core may now be
pre-empted (R56, R59, R415). -/
def State.leaveSlot (s : State) (k : Nat) : State :=
  let s := if (s.getSlot k).stub.isSome then s.resumedOne k else s
  let x := s.getSlot k
  ((s.setSlot k x.freed).preemptSettle (coreOfSlot k) x.ctx x.lcore).post (.dispatch (coreOfSlot k))

/-! ## Fault reports (R411) -/

/-- Sends a report to the supervisor of its context (R411, R415). -/
def State.sendReport (s : State) (place : Nat) (r : Report) : State := s.tellSupervisor place r.ctx 0 r.cause none r.msg

/-- A fault of a supervisor activation (R415): of containment context, and so told on paths 2 and 3 (R406). -/
def State.supervisorFault (s : State) (place : Nat) (r : Report) : State :=
  s.loseReported place r.ctx ⟨0, 2, r.cause, 4, some r.ctx, none, place, r.ctx⟩ fun seq =>
    { r with record := seq }.msg

/-- A fault with no activation to stop, or whose activation has ended: it kills a supervisor context and is reported of
any other (R415, R448). -/
def State.reportEnded (s : State) (place : Nat) (supervisor : Bool) (r : Report) : State :=
  if supervisor then s.supervisorFault place r else s.sendReport place r

/-! ## FAULT_PATH (R410) -/

/-- A refused update that its activation has not come to report is reported as of an ended one (R448). -/
def State.reportRefusal (s : State) (k : Nat) (x : Slot) : State :=
  match x.refusal with
  | some (d, va) =>
    s.sendReport (s.slotPlace k)
      ⟨Cause.cls.code, false, x.ctx, none, x.lcore, 0, va, x.taskId, d ||| 0x8000, s.slotIdOf k, 0⟩
  | none => s

/-- Whether the fault leaves registers that cannot be saved: POISON detail 5 (R471). -/
def Exc.unsaved (e : Exc) : Bool := e.cause == Cause.poison.code && e.detail == 5

/-- The fault path of a slot: a fault of a supervisor activation kills its context; else, once earlier work has drained,
the full save record, the end of the activation, and the report. -/
def State.faultPath (s : State) (k : Nat) (e : Exc) : State :=
  let x := s.getSlot k
  let place := s.slotPlace k
  if x.supervisor then
    s.supervisorFault place ⟨e.cause, e.remote, x.ctx, none, x.lcore, e.pc, e.value, x.taskId, e.detail, s.slotIdOf k, e.record⟩
  else if !x.quiet then s
  else
    let save := if e.unsaved then (s, SaveAt.full) else s.writeSave k (saveRecord x e.pc 0 (2 ^ 32 - 1) (2 ^ 32 - 1) 255 1)
    match save with
    | (s, .failed) => s.tableFailure place x.ctx
    | (s, p) =>
      let r : Report := ⟨e.cause, e.remote, x.ctx, (match p with | .position p => some p | _ => none), x.lcore, e.pc,
        e.value, x.taskId, e.detail, s.slotIdOf k, e.record⟩
      ((s.leaveSlot k).sendReport place r).reportRefusal k x

/-- FAULT_PATH of a slot, tried again whenever some of its earlier work ends. -/
def execFaultPath (s : State) : Out :=
  match s.agenda with
  | .faultPath k :: t =>
    let s := { s with agenda := t }
    .next (match (s.getSlot k).phase with
      | .faulting e => s.faultPath k e
      | _ => s)
  | _ => .next s

/-! ## SAFE_POINT_SAVE (R56, R57) -/

/-- The save of a slot at a safe point: format 0, and its position counts for the completion (R59). -/
def State.safePointSave (s : State) (k : Nat) (desc : Word) (gmap vmap mmap : Nat) : State :=
  let x := s.getSlot k
  let core := coreOfSlot k
  if !x.quiet then s
  else
    match s.writeSave k (saveRecord x x.pc desc gmap vmap mmap 0) with
    | (s, .position p) =>
      let c := s.getCore core
      let marks := c.marks.map fun m => if m.ctx = x.ctx ∧ m.lcore = x.lcore then { m with saved := p :: m.saved } else m
      (s.setCore core { c with marks := marks }).leaveSlot k
    | (s, _) => s.tableFailure (s.slotPlace k) x.ctx

/-- SAFE_POINT_SAVE, tried again whenever some of the slot's earlier work ends. -/
def execSafePointSave (s : State) : Out :=
  match s.agenda with
  | .safePointSave k :: t =>
    let s := { s with agenda := t }
    .next (match (s.getSlot k).phase with
      | .saving desc g v m => s.safePointSave k desc g v m
      | _ => s)
  | _ => .next s

end Sys2Proof.Machine
end

