-- ==== Sys2Proof/Machine/Memory.lean ====
section
/-!
DEFINITION. Scalar and vector loads and stores (R273 to R278), with the waits that the memory itself decides: an
overlapping update, a shipped access, a class that must not run early (R124, R143, R145, R234).
-/
namespace Sys2Proof.Machine

/-! ## Waits -/

/-- Whether a range meets the line of an update of the slot that is not yet applied, or an accumulator line that a matrix
command of the slot may still update (R124, R143). -/
def Slot.meetsUpdate (x : Slot) (p : Phys) (n : Nat) : Bool :=
  (x.updates.any fun u => decide (u.2 < p.pa + n) && decide (p.pa < u.2 + 128)) ||
  (!x.matrix.isEmpty && match p.kind with | .acc _ => true | _ => false)

/-- The places of the shipped `CAS2` and `SWP2` words of the slot that have not returned (R145). -/
def State.shippedPlaces (s : State) : List Nat :=
  s.hot.window.toList.filterMap fun w =>
    match w with
    | some e =>
      match e.packet with
      | some p =>
        match p.ops with
        | .pair a .. => match (s.translate s.me a ⟨true, true, false⟩).2 with | .ok q => some q.pa | .error _ => none
        | _ => none
      | none => none
    | none => none

/-- A shipped `CAS2` or `SWP2` with an acquire (R130). -/
def acquires : Instr → Bool
  | .cas2 _ _ _ _ o | .swp2 _ _ _ _ o => o == .aq || o == .ar
  | _ => false

/-- A load waits for an update or a shipped access to its bytes, behind a shipped word in class DEV, HNC or ACC, and behind a
shipped acquire (R130, R145, R234). -/
def State.loadWaits (s : State) (ps : List (Phys × Elem)) : Bool :=
  (!ps.isEmpty && s.hot.window.toList.any fun w => match w with | some e => acquires e.instr | none => false) ||
  ps.any fun x =>
    s.hot.meetsUpdate x.1 (storedLen x.1 x.2.n) ||
    (s.hot.holding && (match x.1.kind with | .dev | .hnc | .acc _ => true | _ => false)) ||
    s.shippedPlaces.any fun a => decide (a < x.1.pa + storedLen x.1 x.2.n) && decide (x.1.pa < a + 16)

/-- A store waits for an update to its bytes (R124). -/
def State.storeWaits (s : State) (ps : List (Phys × Elem)) : Bool :=
  ps.any fun x => s.hot.meetsUpdate x.1 (storedLen x.1 x.2.n)

/-! ## Shared forms -/

/-- A load of checked elements: `k` writes the destination from the bytes read and retires. -/
def loadElems (es : List (Nat × Elem)) (k : State → List Byte → State) (s : State) : Out :=
  match s.checkAll s.me s.die .load es with
  | (s, some f, _) => .next (s.accessFault f)
  | (s, none, ps) =>
    if s.loadWaits ps then .next s.stall
    else if !s.loadsHit ps then .next (s.askLoads ps).stall
    else
      let (s, bs) := s.readAll (some s.core) ps
      .next (k s bs).retire

/-- A store of bytes over checked elements. -/
def storeElems (es : List (Nat × Elem)) (bs : List Byte) (s : State) : Out :=
  match s.checkAll s.me s.die .store es with
  | (s, some f, _) => .next (s.accessFault f)
  | (s, none, ps) =>
    if s.storeWaits ps then .next s.stall
    else if !s.storesHit ps then .next (s.askStores ps).stall
    else .next (s.issueStores (storeReqs ps bs)).retire

/-- A scalar load of `n` bytes (R273). -/
def loadWord (d : GReg) (n : Nat) (ext : Nat → Word) (a : GReg) (i : BitVec 14) (s : State) : Out :=
  let va := s.g a + imm14 i
  loadElems (scalarElems va n (s.expanded s.me va)) (fun s bs => s.writeG d (ext (leNat bs))) s

/-- A scalar store of `n` bytes (R274). -/
def storeWord (n x : Nat) (a : GReg) (i : BitVec 14) (s : State) : Out :=
  let va := s.g a + imm14 i
  storeElems (scalarElems va n (s.expanded s.me va)) (leBytes x n) s

/-! ## Scalar loads and stores (R273, R274) -/

def execLdb (d : GReg) (a : GReg) (i : BitVec 14) (s : State) : Out := loadWord d 1 (sextTo64 8) a i s
def execLdbn (d : GReg) (a : GReg) (i : BitVec 14) (s : State) : Out := loadWord d 1 word a i s
def execLdh (d : GReg) (a : GReg) (i : BitVec 14) (s : State) : Out := loadWord d 2 (sextTo64 16) a i s
def execLdhn (d : GReg) (a : GReg) (i : BitVec 14) (s : State) : Out := loadWord d 2 word a i s
def execLdw (d : GReg) (a : GReg) (i : BitVec 14) (s : State) : Out := loadWord d 4 (sextTo64 32) a i s
def execLdwn (d : GReg) (a : GReg) (i : BitVec 14) (s : State) : Out := loadWord d 4 word a i s
def execLdd (d : GReg) (a : GReg) (i : BitVec 14) (s : State) : Out := loadWord d 8 word a i s
/-- `LDQ`: the even register receives the low 64 bits. -/
def execLdq (d : GPair) (a : GReg) (i : BitVec 14) (s : State) : Out :=
  let va := s.g a + imm14 i
  loadElems (scalarElems va 16 (s.expanded s.me va)) (fun s bs => s.writePair d (leNat bs)) s

def execStb (b : GReg) (a : GReg) (i : BitVec 14) (s : State) : Out := storeWord 1 (s.g b).toNat a i s
def execSth (b : GReg) (a : GReg) (i : BitVec 14) (s : State) : Out := storeWord 2 (s.g b).toNat a i s
def execStw (b : GReg) (a : GReg) (i : BitVec 14) (s : State) : Out := storeWord 4 (s.g b).toNat a i s
def execStd (b : GReg) (a : GReg) (i : BitVec 14) (s : State) : Out := storeWord 8 (s.g b).toNat a i s
def execStq (b : GPair) (a : GReg) (i : BitVec 14) (s : State) : Out := storeWord 16 (s.pair b) a i s

/-! ## Vector loads and stores (R277, R278) -/

/-- The active elements of a vector memory word with their addresses. -/
def vmemElems (mask : Word) (addr : Nat → Word) : List (Nat × Elem) :=
  ((List.range 16).filter (lanesActive mask)).map fun i => (i, ⟨addr i, 4, 4, false⟩)

/-- The bytes of the active elements of a vector register, lowest element first. -/
def vmemBytes (mask : Word) (v : VWord) : List Byte :=
  ((List.range 16).filter (lanesActive mask)).flatMap fun i => leBytes (lane 32 v i) 4

/-- Puts loaded elements, four bytes each, into the active elements of a register from element `i` up. -/
def vmemMerge (mask : Word) (old : List Nat) (bs : List Byte) : Nat → List Nat
  | i =>
    match old with
    | [] => []
    | x :: t =>
      if lanesActive mask i then leNat (bs.take 4) :: vmemMerge mask t (bs.drop 4) (i + 1)
      else x :: vmemMerge mask t bs (i + 1)

/-- A vector load: an inactive element keeps its value. -/
def vloadWord (v : VReg) (m : MReg) (addr : Nat → Word) (s : State) : Out :=
  let mask := s.m m
  loadElems (vmemElems mask addr) (fun s bs => s.writeV v (pack 32 (vmemMerge mask (lanes 32 (s.v v)) bs 0))) s

/-- A vector store; where elements write the same bytes the highest-numbered stands. -/
def vstoreWord (v : VReg) (m : MReg) (addr : Nat → Word) (s : State) : Out :=
  storeElems (vmemElems (s.m m) addr) (vmemBytes (s.m m) (s.v v)) s

/-- base + 4i (`VLD`, `VST`). -/
def addrUnit (base : Word) (i : Nat) : Word := base + word (4 * i)
/-- base + i × s(g[rs2]) (`VLDS`, `VSTS`). -/
def addrStride (base stride : Word) (i : Nat) : Word := base + word i * stride
/-- base + sext(element i of vI, 32) (`VLDX`, `VSTX`). -/
def addrIndex (base : Word) (x : VWord) (i : Nat) : Word := base + sextTo64 32 (lane 32 x i)

def execVld (v : VReg) (a : GReg) (m : MReg) (i : BitVec 6) (s : State) : Out :=
  vloadWord v m (addrUnit (s.g a + imm6 i)) s
def execVst (v : VReg) (a : GReg) (m : MReg) (i : BitVec 6) (s : State) : Out :=
  vstoreWord v m (addrUnit (s.g a + imm6 i)) s
def execVlds (v : VReg) (a : GReg) (b : GReg) (m : MReg) (i : BitVec 6) (s : State) : Out :=
  vloadWord v m (addrStride (s.g a + imm6 i) (s.g b)) s
def execVsts (v : VReg) (a : GReg) (b : GReg) (m : MReg) (i : BitVec 6) (s : State) : Out :=
  vstoreWord v m (addrStride (s.g a + imm6 i) (s.g b)) s
def execVldx (v : VReg) (a : GReg) (x : VReg) (m : MReg) (i : BitVec 6) (s : State) : Out :=
  vloadWord v m (addrIndex (s.g a + imm6 i) (s.v x)) s
def execVstx (v : VReg) (a : GReg) (x : VReg) (m : MReg) (i : BitVec 6) (s : State) : Out :=
  vstoreWord v m (addrIndex (s.g a + imm6 i) (s.v x)) s

/-- `VLDB`: one read, if any element is active, goes to every active element. -/
def execVldb (v : VReg) (a : GReg) (m : MReg) (i : BitVec 6) (s : State) : Out :=
  let mask := s.m m
  if (vmemElems mask fun _ => 0).isEmpty then .next s.retire
  else
    loadElems [(0, ⟨s.g a + imm6 i, 4, 4, false⟩)]
      (fun s bs => s.writeV v (pack 32 (mergeLanes mask (List.replicate 16 (leNat bs)) (lanes 32 (s.v v))))) s

end Sys2Proof.Machine
end

