-- ==== Sys2Proof/Machine/Engine.lean ====
section
/-!
DEFINITION. The issue of engine commands: the read of `XLAUNCH` (R304 to R308), `MMA` (R309 to R313) and `MQD` (R319),
with the faults of R451 and the registration of ranges (R301).
-/
namespace Sys2Proof.Machine

/-! ## Ranges (R301) -/

/-- Number of an engine of a die: 0 to 7 the BTEs, 8 to 11 the MXEs. -/
def mxeEngine (bassoon : Nat) : Nat := 8 + bassoon

/-- Whether two half-open ranges meet, and at which lowest address. -/
def rangeMeet (a b : Nat × Nat) : Option Nat :=
  if max a.1 b.1 < min a.2 b.2 then some (max a.1 b.1) else none

/-- The lowest address at which a read range meets a write range (R451, detail 3). -/
def lowestOverlap (reads writes : List (Nat × Nat)) : Option Nat :=
  (reads.flatMap fun r => writes.filterMap fun w => rangeMeet r w).foldl
    (fun m a => match m with | some x => some (min x a) | none => some a) none

/-- Free entries of a die's range-lock table, lowest first: which of them a registration takes, and so the entry that R442 names, the
spec does not say. DESIGN CHOICE (log 78), unsafe. -/
def Die.freeLocks (d : Die) : List Nat := (List.range 256).filter fun i => !d.locks.any fun l => l.1 == i

/-- Registers ranges under an id; none while too few entries are free. -/
def State.register (s : State) (die ctx id : Nat) (reads writes : List (Nat × Nat)) : Option State :=
  let d := s.getDie die
  let free := d.freeLocks
  let locks := reads.map (fun r => (r, false)) ++ writes.map (fun r => (r, true))
  if free.length < locks.length then none
  else
    let rows := (List.zip free locks).map fun x => (x.1, (⟨ctx, x.2.1.1, x.2.1.2, x.2.2, id⟩ : Lock))
    some ({ s.setDie die { d with locks := rows.foldl (fun t r => tabSet t r.1 r.2) d.locks } with ids := s.ids + 1 })

/-- Reads a command, quantise or parameter block as a load (R306, R313): its bytes, or the state after a fault, whose address is
the block's (R451). -/
def blockWord (va : Word) (n : Nat) (k : List Byte → State → Out) (s : State) : Out :=
  match s.checkAll s.me s.die .load [(0, ⟨va, n, 1, false⟩)] with
  | (s, some f, _) => .next (s.accessFault { f with va := va })
  | (s, none, ps) =>
    if s.loadWaits ps then .next s.stall
    else if !s.loadsHit ps then .next (s.askLoads ps).stall
    else
      let (s, bs) := s.readAll (some s.core) ps
      k bs s

/-- Bytes of a block as a number. -/
def blockField (bs : List Byte) (at_ n : Nat) : Nat := leNat ((bs.drop at_).take n)

/-! ## Block transfers (R304 to R308) -/

def Slot.xbytes (x : Slot) : Nat := x.xset[2].bits 0 37
def Slot.xrows (x : Slot) : Nat := x.xset[5].bits 32 24
def Slot.xrowb (x : Slot) : Nat := x.xset[5].bits 0 32
/-- Block size of a deal. -/
def dealBlock (deal : Word) : Nat := 64 * (deal.bits 32 10 + 1)
def dealNq (deal : Word) : Nat := deal.bits 8 8
def dealStep (deal : Word) : Nat := deal.bits 16 8
def dealFirst (deal : Word) : Nat := deal.bits 0 8

/-- Whether an address lies in window w0 of the aperture (R99). -/
def inWindow0 (va : Word) : Bool := decide (0x00F0000000000000 ≤ va.toNat) && decide (va.toNat < 0x00F1000000000000)

/-- Whether a shadow set breaks R307. -/
def Slot.badShadow (x : Slot) : Bool :=
  let deal := x.xset[6]
  let n := x.xbytes
  n == 0 || decide (2 ^ 36 < n) || (x.xrows != 0 && n != x.xrows * x.xrowb) ||
  (deal.bit 63 && (x.xrows != 0 || n % dealBlock deal != 0 || !inWindow0 x.xset[1] || dealStep deal == 0 ||
    dealNq deal == 0 || decide (128 < dealNq deal) || decide (dealNq deal ≤ dealFirst deal)))

/-- The smallest interval that holds the rows of one side. -/
def sideRange (base stride : Word) (n rows rowb : Nat) : Nat × Nat :=
  if rows = 0 then (base.toNat, base.toNat + n)
  else
    let last : Int := base.toNat + ((rows : Int) - 1) * stride.toInt
    let lo := min (base.toNat : Int) last
    let hi := max (base.toNat : Int) last + rowb
    (lo.toNat, hi.toNat)

/-- The virtual address of an offset of a logical core in window w0. -/
def apertureVa (k o : Nat) : Nat := 0x00F0000000000000 + k * 0x40000 + o

/-- The write ranges of a transfer: one, or one per target of a deal (R308). -/
def Slot.writeRanges (x : Slot) : List (Nat × Nat) :=
  let deal := x.xset[6]
  if deal.bit 63 then
    let a := x.xset[1].toNat - 0x00F0000000000000
    let k0 := a / 0x40000
    let o0 := a % 0x40000
    let b := dealBlock deal
    let len := b * ((x.xbytes + b * dealNq deal - 1) / (b * dealNq deal))
    (List.range (dealNq deal)).map fun t => let lo := apertureVa (k0 + t * dealStep deal) o0; (lo, lo + len)
  else [sideRange x.xset[1] x.xset[4] x.xbytes x.xrows x.xrowb]

/-- The matrix commands of the executing slot that a later command of it follows (R140). One that is parked is restarted by
software alone, and nothing waits for it (DESIGN CHOICE, log 51). -/
def State.waitsFor (s : State) : List Nat :=
  s.hot.matrix.filter fun id => !s.dies.any fun (d : Nat × Die) => d.2.park.any fun p => p.2.cmd.lock == id

/-- The command of a transfer. -/
def State.bteCmd (s : State) (d : GReg) (pb : List Byte) : BteCmd where
  slot := s.hotId
  gen := s.hot.gen
  rd := d
  ctx := s.hot.ctx
  lcore := s.hot.lcore
  supervisor := s.hot.supervisor
  src := s.hot.xset[0]
  dst := s.hot.xset[1]
  cnt := s.hot.xset[2]
  strs := s.hot.xset[3]
  strd := s.hot.xset[4]
  shape := s.hot.xset[5]
  deal := s.hot.xset[6]
  handler := word (blockField pb 0 8)
  doneLc := if blockField pb 8 2 = 0xFFFF then s.hot.lcore else blockField pb 8 2
  prio := blockField pb 11 1 % 4
  tag := word (blockField pb 16 8)
  auto := blockField pb 10 1 / 8 % 2 == 1
  bte := Fin.ofNat 8 (blockField pb 10 1)
  lock := s.ids
  id := 0
  after := s.waitsFor

/-- Whether a parameter block has a non-zero byte or bit where R305 requires zero. -/
def badParams (pb : List Byte) : Bool :=
  blockField pb 10 1 / 16 != 0 || blockField pb 11 1 / 4 != 0 || blockField pb 12 4 != 0 || blockField pb 24 8 != 0

/-- The number of the CSR `XLAUNCH`. -/
def csrXlaunch : Nat := 0x088

/-- A read of `XLAUNCH` into `d` (R306): the parameter block is read and checked, the ranges are registered, and the
transfer is sent; rd waits for the id. -/
def readXlaunch (d : GReg) (s : State) : Out :=
  if s.hot.updates ≠ [] then .next s.stall
  else
    let pbAddr := s.hot.xset[7]
    blockWord pbAddr 32 (fun pb s =>
      if s.hot.badShadow then .next (s.raise .engine 1 (s.wordVal (.csrr d (BitVec.ofNat 11 csrXlaunch))))
      else if badParams pb then .next (s.raise .engine 2 pbAddr)
      else
        let reads := [sideRange s.hot.xset[0] s.hot.xset[3] s.hot.xbytes s.hot.xrows s.hot.xrowb]
        match lowestOverlap reads s.hot.writeRanges with
        | some a => .next (s.raise .engine 3 (word a))
        | none =>
          let c := s.bteCmd d pb
          match s.register s.die s.hot.ctx s.ids reads s.hot.writeRanges with
          | none => .next s.stall
          | some s => .next ((s.await d .engine).post (.engineCommandArrival s.die c.bte.val (coreStop (pcoreOf s.core)) (.bte c))).retire) s

/-- XLAUNCH_READ: the read as an event of the executing slot. -/
def execXlaunchRead (s : State) : Out :=
  match s.agenda with
  | .xlaunchRead d :: t => readXlaunch d { s with agenda := t }
  | _ => .next s

/-! ## Command blocks (R310 to R312) -/

/-- Families of operand formats (R311). -/
inductive MxeFamily where
  | f8 | b16 | i8 | fp64
deriving DecidableEq, Repr

def mxeFamily (code : Nat) : MxeFamily := match code with | 0 | 1 | 2 => .f8 | 3 | 4 => .b16 | 5 => .i8 | _ => .fp64
def mxeElemBytes (code : Nat) : Nat := match code with | 3 | 4 => 2 | 6 => 8 | _ => 1

def mmaA (b : List Byte) : Nat := blockField b 0 8
def mmaB (b : List Byte) : Nat := blockField b 8 8
def mmaC (b : List Byte) : Nat := blockField b 16 8
def mmaLda (b : List Byte) : Nat := blockField b 40 4
def mmaLdb (b : List Byte) : Nat := blockField b 44 4
def mmaLdc (b : List Byte) : Nat := blockField b 48 4
def mmaM (b : List Byte) : Nat := (blockField b 52 4 % 2 ^ 11 + 1) * 32
def mmaN (b : List Byte) : Nat := (blockField b 52 4 / 2 ^ 11 % 2 ^ 11 + 1) * 32
def mmaK (b : List Byte) : Nat := (blockField b 52 4 / 2 ^ 22 + 1) * 64
def mmaSb (b : List Byte) : Nat := blockField b 56 2 % 2 ^ 11
def mmaFa (b : List Byte) : Nat := blockField b 58 1 % 16
def mmaFb (b : List Byte) : Nat := blockField b 58 1 / 16
def mmaContrib (b : List Byte) : Nat := blockField b 59 1 % 16
def mmaPrio (b : List Byte) : Nat := blockField b 59 1 / 16 % 4
def mmaMlast (b : List Byte) : Nat := blockField b 62 1 % 32 + 1
def mmaNlast (b : List Byte) : Nat := blockField b 63 1 % 32 + 1

/-- Whether an operand breaks the alignment of R312. -/
def badOperand (code addr ld : Nat) : Bool :=
  if code = 2 then addr % 128 != 0 || ld % 128 != 0
  else addr % mxeElemBytes code != 0 || ld % mxeElemBytes code != 0

/-- Whether a command block breaks R310, R311 or R312. -/
def badMma (b : List Byte) : Bool :=
  mmaLdc b % 128 != 0 || mmaC b % 128 != 0 || blockField b 56 2 / 2 ^ 11 != 0 || decide (mmaM b / 32 ≤ mmaSb b) ||
  decide (6 < mmaFa b) || decide (6 < mmaFb b) || blockField b 59 1 / 64 != 0 || blockField b 62 1 / 32 != 0 ||
  blockField b 63 1 / 32 != 0 || badOperand (mmaFa b) (mmaA b) (mmaLda b) || badOperand (mmaFb b) (mmaB b) (mmaLdb b)

/-- Lines of one row of C. -/
def mmaRowLines (b : List Byte) : Nat := if mxeFamily (mmaFa b) = .fp64 then mmaN b / 16 else mmaN b / 32

/-- The read ranges of `MMA`: A and B (R313). -/
def mmaReads (b : List Byte) : List (Nat × Nat) :=
  let sa := if mmaFa b = 2 then (mmaM b / 32 - 1) * mmaLda b + mmaK b / 32 * 1792
    else (mmaM b - 1) * mmaLda b + mmaK b * mxeElemBytes (mmaFa b)
  let sb := if mmaFb b = 2 then (mmaK b / 32 - 1) * mmaLdb b + mmaN b / 32 * 1792
    else (mmaK b - 1) * mmaLdb b + mmaN b * mxeElemBytes (mmaFb b)
  [(mmaA b, mmaA b + sa), (mmaB b, mmaB b + sb)]

/-- The write range of `MMA`: C (R313). -/
def mmaWrites (b : List Byte) : List (Nat × Nat) :=
  [(mmaC b, mmaC b + (mmaM b - 1) * mmaLdc b + mmaRowLines b * 128)]

/-! ## Quantise blocks (R319) -/

def mqdX (b : List Byte) : Nat := blockField b 0 8
def mqdRow (b : List Byte) : Nat := blockField b 8 8
def mqdCol (b : List Byte) : Nat := blockField b 16 8
def mqdLdx (b : List Byte) : Nat := blockField b 40 4

/-- Whether a quantise block breaks R319. -/
def badMqd (b : List Byte) : Bool :=
  mqdX b % 4 != 0 || mqdLdx b % 4 != 0 || mqdRow b % 128 != 0 || mqdCol b % 128 != 0 || blockField b 46 1 / 4 != 0 ||
  blockField b 47 17 != 0

def mqdReads (b : List Byte) : List (Nat × Nat) := [(mqdX b, mqdX b + 31 * mqdLdx b + 128)]
def mqdWrites (b : List Byte) : List (Nat × Nat) := [(mqdRow b, mqdRow b + 1792), (mqdCol b, mqdCol b + 1792)]

/-! ## MMA, MQD (R309, R313, R319) -/

/-- The command of a matrix engine. -/
def State.mxeCmd (s : State) (mqd : Bool) (block : Word) (b : List Byte) : MxeCmd :=
  ⟨s.hotId, s.hot.gen, s.hot.ctx, s.hot.lcore, s.hot.supervisor, s.die, mqd, block, b,
    if mqd then 0 else mmaSb b, s.ids, (s.getCtx s.hot.ctx).asidr.bits 44 16, s.waitsFor⟩

/-- `MMA` and `MQD`: the block is read and checked, the ranges are registered and the command is sent; the slot waits for
its acceptance. A refusal raises CAPABILITY (R434), once the passes before it have run: the buffer is idle in the handler (R408). -/
def mxeWord (mqd : Bool) (a b : GReg) (s : State) : Out :=
  match s.hot.wait with
  | some .accepted => .next ({ s with hot := { s.hot with wait := none } }).retire
  | some (.refused d cap) =>
    if s.hot.passesLeft then .next s.stall else .next ({ s with hot := { s.hot with wait := none } }.raise .capability d cap)
  | some _ => .next s.stall
  | none =>
    let va := s.g a
    let die := (s.g b).bits 0 5
    let bassoon := (s.g b).bits 5 2
    if va.bits 0 6 ≠ 0 then .next (s.raise .illegal 8 va)
    else if 23 < die then .next (s.raise .illegal 8 (s.g b))
    else if s.hot.updates ≠ [] then .next s.stall
    else
      blockWord va 64 (fun blk s =>
        if (if mqd then badMqd blk else badMma blk) then .next (s.raise .illegal 8 va)
        else
          let reads := if mqd then mqdReads blk else mmaReads blk
          let writes := if mqd then mqdWrites blk else mmaWrites blk
          match lowestOverlap reads writes with
          | some o => .next (s.raise .engine 3 (word o))
          | none =>
            let c := s.mxeCmd mqd va blk
            match s.register die s.hot.ctx s.ids reads writes with
            | none => .next s.stall
            | some s =>
              let own := if mqd then s.hot.matrix else s.hot.matrix ++ [c.lock]
              .next ({ s with hot := { s.hot with wait := some .sent, matrix := own } }.post
                (.engineCommandArrival die (mxeEngine bassoon)
                  (s.entryStop s.die (coreStop (pcoreOf s.core)) die) (.mxe c))).stall) s

def execMma (a : GReg) (b : GReg) (s : State) : Out := mxeWord false a b s
def execMqd (a : GReg) (b : GReg) (s : State) : Out := mxeWord true a b s

end Sys2Proof.Machine
end

