-- ==== Sys2Proof/Machine/Csr.lean ====
section
/-!
DEFINITION. Control and status registers (R175 to R179) and the CSR words (R206, R207, R427).
-/
namespace Sys2Proof.Machine

/-! ## Which registers exist -/

/-- Numbers of R175. -/
def csrExists (n : Nat) : Bool :=
  [0x001, 0x010, 0x011, 0x012, 0x020, 0x021, 0x022, 0x030, 0x040, 0x041, 0x042, 0x050, 0x051, 0x052, 0x080, 0x081, 0x082,
   0x083, 0x084, 0x085, 0x086, 0x087, 0x088, 0x089, 0x0A0, 0x0A1, 0x0A2, 0x0A3, 0x100, 0x101, 0x102, 0x103, 0x104, 0x105,
   0x106, 0x107, 0x108, 0x110, 0x111, 0x120].contains n

/-- Whether a CSR is read-only to an activation; `TQUOTA` is to a user one only. -/
def csrReadOnly (supervisor : Bool) (n : Nat) : Bool :=
  [0x010, 0x011, 0x012, 0x020, 0x021, 0x022, 0x041, 0x050, 0x088, 0x089, 0x0A1, 0x0A2].contains n ||
  (n == 0x042 && !supervisor)

/-- The context whose values the slot reads and writes (R177). -/
def State.csrCtx (s : State) : Nat := if s.hot.supervisor then s.hot.tctx else s.hot.ctx

/-- The value of a CSR; `XLAUNCH` and numbers that do not exist read as zero here and are dealt with before. -/
def State.csrRead (s : State) (n : Nat) : Word :=
  let x := s.hot
  let c := s.getCtx s.csrCtx
  let core := s.getCore s.core
  if n = 0x001 then x.fcsr
  else if n = 0x010 then s.cycleOf s.core
  else if n = 0x011 then s.time
  else if n = 0x012 then x.retired
  else if n = 0x020 then s.slotIdOf s.hotId
  else if n = 0x021 then word x.lcore
  else if n = 0x022 then word x.ctx
  else if n = 0x030 then x.contrib
  else if n = 0x040 then word (core.boostReq + ((s.getDie s.die).domain (domainOf (pcoreOf s.core))).level * 2 ^ 8)
  else if n = 0x041 then word (s.getDie s.die).pool
  else if n = 0x042 then tabGet 0 (s.getDie s.die).tquota s.csrCtx
  else if n = 0x050 then word x.spd
  else if n = 0x051 then word x.splim
  else if n = 0x052 then word x.slim
  else if n = 0x080 then x.xset[0]
  else if n = 0x081 then x.xset[1]
  else if n = 0x082 then x.xset[2]
  else if n = 0x083 then x.xset[3]
  else if n = 0x084 then x.xset[4]
  else if n = 0x085 then x.xset[5]
  else if n = 0x086 then x.xset[6]
  else if n = 0x087 then x.xset[7]
  else if n = 0x089 then x.xid
  else if n = 0x0A0 then x.trapvec
  else if n = 0x0A1 then x.trapcause
  else if n = 0x0A2 then x.trapval
  else if n = 0x0A3 then x.trappc
  else if n = 0x100 then word (x.tctx * 2 ^ 8 + if x.supervisor then 1 else 0)
  else if n = 0x101 then c.cbase
  else if n = 0x102 then c.clim
  else if n = 0x103 then c.csave
  else if n = 0x104 then c.asidr
  else if n = 0x105 then c.coretab
  else if n = 0x106 then c.routetab
  else if n = 0x107 then c.ownmap
  else if n = 0x108 then c.spillbase
  else if n = 0x110 then s.shipTarget s.core
  else if n = 0x111 then word core.gshare
  else if n = 0x120 then s.mctbase
  else 0

/-! ## Writes -/

/-- A write of `ASIDR` (R213): it makes a dead context live once its `HALT` has completed, or one that has never been
live; such a context has no tasks and no pre-emption, and its `DROPCNT` is 0 (R414). -/
def State.writeAsidr (s : State) (c : Nat) (w : Word) : State :=
  let x := s.getCtx c
  if !x.live && (x.haltDone || !x.everLive) then
    let s := s.setCtx c { x with asidr := w, live := true, everLive := true, haltDone := false, occupied := [], seqs := [], spilled := [] }
    { s with dies := s.dies.map fun (y : Nat × Die) => (y.1, { y.2 with dropcnt := tabErase y.2.dropcnt c }) }
  else s.setCtx c { x with asidr := w }

/-- Balance of a `TQUOTA` value. -/
def quotaBal (w : Word) : Int := (w.setWidth 32).toInt

/-- A `TQUOTA` value. -/
def quotaWord (en : Bool) (bal : Int) : Word :=
  ((BitVec.ofInt 32 (max (-2147483648) (min 2147483647 bal))).setWidth 64) ||| (if en then 0x8000000000000000 else 0)

/-- A supervisor write of `TQUOTA` (R352): the debt is carried, the surplus is not; a context with no balance is withheld
(R353). -/
def State.writeQuota (s : State) (die c : Nat) (w : Word) : State :=
  let d := s.getDie die
  let q := quotaWord (w.bit 63) (quotaBal w + min (quotaBal (tabGet 0 d.tquota c)) 0)
  let held := decide (quotaBal q ≤ 0) && q.bit 63 && !d.quotaHeld.contains c
  s.setDie die { d with tquota := tabSet d.tquota c q, quotaHeld := if held then c :: d.quotaHeld else d.quotaHeld }

/-- A write of a CSR held per context, quad, Bassoon or package. `GSHARE` is held per Bassoon; what 0x111 names on a Piccolo
the spec does not say: the model gives each core one, and a Piccolo's acts on nothing. DESIGN CHOICE (log 59), unsafe. -/
def State.supervisorWrite (s : State) (k coreId n : Nat) (w : Word) : State :=
  let c := s.getCtx k
  if n = 0x101 then s.setCtx k { c with cbase := w &&& ~~~(3#64) }
  else if n = 0x102 then s.setCtx k { c with clim := w &&& ~~~(3#64) }
  else if n = 0x103 then s.setCtx k { c with csave := w &&& ~~~(0xFFF#64) }
  else if n = 0x104 then s.writeAsidr k w
  else if n = 0x105 then s.setCtx k { c with coretab := w &&& ~~~(0x3F#64) }
  else if n = 0x106 then s.setCtx k { c with routetab := w &&& ~~~(7#64) }
  else if n = 0x107 then s.setCtx k { c with ownmap := w &&& ~~~(0x1F#64) }
  else if n = 0x108 then s.setCtx k { c with spillbase := w &&& ~~~(0x1F#64) }
  else if n = 0x110 then { s with shiptgt := tabSet s.shiptgt (quadKey coreId) (w &&& 0x8F) }
  else if n = 0x111 then s.setCore coreId { s.getCore coreId with gshare := max 1 (min 16 (w.bits 0 5)) }
  else if n = 0x120 then { s with mctbase := w &&& 0xFFFFFFFFFF001 }
  else s

/-- Writes a CSR: reserved fields are discarded, and `SLIM`, `SPLIM` and `GSHARE` are clamped (R50, R54, R178, R231). -/
def State.csrWrite (s : State) (n : Nat) (w : Word) : State :=
  let x := s.hot
  let k := s.csrCtx
  let core := s.getCore s.core
  if n = 0x001 then { s with hot := { x.log (.fcsr x.fcsr) with fcsr := w &&& 0x1FFF } }
  else if n = 0x030 then { s with hot := { x with contrib := w &&& 0xF } }
  else if n = 0x040 then s.setCore s.core { core with boostReq := if w.bits 0 2 = 3 then 0 else w.bits 0 2 }
  else if n = 0x042 then s.writeQuota s.die k w
  else if n = 0x051 then { s with hot := { x with splim := max 64 (min 8192 w.toNat) } }
  else if n = 0x052 then { s with hot := { x with slim := max 1 (min 64 w.toNat) } }
  else if n = 0x080 then { s with hot := { x with xset := x.xset.set 0 w } }
  else if n = 0x081 then { s with hot := { x with xset := x.xset.set 1 w } }
  else if n = 0x082 then { s with hot := { x with xset := x.xset.set 2 (w &&& 0x1FFFFFFFFF) } }
  else if n = 0x083 then { s with hot := { x with xset := x.xset.set 3 w } }
  else if n = 0x084 then { s with hot := { x with xset := x.xset.set 4 w } }
  else if n = 0x085 then { s with hot := { x with xset := x.xset.set 5 (w &&& 0xFFFFFFFFFFFFFF) } }
  else if n = 0x086 then { s with hot := { x with xset := x.xset.set 6 (w &&& 0x800003FF00FFFFFF) } }
  else if n = 0x087 then { s with hot := { x with xset := x.xset.set 7 (w &&& ~~~(0x1F#64)) } }
  else if n = 0x0A0 then { s with hot := { x with trapvec := w &&& ~~~(3#64) } }
  else if n = 0x0A3 then { s with hot := { x with trappc := w } }
  else if n = 0x100 then { s with hot := { x with tctx := w.bits 8 8 } }
  else s.supervisorWrite k s.core n w

/-! ## The CSR words (R206) -/

/-- The fault of a CSR word, in the order of R427. -/
def State.csrFault (s : State) (n : Nat) (writes onlyRead : Bool) : Option (Cause × Nat) :=
  if !csrExists n then some (.illegal, 9)
  else if 0x100 ≤ n && !s.hot.supervisor then some (.privilege, n)
  else if (writes && csrReadOnly s.hot.supervisor n) || (!onlyRead && n == csrXlaunch) then some (.illegal, 9)
  else none

/-- A CSR word: its fault, else its effect. -/
def csrWord (i : Instr) (n : BitVec 11) (writes onlyRead : Bool) (k : State → Out) (s : State) : Out :=
  match s.csrFault n.toNat writes onlyRead with
  | some (c, d) => .next (s.raise c d (s.wordVal i))
  | none => k s

def execCsrr (d : GReg) (c : BitVec 11) (s : State) : Out :=
  csrWord (.csrr d c) c false true (fun s =>
    if c.toNat = csrXlaunch then readXlaunch d s else .next (s.writeG d (s.csrRead c.toNat)).retire) s

def execCsrw (a : GReg) (c : BitVec 11) (s : State) : Out :=
  csrWord (.csrw a c) c true false (fun s => .next (s.csrWrite c.toNat (s.g a)).retire) s

def execCsrrw (d : GReg) (a : GReg) (c : BitVec 11) (s : State) : Out :=
  csrWord (.csrrw d a c) c true false
    (fun s => .next ((s.csrWrite c.toNat (s.g a)).writeG d (s.csrRead c.toNat)).retire) s

/-- With rs1 = `g0` nothing is written. -/
def execCsrs (a : GReg) (c : BitVec 11) (s : State) : Out :=
  csrWord (.csrs a c) c (a != 0) false
    (fun s => .next (if a = 0 then s else s.csrWrite c.toNat (s.csrRead c.toNat ||| s.g a)).retire) s

def execCsrc (a : GReg) (c : BitVec 11) (s : State) : Out :=
  csrWord (.csrc a c) c (a != 0) false
    (fun s => .next (if a = 0 then s else s.csrWrite c.toNat (s.csrRead c.toNat &&& ~~~(s.g a))).retire) s

/-! ## Writes that are events (R6, R213, R352, R360, R363) -/

/-- The host reaches the package: through port 0, or through port 1 where that is not an unaccepted feature (R363, R364). -/
def Package.hostReaches (p : Package) : Bool :=
  !p.hostDown.contains 0 || (!p.hostDown.contains 1 && (!p.committed || p.accepts 11))

/-- A supervisor's loader sets the address of `DONE` that its context's activations find in `g1` (R43). -/
def State.setRuntime (s : State) (c : Nat) (w : Word) : State := s.setCtx c { s.getCtx c with runtime := w }

/-- A supervisor's loader writes a save record at a position of a logical core, which is occupied from then on (R58, R371);
where the save area cannot be written nothing changes. -/
def State.writeRecordAt (s : State) (c l p : Nat) (bytes : List Byte) : State :=
  match s.tableWrite c ((s.getCtx c).saveAddr l p) bytes with
  | some s => if p < 4 then s.occupy c l p else s
  | none => s

/-- The Shawm hart that writes: the housekeeping firmware runs on Shawm 0 of die 0 (R360). -/
def hartOf : Writer → Option Nat
  | .housekeeping => some 0
  | .shawm h => some h
  | _ => none

/-- Who writes is there to write: a hart of the supervisor is one of the other 95, and a hart that is out of service does
nothing (R355, R360, R457). -/
def State.acts (s : State) (who : Writer) : Bool :=
  (match who with
    | .shawm h => decide (0 < h) && decide (h < 96)
    | .housekeeping => s.package.locked
    | _ => true) &&
  match hartOf who with | some h => !s.package.shawmOut (h / 4 * 256 + 132 + h % 4) | none => true

/-- The CSRs of a Shawm hart by number, rising: those of RISC-V's floating-point, vector, supervisor, virtual supervisor,
hypervisor and machine levels. PRESUMED (log 77), unsafe. -/
def shawmCsrs : List Nat :=
  [0x001, 0x002, 0x003, 0x008, 0x009, 0x00A, 0x00F,
   0x100, 0x104, 0x105, 0x106, 0x10A, 0x140, 0x141, 0x142, 0x143, 0x144, 0x14D, 0x180,
   0x200, 0x204, 0x205, 0x240, 0x241, 0x242, 0x243, 0x244, 0x24D, 0x280,
   0x300, 0x301, 0x302, 0x303, 0x304, 0x305, 0x306, 0x30A, 0x340, 0x341, 0x342, 0x343, 0x344, 0x34A, 0x34B,
   0x600, 0x602, 0x603, 0x604, 0x605, 0x606, 0x607, 0x60A, 0x643, 0x644, 0x645, 0x64A, 0x680,
   0xC00, 0xC01, 0xC02, 0xC20, 0xC21, 0xC22, 0xE12]

/-- A RISC-V access fault of a hart at its machine level: the CSRs mepc, mcause, mtval and mtvec. The cause number, the value
and the level are RISC-V's, not this spec's; whether a load or a store failed, and at which virtual address, the event does not
say: free values. PRESUMED (log 77), unsafe. -/
def Shawm.accessFault (x : Shawm) (n : Nat) : Shawm :=
  let cause : Word := if (Config.shawmWord n 0).bit 0 then 7 else 5
  { x with
    csr := tabSet (tabSet (tabSet x.csr 0x341 x.pc) 0x342 cause) 0x343 (Config.shawmWord n 1)
    pc := tabGet 0 x.csr 0x305 &&& ~~~(3#64) }

/-- A hart that has acted has run RV64 code that this spec does not give: its registers are free (R15). -/
def State.hartRan (s : State) (who : Writer) : State :=
  match hartOf who with
  | some h =>
    let d := s.getDie (h / 4)
    let free := fun n => Config.shawmWord s.freeCtr n
    let x : Shawm := {
      x := Vector.ofFn fun (r : Fin 32) => if r = 0 then 0 else free r.val
      f := Vector.ofFn fun (r : Fin 32) => free (32 + r.val)
      v := Vector.ofFn fun (r : Fin 32) => (free (65 + r.val)).setWidth 128 ||| (free (97 + r.val)).setWidth 128 <<< 64
      csr := shawmCsrs.map fun n => (n, free (4096 + n))
      pc := free 64 }
    { s.setDie (h / 4) { d with shawms := d.shawms.set (h % 4) x (by omega) } with freeCtr := s.freeCtr + 1 }
  | none => s

/-- The bytes that a write of the housekeeping hart reaches; staged updates are no memory. -/
def targetSpan : RegTarget → Option (Nat × Nat)
  | .device die off => some (devBase + die * 2 ^ 32 + off, 8)
  | .memory pa bytes => some (pa, bytes.length)
  | _ => none

/-- A store of a Shawm hart to memory: of a COH line, where its caches may write it (R151, R159); of an HCO line, which they may
not hold, at the agent of the port, once no cache has a copy (R162); of all other memory at the home. -/
def State.shawmStore (s : State) (who : Writer) (hart pa : Nat) (bytes : List Byte) : State :=
  let die := hart / 4
  let agent := die * 256 + 132 + hart % 4
  match s.classify die pa with
  | .error _ => s
  | .ok p =>
    let line := lineOf p.pa
    if 128 < p.pa % 128 + bytes.length then s
    else if p.kind = .hco then
      if s.lineFree line then (s.obtain line true).writePlace none who p bytes else s.recallLine line
    else if s.storeHits p.kind line agent then
      let s := if p.kind.byHardware then s.missStore p.kind [] line agent else s
      if p.kind.byHardware && s.cst line agent != some .m then s else s.writePlace none who p bytes
    else s

/-- A write, made by one who is there and may make it: the host reaches the window of die 0's block; the housekeeping
firmware writes registers and memory inside its partition, and stages flash updates; the harts of the supervisor write
registers, memory, supervisor CSRs, a context's `DONE` address and save records (R360). -/
def State.registerWrite (s : State) (who : Writer) (target : RegTarget) (w : Word) : State :=
  let shawm : Option Nat := match who with | .shawm h => some h | _ => none
  match target with
  | .device die off =>
    if who = .host ∧ (die ≠ 0 ∨ 2 ^ 28 ≤ off ∨ !s.package.hostReaches) then s else s.devWrite who die off w
  | .memory pa bytes => match hartOf who with | some h => s.shawmStore who h pa bytes | none => s
  | .flash image =>
    if who = .housekeeping then
      { s with package := { s.package with flash := { s.package.flash with staged := s.package.flash.staged ++ [image] } } }
    else s
  | .csr c core n => if shawm.isSome then s.supervisorWrite c core n w else s
  | .runtime c => if shawm.isSome then s.setRuntime c w else s
  | .record c l p bytes => if shawm.isSome then s.writeRecordAt c l p bytes else s

/-- REGISTER_WRITE. An access of the housekeeping hart outside its range table is not performed (R361, R483). -/
def execRegisterWrite (s : State) : Out :=
  match s.agenda with
  | .registerWrite who target w :: t =>
    let s := { s with agenda := t }
    .next (if !s.acts who then s
      else
        let s := s.hartRan who
        match (if who = .housekeeping then targetSpan target else none) with
        | some (pa, n) =>
          if s.housekeepingMay pa n true then s.registerWrite who target w else s.post (.housekeepingRangeViolation pa)
        | none => s.registerWrite who target w)
  | _ => .next s

/-- ASIDR_WRITE: a write from the supervisor's side. -/
def execAsidrWrite (s : State) : Out :=
  match s.agenda with
  | .asidrWrite c w :: t => .next ({ s with agenda := t }.writeAsidr c w)
  | _ => .next s

/-- TQUOTA_WRITE: a write from the supervisor's side. -/
def execTquotaWrite (s : State) : Out :=
  match s.agenda with
  | .tquotaWrite die c w :: t => .next ({ s with agenda := t }.writeQuota die c w)
  | _ => .next s

end Sys2Proof.Machine
end

