-- ==== Sys2Proof/Machine/Sync.lean ====
section
/-!
DEFINITION. Fence tokens (R131 to R134, R286) and cache maintenance (R287).
-/
namespace Sys2Proof.Machine

/-! ## Token entries (R132) -/

/-- Sequence numbers are taken modulo 2²⁹. -/
def seqSpan : Nat := 2 ^ 29

/-- How long ago an entry was taken. -/
def Slot.tokenAge (x : Slot) (i : Fin 8) : Nat :=
  match x.tokens[i.val] with
  | some t => (x.seq + seqSpan - t.seq) % seqSpan
  | none => 0

/-- The lowest free entry, else the oldest live entry if it is complete; none while it is not. -/
def Slot.tokenEntry (x : Slot) : Option (Fin 8) :=
  match (List.finRange 8).find? fun i => (x.tokens[i.val]).isNone with
  | some i => some i
  | none =>
    let old := (List.finRange 8).foldl (fun (b i : Fin 8) => if x.tokenAge b < x.tokenAge i then i else b) 0
    match x.tokens[old.val] with
    | some t => if t.complete then some old else none
    | none => some old

/-- The value of a token (R132). -/
def tokenValue (seq : Nat) (e : Fin 8) : Word := word (seq * 8 + e.val)

/-- Takes a token entry for work that ends when the listed updates are applied; none while no entry can be taken. -/
def Slot.takeToken (x : Slot) (need : List Nat) (complete : Bool) : Option (Word × Slot × Fin 8) :=
  match x.tokenEntry with
  | none => none
  | some e =>
    let q := (x.seq + 1) % seqSpan
    some (tokenValue q e, { x with seq := q, tokens := x.tokens.set e.val (some ⟨q, need, complete⟩) }, e)

/-- The live entry a token value names. -/
def Slot.liveToken (x : Slot) (t : Word) : Option (Fin 8 × Token) :=
  let e : Fin 8 := ⟨t.bits 0 3, by simp only [Word.bits]; omega⟩
  match x.tokens[e.val] with
  | some k => if t.bits 3 61 = k.seq then some (e, k) else none
  | none => none

/-- A token is complete if it names no live entry, or a complete one (R132). -/
def Slot.tokenComplete (x : Slot) (t : Word) : Bool :=
  match x.liveToken t with | some (_, k) => k.complete | none => true

/-- Observing a complete token frees its entry (R132). -/
def Slot.observe (x : Slot) (t : Word) : Slot :=
  match x.liveToken t with
  | some (e, _) => { x with tokens := x.tokens.set e.val none }
  | none => x

/-- The outstanding reductions a class mask covers (R122, R143): every other access has performed (log 7). -/
def Slot.coveredBy (x : Slot) (c : BitVec 4) : List Nat := if c.getLsbD 2 then x.reductions else []

/-! ## The FENCE group (R286) -/

/-- `FISS` (R131). -/
def execFiss (d : GReg) (c : BitVec 4) (_ : Scope) (s : State) : Out :=
  let need := s.hot.coveredBy c
  match s.hot.takeToken need need.isEmpty with
  | none => .next s.stall
  | some (t, x, _) => .next ({ s with hot := x }.writeG d t).retire

/-- `FWAIT` (R133). -/
def execFwait (a : GReg) (s : State) : Out :=
  if s.hot.tokenComplete (s.g a) then .next { s with hot := s.hot.observe (s.g a) }.retire else .next s.stall

/-- `FTEST` (R133). -/
def execFtest (d : GReg) (a : GReg) (s : State) : Out :=
  if s.hot.tokenComplete (s.g a) then .next ({ s with hot := s.hot.observe (s.g a) }.writeG d 1).retire
  else .next (s.writeG d 0).retire

/-- `FENCE` (R134): `FISS` then `FWAIT` on one token, whose entry it uses and frees. -/
def execFence (c : BitVec 4) (_ : Scope) (s : State) : Out :=
  if (s.hot.coveredBy c).isEmpty then
    match s.hot.takeToken [] true with
    | none => .next s.stall
    | some (t, x, _) => .next { s with hot := x.observe t }.retire
  else .next s.stall

/-- `FENCEF` (R106, R134): after every earlier store of the slot the instruction cache of its core is emptied, so that fetch
sees them. -/
def execFencef (s : State) : Out :=
  if s.hot.held ≠ [] then .next s.stall else .next (s.setCore s.core { s.getCore s.core with icache := [], icachep := [] }).retire

/-! ## Cache maintenance (R287) -/

/-- Whether a scope reaches the home: `.pkg` or wider. -/
def Scope.reachesHome : Scope → Bool | .pkg | .dom | .sys => true | _ => false

/-- Whether a line that hardware keeps consistent is on its way to or from the core: a CACHE word waits. -/
def State.lineMoves (s : State) (line : Nat) : Bool :=
  match s.cst line s.core with | some x => x.moving | none => false

/-- A copy of a line in M becomes clean: its data has gone home. -/
def State.cleanCopy (s : State) (line a : Nat) : State := if s.cst line a = some .m then s.setCst line a (some .e) else s

/-- `CLEAN` of a COH or HCO line: dirty data goes home, from the core and through the proxy of its die, and the line stays
valid, now clean. -/
def State.cleanHeld (s : State) (line : Nat) : State := (s.cleanCopy line s.core).cleanCopy line (proxyOf s.die)

/-- `INVL` and `FLUSH` of such a line: the core's copy goes too. -/
def State.flushHeld (s : State) (line : Nat) : State := (s.cleanHeld line).evictLine line s.core

/-- A CACHE word (R287): `soft` on an SWM or domain-window line, `hard` on a COH or HCO line, no effect elsewhere. -/
def cacheWord (a : GReg) (soft : Phys → State → State) (hard : Nat → State → State) (s : State) : Out :=
  match s.checkAll s.me s.die .maint [(0, ⟨s.g a, 1, 1, false⟩)] with
  | (s, some f, _) => .next (s.accessFault f)
  | (s, none, []) => .next s.stall
  | (s, none, (p, _) :: _) =>
    if p.kind.byHardware && s.lineMoves (lineOf p.pa) then .next s.stall
    else .next (if p.kind.bySoftware then soft p s else if p.kind.byHardware then hard (lineOf p.pa) s else s).retire

def execClean (a : GReg) (sc : Scope) (s : State) : Out :=
  cacheWord a (fun p s => s.cleanLine s.core p (Scope.reachesHome sc)) (fun line s => s.cleanHeld line) s
def execInvl (a : GReg) (sc : Scope) (s : State) : Out :=
  cacheWord a (fun p s => s.invalLine s.core p (Scope.reachesHome sc)) (fun line s => s.flushHeld line) s
def execFlush (a : GReg) (sc : Scope) (s : State) : Out :=
  cacheWord a (fun p s => (s.cleanLine s.core p (Scope.reachesHome sc)).invalLine s.core p (Scope.reachesHome sc))
    (fun line s => s.flushHeld line) s

/-- `ZLINE`: a store of 128 zero bytes. -/
def execZline (a : GReg) (_ : Scope) (s : State) : Out :=
  let line := word (lineOf (s.g a).toNat)
  match s.checkAll s.me s.die .zline [(0, ⟨line, 128, 1, false⟩)] with
  | (s, some f, _) => .next (s.accessFault f)
  | (s, none, ps) =>
    if s.storeWaits ps then .next s.stall
    else if !s.storesHit ps then .next (s.askStores ps).stall
    else .next (s.issueStores (storeReqs ps (List.replicate 128 0))).retire

/-- `PREF`: a hint that never faults (R287, R423). -/
def execPref (_ : GReg) (_ : Scope) (s : State) : Out := .next s.retire

end Sys2Proof.Machine
end

