-- ==== Sys2Proof/Machine/System.lean ====
section
/-!
DEFINITION. `ECALL`, `EBREAK`, `TRET`, `WFM`, `TLBINV`, `HALT`, `CAPMINT` (R208 to R215, R409), `SAFEPT` (R298, R299,
R429), `REP` (R266, R267, R433) and `QCNT` (R265).
-/
namespace Sys2Proof.Machine

/-! ## ECALL, EBREAK, TRET (R208, R209) -/

def execEcall (a : GReg) (s : State) : Out := .next (s.raise .ecall 0 (s.g a))
def execEbreak (c : BitVec 10) (s : State) : Out := .next (s.raise .break 0 (c.setWidth 64))
def execTret (s : State) : Out :=
  .next (if trapHnd s.hot then s.trapReturn else s.raise .illegal 10 (s.wordVal .tret))

/-! ## WFM (R210) -/

/-- Whether a message waits for a context on a core: in the arrival queue, or in the spill queue of a logical core of
the context whose entry names the core. -/
def State.messageWaits (s : State) (core c : Nat) : Bool :=
  ((s.getCore core).arrival.any fun e => msgCtx e.msg == c && [0, 1, 2, 5].contains (msgType e.msg)) ||
  (List.range (s.tableCores c)).any fun l =>
    (match s.ctRead c l with | .entry _ e => e.pkg == s.pkg && coreKey e.die e.pcore == core | _ => false) &&
    (let a := (s.getCtx c).spillbase + word (32 * l)
     match s.tableRead c (a + 8) 4, s.tableRead c (a + 12) 4 with | some h, some t => h != t | _, _ => false)

/-- The code with which a slot in `WFM` wakes: the highest event that is true. -/
def State.wakeCode (s : State) (k : Nat) (limit : Option Nat) : Option Nat :=
  let x := s.getSlot k
  let core := coreOfSlot k
  if s.pendingPreempt core x.ctx then some 2
  else if s.messageWaits core x.ctx then some 1
  else match limit with
    | some t => if t ≤ s.time.toNat then some 0 else none
    | none => none

/-- `WFM`: an event already true wakes the slot at once. -/
def execWfm (d : GReg) (a : GReg) (s : State) : Out :=
  let limit := if s.g a = 0 then none else some (s.time.toNat + (s.g a).toNat)
  match s.wakeCode s.hotId limit with
  | some c => .next (s.writeG d (word c)).retire
  | none => .next { s.retire with hot := { s.retire.hot with phase := .wfm d limit } }

/-- The code of an event that came true while a slot waited: as an arrival or a pre-emption found the wait, or as things
stand now, whichever is higher. -/
def State.seenCode (s : State) (k : Nat) (limit : Option Nat) (seen : Option (Nat × Nat × Word)) : Option Nat :=
  let x := s.getSlot k
  let then' := match seen with
    | some (code, gen, retired) => if x.gen = gen ∧ x.retired = retired then some code else none
    | none => none
  match then', s.wakeCode k limit with
  | some a, some b => some (max a b)
  | some a, none => some a
  | none, b => b

/-- WFM_WAKE: an event has come true. -/
def execWfmWake (s : State) : Out :=
  match s.agenda with
  | .wfmWake k seen :: t =>
    let s := { s with agenda := t }
    let x := s.getSlot k
    .next (match x.phase with
      | .wfm d limit =>
        match s.seenCode k limit seen with
        | some c => s.setSlot k { x.setG d (word c) with phase := .running }
        | none => s
      | _ => s)
  | _ => .next s

/-! ## TLBINV (R211, R212) -/

/-- Whether a descriptor breaks R211. -/
def badTlbinv (x : Word) : Bool :=
  x.bits 48 16 != 0 || x.bits 13 19 != 0 || x.bits 5 3 != 0 || x.bits 3 2 == 3 || decide (5 < x.bits 0 3) ||
  (x.bits 3 2 == 0 && decide (4 < x.bits 8 4) && x.bits 8 4 != 15)

/-- log2 of a page size code. -/
def tlbSize (code : Nat) : Nat := match code with | 0 => 12 | 1 => 16 | 2 => 21 | 3 => 30 | _ => 39

/-- The quad of a core, or whose TLB it is (R118). -/
def quadOfTlb (core : Nat) : Option Nat :=
  let n := pcoreOf core
  if n < 128 then some (n / 4) else if 192 ≤ n ∧ n < 224 then some (n - 192) else none

/-- Whether a core, or a TLB, lies in the unit of a scope that holds a core. -/
def sameUnit (scope a b : Nat) : Bool :=
  match scope with
  | 0 => a == b
  | 1 => dieOfCore a == dieOfCore b && (a == b || ((quadOfTlb a).isSome && quadOfTlb a == quadOfTlb b))
  | 2 => dieOfCore a == dieOfCore b
  | _ => true

/-- Whether an invalidation of kind 0 covers a leaf. A global leaf belongs to every ASID. -/
def coversLeaf (all whole : Bool) (asid base size : Nat) (e : TlbEntry) : Bool :=
  (all || e.global || e.asid == asid) &&
  (whole || (decide (e.base < base + 2 ^ size) && decide (base < e.base + 2 ^ e.size)))

/-- Whether the descriptor and address of an invalidation of kind 0 cover a leaf. -/
def State.tlbinvHits (s : State) (x va : Word) : TlbEntry → Bool :=
  let size := tlbSize (x.bits 8 4)
  coversLeaf (x.bit 12) (x.bits 8 4 == 15) (s.asidOf s.hot.tctx) (va.toNat % 2 ^ 57 / 2 ^ size * 2 ^ size) size

/-- Kind 0: covered leaves go from every TLB of the unit, and owner fields of covered COH leaves are evicted (R155). -/
def State.tlbinvPages (s : State) (x va : Word) : State :=
  let hit := s.tlbinvHits x va
  let inUnit := fun c => sameUnit (x.bits 0 3) s.core c
  let cores := s.cores.map fun (c : Nat × Core) =>
    if inUnit c.1 then (c.1, { c.2 with tlb := c.2.tlb.filter fun e => !hit e }) else c
  let s := { s with cores := cores }
  (s.pages.filter fun (p : Nat × Page) => hit p.2.leaf && inUnit (llTlb (homeDie p.1))).foldl
    (fun s p => s.post (.llTlbEviction p.1)) s

/-- The cores whose L1 holds a byte dirty, with the byte. -/
def State.dirtyCopies (s : State) (a : Nat) : List (Nat × Byte) :=
  (s.cores.filterMap fun (c : Nat × Core) => if tabHas c.2.l1 a then some (c.1, tabGet 0 c.2.l1 a) else none)

/-- The value a die writes back for a byte, with its key: the L1 copy of lowest key, else its L2 copy (R446). -/
def State.dieCopy (s : State) (die a : Nat) : Option (Nat × Byte) :=
  match (s.dirtyCopies a).find? fun x => dieOfCore x.1 == die with
  | some x => some x
  | none =>
    let l2 := (s.getDie die).l2
    if tabHas l2 a then some (coreKey die 255, tabGet 0 l2 a) else none

/-- Whether two contributors hold a byte dirty: two cores of a die, or two dies. -/
def State.dirtyConflict (s : State) (a : Nat) : Bool :=
  decide (1 < ((List.range 24).filterMap fun d => s.dieCopy d a).length) ||
  (List.range 24).any fun d => decide (1 < ((s.dirtyCopies a).filter fun x => dieOfCore x.1 == d).length)

/-- Dirty addresses of a granule, without repeats. -/
def State.dirtyBytes (s : State) (base : Nat) : List Nat :=
  let inside := fun (c : Host.Cell) => decide (base ≤ c.1) && decide (c.1 < base + 2 ^ 21)
  let all := (s.cores.flatMap fun (c : Nat × Core) => (c.2.l1.filter inside).map (·.1)) ++
    (s.dies.flatMap fun (d : Nat × Die) => (d.2.l2.filter inside).map (·.1))
  all.foldl (fun l a => if l.contains a then l else a :: l) []

/-- The merge of the dirty copies of a byte: within a die the L1 copies over the L2 copy, between dies the lowest key
(R446). -/
def State.mergedByte (s : State) (a : Nat) : Option (Nat × Byte) :=
  (List.range 24).findSome? fun d => s.dieCopy d a

/-- Whether the copy that holds a byte, by its key, has its word poisoned. -/
def State.copyPoisoned (s : State) (key a : Nat) : Bool :=
  if key % 256 = 255 then (s.getDie (key / 256)).l2p.contains (a / 8) else (s.getCore key).l1p.contains (a / 8)

/-- The class sweep (R111, R446): dirty bytes of a granule go to memory, then every cached copy goes. Each line with a
conflict is logged once. -/
def State.sweepDirty (s : State) (base : Nat) : State :=
  let as := s.dirtyBytes base
  let conflicts := as.filter s.dirtyConflict
  let lines := conflicts.foldl (fun l a => if l.contains (lineOf a) then l else lineOf a :: l) []
  let log := lines.map fun line =>
    let cs := conflicts.filter fun a => lineOf a == line
    let key := (cs.filterMap fun a => (s.mergedByte a).map (·.1)).foldl min 65535
    (line, key + cs.length % 256 * 2 ^ 16)
  let cells := as.filterMap fun a => (s.mergedByte a).map fun x => (a, x.2)
  let outside := fun (a : Nat) => !(decide (base ≤ a) && decide (a < base + 2 ^ 21))
  let bad : List Nat := (as.filter fun a => match s.mergedByte a with | some x => s.copyPoisoned x.1 a | none => false).map (· / 8)
  let s := s.writeHome cells bad
  let s := { s with
    cores := s.cores.map fun (c : Nat × Core) => (c.1, { c.2 with
      l1p := c.2.l1p.filter fun w => outside (8 * w)
      l1 := c.2.l1.filter fun (b : Host.Cell) => outside b.1
      l1c := c.2.l1c.filter fun (b : Nat × List Byte) => outside b.1
      icache := c.2.icache.filter fun (b : Nat × List Byte) => outside b.1
      icachep := c.2.icachep.filter fun w => outside (8 * w) })
    dies := s.dies.map fun (d : Nat × Die) => (d.1, { d.2 with
      l2p := d.2.l2p.filter fun w => outside (8 * w)
      l2 := d.2.l2.filter fun (b : Host.Cell) => outside b.1
      l2c := d.2.l2c.filter fun (b : Nat × List Byte) => outside b.1 }) }
  log.foldl (fun s (x : Nat × Nat) =>
    s.logRecord (homeDie x.1) ⟨1, 0, 3, 1, none, some (x.1, true), location 1 (sliceOf x.1) s.pkg (homeDie x.1) 0, x.2⟩) s

/-- A granule leaves class ACC with its old number (R111): pending lines are combined, their state is discarded, and the
bytes of the slot area become zero. -/
def State.leaveAcc (s : State) (base n : Nat) : State :=
  let lines := s.acc.filter fun (x : Nat × AccState) => decide (base ≤ x.1) && decide (x.1 < base + 2 ^ 21)
  let s := lines.foldl (fun s x => s.combine n x.1) s
  let s := { s with acc := s.acc.filter fun (x : Nat × AccState) => !(decide (base ≤ x.1) && decide (x.1 < base + 2 ^ 21)) }
  let lo := base + 2 ^ 21 / accParts n
  { s with mem := s.mem.filter fun (c : Host.Cell) => !(decide (lo ≤ c.1) && decide (c.1 < base + 2 ^ 21)) }

/-- No entry of any TLB holds the class of a granule. -/
def State.dropClasses (s : State) (granule : Nat) : State :=
  { s with cores := s.cores.map fun (c : Nat × Core) => (c.1, { c.2 with
      tlb := c.2.tlb.map fun e => { e with classes := e.classes.filter fun x => x.1 != granule } }) }

/-- Kind 1 (R111, R212): the sweep of the granule. The host gets back the lines of it that a port's agent has (R162, R395); the
class held for it goes from every TLB; and its lines are held under the entry as it is now. -/
def State.classSweep (s : State) (pa : Nat) : State :=
  let g := pa / 2 ^ 21
  let base := g * 2 ^ 21
  let s := s.sweepDirty base
  let s := { s with hco := s.hco.filter fun (x : Nat × Bool) => x.1 / 2 ^ 21 != g }.dropClasses g
  match mctIndex s.pkg base with
  | none => s
  | some i =>
    let now := s.mctEntry i
    let old := tabGet now s.mct g
    let s := if old % 8 = 2 ∧ now ≠ old then s.leaveAcc base (old / 8) else s
    if s.mctbase.bit 0 then { s with mct := tabSet s.mct g now } else s

/-- The lines of a granule that some cache or directory has under the protocol of R159. -/
def State.granuleLines (s : State) (pa : Nat) : List Nat :=
  let inside := fun line => decide (line / 2 ^ 21 = pa / 2 ^ 21)
  (((s.caches.map fun (c : Nat × CState) => c.1 / 8192) ++ s.homes.map fun (h : Nat × HState) => h.1 / 32).filter inside).dedup

/-- Kind 2 (R61, R120, R212): covered core-table cache entries go, and the marks of a logical core clear at every core of
the unit that its entry no longer names. -/
def State.tlbinvTable (s : State) (x : Word) : State :=
  let c := s.hot.tctx
  let l := x.bits 32 16
  let hit := fun k => l == 0xFFFF || k == l
  let names := fun (core k : Nat) =>
    match s.ctRead c k with | .entry _ e => e.pkg == s.pkg && coreKey e.die e.pcore == core | _ => false
  let cores := s.cores.map fun (y : Nat × Core) =>
    if sameUnit (x.bits 0 3) s.core y.1 then
      (y.1, { y.2 with
        ctCache := y.2.ctCache.filter fun e => !(e.1 == c && hit e.2.1)
        marks := y.2.marks.filter fun m => !(m.ctx == c && hit m.lcore && !names y.1 m.lcore) })
    else y
  { s with cores := cores }

/-- The effect of a descriptor. -/
def State.tlbinv (s : State) (x va : Word) : State :=
  match x.bits 3 2 with
  | 0 => s.tlbinvPages x va
  | 1 => s.classSweep (va.toNat % 2 ^ 52)
  | _ => s.tlbinvTable x

/-- The updates on their way with an element that a test picks. -/
def State.updatesWith (s : State) (f : NruUpdate → Nat × Word × Word → Bool) : List NruUpdate :=
  s.agenda.filterMap fun e => match e with | .nruUpdate u => if u.elems.any (f u) then some u else none | _ => none

/-- The stores held behind shipped words with a part that a test picks, with their slots. -/
def State.heldWith (s : State) (f : StoreReq → Bool) : List (Nat × Slot × HeldStore) :=
  s.slotKeys.flatMap fun k => ((s.getSlot k).held.filter fun h => h.parts.any f).map fun h => (k, s.getSlot k, h)

/-- The atomics on their way, or at their homes, that a test picks. -/
def State.atomicsWith (s : State) (f : AtomMsg → Bool) : List AtomMsg :=
  (s.agenda.filterMap fun e => match e with
    | .remoteAtomicMessage a | .atomicAtHome a false _ => if f a then some a else none
    | _ => none) ++
  s.atHome.filterMap fun a => if !a.2 && f a.1 then some a.1 else none

/-- An update or atomic on its way, or a store held behind a shipped word, that translated under the class a sweep is about to
change: the sweep waits for it (R111). -/
def State.granuleBusy (s : State) (x va : Word) : Bool :=
  let g := va.toNat % 2 ^ 52 / 2 ^ 21
  x.bits 3 2 == 1 &&
  (!(s.updatesWith fun _ y => y.1 / 2 ^ 21 == g).isEmpty || !(s.heldWith fun r => r.place.pa / 2 ^ 21 == g).isEmpty ||
    !(s.atomicsWith fun a => a.pa / 2 ^ 21 == g).isEmpty)

/-- The messages on their way, or waiting for a retry, that a test picks. -/
def State.messagesWith (s : State) (f : Msg → Bool) : List Msg :=
  (s.agenda.filterMap fun e => match e with
    | .taskMessageArrival _ _ m _ | .blockMessage _ _ _ m _ => if f m then some m else none
    | _ => none) ++
  s.backoff.filterMap fun r => match r with | .message _ m _ _ => if f m then some m else none | _ => none

/-- What the token of a `TLBINV` waits for (R61, R155, R212). Of kind 0: the updates, held stores and atomics that translated
through a covered leaf, as the addresses that such leaves map tell, a page of the descriptor's size among them; `t`, the state
after the invalidation, adds the owner fields that it evicts. Of kind 2: the messages, held stores and atomics of the context
that went through a covered entry. -/
def State.tlbinvAwaits (s t : State) (x va : Word) : List Await :=
  let held := fun (f : Nat × Slot × HeldStore → Bool) =>
    ((s.heldWith fun _ => true).filter f).map fun h => Await.store h.1 h.2.1.gen h.2.2.order
  match x.bits 3 2 with
  | 0 =>
    let whole := x.bits 8 4 == 15
    let size := tlbSize (x.bits 8 4)
    let asid := s.asidOf s.hot.tctx
    let gone := s.cores.flatMap fun (c : Nat × Core) =>
      if sameUnit (x.bits 0 3) s.core c.1 then c.2.tlb.filter (s.tlbinvHits x va) else []
    let through := fun (u : NruUpdate) (y : Nat × Word × Word) =>
      ((x.bit 12 || s.asidOf u.ctx == asid) && (whole || y.2.1.toNat % 2 ^ 57 / 2 ^ size == va.toNat % 2 ^ 57 / 2 ^ size)) ||
      gone.any fun e => leafCovers e (s.asidOf u.ctx) (y.2.1.toNat % 2 ^ 57)
    (s.updatesWith through).map (fun u => .update u.id) ++
    held (fun h => x.bit 12 || s.asidOf h.2.1.ctx == asid || h.2.2.parts.any fun r => gone.any fun e => leafHolds e r.place.pa) ++
    (s.atomicsWith fun a => x.bit 12 || s.asidOf (s.getSlot a.slot).ctx == asid || gone.any fun e => leafHolds e a.pa).map .atomic ++
    (t.pages.filter fun (p : Nat × Page) => t.agenda.contains (.llTlbEviction p.1)).map fun p => .field p.1
  | 2 =>
    let c := s.hot.tctx
    let l := x.bits 32 16
    (s.messagesWith fun m => msgCtx m == c && (l == 0xFFFF || msgDst m == l)).map .message ++
    held (fun h => h.2.1.ctx == c && h.2.2.parts.any fun r => match r.place.kind with | .spad _ => true | _ => false) ++
    (s.atomicsWith fun a => (s.getSlot a.slot).ctx == c).map .atomic
  | _ => []

/-- Takes a token entry for a `TLBINV` or `HALT` and writes its token: complete at once where nothing is awaited, else by
the event FENCE_TOKEN_COMPLETION. -/
def State.takeAwait (s : State) (d : GReg) (awaits : List Await) (halts : Option Nat) : Option State :=
  match s.hot.takeToken [] (awaits.isEmpty && halts.isNone) with
  | none => none
  | some (t, y, e) =>
    let s := ({ s with hot := y }.writeG d t).retire
    some (if awaits.isEmpty && halts.isNone then s
      else s.post (.fenceTokenCompletion s.hotId y.gen e y.seq awaits halts))

/-- `TLBINV`: after every earlier store, and a change of class once every copy of the granule's coherent lines has been
recalled; its token is complete once every covered entry is gone and what went through one
has taken place. -/
def execTlbinv (d : GReg) (a : GReg) (b : GReg) (s : State) : Out :=
  let x := s.g b
  if !s.hot.supervisor then .next (s.raise .privilege 0 (s.wordVal (.tlbinv d a b)))
  else if badTlbinv x then .next (s.raise .illegal 8 x)
  else if s.hot.updates ≠ [] ∨ s.granuleBusy x (s.g a) then .next s.stall
  else if x.bits 3 2 = 1 ∧ s.granuleLines ((s.g a).toNat % 2 ^ 52) ≠ [] then
    .next ((s.granuleLines ((s.g a).toNat % 2 ^ 52)).foldl State.recallLine s).stall
  else
    if s.hot.tokenEntry.isNone then .next s.stall
    else
      let t := s.tlbinv x (s.g a)
      .next ((t.takeAwait d (s.tlbinvAwaits t x (s.g a)) none).getD s.stall)

/-! ## HALT (R213) -/

/-- The commands of a context that engines have accepted. -/
def State.acceptedCommands (s : State) (c : Nat) : List Nat :=
  s.dies.flatMap fun (d : Nat × Die) =>
    (d.2.bteQ.toList.flatten.filter fun x => x.ctx == c).map (·.lock) ++ (d.2.mxeQ.toList.flatten.filter fun x => x.ctx == c).map (·.lock)

/-- What the token of a `HALT` waits for: the stores, updates and atomics that the activations it stops have sent; the commands
that engines have accepted and now run to completion; and the messages of the context on their way, all of which are discarded
while it is dead. -/
def State.haltAwaits (s : State) (c : Nat) : List Await :=
  (s.acceptedCommands c).map .command ++ (s.messagesWith fun m => msgCtx m == c).map .message ++
  ((s.slotKeys.map fun k => (k, s.getSlot k)).filter fun x => x.2.active && x.2.ctx == c).flatMap fun x =>
    Await.atomics x.1 x.2.gen :: x.2.updates.map fun u => .update u.1

/-- `HALT`: the target context is dead from here on; its token completes when the stores of its activations have performed
(their held stores are dropped), and then the context can be made live again. -/
def execHalt (d : GReg) (s : State) : Out :=
  if !s.hot.supervisor then .next (s.raise .privilege 0 (s.wordVal (.halt d)))
  else if s.hot.tctx = s.hot.ctx then .next (s.raise .illegal 10 (s.wordVal (.halt d)))
  else
    if s.hot.tokenEntry.isNone then .next s.stall
    else
      let c := s.hot.tctx
      .next (((s.killContext c).takeAwait d (s.haltAwaits c) (some c)).getD s.stall)

/-! ## CAPMINT (R214, R215) -/

/-- Bits [63:32] of a capability. -/
def capHigh (ctx mask : Nat) (time life : Word) : BitVec 32 :=
  BitVec.ofNat 32 (ctx * 2 ^ 24 + mask * 2 ^ 16 + (time.bits 20 16 + min life.toNat 32767) % 2 ^ 16)

/-- `CAPMINT`: rd waits for the digest of the Quince core. -/
def execCapmint (d : GReg) (a : GReg) (b : GReg) (s : State) : Out :=
  if !s.hot.supervisor then .next (s.raise .privilege 0 (s.wordVal (.capmint d a b)))
  else
    let h := capHigh s.hot.tctx ((s.g a).bits 0 8) s.time (s.g b)
    .next ((s.await d .mac).post (.macReturn s.hotId s.hot.gen d h)).retire

/-! ## SAFEPT (R298, R299, R429) -/

/-- Whether a safe-point descriptor is malformed: its four doublewords, and the bounds of its stub. -/
def badSafePoint (c : Context) (wa : Word) (ws : List Nat) : Bool :=
  let w0 := ws.getD 0 0
  let w1 := ws.getD 1 0
  let kinds := ws.getD 2 0
  let w3 := ws.getD 3 0
  let off := w3 % 2 ^ 32
  w0 % 2 == 1 || w1 % 2 == 1 || w1 / 2 ^ 8 != 0 || w3 / 2 ^ 32 != 0 ||
  (List.range 32).any (fun n => !nbit w0 n && kinds / 2 ^ (2 * n) % 4 != 0) ||
  (off != 0 && (off % 4 != 0 || !c.holdsCode (wa + sextTo64 32 off) 4))

/-- `SAFEPT`: its faults in the order of R429, then `SPD` := 0, and the slot stops to be saved if its context is
pre-empting and it runs no trap handler (R56, R408). -/
def execSafept (o : BitVec 19) (s : State) : Out :=
  let a := target19 s.hot.wa o
  let c := s.getCtx s.hot.ctx
  repOpen (.safept o) s
    (if s.hot.q.toList.any (fun l => !l.isEmpty) || !s.hot.taken.isEmpty then .next (s.raise .repMisuse 6 (s.wordVal (.safept o)))
     else if !c.holdsCode a 32 then .next (s.raise .bounds 0 a)
     else if a.bits 0 3 ≠ 0 then .next (s.raise .illegal 8 a)
     else
       match s.fetchWords a 4 with
       | (s, .error (.raise k d)) => .next (s.raise k d a)
       | (s, .error .dead) => s.tableDead
       | (s, .error .wait) => .next s.stall
       | (s, .ok ws) =>
         if badSafePoint c s.hot.wa ws then .next (s.raise .illegal 8 a)
         else
           let s := { s with hot := { s.hot with spd := 0 } }.retire
           if s.preempting s.core s.hot.ctx s.hot.lcore && !trapHnd s.hot then
             .next ({ s with hot := { s.hot with
               phase := .saving a (ws.getD 0 0 % 2 ^ 32) (ws.getD 0 0 / 2 ^ 32) (ws.getD 1 0 % 2 ^ 8) } }.post (.safePointSave s.hotId))
           else .next s)

/-! ## REP, QCNT (R265 to R267, R433) -/

/-- `REP`: k passes of the next n V words. -/
def execRep (t u v x : Bool) (a : GReg) (st : Fin 4) (k : BitVec 8) (n : Fin 8) (s : State) : Out :=
  if s.hot.repCapturing then .next (s.raise .repMisuse 1 (s.wordVal (.rep t u v x a st k n)))
  else
    let passes := if k ≠ 0 then k.toNat + 1 else if a = 0 then 1 else (s.g a).toNat
    if 256 < passes then .next (s.raise .repMisuse 5 (s.g a))
    else if s.hot.rep.isSome then .next s.stall
    else
      let r : Rep := {
        todo := n.val + 1, captured := [], k := passes, stride := 2 ^ st.val
        stagger := x.toNat + 2 * v.toNat + 4 * u.toNat + 8 * t.toNat
        n := n.val + 1, te := s.hot.te != 0, pass := 1, index := 0, last := 0 }
      .next { s with hot := { s.hot with rep := some r } }.retire

/-- `QCNT`. -/
def execQcnt (d : GReg) (q : QReg) (s : State) : Out := .next (s.writeG d (word (s.hot.getQ q).length)).retire

end Sys2Proof.Machine
end

