-- ==== Sys2Proof/Machine/Arrival.lean ====
section
/-!
DEFINITION. Messages at a core: acceptance, spilling and redelivery (R42, R45 to R48, R460, R463, R464), block messages
(R321), dispatch (R35, R43, R49, R58, R333, R334, R461), acknowledgements (R50, R289), and task control (R294, R339).
-/
namespace Sys2Proof.Machine

/-! ## Spill queues (R46) -/

/-- A spill descriptor. -/
structure SpillDesc where
  ring : Word
  head : Nat
  tail : Nat
  cap : Nat
deriving DecidableEq, Repr

/-- The address of a descriptor. -/
def State.descAddr (s : State) (c l : Nat) : Word := (s.getCtx c).spillbase + word (32 * l)

/-- The descriptor of a logical core; none if it cannot be read or breaks R46 (R464). -/
def State.spillDesc (s : State) (c l : Nat) : Option SpillDesc :=
  match s.tableRead c (s.descAddr c l) 32 with
  | none => none
  | some x =>
    let d : SpillDesc := ⟨word x, x / 2 ^ 64 % 2 ^ 32, x / 2 ^ 96 % 2 ^ 32, x / 2 ^ 128 % 2 ^ 8⟩
    if d.ring.bits 0 7 ≠ 0 ∨ d.cap < 6 ∨ 16 < d.cap ∨ x / 2 ^ 136 ≠ 0 then none else some d

/-- What a read of a descriptor leaves behind (R494). -/
def State.descTouch (s : State) (c l : Nat) : State := s.tableTouch c (s.descAddr c l) 32

/-- Entries in a ring. -/
def SpillDesc.used (d : SpillDesc) : Nat := (d.tail + 2 ^ 32 - d.head) % 2 ^ 32
/-- Full for appends at the tail: the last 64 entries are the reserve (R46, R463). -/
def SpillDesc.full (d : SpillDesc) : Bool := decide (2 ^ d.cap - 64 ≤ d.used)
/-- The address of entry `i`. -/
def SpillDesc.entry (d : SpillDesc) (i : Nat) : Word := d.ring + word (128 * (i % 2 ^ d.cap))

/-- The doublewords of a message as bytes. -/
def msgBytes (m : Msg) : List Byte := (m.handler :: m.metaWord :: m.payload).flatMap fun w => leBytes w.toNat 8

/-- A message as a ring entry of 128 bytes. -/
def msgEntry (m : Msg) : List Byte := (msgBytes m ++ List.replicate 128 0).take 128

/-- The message that a ring entry holds. -/
def entryMsg (x : Nat) : Msg :=
  let w : Word := word (x / 2 ^ 64)
  ⟨word x, w, (List.range (w.bits 44 4)).map fun j => word (x / 2 ^ (64 * (j + 2)))⟩

/-- Writes an entry at an index, with HEAD or TAIL (R46); none if an access fails. What belongs to the entry stays beside
the ring (log 12). -/
def State.spillWrite (s : State) (c field value : Nat) (d : SpillDesc) (m : Msg) (y : Spilled) : Option State :=
  match s.tableWrite c (d.entry y.index) (msgEntry m) with
  | none => none
  | some s => match s.tableWrite c (s.descAddr c y.lcore + word field) (leBytes value 4) with
    | none => none
    | some s =>
      let x := s.getCtx c
      some (s.setCtx c { x with
        spilled := y :: x.spilled.filter fun z => !(z.lcore == y.lcore && z.index == y.index) })

/-- Appends a message that a core accepts now at the tail (R45). -/
def State.spillTail (s : State) (core c l : Nat) (d : SpillDesc) (m : Msg) (id : Nat) (range : Option (Nat × Nat × Nat × Nat)) :
    Option State :=
  s.spillWrite c 12 ((d.tail + 1) % 2 ^ 32) d m
    ⟨l, d.tail, id, false, range, core, (s.cycleOf core).toNat, msgPrio m⟩

/-- Writes an entry of a core's arrival queue before the head (R55, R471). -/
def State.spillHead (s : State) (core c l : Nat) (d : SpillDesc) (e : ArrEntry) : Option State :=
  let h := (d.head + 2 ^ 32 - 1) % 2 ^ 32
  s.spillWrite c 8 h d e.msg ⟨l, h, e.taskId, false, e.range, core, e.since, e.prio⟩

/-- Arrival-queue entries of a core go before the head of their own spill queues, in queue order (R55, R471). -/
def State.spillBack (s : State) (core : Nat) (es : List ArrEntry) : State :=
  es.reverse.foldl (fun s e =>
    let c := msgCtx e.msg
    let l := msgDst e.msg
    if !(s.getCtx c).live then s
    else match s.spillDesc c l with
      | none => s.tableFailure (s.corePlace core) c
      | some d => ((s.descTouch c l).spillHead core c l d e).getD (s.tableFailure (s.corePlace core) c)) s

/-! ## Acceptance (R42, R45, R460) -/

/-- Whether R39 allows a PLEN for a type. -/
def plenAllowed (type plen : Nat) : Bool :=
  match type with
  | 0 | 2 | 5 => decide (plen ≤ 14)
  | 1 => plen == 8
  | 3 => plen == 0
  | 4 => plen == 1
  | 6 => decide (3 ≤ plen) && decide (plen ≤ 6)
  | _ => false

/-- A malformed message: non-zero FLAGS, a reserved TYPE, or a PLEN that its type does not allow (R460). -/
def malformed (m : Msg) : Bool := msgFlags m != 0 || !plenAllowed (msgType m) (msgPlen m)

/-- A malformed message is discarded by a core, counted and logged. -/
def State.discardMalformed (s : State) (core : Nat) (m : Msg) : State :=
  (s.dropped (dieOfCore core) (msgCtx m)).logRecord (dieOfCore core)
    ⟨2, 1, 1, 0, some (msgCtx m), none, s.corePlace core, core⟩

/-- A task id: the logical core and its acceptance counter (R42). -/
def State.newTaskId (s : State) (c l : Nat) : State × Nat :=
  let x := s.getCtx c
  let n := tabGet 0 x.accept l
  (s.setCtx c { x with accept := tabSet x.accept l ((n + 1) % 65536) }, l % 65536 * 65536 + n)

/-- Capacity of an arrival queue. -/
def arrivalDepth : Nat := 64

/-- An entry enters the arrival queue of a core. -/
def State.enqueueAs (s : State) (core : Nat) (e : ArrEntry) : State :=
  let c := s.getCore core
  s.setCore core { c with arrival := c.arrival ++ [e] }

/-- A message that a core accepts now enters its arrival queue. -/
def State.enqueue (s : State) (core : Nat) (m : Msg) (id : Nat) (range : Option (Nat × Nat × Nat × Nat)) : State :=
  s.enqueueAs core ⟨m, id, msgPrio m, (s.cycleOf core).toNat, range, none, false⟩

/-- Whether a core holds a logical core (R61); none if the table cannot be read. -/
def State.holds (s : State) (core c l : Nat) : Option Bool :=
  match s.ctLookup core c l with
  | .unreadable => none
  | .unmapped => some false
  | .entry _ e => some (e.pkg == s.pkg && coreKey e.die e.pcore == core)

/-- What became of an arriving message. -/
inductive Acceptance where
  | taken (taskId : Nat)
  /-- Discarded: no sender is told (R460). -/
  | gone
  /-- Refused with a back-off hint (R463). -/
  | refused
deriving DecidableEq, Repr

/-- What the reads of an acceptance leave behind: those of the spill descriptor and of the core table (R494). -/
def State.acceptReads (s : State) (core c l : Nat) : State := (s.descTouch c l).ctMiss core c l

/-- R45 for a message of type 0, 1 or 2: the arrival queue, or the tail of the spill queue. -/
def State.accept (s : State) (core : Nat) (m : Msg) (range : Option (Nat × Nat × Nat × Nat)) : State × Acceptance :=
  let c := msgCtx m
  let l := msgDst m
  if malformed m then (s.discardMalformed core m, .gone)
  else if !(s.getCtx c).live then (s.dropped (dieOfCore core) c, .gone)
  else match s.spillDesc c l, s.holds core c l with
    | some d, some held =>
      let s := s.acceptReads core c l
      if d.used = 0 ∧ held ∧ !s.marked core c l ∧ !(s.getCore core).isolated ∧ (s.getCore core).arrival.length < arrivalDepth then
        let (s, id) := s.newTaskId c l
        (s.enqueue core m id range, .taken id)
      else if d.full then (s, .refused)
      else
        let (s, id) := s.newTaskId c l
        match s.spillTail core c l d m id range with
        | some s => (s, .taken id)
        | none => ((s.tableFailure (s.corePlace core) c).dropped (dieOfCore core) c, .gone)
    | _, _ => ((s.tableFailure (s.corePlace core) c).dropped (dieOfCore core) c, .gone)

/-- Whether two messages are from one source to one logical core of one context (R48). -/
def sameFlow (a b : Msg) : Bool := msgCtx a == msgCtx b && msgSrc a == msgSrc b && msgDst a == msgDst b

/-- A message of its flow waits in front of it for its retry, at whatever core (R48); a dispensed task keeps no such order
(R332). -/
def State.flowHeld (s : State) (m : Msg) (range : Option (Nat × Nat × Nat × Nat)) : Bool :=
  range.isNone && s.backoff.any fun r => match r with | .message _ n _ q => q.isNone && sameFlow m n | _ => false

/-- One more, or one fewer, of a slot's messages is being retried: of this activation of it or of an earlier one (R463). -/
def State.retryCount (s : State) (c : Creator) (up : Bool) : State :=
  match c with
  | .send k _ | .slot k _ _ _ | .migr k =>
    let x := s.getSlot k
    s.setSlot k { x with retrying := if up then x.retrying + 1 else x.retrying - 1 }
  | _ => s

/-- Slots of a context in `WFM` on a core wake for an event that has come true now, of a code (R210). -/
def State.wakeWfm (s : State) (core c code : Nat) : State :=
  (List.range 4).foldl (fun s i =>
    let k := slotKey core i
    let x := s.getSlot k
    match x.phase with
    | .wfm .. => if x.active ∧ x.ctx = c then s.post (.wfmWake k (some (code, x.gen, x.retired))) else s
    | _ => s) s

/-- After an acceptance: the creator is told, and the core goes on (R42, R50). A message spilled for a logical core that another
core holds wakes nothing here (R210). -/
def State.accepted (s : State) (core c : Nat) (creator : Creator) (id : Nat) : State :=
  let s := match creator with
    | .none | .send .. => s
    | _ => s.post (.acknowledgement creator id false)
  let s := if s.messageWaits core c then s.wakeWfm core c 1 else s
  ((s.post (.dispatch core)).post (.redelivery core))

/-- The first refusal by a spill queue in each 1 ms is logged by the core whose interface refused (R463). -/
def State.logRefusal (s : State) (core c l : Nat) : State :=
  let x := s.getCtx c
  let window := s.time.toNat / 1000000 + 1
  if tabGet 0 x.refusedAt l = window then s
  else (s.setCtx c { x with refusedAt := tabSet x.refusedAt l window }).logRecord (dieOfCore core)
    ⟨2, 0, 4, 2, some c, none, s.corePlace core, l⟩

/-- No task comes of a discarded message: the launch agent stops waiting for it. -/
def State.discarded (s : State) (creator : Creator) : State :=
  match creator with | .agent _ => s.post (.acknowledgement creator 0 false) | _ => s

/-- A message of type 0, 1 or 2 at a core. -/
def State.arrive (s : State) (core : Nat) (m : Msg) (creator : Creator) (range : Option (Nat × Nat × Nat × Nat)) : State :=
  if s.flowHeld m range then ({ s with backoff := s.backoff ++ [Resend.message core m creator range] }).retryCount creator true
  else match s.accept core m range with
    | (s, .taken id) => s.accepted core (msgCtx m) creator id
    | (s, .gone) => s.discarded creator
    | (s, .refused) =>
      (({ s with backoff := s.backoff ++ [Resend.message core m creator range] }).retryCount creator true).logRefusal
        core (msgCtx m) (msgDst m)

/-! ## Messages that are never spilled (R45, R59, R411, R415) -/

/-- A fault report whose supervisor context is dead on arrival makes the faulting context dead (R415). -/
def State.reportLost (s : State) (core : Nat) (m : Msg) : State :=
  let s := s.dropped (dieOfCore core) (msgCtx m)
  if msgType m = 5 then
    let p := m.payload.headD 0
    s.containmentKill (s.corePlace core) (p.bits 16 8) 0 (p.bits 0 8)
  else s

/-- A well-formed message for a live context that its endpoint refuses now: its queue is full, the core is isolated, or the
supervisor context is under pre-emption there. -/
def State.reportRefused (s : State) (core : Nat) (m : Msg) : Bool :=
  let x := s.getCore core
  !malformed m && (s.getCtx (msgCtx m)).live &&
  (decide (arrivalDepth ≤ x.arrival.length) || x.isolated || x.marks.any fun k => k.ctx == msgCtx m)

/-- A fault report or a pre-emption completion enters the arrival queue of its endpoint, or is discarded. -/
def State.reportTaken (s : State) (core : Nat) (m : Msg) : State :=
  let c := msgCtx m
  if malformed m then s.discardMalformed core m
  else if !(s.getCtx c).live then s.reportLost core m
  else
    let (s, id) := s.newTaskId c (msgDst m)
    (s.enqueue core m id none).accepted core c .none id

/-- A fault report or a pre-emption completion at the endpoint: taken, or refused with a back-off hint. -/
def State.reportArrival (s : State) (core : Nat) (m : Msg) : State :=
  if s.reportRefused core m || s.flowHeld m none then { s with backoff := s.backoff ++ [Resend.message core m .none none] }
  else s.reportTaken core m

def execFaultReportArrival (s : State) : Out :=
  match s.agenda with
  | .faultReportArrival core _ m :: t => .next ({ s with agenda := t }.reportArrival core m)
  | _ => .next s

/-- Whether a message is one of those: a fault report, or a completion with no logical core. -/
def neverSpilled (m : Msg) : Bool := msgType m == 5 || (msgType m == 2 && msgDst m == 0xFFFF)

/-! ## TASK_MESSAGE_ARRIVAL, BLOCK_MESSAGE (R45, R321) -/

/-- The remote-atomic message that a TYPE 6 message is (R281): its sender's slot, if in this package, and the ship tag of a
128-bit atomic that a Piccolo shipped. -/
def atomOfMsg (pkg : Nat) (m : Msg) : AtomMsg :=
  let p := fun i => m.payload.getD i 0
  let w := p 0
  let slot := slotKey (coreKey (w.bits 45 5) (w.bits 32 8)) (w.bits 40 2)
  let shipped : Bool := w.bits 32 8 < 128 && match decodeWord (w.bits 0 32) with | .ok (.cas2 ..) | .ok (.swp2 ..) => true | _ => false
  ⟨if w.bits 50 6 = pkg then slot else 2 ^ 32 + slot, 0, 0, if shipped then some (Fin.ofNat 8 (w.bits 42 3)) else none,
    w.bits 0 32, (p 1).toNat,
    (p 2).toNat + (p 3).toNat * 2 ^ 64, (p 4).toNat + (p 5).toNat * 2 ^ 64⟩

/-- A message at a core, by its type: types 3, 4 and 6 bypass the queues (R39). -/
def State.messageAtCore (s : State) (core : Nat) (m : Msg) (creator : Creator) : State :=
  if malformed m then s.discardMalformed core m
  else if msgType m = 3 then s.post (.preEmptMessage core m false)
  else if msgType m = 4 then s.post (.resumeMessage core m false)
  else if msgType m = 6 then
    (if (s.getCtx (msgCtx m)).live then s.post (.remoteAtomicMessage (atomOfMsg s.pkg m)) else s.dropped (dieOfCore core) (msgCtx m))
  else if neverSpilled m then s.reportArrival core m
  else s.arrive core m creator none

def execTaskMessageArrival (s : State) : Out :=
  match s.agenda with
  | .taskMessageArrival core _ m creator :: t => .next ({ s with agenda := t }.messageAtCore core m creator)
  | _ => .next s

/-- Where a message that has crossed the link of a side goes. The register as it stands now makes one of TYPE 0 for its
context and `ELC` a block message: the queue sets DST by the block index, and acceptance is at that Piccolo core of the edge
quad (R14, R321). Every other message crosses unchanged. -/
def State.blockDest (s : State) (die : Nat) (side : Fin 4) (core : Nat) (m : Msg) : Nat × Msg :=
  let r := (s.getDie die).gateway[side.val]
  if hasNeighbour die side && r.bit 63 && msgType m == 0 && r.bits 32 8 == msgCtx m && r.bits 0 16 == msgDst m then
    let i := (m.payload.headD 0).bits 0 2
    (coreKey die (edgeQuad side * 4 + i), msgTo m (r.bits 0 16 + i))
  else (core, m)

/-- BLOCK_MESSAGE: a message that has crossed the link of a side. -/
def State.blockArrival (s : State) (die : Nat) (side : Fin 4) (core : Nat) (m : Msg) (creator : Creator) : State :=
  s.messageAtCore (s.blockDest die side core m).1 (s.blockDest die side core m).2 creator

def execBlockMessage (s : State) : Out :=
  match s.agenda with
  | .blockMessage die side core m creator :: t => .next ({ s with agenda := t }.blockArrival die side core m creator)
  | _ => .next s

/-! ## REDELIVERY (R47) -/

/-- The next of a rising list after the one served last. -/
def nextAfter (l : List Nat) (last : Option Nat) : Option Nat :=
  match last with
  | some x => match l.find? fun y => decide (x < y) with | some y => some y | none => l.head?
  | none => l.head?

/-- A context with spilled messages whose core table, or the descriptor of one of them for a logical core that this core holds,
cannot be read as the core looks for what to redeliver (R464). A context of which nothing is spilled is not looked at. DEDUCED
(log 85), safe. -/
def State.unservable (s : State) (core c : Nat) : Bool :=
  let x := s.getCtx c
  x.live && !x.spilled.isEmpty &&
  ((s.tableRead c x.coretab 4).isNone || x.spilled.any fun y =>
    match s.holds core c y.lcore with | none => true | some h => h && (s.spillDesc c y.lcore).isNone)

/-- Such contexts are made dead. -/
def State.dropUnservable (s : State) (core : Nat) : State :=
  ((s.ctxs.map (·.1)).filter (s.unservable core)).foldl (fun s c => s.tableFailure (s.corePlace core) c) s

/-- What the search of a context's tables for spill queues to serve leaves behind (R494). -/
def State.serveTouch (s : State) (core c : Nat) : State :=
  (List.range (s.tableCores c)).foldl (fun s l =>
    let t := s.ctMiss core c l
    if s.holds core c l == some true then t.descTouch c l else t) (s.tableTouch c (s.getCtx c).coretab 4)

/-- The logical cores of a context whose spill queues a core serves. -/
def State.servedCores (s : State) (core c : Nat) : List Nat :=
  (List.range (s.tableCores c)).filter fun l =>
    s.holds core c l == some true && !s.marked core c l &&
    (match s.tableRead c (s.descAddr c l + 8) 4, s.tableRead c (s.descAddr c l + 12) 4 with
     | some h, some t => h != t
     | _, _ => false)

/-- The contexts that have such a spill queue. -/
def State.servedContexts (s : State) (core : Nat) : List Nat :=
  (s.ctxs.map (·.1)).filter fun c => (s.getCtx c).live && !(s.servedCores core c).isEmpty

/-- The head entry of a spill queue moves to the arrival queue; a void one is discarded, uncounted (R294). An entry that
software wrote is accepted now. -/
def State.popSpill (s : State) (core c l : Nat) : State :=
  match s.spillDesc c l with
  | none => s.tableFailure (s.corePlace core) c
  | some d =>
    match (s.descTouch c l).tableAccess c (d.entry d.head) 128 with
    | (s, none) => s.tableFailure (s.corePlace core) c
    | (s, some x) =>
      match s.tableWrite c (s.descAddr c l + 8) (leBytes ((d.head + 1) % 2 ^ 32) 4) with
      | none => s.tableFailure (s.corePlace core) c
      | some s =>
        let k := s.getCtx c
        let side := k.spilled.find? fun y => y.lcore == l && y.index == d.head
        let s := s.setCtx c { k with spilled := k.spilled.filter fun y => !(y.lcore == l && y.index == d.head) }
        match side with
        | some y =>
          if y.void then s
          else
            let since := s.cycleOf core - (s.cycleOf y.core - word y.since)
            s.enqueueAs core ⟨entryMsg x, y.taskId, y.prio, since.toNat, y.range, none, false⟩
        | none => let (s, id) := s.newTaskId c l; s.enqueue core (entryMsg x) id none

/-- One turn of the round-robin over contexts and, within one, over logical cores; none if every queue is empty. -/
def State.redeliverOne (s : State) (core : Nat) : Option State :=
  let x := s.getCore core
  match nextAfter (s.servedContexts core) x.rrCtx with
  | none => none
  | some c =>
    let last := if tabHas x.rrLc c then some (tabGet 0 x.rrLc c) else none
    match nextAfter (s.servedCores core c) last with
    | none => none
    | some l =>
      let s := (s.setCore core { x with rrCtx := some c, rrLc := tabSet x.rrLc c l }).serveTouch core c
      some ((s.popSpill core c l).wakeWfm core c 1)

/-- Turns that a redelivery can take: each fills a place, discards a void entry, or makes a context dead, which may empty
places again. -/
def State.redeliveryTurns (s : State) : Nat :=
  (arrivalDepth + (s.ctxs.map fun (x : Nat × Context) => x.2.spilled.length).sum + 1) * (s.ctxs.length + 1)

/-- Repeats until the arrival queue is full or every spill queue is empty. -/
def State.redeliver (s : State) (core : Nat) : Nat → State
  | 0 => s
  | n + 1 =>
    if arrivalDepth ≤ (s.getCore core).arrival.length then s
    else match s.redeliverOne core with
      | some s => s.redeliver core n
      | none => s

/-- REDELIVERY: at 48 entries or fewer. -/
def execRedelivery (s : State) : Out :=
  match s.agenda with
  | .redelivery core :: t =>
    let s := { s with agenda := t }
    .next (if 48 < (s.getCore core).arrival.length ∨ (s.getCore core).isolated then s
      else
        let s := s.dropUnservable core
        if s.servedContexts core = [] then s else (s.redeliver core s.redeliveryTurns).post (.dispatch core))
  | _ => .next s

/-! ## AGING_RISE (R49) -/

/-- AGING_RISE: an entry that has waited 65,536 cycles rises by one level. -/
def execAgingRise (s : State) : Out :=
  match s.agenda with
  | .agingRise core i :: t =>
    let s := { s with agenda := t }
    let c := s.getCore core
    .next (match c.arrival[i]? with
      | some e =>
        let now := s.cycleOf core
        if e.prio < 3 ∧ 65536 ≤ (now - word e.since).toNat then
          s.setCore core { c with arrival := c.arrival.set i { e with prio := e.prio + 1, since := now.toNat } }
        else s
      | none => s)
  | _ => .next s

/-! ## DISPATCH (R49, R58, R333, R334) -/

/-- Activations of a logical core on a core. -/
def State.runningCount (s : State) (core c l : Nat) : Nat :=
  ((List.range 4).filter fun i => let x := s.getSlot (slotKey core i); x.active && x.ctx == c && x.lcore == l).length

/-- An older entry of the same flow stands before this one, and neither is movable (R332, R333). -/
def heldBack (before : List ArrEntry) (e : ArrEntry) : Bool :=
  e.range.isNone && before.any fun b => b.range.isNone && sameFlow b.msg e.msg

/-- Whether an entry may be dispatched now. -/
def State.mayDispatch (s : State) (core : Nat) (before : List ArrEntry) (e : ArrEntry) : Bool :=
  let c := msgCtx e.msg
  let l := msgDst e.msg
  let x := s.getCore core
  let limit := decide (s.runningCount core c l + ((s.getCtx c).occupied.filter fun p => p / 4 == l).length < 4)
  !heldBack before e && e.moving.isNone &&
  (if neverSpilled e.msg then !x.marks.any (fun m => m.ctx == c) else !s.marked core c l && limit)

/-- The index of the entry to dispatch: the oldest of highest priority. -/
def State.choose (s : State) (core : Nat) : List ArrEntry → List ArrEntry → Nat → Option (Nat × Nat) → Option Nat
  | _, [], _, best => best.map (·.2)
  | before, e :: t, i, best =>
    let better := s.mayDispatch core before e && (match best with | some (p, _) => decide (p < e.prio) | none => true)
    s.choose core (before ++ [e]) t (i + 1) (if better then some (e.prio, i) else best)

/-- The lowest-numbered free slot of a core. -/
def State.freeSlot (s : State) (core : Nat) : Option Nat :=
  ((List.range 4).map (slotKey core)).find? fun k => !(s.getSlot k).active

/-- Raw address of the area of a slot (R34). -/
def slotArea (k : Nat) : Nat :=
  shareBase (dieOfSlot k) (pcoreOf (coreOfSlot k)) + 0x30000 + k % 4 * 0x4000

/-- Zeroes the area of a slot that ran another context last (R35). -/
def State.zeroArea (s : State) (k c : Nat) : State :=
  if (s.getSlot k).lastCtx = some c then s
  else
    let a := slotArea k
    { s with
      mem := s.mem.filter fun (x : Host.Cell) => !(decide (a ≤ x.1) && decide (x.1 < a + 0x4000))
      poison := s.poison.filter fun w => !(decide (a ≤ 8 * w) && decide (8 * w < a + 0x4000)) }

/-- A slot at the start of an activation (R43, R177, R408): the undefined registers are free values. -/
def Slot.start (x : Slot) (n c l id prio : Nat) (supervisor : Bool) (pc : Word) : Slot :=
  { x with
    active := true, ctx := c, lcore := l, taskId := id, prio := prio, supervisor := supervisor
    g := Vector.ofFn fun (r : Fin 32) => if r = 0 then 0 else Config.freeWord (n + r.val)
    v := Vector.ofFn fun (r : Fin 32) => Config.freeVec (n + r.val)
    m := Vector.ofFn fun (r : Fin 8) => Config.freeWord (n + 32 + r.val)
    q := Vector.replicate 4 []
    pc := pc, wa := pc, tpc := pc, nxt := pc, aOnly := false, did := .done
    seq := 0, fcsr := 0, contrib := 0, spd := 0, splim := 4096, slim := 16, retired := 0
    xset := Vector.replicate 8 0, xid := 0, trapvec := 0, trapcause := 0, trapval := 0, trappc := 0, tctx := c
    tokens := Vector.replicate 8 none, window := Vector.replicate 8 none, history := [], held := [], heldTrap := none
    vq := [], vrun := none, rep := none, busy := [], creations := 0, ownCreations := 0, updates := [], matrix := [], wait := none
    refusal := none, taken := [], phase := .running, stub := none, claiming := none }

/-- Free values that a start uses. -/
def startValues : Nat := 40

/-- The gang rank of a destination (R43). -/
def gangRank (l : Nat) : CtLookup → Nat
  | .entry _ e => if e.gfirst = 0xFFFF then l else (l + 2 ^ 16 - e.gfirst) % 2 ^ 16
  | _ => l

/-- The transfer id that a BTE's completion message carries (R303). -/
def msgXid (m : Msg) : Word :=
  if msgType m = 2 ∧ msgDst m ≠ 0xFFFF ∧ 2 ≤ msgPlen m ∧ !(m.payload.getD 1 0).bit 32 then word ((m.payload.getD 1 0).bits 48 16)
  else 0

/-- The registers that a message gives its activation (R43). -/
def Slot.receive (x : Slot) (m : Msg) (runtime : Word) (rank : Nat) : Slot :=
  let l := msgDst m
  let low : List Word := [0, runtime, word (0x00F0000000000000 + l * 0x40000 + 0x34000), word (0x00F0000000000000 + l * 0x40000 + 0x30000),
    word (msgSrc m), word (msgPlen m), word x.taskId, word rank] ++ (m.payload ++ List.replicate 8 0).take 8
  { x with
    g := Vector.ofFn fun (r : Fin 32) => if r.val < 16 then low.getD r.val 0 else x.g[r.val]
    xid := msgXid m }

/-- A new activation in a slot. -/
def State.startTask (s : State) (core k : Nat) (e : ArrEntry) : State :=
  let c := msgCtx e.msg
  let l := msgDst e.msg
  let s := s.zeroArea k c
  let s := { s with mem := memWrite s.mem (slotArea k) (msgBytes e.msg) }.unpoison [(slotArea k, (msgBytes e.msg).length)]
  match (if l = 0xFFFF then CtLookup.unmapped else s.ctLookup core c l) with
  | .unreadable => s.tableFailure (s.corePlace core) c
  | look =>
    let s := if l = 0xFFFF then s else s.ctMiss core c l
    let y := (s.getSlot k).start s.freeCtr c l e.taskId e.prio (s.isSupervisor c) e.msg.handler
    { s with freeCtr := s.freeCtr + startValues }.setSlot k (y.receive e.msg (s.getCtx c).runtime (gangRank l look))

/-- A message whose handler fails R40 counts as dispatched and is reported (R461); a fault report so makes the faulting
context dead (R415). -/
def State.badHandler (s : State) (core : Nat) (e : ArrEntry) : State :=
  let die := dieOfCore core
  let c := msgCtx e.msg
  if msgType e.msg = 5 then
    let p := e.msg.payload.headD 0
    s.containmentKill (s.corePlace core) (p.bits 16 8) 0 (p.bits 0 8)
  else
    let before := s.lastRecord die
    let s := s.logRecord die ⟨2, 1, 2, 3, some c, some (e.msg.handler.toNat, false), s.corePlace core, e.msg.handler.toNat⟩
    let seq := if s.lastRecord die = before then 0 else s.lastRecord die
    s.sendReport (s.corePlace core) ⟨Cause.bounds.code, false, c, none, msgDst e.msg, e.msg.handler, e.msg.handler, e.taskId, 0,
      s.slotIdOf (slotKey core 0), seq⟩

/-- DISPATCH of one entry into a free slot, after any resumption that waits (R334); tried again while entries go. -/
def State.dispatchOne (s : State) (core : Nat) : State :=
  let x := s.getCore core
  if x.isolated then s
  else if x.resuming.any fun r => r.2.2.1 != 0 then (if s.agenda.contains (.resumption core) then s else s.post (.resumption core))
  else match s.freeSlot core, s.choose core [] x.arrival 0 none with
    | some k, some i =>
      match x.arrival[i]? with
      | some e =>
        let s := s.setCore core { x with arrival := x.arrival.eraseIdx i }
        let s :=
          if (s.getCtx (msgCtx e.msg)).acceptsHandler e.msg.handler then s.startTask core k e else s.badHandler core e
        (s.post (.dispatch core)).post (.redelivery core)
      | none => s
    | _, _ => s

def execDispatch (s : State) : Out :=
  match s.agenda with
  | .dispatch core :: t => .next ({ s with agenda := t }.dispatchOne core)
  | _ => .next s

/-! ## ACKNOWLEDGEMENT (R50, R289, R328) -/

/-- The register that waited for a reply receives it: it was written at issue in program order. -/
def Slot.reply (x : Slot) (rd : GReg) (f : BusyFor) (w : Word) : Slot :=
  if x.busy.contains (rd, f) then { x.setG rd w with busy := x.busy.erase (rd, f) } else x

/-- ACKNOWLEDGEMENT: rd receives the task id and one creation fewer is outstanding; one for an ended activation is
discarded. The launch agent counts it. Another package acknowledges only what has left for it. -/
def State.acknowledge (s : State) (creator : Creator) (id : Nat) : State :=
  match creator with
  | .slot k gen rd counted =>
    let x := s.getSlot k
    if x.gen = gen then
      (s.setSlot k { x.reply rd .task (word id) with
        creations := if counted then x.creations - 1 else x.creations
        ownCreations := if counted then x.ownCreations else x.ownCreations - 1 }).poke k
    else s
  | .agent c =>
    let ls := s.package.launches.map fun l => if l.ctx = c then { l with due := l.due - 1 } else l
    let s := { s with package := { s.package with launches := ls } }
    if ls.any fun l => l.ctx == c && l.due == 0 then s.post (.launchRecordComplete c) else s
  | _ => s

def execAcknowledgement (s : State) : Out :=
  match s.agenda with
  | .acknowledgement creator id outside :: t =>
    let s := { s with agenda := t }
    .next (if outside then
        (if s.package.owed.contains creator then
          { s with package := { s.package with owed := s.package.owed.erase creator } }.acknowledge creator id
        else s)
      else s.acknowledge creator id)
  | _ => .next s

/-! ## TASK_CONTROL_REQUEST (R294, R339, R340) -/

/-- Cycles for which a forwarding entry stands. -/
def forwardLife : Nat := 2 ^ 20

/-- The entries of a core's forwarding table that have not expired (R339). -/
def State.forwarded (s : State) (core : Nat) : List (Nat × Nat × Nat × Nat) :=
  (s.getCore core).fwd.filter fun f => decide ((s.cycleOf core - word f.2.2.2).toNat < forwardLife)

/-- The answer of the core that a request reaches, from its arrival queue, the spill queues of the logical cores that it holds
and its forwarding table: the state after it and the value, or the core to which it is
forwarded. -/
def State.taskControl (s : State) (core c id : Nat) (query : Bool) : State × (Nat ⊕ Nat) :=
  let x := s.getCore core
  let occupancy := x.arrival.length * 2 ^ 8
  let mine := fun (e : ArrEntry) => msgCtx e.msg == c && e.taskId == id && decide (msgType e.msg < 3)
  let k := s.getCtx c
  let mineSpilled := fun (y : Spilled) => y.taskId == id && !y.void && s.holds core c y.lcore == some true
  match x.arrival.findIdx? mine with
  | some i =>
    if query then (s, .inl occupancy) else (s.setCore core { x with arrival := x.arrival.eraseIdx i }, .inl 0)
  | none =>
    if k.spilled.any mineSpilled then
      if query then (s, .inl (occupancy + 1))
      else
        let rows := k.spilled.map fun y => if mineSpilled y then { y with void := true } else y
        (s.setCtx c { k with spilled := rows }, .inl 0)
    else match (s.forwarded core).find? fun f => f.1 == c && f.2.1 == id with
      | some (_, _, there, _) => (s, .inr there)
      | none => (s, .inl (if query then occupancy + 2 else 1))

/-- Whether a search of the spill queues for a task meets an entry of the core table that cannot be read (R464). -/
def State.controlBroken (s : State) (core c id : Nat) : Bool :=
  (s.getCtx c).spilled.any fun y => y.taskId == id && !y.void && s.holds core c y.lcore == none

/-- What such a search leaves behind (R494). -/
def State.controlTouch (s : State) (core c id : Nat) : State :=
  ((s.getCtx c).spilled.filter fun y => y.taskId == id && !y.void).foldl (fun s y => s.ctMiss core c y.lcore) s

/-- TASK_CONTROL_REQUEST: answered at the core, or forwarded by its forwarding table. -/
def execTaskControlRequest (s : State) : Out :=
  match s.agenda with
  | .taskControlRequest core k gen rd c id query :: t =>
    let s := { s with agenda := t }
    if s.controlBroken core c id then .next (s.tableFailure (s.corePlace core) c)
    else
    .next (match (s.controlTouch core c id).taskControl core c id query with
      | (s, .inr there) => if there = core then s else s.post (.taskControlRequest there k gen rd c id query)
      | (s, .inl w) =>
        let s := if query then s else s.post (.redelivery core)
        let x := s.getSlot k
        if x.gen = gen then (s.setSlot k (x.reply rd .control (word w))).poke k else s)
  | _ => .next s

end Sys2Proof.Machine
end

