-- ==== Sys2Proof/Machine/Atomic.lean ====
section
/-!
DEFINITION. Atomic words, reductions and accumulator words (R279 to R285), and the arithmetic that the home slices, the
Bassoons and the atomic sequencers share (R144, R281).
-/
namespace Sys2Proof.Machine

/-! ## The arithmetic -/

/-- The least or greatest of two n-byte values, signed or unsigned (R279). -/
def amoPick (signed max : Bool) (n old b : Nat) : Nat :=
  let less := if signed then decide (readInt true (8 * n) old < readInt true (8 * n) b) else decide (old < b)
  if max then (if less then b else old) else (if less || old == b then old else b)

/-- Bytes that an atomic word accesses. -/
def atomicSize : Instr → Nat
  | .amoaddW .. | .amoandW .. | .amoorW .. | .amoxorW .. | .amominW .. | .amomaxW .. | .amominnW .. | .amomaxnW ..
  | .amoswpW .. | .amocasW .. | .redFaddS .. | .redIaddW .. => 4
  | .cas2 .. | .swp2 .. => 16
  | _ => 8

/-- The value an atomic word writes over `old`, with operand `b` and comparand `e`; none where a compare fails
(R279, R281, R282). -/
def atomicFn (i : Instr) (b e old : Nat) : Option Nat :=
  match i with
  | .amoaddW .. => some ((old + b) % 2 ^ 32)
  | .amoaddD .. => some ((old + b) % 2 ^ 64)
  | .amoandW .. | .amoandD .. => some (old &&& b)
  | .amoorW .. | .amoorD .. => some (old ||| b)
  | .amoxorW .. | .amoxorD .. => some (old ^^^ b)
  | .amominW .. => some (amoPick true false 4 old b)
  | .amominD .. => some (amoPick true false 8 old b)
  | .amomaxW .. => some (amoPick true true 4 old b)
  | .amomaxD .. => some (amoPick true true 8 old b)
  | .amominnW .. => some (amoPick false false 4 old b)
  | .amominnD .. => some (amoPick false false 8 old b)
  | .amomaxnW .. => some (amoPick false true 4 old b)
  | .amomaxnD .. => some (amoPick false true 8 old b)
  | .amocasW .. | .amocasD .. | .cas2 .. => if old = e then some b else none
  | .redFaddS .. => some (accAdd .fp32 old b)
  | .redFaddD .. => some (accAdd .fp64 old b)
  | .redIaddW .. => some (accAdd .i32 old b)
  | .redIaddD .. => some (accAdd .i64 old b)
  | _ => some b

/-- Whether an atomic can perform at its home at once: no cache has a copy of a line that hardware keeps consistent (R144,
R156), and no atomic to it waits there (R62). -/
def State.atomicReady (s : State) (p : Phys) : Bool :=
  !p.kind.byHardware || (s.lineFree (lineOf p.pa) && !s.atomicQueued (lineOf p.pa))

/-- Whether a core, or the L2 of its die, has a copy of a line that software keeps consistent. -/
def State.hasCopy (s : State) (core : Nat) (p : Phys) : Bool :=
  let line := lineOf p.pa
  let c := s.getCore core
  let d := s.getDie (dieOfCore core)
  tabHas c.l1c line || !(lineCells c.l1 line).isEmpty || tabHas d.l2c line || !(lineCells d.l2 line).isEmpty

/-- An atomic to a line that software keeps consistent leaves no copy in the issuing core (R144), nor an older one in its die's L2
(R124, case 1). Bytes that are still dirty there, which R280 asks software to clean first, go home before it: DESIGN CHOICE
(log 75), unsafe. -/
def State.leaveCopy (s : State) (core : Nat) (p : Phys) : State :=
  if p.kind.bySoftware && s.hasCopy core p then (s.cleanLine core p true).invalLine core p true else s

/-- A read and a write performed as one at a place of which no cache has a copy (R128, R144, R280): the new state and the
old value. The port's agent first owns an HCO line (R144, R162). -/
def State.atomicAt (s : State) (who : Writer) (p : Phys) (n : Nat) (f : Nat → Option Nat) : State × Nat :=
  let (s, bs) := (if p.kind = .hco then s.obtain (lineOf p.pa) true else s).readPlace none p n
  match f (leNat bs) with
  | none => (s, leNat bs)
  | some x => (s.writePlace none who p (leBytes x n), leNat bs)

/-- The value that a unit which received whole registers writes: operand and comparand cut to the word's bytes. -/
def atomicCut (i : Instr) (b e old : Nat) : Option Nat :=
  let m := 2 ^ (8 * atomicSize i)
  atomicFn i (b % m) (e % m) old

/-! ## Remote-atomic messages (R39, R281) -/

/-- Payload doublewords of the message of a word. -/
def atomPlen : Instr → Nat
  | .cas2 .. => 6
  | .swp2 .. => 4
  | .amocasW .. | .amocasD .. => 5
  | _ => 3

/-- The instruction word that a remote-atomic message carries: as fetched, bit 30 included. -/
def State.ownWord (s : State) (i : Instr) : Nat := (encodeWord s.hot.lone i).getD 0

/-- The TYPE 6 message of an atomic word: the word and its sender, the raw address, the operand, the comparand. What its handler
address, DST and priority hold the spec does not say: DESIGN CHOICE (log 62), unsafe. -/
def atomMsg (pkg c l : Nat) (i : Instr) (a : AtomMsg) : Msg :=
  let core := coreOfSlot a.slot
  let sender := a.iword % 2 ^ 32 + pcoreOf core * 2 ^ 32 + a.slot % 4 * 2 ^ 40 + (match a.tag with | some t => t.val | none => 0) * 2 ^ 42 +
    dieOfCore core * 2 ^ 45 + pkg * 2 ^ 50
  let raw := if a.pa < remoteBase then a.pa else (a.pa - remoteBase) % 2 ^ 48
  ⟨0, metaOf 6 (atomPlen i) 0 c l 0xFFFF,
    ([sender, raw, a.operand, a.operand / 2 ^ 64, a.comparand, a.comparand / 2 ^ 64].map word).take (atomPlen i)⟩

/-- A remote-atomic message of a context's activation sets out; one for another package leaves by a fabric port too. -/
def State.sendAtom (s : State) (c l : Nat) (i : Instr) (a : AtomMsg) : State :=
  let s := if a.pa < remoteBase then s
    else match s.route c ((a.pa - remoteBase) / 2 ^ 48) with
      | .open port => { s with package := { s.package with fabricOut := s.package.fabricOut ++ [(port, atomMsg s.pkg c l i a)] } }
      | _ => s
  s.post (.remoteAtomicMessage a)

/-- What an atomic word writes of the old value: g[rd] := sext(old, 8n), or the pair (R279, R282). -/
def Slot.atomicResult (x : Slot) (i : Instr) (old : Nat) : Slot :=
  match i with
  | .amoaddW d .. | .amoandW d .. | .amoorW d .. | .amoxorW d .. | .amominW d .. | .amomaxW d .. | .amominnW d ..
  | .amomaxnW d .. | .amoswpW d .. | .amocasW d .. => x.writeG d (sextTo64 32 old)
  | .amoaddD d .. | .amoandD d .. | .amoorD d .. | .amoxorD d .. | .amominD d .. | .amomaxD d .. | .amominnD d ..
  | .amomaxnD d .. | .amoswpD d .. | .amocasD d .. => x.writeG d (word old)
  | .cas2 d .. | .swp2 d .. => (x.writeG (GPair.lo d) (word old)).writeG (GPair.hi d) (word (old / 2 ^ 64))
  | _ => x

/-- The operation of an atomic word for the checks of rank 10: PCIe has `AMOADD`, `AMOSWP` and `AMOCAS` only (R280). -/
def atomicOp : Instr → AccOp
  | .amoaddW .. | .amoswpW .. | .amocasW .. | .amoaddD .. | .amoswpD .. | .amocasD .. => .amo true
  | .cas2 .. | .swp2 .. => .cas2
  | _ => .amo false

/-- The virtual address of a poisoned word in the 16-byte block of an address: translation keeps the low bits. -/
def poisonVa (va : Word) (wd : Nat) : Word := (va &&& ~~~(15#64)) + word (8 * wd % 16)

/-! ## Atomic words of the executing slot -/

/-- An atomic word (R279, R282) with its whole operand and comparand: checked, then, the page being the core's to use (R153),
performed at its home; where copies must first be recalled, or others wait before it, it waits its turn there (R62, R144), and
to a scratchpad it goes as a remote-atomic message (R281): the word then waits for the reply. -/
def atomicWord (i : Instr) (a : GReg) (b e : Nat) (s : State) : Out :=
  match s.hot.wait with
  | some (.old x) => .next ({ s with hot := { s.hot with wait := none }.atomicResult i x }.retire)
  | some (.poison wd) => .next ({ s with hot := { s.hot with wait := none } }.raise .poison 2 (poisonVa (s.g a) wd))
  | some _ => .next s.stall
  | none =>
    match s.checkAll s.me s.die (atomicOp i) [(0, ⟨s.g a, atomicSize i, atomicSize i, false⟩)] with
    | (s, some f, _) => .next (s.accessFault f)
    | (s, none, []) => .next s.stall
    | (s, none, (p, _) :: _) =>
      if s.hot.meetsUpdate p (atomicSize i) then .next s.stall
      else
        match p.kind with
        | .spad _ =>
          let m : AtomMsg := ⟨s.hotId, s.hot.gen, 0, none, s.ownWord i, p.pa, b, e⟩
          .next ({ s with hot := { s.hot with wait := some .sent } }.sendAtom s.hot.ctx s.hot.lcore i m).stall
        | k =>
          if k = .coh ∧ !s.pageReady p.pa s.core then
            .next (s.askFor (p, ⟨s.g a, atomicSize i, atomicSize i, false⟩) id).stall
          else if !s.atomicReady p then
            let m : AtomMsg := ⟨s.hotId, s.hot.gen, 0, none, s.ownWord i, p.pa, b, e⟩
            .next ({ s with hot := { s.hot with wait := some .sent } }.post (.atomicAtHome m false false)).stall
          else
          let (s, old) := (s.leaveCopy s.core p).atomicAt s.writer p (atomicSize i) (atomicCut i b e)
          .next { s with hot := s.hot.atomicResult i old }.retire

/-- An AMO: operand g[rs2], comparand g[rd], each cut to its bytes where it performs. -/
def amoWord (i : Instr) (d a b : GReg) (s : State) : Out := atomicWord i a (s.g b).toNat (s.g d).toNat s

def execAmoaddW (d : GReg) (a : GReg) (b : GReg) (sc : Scope) (o : Order) (s : State) : Out :=
  amoWord (.amoaddW d a b sc o) d a b s
def execAmoandW (d : GReg) (a : GReg) (b : GReg) (sc : Scope) (o : Order) (s : State) : Out :=
  amoWord (.amoandW d a b sc o) d a b s
def execAmoorW (d : GReg) (a : GReg) (b : GReg) (sc : Scope) (o : Order) (s : State) : Out :=
  amoWord (.amoorW d a b sc o) d a b s
def execAmoxorW (d : GReg) (a : GReg) (b : GReg) (sc : Scope) (o : Order) (s : State) : Out :=
  amoWord (.amoxorW d a b sc o) d a b s
def execAmominW (d : GReg) (a : GReg) (b : GReg) (sc : Scope) (o : Order) (s : State) : Out :=
  amoWord (.amominW d a b sc o) d a b s
def execAmomaxW (d : GReg) (a : GReg) (b : GReg) (sc : Scope) (o : Order) (s : State) : Out :=
  amoWord (.amomaxW d a b sc o) d a b s
def execAmominnW (d : GReg) (a : GReg) (b : GReg) (sc : Scope) (o : Order) (s : State) : Out :=
  amoWord (.amominnW d a b sc o) d a b s
def execAmomaxnW (d : GReg) (a : GReg) (b : GReg) (sc : Scope) (o : Order) (s : State) : Out :=
  amoWord (.amomaxnW d a b sc o) d a b s
def execAmoswpW (d : GReg) (a : GReg) (b : GReg) (sc : Scope) (o : Order) (s : State) : Out :=
  amoWord (.amoswpW d a b sc o) d a b s
def execAmocasW (d : GReg) (a : GReg) (b : GReg) (sc : Scope) (o : Order) (s : State) : Out :=
  amoWord (.amocasW d a b sc o) d a b s
def execAmoaddD (d : GReg) (a : GReg) (b : GReg) (sc : Scope) (o : Order) (s : State) : Out :=
  amoWord (.amoaddD d a b sc o) d a b s
def execAmoandD (d : GReg) (a : GReg) (b : GReg) (sc : Scope) (o : Order) (s : State) : Out :=
  amoWord (.amoandD d a b sc o) d a b s
def execAmoorD (d : GReg) (a : GReg) (b : GReg) (sc : Scope) (o : Order) (s : State) : Out :=
  amoWord (.amoorD d a b sc o) d a b s
def execAmoxorD (d : GReg) (a : GReg) (b : GReg) (sc : Scope) (o : Order) (s : State) : Out :=
  amoWord (.amoxorD d a b sc o) d a b s
def execAmominD (d : GReg) (a : GReg) (b : GReg) (sc : Scope) (o : Order) (s : State) : Out :=
  amoWord (.amominD d a b sc o) d a b s
def execAmomaxD (d : GReg) (a : GReg) (b : GReg) (sc : Scope) (o : Order) (s : State) : Out :=
  amoWord (.amomaxD d a b sc o) d a b s
def execAmominnD (d : GReg) (a : GReg) (b : GReg) (sc : Scope) (o : Order) (s : State) : Out :=
  amoWord (.amominnD d a b sc o) d a b s
def execAmomaxnD (d : GReg) (a : GReg) (b : GReg) (sc : Scope) (o : Order) (s : State) : Out :=
  amoWord (.amomaxnD d a b sc o) d a b s
def execAmoswpD (d : GReg) (a : GReg) (b : GReg) (sc : Scope) (o : Order) (s : State) : Out :=
  amoWord (.amoswpD d a b sc o) d a b s
def execAmocasD (d : GReg) (a : GReg) (b : GReg) (sc : Scope) (o : Order) (s : State) : Out :=
  amoWord (.amocasD d a b sc o) d a b s

/-- `CAS2` and `SWP2` (R238, R282): a Piccolo ships them, a Bassoon performs them. -/
def pairAtomic (i : Instr) (d : GPair) (a : GReg) (b : GPair) (s : State) : Out :=
  if s.piccolo then
    s.shipNow i (.pair (s.g a) (s.g (GPair.lo d)) (s.g (GPair.hi d)) (s.g (GPair.lo b)) (s.g (GPair.hi b)))
  else atomicWord i a (s.pair b) (s.pair d) s

def execCas2 (d : GPair) (a : GReg) (b : GPair) (sc : Scope) (o : Order) (s : State) : Out :=
  pairAtomic (.cas2 d a b sc o) d a b s
def execSwp2 (d : GPair) (a : GReg) (b : GPair) (sc : Scope) (o : Order) (s : State) : Out :=
  pairAtomic (.swp2 d a b sc o) d a b s

/-! ## Reductions (R283, R284) -/

/-- The ACCN of a checked place. -/
def Phys.accn (p : Phys) : Nat := match p.kind with | .acc n => n | _ => 0

/-- Sends an update to an accumulator line: it is outstanding until the NRU has applied or refused it (R143). -/
def State.sendUpdate (s : State) (ty : AccType) (elems : List (Nat × Word × Word)) (p : Phys) : State :=
  let line := lineOf p.pa
  let u : NruUpdate := ⟨s.hotId, s.hot.gen, s.hot.ctx, s.hot.lcore, s.hot.taskId, s.hot.supervisor, s.ids, ty, s.hot.contrib.bits 0 4,
    p.accn, elems⟩
  { s with hot := { s.hot with updates := s.hot.updates ++ [(s.ids, line)] }, ids := s.ids + 1 }.post (.nruUpdate u)

/-- A reduction to an accumulator line follows the updates of the slot's matrix commands (R143). -/
def Slot.afterMatrix (x : Slot) (p : Phys) : Bool :=
  !x.matrix.isEmpty && match p.kind with | .acc _ => true | _ => false

/-- `RED` (R283): the update goes to the NRU, or to the scratchpad's atomic sequencer (R281). -/
def redWord (i : Instr) (ty : AccType) (a b : GReg) (s : State) : Out :=
  let n := accSize ty
  let va := s.g a
  match s.checkAll s.me s.die .red [(0, ⟨va, n, n, false⟩)] with
  | (s, some f, _) => .next (s.accessFault f)
  | (s, none, []) => .next s.stall
  | (s, none, (p, _) :: _) =>
    let u := word ((s.g b).toNat % 2 ^ (8 * n))
    if s.hot.afterMatrix p then .next s.stall
    else match p.kind with
    | .spad _ =>
      let m : AtomMsg := ⟨s.hotId, s.hot.gen, s.ids, none, s.ownWord i, p.pa, (s.g b).toNat, 0⟩
      .next ({ s with hot := { s.hot with updates := s.hot.updates ++ [(s.ids, lineOf p.pa)] }, ids := s.ids + 1 }.sendAtom
        s.hot.ctx s.hot.lcore i m).retire
    | _ => .next (s.sendUpdate ty [(p.pa, va, u)] p).retire

def execRedFaddS (a : GReg) (b : GReg) (sc : Scope) (o : Order) (s : State) : Out :=
  redWord (.redFaddS a b sc o) .fp32 a b s
def execRedFaddD (a : GReg) (b : GReg) (sc : Scope) (o : Order) (s : State) : Out :=
  redWord (.redFaddD a b sc o) .fp64 a b s
def execRedIaddW (a : GReg) (b : GReg) (sc : Scope) (o : Order) (s : State) : Out :=
  redWord (.redIaddW a b sc o) .i32 a b s
def execRedIaddD (a : GReg) (b : GReg) (sc : Scope) (o : Order) (s : State) : Out :=
  redWord (.redIaddD a b sc o) .i64 a b s

/-- `VACC` (R284): the active elements of one half line are one arrival. -/
def execVacc (v : VReg) (a : GReg) (t : AccType) (m : MReg) (i : BitVec 6) (s : State) : Out :=
  let n := accSize t
  let base := s.g a + imm6 i
  let act := (List.range (64 / n)).filter (lanesActive (s.m m))
  if base.toNat % 64 ≠ 0 then .next (s.raise .misaligned 0 base)
  else
    match s.checkAll s.me s.die .vacc (act.map fun k => (k, ⟨base + word (k * n), n, n, false⟩)) with
    | (s, some f, _) => .next (s.accessFault f)
    | (s, none, []) => .next s.retire
    | (s, none, (p, e) :: ps) =>
      if s.hot.afterMatrix p then .next s.stall
      else
      let xs := act.map fun k => word (lane (8 * n) (s.v v) k)
      let elems := (List.zip ((p, e) :: ps) xs).map fun x => (x.1.1.pa, x.1.2.va, x.2)
      .next (s.sendUpdate t elems p).retire

/-! ## Accumulator lines (R112, R285) -/

/-- The type a TYPE field names (R112). -/
def accTypeOf (k : Nat) : AccType := match k with | 0 => .fp32 | 1 => .fp64 | 2 => .i32 | _ => .i64

/-- A word on one accumulator line: checked, and after the slot's updates to it (R124). -/
def accWord (o : AccOp) (e : Elem) (k : Phys → State → Out) (s : State) : Out :=
  match s.checkAll s.me s.die o [(0, e)] with
  | (s, some f, _) => .next (s.accessFault f)
  | (s, none, []) => .next s.stall
  | (s, none, (p, _) :: _) => if s.hot.meetsUpdate p e.n then .next s.stall else k p s

/-- `ACCINIT` (R112, R285): types the line and zeroes it; earlier state and pending contributions are discarded. -/
def execAccinit (a : GReg) (b : GReg) (_ : Scope) (_ : Order) (s : State) : Out :=
  let v := s.g b
  let slots := if v.bit 4 then v.bits 8 4 + 1 else 0
  accWord (.accinit v) ⟨s.g a, 128, 128, false⟩ (fun p s =>
    let s := s.zeroLine p.accn (lineOf p.pa) slots
    .next { s with acc := tabSet s.acc (lineOf p.pa) ⟨accTypeOf (v.bits 0 2), v.bit 4, slots, false, true⟩ }.retire) s

/-- Bytes of the element that `ACCRD` reads: those of the line's type. -/
def State.accElemSize (s : State) (va : Word) : Nat :=
  match (s.translate s.me va ⟨true, false, false⟩).2 with
  | .ok p => if s.typed (lineOf p.pa) then accSize (s.accState (lineOf p.pa)).ty else 4
  | .error _ => 4

/-- `ACCRD` (R285): combines, then FP32 zero-extended, I32 sign-extended, 64-bit types whole. -/
def execAccrd (d : GReg) (a : GReg) (_ : Scope) (_ : Order) (s : State) : Out :=
  accWord .accrd ⟨s.g a, s.accElemSize (s.g a), 1, false⟩ (fun p s =>
    let ty := (s.accState (lineOf p.pa)).ty
    let (s, bs) := s.readPlace (some s.core) p (accSize ty)
    .next (s.writeG d (if ty = .i32 then sextTo64 32 (leNat bs) else word (leNat bs))).retire) s

/-- `ACCZ` (R112, R285). -/
def execAccz (a : GReg) (_ : Scope) (_ : Order) (s : State) : Out :=
  accWord .accz ⟨s.g a, 128, 128, false⟩ (fun p s =>
    let st := s.accState (lineOf p.pa)
    let s := s.zeroLine p.accn (lineOf p.pa) st.n
    .next { s with acc := tabSet s.acc (lineOf p.pa) { st with dirty := false } }.retire) s

end Sys2Proof.Machine
end

