-- ==== Sys2Proof/Machine/Barrier.lean ====
section
/-!
DEFINITION. Barriers (R295 to R297, R467): the words, and the completion of an episode.
-/
namespace Sys2Proof.Machine

/-! ## Participants (R296) -/

/-- The unit of a scope that holds a core; domain and package scope have one unit here. -/
def scopeUnit (sc : Scope) (die pcore : Nat) : Nat :=
  match sc with
  | .core => die * 256 + pcore
  | .quad => die * 256 + (if pcore < 128 then pcore / 4 else pcore)
  | .die => die
  | _ => 0

/-- Whether a core-table entry names a core inside a unit of a scope of this package; `.dom` and `.sys` hold every
package. -/
def CtEntry.inside (e : CtEntry) (pkg : Nat) (sc : Scope) (unit : Nat) : Bool :=
  match sc with
  | .dom | .sys => true
  | _ => e.pkg == pkg && scopeUnit sc e.die e.pcore == unit

/-- The first logical core of a gang and its size; a gang of one is named by 0x10000 + its logical core. -/
def gangOf (lc : Nat) : CtLookup → Nat × Nat
  | .entry _ e => if e.gfirst = 0xFFFF then (0x10000 + lc, 1) else (e.gfirst, e.gsize + 1)
  | _ => (0x10000 + lc, 1)

/-- The participants of a new episode; none if an entry cannot be read. -/
def State.participants (s : State) (core c lc : Nat) (sc : Scope) (unit gang size : Nat) : Option (List Nat) :=
  if 0x10000 ≤ gang then some [lc]
  else (List.range size).foldr (fun i acc =>
    match acc, s.ctLookup core c (gang + i) with
    | some l, .entry _ e => if e.inside s.pkg sc unit then some ((gang + i) :: l) else some l
    | some l, .unmapped => some l
    | _, _ => none) (some [])

/-- What the reads of the entries of a gang leave behind (R494). -/
def State.gangTouch (s : State) (core c gang size : Nat) : State :=
  if 0x10000 ≤ gang then s else (List.range size).foldl (fun s i => s.ctMiss core c (gang + i)) s

/-! ## Descriptor (R295) -/

/-- Whether a barrier descriptor breaks R295. -/
def badBarrier (x : Word) : Bool := x.bits 11 53 != 0 || x.bits 4 4 != 0 || decide (4 < x.bits 8 3)

def Barrier.is (b : Barrier) (c gang : Nat) (sc : Scope) (unit id : Nat) : Bool :=
  b.ctx == c && b.gang == gang && b.scope == sc && b.unit == unit && b.id == id

/-- The barrier of a descriptor as the executing slot names it, if it has been used. -/
def State.findBarrier (s : State) (gang : Nat) (sc : Scope) (unit id : Nat) : Option Barrier :=
  s.barriers.find? fun b => b.is s.hot.ctx gang sc unit id

/-- Replaces a barrier, or adds it. -/
def State.putBarrier (s : State) (b : Barrier) : State :=
  { s with barriers := b :: s.barriers.filter fun x => x.key != b.key }

/-- The barrier of a descriptor, new if it has not been used. -/
def State.getBarrier (s : State) (gang : Nat) (sc : Scope) (unit id : Nat) : State × Barrier :=
  match s.findBarrier gang sc unit id with
  | some b => (s, b)
  | none => ({ s with ids := s.ids + 1 }, ⟨s.ids, s.hot.ctx, gang, sc, unit, id, [], [], [], []⟩)

/-- Checks of both words: ILLEGAL details 5 and 8 (R424), and the gang from the core table. -/
def barrierWord (i : Instr) (a : GReg) (sc : Scope) (k : Nat → Nat → State → Out) (s : State) : Out :=
  if sc = .core ∨ sc = .sys then .next (s.raise .illegal 5 (s.wordVal i))
  else if badBarrier (s.g a) then .next (s.raise .illegal 8 (s.g a))
  else
    match s.ctLookup s.core s.hot.ctx s.hot.lcore with
    | .unreadable => s.tableDead
    | e => let g := gangOf s.hot.lcore e; k g.1 g.2 (s.ctMiss s.core s.hot.ctx s.hot.lcore)

/-- The open episode has begun: a `BARA` on the ID has been executed. -/
def Barrier.open (b : Barrier) : Bool := !b.given.isEmpty || !b.early.isEmpty

/-- A logical core has executed its `BARA` in the open episode. -/
def Barrier.has (b : Barrier) (lc : Nat) : Bool := b.given.any (·.1 == lc) || b.early.any (·.lcore == lc)

/-- `BARA` (R296): returns at once; its contribution reaches the network once every earlier access has performed, which is
once the slot's reductions are applied (log 7). A second one in an episode waits (R467). A `BARA` of a logical core that is
no participant of the open episode waits for the next (DESIGN CHOICE, log 52: the spec states nothing for it). -/
def execBara (a : GReg) (b : GReg) (sc : Scope) (s : State) : Out :=
  barrierWord (.bara a b sc) a sc (fun gang size s =>
    let unit := scopeUnit sc s.die (pcoreOf s.core)
    let lc := s.hot.lcore
    let (s, x) := s.getBarrier gang sc unit ((s.g a).bits 0 4)
    let read := s.gangTouch s.core s.hot.ctx gang size
    let members := if x.open then some x.members else s.participants s.core s.hot.ctx lc sc unit gang size
    match members with
    | none => s.tableDead
    | some ms =>
      let s := if x.open then s else read
      if x.has lc || !ms.contains lc then .next s.stall
      else
        let c : Contribution := ⟨lc, (s.g a).bits 8 3, s.g b, s.hot.reductions⟩
        let x := { x with members := ms, results := x.results.filter (·.1 != lc) }
        let y := if c.need.isEmpty then { x with given := x.given ++ [(c.lcore, c.op, c.operand)] }
          else { x with early := x.early ++ [c] }
        let s := s.putBarrier y
        .next (if y.full then s.post (.barrierEpisodeCompletion s.hot.ctx gang unit sc y.id) else s).retire) s

/-- `BARW` returns: rd := value, gS := code. -/
def State.barrierReturn (s : State) (d g : GReg) (value : Word) (code : Nat) : Out :=
  .next ((({ s with hot := { s.hot with wait := none } }.writeG d value).writeG g (word code)).retire)

/-- `BARW` (R296): returns with the episode's result, at once with gS = 0 if a pre-emption is pending, or waits. -/
def execBarw (d : GReg) (a : GReg) (g : GReg) (sc : Scope) (s : State) : Out :=
  if d = g ∧ d ≠ 0 then .next (s.raise .illegal 7 (s.wordVal (.barw d a g sc)))
  else
    match s.hot.wait with
    | some (.combined v c) => s.barrierReturn d g v c
    | w =>
      barrierWord (.barw d a g sc) a sc (fun gang _ s =>
        if s.pendingPreempt s.core s.hot.ctx then
          .next ({ s with hot := { s.hot with wait := none } }.writeG g 0).retire
        else
          match w with
          | some _ => .next s.stall
          | none =>
            let unit := scopeUnit sc s.die (pcoreOf s.core)
            let (s, x) := s.getBarrier gang sc unit ((s.g a).bits 0 4)
            match x.results.find? (·.1 == s.hot.lcore) with
            | some (_, v, c) =>
              let x := if c = 1 then { x with results := x.results.filter (·.1 != s.hot.lcore) } else x
              (s.putBarrier x).barrierReturn d g v c
            | none =>
              .next { s.putBarrier x with hot := { s.hot with wait := some (.barrier x.key) } }.stall) s

/-! ## BARRIER_EPISODE_COMPLETION (R296, R297, R467) -/

/-- The operands of an episode in order of gang rank; an absent rank is none. -/
def rankOperands (gang : Nat) (given : List (Nat × Nat × Word)) : List (Option (Nat × Nat)) :=
  let top := given.foldl (fun m x => max m (x.1 - gang)) 0
  (List.range (top + 1)).map fun r => (given.find? fun x => x.1 - gang == r).map fun x => (x.2.2.toNat, 0)

/-- The combined value of an episode (R297); the order of contributions does not matter. -/
def combineBarrier (gang op : Nat) (given : List (Nat × Nat × Word)) : Word :=
  let xs := given.map fun x => x.2.2
  match op with
  | 1 => xs.foldl (· + ·) 0
  | 2 => xs.foldl (fun m x => if x.toInt < m.toInt then x else m) (xs.headD 0)
  | 3 => xs.foldl (fun m x => if m.toInt < x.toInt then x else m) (xs.headD 0)
  | 4 => word (treeSum .fp64 .rne 16 (rankOperands gang given)).1
  | _ => 0

/-- Gives waiting slots of a participant the result. -/
def State.wakeBarrier (s : State) (b : Barrier) (value : Word) (code : Nat) : State :=
  s.slotKeys.foldl (fun s k =>
    let x := s.getSlot k
    if x.active && b.members.contains x.lcore && x.wait == some (.barrier b.key) then
      s.setSlot k { x with wait := some (.combined value code) } else s) s

/-- The participants whose result no waiting slot took: those with no waiting slot, or every one if OP disagreed. -/
def State.keptResults (s : State) (b : Barrier) (value : Word) (code : Nat) : List (Nat × Word × Nat) :=
  let waiting := s.slotKeys.filterMap fun k =>
    let x := s.getSlot k
    if x.active && b.members.contains x.lcore && x.wait == some (.barrier b.key) then some x.lcore else none
  (b.members.filter fun m => code != 1 || !waiting.contains m).map fun m => (m, value, code)

/-- The participants of an episode in other packages, whose contributions are not in this state. -/
def Barrier.outside (b : Barrier) : List Nat := b.members.filter fun m => !b.given.any (·.1 == m)

/-- Every contribution of an episode: of other packages the OP and the operand are free values (log 27). -/
def State.contributions (s : State) (b : Barrier) : List (Nat × Nat × Word) :=
  b.given ++ b.outside.mapIdx fun i m =>
    (m, (Config.freeWord (s.freeCtr + 2 * i)).toNat % 5, Config.freeWord (s.freeCtr + 2 * i + 1))

/-- The location of a barrier's network: the stop of its quad or Bassoon, else stop 0 of its die, or of die 0. DESIGN CHOICE (log
74), unsafe. -/
def State.barrierPlace (s : State) (b : Barrier) : Nat :=
  match b.scope with
  | .core | .quad => s.stopPlace (b.unit / 256) (let n := b.unit % 256; if n < 128 then n else coreStop n)
  | .die => s.stopPlace b.unit 0
  | _ => s.stopPlace 0 0

/-- An episode completes when every participant of this package has contributed. -/
def State.completeEpisode (s : State) (b : Barrier) : State :=
  let all := s.contributions b
  let op := (all.head?.map (·.2.1)).getD 0
  let agree := all.all fun x => x.2.1 == op
  let value : Word :=
    if !agree || op == 0 then 0 else combineBarrier (if 0x10000 ≤ b.gang then b.gang - 0x10000 else b.gang) op all
  let code := if agree then 1 else 2
  let kept := s.keptResults b value code
  let s := { s with freeCtr := s.freeCtr + 2 * b.outside.length }.wakeBarrier b value code
  let s := s.putBarrier { b with members := [], given := [], results := b.results ++ kept }
  let place := s.barrierPlace b
  if agree then s else s.logRecord (placeDie place) ⟨2, 1, 6, 0, some b.ctx, none, place, b.id⟩

/-- Whether every participant of this package has contributed: the others, in other packages, have been heard of through
the fabric when the event takes place. -/
def State.episodeDone (s : State) (b : Barrier) : Bool :=
  !b.given.isEmpty && b.members.all fun m =>
    b.given.any (·.1 == m) ||
    (b.scope == .dom && (match s.ctRead b.ctx m with | .entry _ e => e.pkg != s.pkg | _ => true))

def execBarrierEpisodeCompletion (s : State) : Out :=
  match s.agenda with
  | .barrierEpisodeCompletion c gang unit sc id :: t =>
    let s := { s with agenda := t }
    match s.barriers.find? fun b => b.is c gang sc unit id with
    | some b => .next (if s.episodeDone b then s.completeEpisode b else s)
    | none => .next s
  | _ => .next s

end Sys2Proof.Machine
end

