-- ==== Sys2Proof/Machine/Branch.lean ====
section
/-!
DEFINITION. Branches and jumps (R166, R201 to R204): the transfer takes effect when the bundle ends.
-/
namespace Sys2Proof.Machine

/-- A branch: to the target if the condition holds, else to the following bundle. -/
def branchWord (taken : Bool) (o : BitVec 14) (s : State) : Out :=
  .next (if taken then s.retireTo (target14 s.hot.wa o) else s.retire)

def execBeq (a b : GReg) (o : BitVec 14) (s : State) : Out := branchWord (s.g a == s.g b) o s
def execBne (a b : GReg) (o : BitVec 14) (s : State) : Out := branchWord (s.g a != s.g b) o s
def execBlt (a b : GReg) (o : BitVec 14) (s : State) : Out := branchWord (decide ((s.g a).toInt < (s.g b).toInt)) o s
def execBge (a b : GReg) (o : BitVec 14) (s : State) : Out := branchWord (decide ((s.g b).toInt ≤ (s.g a).toInt)) o s
def execBltn (a b : GReg) (o : BitVec 14) (s : State) : Out := branchWord (decide ((s.g a).toNat < (s.g b).toNat)) o s
def execBgen (a b : GReg) (o : BitVec 14) (s : State) : Out := branchWord (decide ((s.g b).toNat ≤ (s.g a).toNat)) o s

/-- `BMANY`: any of the 64 bits of the mask register (R202). -/
def execBmany (m : MReg) (o : BitVec 14) (s : State) : Out := branchWord (s.m m != 0) o s
/-- `BMALL`: all of its 64 bits (R202). -/
def execBmall (m : MReg) (o : BitVec 14) (s : State) : Out := branchWord (s.m m == onesWord) o s

/-- `JAL` (R203): the link is the address of the bundle after this one (R166). -/
def execJal (d : GReg) (o : BitVec 19) (s : State) : Out :=
  .next ((s.writeG d s.hot.nxt).retireTo (target19 s.hot.wa o))

/-- `JALR` (R204): the target is read before rd is written; a target that is not a multiple of 4 traps. -/
def execJalr (d a : GReg) (i : BitVec 14) (s : State) : Out :=
  let t := s.g a + imm14 i
  .next (if t.bits 0 2 ≠ 0 then s.raise .misaligned 0 t else (s.writeG d s.hot.nxt).retireTo t)

end Sys2Proof.Machine
end

