-- ==== Sys2Proof/Machine/FpTrans.lean ====
section
/-!
DEFINITION. The FTRANS functions, correctly rounded (R86, R225). A function is enclosed in an interval computed in
fixed point; when both ends round alike, that is the result, else the precision doubles. By R86 the exact value is
never representable outside the exact cases treated first, so some precision decides; if the fuel of the refinement ran
out first, the result is the opaque `Config.transcendental`, about which nothing can be proved.
-/
namespace Sys2Proof

/-! ## Constants and series in fixed point: a number `x` stands for `x / 2^p` -/

/-- `Σ z^(2k+1) / (2k+1)` with alternating signs if `alt`: atanh, or atan if `alt`; `z2` is `z²`, `t` the current
power. -/
def oddSeries (alt : Bool) (p : Nat) (z2 : Int) : Nat → Int → Nat → Int
  | 0, _, _ => 0
  | n + 1, t, k =>
    if t = 0 then 0
    else t / (k : Int) + oddSeries alt p z2 n ((if alt then -(t * z2) else t * z2) / 2 ^ p) (k + 2)

/-- atanh of a fixed-point number below 1/2. -/
def fixAtanh (p : Nat) (z : Int) : Int := oddSeries false p (z * z / 2 ^ p) p z 1

/-- atan of a fixed-point number below 1/2. -/
def fixAtanSmall (p : Nat) (z : Int) : Int := oddSeries true p (z * z / 2 ^ p) p z 1

/-- ln 2 = 2 atanh(1/3). -/
def fixLn2 (p : Nat) : Int := 2 * fixAtanh p ((2 : Int) ^ p / 3)

/-- π = 16 atan(1/5) − 4 atan(1/239). -/
def fixPi (p : Nat) : Int :=
  16 * fixAtanSmall p ((2 : Int) ^ p / 5) - 4 * fixAtanSmall p ((2 : Int) ^ p / 239)

/-- `Σ x^k / k!` from the term `t` of index `k`. -/
def expSeries (p : Nat) (x : Int) : Nat → Int → Nat → Int
  | 0, _, _ => 0
  | n + 1, t, k => if t = 0 then 0 else t + expSeries p x n (t * x / 2 ^ p / ((k : Int) + 1)) (k + 1)

/-- exp of a fixed-point number between −1 and 1. -/
def fixExp (p : Nat) (x : Int) : Int := expSeries p x (p + 4) (2 ^ p) 0

/-- `Σ (−x²)^k / …` for sine and cosine: the term `t` has degree `k`. -/
def trigSeries (p : Nat) (x2 : Int) : Nat → Int → Nat → Int
  | 0, _, _ => 0
  | n + 1, t, k =>
    if t = 0 then 0 else t + trigSeries p x2 n (-(t * x2) / 2 ^ p / (((k : Int) + 1) * ((k : Int) + 2))) (k + 2)

/-- Sine and cosine of a fixed-point number between 0 and 2. -/
def fixSin (p : Nat) (x : Int) : Int := trigSeries p (x * x / 2 ^ p) (p + 4) x 1
def fixCos (p : Nat) (x : Int) : Int := trigSeries p (x * x / 2 ^ p) (p + 4) (2 ^ p) 0

/-- `z / (1 + √(1 + z²))`, the tangent of half the angle. -/
def halfTan (p : Nat) (z : Int) : Int :=
  z * 2 ^ p / (2 ^ p + (isqrt (((2 : Int) ^ (2 * p) + z * z).toNat) : Int))

/-- atan of a fixed-point number between 0 and 1. -/
def fixAtan (p : Nat) (z : Int) : Int := 4 * fixAtanSmall p (halfTan p (halfTan p z))

/-- A positive number `m × 2^e` in fixed point, rounded down. -/
def fixOf (p m : Nat) (e : Int) : Int :=
  let k := e + p
  if 0 ≤ k then (m : Int) * 2 ^ k.toNat else (m : Int) / 2 ^ (-k).toNat

/-! ## The functions on a positive magnitude `m × 2^e`, within `2^24` units of the last place -/

/-- The functions of FTRANS that need a refinement. -/
inductive Trans where
  | exp2 | log2 | sin | cos | tanh | atan
deriving DecidableEq, Repr

/-- log₂ of `m × 2^e`. -/
def approxLog2 (p m : Nat) (e : Int) : Int :=
  let l := Nat.log2 m
  let f := fixOf p m (-(l : Int))
  let z := (f - 2 ^ p) * 2 ^ p / (f + 2 ^ p)
  (e + l) * 2 ^ p + 2 * fixAtanh p z * 2 ^ p / fixLn2 p

/-- Sine or cosine of `m × 2^e`, reduced by multiples of π/2. -/
def approxTrig (wantCos : Bool) (p m : Nat) (e : Int) : Int :=
  let top := (Nat.log2 m + e).toNat
  let q := p + top + 8
  let x := fixOf q m e
  let h := fixPi q / 2
  let k := x / h
  let r := (x - k * h) / 2 ^ (top + 8)
  let k := (k + if wantCos then 1 else 0) % 4
  if k = 0 then fixSin p r else if k = 1 then fixCos p r else if k = 2 then -fixSin p r else -fixCos p r

/-- tanh of `m × 2^e` as `(1 − e^(−2x)) / (1 + e^(−2x))`. -/
def approxTanh (p m : Nat) (e : Int) : Int :=
  let y := 2 * fixOf (p + 16) m e
  let ln2 := fixLn2 (p + 16)
  let k := y / ln2
  let r := (y - k * ln2) / 2 ^ 16
  let t := fixExp p (-r) / 2 ^ k.toNat
  (2 ^ p - t) * 2 ^ p / (2 ^ p + t)

/-- atan of `m × 2^e`. -/
def approxAtan (p m : Nat) (e : Int) : Int :=
  if (Nat.log2 m + e : Int) < 0 then fixAtan p (fixOf p m e)
  else
    let inv := if 0 ≤ e then (2 : Int) ^ p / ((m : Int) * 2 ^ e.toNat) else (2 : Int) ^ p * 2 ^ (-e).toNat / m
    fixPi p / 2 - fixAtan p inv

/-- The approximation of a function at a signed number, as a signed fixed-point number with an exponent to add. -/
def approx (t : Trans) (p : Nat) (neg : Bool) (m : Nat) (e : Int) : Int × Int :=
  let sg : Int := if neg then -1 else 1
  match t with
  | .log2 => (approxLog2 p m e, 0)
  | .sin => (sg * approxTrig false p m e, 0)
  | .cos => (approxTrig true p m e, 0)
  | .tanh => (sg * approxTanh p m e, 0)
  | .atan => (sg * approxAtan p m e, 0)
  | .exp2 =>
    let x := sg * fixOf (p + 16) m e
    let i := x / 2 ^ (p + 16)
    let f := x - i * 2 ^ (p + 16)
    (fixExp p (f * fixLn2 p / 2 ^ (p + 16)), i)

/-- A signed fixed-point number as a value that lies strictly between representable ones. -/
def stickyVal (p : Nat) (y ex : Int) : FVal :=
  .num (y < 0) (2 * y.natAbs + 1) (ex - p - 1)

/-- Rounds an interval of width `2^25` units: the result if both ends round alike. -/
def roundEnds (f : Fmt) (p : Nat) (y ex : Int) : Option FRes :=
  let lo := y - 2 ^ 24
  let hi := y + 2 ^ 24
  if (lo < 0) != (hi < 0) then none
  else
    let a := roundVal f .rne (stickyVal p lo ex)
    let b := roundVal f .rne (stickyVal p hi ex)
    if a = b then some a else none

/-- The refinement: the precision doubles until both ends round alike. -/
def refine (f : Fmt) (t : Trans) (neg : Bool) (m : Nat) (e : Int) : Nat → Nat → Option FRes
  | 0, _ => none
  | n + 1, p =>
    let (y, ex) := approx t p neg m e
    match roundEnds f p y ex with
    | some r => some r
    | none => refine f t neg m e n (2 * p)

/-- The refined result; the fallback is an opaque value (see the head of the file). -/
def refined (f : Fmt) (t : Trans) (neg : Bool) (m : Nat) (e : Int) : FRes :=
  match refine f t neg m e 7 160 with
  | some r => r
  | none => ⟨Config.transcendental f.width m e.natAbs % 2 ^ f.width, flagNX⟩

/-- A value just below (or just above) `m × 2^e` in magnitude, closer to it than any rounding boundary. -/
def nudge (up neg : Bool) (m : Nat) (e : Int) : FVal :=
  .num neg (if up then m * 2 ^ 200 + 1 else m * 2 ^ 200 - 1) (e - 200)

/-! ## The words -/

/-- `FEXP2` (R225). -/
def fExp2 (f : Fmt) (a : Nat) : FRes :=
  match f.read a with
  | .nan s => ⟨f.canonNaN, if s then flagNV else 0⟩
  | .zero _ => roundVal f .rne (.num false 1 0)
  | .inf neg => roundVal f .rne (if neg then .zero false else .inf false)
  | .num neg m e =>
    let top : Int := Nat.log2 m + e
    if 14 < top then roundVal f .rne (.num false 1 (if neg then -20000 else 20000) )
    else if top < -70 then roundVal f .rne (nudge (!neg) false 1 0)
    else if 0 ≤ e ∨ m % 2 ^ (-e).toNat = 0 then
      roundVal f .rne (.num false 1 (signed neg (if 0 ≤ e then m * 2 ^ e.toNat else m / 2 ^ (-e).toNat)))
    else refined f .exp2 neg m e

/-- `FLOG2` (R225). -/
def fLog2 (f : Fmt) (a : Nat) : FRes :=
  match f.read a with
  | .nan s => ⟨f.canonNaN, if s then flagNV else 0⟩
  | .zero _ => (roundVal f .rne (.inf true)).withFlags flagDZ
  | .inf false => roundVal f .rne (.inf false)
  | .inf true => invalid f
  | .num true _ _ => invalid f
  | .num false m e =>
    if m = 2 ^ Nat.log2 m then roundVal f .rne (valOfInt (e + Nat.log2 m))
    else refined f .log2 false m e

/-- `FSIN`, `FTANH` and `FATAN` of a magnitude so small that the result lies just below it. -/
def smallOdd (f : Fmt) (neg : Bool) (m : Nat) (e : Int) : FRes := roundVal f .rne (nudge false neg m e)

/-- `FSIN` (R225). -/
def fSin (f : Fmt) (a : Nat) : FRes :=
  match f.read a with
  | .nan s => ⟨f.canonNaN, if s then flagNV else 0⟩
  | .zero s => roundVal f .rne (.zero s)
  | .inf _ => invalid f
  | .num neg m e => if Nat.log2 m + e < -40 then smallOdd f neg m e else refined f .sin neg m e

/-- `FCOS` (R225). -/
def fCos (f : Fmt) (a : Nat) : FRes :=
  match f.read a with
  | .nan s => ⟨f.canonNaN, if s then flagNV else 0⟩
  | .zero _ => roundVal f .rne (.num false 1 0)
  | .inf _ => invalid f
  | .num neg m e => if Nat.log2 m + e < -40 then roundVal f .rne (nudge false false 1 0) else refined f .cos neg m e

/-- `FTANH` (R225). -/
def fTanh (f : Fmt) (a : Nat) : FRes :=
  match f.read a with
  | .nan s => ⟨f.canonNaN, if s then flagNV else 0⟩
  | .zero s => roundVal f .rne (.zero s)
  | .inf neg => roundVal f .rne (.num neg 1 0)
  | .num neg m e =>
    let top : Int := Nat.log2 m + e
    if top < -40 then smallOdd f neg m e
    else if 6 < top then roundVal f .rne (nudge false neg 1 0)
    else refined f .tanh neg m e

/-- `FATAN` (R225): at an infinity, π/2 rounded. -/
def fAtan (f : Fmt) (a : Nat) : FRes :=
  match f.read a with
  | .nan s => ⟨f.canonNaN, if s then flagNV else 0⟩
  | .zero s => roundVal f .rne (.zero s)
  | .inf neg => roundVal f .rne (stickyVal 160 ((if neg then -1 else 1) * (fixPi 160 / 2)) 0)
  | .num neg m e => if Nat.log2 m + e < -40 then smallOdd f neg m e else refined f .atan neg m e

/-- `FRSQ` (R225): the reciprocal square root, with a sticky last bit. -/
def fRsq (f : Fmt) (a : Nat) : FRes :=
  match f.read a with
  | .nan s => ⟨f.canonNaN, if s then flagNV else 0⟩
  | .zero s => (roundVal f .rne (.inf s)).withFlags flagDZ
  | .inf false => roundVal f .rne (.zero false)
  | .inf true => invalid f
  | .num true _ _ => invalid f
  | .num false m e =>
    let m1 := if e % 2 = 0 then m else 2 * m
    let e1 := if e % 2 = 0 then e else e - 1
    let k := f.fracBits + 4 + Nat.log2 m1
    let s := isqrt (2 ^ (2 * k) / m1)
    roundVal f .rne (.num false (2 * s + (if s * s * m1 = 2 ^ (2 * k) then 0 else 1)) (-(e1 / 2) - k - 1))

/-- `FRCP` (R225). -/
def fRcp (f : Fmt) (a : Nat) : FRes :=
  match f.read a with
  | .nan s => ⟨f.canonNaN, if s then flagNV else 0⟩
  | .zero s => (roundVal f .rne (.inf s)).withFlags flagDZ
  | .inf s => roundVal f .rne (.zero s)
  | .num neg m e =>
    let (q, k) := divNum (f.fracBits + 1) 1 m 0 e
    roundVal f .rne (.num neg q k)

end Sys2Proof
end

