-- ==== Sys2Proof/Machine/Float.lean ====
section
/-!
DEFINITION. The scalar floating-point words (R216 to R226): one evaluation used by a core and by a Bassoon guest entry.
-/
namespace Sys2Proof.Machine

/-- A result in format `f`, zero-extended to 64 bits (R216). -/
def fpOut (r : FRes) : Word × Nat := (word r.bits, r.flags)

/-- The result and flags of a scalar FP word on operand values `a`, `b` and `c`, with dynamic mode `rm` (R218 to R226).
Rounding fields of `FMIN`, `FMAX` and F8 destinations are ignored. -/
def evalFp (i : Instr) (a b c : Word) (rm : Nat) : Word × Nat :=
  let m (r : Rnd) : RMode := RMode.ofCode (rndCode r rm)
  let m4 (r : Rnd4) : RMode := RMode.ofCode (rnd4Code r rm)
  match i with
  | .fadd _ _ _ r f => fpOut (fAdd f (m r) a.toNat b.toNat)
  | .fsub _ _ _ r f => fpOut (fSub f (m r) a.toNat b.toNat)
  | .fmul _ _ _ r f => fpOut (fMul f (m r) a.toNat b.toNat)
  | .fdiv _ _ _ r f => fpOut (fDiv f (m r) a.toNat b.toNat)
  | .fsqrt _ _ r f => fpOut (fSqrt f (m r) a.toNat)
  | .fmin _ _ _ _ f => fpOut (fMinMax f false a.toNat b.toNat)
  | .fmax _ _ _ _ f => fpOut (fMinMax f true a.toNat b.toNat)
  | .fsgnj _ _ _ f => fpOut (fSgn f (f.signOf b.toNat) a.toNat)
  | .fsgnjn _ _ _ f => fpOut (fSgn f (!f.signOf b.toNat) a.toNat)
  | .fsgnjx _ _ _ f => fpOut (fSgn f (xor (f.signOf a.toNat) (f.signOf b.toNat)) a.toNat)
  | .feq _ _ _ f => fpOut (fCmp f .eq a.toNat b.toNat)
  | .flt _ _ _ f => fpOut (fCmp f .lt a.toNat b.toNat)
  | .fle _ _ _ f => fpOut (fCmp f .le a.toNat b.toNat)
  | .fclass _ _ f => (word (fClass f a.toNat), 0)
  | .fcvt _ _ src r dst =>
    let x := convert src dst (m r) a.toNat
    (cvtExtend dst x.bits, x.flags)
  | .frsqe _ _ f => fpOut (fSeed f true a.toNat)
  | .frcpe _ _ f => fpOut (fSeed f false a.toNat)
  | .fexp2 _ _ f => fpOut (fExp2 f a.toNat)
  | .flog2 _ _ f => fpOut (fLog2 f a.toNat)
  | .fsin _ _ f => fpOut (fSin f a.toNat)
  | .fcos _ _ f => fpOut (fCos f a.toNat)
  | .ftanh _ _ f => fpOut (fTanh f a.toNat)
  | .fatan _ _ f => fpOut (fAtan f a.toNat)
  | .frsq _ _ f => fpOut (fRsq f a.toNat)
  | .frcp _ _ f => fpOut (fRcp f a.toNat)
  | .ffma _ _ _ _ f r => fpOut (fFma f (m4 r) false false a.toNat b.toNat c.toNat)
  | .ffms _ _ _ _ f r => fpOut (fFma f (m4 r) false true a.toNat b.toNat c.toNat)
  | .fnfma _ _ _ _ f r => fpOut (fFma f (m4 r) true true a.toNat b.toNat c.toNat)
  | .fnfms _ _ _ _ f r => fpOut (fFma f (m4 r) true false a.toNat b.toNat c.toNat)
  | _ => (0, 0)

/-- Whether a Piccolo ships a scalar FP word (R227). -/
def shipsFp : Instr → Bool
  | .fadd _ _ _ _ f | .fsub _ _ _ _ f | .fmul _ _ _ _ f | .fdiv _ _ _ _ f | .fsqrt _ _ _ f | .fmin _ _ _ _ f
  | .fmax _ _ _ _ f | .fsgnj _ _ _ f | .fsgnjn _ _ _ f | .fsgnjx _ _ _ f | .feq _ _ _ f | .flt _ _ _ f
  | .fle _ _ _ f | .fclass _ _ f | .frsqe _ _ f | .frcpe _ _ f | .ffma _ _ _ _ f _ | .ffms _ _ _ _ f _
  | .fnfma _ _ _ _ f _ | .fnfms _ _ _ _ f _ => f == .fp64
  | .fcvt _ _ src _ dst => src == .fp64 || dst == .fp64
  | .fexp2 .. | .flog2 .. | .fsin .. | .fcos .. | .ftanh .. | .fatan .. | .frsq .. | .frcp .. => true
  | _ => false

/-- A scalar FP word with destination `d`: shipped by a Piccolo where R227 says so, else performed here. A raised flag
whose trap is enabled raises FP, and then nothing is written and no flag accrues (R422, R430, R431). -/
def fpWord (i : Instr) (d : GReg) (a b c : Word) (s : State) : Out :=
  if s.piccolo && shipsFp i then s.shipNow i (.scalar a b c)
  else
    let r := evalFp i a b c s.hot.rm
    if r.2 &&& s.hot.te ≠ 0 then .next (s.raise .fp 0 (fpTrapVal s.hot.te r.2 0))
    else .next (((s.writeG d r.1).accrue r.2).retire)

/-- A dynamic rounding field while `FCSR.RM` holds a reserved code is ILLEGAL detail 4, before shipping (R424, R425). -/
def rmGuard (dynamic : Bool) (i : Instr) (s : State) (k : Out) : Out :=
  if dynamic && decide (3 < s.hot.rm) then .next (s.raise .illegal 4 (s.wordVal i)) else k

/-! ## FARITH (R218) -/

def execFadd (d a b : GReg) (r : Rnd) (f : Fmt) (s : State) : Out :=
  rmGuard (r == .dyn) (.fadd d a b r f) s (fpWord (.fadd d a b r f) d (s.g a) (s.g b) 0 s)
def execFsub (d a b : GReg) (r : Rnd) (f : Fmt) (s : State) : Out :=
  rmGuard (r == .dyn) (.fsub d a b r f) s (fpWord (.fsub d a b r f) d (s.g a) (s.g b) 0 s)
def execFmul (d a b : GReg) (r : Rnd) (f : Fmt) (s : State) : Out :=
  rmGuard (r == .dyn) (.fmul d a b r f) s (fpWord (.fmul d a b r f) d (s.g a) (s.g b) 0 s)
def execFdiv (d a b : GReg) (r : Rnd) (f : Fmt) (s : State) : Out :=
  rmGuard (r == .dyn) (.fdiv d a b r f) s (fpWord (.fdiv d a b r f) d (s.g a) (s.g b) 0 s)
def execFsqrt (d a : GReg) (r : Rnd) (f : Fmt) (s : State) : Out :=
  rmGuard (r == .dyn) (.fsqrt d a r f) s (fpWord (.fsqrt d a r f) d (s.g a) 0 0 s)
def execFmin (d a b : GReg) (r : Rnd) (f : Fmt) (s : State) : Out := fpWord (.fmin d a b r f) d (s.g a) (s.g b) 0 s
def execFmax (d a b : GReg) (r : Rnd) (f : Fmt) (s : State) : Out := fpWord (.fmax d a b r f) d (s.g a) (s.g b) 0 s

/-! ## FSGN, FCMP, FCLASS (R219 to R221) -/

def execFsgnj (d a b : GReg) (f : Fmt) (s : State) : Out := fpWord (.fsgnj d a b f) d (s.g a) (s.g b) 0 s
def execFsgnjn (d a b : GReg) (f : Fmt) (s : State) : Out := fpWord (.fsgnjn d a b f) d (s.g a) (s.g b) 0 s
def execFsgnjx (d a b : GReg) (f : Fmt) (s : State) : Out := fpWord (.fsgnjx d a b f) d (s.g a) (s.g b) 0 s
def execFeq (d a b : GReg) (f : Fmt) (s : State) : Out := fpWord (.feq d a b f) d (s.g a) (s.g b) 0 s
def execFlt (d a b : GReg) (f : Fmt) (s : State) : Out := fpWord (.flt d a b f) d (s.g a) (s.g b) 0 s
def execFle (d a b : GReg) (f : Fmt) (s : State) : Out := fpWord (.fle d a b f) d (s.g a) (s.g b) 0 s
def execFclass (d a : GReg) (f : Fmt) (s : State) : Out := fpWord (.fclass d a f) d (s.g a) 0 0 s

/-! ## FCVT (R222, R223) -/

/-- F8 and F8W destinations ignore a legal rounding field (R223). -/
def cvtDynamic (r : Bool) (dst : CvtType) : Bool := r && dst != .f8 && dst != .f8w

def execFcvt (d a : GReg) (src : CvtType) (r : Rnd) (dst : CvtType) (s : State) : Out :=
  rmGuard (cvtDynamic (r == .dyn) dst) (.fcvt d a src r dst) s (fpWord (.fcvt d a src r dst) d (s.g a) 0 0 s)

/-! ## FSEED, FTRANS (R224, R225) -/

def execFrsqe (d a : GReg) (f : Fmt) (s : State) : Out := fpWord (.frsqe d a f) d (s.g a) 0 0 s
def execFrcpe (d a : GReg) (f : Fmt) (s : State) : Out := fpWord (.frcpe d a f) d (s.g a) 0 0 s
def execFexp2 (d a : GReg) (f : Fmt) (s : State) : Out := fpWord (.fexp2 d a f) d (s.g a) 0 0 s
def execFlog2 (d a : GReg) (f : Fmt) (s : State) : Out := fpWord (.flog2 d a f) d (s.g a) 0 0 s
def execFsin (d a : GReg) (f : Fmt) (s : State) : Out := fpWord (.fsin d a f) d (s.g a) 0 0 s
def execFcos (d a : GReg) (f : Fmt) (s : State) : Out := fpWord (.fcos d a f) d (s.g a) 0 0 s
def execFtanh (d a : GReg) (f : Fmt) (s : State) : Out := fpWord (.ftanh d a f) d (s.g a) 0 0 s
def execFatan (d a : GReg) (f : Fmt) (s : State) : Out := fpWord (.fatan d a f) d (s.g a) 0 0 s
def execFrsq (d a : GReg) (f : Fmt) (s : State) : Out := fpWord (.frsq d a f) d (s.g a) 0 0 s
def execFrcp (d a : GReg) (f : Fmt) (s : State) : Out := fpWord (.frcp d a f) d (s.g a) 0 0 s

/-! ## Fused multiply-adds (R226) -/

def execFfma (d a b c : GReg) (f : Fmt) (r : Rnd4) (s : State) : Out :=
  rmGuard (r == .dyn) (.ffma d a b c f r) s (fpWord (.ffma d a b c f r) d (s.g a) (s.g b) (s.g c) s)
def execFfms (d a b c : GReg) (f : Fmt) (r : Rnd4) (s : State) : Out :=
  rmGuard (r == .dyn) (.ffms d a b c f r) s (fpWord (.ffms d a b c f r) d (s.g a) (s.g b) (s.g c) s)
def execFnfma (d a b c : GReg) (f : Fmt) (r : Rnd4) (s : State) : Out :=
  rmGuard (r == .dyn) (.fnfma d a b c f r) s (fpWord (.fnfma d a b c f r) d (s.g a) (s.g b) (s.g c) s)
def execFnfms (d a b c : GReg) (f : Fmt) (r : Rnd4) (s : State) : Out :=
  rmGuard (r == .dyn) (.fnfms d a b c f r) s (fpWord (.fnfms d a b c f r) d (s.g a) (s.g b) (s.g c) s)

end Sys2Proof.Machine
end

