-- ==== Sys2Proof/Machine/Regs.lean ====
section
/-!
DEFINITION. The registers each word reads and writes: what the scoreboard, the order of the two streams and the pairing
rules look at (R164, R165, R233, R242).
-/
namespace Sys2Proof

/-- Registers read and written: `g`, `v` and `m`. -/
structure RegUse where
  gr : List GReg
  gw : List GReg
  vr : List VReg
  vw : List VReg
  mr : List MReg
  mw : List MReg
deriving DecidableEq, Repr

def RegUse.none : RegUse := ⟨[], [], [], [], [], []⟩

def RegUse.add (a b : RegUse) : RegUse :=
  ⟨a.gr ++ b.gr, a.gw ++ b.gw, a.vr ++ b.vr, a.vw ++ b.vw, a.mr ++ b.mr, a.mw ++ b.mw⟩

def readsG (l : List GReg) : RegUse := { RegUse.none with gr := l }
def writesG (l : List GReg) : RegUse := { RegUse.none with gw := l }

def sdstW : SDst → RegUse | .g r => writesG [r] | .q _ => RegUse.none
/-- `SEL` reads its destination (R191). -/
def sdstR : SDst → RegUse | .g r => readsG [r] | .q _ => RegUse.none
def ssrcR : SSrc → RegUse | .g r => readsG [r] | .q _ => RegUse.none
def vdstW : VDst → RegUse | .g r => writesG [r] | .q _ => RegUse.none
def vsrcR : VSrc → RegUse | .g r => readsG [r] | .q _ => RegUse.none
/-- Payload registers of a message word (R288). -/
def payloadR (p : Fin 32) (n : Plen) : RegUse := readsG ((List.range n.val).map fun j => Fin.ofNat 32 (p.val + j))
/-- `g8` to `g15`, which a migrate message carries (R51). -/
def migrateR : RegUse := readsG [8, 9, 10, 11, 12, 13, 14, 15]

def pairLo (p : GPair) : GReg := ⟨2 * p.val, by omega⟩
def pairHi (p : GPair) : GReg := ⟨2 * p.val + 1, by omega⟩

/-- The registers of a word; a merging V word reads its destination too (R247). -/
def regUse : Instr → RegUse
  | .ldb d a _ | .ldbn d a _ | .ldh d a _ | .ldhn d a _ | .ldw d a _ | .ldwn d a _ | .ldd d a _
  | .accrd d a _ _ | .ftest d a | .jalr d a _ | .tcancel d a | .tqry d a | .csrrw d a _ | .wfm d a | .clz d a
  | .ctz d a | .popc d a | .brev d a | .bswap d a | .exts d a _ _ | .extz d a _ _ | .addi d a _ | .andi d a _
  | .ori d a _ | .xori d a _ | .slli d a _ | .srli d a _ | .srai d a _ | .rori d a _ | .slti d a _
  | .sltni d a _ | .fsqrt d a _ _ | .fclass d a _ | .fcvt d a _ _ _ | .frsqe d a _ | .frcpe d a _
  | .fexp2 d a _ | .flog2 d a _ | .fsin d a _ | .fcos d a _ | .ftanh d a _ | .fatan d a _ | .frsq d a _
  | .frcp d a _ => ⟨[a], [d], [], [], [], []⟩
  | .ldq d a _ => ⟨[a], [pairLo d, pairHi d], [], [], [], []⟩
  | .stb b a _ | .sth b a _ | .stw b a _ | .std b a _ => ⟨[b, a], [], [], [], [], []⟩
  | .stq b a _ => ⟨[pairLo b, pairHi b, a], [], [], [], [], []⟩
  | .vld v a m _ | .vldb v a m _ => ⟨[a], [], [v], [v], [m], []⟩
  | .vst v a m _ | .vacc v a _ m _ => ⟨[a], [], [v], [], [m], []⟩
  | .vlds v a b m _ => ⟨[a, b], [], [v], [v], [m], []⟩
  | .vsts v a b m _ => ⟨[a, b], [], [v], [], [m], []⟩
  | .vldx v a x m _ => ⟨[a], [], [v, x], [v], [m], []⟩
  | .vstx v a x m _ => ⟨[a], [], [v, x], [], [m], []⟩
  | .amoaddW d a b _ _ | .amoandW d a b _ _ | .amoorW d a b _ _ | .amoxorW d a b _ _ | .amominW d a b _ _
  | .amomaxW d a b _ _ | .amominnW d a b _ _ | .amomaxnW d a b _ _ | .amoswpW d a b _ _ | .amoaddD d a b _ _
  | .amoandD d a b _ _ | .amoorD d a b _ _ | .amoxorD d a b _ _ | .amominD d a b _ _ | .amomaxD d a b _ _
  | .amominnD d a b _ _ | .amomaxnD d a b _ _ | .amoswpD d a b _ _ | .tlbinv d a b | .capmint d a b
  | .mul d a b | .mulh d a b | .mulhn d a b | .mulhsn d a b | .div d a b | .divn d a b | .rem d a b
  | .remn d a b | .addsh d a b _ | .addw d a b | .subw d a b | .sllw d a b | .srlw d a b | .sraw d a b
  | .mulw d a b | .fadd d a b _ _ | .fsub d a b _ _ | .fmul d a b _ _ | .fdiv d a b _ _ | .fmin d a b _ _
  | .fmax d a b _ _ | .fsgnj d a b _ | .fsgnjn d a b _ | .fsgnjx d a b _ | .feq d a b _ | .flt d a b _
  | .fle d a b _ => ⟨[a, b], [d], [], [], [], []⟩
  | .amocasW d a b _ _ | .amocasD d a b _ _ => ⟨[d, a, b], [d], [], [], [], []⟩
  | .cas2 d a b _ _ => ⟨[pairLo d, pairHi d, a, pairLo b, pairHi b], [pairLo d, pairHi d], [], [], [], []⟩
  | .swp2 d a b _ _ => ⟨[a, pairLo b, pairHi b], [pairLo d, pairHi d], [], [], [], []⟩
  | .redFaddS a b _ _ | .redFaddD a b _ _ | .redIaddW a b _ _ | .redIaddD a b _ _ | .accinit a b _ _
  | .beq a b _ | .bne a b _ | .blt a b _ | .bge a b _ | .bltn a b _ | .bgen a b _ | .bara a b _ | .mma a b
  | .mqd a b => ⟨[a, b], [], [], [], [], []⟩
  | .accz a _ _ | .fwait a | .clean a _ | .invl a _ | .flush a _ | .zline a _ | .pref a _
  | .rep _ _ _ _ a _ _ _ | .csrw a _ | .csrs a _ | .csrc a _ | .ecall a => ⟨[a], [], [], [], [], []⟩
  | .fiss d _ _ | .jal d _ | .lui d _ | .addpc d _ | .csrr d _ | .halt d | .qcnt d _ => ⟨[], [d], [], [], [], []⟩
  | .bmany m _ | .bmall m _ => ⟨[], [], [], [], [m], []⟩
  | .send a b p n => (RegUse.mk [a, b] [] [] [] [] []).add (payloadR p n)
  | .spawn d a b p n | .launch d a b p n => (RegUse.mk [a, b] [d] [] [] [] []).add (payloadR p n)
  | .migr a _ => (RegUse.mk [a] [] [] [] [] []).add (migrateR)
  | .yield => (RegUse.mk [] [] [] [] [] []).add (migrateR)
  | .barw d a g _ => ⟨[a], [d, g], [], [], [], []⟩
  | .add d a b | .sub d a b | .and d a b | .or d a b | .xor d a b | .andn d a b | .orn d a b | .xnor d a b
  | .sll d a b | .srl d a b | .sra d a b | .rol d a b | .ror d a b | .min d a b | .max d a b | .minn d a b
  | .maxn d a b | .slt d a b | .sltn d a b => ((RegUse.mk [b] [] [] [] [] []).add (sdstW d)).add (ssrcR a)
  | .sel d a b => (((RegUse.mk [b] [] [] [] [] []).add (sdstW d)).add (ssrcR a)).add (sdstR d)
  | .ins d a _ _ => ⟨[d, a], [d], [], [], [], []⟩
  | .ffma d a b c _ _ | .ffms d a b c _ _ | .fnfma d a b c _ _ | .fnfms d a b c _ _ =>
    ⟨[a, b, c], [d], [], [], [], []⟩
  | .vadd d a b m _ | .vsub d a b m _ | .vmul d a b m _ | .vmulh d a b m _ | .vand d a b m _ | .vor d a b m _
  | .vxor d a b m _ | .vsll d a b m _ | .vsrl d a b m _ | .vsra d a b m _ | .vmin d a b m _ | .vmax d a b m _
  | .vminn d a b m _ | .vmaxn d a b m _ | .vfadd d a b m _ | .vfsub d a b m _ | .vfmul d a b m _
  | .vfdiv d a b m _ | .vfmin d a b m _ | .vfmax d a b m _ | .vsel d a b m _ | .vperm d a b m _
  | .vzip d a b m _ | .vunzip d a b m _ | .vdot4 d a b m _ | .vq8 d a b m _ _ => ⟨[], [], [d, a, b], [d], [m], []⟩
  | .vfsqrt d a m _ | .vcvt d a _ m _ _ | .vfrsqe d a m _ | .vfrcpe d a m _ => ⟨[], [], [d, a], [d], [m], []⟩
  | .vffma d a b c _ | .vffms d a b c _ | .vfnfma d a b c _ | .vfnfms d a b c _ =>
    ⟨[], [], [d, a, b, c], [d], [], []⟩
  | .veq d a b m _ | .vlt d a b m _ | .vltn d a b m _ | .vfeq d a b m _ | .vflt d a b m _ | .vfle d a b m _ =>
    ⟨[], [], [a, b], [], [m], [d]⟩
  | .vrsum d a m _ | .vrmin d a m _ | .vrmax d a m _ | .vrfsum d a m _ =>
    (RegUse.mk [] [] [a] [] [m] []).add (vdstW d)
  | .vbcast d a m _ => (RegUse.mk [] [] [d] [d] [m] []).add (vsrcR a)
  | .vext d a b m _ => (RegUse.mk [b] [] [a] [] [m] []).add (vdstW d)
  | .vins d a b m _ => ⟨[a, b], [], [d], [d], [m], []⟩
  | .mand d a b | .mor d a b | .mxor d a b => ⟨[], [], [], [], [a, b], [d]⟩
  | .mnot d a => ⟨[], [], [], [], [a], [d]⟩
  | .mpop d a | .mfirst d a => ⟨[], [d], [], [], [a], []⟩
  | .barq d a b _ => ⟨[], [], [d, a, b], [d], [], []⟩
  | _ => RegUse.none

end Sys2Proof
end

