-- ==== Sys2Proof/Machine/Stream.lean ====
section
/-!
DEFINITION. The V stream of a slot: the passes of the repetition buffer (R268), the start and the completion of its
words (R241 to R244, R249, R267, R270), and what it still has to read and write (R242).
-/
namespace Sys2Proof.Machine

/-! ## Staggered fields (R268) -/

/-- A word with its staggered `v` fields moved on by `n`; `f` moves field 0 to 3: vd, vs1, vs2, vs3. -/
def staggerWith (mv : Nat → VReg → VReg) : Instr → Instr
  | .vadd d a b m e => .vadd (mv 0 d) (mv 1 a) (mv 2 b) m e
  | .vsub d a b m e => .vsub (mv 0 d) (mv 1 a) (mv 2 b) m e
  | .vmul d a b m e => .vmul (mv 0 d) (mv 1 a) (mv 2 b) m e
  | .vmulh d a b m e => .vmulh (mv 0 d) (mv 1 a) (mv 2 b) m e
  | .vand d a b m e => .vand (mv 0 d) (mv 1 a) (mv 2 b) m e
  | .vor d a b m e => .vor (mv 0 d) (mv 1 a) (mv 2 b) m e
  | .vxor d a b m e => .vxor (mv 0 d) (mv 1 a) (mv 2 b) m e
  | .vsll d a b m e => .vsll (mv 0 d) (mv 1 a) (mv 2 b) m e
  | .vsrl d a b m e => .vsrl (mv 0 d) (mv 1 a) (mv 2 b) m e
  | .vsra d a b m e => .vsra (mv 0 d) (mv 1 a) (mv 2 b) m e
  | .vmin d a b m e => .vmin (mv 0 d) (mv 1 a) (mv 2 b) m e
  | .vmax d a b m e => .vmax (mv 0 d) (mv 1 a) (mv 2 b) m e
  | .vminn d a b m e => .vminn (mv 0 d) (mv 1 a) (mv 2 b) m e
  | .vmaxn d a b m e => .vmaxn (mv 0 d) (mv 1 a) (mv 2 b) m e
  | .vfadd d a b m f => .vfadd (mv 0 d) (mv 1 a) (mv 2 b) m f
  | .vfsub d a b m f => .vfsub (mv 0 d) (mv 1 a) (mv 2 b) m f
  | .vfmul d a b m f => .vfmul (mv 0 d) (mv 1 a) (mv 2 b) m f
  | .vfdiv d a b m f => .vfdiv (mv 0 d) (mv 1 a) (mv 2 b) m f
  | .vfsqrt d a m f => .vfsqrt (mv 0 d) (mv 1 a) m f
  | .vfmin d a b m f => .vfmin (mv 0 d) (mv 1 a) (mv 2 b) m f
  | .vfmax d a b m f => .vfmax (mv 0 d) (mv 1 a) (mv 2 b) m f
  | .vffma d a b c f => .vffma (mv 0 d) (mv 1 a) (mv 2 b) (mv 3 c) f
  | .vffms d a b c f => .vffms (mv 0 d) (mv 1 a) (mv 2 b) (mv 3 c) f
  | .vfnfma d a b c f => .vfnfma (mv 0 d) (mv 1 a) (mv 2 b) (mv 3 c) f
  | .vfnfms d a b c f => .vfnfms (mv 0 d) (mv 1 a) (mv 2 b) (mv 3 c) f
  | .veq d a b m e => .veq d (mv 1 a) (mv 2 b) m e
  | .vlt d a b m e => .vlt d (mv 1 a) (mv 2 b) m e
  | .vltn d a b m e => .vltn d (mv 1 a) (mv 2 b) m e
  | .vfeq d a b m f => .vfeq d (mv 1 a) (mv 2 b) m f
  | .vflt d a b m f => .vflt d (mv 1 a) (mv 2 b) m f
  | .vfle d a b m f => .vfle d (mv 1 a) (mv 2 b) m f
  | .vsel d a b m e => .vsel (mv 0 d) (mv 1 a) (mv 2 b) m e
  | .vrsum d a m e => .vrsum d (mv 1 a) m e
  | .vrmin d a m e => .vrmin d (mv 1 a) m e
  | .vrmax d a m e => .vrmax d (mv 1 a) m e
  | .vrfsum d a m f => .vrfsum d (mv 1 a) m f
  | .vperm d a b m e => .vperm (mv 0 d) (mv 1 a) (mv 2 b) m e
  | .vzip d a b m e => .vzip (mv 0 d) (mv 1 a) (mv 2 b) m e
  | .vunzip d a b m e => .vunzip (mv 0 d) (mv 1 a) (mv 2 b) m e
  | .vbcast d a m e => .vbcast (mv 0 d) a m e
  | .vext d a b m e => .vext d (mv 1 a) b m e
  | .vins d a b m e => .vins (mv 0 d) a b m e
  | .vcvt d a s m r t => .vcvt (mv 0 d) (mv 1 a) s m r t
  | .vdot4 d a b m t => .vdot4 (mv 0 d) (mv 1 a) (mv 2 b) m t
  | .vq8 d a b m t p => .vq8 (mv 0 d) (mv 1 a) (mv 2 b) m t p
  | .vfrsqe d a m f => .vfrsqe (mv 0 d) (mv 1 a) m f
  | .vfrcpe d a m f => .vfrcpe (mv 0 d) (mv 1 a) m f
  | .barq d a b c => .barq (mv 0 d) (mv 1 a) (mv 2 b) c
  | i => i

/-- A captured word in pass `j`. -/
def staggerInstr (stagger step j : Nat) (i : Instr) : Instr :=
  staggerWith (fun k r => if stagger / 2 ^ k % 2 = 1 then Fin.ofNat 32 (r.val + j * step) else r) i

/-- A captured entry as pass `j` runs it: after every word of the capture. -/
def Rep.entry (r : Rep) (j i : Nat) (e : VEntry) : VEntry :=
  { e with instr := staggerInstr r.stagger r.stride j e.instr, cap := some (j, i), order := r.last }

/-! ## What runs next -/

/-- The next pass word: pass `pass`, index `index` of a complete capture. -/
def Slot.nextPass (x : Slot) : Option VEntry :=
  match x.rep with
  | some r => if x.passesLeft then (r.captured[r.index]?).map fun e => r.entry r.pass r.index e else none
  | none => none

/-- The next word of the V stream, and the slot without it (R241, R267): queued words up to the last captured one, then
the passes, then the words queued after them. -/
def Slot.nextV (x : Slot) : Option (VEntry × Slot) :=
  let fromQueue : Option (VEntry × Slot) := match x.vq with | e :: t => some (e, { x with vq := t }) | [] => none
  let last := (x.rep.map Rep.last).getD 0
  match x.vq, x.nextPass with
  | e :: _, some p => if e.order ≤ last then fromQueue else some (p, x)
  | _, some p => some (p, x)
  | _, none => fromQueue

/-- After a pass word has run, the buffer moves on; it is idle after the last word of the last pass. -/
def Slot.stepPass (x : Slot) (e : VEntry) : Slot :=
  match e.cap, x.rep with
  | some (_ + 1, _), some r =>
    let r := if r.index + 1 < r.n then { r with index := r.index + 1 } else { r with index := 0, pass := r.pass + 1 }
    { x with rep := some r }.closeRep
  | some (0, _), some _ => x.closeRep
  | _, _ => x

/-- Every word that the V stream has still to run or complete. -/
def Slot.pendingV (x : Slot) : List Instr :=
  (x.vrun.toList.map fun r => r.1.instr) ++ x.vq.map (·.instr) ++
  (match x.rep with
   | some r =>
     if r.todo = 0 then
       (List.range (r.k - r.pass)).flatMap fun j =>
         ((r.captured.drop (if j = 0 then r.index else 0)).map fun e => staggerInstr r.stagger r.stride (r.pass + j) e.instr)
     else []
   | none => [])

/-! ## VECTOR_WORD_START, VECTOR_WORD_COMPLETION (R241, R243, R249) -/

/-- A shipped word leaves as the V stream starts it, with its register operands as they are now (R249). -/
def State.startShipped (s : State) (k : Nat) (x : Slot) (e : VEntry) (t : Fin 8) : State :=
  match x.window[t.val] with
  | some w =>
    match w.packet with
    | some p =>
      let p := { p with
        ops := vPacket e.instr x
        target := (s.shipTarget (coreOfSlot k)).bits 0 8 }
      let x := { x with vrun := some (e, VRes.none), window := x.window.set t.val (some { w with packet := some p }) }
      (s.setSlot k x).sendPacket p false
    | none => s.setSlot k x
  | none => s.setSlot k x

/-- A word of a pass, not of pass 0. -/
def VEntry.replayed (e : VEntry) : Bool := match e.cap with | some (_ + 1, _) => true | _ => false

/-- A word with a queue operand that is empty does not start, nor does a word of a later pass that names a queue while an
older shipped word is outstanding (R234); every other word of the stream waits behind it. -/
def Slot.canStart (x : Slot) (e : VEntry) : Bool :=
  (match vTakes e.instr with | some q => !(x.getQ q).isEmpty | none => true) &&
  !(e.replayed && ((vTakes e.instr).isSome || (vAppends e.instr).isSome) && !x.beforeShips e.order)

/-- The V stream of a slot starts its next word. -/
def State.startV (s : State) (k : Nat) : State :=
  let x := s.getSlot k
  if x.vrun.isSome then s
  else match x.nextV with
    | none => s
    | some (e, x) =>
      match e.tag with
      | some t => s.startShipped k x e t
      | none =>
        if !x.canStart e then s
        else
          let (tk, x) := x.vTake e.instr
          let r := evalV e.instr (vOps e.instr x e.gops tk) e.rm
          (s.setSlot k { x with vrun := some (e, r) }).post (.vectorWordCompletion k)

/-- The V stream of a slot has something to start or to complete: an event says so, once (R241). -/
def State.pokeV (s : State) (k : Nat) : State :=
  let x := s.getSlot k
  match x.vrun with
  | some (e, _) =>
    if e.tag.isNone && !s.agenda.contains (.vectorWordCompletion k) then s.post (.vectorWordCompletion k) else s
  | none =>
    if x.nextV.isSome && !s.agenda.contains (.vectorWordStart k) then s.post (.vectorWordStart k) else s

/-- The link register of a branch C word of the same pair, as it stood (R167). -/
def Slot.undoLink (x : Slot) (l : Option (GReg × Word)) : Slot :=
  match l with | some (r, w) => x.setG r w | none => x

/-- A V word that traps after it has issued has had no effect (R167, R422): `SPD` and `RETIRED` do not count it, and the link
write of a branch C word of its pair is undone. In a later pass the word has retired before, and a link register that a word
since has written keeps what that word wrote. -/
def Slot.undoWord (x : Slot) (e : VEntry) : Slot :=
  if e.replayed then
    match e.link with
    | some (r, w) => if x.getG r = e.addr + 8 then x.setG r w else x
    | none => x
  else { x.undoLink e.link with spd := e.spd, retired := e.retired }

/-- An exception of a V word (R167, R244, R270): no later work of the buffer takes place; it is taken, or held behind an
older shipped word (R234). -/
def State.raiseV (s : State) (k : Nat) (e : VEntry) (detail : Nat) (value : Word) : State :=
  let x := s.getSlot k
  let ex : Exc := ⟨Cause.fp.code, detail, false, value, e.addr, 0⟩
  let x := { x.undoWord e with vrun := none, rep := if e.cap.isSome then none else x.rep }
  let s := s.setSlot k x
  if x.shipping then s.setSlot k { x with heldTrap := some ex } else s.deliver k ex

/-- The words that can raise a flag, and so may overwrite `FCSR` (R67). -/
def mayFlag : Instr → Bool
  | .fadd .. | .fsub .. | .fmul .. | .fdiv .. | .fsqrt .. | .fmin .. | .fmax .. | .feq .. | .flt .. | .fle ..
  | .fcvt .. | .frsqe .. | .frcpe .. | .fexp2 .. | .flog2 .. | .fsin .. | .fcos .. | .ftanh .. | .fatan .. | .frsq ..
  | .frcp .. | .ffma .. | .ffms .. | .fnfma .. | .fnfms .. => true
  | i => serialV i

/-- History entries a word may need (R235). -/
def historyNeed (i : Instr) : Nat :=
  let x := regUse i
  (x.gw.filter (· != 0)).length + x.vw.length + (x.mw.filter (· != 0)).length + (if mayFlag i then 1 else 0)

/-- History entries taken (R235): those made, and those that the words issued since an older shipped word that is still
outstanding will make when they complete. -/
def Slot.historyUsed (x : Slot) : Nat :=
  let ships := x.window.toList.filterMap fun e => e.map fun e => (e.order, e.instr)
  let queued := (x.vq ++ (x.vrun.toList.map (·.1))).filterMap fun e =>
    if e.tag.isNone && !e.replayed then some (e.order, e.instr) else none
  x.history.length +
    (((ships ++ queued).filter fun w => x.shipOrders.any fun o => decide (o < w.1)).map fun w => historyNeed w.2).sum

/-- History entries that an effect needs (R235). -/
def vWrites (r : VRes) : Nat :=
  (if r.v.isSome then 1 else 0) + (if r.m.isSome then 1 else 0) + (if r.g.isSome then 1 else 0) +
  (if unionFlags r.raised = 0 then 0 else 1)

/-- The started word of a slot completes: its effect is applied, or its trap is taken; a result for a full queue waits. -/
def State.completeV (s : State) (k : Nat) : State :=
  let x := s.getSlot k
  match x.vrun with
  | none => s
  | some (e, r) =>
    if e.tag.isSome then s
    else
      let room := match r.q with | some (q, _) => decide ((x.getQ q).length < queueDepth) | none => true
      let space := !e.replayed || x.beforeShips e.order || decide (x.historyUsed + vWrites r ≤ 32)
      if !room || !space then s
      else if vTrapped e.te r then s.raiseV k e (capDetail e.cap) (vTrapVal e.te r)
      else
        let now := x.order
        let y := { ({ x with vrun := none }.applyV e.order r).stepPass e with order := now }
        ((s.setSlot k y).post (.vectorWordStart k)).poke k

def execVectorWordStart (s : State) : Out :=
  match s.agenda with
  | .vectorWordStart k :: t => .next ({ s with agenda := t }.startV k)
  | _ => .next s

def execVectorWordCompletion (s : State) : Out :=
  match s.agenda with
  | .vectorWordCompletion k :: t => .next ({ s with agenda := t }.completeV k)
  | _ => .next s

end Sys2Proof.Machine
end

