-- ==== Sys2Proof/Machine/ShipPath.lean ====
section
/-!
DEFINITION. The ship path after a packet has left its slot: the guest queue of a Bassoon and the run of an entry (R228,
R231, R232), replies (R230, R233 to R236), returned exceptions (R237, R435 to R437), and squash notices.
-/
namespace Sys2Proof.Machine

/-! ## SHIP_PACKET_ARRIVAL, SHIP_RESEND (R228, R231) -/

/-- Entries of a guest queue. -/
def guestDepth : Nat := 64

/-- A packet reaches a Bassoon: it enters at the tail of the guest queue, or a full queue refuses it. The entries of a
dead context are removed (R213); one that finds the Bassoon out of service goes on to ALT where R228 uses it, or returns SHIP
detail 1 (R436). -/
def State.packetArrival (s : State) (b : Nat) (p : ShipPacket) : State :=
  let c := s.getCore b
  if (s.getSlot p.slot).gen ≠ p.gen then s
  else if c.isolated then s.sendPacket p (alternates p.target && b == bassoonOf (dieOfSlot p.slot) p.target false)
  else if c.guest.length < guestDepth then s.setCore b { c with guest := c.guest ++ [p] }
  else { s with backoff := s.backoff ++ [.packet p (alternates p.target && b == bassoonOf (dieOfSlot p.slot) p.target false)] }

def execShipPacketArrival (s : State) : Out :=
  match s.agenda with
  | .shipPacketArrival b p :: t => .next ({ s with agenda := t }.packetArrival b p)
  | _ => .next s

/-- SHIP_RESEND: the interface sends a refused packet again, to ALT and HOME in turn or to HOME. -/
def execShipResend (s : State) : Out :=
  match s.agenda with
  | .shipResend p toAlt :: t =>
    let s := { s with agenda := t }
    .next (if s.backoff.contains (.packet p toAlt) then
      { s with backoff := s.backoff.erase (.packet p toAlt) }.sendPacket p toAlt else s)
  | _ => .next s

/-! ## GUEST_ENTRY_COMPLETION (R231, R232, R435) -/

/-- The sender of a packet as an access finds it (R232): its address space, logical core, slot and privilege, through
the TLB of the Bassoon. -/
def guestWho (b : Nat) (p : ShipPacket) : Who := ⟨p.ctx, p.lcore, p.slot % 4, p.supervisor, b, false, p.asid⟩

/-- A shipped FP word: a raised flag whose trap is enabled returns FP (R230, R431). -/
def fpReply (te : Nat) (r : Word × Nat) : ShipResult :=
  if r.2 &&& te = 0 then .clean r.2 (r.1.setWidth 512) else .exception Cause.fp.code 0 (fpTrapVal te r.2 0)

/-- The value a vector effect writes, as a reply carries it. -/
def vReplyValue (r : VRes) : VWord :=
  match r.v, r.m, r.g, r.q with
  | some (_, x), _, _, _ => x
  | _, some (_, x), _, _ | _, _, some (_, x), _ | _, _, _, some (_, x) => x.setWidth 512
  | _, _, _, _ => 0

/-- A shipped vector word. -/
def vReply (te : Nat) (r : VRes) : ShipResult :=
  if vTrapped te r then .exception Cause.fp.code 0 (vTrapVal te r) else .clean (unionFlags r.raised) (vReplyValue r)

/-- How a guest entry ends: a reply leaves, its reply comes from elsewhere, or it cannot yet perform. -/
inductive GuestEnd where
  | reply (r : ShipResult)
  | noReply | again
deriving DecidableEq, Repr

/-- A shipped `CAS2` or `SWP2`: its accesses are checked and performed in the sender's address space (R232, R238), the page
being the Bassoon's to use (R153). Where it must wait its turn at the line's home (R62, R144), and to a scratchpad, it goes on as
a message whose reply returns to the sender (R281): no reply leaves here. -/
def State.guestAtomic (s : State) (b : Nat) (p : ShipPacket) (i : Instr) (addr : Word) (d n : Nat) : State × GuestEnd :=
  match s.checkAll (guestWho b p) (dieOfCore b) .cas2 [(0, ⟨addr, 16, 16, false⟩)] with
  | (s, some f, _) =>
    match f.cause with
    | some c => (s, .reply (.exception c.code f.detail f.va))
    | none => (s.tableFailure (s.corePlace b) p.ctx, .noReply)
  | (s, none, (q, _) :: _) =>
    match q.kind with
    | .spad _ => (s.sendAtom p.ctx p.lcore i ⟨p.slot, p.gen, p.order, some p.tag, p.iword, q.pa, n, d⟩, .noReply)
    | k =>
      if k = .coh ∧ !s.pageReady q.pa b then (s.reclaim (guestWho b p) addr, .again)
      else if !s.atomicReady q then
        (s.post (.atomicAtHome ⟨p.slot, p.gen, p.order, some p.tag, p.iword, q.pa, n, d⟩ false false), .noReply)
      else
        let (s, old) := (s.leaveCopy (coreOfSlot p.slot) q).atomicAt (.slot p.ctx p.supervisor) q 16 (atomicFn i n d)
        (s, .reply (.clean 0 (BitVec.ofNat 512 old)))
  | (s, none, []) => (s, .noReply)

/-- Two doublewords as one 128-bit number. -/
def joinPair (lo hi : Word) : Nat := lo.toNat + hi.toNat * 2 ^ 64

/-- What a guest entry does. -/
def State.runGuest (s : State) (b : Nat) (p : ShipPacket) : State × GuestEnd :=
  match decodeWord (p.iword % 2 ^ 32) with
  | .error _ => (s, .noReply)
  | .ok i =>
    match p.ops with
    | .scalar x y z => (s, .reply (fpReply p.te (evalFp i x y z p.rm)))
    | .vector x y z m => (s, .reply (vReply p.te (evalV i ⟨x, y, z, m, 0, 0⟩ p.rm)))
    | .pair a dlo dhi blo bhi => s.guestAtomic b p i a (joinPair dlo dhi) (joinPair blo bhi)

/-- GUEST_ENTRY_COMPLETION: an issued entry completes and its reply leaves; replies may leave in any order. -/
def execGuestEntryCompletion (s : State) : Out :=
  match s.agenda with
  | .guestEntryCompletion b p :: t =>
    let s := { s with agenda := t }
    let c := s.getCore b
    .next (if c.running.contains p then
      match (s.setCore b { c with running := c.running.erase p }).runGuest b p with
      | (s, .reply r) => s.post (.shipReply p.slot p.gen p.tag p.order r)
      | (s, .noReply) => s
      | (s, .again) => (s.setCore b { s.getCore b with running := c.running }).post (.guestEntryCompletion b p)
    else s)
  | _ => .next s

/-! ## A returned exception (R237) -/

/-- Restores a logged register. -/
def Slot.restore (x : Slot) (u : Undo) : Slot :=
  match u with
  | .g r w => x.setG r w
  | .v r w => x.setV r w
  | .m r w => x.setM r w
  | .fcsr w => { x with fcsr := w }

/-- The slot as it stood before the words younger than X took effect: history restored newest first, `SPD` and
`RETIRED` restored, younger held stores dropped, a younger exception and younger V words discarded. -/
def Slot.rollback (x : Slot) (e : ShipEntry) : Slot :=
  let young := x.history.filter fun h => decide (e.order < h.1)
  let y := young.reverse.foldl (fun y h => y.restore h.2) x
  let y := y.undoLink e.link
  { y with
    history := x.history.filter fun h => decide (h.1 ≤ e.order)
    spd := e.spd
    retired := e.retired
    held := x.held.filter fun h => decide (h.order < e.order)
    heldTrap := none
    vq := x.vq.filter fun v => decide (v.order < e.order)
    vrun := match x.vrun with | some (v, r) => if v.order < e.order then some (v, r) else none | none => none
    rep := match x.rep with | some r => if r.todo ≠ 0 ∨ e.order < r.last then none else some r | none => none
    window := Vector.ofFn fun (i : Fin 8) => match x.window[i.val] with
      | some w => if w.order < e.order then some w else none
      | none => none }

/-- Whether the sender of a shipped word itself raised an exception of it: SHIP, or TIMEOUT with no reply at all (R436). A TIMEOUT
of the host comes back as a reply (R479; log 81). -/
def ownCause (cause detail : Nat) : Bool := cause == Cause.ship.code || (cause == Cause.timeout.code && detail == 0)

/-- The exception of a shipped word is taken: its younger shipped words are squashed, the slot is rolled back, and the
exception is delivered at the word, with REM set and DETAIL zero unless the sender itself raised it (R435, R436, R490). -/
def State.takeShipped (s : State) (k : Nat) (e : ShipEntry) (cause detail : Nat) (value : Word) : State :=
  let s := (s.getSlot k).window.toList.foldl (fun s w =>
    match w with | some w => if e.order < w.order ∧ w.reply.isNone then s.squashOne k w else s | none => s) s
  let s := s.setSlot k ((s.getSlot k).rollback e)
  let own := ownCause cause detail
  s.deliver k ⟨cause, if own then detail else 0, !own, value, e.addr, e.record⟩

/-- An exception reply whose word is now the oldest outstanding is taken; an exception that a local word holds is taken
once no shipped word is outstanding (R234). -/
def State.settleShips (s : State) (k : Nat) : State :=
  let x := s.getSlot k
  match x.oldestShip with
  | none =>
    match x.heldTrap with
    | some e => (s.setSlot k { x with heldTrap := none }).deliver k e
    | none => s
  | some o =>
    match x.window.toList.findSome? fun w => match w with | some w => if w.order = o then some w else none | none => none with
    | some w => match w.reply with
      | some (.exception c d v) => s.takeShipped k w c d v
      | _ => s
    | none => s

/-! ## A clean reply (R230, R236, R249) -/

/-- The queue that a shipped word appends to, if its result is for one. -/
def shipAppends (i : Instr) : Option QReg := vAppends i

/-- The destination of a shipped word receives the result; flags accrue; a scalar pair receives 128 bits (R230, R282). -/
def Slot.shipResult (x : Slot) (i : Instr) (flags : Nat) (value : VWord) : Slot :=
  let u := regUse i
  let x := match u.vw, u.mw, u.gw with
    | d :: _, _, _ => x.writeV d value
    | _, d :: _, _ => x.writeM d (value.setWidth 64)
    | _, _, [lo, hi] => (x.writeG lo (value.setWidth 64)).writeG hi ((value >>> 64).setWidth 64)
    | _, _, d :: _ => x.writeG d (value.setWidth 64)
    | _, _, _ => x
  let x := match shipAppends i with | some q => x.setQ q (x.getQ q ++ [value.setWidth 64]) | none => x
  x.accrue flags

/-- Frees the window entry of a word, and its place in the V stream. -/
def Slot.freeShip (x : Slot) (tag : Fin 8) : Slot :=
  { x with
    window := x.window.set tag.val none
    vrun := match x.vrun with | some (v, r) => if v.tag = some tag then none else some (v, r) | none => none }

/-- The registers of a slot after a clean reply for entry `e`: logged, in the place of `e` in program order, while an older
shipped word is outstanding. -/
def Slot.cleanReply (x : Slot) (tag : Fin 8) (e : ShipEntry) (flags : Nat) (value : VWord) : Slot :=
  { ({ x.freeShip tag with order := e.order }.shipResult e.instr flags value) with order := x.order }

/-- Held stores before every outstanding shipped word are released in order (R236); one whose line is not the core's to write
waits for it, with those behind it (R159). -/
def State.releaseStores (s : State) (k : Nat) : State :=
  let x := s.getSlot k
  match s.performHeld k (x.held.filter fun h => x.beforeShips h.order) with
  | (s, rest) => s.setSlot k { s.getSlot k with held := rest ++ x.held.filter fun h => !x.beforeShips h.order }

/-- Words before every outstanding shipped word keep no history, and their held stores are released (R236). -/
def State.releaseOlder (s : State) (k : Nat) : State :=
  let x := s.getSlot k
  (s.setSlot k { x with history := x.history.filter fun h => !x.beforeShips h.1 }).releaseStores k

/-- A slot whose released stores waited for lines tries again. -/
def State.retryStores (s : State) (k : Nat) : State :=
  if (s.getSlot k).held.isEmpty then s else ((s.releaseStores k).poke k)

/-- What follows a clean return (R236): with no older shipped word outstanding, the words before the next one are final. -/
def State.returned (s : State) (k order : Nat) : State :=
  let s := if (s.getSlot k).shipOrders.any fun o => decide (o < order) then s else s.releaseOlder k
  ((s.settleShips k).pokeV k).poke k

/-- Applies a clean reply. -/
def State.applyReply (s : State) (k : Nat) (tag : Fin 8) (e : ShipEntry) (flags : Nat) (value : VWord) : State :=
  (s.setSlot k ((s.getSlot k).cleanReply tag e flags value)).returned k e.order

/-- A reply for entry `e`: a clean one is applied, unless its queue is full; an exception is kept until every older
shipped word has returned (R237). -/
def State.shipReply (s : State) (k : Nat) (tag : Fin 8) (e : ShipEntry) (r : ShipResult) : State :=
  let x := s.getSlot k
  let keep := s.setSlot k { x with window := x.window.set tag.val (some { e with reply := some r }) }
  match r with
  | .clean flags value =>
    let room := match shipAppends e.instr with | some q => decide ((x.getQ q).length < queueDepth) | none => true
    if room then s.applyReply k tag e flags value else keep.returned k e.order
  | .exception .. => keep.settleShips k

/-- The entry of a window that a reply answers. -/
def Slot.shipEntryOf (x : Slot) (gen : Nat) (tag : Fin 8) (order : Nat) : Option ShipEntry :=
  match x.window[tag.val] with
  | some e => if x.gen = gen ∧ e.order = order ∧ e.reply.isNone then some e else none
  | none => none

/-- SHIP_REPLY: a reply that no entry waits for is discarded. -/
def execShipReply (s : State) : Out :=
  match s.agenda with
  | .shipReply k gen tag order r :: t =>
    let s := { s with agenda := t }
    .next (match (s.getSlot k).shipEntryOf gen tag order with
      | some e => s.shipReply k tag e r
      | none => s)
  | _ => .next s

/-- A clean reply that its slot holds because the queue was full is applied once an entry has been taken (R249). -/
def State.retryHeldReply (s : State) (k : Nat) : State :=
  let x := s.getSlot k
  match (List.finRange 8).findSome? fun t => match x.window[t.val] with
    | some e => match e.reply with
      | some (.clean f v) =>
        match shipAppends e.instr with
        | some q => if (x.getQ q).length < queueDepth then some (t, e, f, v) else none
        | none => none
      | _ => none
    | none => none with
  | some (t, e, f, v) => s.applyReply k t e f v
  | none => s

/-! ## SQUASH_NOTICE, SHIP_TIMEOUT (R237, R436) -/

/-- SQUASH_NOTICE: the queued or issued entry of a squashed word is removed. -/
def execSquashNotice (s : State) : Out :=
  match s.agenda with
  | .squashNotice b k gen order :: t =>
    let s := { s with agenda := t }
    let c := s.getCore b
    let other := fun (p : ShipPacket) => !(p.slot == k && p.gen == gen && p.order == order)
    .next (s.setCore b { c with guest := c.guest.filter other, running := c.running.filter other })
  | _ => .next s

/-- Whether the packet of an entry has been sent: a V word's leaves when its stream starts it. -/
def Slot.sent (x : Slot) (tag : Fin 8) : Bool := !x.vq.any fun v => v.tag == some tag

/-- SHIP_TIMEOUT: no reply within 2²⁶ mesh cycles of the first send (log 9): TIMEOUT, as though returned. -/
def execShipTimeout (s : State) : Out :=
  match s.agenda with
  | .shipTimeout k gen tag :: t =>
    let s := { s with agenda := t }
    let x := s.getSlot k
    .next (match x.window[tag.val] with
      | some e =>
        if x.gen = gen ∧ e.reply.isNone ∧ x.sent tag then
          s.shipReply k tag e (.exception Cause.timeout.code 0 (word ((e.packet.map ShipPacket.iword).getD 0)))
        else s
      | none => s)
  | _ => .next s

end Sys2Proof.Machine
end

