-- ==== Sys2Proof/Machine/Home.lean ====
section
/-!
DEFINITION. What takes place at the home of an access: updates of accumulator lines and their refusal (R89, R114, R143,
R448), reads and evictions of such lines (R114, R116, R450), remote atomics (R144, R281, R444), and the completion of
fence tokens (R132).
-/
namespace Sys2Proof.Machine

/-- The ACCN of the granule of an address, if its home finds it of class ACC. -/
def State.accGranule (s : State) (pa : Nat) : Option Nat :=
  match s.classify (homeDie pa) pa with | .ok ⟨.acc n, _⟩ => some n | _ => none

/-! ## NRU_UPDATE (R89, R114, R448) -/

/-- Why the home slice refuses an update of a line (R448). -/
def State.updateDetail (s : State) (line : Nat) (ty : AccType) (contrib : Nat) : Option Nat :=
  if !s.typed line then some 2
  else
    let st := s.accState line
    if st.ty ≠ ty then some 3 else if st.ordered && decide (st.n ≤ contrib) then some 4 else none

/-- One element of an update: of the base line in fast mode, else of the contributor's slot line (R114). Poison stays. -/
def State.applyElem (s : State) (n : Nat) (st : AccState) (contrib pa x : Nat) : State :=
  let a := if st.ordered then slotLine n pa contrib else pa
  s.writeMem a (accSize st.ty) (accAdd st.ty (s.readMem a (accSize st.ty)) x)

/-- The elements of an accepted update, lowest first; an ordered line becomes DIRTY. -/
def State.applyUpdate (s : State) (n line contrib : Nat) (elems : List (Nat × Nat)) : State :=
  let st := s.accState line
  let s := elems.foldl (fun s e => s.applyElem n st contrib e.1 e.2) s
  { s with acc := tabSet s.acc line { st with dirty := st.dirty || st.ordered, resident := true } }

/-- NRU_UPDATE: applied on arrival, or refused and unchanged. -/
def State.nruUpdate (s : State) (u : NruUpdate) : State :=
  match u.elems with
  | [] => s.updateDone u.slot u.gen u.id
  | (pa, va, _) :: _ =>
    match s.updateDetail (lineOf pa) u.ty u.contrib with
    | none =>
      (s.applyUpdate u.accn (lineOf pa) u.contrib (u.elems.map fun e => (e.1, e.2.2.toNat))).updateDone u.slot u.gen u.id
    | some d => s.post (.updateRefusal u d va)

def execNruUpdate (s : State) : Out :=
  match s.agenda with
  | .nruUpdate u :: t => .next ({ s with agenda := t }.nruUpdate u)
  | _ => .next s

/-! ## UPDATE_REFUSAL (R448) -/

/-- The report of a refused update whose activation has ended: SAVED 0 and pc 0. -/
def State.refusalReport (s : State) (u : NruUpdate) (d : Nat) (va : Word) : Report :=
  ⟨Cause.cls.code, false, u.ctx, none, u.lcore, 0, va, u.taskId, d ||| 0x8000, s.slotIdOf u.slot, 0⟩

/-- The first refusal of an activation: the slot takes the fault path at its next bundle boundary, which for a slot at a
safe point is now; the refusal of an activation that has ended is reported. -/
def State.firstRefusal (s : State) (u : NruUpdate) (d : Nat) (va : Word) : State :=
  let x := s.getSlot u.slot
  if x.active ∧ x.gen = u.gen then
    match x.phase with
    | .saving .. =>
      let e : Exc := ⟨Cause.cls.code, d ||| 0x8000, false, va, x.pc, 0⟩
      (s.setSlot u.slot { x with phase := .faulting e }).post (.faultPath u.slot)
    | _ => s.setSlot u.slot { x with refusal := some (d, va) }
  else s.reportEnded (s.slotPlace u.slot) u.supervisor (s.refusalReport u d va)

/-- A later refusal of an activation appears in a syndrome record only, whose detail is how many there have been. The spec gives
the count no other place: DESIGN CHOICE (log 76), unsafe. -/
def State.laterRefusal (s : State) (u : NruUpdate) (va : Word) (n : Nat) : State :=
  s.logRecord (dieOfSlot u.slot) ⟨0, 1, Cause.cls.code, 0, some u.ctx, some (va.toNat, false), s.slotPlace u.slot, n⟩

/-- UPDATE_REFUSAL: later refusals of an activation are counted only; a refused update counts as performed. -/
def State.updateRefusal (s : State) (u : NruUpdate) (d : Nat) (va : Word) : State :=
  let x := s.getSlot u.slot
  let n := if x.refusals.1 = u.gen then x.refusals.2 else 0
  let s := s.setSlot u.slot { x with refusals := (u.gen, n + 1) }
  (if n = 0 then s.firstRefusal u d va else s.laterRefusal u va (n + 1)).updateDone u.slot u.gen u.id

def execUpdateRefusal (s : State) : Out :=
  match s.agenda with
  | .updateRefusal u d va :: t => .next ({ s with agenda := t }.updateRefusal u d va)
  | _ => .next s

/-! ## ACCUMULATOR_READ, ACCUMULATOR_EVICTION (R114, R116, R450) -/

/-- The poison list with every word of a line. -/
def State.poisonLine (s : State) (line : Nat) : State :=
  { s with poison := s.poison ++ ((List.range 16).map (line / 8 + ·)).filter fun w => !s.poison.contains w }

/-- The 16 metadata bits of a line are lost: it is untyped, its base line is poisoned, and its slot lines are discarded, if it
was typed. -/
def State.loseMeta (s : State) (n line : Nat) : State :=
  let s := (if s.typed line then s.clearSlots n line 128 (s.accState line).n else s).poisonLine line
  ({ s with acc := tabErase s.acc line }).logRecord (homeDie line)
    ⟨1, 1, 5, 0, none, some (line, true), location 1 (sliceOf line) s.pkg (homeDie line) 0, line⟩

/-- ACCUMULATOR_READ: a read of a base line by any agent, with its metadata found lost or not. -/
def execAccumulatorRead (s : State) : Out :=
  match s.agenda with
  | .accumulatorRead line metaLost :: t =>
    let s := { s with agenda := t }
    let line := lineOf line
    .next (match s.accGranule line with
      | some n => if metaLost then s.loseMeta n line else s.combine n line
      | none => s)
  | _ => .next s

/-- ACCUMULATOR_EVICTION: base line, slot lines and state go to DRAM as one; where DRAM has not acknowledged them all, the
line stays resident and the write is tried again. -/
def execAccumulatorEviction (s : State) : Out :=
  match s.agenda with
  | .accumulatorEviction line acked :: t =>
    let s := { s with agenda := t }
    let line := lineOf line
    .next (if s.typed line then
      if acked then { s with acc := tabSet s.acc line { s.accState line with resident := false } }
      else s.logRecord (homeDie line)
        ⟨1, 0, 6, 2, none, some (line, true), location 1 (sliceOf line) s.pkg (homeDie line) 0, line⟩
    else s)
  | _ => .next s

/-! ## Remote atomics (R144, R281, R444) -/

/-- Whether a micro-handler's word is a reduction. -/
def isRed : Instr → Bool
  | .redFaddS .. | .redFaddD .. | .redIaddW .. | .redIaddD .. => true
  | _ => false

/-- The lowest poisoned word that `n` bytes meet. -/
def State.poisonedWord (s : State) (pa n : Nat) : Option Nat :=
  ((List.range ((pa + n - 1) / 8 + 1 - pa / 8)).map (pa / 8 + ·)).find? fun w => s.poison.contains w

/-- The micro-handler of a scratchpad line: old value read, new value written, as one; a reduction that meets poison
merges its bytes and the word stays poisoned, any other word replies POISON. -/
def State.microHandler (s : State) (a : AtomMsg) : State :=
  match decodeWord (a.iword % 2 ^ 32) with
  | .error _ => s
  | .ok i =>
    let n := atomicSize i
    let poisoned := if isRed i then none else s.poisonedWord a.pa n
    match poisoned with
    | some w => s.post (.remoteAtomicReply a (.poison w))
    | none =>
      let old := s.readMem a.pa n
      let s := match atomicCut i a.operand a.comparand old with
        | some x => let t := s.writeMem a.pa n x; if isRed i then t else t.unpoison [(a.pa, n)]
        | none => s
      s.post (.remoteAtomicReply a (.old old))

/-- REMOTE_ATOMIC_MESSAGE. -/
def execRemoteAtomicMessage (s : State) : Out :=
  match s.agenda with
  | .remoteAtomicMessage a :: t => .next ({ s with agenda := t }.microHandler a)
  | _ => .next s

/-- A shipped `CAS2` or `SWP2` receives its reply at the sender (R281). -/
def State.shippedReply (s : State) (a : AtomMsg) (tag : Fin 8) (r : AtomReply) : State :=
  let x := s.getSlot a.slot
  match x.window[tag.val] with
  | some e =>
    if x.gen = a.gen ∧ e.order = a.id ∧ e.reply.isNone then
      match r with
      | .old v => s.shipReply a.slot tag e (.clean 0 (BitVec.ofNat 512 v))
      | .poison w =>
        let va : Word := match e.packet with | some p => (match p.ops with | .pair va .. => va | _ => 0) | none => 0
        s.shipReply a.slot tag e (.exception Cause.poison.code 2 (poisonVa va w))
    else s
  | none => s

/-- REMOTE_ATOMIC_REPLY: the acknowledgement of a `RED`, or the old value for the word that waits. -/
def State.atomicReply (s : State) (a : AtomMsg) (r : AtomReply) : State :=
  match a.tag with
  | some tag => s.shippedReply a tag r
  | none =>
    match decodeWord (a.iword % 2 ^ 32) with
    | .error _ => s
    | .ok i =>
      if isRed i then s.updateDone a.slot a.gen a.id
      else
        let x := s.getSlot a.slot
        if x.gen = a.gen ∧ x.wait = some .sent then
          (s.setSlot a.slot { x with wait := some (match r with | .old v => .old v | .poison w => .poison w) }).poke a.slot
        else s

def execRemoteAtomicReply (s : State) : Out :=
  match s.agenda with
  | .remoteAtomicReply a r :: t => .next ({ s with agenda := t }.atomicReply a r)
  | _ => .next s

/-- The atomics that wait at the home of a line, oldest first. -/
def State.atomicsOf (s : State) (line : Nat) : List (AtomMsg × Bool) := s.atHome.filter fun a => lineOf a.1.pa == line

/-- The reply of an atomic that has performed at its home: it leaves the package, or goes to the word that waits for it. -/
def State.homeReply (s : State) (a : AtomMsg) (outside : Bool) (r : AtomReply) : State :=
  if outside then s else s.post (.remoteAtomicReply a r)

/-- The next atomic to a line takes its turn. -/
def State.nextAtomic (s : State) (line : Nat) : State :=
  match s.atomicsOf line with
  | (b, outside) :: _ => s.post (.atomicAtHome b outside true)
  | [] => s

/-- An atomic whose turn it is at the unit that R144 names: every cached copy is recalled first; it performs, or meets poison
(R444), and the next one follows. -/
def State.performAtomic (s : State) (a : AtomMsg) (outside : Bool) : State :=
  let line := lineOf a.pa
  let done := { s with atHome := s.atHome.erase (a, outside) }
  match decodeWord (a.iword % 2 ^ 32), s.classify (s.lineHome line) a.pa with
  | .ok i, .ok p =>
    match s.poisonedWord a.pa (atomicSize i) with
    | some w => (done.homeReply a outside (.poison w)).nextAtomic line
    | none =>
      if p.kind.byHardware && !s.lineFree line then (s.recallLine line).post (.atomicAtHome a outside true)
      else
        let (s, old) := done.atomicAt (if outside then .host else .slot 0 false) p (atomicSize i) (atomicCut i a.operand a.comparand)
        (s.homeReply a outside (.old old)).nextAtomic line
  | _, _ => done.nextAtomic line

/-- ATOMIC_AT_HOME: an atomic arrives at the home of its line, where atomics are served first in, first out (R62, R128); or one
that waits there is looked at again. (An atomic that finds its line free and nobody before it performs in the step that issues
it: log 7.) -/
def execAtomicAtHome (s : State) : Out :=
  match s.agenda with
  | .atomicAtHome a outside queued :: t =>
    let s := { s with agenda := t }
    .next (if queued then (if s.atHome.contains (a, outside) then s.performAtomic a outside else s)
      else
        let first := !s.atomicQueued (lineOf a.pa)
        let s := { s with atHome := s.atHome ++ [(a, outside)] }
        if first then s.performAtomic a outside else s)
  | _ => .next s

/-! ## FENCE_TOKEN_COMPLETION (R132, R143) -/

/-- Whether what the token of a `TLBINV` or `HALT` waits for has still to take place (R61, R212, R213). -/
def State.awaited (s : State) : Await → Bool
  | .message m =>
    (s.agenda.any fun e => match e with
      | .taskMessageArrival _ _ n _ | .blockMessage _ _ _ n _ => n == m
      | _ => false) ||
    s.backoff.any fun r => match r with | .message _ n _ _ => n == m | _ => false
  | .update id => s.agenda.any fun e => match e with | .nruUpdate u | .updateRefusal u _ _ => u.id == id | _ => false
  | .field pte => s.agenda.contains (.llTlbEviction pte) || s.pages.any fun p => p.1 == pte && (p.2.recalling || p.2.evicting)
  | .atomics k gen =>
    (s.agenda.any fun e => match e with
      | .remoteAtomicMessage a | .atomicAtHome a false _ => a.slot == k && a.gen == gen
      | _ => false) ||
    s.atHome.any fun a => !a.2 && a.1.slot == k && a.1.gen == gen
  | .atomic a =>
    (s.agenda.any fun e => match e with
      | .remoteAtomicMessage b | .atomicAtHome b false _ => a == b
      | _ => false) || s.atHome.contains (a, false)
  | .command lock => s.dies.any fun (d : Nat × Die) =>
    d.2.bteQ.toList.any (fun q => q.any fun c => c.lock == lock) || d.2.mxeQ.toList.any (fun q => q.any fun c => c.lock == lock)
  | .store k gen order => let x := s.getSlot k; x.gen == gen && x.held.any fun h => h.order == order

/-- A token is complete where its entry is still live. -/
def State.completeToken (s : State) (k gen : Nat) (e : Fin 8) (seq : Nat) : State :=
  let x := s.getSlot k
  match x.tokens[e.val] with
  | some tok =>
    if x.gen = gen ∧ tok.seq = seq ∧ tok.need = [] then
      s.setSlot k { x with tokens := x.tokens.set e.val (some { tok with complete := true }) }
    else s
  | none => s

/-- A dead context whose `HALT` has completed can be made live by a write of its `ASIDR` (R213). -/
def State.haltEnds (s : State) (c : Nat) : State :=
  if (s.getCtx c).live then s else s.setCtx c { s.getCtx c with haltDone := true }

/-- FENCE_TOKEN_COMPLETION: every covered access of a token has performed; that of a `TLBINV` or `HALT` waits on while
something it awaits has not. -/
def execFenceTokenCompletion (s : State) : Out :=
  match s.agenda with
  | .fenceTokenCompletion k gen e seq awaits halts :: t =>
    let s := { s with agenda := t }
    .next (if awaits.any s.awaited then s.post (.fenceTokenCompletion k gen e seq awaits halts)
      else
        let s := match halts with | some c => s.haltEnds c | none => s
        s.completeToken k gen e seq)
  | _ => .next s

end Sys2Proof.Machine
end

