-- ==== Sys2Proof/Machine/Coherence.lean ====
section
/-!
DEFINITION. Coherence (R151 to R162): the classification of pages, the line protocol of caches, homes and die proxies,
and the requests of the host and of other packages. The bytes of a line are held once, in memory (log 7): the protocol
moves the right to use them.
-/
namespace Sys2Proof.Machine

/-! ## CLAIM, RECALL, RECALL_ACK, LL_TLB_EVICTION (R153 to R155) -/

def State.setPage (s : State) (pte : Nat) (p : Page) : State := { s with pages := tabSet s.pages pte p }

/-- The owner field of a leaf, if it is not none. -/
def State.getPage (s : State) (pte : Nat) : Option Page := (s.pages.find? fun p => p.1 == pte).map (·.2)

/-- Whether some cache or directory has a line of a page. -/
def State.pageHeld (s : State) (e : TlbEntry) : Bool :=
  (s.caches.any fun (c : Nat × CState) => leafHolds e (c.1 / 8192)) || s.homes.any fun (h : Nat × HState) => leafHolds e (h.1 / 32)

/-- A claimant is told how its page is classified: its TLBs take the mark. -/
def State.tell (s : State) (agent pte : Nat) (own : Bool) : State := if isHostAgent agent then s else s.markLeaf agent pte own

/-- A claim of a page with no owner: private to its claimant, or shared where the claimant can own no page, or where lines of
the page are cached already (a host's, or those of another PTE of the page: log 57). -/
def State.firstClaim (s : State) (e : TlbEntry) (agent : Nat) (mayOwn : Bool) : State :=
  let own := mayOwn && s.ownerAgent agent && !s.pageHeld e
  (s.setPage e.pte ⟨if own then .priv (agent / 256) (agent % 256) else .shared, e, false, false, []⟩).tell agent e.pte own

/-- A claimant waits for the recall of a page. -/
def Page.wait (p : Page) (agent : Nat) : Page :=
  { p with recalling := true, waiting := if p.waiting.contains agent then p.waiting else p.waiting ++ [agent] }

/-- CLAIM at the classifying die, whose LL-TLB holds the leaf with its owner field: compare-and-set. -/
def State.claim (s : State) (e : TlbEntry) (agent : Nat) (mayOwn : Bool) : State :=
  let s := (s.holdLeaf e (llTlb (homeDie e.pte))).noteClass [llTlb (homeDie e.pte)] e.pa
  match s.getPage e.pte with
  | none => s.firstClaim e agent mayOwn
  | some p =>
    match p.owner with
    | .none => s.firstClaim e agent mayOwn
    | .shared => if p.evicting then s.setPage e.pte (p.wait agent) else s.tell agent e.pte false
    | .priv d a =>
      if mayOwn ∧ agent = d * 256 + a ∧ !p.recalling then s.tell agent e.pte true
      else if p.recalling then s.setPage e.pte (p.wait agent)
      else (s.setPage e.pte (p.wait agent)).post (.recall e.pte)

def execClaim (s : State) : Out :=
  match s.agenda with
  | .claim e agent mayOwn :: t => .next ({ s with agenda := t }.claim e agent mayOwn)
  | _ => .next s

/-- Whether a slot of an agent still has to make the access that made its claim (R154, step 2). -/
def State.claimPending (s : State) (agent pte : Nat) : Bool :=
  !(s.getCore agent).isolated && (List.range 4).any fun i => (s.getSlot (slotKey agent i)).claims pte

/-- RECALL at the owner: once its accesses under way and the one that made its claim have completed, it cleans and invalidates
its lines of the page, and its TLB copies of the field turn to shared. -/
def State.recall (s : State) (pte : Nat) : State :=
  match s.getPage pte with
  | none => s
  | some p =>
    match p.owner with
    | .priv d a =>
      let mine := fun (c : Nat × CState) => c.1 % 8192 == d * 256 + a && leafHolds p.leaf (c.1 / 8192)
      if (s.caches.any fun c => mine c && c.2.moving) || s.claimPending (d * 256 + a) pte then s.post (.recall pte)
      else ({ s with caches := s.caches.filter fun c => !mine c }.markLeaf (d * 256 + a) pte false).post (.recallAck pte)
    | _ => s

def execRecall (s : State) : Out :=
  match s.agenda with
  | .recall pte :: t => .next ({ s with agenda := t }.recall pte)
  | _ => .next s

/-- A field is gone; claims that met its eviction are served afresh (R155). -/
def State.dropField (s : State) (pte : Nat) (p : Page) : State :=
  p.waiting.foldl (fun s a => s.post (.claim p.leaf a (s.ownerAgent a))) { s with pages := tabErase s.pages pte }

/-- RECALL_ACK: the page is shared and every waiting claimant is answered; a recall for an eviction leaves no field. -/
def execRecallAck (s : State) : Out :=
  match s.agenda with
  | .recallAck pte :: t =>
    let s := { s with agenda := t }
    .next (match s.getPage pte with
      | some p =>
        if !p.recalling then s
        else if p.evicting then s.dropField pte p
        else p.waiting.foldl (fun s a => s.tell a pte false)
          (s.setPage pte { p with owner := .shared, recalling := false, waiting := [] })
      | none => s)
  | _ => .next s

/-- The lines of a page that a cache or a directory has. -/
def State.pageLines (s : State) (e : TlbEntry) : List Nat :=
  (((s.caches.map fun (c : Nat × CState) => c.1 / 8192) ++ s.homes.map fun (h : Nat × HState) => h.1 / 32).filter (leafHolds e)).dedup

/-- LL_TLB_EVICTION of the entry that holds an authoritative field: of a private page, a recall of its owner; of a shared
one, a recall of every copy through the home directories, until none is left. No field is left. -/
def State.evictField (s : State) (pte : Nat) : State :=
  match s.getPage pte with
  | none => s
  | some p =>
    let key := llTlb (homeDie pte)
    let c := s.getCore key
    let s := s.setCore key { c with tlb := c.tlb.filter fun (e : TlbEntry) => e.pte != pte }
    match p.owner with
    | .none => { s with pages := tabErase s.pages pte }
    | .priv _ _ =>
      let s' := s.setPage pte { p with recalling := true, evicting := true }
      if p.recalling then s' else s'.post (.recall pte)
    | .shared =>
      if s.pageHeld p.leaf then
        ((s.pageLines p.leaf).foldl (fun s line => s.homeRecall line (s.lineHome line))
          (s.setPage pte { p with evicting := true })).post (.llTlbEviction pte)
      else s.dropField pte p

def execLlTlbEviction (s : State) : Out :=
  match s.agenda with
  | .llTlbEviction pte :: t => .next ({ s with agenda := t }.evictField pte)
  | _ => .next s

/-! ## PAGE_WALK (R97, R98, R118) -/

/-- The PTEs that a walk reads. -/
def State.walkPath (s : State) (va : Nat) : List Nat → Nat → List Nat
  | [], _ => []
  | level :: rest, table =>
    let a := table + 8 * (va / 2 ^ (12 + 9 * level) % 512)
    let pte := s.readMem a 8
    a :: (if nbit pte 0 && !(nbit pte 1 || nbit pte 3) then s.walkPath va rest (pte / 2 ^ 10 % 2 ^ 44 * 4096) else [])

/-- The first PTE of a walk of the housekeeping hart that lies outside its partition (R361). -/
def State.walkViolation (s : State) (core ctx : Nat) (va : Word) : Option Nat :=
  if core = housekeepingAgent then
    (s.walkPath (va.toNat % 2 ^ 57) [4, 3, 2, 1, 0] ((s.getCtx ctx).asidr.bits 0 44 * 4096)).find? fun a => !s.housekeepingMay a 8 true
  else none

/-- PAGE_WALK for an address, on behalf of a DZ core, a Shawm or an engine: the TLBs take the leaf, if the walk finds one that
permits the access. -/
def execPageWalk (s : State) : Out :=
  match s.agenda with
  | .pageWalk core ctx supervisor va write :: t =>
    let s := { s with agenda := t }
    let engine := decide (160 ≤ core % 256) && decide (core % 256 < 172) && decide (core / 256 < 24)
    match s.walkViolation core ctx va with
    | some a => .next (s.post (.housekeepingRangeViolation a))
    | none =>
    .next (if canonical va && !inAperture va && (s.getCtx ctx).live && (engine || s.ownerAgent core) then
      (s.transPage ⟨ctx, 0, 0, supervisor, core, engine, s.asidOf ctx⟩ va ⟨!write, write, false⟩).1 else s)
  | _ => .next s

/-! ## Requests at a directory (R156 to R160, R162) -/

/-- What a directory may give: everything, a shared copy, or nothing yet. -/
inductive Grant where
  | full | share | none
deriving DecidableEq, Repr

/-- At the home, what it has the right to; at a proxy, what the proxy holds. -/
def State.grant (s : State) (line die : Nat) : Grant :=
  if die = s.lineHome line then (if s.homeOwns line then .full else .share)
  else match s.cst line (proxyOf die) with
    | some .e | some .m => .full
    | some .s | some (.smAD _) | some (.smA _) => .share
    | _ => .none

/-- A request waits; a proxy that holds too little asks the home, once its L2 has room for the line. -/
def State.waitAt (s : State) (line die a : Nat) (exclusive : Bool) : State :=
  let again := { s with waiters := s.waiters ++ [⟨line, die, a, exclusive⟩] }
  if die = s.lineHome line then again
  else match s.cst line (proxyOf die) with
    | none =>
      if s.fits (proxyOf die) [line] then
        (again.setCst line (proxyOf die) (some (if exclusive then .imAD 0 else .isD))).post
          (if exclusive then .getm line (proxyOf die) true else .gets line (proxyOf die) true)
      else (s.makeRoom (proxyOf die) line []).post (if exclusive then .getm line a true else .gets line a true)
    | some .s => let s := again; if exclusive then (s.setCst line (proxyOf die) (some (.smAD 0))).post (.getm line (proxyOf die) true) else s
    | _ => again

/-- Requests that waited for a line at a directory are looked at again. -/
def State.wake (s : State) (line die : Nat) : State :=
  let mine := fun (w : Waiter) => w.line == line && w.die == die
  (s.waiters.filter mine).foldl (fun s w => s.post (if w.exclusive then .getm line w.agent true else .gets line w.agent true))
    { s with waiters := s.waiters.filter fun w => !mine w }

/-- A line with an agent added to its sharers. -/
def addSharer (l : List Nat) (a : Nat) : List Nat := if l.contains a then l else l ++ [a]

/-- GetS at a directory. -/
def State.getsAt (s : State) (line die a : Nat) : State :=
  match s.hst line die with
  | some (.s l) => (s.setHst line die (some (.s (addSharer l a)))).post (.data line a 0 false)
  | some (.o o) => (s.setHst line die (some (.sd [o, a]))).post (.fwdGets line o a)
  | some _ => s.waitAt line die a false
  | none =>
    let s := if die = s.lineHome line then s.obtain line false else s
    match s.grant line die with
    | .full => (s.setHst line die (some (.o a))).post (.data line a 0 true)
    | .share => (s.setHst line die (some (.s [a]))).post (.data line a 0 false)
    | .none => s.waitAt line die a false

/-- GetM at a directory. -/
def State.getmAt (s : State) (line die a : Nat) : State :=
  let s := if die = s.lineHome line then s.obtain line true else s
  if s.grant line die ≠ .full then s.waitAt line die a true
  else
    let s := if s.cst line (proxyOf die) = some .e then s.setCst line (proxyOf die) (some .m) else s
    match s.hst line die with
    | some (.s l) =>
      let others := l.filter (· ≠ a)
      others.foldl (fun s c => s.post (.inv line c a))
        ((s.setHst line die (some (.o a))).post (.data line a others.length true))
    | some (.o o) => (s.setHst line die (some (.o a))).post (.fwdGetm line o a)
    | some _ => s.waitAt line die a true
    | none => (s.setHst line die (some (.o a))).post (.data line a 0 true)

/-- An agent is no holder any more. -/
def HState.without (h : HState) (a : Nat) : Option HState :=
  match h with
  | .s l => if (l.filter (· ≠ a)).isEmpty then none else some (.s (l.filter (· ≠ a)))
  | .sd l => some (.sd (l.filter (· ≠ a)))
  | .o k => if k = a then none else some (.o k)
  | .rc n => some (.rc n)

/-- A Put at a directory: the owner's leaves no copy, and dirty data of it makes a proxy's copy M; a sharer is removed; every
Put is acknowledged. A host line that nobody has any more goes back by DirtyEvict or CleanEvict. -/
def State.putAt (s : State) (line die a : Nat) (dirty : Bool) : State :=
  let proxy := proxyOf die
  let s := match s.hst line die with
    | some h =>
      let s := if dirty ∧ h = HState.o a ∧ s.cst line proxy = some CState.e then s.setCst line proxy (some .m) else s
      let s := s.setHst line die (h.without a)
      if die = s.lineHome line ∧ h.without a = none then s.giveBack line else s
    | none => s
  s.post (.putAck line a)

/-- A request of an agent at its directory; one for a line of a private page has none (R156). -/
def State.request (s : State) (line a : Nat) (exclusive : Bool) : State :=
  match s.privateOwner line with
  | some o =>
    if o = a then s.post (.data line a 0 true)
    else s.post (if exclusive then .getm line a true else .gets line a true)
  | none => if exclusive then s.getmAt line (s.levelOf line a) a else s.getsAt line (s.levelOf line a) a

/-- The kind of a line as an agent finds it. -/
def State.kindFor (s : State) (line a : Nat) : MemKind :=
  match s.classify (a / 256) line with | .ok p => p.kind | .error _ => .dev

/-- GETS: a load misses and its request leaves; the request arrives. A host asks by HOST_MEMORY_REQUEST only (R161). -/
def execGets (s : State) : Out :=
  match s.agenda with
  | .gets line a sent :: t =>
    let s := { s with agenda := t }
    let l := lineOf line
    .next (if sent then s.request l a false else if isHostAgent a then s
      else if a = housekeepingAgent ∧ !s.housekeepingMay l 128 false then s.post (.housekeepingRangeViolation l)
      else s.missLoad (s.kindFor l a) [] l a)
  | _ => .next s

/-- GETM: a store misses and its request leaves; the request arrives. One of a home itself displaces a directory entry: it
recalls the line from every holder (R157). -/
def execGetm (s : State) : Out :=
  match s.agenda with
  | .getm line a sent :: t =>
    let s := { s with agenda := t }
    let l := lineOf line
    .next (if isHomeAgent a then s.homeRecall l (a / 256)
      else if sent then s.request l a true else if isHostAgent a then s
      else if a = housekeepingAgent ∧ !s.housekeepingMay l 128 true then s.post (.housekeepingRangeViolation l)
      else s.missStore (s.kindFor l a) [] l a)
  | _ => .next s

/-- PUTS, PUTE, PUTM: an eviction begins; the Put arrives. -/
def execPuts (s : State) : Out :=
  match s.agenda with
  | .puts line a sent :: t =>
    let s := { s with agenda := t }
    let l := lineOf line
    .next (if sent then s.putAt l (s.levelOf l a) a false
      else if s.cst l a = some .s then s.evictLine l a else s)
  | _ => .next s

def execPute (s : State) : Out :=
  match s.agenda with
  | .pute line a sent :: t =>
    let s := { s with agenda := t }
    let l := lineOf line
    .next (if sent then s.putAt l (s.levelOf l a) a false
      else if s.cst l a = some .e then s.evictLine l a else s)
  | _ => .next s

/-- An eviction of a line in M; of a line that software keeps consistent, from an L1 to the L2 of its die, or, at a die's
proxy, from that L2 home (R105, R126). -/
def State.evictDirty (s : State) (line a : Nat) : State :=
  if isProxy a && (tabHas (s.getDie (a / 256)).l2c line || !(lineCells (s.getDie (a / 256)).l2 line).isEmpty) then
    s.evictL2 (a / 256) line
  else if decide (a % 256 < 132) && (tabHas (s.getCore a).l1c line || !(lineCells (s.getCore a).l1 line).isEmpty) then
    s.evictCopy a ⟨match region s.pkg line with | .domain _ _ => .domain | _ => .swm, line⟩
  else if s.cst line a = some .m then s.evictLine line a else s

def execPutm (s : State) : Out :=
  match s.agenda with
  | .putm line a sent :: t =>
    let s := { s with agenda := t }
    let l := lineOf line
    .next (if sent then s.putAt l (s.levelOf l a) a true else s.evictDirty l a)
  | _ => .next s

/-! ## Forwards at a cache (R158 to R161) -/

/-- The cache to which a forward goes. -/
def forwardTo : Event → Option Nat
  | .fwdGets _ c _ | .fwdGetm _ c _ | .inv _ c _ => some c
  | _ => none

/-- A forward that stalls waits at the head of its network at its cache, and later ones to the cache behind it. -/
def State.stallForward (s : State) (e : Event) : State := { s with forwards := s.forwards ++ [e] }

/-- After a response, stalled forwards are looked at again, before all else. -/
def State.retryForwards (s : State) : State := { s with agenda := s.forwards ++ s.agenda, forwards := [] }

/-- Data goes to the requester and to the home; once, where the home asked. -/
def State.giveShared (s : State) (line cache req : Nat) (next : CState) : State :=
  let home := homeAgent (s.levelOf line cache)
  let s := (s.setCst line cache (some next)).post (.data line req 0 false)
  if req = home then s else s.post (.data line home 0 false)

/-- Fwd-GetS as a cache answers it. -/
def State.cacheFwdGets (s : State) (line cache req : Nat) : State :=
  match s.cst line cache with
  | some .e | some .m => s.giveShared line cache req .s
  | some .miA => s.giveShared line cache req .siA
  | some (.imAD _) | some (.imA _) | some (.smAD _) | some (.smA _) => s.stallForward (.fwdGets line cache req)
  | _ => s

/-- Fwd-GetM. -/
def State.cacheFwdGetm (s : State) (line cache req : Nat) : State :=
  match s.cst line cache with
  | some .e | some .m => (s.setCst line cache none).post (.data line req 0 true)
  | some .miA => (s.setCst line cache (some .iiA)).post (.data line req 0 true)
  | some (.imAD _) | some (.imA _) | some (.smAD _) | some (.smA _) => s.stallForward (.fwdGetm line cache req)
  | _ => s

/-- Inv. -/
def State.cacheInv (s : State) (line cache req : Nat) : State :=
  match s.cst line cache with
  | some .isD => s.stallForward (.inv line cache req)
  | some .s => (s.setCst line cache none).post (.invAck line req)
  | some (.smAD n) => (s.setCst line cache (some (.imAD n))).post (.invAck line req)
  | some .siA => (s.setCst line cache (some .iiA)).post (.invAck line req)
  | none => s.post (.invAck line req)
  | _ => s

/-- Whether the agents of a proxy's die stand so that it can answer a forward: for a shared copy, no agent owns the line; else
none has it. -/
def State.dieYields (s : State) (line die : Nat) (keep : Bool) : Bool :=
  match s.hst line die with
  | none => true
  | some (.s _) => keep
  | some _ => false

/-- A proxy asks its die for a line: its owner for a shared copy, or every holder to give it up. -/
def State.askDie (s : State) (line die : Nat) (keep : Bool) : State :=
  match s.hst line die with
  | some (.o o) => if keep then (s.setHst line die (some (.sd [o]))).post (.fwdGets line o (homeAgent die)) else s.homeRecall line die
  | some (.s _) => if keep then s else s.homeRecall line die
  | _ => s

/-- A forward at a cache: behind one that stalls there it waits; the host is asked by a back-invalidation snoop (R161); a
proxy first has its die's agents answer (R160). -/
def State.forward (s : State) (line cache req : Nat) (keep : Bool) (self : Event) (k : State → State) : State :=
  if s.forwards.any fun e => forwardTo e == some cache then s.stallForward self
  else if isHostAgent cache then s.post (.backInvalidationResponse line cache req (!keep) (match self with | .inv .. => true | _ => false))
  else if isProxy cache && !s.dieYields line (cache / 256) keep then (s.askDie line (cache / 256) keep).stallForward self
  else k s

def execFwdGets (s : State) : Out :=
  match s.agenda with
  | .fwdGets line cache req :: t =>
    .next ({ s with agenda := t }.forward line cache req true (.fwdGets line cache req) fun s => s.cacheFwdGets line cache req)
  | _ => .next s

def execFwdGetm (s : State) : Out :=
  match s.agenda with
  | .fwdGetm line cache req :: t =>
    .next ({ s with agenda := t }.forward line cache req false (.fwdGetm line cache req) fun s => s.cacheFwdGetm line cache req)
  | _ => .next s

def execInv (s : State) : Out :=
  match s.agenda with
  | .inv line cache req :: t =>
    .next ({ s with agenda := t }.forward line cache req false (.inv line cache req) fun s => s.cacheInv line cache req)
  | _ => .next s

/-- BACK_INVALIDATION_RESPONSE: the host gives its copy up, or keeps it shared; what was asked of it was an Inv or a forward. -/
def execBackInvalidationResponse (s : State) : Out :=
  match s.agenda with
  | .backInvalidationResponse line cache req exclusive inv :: t =>
    let s := { s with agenda := t }
    .next (if inv then s.cacheInv line cache req
      else if exclusive then s.cacheFwdGetm line cache req else s.cacheFwdGets line cache req)
  | _ => .next s

/-! ## Responses (R159) -/

/-- A cache after its state has settled: a proxy looks again at the requests of its die. -/
def State.settled (s : State) (line a : Nat) (x : CState) : State :=
  let s := s.setCst line a (some x)
  if isProxy a then s.wake line (a / 256) else s

/-- DATA at a cache: the state it asked for, or the acknowledgements it still expects. -/
def State.dataAtCache (s : State) (line a acks : Nat) (exclusive : Bool) : State :=
  match s.cst line a with
  | some .isD => s.settled line a (if exclusive then .e else .s)
  | some (.imAD n) => if (acks : Int) = n then s.settled line a .m else s.setCst line a (some (.imA (acks - n)))
  | some (.smAD n) => if (acks : Int) = n then s.settled line a .m else s.setCst line a (some (.smA (acks - n)))
  | _ => s

/-- One answer to a recall of the home: after the last, nobody has the line. -/
def State.recallAnswer (s : State) (line die : Nat) : State :=
  match s.hst line die with
  | some (.rc n) => if n ≤ 1 then (s.setHst line die none).wake line die else s.setHst line die (some (.rc (n - 1)))
  | _ => s

/-- DATA from the old owner at a directory: the line is shared, and the request that waited goes on; or the answer to a
recall. Dirty data makes a proxy's copy M. -/
def State.dataAtHome (s : State) (line die : Nat) : State :=
  let s := if s.cst line (proxyOf die) = some .e then s.setCst line (proxyOf die) (some .m) else s
  match s.hst line die with
  | some (.sd l) => (s.setHst line die (if l.isEmpty then none else some (.s l))).wake line die
  | _ => s.recallAnswer line die

def execData (s : State) : Out :=
  match s.agenda with
  | .data line dest acks exclusive :: t =>
    let s := { s with agenda := t }
    .next (if isHomeAgent dest then s.dataAtHome line (dest / 256) else s.dataAtCache line dest acks exclusive).retryForwards
  | _ => .next s

/-- INV_ACK at a requester. -/
def State.countAck (s : State) (line a : Nat) : State :=
  match s.cst line a with
  | some (.imAD n) => s.setCst line a (some (.imAD (n + 1)))
  | some (.smAD n) => s.setCst line a (some (.smAD (n + 1)))
  | some (.imA n) => if n = 1 then s.settled line a .m else s.setCst line a (some (.imA (n - 1)))
  | some (.smA n) => if n = 1 then s.settled line a .m else s.setCst line a (some (.smA (n - 1)))
  | _ => s

def execInvAck (s : State) : Out :=
  match s.agenda with
  | .invAck line a :: t =>
    let s := { s with agenda := t }
    .next (if isHomeAgent a then s.recallAnswer line (a / 256) else s.countAck line a).retryForwards
  | _ => .next s

/-- PUT_ACK: the eviction has ended; requests of a proxy's die that met it go on. -/
def execPutAck (s : State) : Out :=
  match s.agenda with
  | .putAck line a :: t =>
    let s := { s with agenda := t }
    .next (match s.cst line a with
      | some .miA | some .siA | some .iiA =>
        if isProxy a then (s.setCst line a none).wake line (a / 256) else s.setCst line a none
      | _ => s).retryForwards
  | _ => .next s

/-! ## The host and other packages (R146, R148, R161, R162, R469) -/

/-- SNPINV of a host line that a port's agent has: served as a GetM of the host. Dirty data goes back, and the agent keeps
nothing. -/
def State.snoopInv (s : State) (line : Nat) : State :=
  if !tabHas s.hco line then s
  else if s.lineFree line then s.giveBack line
  else (s.homeRecall line (s.lineHome line)).post (.snpinv line)

def execSnpinv (s : State) : Out :=
  match s.agenda with
  | .snpinv line :: t => .next ({ s with agenda := t }.snoopInv (lineOf line))
  | _ => .next s

/-- SNPDATA of a host line: served as a GetS of the host, after which the agent has it shared. -/
def State.snoopData (s : State) (line : Nat) : State :=
  let home := s.lineHome line
  if !tabHas s.hco line then s
  else match s.hst line home with
    | some (.o o) => ((s.setHst line home (some (.sd [o]))).post (.fwdGets line o (homeAgent home))).post (.snpdata line)
    | some (.sd _) | some (.rc _) => s.post (.snpdata line)
    | _ => { s with hco := tabSet s.hco line false }

def execSnpdata (s : State) : Out :=
  match s.agenda with
  | .snpdata line :: t => .next ({ s with agenda := t }.snoopData (lineOf line))
  | _ => .next s

/-- Lines in the snoop filter of a host port (R161). -/
def filterLines : Nat := 262144

/-- The lines of which a host agent has copies. -/
def State.hostCopies (s : State) (agent : Nat) : List (Nat × CState) :=
  s.caches.filter fun (c : Nat × CState) => c.1 % 8192 == agent

/-- A full snoop filter gives up a copy of another line by BISnpInv: which, the spec does not say; the first in its table that is
in no state on its way. DESIGN CHOICE (log 73), unsafe. -/
def State.filterRoom (s : State) (agent line : Nat) : State :=
  match (s.hostCopies agent).find? fun c => c.1 / 8192 != line && !c.2.moving with
  | some (k, _) => s.evictLine (k / 8192) agent
  | none => s

/-- What a host access does to bytes: a read, a write, or a write only where the bytes are those expected. -/
def State.hostBytes (s : State) (p : Phys) (n : Nat) (data expect : Option (List Byte)) : State :=
  let (s', old) := s.readPlace none p n
  match data with
  | none => s'
  | some bs => if expect.isNone || expect == some old then s.writePlace none .host p (bs.take n) else s'

/-- Whether HDM lets the host reach a place of DRAM through a port: accepted, the port up. -/
def State.hdmOpen (s : State) (port : Fin 2) : Bool :=
  s.package.accepts 10 && !s.package.hostDown.contains port.val && (port == 0 || s.package.accepts 11)

/-- The leaf through which the host claims the page of an address: one whose owner field is not shared yet, or that only a TLB
has, the first found (R153). -/
def State.hostClaim (s : State) (pa : Nat) : Option TlbEntry :=
  match s.pageOf pa with
  | some (_, g) => if g.owner = .shared ∧ !g.evicting then none else some g.leaf
  | none => s.cores.findSome? fun c => c.2.tlb.find? fun e => leafHolds e pa

/-- A CXL.mem request of the host to DRAM: the page of a COH line is shared first (R153); the host's copy is recorded, which
takes room in the snoop filter (R161). -/
def State.hostDram (s : State) (port : Fin 2) (p : Phys) (n : Nat) (data expect : Option (List Byte)) : State :=
  let agent := hostAgent port
  let line := lineOf p.pa
  let again : Event := .hostMemoryRequest port p.pa n data expect
  if p.kind ≠ .coh then s.hostBytes p n data expect
  else match s.hostClaim line with
  | some e => (s.sendClaim e agent false).post again
  | none =>
  if !(if data.isNone then s.loadHits .coh line agent || (s.cst line agent).isNone else s.storeHits .coh line agent) then s.post again
  else if (s.cst line agent).isNone && decide (filterLines ≤ (s.hostCopies agent).length) then (s.filterRoom agent line).post again
  else
    let s := s.hostBytes p n data expect
    if data.isNone then s.missLoad .coh [] line agent else s.missStore .coh [] line agent

/-- An access of the host to its own memory: a store first takes the line from the agent of its port, which SNPINV asks for
(R146, R162). -/
def State.hostOwn (s : State) (port : Fin 2) (p : Phys) (n : Nat) (data expect : Option (List Byte)) : State :=
  let line := lineOf p.pa
  if p.kind = .hco ∧ data.isSome ∧ tabHas s.hco line then
    let s := if s.agenda.contains (.snpinv line) then s else s.post (.snpinv line)
    s.post (.hostMemoryRequest port p.pa n data expect)
  else s.hostBytes p n data expect

/-- A memory access of the host within one line: to DRAM of the package through a port, with HDM accepted, or to its own
memory behind a host window. -/
def State.hostRequest (s : State) (port : Fin 2) (pa n : Nat) (data expect : Option (List Byte)) : State :=
  if lineOf (pa + n - 1) ≠ lineOf pa then s
  else match region s.pkg pa, s.classify (s.lineHome (lineOf pa)) pa with
    | .near _, .ok p | .far, .ok p => if s.hdmOpen port then s.hostDram port p n data expect else s
    | .host _, .ok p => s.hostOwn port p n data expect
    | _, _ => s

def execHostMemoryRequest (s : State) : Out :=
  match s.agenda with
  | .hostMemoryRequest port pa n data expect :: t => .next ({ s with agenda := t }.hostRequest port pa n data expect)
  | _ => .next s

/-- A request of another package to DRAM of this one, through its domain window (R96, R148); or a store that another package
performs at its own memory, seen here through the domain window. -/
def State.fabricRequest (s : State) (r : FabricRequest) : State :=
  let dram (pa : Nat) : Option Phys :=
    match region s.pkg pa, s.classify (homeDie pa) pa with
    | .near _, .ok p | .far, .ok p => some p
    | _, _ => none
  if !s.package.accepts 12 then s
  else match r with
    | .load pa n => match dram pa with | some p => (s.readPlace none p n).1 | none => s
    | .store pa bs => match dram pa with | some p => s.writePlace none .host p bs | none => s
    | .atomic a => match dram a.pa with | some _ => s.post (.atomicAtHome a true false) | none => s
    | .clean _ cells => s.writeHome (cells.filter fun c => (dram c.1).isSome) []
    | .elsewhere pa bs =>
      match region s.pkg pa with
      | .domain _ _ => s.writeHome ((List.range bs.length).map fun i => (pa + i, bs.getD i 0)) []
      | _ => s

def execFabricMemoryRequest (s : State) : Out :=
  match s.agenda with
  | .fabricMemoryRequest r :: t => .next ({ s with agenda := t }.fabricRequest r)
  | _ => .next s

end Sys2Proof.Machine
end

