-- ==== Sys2Proof/Machine/Power.lean ====
section
/-!
DEFINITION. Power, current and heat (R341 to R353, R474, R475): levels and the permit pool at a boundary, the end of a
clock change, and the end of a 1 µs window.
-/
namespace Sys2Proof.Machine

/-- Power domains of a die. -/
def domainCount : Nat := 36

def Die.setDomain (d : Die) (i : Nat) (x : Domain) : Die := { d with domains := tabSet d.domains i x }

/-- The quad whose sensor a domain uses (R341). -/
def sensorOf (i : Nat) : Nat := if i < 32 then i else bassoonStop (i - 32)

/-- The dispenser and the rebalancer give a core no work (R348). -/
def State.coreWithheld (s : State) (core : Nat) : Bool := (s.getDie (dieOfCore core)).withheld (domainOf (pcoreOf core))

/-- A context is withheld for its energy quota on a die (R353). -/
def State.quotaWithheld (s : State) (die c : Nat) : Bool :=
  let d := s.getDie die
  (tabGet 0 d.tquota c).bit 63 && (decide (quotaBal (tabGet 0 d.tquota c) ≤ 0) || d.quotaHeld.contains c)

/-! ## Requests (R342) -/

/-- The order low < nominal < boost of `BOOSTRQ`.REQ. -/
def requestRank (req : Nat) : Nat := match req with | 1 => 0 | 2 => 2 | _ => 1

/-- The request of a core: nominal while no slot of it runs an activation. -/
def State.coreRequest (s : State) (core : Nat) : Nat :=
  if (List.range 4).any fun i => (s.getSlot (slotKey core i)).active then requestRank (s.getCore core).boostReq else 1

/-- The physical cores of a domain. -/
def domainCores (i : Nat) : List Nat := if i < 32 then (List.range 4).map (4 * i + ·) else [96 + i]

/-- The request of a domain: the highest of its cores. -/
def State.domainRequest (s : State) (die i : Nat) : Nat :=
  (domainCores i).foldl (fun m p => max m (s.coreRequest (coreKey die p))) 0

/-! ## BOOST_BOUNDARY (R343 to R346, R349, R474, R475) -/

/-- A sensor reading is taken; the throttle state of the domain changes at most once in 64 µs. -/
def sample (time : Nat) (temps : List Nat) (d : Die) (i : Nat) : Die :=
  let x := d.domain i
  let t := temps.getD (sensorOf i) x.temp
  let free := x.changedAt == 0 || decide (x.changedAt + 64000 ≤ time + 1)
  let turn := free && (if x.throttled then decide (t ≤ 380) else decide (392 ≤ t))
  d.setDomain i { x with
    temp := t
    throttled := xor x.throttled turn
    changedAt := if turn then time + 1 else x.changedAt }

/-- A die stops being critical once every sensor is cool enough and 8 intervals have passed. -/
def Die.cool (d : Die) (time : Nat) (temps : List Nat) : Die :=
  if d.critical ≠ 0 ∧ d.critical + 64000 ≤ time + 1 ∧ temps.all (· ≤ 400) then { d with critical := 0 } else d

/-- Domains in the order of grants: after the grant pointer, round to it. -/
def grantOrder (last : Nat) : List Nat := (List.range domainCount).map fun i => (last + 1 + i) % domainCount

/-- The domains that boost in the next interval. -/
def State.granted (s : State) (die : Nat) (d : Die) : List Nat :=
  if d.critical ≠ 0 ∨ d.limited then []
  else ((grantOrder d.grant).filter fun i => s.domainRequest die i == 2 && !d.hot i).take d.pool

/-- The level of a domain in the next interval. -/
def nextLevel (d : Die) (granted : List Nat) (request i : Nat) : Nat :=
  let now := (d.domain i).level
  if d.hot i then 0
  else if granted.contains i then 3
  else if d.limited && decide (1 < now) then 1
  else if now = 3 then 2
  else if request = 0 then 0 else 1

/-- A domain ran above nominal in the interval: at the level that it has, or at one that it had before (R345). -/
def Domain.above (x : Domain) : Bool := x.ran || decide (2 ≤ x.level)

/-- A domain takes a level: a change of clock begins. -/
def Die.setLevel (d : Die) (i level : Nat) : Die :=
  let x := d.domain i
  if x.level = level then d
  else d.setDomain i { x with level := level, before := x.level, changing := true, ran := x.above }

/-- A new interval begins: no domain has run in it. -/
def Die.newInterval (d : Die) : Die :=
  { d with domains := d.domains.map fun (x : Nat × Domain) => (x.1, { x.2 with ran := false }) }

/-- Clock changes that have begun complete later. -/
def State.postChanges (s : State) (die : Nat) (before : Die) : State :=
  (List.range domainCount).foldl (fun s i =>
    if ((s.getDie die).domain i).level = (before.domain i).level then s else s.post (.clockChangeComplete die i)) s

/-- `THERMCRIT_N` is released once no die is critical any more: R474 states its assertion alone. DESIGN CHOICE (log 82), unsafe. -/
def State.releaseHeat (s : State) : State :=
  if s.dies.any fun (d : Nat × Die) => d.2.critical != 0 then s else { s with package := { s.package with thermcrit := false } }

/-- One boundary of a die: sensors, charge, refill, grants, levels. -/
def State.boundary (s : State) (die : Nat) (temps : List Nat) : State :=
  let d0 := s.getDie die
  let time := s.time.toNat
  let d := ((List.range domainCount).foldl (sample time temps) d0).cool time temps
  let used := ((List.range domainCount).filter fun i => (d.domain i).above).length
  let pool := d.pool - used
  let d := { d with pool := if used = 0 then min (pool + 1) 64 else pool }
  let g := s.granted die d
  let d := { d with grant := g.getLast?.getD d.grant }
  let d := (List.range domainCount).foldl (fun e i => e.setLevel i (nextLevel d g (s.domainRequest die i) i)) d
  ((s.setDie die d.newInterval).postChanges die d0).releaseHeat

def execBoostBoundary (s : State) : Out :=
  match s.agenda with
  | .boostBoundary die temps :: t => .next ({ s with agenda := t }.boundary die temps)
  | _ => .next s

/-! ## CLOCK_CHANGE_COMPLETE (R343) -/

def execClockChangeComplete (s : State) : Out :=
  match s.agenda with
  | .clockChangeComplete die i :: t =>
    let s := { s with agenda := t }
    let d := s.getDie die
    let x := d.domain i
    .next (s.setDie die (d.setDomain i { x with changing := false, before := x.level }))
  | _ => .next s

/-! ## CURRENT_WINDOW_END (R347, R351, R353, R474, R475) -/

/-- A domain's predicted current against its share: withheld above it, released at 90 % of it. -/
def windowDomain (d : Die) (x : Nat × Nat) : Die :=
  let (i, predicted) := x
  let y := d.domain i
  d.setDomain i { y with
    withheld := if y.share < predicted then true else if 10 * predicted ≤ 9 * y.share then false else y.withheld }

/-- The energy of a context leaves its balance while its quota is enforced; withholding ends with a balance above zero. -/
def windowEnergy (d : Die) (x : Nat × Nat) : Die :=
  let q := tabGet 0 d.tquota x.1
  if q.bit 63 then { d with tquota := tabSet d.tquota x.1 (quotaWord true (quotaBal q - x.2)) } else d

/-- Contexts withheld from the end of a window on. -/
def Die.settleQuotas (d : Die) : Die :=
  { d with quotaHeld := (d.tquota.filter fun (x : Nat × Word) => x.2.bit 63 && decide (quotaBal x.2 ≤ 0)).map (·.1) }

/-- A die over its limit, or back at 90 % of it. -/
def State.windowLimit (s : State) (die : Nat) (w : PowerWindow) : State :=
  let d := s.getDie die
  if d.limit < w.current then
    let t := s.setDie die { d with limited := true }
    if d.limited then t
    else t.logRecord die ⟨3, 3, 3, 7, none, none, location 12 0 s.pkg die 0, die⟩
  else if 10 * w.current ≤ 9 * d.limit then s.setDie die { d with limited := false }
  else s

/-- A die with a sensor at 110 °C or more is critical: every domain goes low, `THERMCRIT_N` is asserted, and the event is logged. -/
def State.windowHeat (s : State) (die : Nat) (w : PowerWindow) : State :=
  let d := s.getDie die
  if d.critical = 0 ∧ w.temps.any (440 ≤ ·) then
    let low := (List.range domainCount).foldl (fun d i => d.setLevel i 0) { d with critical := s.time.toNat + 1 }
    let s := { s with package := { s.package with thermcrit := true } }
    ((s.setDie die low).postChanges die d).logRecord die ⟨3, 3, 2, 7, none, none, location 12 0 s.pkg die 0, die⟩
  else s

def State.windowEnd (s : State) (die : Nat) (w : PowerWindow) : State :=
  let d := w.domains.foldl windowDomain (s.getDie die)
  let d := (w.energy.foldl windowEnergy d).settleQuotas
  ((s.setDie die d).windowLimit die w).windowHeat die w

def execCurrentWindowEnd (s : State) : Out :=
  match s.agenda with
  | .currentWindowEnd die w :: t => .next ({ s with agenda := t }.windowEnd die w)
  | _ => .next s

end Sys2Proof.Machine
end

