-- ==== Sys2Proof/Machine/Dispense.lean ====
section
/-!
DEFINITION. Placement of work: the launch agent (R324 to R328, R468), work queues and the dispenser (R329 to R331), the
rebalancer, moves and forwarding (R337 to R340).
-/
namespace Sys2Proof.Machine

/-! ## Work queues (R329) -/

/-- Records that a work queue holds. -/
def workPlaces : Nat := 512

/-- The creator of a record is told that it has entered its queue: rd receives 0 (R289). -/
def State.recordEntered (s : State) (c : Creator) : State :=
  match c with
  | .none | .send .. => s
  | _ => s.post (.acknowledgement c 0 false)

/-- A record at a work queue: none if it is full. One of a dead context is discarded (R213). -/
def State.offerRecord (s : State) (die : Nat) (r : WorkRecord) : Option State :=
  let d := s.getDie die
  if !(s.getCtx (msgCtx r.msg)).live then some ((s.dropped die (msgCtx r.msg)).recordEntered r.creator)
  else if workPlaces ≤ d.work.length then none
  else some (((s.setDie die { d with work := d.work ++ [r] }).recordEntered r.creator).post (.dispenserAssign die))

def execWorkQueueRecordArrival (s : State) : Out :=
  match s.agenda with
  | .workQueueRecordArrival die r :: t =>
    let s := { s with agenda := t }
    .next ((s.offerRecord die r).getD { s with backoff := s.backoff ++ [Resend.record die r] })
  | _ => .next s

/-! ## DISPENSER_ASSIGN (R330, R331, R471) -/

/-- The core of this die and package that a logical core names. -/
def State.coreHere (s : State) (die c k : Nat) : Option Nat :=
  match s.ctRead c k with
  | .entry _ e => if e.pkg = s.pkg ∧ e.die = die then some (coreKey die e.pcore) else none
  | _ => none

/-- Whether a logical core is eligible for a context's record; a move asks for no bound on the arrival queue (R337). -/
def State.eligible (s : State) (die c k : Nat) (bound : Bool) : Bool :=
  match s.coreHere die c k with
  | none => false
  | some core =>
    (!bound || decide ((s.getCore core).arrival.length < 8)) && !s.coreWithheld core && !s.quotaWithheld die c &&
    !(s.getCore core).isolated

/-- The logical cores of a candidate range. -/
def candidates (first count : Nat) : List Nat := (List.range count).map (first + ·)

/-- The eligible logical cores of a record. -/
def State.eligibleFor (s : State) (die : Nat) (r : WorkRecord) : List Nat :=
  (candidates r.first r.count).filter fun k => s.eligible die (msgCtx r.msg) k true

/-- Some entry of the core table for a candidate range cannot be read (R464). -/
def State.brokenRange (s : State) (c first count : Nat) : Bool := (candidates first count).any fun k => s.ctRead c k == .unreadable

/-- What the reads of the entries of a range leave behind (R494). -/
def State.rangeTouch (s : State) (c first count : Nat) : State := (candidates first count).foldl (fun s k => s.ctTouch c k) s

/-- The records of a queue as the dispenser examines them: in order of priority, and within one in order of entry. -/
def examined (work : List WorkRecord) : List WorkRecord :=
  [3, 2, 1, 0].flatMap fun p => work.filter fun r => msgPrio r.msg == p

/-- The first record, as examined, that has an eligible logical core, or that names a table that cannot be read. -/
def State.pickRecord (s : State) (die : Nat) (work : List WorkRecord) : Option WorkRecord :=
  (examined work).find? fun r => s.brokenRange (msgCtx r.msg) r.first r.count || !(s.eligibleFor die r).isEmpty

/-- The logical core, and its core, to which a record goes: round-robin by context. -/
def State.assignment (s : State) (die : Nat) (r : WorkRecord) : Option (Nat × Nat) :=
  let d := s.getDie die
  let c := msgCtx r.msg
  let last := if tabHas d.rrDispLc c then some (tabGet 0 d.rrDispLc c) else none
  (nextAfter (s.eligibleFor die r) last).bind fun k => (s.coreHere die c k).map fun core => (k, core)

/-- The location of a die's dispenser, which the model gives to its rebalancer too. DESIGN CHOICE (log 74), unsafe. -/
def State.dispenserPlace (s : State) (die : Nat) : Nat := s.stopPlace die dispenserStop

/-- DISPENSER_ASSIGN: one record goes to an eligible logical core, round-robin by context, and is accepted there. -/
def State.assign (s : State) (die : Nat) : State :=
  let d := s.getDie die
  match s.pickRecord die d.work with
  | none => s
  | some r =>
    let c := msgCtx r.msg
    if s.brokenRange c r.first r.count then (s.tableFailure (s.dispenserPlace die) c).post (.dispenserAssign die)
    else match s.assignment die r with
      | none => s
      | some (k, core) =>
        let s := s.rangeTouch c r.first r.count
        let s := s.setDie die { s.getDie die with work := d.work.erase r, rrDispLc := tabSet d.rrDispLc c k }
        (s.arrive core (msgTo r.msg k) .none (some (r.first, r.count, r.fpOff, r.fpLen))).post (.dispenserAssign die)

def execDispenserAssign (s : State) : Out :=
  match s.agenda with
  | .dispenserAssign die :: t => .next ({ s with agenda := t }.assign die)
  | _ => .next s

/-! ## REBALANCER_PASS (R337, R340) -/

/-- Entries of a forwarding table (R339). -/
def forwardPlaces : Nat := 32

/-- Whether a core can take a moved entry: empty, with a free slot, not withheld, not isolated. -/
def State.canTake (s : State) (core : Nat) : Bool :=
  (s.getCore core).arrival.isEmpty && (s.freeSlot core).isSome && !s.coreWithheld core && !(s.getCore core).isolated

/-- The physical cores of a die, after the target used last. -/
def targetOrder (last : Nat) : List Nat := (List.range 132).map fun i => (last + 1 + i) % 132

/-- The eligible logical cores of a candidate range on a core. -/
def State.hosted (s : State) (core c first count : Nat) : List Nat :=
  (candidates first count).filter fun k =>
    s.coreHere (dieOfCore core) c k == some core && s.eligible (dieOfCore core) c k false

/-- A target for an entry that has taken none in this pass, with the logical core there; which of several on one core is left
open. -/
def State.findTarget (s : State) (die : Nat) (e : ArrEntry) : Option (Nat × Nat) :=
  match e.range with
  | none => none
  | some (first, count, _, _) =>
    (targetOrder (s.getDie die).rrRebal).findSome? fun p =>
      let core := coreKey die p
      if (s.getDie die).passUsed.contains p || !s.canTake core then none
      else match s.hosted core (msgCtx e.msg) first count with
        | [] => none
        | k :: ks => some (p, (k :: ks).getD ((Config.freeWord s.freeCtr).toNat % (ks.length + 1)) k)

/-- What that search leaves behind (R494). -/
def State.targetTouch (s : State) (e : ArrEntry) : State :=
  match e.range with
  | none => s
  | some (first, count, _, _) => s.rangeTouch (msgCtx e.msg) first count

/-- The movable entry to take next: of the lowest priority the youngest, by its index. -/
def movableIndex (es : List ArrEntry) (skip : List Nat) : Option Nat :=
  [0, 1, 2, 3].findSome? fun p =>
    ((es.zipIdx.filter fun x => x.1.prio == p && x.1.range.isSome && x.1.moving.isNone && !skip.contains x.2).getLast?).map (·.2)

/-- A target takes an entry of this pass: the search for the next starts after it. -/
def State.useTarget (s : State) (die p : Nat) : State :=
  let d := s.getDie die
  s.bump.setDie die { d with rrRebal := p, passUsed := p :: d.passUsed }

/-- The entry that the core would dispatch now: dispatch wins over its marking (R340). -/
def State.aboutToGo (s : State) (core : Nat) : Option Nat :=
  if (s.freeSlot core).isSome then s.choose core [] (s.getCore core).arrival 0 none else none

/-- Marks up to `n` entries of a core as moving, of as many as are looked at; `skip` lists those that stay. A move under way counts
as a place of the forwarding table taken, where the spec speaks of a full table only. DESIGN CHOICE (log 79), unsafe. -/
def State.markMoves (s : State) (die core : Nat) : Nat → Nat → List Nat → State
  | 0, _, _ => s
  | _ + 1, 0, _ => s
  | look + 1, n + 1, skip =>
    let x := s.getCore core
    let pending := (x.arrival.filter fun e => e.moving.isSome).length
    if forwardPlaces ≤ (s.forwarded core).length + pending then s
    else match movableIndex x.arrival skip with
      | none => s
      | some i =>
        match x.arrival[i]? with
        | none => s
        | some e =>
          if s.aboutToGo core = some i then s.markMoves die core look (n + 1) (i :: skip)
          else match s.findTarget die e with
          | none => (s.targetTouch e).markMoves die core look (n + 1) (i :: skip)
          | some (p, k) =>
            let s := ((s.targetTouch e).setCore core { x with arrival := x.arrival.set i { e with moving := some k, copied := false } }).useTarget die p
            (s.post (.taskMove core (msgCtx e.msg) e.taskId)).markMoves die core look n (i :: skip)

/-- Contexts with a movable entry at an overfull core for whose candidate range the core table cannot be read are made dead
(R464). -/
def State.dropBroken (s : State) (die core : Nat) : State :=
  let broken := (s.getCore core).arrival.filterMap fun e => e.range.bind fun r =>
    if s.brokenRange (msgCtx e.msg) r.1 r.2.1 then some (msgCtx e.msg) else none
  if (s.getCore core).arrival.length ≤ 48 then s else broken.dedup.foldl (fun s c => s.tableFailure (s.dispenserPlace die) c) s

/-- One pass over the cores of a die: from each overfull core up to 8 entries, none below 48. -/
def State.rebalance (s : State) (die : Nat) : State :=
  (List.range 132).foldl (fun s p =>
    let core := coreKey die p
    let s := s.dropBroken die core
    let n := (s.getCore core).arrival.length
    s.markMoves die core n (min (n - 48) 8) []) (s.setDie die { s.getDie die with passUsed := [] })

def execRebalancerPass (s : State) : Out :=
  match s.agenda with
  | .rebalancerPass die :: t => .next ({ s with agenda := t }.rebalance die)
  | _ => .next s

/-! ## TASK_MOVE (R338, R340) -/

/-- The streamer copies a footprint from the share of one logical core to that of another, poison with it: the raw bytes, also
where it runs past the program area of either, and nothing where either is not mapped any more; the spec speaks of neither. DESIGN
CHOICE (log 79), unsafe. -/
def State.copyFootprint (s : State) (c from' to' off len : Nat) : State :=
  match s.ctRead c from', s.ctRead c to' with
  | .entry _ a, .entry _ b =>
    let src := shareAddr s.pkg a (a.pbase * 16384 + off)
    let dst := shareAddr s.pkg b (b.pbase * 16384 + off)
    let bad := ((List.range (len / 8)).filter fun i => s.poison.contains (src / 8 + i)).map (dst / 8 + ·)
    let s := { s with mem := memWrite s.mem dst (memRead s.mem src len) }.unpoison [(dst, len)]
    { s with poison := s.poison ++ bad.filter fun w => !s.poison.contains w }
  | _, _ => s

/-- Step 2 of a move: the footprint is copied, and the hand-over is on its way. -/
def State.copyMove (s : State) (core i : Nat) (e : ArrEntry) (k : Nat) : State :=
  let c := msgCtx e.msg
  let l := msgDst e.msg
  let len := (e.range.map fun r => r.2.2.2).getD 0
  let off := (e.range.map fun r => r.2.2.1).getD 0
  if len ≠ 0 ∧ s.ctRead c l = .unreadable then s.tableFailure (s.dispenserPlace (dieOfCore core)) c
  else
    let s := if len = 0 then s else ((s.ctTouch c l).ctTouch c k).copyFootprint c l k off len
    let x := s.getCore core
    (s.setCore core { x with arrival := x.arrival.set i { e with copied := true } }).post (.taskMove core c e.taskId)

/-- An entry that has moved, at its new core: in the arrival queue, or where its logical core is under pre-emption there, in its
spill queue (R55). -/
def State.receiveMoved (s : State) (t : Nat) (e : ArrEntry) : State :=
  let c := msgCtx e.msg
  let k := msgDst e.msg
  if !s.marked t c k then (s.enqueueAs t e).wakeWfm t c 1
  else match s.spillDesc c k with
    | none => s.tableFailure (s.corePlace t) c
    | some d =>
      ((s.descTouch c k).spillWrite c 12 ((d.tail + 1) % 2 ^ 32) d e.msg ⟨k, d.tail, e.taskId, false, e.range, t, e.since, e.prio⟩).getD
        (s.tableFailure (s.corePlace t) c)

/-- Step 3 of a move: the entry leaves the old queue, is accepted at the new core, and a forwarding entry is written, in place of
one that an earlier move of the task from this core wrote (R339). -/
def State.handOver (s : State) (core i : Nat) (e : ArrEntry) (t k : Nat) : State :=
  let x := s.getCore core
  let s := s.setCore core { x with
    arrival := x.arrival.eraseIdx i
    fwd := (s.forwarded core).filter (fun f => !(f.1 == msgCtx e.msg && f.2.1 == e.taskId)) ++ [(msgCtx e.msg, e.taskId, t, (s.cycleOf core).toNat)] }
  let since := (s.cycleOf t - (s.cycleOf core - word e.since)).toNat
  let s := s.receiveMoved t { e with msg := msgTo e.msg k, moving := none, copied := false, since := since }
  (s.post (.dispatch t)).post (.redelivery core)

/-- A marked entry goes on: copied, then handed over; where the target has filled meanwhile it tries another, or stays. -/
def State.moveEntry (s : State) (core i : Nat) (e : ArrEntry) (k : Nat) : State :=
  let c := msgCtx e.msg
  let die := dieOfCore core
  let x := s.getCore core
  if s.ctRead c k = .unreadable ∨ (e.range.any fun r => s.brokenRange c r.1 r.2.1) then s.tableFailure (s.dispenserPlace die) c
  else match (s.coreHere die c k).filter s.canTake with
  | some t => if e.copied then (s.ctTouch c k).handOver core i e t k else s.copyMove core i e k
  | none => match s.findTarget die e with
    | none => (s.targetTouch e).setCore core { x with arrival := x.arrival.set i { e with moving := none, copied := false } }
    | some (p, k) =>
      (((s.targetTouch e).setCore core { x with arrival := x.arrival.set i { e with moving := some k, copied := false } }).useTarget
        die p).post (.taskMove core c e.taskId)

def execTaskMove (s : State) : Out :=
  match s.agenda with
  | .taskMove core c id :: t =>
    let s := { s with agenda := t }
    let x := s.getCore core
    .next (match x.arrival.findIdx? fun e => e.moving.isSome && msgCtx e.msg == c && e.taskId == id with
      | none => s
      | some i =>
        match x.arrival[i]? with
        | some e => match e.moving with | some k => s.moveEntry core i e k | none => s
        | none => s)
  | _ => .next s

/-! ## FORWARDING_ENTRY_EXPIRY (R339) -/

def execForwardingEntryExpiry (s : State) : Out :=
  match s.agenda with
  | .forwardingEntryExpiry core c id :: t =>
    let s := { s with agenda := t }
    let x := s.getCore core
    .next (s.setCore core { x with
      fwd := x.fwd.filter fun f => !(f.1 == c && f.2.1 == id) || (s.forwarded core).contains f })
  | _ => .next s

/-! ## Launch queues (R324, R325) -/

/-- Where the agent's access of DRAM goes, as die 0 finds it; none if it faults. -/
def State.agentPlace (s : State) (nearOnly : Bool) (pa : Nat) : Option Phys :=
  match region s.pkg pa with
  | .near _ => (s.classify 0 pa).toOption
  | .far => if nearOnly then none else (s.classify 0 pa).toOption
  | _ => none

/-- A read of DRAM by the agent, inside one line; the value is none if it faults. -/
def State.agentRead (s : State) (nearOnly : Bool) (pa n : Nat) : State × Option Nat :=
  match s.agentPlace nearOnly pa with
  | none => (s, none)
  | some p =>
    if (s.poisonedWord pa n).isSome then (s, none)
    else
      let (s, bs) := s.readPlace none p n
      (s, some (leNat bs))

/-- A write of DRAM by the agent for a context; one that would fault is not made. -/
def State.agentWrite (s : State) (c pa : Nat) (bs : List Byte) : State :=
  match s.agentPlace true pa with
  | none => s
  | some p => s.writePlace none (.slot c true) p bs

/-- A launch queue descriptor. -/
structure LaunchDesc where
  ring : Nat
  head : Nat
  tail : Nat
  cap : Nat
deriving DecidableEq, Repr

def Context.launchAddr (c : Context) : Nat := c.lqbase.bits 5 47 * 32

/-- The descriptor of a context; none if it cannot be read or breaks R325. -/
def State.launchDesc (s : State) (c : Nat) : State × Option LaunchDesc :=
  match s.agentRead true (s.getCtx c).launchAddr 32 with
  | (s, none) => (s, none)
  | (s, some x) =>
    let d : LaunchDesc := ⟨x % 2 ^ 64, x / 2 ^ 64 % 2 ^ 32, x / 2 ^ 96 % 2 ^ 32, x / 2 ^ 128 % 2 ^ 8⟩
    (s, if d.ring % 128 ≠ 0 ∨ d.cap < 4 ∨ 12 < d.cap ∨ x / 2 ^ 136 ≠ 0 then none else some d)

/-- The record of launch events: refused, or a queue disabled (R468, R487). -/
def State.logLaunch (s : State) (c : Nat) : State :=
  s.logRecord 0 ⟨5, 1, 5, 0, some c, none, s.dispenserPlace 0, c⟩

/-- The agent clears EN of a context; it stays awake for the others. -/
def State.disableLaunch (s : State) (c : Nat) : State :=
  let x := s.getCtx c
  (s.setCtx c { x with lqbase := x.lqbase &&& ~~~(1#64) }).logLaunch c

/-- LQBELL_WRITE: after the commit of `ACCEPT` and with EN set, TAIL is stored and the agent wakes; a descriptor that it cannot
reach it finds broken then (R468). -/
def State.bell (s : State) (c tail : Nat) : State :=
  let x := s.getCtx c
  if s.package.committed && x.lqbase.bit 0 then
    let s := s.agentWrite c (x.launchAddr + 12) (leBytes tail 4)
    let b := s.package.belled
    { s with package := { s.package with belled := if b.contains c then b else c :: b } }.post .launchRecord
  else s

def execLqbellWrite (s : State) : Out :=
  match s.agenda with
  | .lqbellWrite c tail :: t => .next ({ s with agenda := t }.bell c tail)
  | _ => .next s

/-! ## Launch records (R326, R327, R468) -/

/-- A launch record in the form of version 3. -/
structure LaunchRec where
  mode : Nat
  prio : Nat
  notify : Bool
  plen : Nat
  first : Nat
  span : Nat
  count : Nat
  die : Nat
  vec : Nat
  handler : Word
  fpOff : Nat
  fpLen : Nat
  payload : List Word
  /-- A byte or bit that must be zero is not. -/
  junk : Bool
deriving DecidableEq, Repr

/-- A field of `n` bytes at byte `i` of a record. -/
def recField (x i n : Nat) : Nat := x / 2 ^ (8 * i) % 2 ^ (8 * n)

/-- `n` payload doublewords from byte `i`. -/
def recWords (x i n : Nat) : List Word := (List.range n).map fun j => word (recField x (i + 8 * j) 8)

/-- Translates a record of a version into version 3. -/
def launchRec (ver x : Nat) : LaunchRec :=
  match ver with
  | 1 => ⟨0, 0, false, 2, recField x 4 2, 0, recField x 6 2, 0, 0, word (recField x 8 8), 0, 0, recWords x 16 2, recField x 1 3 != 0⟩
  | 2 =>
    ⟨0, recField x 2 1 % 4, recField x 2 1 / 4 % 2 == 1, recField x 3 1, recField x 4 2, 0, recField x 8 4, 0, recField x 14 2,
     word (recField x 16 8), 0, 0, recWords x 32 4,
     recField x 1 1 != 0 || recField x 2 1 / 8 != 0 || recField x 6 2 != 0 || recField x 12 2 != 0 || recField x 24 8 != 0⟩
  | _ =>
    let mode := recField x 1 1
    ⟨mode, recField x 2 1 % 4, recField x 2 1 / 4 % 2 == 1, recField x 3 1, recField x 4 2, recField x 6 2, recField x 8 4,
     recField x 12 1, recField x 14 2, word (recField x 16 8), recField x 24 4, recField x 28 4, recWords x 32 12,
     recField x 2 1 / 8 != 0 || recField x 13 1 != 0 || (mode == 0 && (recField x 6 2 != 0 || recField x 12 1 != 0))⟩

/-- Bytes of a record of a version. -/
def launchBytes (ver : Nat) : Nat := match ver with | 1 => 32 | 2 => 64 | _ => 128

/-- Payload doublewords that a version and mode allow. -/
def plenLimit (ver mode : Nat) : Nat := match ver with | 1 => 2 | 2 => 4 | _ => if mode = 1 then 11 else 12

/-- The REASON of a refusal: the lowest that applies. -/
def Package.launchReason (p : Package) (ver : Nat) (r : LaunchRec) : Option Nat :=
  let wide := if r.mode = 1 then r.span else r.count
  if (ver != 1 && ver != 2 && ver != 3) || (ver == 1 && !p.accepts 13) || (ver == 2 && !p.accepts 14) then some 1
  else if 1 < r.mode then some 2
  else if plenLimit ver r.mode < r.plen then some 3
  else if r.count = 0 ∨ 65535 < r.count ∨ (r.mode = 1 ∧ (r.span = 0 ∨ 23 < r.die)) ∨ 65534 < r.first + wide - 1 then some 4
  else if r.junk then some 5
  else if r.fpOff % 64 ≠ 0 ∨ r.fpLen % 64 ≠ 0 ∨ 65536 < r.fpLen then some 6
  else none

/-- The message of a record to a logical core. -/
def launchMsg (c : Nat) (r : LaunchRec) (dst : Nat) (extra : List Word) : Msg :=
  let payload := r.payload.take r.plen ++ extra
  ⟨r.handler, metaOf 0 payload.length r.prio c 0xFFFF dst, payload⟩

/-! ## LAUNCH_RECORD (R328, R468) -/

/-- Sends the task of a gang-mode record to a logical core: false if nothing is left to wait for. A task for a logical core
that is not mapped is discarded (R468), and so is one for a core of a package that no route reaches, where the spec is silent;
the package counts both on die 0. DESIGN CHOICE (log 79), unsafe. -/
def State.launchTo (s : State) (c : Nat) (r : LaunchRec) (l : Nat) : State × Bool :=
  let m := launchMsg c r l []
  if !(s.getCtx c).live then (s.dropped 0 c, false)
  else match s.ctRead c l with
    | .unreadable => (s.tableFailure (s.dispenserPlace 0) c, false)
    | .unmapped => ((s.ctTouch c l).dropped 0 c, false)
    | .entry _ e =>
      let s := s.ctTouch c l
      if e.pkg = s.pkg then (s.sendTo 0 dispenserStop (coreKey e.die e.pcore) m (.agent c), true)
      else match s.routeAccess c e.pkg with
        | (s, .open p) => (s.sendAway p m (.agent c), true)
        | (s, .shut) => (s.dropped 0 c, false)
        | (s, .unreadable) => (s.tableFailure (s.dispenserPlace 0) c, false)

/-- The tasks of a gang-mode record in increasing rank: how many acceptances are awaited. -/
def State.launchGang (s : State) (c : Nat) (r : LaunchRec) : State × Nat :=
  (List.range r.count).foldl (fun (x : State × Nat) i =>
    let (s, sent) := x.1.launchTo c r (r.first + i)
    (s, if sent then x.2 + 1 else x.2)) (s, 0)

/-- The dispense records of a dispense-mode record. -/
def State.launchDispense (s : State) (c : Nat) (r : LaunchRec) : State × Nat :=
  ((List.range r.count).foldl (fun s i =>
    s.post (.workQueueRecordArrival r.die ⟨launchMsg c r 0 [word i], r.first, r.span, r.fpOff, r.fpLen, .agent c⟩)) s, r.count)

/-- A record of a context is in progress. -/
def State.beginLaunch (s : State) (c due : Nat) (r : LaunchRec) : State :=
  let s := { s with package := { s.package with launches := ⟨c, due, r.notify, r.vec⟩ :: s.package.launches, rrLaunch := some c } }
  if due = 0 then s.post (.launchRecordComplete c) else s

/-- A refused record sends no task; the agent goes past it. -/
def State.refuseLaunch (s : State) (c index reason : Nat) (r : LaunchRec) : State :=
  let x := s.getCtx c
  let count := satIncr (x.lqerr.bits 16 16) 16
  ((s.setCtx c { x with lqerr := word (reason + count * 2 ^ 16 + index * 2 ^ 32) }).logLaunch c).beginLaunch c 0 r

/-- The agent takes up the next record of a context. -/
def State.takeRecord (s : State) (c : Nat) : State :=
  match s.launchDesc c with
  | (s, none) => (s.disableLaunch c).post .launchRecord
  | (s, some d) =>
    if d.head = d.tail then s
    else
      let a := d.ring + 128 * (d.head % 2 ^ d.cap)
      match s.agentRead false a 1 with
      | (s, none) => (s.disableLaunch c).post .launchRecord
      | (s, some ver) =>
        match s.agentRead false a (launchBytes ver) with
        | (s, none) => (s.disableLaunch c).post .launchRecord
        | (s, some x) =>
          let r := launchRec ver x
          match s.package.launchReason ver r with
          | some reason => s.refuseLaunch c d.head reason r
          | none =>
            let (s, due) := if r.mode = 1 then s.launchDispense c r else s.launchGang c r
            s.beginLaunch c due r

/-- Whether a message or record of a context's launch is held after a refusal: the agent goes on for others (R463). -/
def State.launchHeld (s : State) (c : Nat) : Bool :=
  s.backoff.any fun r => match r with
    | .message _ _ cr _ => cr == .agent c
    | .record _ w => w.creator == .agent c
    | _ => false

/-- A context has work for the agent: a record, or a descriptor that makes the agent clear EN. -/
def State.launchWork (s : State) (c : Nat) : Bool :=
  match (s.launchDesc c).2 with | none => true | some d => d.head != d.tail

/-- LAUNCH_RECORD: once awake the agent serves every context with EN = 1 in turn, unless a record is in progress that is not
held; with no work left it sleeps until the next bell. -/
def State.launchTurn (s : State) : State :=
  let p := s.package
  if p.belled.isEmpty || p.launches.any fun l => !s.launchHeld l.ctx then s
  else
    let ready := (s.ctxs.map (·.1)).filter fun c =>
      (s.getCtx c).lqbase.bit 0 && !(p.launches.any fun l => l.ctx == c) && s.launchWork c
    match nextAfter ready p.rrLaunch with
    | some c => s.takeRecord c
    | none => if p.launches.isEmpty then { s with package := { p with belled := [] } } else s

def execLaunchRecord (s : State) : Out :=
  match s.agenda with
  | .launchRecord :: t => .next { s with agenda := t }.launchTurn
  | _ => .next s

/-! ## LAUNCH_RECORD_COMPLETE (R328) -/

/-- HEAD passes the record, and the host is told if it asked and NOTIFY is accepted. -/
def State.endLaunch (s : State) (c : Nat) : State :=
  match s.package.launches.find? fun l => l.ctx == c with
  | none => s
  | some l =>
    let s := { s with package := { s.package with launches := s.package.launches.erase l } }
    let a := (s.getCtx c).launchAddr
    let s := match s.agentRead true (a + 8) 4 with
      | (s, some h) => s.agentWrite c (a + 8) (leBytes (h + 1) 4)
      | (s, none) => s
    (if l.notify && s.package.accepts 15 then s.notify l.vec else s).post .launchRecord

def execLaunchRecordComplete (s : State) : Out :=
  match s.agenda with
  | .launchRecordComplete c :: t => .next ({ s with agenda := t }.endLaunch c)
  | _ => .next s

end Sys2Proof.Machine
end

