-- ==== Sys2Proof/Machine/Sha3.lean ====
section
/-!
DEFINITION. SHA3-512 and the MAC of a capability (R215). The permutation's rotations and round words are computed from the
rules that define them.
-/
namespace Sys2Proof.Machine

/-! ## The permutation: 25 lanes, the lane of column `x` and row `y` at place `x + 5y` -/

/-- One turn of the 8-bit shift register whose low bits make the round words. -/
def turnRegister (r : Nat) : Nat := if 128 ≤ r then (2 * r) ^^^ 0x171 else 2 * r

/-- The register after `n` turns. -/
def registerAfter (r : Nat) : Nat → Nat
  | 0 => r
  | n + 1 => registerAfter (turnRegister r) n

/-- The bits of a round word from a register: bit `2^j − 1` is the register's low bit after `j` turns. -/
def roundWord (r : Nat) : Nat → Nat → Nat
  | 0, _ => 0
  | n + 1, j => r % 2 * 2 ^ (2 ^ j - 1) + roundWord (turnRegister r) n (j + 1)

/-- The walk over the 24 lanes other than the first: whence a lane comes, where it goes, and by how much it turns. -/
def laneWalk (t x y : Nat) : Nat → List (Nat × Nat × Nat)
  | 0 => []
  | n + 1 =>
    let z := (2 * x + 3 * y) % 5
    (x + 5 * y, y + 5 * z, (t + 1) * (t + 2) / 2 % 64) :: laneWalk (t + 1) y z n

/-- The parities of the five columns. -/
def parities (a : List Word) : List Word :=
  (List.range 5).map fun x => (List.range 5).foldl (fun p y => p ^^^ a.getD (x + 5 * y) 0) 0

/-- Each lane takes the parities of its two neighbour columns. -/
def mixColumns (a : List Word) : List Word :=
  let p := parities a
  a.mapIdx fun i l => l ^^^ p.getD ((i + 4) % 5) 0 ^^^ (p.getD ((i + 1) % 5) 0).rotateLeft 1

/-- The lanes turn and change places along the walk. -/
def moveLanes (a : List Word) : List Word :=
  (laneWalk 0 1 0 24).foldl (fun b w => b.set w.2.1 ((a.getD w.1 0).rotateLeft w.2.2)) a

/-- Each lane takes the one after it, inverted, and the one after that, of its row. -/
def mixRows (a : List Word) : List Word :=
  a.mapIdx fun i l =>
    let row := i / 5 * 5
    l ^^^ (~~~(a.getD (row + (i + 1) % 5) 0) &&& a.getD (row + (i + 2) % 5) 0)

/-- The rounds, each with seven turns of the register. -/
def permute (a : List Word) (r : Nat) : Nat → List Word
  | 0 => a
  | n + 1 =>
    let b := mixRows (moveLanes (mixColumns a))
    permute (b.set 0 (b.getD 0 0 ^^^ word (roundWord r 7 0))) (registerAfter r 7) n

/-! ## The sponge at the rate of SHA3-512: nine doublewords -/

/-- The doublewords of bytes, lowest first. -/
def wordsOf (b : List Byte) : Nat → List Word
  | 0 => []
  | n + 1 => word (leNat (b.take 8)) :: wordsOf (b.drop 8) n

/-- Takes a message in blocks of 72 bytes; the last one, short of a block, carries the padding. -/
def takeBlocks (a : List Word) (m : List Byte) : Nat → List Word
  | 0 => a
  | n + 1 =>
    let block := if 72 ≤ m.length then m.take 72
      else ((m ++ 0x06 :: List.replicate 71 0).take 72).modify 71 (· ||| 0x80)
    let ws := wordsOf block 9
    takeBlocks (permute (a.mapIdx fun i l => l ^^^ ws.getD i 0) 1 24) (m.drop 72) n

/-- The state after a whole message. -/
def spongeOf (m : List Byte) : List Word := takeBlocks (List.replicate 25 0) m (m.length / 72 + 1)

/-- The 64 bytes of SHA3-512 of a message. -/
def sha3 (m : List Byte) : List Byte := ((spongeOf m).take 8).flatMap fun w => leBytes w.toNat 8

/-! ## The MAC (R215) -/

/-- The MAC of a capability whose bits [63:32] are `high`, in a package, under a boot key: the low half of the digest's first
doubleword. -/
def capMac (key : BitVec 512) (pkg : Nat) (high : BitVec 32) : BitVec 32 :=
  ((spongeOf (leBytes key.toNat 64 ++ leBytes high.toNat 4 ++ leBytes (pkg % 64) 4)).getD 0 0).setWidth 32

end Sys2Proof.Machine
end

