-- ==== Sys2Proof/Machine/EngineQueue.lean ====
section
/-!
DEFINITION. Commands at an engine: acceptance and refusal (R300, R305, R306), the capability of a matrix command (R314,
R434, R483), the replies, and the MAC that `CAPMINT` waits for (R215).
-/
namespace Sys2Proof.Machine

/-! ## Queues (R300, R305) -/

/-- Places of a command queue, the running command included. -/
def queuePlaces : Nat := 16

/-- The matrix engine of an engine number. -/
def mxeOf (engine : Nat) : Fin 4 := Fin.ofNat 4 engine

/-- How many commands an engine has. -/
def Die.queueLength (d : Die) (engine : Nat) : Nat :=
  if engine < 8 then d.bteQ[(Fin.ofNat 8 engine).val].length else d.mxeQ[(mxeOf engine).val].length

/-- The BTE with the fewest commands, the lowest among equals. -/
def Die.leastBusy (d : Die) : Nat :=
  (List.range 8).foldl (fun b e => if d.queueLength e < d.queueLength b then e else b) 0

/-- The engine of a die that takes a command: for an AUTO transfer the least busy BTE. -/
def Die.engineFor (d : Die) (engine : Nat) (c : EngineCmd) : Nat :=
  match c with
  | .bte x => if x.auto then d.leastBusy else x.bte.val
  | .mxe _ => engine

/-- A command enters a queue; the first in it starts to run. -/
def State.enterQueue (s : State) (die engine : Nat) (c : EngineCmd) : State :=
  let d := s.getDie die
  let first := d.queueLength engine == 0
  let d := match c with
    | .bte x => let i := Fin.ofNat 8 engine; { d with bteQ := d.bteQ.set i.val (d.bteQ[i.val] ++ [x]) }
    | .mxe x => let i := mxeOf engine; { d with mxeQ := d.mxeQ.set i.val (d.mxeQ[i.val] ++ [x]) }
  let s := s.setDie die d
  if first then s.post (.completionMessage die engine) else s

/-! ## Capabilities (R314, R434, R483) -/

/-- The capability of a command. -/
def capabilityOf (c : MxeCmd) : Word := word (blockField c.bytes 32 8)

/-- The checks of R314 but for the MAC, in the order of its table: the detail of the first that fails. -/
def State.capDetail (s : State) (die bassoon : Nat) (c : MxeCmd) : Option Nat :=
  let k := capabilityOf c
  let left := (k.bits 32 16 + 2 ^ 16 - s.time.bits 20 16) % 2 ^ 16
  if k.bits 56 8 ≠ c.ctx % 256 then some 1
  else if !k.bit (48 + bassoon) then some 2
  else if die ≠ c.fromDie ∧ !k.bit 52 then some 3
  else if k.bits 53 3 ≠ 0 then some 4
  else if left = 0 ∨ 32767 < left then some 5
  else none

/-- The MAC of a capability of this package (R215). -/
def State.macOf (s : State) (high : BitVec 32) : BitVec 32 := capMac (Config.bootKey s.package.key) s.pkg high

/-- A refused command: its locks drop, and the slot hears of it. -/
def State.refuseCmd (s : State) (die : Nat) (c : MxeCmd) (detail : Nat) : State :=
  (s.endMatrix die c).post (.commandAcceptanceReply c.slot c.gen (.refused detail (capabilityOf c)))

/-- An accepted command of a matrix engine. -/
def State.acceptCmd (s : State) (die engine : Nat) (c : MxeCmd) : State :=
  (s.enterQueue die engine (.mxe c)).post (.commandAcceptanceReply c.slot c.gen .accepted)

/-- The capability check at acceptance. A capability not among the 16 verified last waits for the Quince core; with the
keys erased no MAC is right. -/
def State.checkCmd (s : State) (die engine : Nat) (c : MxeCmd) : State :=
  let b := mxeOf engine
  match s.capDetail die b.val c with
  | some d => s.refuseCmd die c d
  | none =>
    if s.package.keysErased then s.refuseCmd die c 6
    else
      let d := s.getDie die
      match d.macs[b.val].find? fun k => k.bits 32 32 == (capabilityOf c).bits 32 32 with
      | some k => if k = capabilityOf c then s.acceptCmd die engine c else s.refuseCmd die c 6
      | none => (s.setDie die { d with macWait := d.macWait ++ [(engine, c)] }).post (.quinceMacVerification die engine)

/-! ## ENGINE_COMMAND_ARRIVAL (R300, R306, R314) -/

/-- A command at its engine: none if its queue is full. -/
def State.offerCommand (s : State) (die engine : Nat) (c : EngineCmd) : Option State :=
  match c with
  | .bte x =>
    let d := s.getDie die
    let e := d.engineFor engine c
    if queuePlaces ≤ d.queueLength e then none
    else
      let i := Fin.ofNat 8 e
      let id := e * 8192 + d.bteCtr[i.val]
      let s := s.setDie die { d with bteCtr := d.bteCtr.set i.val ((d.bteCtr[i.val] + 1) % 8192) }
      some ((s.enterQueue die e (.bte { x with id := id })).post (.commandAcceptanceReply x.slot x.gen (.transfer x.rd id)))
  | .mxe x => if queuePlaces ≤ (s.getDie die).queueLength engine then none else some (s.checkCmd die engine x)

/-- Whether two transfers may go to one BTE: both name it, or one of them takes the least busy as it is accepted. Where an AUTO
launch would go is not known while it waits, and so it and launches to any BTE keep their order: the spec orders launches to one BTE
only. DESIGN CHOICE (log 78), unsafe. -/
def sameBte (x y : BteCmd) : Bool := x.auto || y.auto || x.bte == y.bte

/-- An older transfer of the same slot waits to be sent again: launches of a slot to one BTE keep their order (R306), those of its
earlier activations among them (R28, R123). -/
def State.commandHeld (s : State) (c : EngineCmd) : Bool :=
  s.backoff.any fun r => match r, c with
    | .command _ _ (.bte x), .bte y => x.slot == y.slot && sameBte x y
    | _, _ => false

def execEngineCommandArrival (s : State) : Out :=
  match s.agenda with
  | .engineCommandArrival die engine _ c :: t =>
    let s := { s with agenda := t }
    let held := { s with backoff := s.backoff ++ [Resend.command die engine c] }
    .next (if s.commandHeld c then held else (s.offerCommand die engine c).getD held)
  | _ => .next s

/-! ## QUINCE_MAC_VERIFICATION (R314, R483) -/

/-- The Quince core answers for the oldest command of an engine that waits: every check is made, and a capability whose
MAC is right is kept. A command whose queue has filled meanwhile counts as refused and is sent again after its back-off, where the
spec does not say what becomes of it. DESIGN CHOICE (log 78), unsafe. -/
def State.macVerified (s : State) (die engine : Nat) : State :=
  let d := s.getDie die
  match d.macWait.find? fun x => x.1 == engine with
  | none => s
  | some (_, c) =>
    let s := s.setDie die { d with macWait := d.macWait.erase (engine, c) }
    let b := mxeOf engine
    let d := s.getDie die
    if queuePlaces ≤ d.queueLength engine then { s with backoff := s.backoff ++ [Resend.command die engine (.mxe c)] }
    else
      match s.capDetail die b.val c with
      | some e => s.refuseCmd die c e
      | none =>
        let k := capabilityOf c
        if !s.package.keysErased && (s.macOf (k.extractLsb' 32 32)) == k.extractLsb' 0 32 then
          (s.setDie die { d with macs := d.macs.set b.val ((k :: d.macs[b.val]).take 16) }).acceptCmd die engine c
        else s.refuseCmd die c 6

def execQuinceMacVerification (s : State) : Out :=
  match s.agenda with
  | .quinceMacVerification die engine :: t => .next ({ s with agenda := t }.macVerified die engine)
  | _ => .next s

/-! ## COMMAND_ACCEPTANCE_REPLY (R306, R313, R434) -/

/-- The reply reaches the activation that sent the command: rd receives the transfer id, or the word that waits goes on. -/
def State.commandReply (s : State) (k gen : Nat) (r : EngineReply) : State :=
  let x := s.getSlot k
  if x.gen ≠ gen then s
  else
    let answer (w : Wait) : Slot := if x.wait = some .sent then { x with wait := some w } else x
    let x := match r with
      | .transfer rd id => x.reply rd .engine (word (id % 2 ^ 16))
      | .accepted => answer .accepted
      | .refused d cap => answer (.refused d cap)
    (s.setSlot k x).poke k

def execCommandAcceptanceReply (s : State) : Out :=
  match s.agenda with
  | .commandAcceptanceReply k gen r :: t => .next ({ s with agenda := t }.commandReply k gen r)
  | _ => .next s

/-! ## MAC_RETURN (R215, R483) -/

/-- The digest returns to a `CAPMINT`: rd receives the capability, with MAC 0 once the keys are erased. -/
def State.macReturn (s : State) (k gen : Nat) (rd : GReg) (high : BitVec 32) : State :=
  let x := s.getSlot k
  let mac := if s.package.keysErased then 0 else s.macOf high
  if x.gen = gen then (s.setSlot k (x.reply rd .mac (high ++ mac))).poke k else s

def execMacReturn (s : State) : Out :=
  match s.agenda with
  | .macReturn k gen rd high :: t => .next ({ s with agenda := t }.macReturn k gen rd high)
  | _ => .next s

end Sys2Proof.Machine
end

