-- ==== Sys2Proof/Machine/EngineRun.lean ====
section
/-!
DEFINITION. The run of an engine command: block transfers (R307, R308, R452), matrix products (R87, R88, R311 to R318),
quantising (R82, R319), completion messages (R302), engine faults and parked commands (R452 to R454).
-/
namespace Sys2Proof.Machine

/-! ## What an engine accesses -/

/-- A fault met while a command runs: its CODE (R452) and the faulting virtual address. CODE 0 stands for no fault but a wait: the
page of a COH line has been claimed, and the claim is not answered yet (R153). -/
structure CmdFault where
  code : Nat
  va : Word
deriving DecidableEq, Repr

/-- An engine as a party: the address space and privilege of the issuing activation, and load pipes with a TLB of
their own, kept under a core number that no core has (R118, R315). -/
def engineWho (die engine ctx lcore : Nat) (supervisor : Bool) (asid : Nat) : Who :=
  ⟨ctx, lcore, 0, supervisor, coreKey die (160 + engine), true, asid⟩

/-- Kinds a transfer may move between (R307). -/
def bteKind : MemKind → Bool
  | .coh | .swm | .hco | .hnc | .domain | .spad 0 => true
  | _ => false

/-- Kinds a matrix engine reads operands from (R315); `MQD` writes its slots there too (log 14). -/
def mxeKind : MemKind → Bool
  | .coh | .swm | .domain | .spad 0 => true
  | _ => false

/-- Translates an access of an engine: its physical address, or the fault. The page of a COH line is claimed and shared first
(R153); an HCO line comes to the agent of its port (R162). -/
def State.enginePlace (s : State) (w : Who) (va : Word) (write : Bool) (ok : MemKind → Bool) (tcode acode : Nat) :
    State × Except CmdFault Nat :=
  match s.translate w va ⟨!write, write, false⟩ with
  | (s, .error .dead) => (s.tableFailure (s.whoPlace w) w.ctx, .error ⟨tcode, va⟩)
  | (s, .error (.page _)) => (s, .error ⟨tcode, va⟩)
  | (s, .error (.access ..)) => (s, .error ⟨acode, va⟩)
  | (s, .ok p) =>
    if !ok p.kind then (s, .error ⟨acode, va⟩)
    else if p.kind = .coh ∧ !s.pageReady p.pa w.core then (s.reclaim w va, .error ⟨0, va⟩)
    else (if p.kind = .hco then s.obtain (lineOf p.pa) write else s, .ok p.pa)

/-- Runs an action for each of a list: the faults and the results. -/
def foldAll {α β : Type} (f : State → α → State × Except CmdFault β) (s : State) : List α → State × List CmdFault × List β
  | [] => (s, [], [])
  | x :: t =>
    match f s x with
    | (s, .error e) => let (s, es, rs) := foldAll f s t; (s, e :: es, rs)
    | (s, .ok r) => let (s, es, rs) := foldAll f s t; (s, es, r :: rs)

/-- Which of several faults an engine meets first is left open; while it waits for a page it has met none. -/
def State.chooseFault (s : State) (es : List CmdFault) : State × Option CmdFault :=
  (s.bump, match es.find? fun e => e.code == 0 with
    | some e => some e
    | none => match es with
    | [] => none
    | e :: _ => some (es.getD ((Config.freeWord s.freeCtr).toNat % es.length) e))

/-! ## Block transfers (R307, R308, R452) -/

/-- The address of byte `i` of a side: row by row, or one after another. -/
def rowAddr (base stride : Word) (rows rowb i : Nat) : Word :=
  if rows = 0 then base + word i else base + word (i / rowb) * stride + word (i % rowb)

/-- The source address of byte `i` of a transfer. -/
def bteSource (c : BteCmd) (i : Nat) : Word := rowAddr c.src c.strs (c.shape.bits 32 24) (c.shape.bits 0 32) i

/-- The logical core and offset to which a deal moves byte `i` (R308). -/
def dealPlace (c : BteCmd) (i : Nat) : Nat × Nat :=
  let a := c.dst.toNat - 0x00F0000000000000
  let blk := i / dealBlock c.deal
  let t := (dealFirst c.deal + blk) % dealNq c.deal
  (a / 0x40000 + t * dealStep c.deal, a % 0x40000 + dealBlock c.deal * (blk / dealNq c.deal) + i % dealBlock c.deal)

/-- The destination address of byte `i`. -/
def bteDest (c : BteCmd) (i : Nat) : Word :=
  if c.deal.bit 63 then word (apertureVa (dealPlace c i).1 (dealPlace c i).2)
  else rowAddr c.dst c.strd (c.shape.bits 32 24) (c.shape.bits 0 32) i

/-- An offset beyond the share of a logical core is no address of it. -/
def dealOutside (c : BteCmd) (i : Nat) : Bool := c.deal.bit 63 && decide (0x40000 ≤ (dealPlace c i).2)

/-- Source and destination of byte `i`. -/
def State.movePlaces (w : Who) (c : BteCmd) (s : State) (i : Nat) : State × Except CmdFault (Nat × Nat × Nat) :=
  match s.enginePlace w (bteSource c i) false bteKind 2 4 with
  | (s, .error e) => (s, .error e)
  | (s, .ok a) =>
    if dealOutside c i then (s, .error ⟨3, bteDest c i⟩)
    else match s.enginePlace w (bteDest c i) true bteKind 3 4 with
      | (s, .error e) => (s, .error e)
      | (s, .ok b) => (s, .ok (i, a, b))

/-- Moves bytes raw. Every byte is read before one is written; a destination word that receives a byte of a poisoned word
is poisoned. Where rows of a 2-D transfer overlap at the destination the spec gives no order among the writes: the later row stands.
DESIGN CHOICE (log 78), unsafe. -/
def State.moveBytes (s : State) (moves : List (Nat × Nat × Nat)) : State :=
  let bytes := moves.map fun m => memGet s.mem m.2.1
  let bad : List Nat := (moves.filter fun (m : Nat × Nat × Nat) => s.poison.contains (m.2.1 / 8)).map fun m => m.2.2 / 8
  let dests : List Nat := moves.map fun m => m.2.2
  let s := { s with mem := memScatter s.mem dests bytes }.unpoison (dests.map fun a => (a, 1))
  { s with poison := s.poison ++ bad.dedup.filter fun w => !s.poison.contains w }

/-- A transfer stopped by a fault that is no poison: which bytes it has moved an open choice picks; none while it waits. -/
def State.movePart (s : State) (moves : List (Nat × Nat × Nat)) (n : Nat) (e : CmdFault) : State × Option CmdFault :=
  if e.code = 0 then (s, some e)
  else
    let some' := moves.filter fun m => (Config.freeWord (s.freeCtr + m.1)).bit 0
    ({ s.moveBytes some' with freeCtr := s.freeCtr + n }, some e)

/-- Moves every byte, and finds the first poisoned source. -/
def State.moveAll (s : State) (c : BteCmd) (moves : List (Nat × Nat × Nat)) : State × Option CmdFault :=
  (s.moveBytes moves, (moves.find? fun m => s.poison.contains (m.2.1 / 8)).map fun m => ⟨5, bteSource c m.1⟩)

/-- A request to the host, of the byte that an open choice picks among those that a host window holds, fails: refused (ACCESS of
R440), or, of a read, with poisoned data, which marks a word of an HCO line (R444, R452). -/
def State.hostFault (s : State) (c : BteCmd) (moves : List (Nat × Nat × Nat)) (n : Nat) : State × Option CmdFault :=
  let out := moves.filter fun m => s.isHco m.2.1 || s.isHco m.2.2
  match out.getD ((Config.freeWord s.freeCtr).toNat % out.length) (0, 0, 0), (Config.freeWord (s.freeCtr + 1)).bit 0 with
  | (i, a, _), poison =>
    let s := { s with freeCtr := s.freeCtr + 2 }
    if s.isHco a && poison then { s with poison := s.poison ++ [a / 8] }.moveAll c moves
    else s.movePart moves n ⟨4, if s.isHco a then bteSource c i else bteDest c i⟩

/-- A transfer: every byte, or on a fault those that an open choice picks. With `fault` the end that takes place is one with a
fault: where the transfer meets none itself, a request to the host fails, if it makes any. -/
def State.transfer (s : State) (die engine : Nat) (c : BteCmd) (fault : Bool) : State × Option CmdFault :=
  let n := c.cnt.bits 0 37
  let w := engineWho die engine c.ctx c.lcore c.supervisor (s.asidOf c.ctx)
  let (s, es, moves) := foldAll (State.movePlaces w c) s (List.range n)
  match s.chooseFault es with
  | (s, some e) => s.movePart moves n e
  | (s, none) =>
    if fault && (moves.any fun m => s.isHco m.2.1 || s.isHco m.2.2) && (moves.all fun m => !s.poison.contains (m.2.1 / 8)) then
      s.hostFault c moves n
    else s.moveAll c moves

/-! ## Operands (R311, R312, R315) -/

/-- Reads `n` bytes of an operand that lie on one page; poison is CODE 11. -/
def State.readOperand (w : Who) (n : Nat) (s : State) (va : Word) : State × Except CmdFault (List Byte) :=
  match s.enginePlace w va false mxeKind 6 8 with
  | (s, .error e) => (s, .error e)
  | (s, .ok pa) =>
    match s.poisonedWord pa n with
    | some wd => (s, .error ⟨11, va + word (8 * wd - pa)⟩)
    | none => (s, .ok (memRead s.mem pa n))

/-- An operand as it was read: the bits and the scale of each element by row and column. -/
structure Operand where
  width : Nat
  elems : Array (Nat × Int)

def Operand.at (o : Operand) (i j : Nat) : Nat × Int := o.elems.getD (i * o.width + j) (0, 0)

/-- The elements of a plain operand: rows from `i0`, `ni` by `nj` of them. -/
def State.loadPlain (s : State) (w : Who) (code base ld i0 ni nj : Nat) : State × List CmdFault × Operand :=
  let es := mxeElemBytes code
  let addrs := (List.range ni).flatMap fun i => (List.range nj).map fun j => word (base + (i0 + i) * ld + j * es)
  let (s, faults, bs) := foldAll (State.readOperand w es) s addrs
  (s, faults, ⟨nj, (bs.map fun b => (leNat b, (0 : Int))).toArray⟩)

/-- The lines of a tile slot that hold bytes from `a` up to `b`. -/
def slotLines (a b : Nat) : List Nat := (List.range ((min b tileBytes + 127) / 128 - a / 128)).map (a / 128 + ·)

/-- Fetches lines of a tile slot into its bytes, unless an earlier line failed. -/
def State.fetchLines (w : Who) (va : Word) (lines : List Nat) (r : State × Except CmdFault (List Byte)) :
    State × Except CmdFault (List Byte) :=
  lines.dedup.foldl (fun r l =>
    match r with
    | (s, .ok bs) =>
      match s.readOperand w 128 (va + word (128 * l)) with
      | (s, .ok x) => (s, .ok (bs.take (128 * l) ++ x ++ bs.drop (128 * l + 128)))
      | (s, .error e) => (s, .error e)
    | r => r) r

/-- Reads what the first rows and columns of a tile need: its header line, then the lines that hold coded bytes of the blocks
they lie in (R315); CODE 12 if it is malformed. -/
def State.readTile (w : Who) (s : State) (x : Word × Nat × Nat) : State × Except CmdFault Tile :=
  let va := x.1
  let slotOffsets (bs : List Byte) : List Nat := (tileOffsets bs (neededBlocks bs x.2.1 x.2.2)).filter (· < tileBytes)
  let r := State.fetchLines w va [0] (s, .ok (List.replicate tileBytes 0))
  let r := match r with
    | (s, .ok bs) => State.fetchLines w va ((slotOffsets bs).flatMap fun o => slotLines o (o + 18)) (s, .ok bs)
    | r => r
  let r := match r with
    | (s, .ok bs) =>
      State.fetchLines w va ((slotOffsets bs).flatMap fun o => slotLines o (o + 18 + (bs.getD (o + 1) 0).toNat)) (s, .ok bs)
    | r => r
  match r with
  | (s, .error e) => (s, .error e)
  | (s, .ok bs) => (s, match decodeTile bs x.2.1 x.2.2 with | some t => .ok t | none => .error ⟨12, va⟩)

/-- The elements of an F8K operand. -/
def State.loadTiles (s : State) (w : Who) (base ld i0 ni nj : Nat) : State × List CmdFault × Operand :=
  let t0 := i0 / 32
  let rows := (i0 + ni + 31) / 32 - t0
  let cols := (nj + 31) / 32
  let addrs := (List.range rows).flatMap fun i => (List.range cols).map fun j =>
    (word (base + (t0 + i) * ld + j * tileBytes), min 32 (i0 + ni - 32 * (t0 + i)), min 32 (nj - 32 * j))
  let (s, faults, ts) := foldAll (State.readTile w) s addrs
  let tiles := ts.toArray
  let elem (i j : Nat) : Nat × Int :=
    match tiles[((i0 + i) / 32 - t0) * cols + j / 32]? with
    | some t => (t.elem ((i0 + i) % 32) (j % 32), t.scale)
    | none => (0, 0)
  (s, faults, ⟨nj, ((List.range ni).flatMap fun i => (List.range nj).map fun j => elem i j).toArray⟩)

def State.loadOperand (s : State) (w : Who) (code base ld i0 ni nj : Nat) : State × List CmdFault × Operand :=
  if code = 2 then s.loadTiles w base ld i0 ni nj else s.loadPlain w code base ld i0 ni nj

/-! ## Sums (R87, R88) -/

/-- The value of an element of the F8 and B16 families. -/
def operandVal (code : Nat) (x : Nat × Int) : FVal :=
  match code with
  | 0 => Fmt8.f8.read x.1
  | 1 => Fmt8.f8w.read x.1
  | 2 => scaleVal (Fmt8.f8.read x.1) x.2
  | 3 => Fmt.b16.read x.1
  | _ => Fmt.h16.read x.1

/-- The sum of an F8 group: exact, rounded once. -/
def f8Group (ps : List FVal) : Nat :=
  if ps.any FVal.isNaN then Fmt.fp32.canonNaN else (roundVal .fp32 .rne (sumVals ps)).bits

/-- A product truncated toward zero to a multiple of 2^q. -/
def truncVal (q : Int) : FVal → FVal
  | .num n m e => if q ≤ e then .num n m e else if m / 2 ^ (q - e).toNat = 0 then .zero n else .num n (m / 2 ^ (q - e).toNat) q
  | v => v

/-- The sum of a B16 or H16 group (R88). -/
def b16Group (ps : List FVal) : Nat :=
  if ps.any FVal.isNaN || (ps.contains (.inf true) && ps.contains (.inf false)) then Fmt.fp32.canonNaN
  else match ps.find? FVal.isInf with
    | some v => (roundVal .fp32 .rne v).bits
    | none =>
      match ps.filterMap fun v => match v with | .num _ m e => some ((Nat.log2 m : Int) + e) | _ => none with
      | [] => 0
      | t :: ts => (roundVal .fp32 .rne (sumVals (ps.map (truncVal (ts.foldl max t - 52))))).bits

/-- The running sum of groups of `g` products. -/
def groupedSum (group : List FVal → Nat) (g k : Nat) (p : Nat → FVal) : Nat :=
  (List.range (k / g)).foldl (fun sum i => (fAdd .fp32 .rne sum (group ((List.range g).map fun j => p (g * i + j)))).bits) 0

/-- One element of the product: the update it sends (R87). -/
def productElem (fa fb k : Nat) (a b : Nat → Nat × Int) : Nat :=
  match mxeFamily fa with
  | .f8 => groupedSum f8Group 64 k fun i => (operandVal fa (a i)).mul (operandVal fb (b i))
  | .b16 => groupedSum b16Group 16 k fun i => (operandVal fa (a i)).mul (operandVal fb (b i))
  | .i8 => intBits 32 ((List.range k).foldl (fun (sum : Int) i => sum + readInt true 8 (a i).1 * readInt true 8 (b i).1) 0)
  | .fp64 => (List.range k).foldl (fun sum i => (fFma .fp64 .rne false false (a i).1 (b i).1 sum).bits) 0

/-- The line type of a family (R312). -/
def familyType : MxeFamily → AccType
  | .f8 | .b16 => .fp32 | .i8 => .i32 | .fp64 => .fp64

/-! ## Bands (R317, R318) -/

/-- A line of C: its row, its place in the row, and its base line's address and ACCN. -/
structure CLine where
  row : Nat
  part : Nat
  va : Word
  line : Nat
  n : Nat
deriving DecidableEq, Repr

/-- Translates a line of C. -/
def State.placeLine (w : Who) (c ldc : Nat) (s : State) (x : Nat × Nat) : State × Except CmdFault CLine :=
  let va := word (c + x.1 * ldc + x.2 * 128)
  match s.translate w va ⟨false, true, false⟩ with
  | (s, .error .dead) => (s.tableFailure (s.whoPlace w) w.ctx, .error ⟨7, va⟩)
  | (s, .error (.page _)) => (s, .error ⟨7, va⟩)
  | (s, .error (.access ..)) => (s, .error ⟨8, va⟩)
  | (s, .ok ⟨.acc n, pa⟩) => (s, .ok ⟨x.1, x.2, va, lineOf pa, n⟩)
  | (s, .ok _) => (s, .error ⟨9, va⟩)

/-- Puts a list in an order that an open choice picks. -/
def freeOrder {α : Type} (ctr : Nat) (l : List α) : List α :=
  l.zipIdx.foldl (fun acc x => let k := (Config.freeWord (ctr + x.2)).toNat % (acc.length + 1); acc.take k ++ x.1 :: acc.drop k) []

/-- Sends the updates of one line: applied, or refused unchanged with the CODE of the refusal. -/
def State.sendLine (ty : AccType) (contrib : Nat) (value : Nat → Nat → Nat) (cols per : Nat) (s : State) (x : CLine) :
    State × Except CmdFault Unit :=
  match s.updateDetail x.line ty contrib with
  | some d => (s, .error ⟨if d = 4 then 10 else 9, x.va⟩)
  | none =>
    let elems := (List.range (min per (cols - x.part * per))).map fun j =>
      (x.line + j * accSize ty, value x.row (x.part * per + j))
    (s.applyUpdate x.n x.line contrib elems, .ok ())

/-- One band: every operand is read and every line of C translated before its first update leaves; then every update is
sent, in an order between lines that is left open. -/
def State.runBand (s : State) (w : Who) (b : List Byte) (band : Nat) : State × Option CmdFault :=
  let fa := mmaFa b
  let ty := familyType (mxeFamily fa)
  let per := 128 / accSize ty
  let r0 := 32 * band
  let rows := min 32 (mmaM b - 32 + mmaMlast b - r0)
  let cols := mmaN b - 32 + mmaNlast b
  let (s, e1, x) := s.loadOperand w fa (mmaA b) (mmaLda b) r0 rows (mmaK b)
  let (s, e2, y) := s.loadOperand w (mmaFb b) (mmaB b) (mmaLdb b) 0 (mmaK b) cols
  let (s, e3, ls) := foldAll (State.placeLine w (mmaC b) (mmaLdc b)) s
    ((List.range rows).flatMap fun i => (List.range ((cols + per - 1) / per)).map fun p => (r0 + i, p))
  match s.chooseFault (e1 ++ e2 ++ e3) with
  | (s, some e) => (s, some e)
  | (s, none) =>
    let value (i j : Nat) : Nat := productElem fa (mmaFb b) (mmaK b) (fun k => x.at (i - r0) k) (fun k => y.at k j)
    let order := freeOrder s.freeCtr ls
    let (s, es, _) := foldAll (State.sendLine ty (mmaContrib b) value cols per) { s with freeCtr := s.freeCtr + ls.length } order
    s.chooseFault es

/-- Bands in order, up to a fault: the row progress at the end. -/
def State.runBands (s : State) (w : Who) (b : List Byte) : Nat → Nat → State × Nat × Option CmdFault
  | _, 0 => (s, mmaM b / 32, none)
  | band, n + 1 =>
    match s.runBand w b band with
    | (s, none) => s.runBands w b (band + 1) n
    | (s, some e) => (s, band, some e)

/-! ## MQD (R82, R319) -/

/-- Writes the lines of a slot to their places. -/
def State.writeLines (s : State) : List Nat → List Byte → State
  | [], _ => s
  | a :: t, bs =>
    ({ s with mem := memWrite s.mem a (bs.take 128) }.unpoison [(a, 128)]).writeLines t (bs.drop 128)

/-- Quantises a tile: both slots written in full, or nothing on a fault. -/
def State.quantise (s : State) (w : Who) (b : List Byte) : State × Option CmdFault :=
  let xs := (List.range 32).flatMap fun i => (List.range 32).map fun j => word (mqdX b + i * mqdLdx b + 4 * j)
  let (s, e1, elems) := foldAll (State.readOperand w 4) s xs
  let slot (base : Nat) : List Word := (List.range 14).map fun l => word (base + 128 * l)
  let (s, e2, places) := foldAll (fun s va => s.enginePlace w va true mxeKind 7 8) s (slot (mqdRow b) ++ slot (mqdCol b))
  match s.chooseFault (e1 ++ e2) with
  | (s, some e) => (s, some e)
  | (s, none) =>
    let vals := elems.map leNat
    let sc := quantScale vals
    let q := (vals.map (quantElem sc)).toArray
    let code (i j : Nat) : Nat := q.getD (32 * i + j) 0
    let tile (column : Bool) : List Byte := encodeTile sc column ((List.range 32).map fun i =>
      (List.range 32).map fun j => if column then code j i else code i j)
    (s.writeLines places (tile false ++ tile true), none)

/-! ## Completion (R302, R303, R316, R452) -/

/-- What is told of a command that has ended. -/
structure Ending where
  handler : Word
  prio : Nat
  ctx : Nat
  lcore : Nat
  doneLc : Nat
  first : Word
  /-- The completion word but for CODE. -/
  id : Nat
  bands : Nat
deriving DecidableEq, Repr

/-- The completion word. -/
def completionWord (die engine id bands code : Nat) : Word :=
  word (code % 2 ^ 8 + bands % 2 ^ 12 * 2 ^ 8 + die % 2 ^ 5 * 2 ^ 24 + engine % 8 * 2 ^ 29 +
    (if engine < 8 then 0 else 2 ^ 32) + id % 2 ^ 16 * 2 ^ 48)

def bteEnding (c : BteCmd) : Ending := ⟨c.handler, c.prio, c.ctx, c.lcore, c.doneLc, c.tag, c.id, 0⟩

/-- The ending of a matrix command with a row progress. -/
def mxeEnding (c : MxeCmd) (bands : Nat) : Ending :=
  let b := c.bytes
  let lc := if c.mqd then blockField b 44 2 else blockField b 60 2
  let prio := if c.mqd then blockField b 46 1 % 4 else mmaPrio b
  ⟨word (blockField b 24 8), prio, c.ctx, c.lcore, if lc = 0xFFFF then c.lcore else lc, c.block, 0, if c.mqd then 0 else bands⟩

/-- Sends a completion message to the core of its logical core; one with no core to go to is discarded. -/
def State.sendCompletion (s : State) (die engine : Nat) (e : Ending) (code : Nat) (va : Word) : State :=
  let tail := if 2 ≤ code then [va] else []
  let payload := e.first :: completionWord die engine e.id e.bands code :: tail
  let m : Msg := ⟨e.handler, metaOf 2 payload.length e.prio e.ctx e.lcore e.doneLc, payload⟩
  if !(s.getCtx e.ctx).live then s.dropped die e.ctx
  else match s.ctAccess e.ctx e.doneLc with
    | (s, .unreadable) => s.tableFailure (s.unitPlace die engine) e.ctx
    | (s, .unmapped) => s.dropped die e.ctx
    | (s, .entry _ x) =>
      if x.pkg = s.pkg then s.sendTo die (engineStop engine) (coreKey x.die x.pcore) m .none
      else match s.routeAccess e.ctx x.pkg with
        | (s, .open p) => s.sendAway p m .none
        | (s, .shut) => s.dropped die e.ctx
        | (s, .unreadable) => s.tableFailure (s.unitPlace die engine) e.ctx

/-- The head command leaves its queue: the next starts, and a restart that waits for a place is tried (R454). -/
def State.leaveQueue (s : State) (die engine : Nat) : State :=
  let d := s.getDie die
  let d := if engine < 8 then let i := Fin.ofNat 8 engine; { d with bteQ := d.bteQ.set i.val (d.bteQ[i.val].drop 1) }
    else let i := mxeOf engine; { d with mxeQ := d.mxeQ.set i.val (d.mxeQ[i.val].drop 1) }
  let s := s.setDie die d
  let s := if d.queueLength engine = 0 then s else s.post (.completionMessage die engine)
  match d.park.find? fun p => p.2.restart && p.2.bassoon + 8 == engine with
  | some p => s.post (.mxactRestart die (Fin.ofNat 16 p.1))
  | none => s

/-- The head command of an engine, whose locks have dropped, ends: its completion is sent (R302). -/
def State.complete (s : State) (die engine : Nat) (e : Ending) (code : Nat) (va : Word) : State :=
  (s.sendCompletion die engine e code va).leaveQueue die engine

/-! ## Parked commands (R453) -/

/-- The report of a parked command. -/
def parkReport (die bassoon entry code : Nat) (va : Word) (c : MxeCmd) (bands : Nat) : Report :=
  ⟨Cause.engine.code, false, c.ctx, none, c.lcore, c.block, va, 0, code + entry * 2 ^ 8,
    completionWord die (mxeEngine bassoon) 0 (mxeEnding c bands).bands code, 0⟩

/-- No queued command waits for a parked one (log 51). -/
def State.released (s : State) (lock : Nat) : State :=
  let rest := fun (l : List Nat) => l.filter (· != lock)
  { s with dies := s.dies.map fun (d : Nat × Die) => (d.1, { d.2 with
      bteQ := d.2.bteQ.map fun q => q.map fun (c : BteCmd) => { c with after := rest c.after }
      mxeQ := d.2.mxeQ.map fun q => q.map fun (c : MxeCmd) => { c with after := rest c.after } }) }

/-- A command with a translation fault parks, with its locks; with no entry free it completes. -/
def State.parkCmd (s : State) (die bassoon code : Nat) (va : Word) (c : MxeCmd) (bands : Nat) : State :=
  let d := s.getDie die
  match (List.range 4).find? fun i => !tabHas d.park (4 * bassoon + i) with
  | some i =>
    let entry := 4 * bassoon + i
    let p : Parked := ⟨{ c with sb := if c.mqd then 0 else bands }, bassoon, code, va, false⟩
    (((s.setDie die { d with park := tabSet d.park entry p }).released c.lock).leaveQueue die (mxeEngine bassoon)).sendReport
      (s.unitPlace die (mxeEngine bassoon)) (parkReport die bassoon entry code va c bands)
  | none =>
    ((s.endMatrix die c).complete die (mxeEngine bassoon) (mxeEnding c bands) code va).sendReport
      (s.unitPlace die (mxeEngine bassoon)) (parkReport die bassoon 15 code va c bands)

/-! ## COMPLETION_MESSAGE, ENGINE_FAULT -/

/-- Runs a matrix command: the state, the row progress, and the fault. -/
def State.runMxe (s : State) (die engine : Nat) (c : MxeCmd) : State × Nat × Option CmdFault :=
  let w := engineWho die engine c.ctx c.lcore c.supervisor c.asid
  if c.mqd then let (s, e) := s.quantise w c.bytes; (s, 0, e)
  else s.runBands w c.bytes c.sb (mmaM c.bytes / 32 - c.sb)

/-- Whether a command that another one follows has not ended (R140). -/
def State.running (s : State) (after : List Nat) : Bool :=
  s.dies.any fun (d : Nat × Die) => d.2.locks.any fun l => after.contains l.2.cmd

/-- The registrations that the head command of an engine follows. -/
def Die.headAfter (d : Die) (engine : Nat) : List Nat :=
  if engine < 8 then ((d.bteQ[(Fin.ofNat 8 engine).val].head?).map BteCmd.after).getD []
  else ((d.mxeQ[(mxeOf engine).val].head?).map MxeCmd.after).getD []

/-- Whether an engine is the MXE of an isolated Bassoon (R471). -/
def State.mxeIsolated (s : State) (die engine : Nat) : Bool :=
  decide (8 ≤ engine) && (s.getCore (coreKey die (128 + (mxeOf engine).val))).isolated

/-- The head command of an engine waits for a page, and goes on later: a matrix command from its row progress. -/
def State.waitHead (s : State) (die engine bands : Nat) (fault : Bool) : State :=
  let d := s.getDie die
  let at_ := fun (l : List MxeCmd) => match l with | c :: t => { c with sb := bands } :: t | [] => []
  let s := if engine < 8 then s
    else s.setDie die { d with mxeQ := d.mxeQ.set (mxeOf engine).val (at_ d.mxeQ[(mxeOf engine).val]) }
  s.post (if fault then .engineFault die engine else .completionMessage die engine)

/-- The head command of an engine runs to its end; `fault` says whether an end with a fault takes place now. A run that
meets a fault where none was awaited has its effects in the event ENGINE_FAULT instead. -/
def State.runHead (s : State) (die engine : Nat) (fault : Bool) : State :=
  let d := s.getDie die
  if engine < 8 then
    match d.bteQ[(Fin.ofNat 8 engine).val] with
    | [] => s
    | c :: _ =>
      match s.transfer die engine c fault with
      | (t, none) => (t.dropLocks die c.lock).complete die engine (bteEnding c) 0 0
      | (t, some e) =>
        if e.code = 0 then t.waitHead die engine 0 fault
        else if fault then (t.dropLocks die c.lock).complete die engine (bteEnding c) e.code e.va else s.post (.engineFault die engine)
  else
    let b := mxeOf engine
    match d.mxeQ[b.val] with
    | [] => s
    | c :: _ =>
      if s.mxeIsolated die engine then
        (s.bump.endMatrix die c).complete die engine (mxeEnding c c.sb) 13 (Config.freeWord s.freeCtr)
      else if !c.mqd && mxeFamily (mmaFa c.bytes) != mxeFamily (mmaFb c.bytes) then
        (s.endMatrix die c).complete die engine (mxeEnding c c.sb) 1 0
      else match s.runMxe die engine c with
        | (t, bands, none) => (t.endMatrix die c).complete die engine (mxeEnding c bands) 0 0
        | (t, bands, some e) =>
          if e.code = 0 then t.waitHead die engine bands fault
          else if !fault then s.post (.engineFault die engine)
          else if e.code = 6 ∨ e.code = 7 then t.parkCmd die b.val e.code e.va c bands
          else (t.endMatrix die c).complete die engine (mxeEnding c bands) e.code e.va

def execCompletionMessage (s : State) : Out :=
  match s.agenda with
  | .completionMessage die engine :: t =>
    let s := { s with agenda := t }
    .next (if s.running ((s.getDie die).headAfter engine) && !s.mxeIsolated die engine then s.post (.completionMessage die engine)
      else s.runHead die engine false)
  | _ => .next s

def execEngineFault (s : State) : Out :=
  match s.agenda with
  | .engineFault die engine :: t => .next ({ s with agenda := t }.runHead die engine true)
  | _ => .next s

/-! ## MXACT_RESTART, MXACT_ABANDON (R454) -/

/-- A restart: the command enters its queue at the tail, or waits for a place. -/
def State.restartParked (s : State) (die : Nat) (entry : Fin 16) : State :=
  let d := s.getDie die
  match d.park.find? fun p => p.1 == entry.val with
  | none => s
  | some (_, p) =>
    if queuePlaces ≤ d.queueLength (mxeEngine p.bassoon) then
      s.setDie die { d with park := tabSet d.park entry.val { p with restart := true } }
    else (s.setDie die { d with park := tabErase d.park entry.val }).enterQueue die (mxeEngine p.bassoon) (.mxe p.cmd)

def execMxactRestart (s : State) : Out :=
  match s.agenda with
  | .mxactRestart die entry :: t => .next ({ s with agenda := t }.restartParked die entry)
  | _ => .next s

/-- An abandon: the locks drop and the command completes with its CODE and BANDS. -/
def State.abandonParked (s : State) (die : Nat) (entry : Fin 16) : State :=
  let d := s.getDie die
  match d.park.find? fun p => p.1 == entry.val with
  | none => s
  | some (_, p) =>
    if p.restart then s
    else ((s.setDie die { d with park := tabErase d.park entry.val }).endMatrix die p.cmd).sendCompletion die
      (mxeEngine p.bassoon) (mxeEnding p.cmd p.cmd.sb) p.code p.va

def execMxactAbandon (s : State) : Out :=
  match s.agenda with
  | .mxactAbandon die entry :: t => .next ({ s with agenda := t }.abandonParked die entry)
  | _ => .next s

end Sys2Proof.Machine
end

