-- ==== Sys2Proof/Machine/Errors.lean ====
section
/-!
DEFINITION. Soft errors found by the scrubber (R443, R444), lost coherence state (R445), errors in a core's registers and
the isolation of a core (R471), and the isolation of an agent of a shootdown (R457), with their records (R458, R487).
-/
namespace Sys2Proof.Machine

/-- The record of a memory event at a line or word: class 1. -/
def memRecord (containment cause action : Nat) (pa place : Nat) : LogRecord :=
  ⟨1, containment, cause, action, none, some (pa, true), place, pa⟩

/-! ## PATROL_SCRUB (R443, R444, R458) -/

/-- The core in whose scratchpad a raw address lies (R100). -/
def spadCore (r : Nat) : Nat :=
  let o := (r - spadBase) % 0x40000000
  coreKey ((r - spadBase) / 0x40000000)
    (if o < 0x20000000 then o / 0x100000 * 4 + o % 0x100000 / 0x40000 else 128 + (o - 0x20000000) / 0x200000)

/-- The unit that stores a physical address, with its die: near DRAM, an LPDDR-6 channel, or a scratchpad. -/
def State.storeOf (s : State) (pa : Nat) : Option (Nat × Nat) :=
  match region s.pkg pa with
  | .near d => some (location 11 0 s.pkg d 0, d)
  | .far => some (location 6 (farChannel pa) s.pkg (homeDie pa) 0, homeDie pa)
  | .spad 0 r => let core := spadCore r; some (s.corePlace core, dieOfCore core)
  | _ => none

/-- A list with an element added once. -/
def addOnce (l : List Nat) (w : Nat) : List Nat := if l.contains w then l else l ++ [w]

/-- The copy of a line in the L1 of a core: clean (false) or dirty. -/
def State.l1Dirty (s : State) (core line : Nat) : Option Bool :=
  let c := s.getCore core
  if tabHas c.l1c line then some (!(lineCells c.l1 line).isEmpty)
  else match s.cst line core with
    | some .m => some true
    | some .s | some .e => some false
    | _ => none

/-- The copy of a line in the L2 of a die: of a line that software keeps consistent its own; of an accumulator line one that its
home holds alone; of any other that hardware keeps consistent the die's, as its proxy or directory has it. Whether a home slice's
copy is newer than DRAM is no state of the model: a free value (log 72). -/
def State.l2Dirty (s : State) (die line : Nat) : Option Bool :=
  let d := s.getDie die
  if tabHas d.l2c line || !(lineCells d.l2 line).isEmpty then some (!(lineCells d.l2 line).isEmpty)
  else if tabHas s.acc line && (s.accState line).resident then (if homeDie line = die then some true else none)
  else match s.cst line (proxyOf die), s.hst line die with
    | some .m, _ => some true
    | some .s, _ | some .e, _ => some false
    | _, some _ => some ((Config.freeWord s.freeCtr).bit 0)
    | _, none => none

/-- An uncorrectable error in a copy of the L1: a dirty one is poisoned; a clean line is invalidated, which its home hears of as of
an eviction, and the next access fetches it again. -/
def State.spoilL1 (s : State) (core pa : Nat) (dirty : Bool) : State :=
  let c := s.getCore core
  if !tabHas c.l1c (lineOf pa) then
    if dirty then { s with poison := addOnce s.poison (pa / 8) } else s.evictLine (lineOf pa) core
  else if dirty then s.setCore core { c with l1p := addOnce c.l1p (pa / 8) }
  else s.invalLine core ⟨.swm, pa⟩ false

/-- The same in the instruction cache, which holds no dirty line. -/
def State.spoilCode (s : State) (core pa : Nat) : State :=
  let c := s.getCore core
  s.setCore core { c with icache := c.icache.filter fun x => x.1 != lineOf pa, icachep := otherWords c.icachep (lineOf pa) }

/-- The same in the L2. -/
def State.spoilL2 (s : State) (die pa : Nat) (dirty : Bool) : State :=
  let d := s.getDie die
  if !tabHas d.l2c (lineOf pa) && (lineCells d.l2 (lineOf pa)).isEmpty then
    if dirty then { s with poison := addOnce s.poison (pa / 8) } else s
  else s.setDie die (if dirty then { d with l2p := addOnce d.l2p (pa / 8) }
    else { d with l2c := tabErase d.l2c (lineOf pa), l2p := otherWords d.l2p (lineOf pa) })

/-- A read by the scrubber, or of a unit that corrects on read, that finds no error (0), a corrected one (1), or one that
cannot be corrected (2), which poisons the ECC word, unless a clean copy of a cache can be fetched again, which is logged as a
correction. DEDUCED (log 72), unsafe. -/
def State.scrub (s : State) (at_ : EccUnit) (pa error : Nat) : State :=
  let found : Option (Nat × Nat × Bool × (State → State)) := match at_ with
    | .l1 core => (s.l1Dirty core (lineOf pa)).map fun d => (s.corePlace core, dieOfCore core, d, fun s => s.spoilL1 core pa d)
    | .code core => ((s.getCore core).codeLine (lineOf pa)).map fun _ =>
      (s.corePlace core, dieOfCore core, false, fun s => s.spoilCode core pa)
    | .l2 die => (s.l2Dirty die (lineOf pa)).map fun d =>
      (location 1 (sliceOf pa) s.pkg die 0, die, d, fun s => s.bump.spoilL2 die pa d)
    | .store => (s.storeOf pa).map fun x => (x.1, x.2, true, fun s => { s with poison := addOnce s.poison (pa / 8) })
  match found with
  | none => s
  | some (place, die, dirty, spoil) =>
    match error with
    | 0 => s
    | 1 => s.logRecord die (memRecord 0 1 1 pa place)
    | _ => (spoil s).logRecord die (if dirty then memRecord 1 2 0 pa place else memRecord 0 1 1 pa place)

def execPatrolScrub (s : State) : Out :=
  match s.agenda with
  | .patrolScrub at_ pa error :: t => .next ({ s with agenda := t }.scrub at_ pa error.val)
  | _ => .next s

/-! ## DIRECTORY_ENTRY_ERROR, OWNER_FIELD_ERROR (R445) -/

/-- The record of a recovery. -/
def State.logRecovery (s : State) (pa : Nat) : State :=
  let die := s.lineHome pa
  s.logRecord die (memRecord 0 4 2 pa (location 1 (sliceOf pa) s.pkg die 0))

/-- The holders of a line that its home knows or not: the agents of the home die, and the proxies of other dies. -/
def State.holders (s : State) (line : Nat) : List (Nat × CState) :=
  let home := s.lineHome line
  s.caches.filter fun (c : Nat × CState) =>
    c.1 / 8192 == line && (if isProxy (c.1 % 8192) then c.1 % 8192 / 256 != home else c.1 % 8192 / 256 == home)

/-- The home that has lost a directory entry asks every agent of its die and every proxy: a holder in M or E returns its data,
another its acknowledgement. -/
def State.recallHolders (s : State) (line : Nat) : State :=
  let home := s.lineHome line
  let l := s.holders line
  let s := s.setHst line home (if l.isEmpty then none else some (.rc l.length))
  l.foldl (fun s c =>
    s.post (if c.2 = .e ∨ c.2 = .m then .fwdGetm line (c.1 % 8192) (homeAgent home) else .inv line (c.1 % 8192) (homeAgent home))) s

/-- A line of which no copy is on its way to another state. -/
def State.lineSettled (s : State) (line : Nat) : Bool :=
  !(s.caches.any fun (c : Nat × CState) => c.1 / 8192 == line && c.2.moving) &&
  match s.hst line (s.lineHome line) with | some (.sd _) | some (.rc _) => false | _ => true

/-- DIRECTORY_ENTRY_ERROR: every holder of the line gives its copy up, once no change of it is under way. -/
def execDirectoryEntryError (s : State) : Out :=
  match s.agenda with
  | .directoryEntryError line :: t =>
    let s := { s with agenda := t }
    let l := lineOf line
    .next (if (s.privateOwner l).isSome then s.logRecovery l
      else if s.lineSettled l then (s.recallHolders l).logRecovery l
      else s.post (.directoryEntryError line))
  | _ => .next s

/-- OWNER_FIELD_ERROR: the page is recalled from every agent and is then shared; its claimants are answered. -/
def State.ownerLost (s : State) (pte : Nat) : State :=
  match s.getPage pte with
  | none => s
  | some p =>
    if s.pageHeld p.leaf then
      ((s.pageLines p.leaf).foldl State.recallLine (s.setPage pte { p with recalling := true })).post (.ownerFieldError pte)
    else
      (p.waiting.foldl (fun s a => s.tell a pte false)
        (s.setPage pte { p with owner := .shared, recalling := false, evicting := false, waiting := [] })).logRecovery p.leaf.pa

def execOwnerFieldError (s : State) : Out :=
  match s.agenda with
  | .ownerFieldError pte :: t => .next ({ s with agenda := t }.ownerLost pte)
  | _ => .next s

/-! ## CORE_REGISTER_ERROR (R471) -/

/-- The exception of a slot whose registers are lost; no rule states its value. -/
def registerExc (pc value : Word) : Exc := ⟨Cause.poison.code, 5, false, value, pc, 0⟩

/-- A slot that takes the fault path with nothing of it left to be completed by the lost core. -/
def Slot.lostRegisters (x : Slot) (value : Word) : Slot :=
  { x.endCapture with
    phase := .faulting (registerExc x.pc value)
    did := .trapped
    window := Vector.replicate 8 none
    history := []
    held := []
    heldTrap := none
    vq := []
    vrun := none
    rep := none
    taken := [] }

/-- An activation stops with POISON detail 5: shipped words are squashed, and no record is saved. -/
def State.loseRegisters (s : State) (k : Nat) : State :=
  if (s.getSlot k).active then
    let s := (s.squashAll k).bump
    (s.setSlot k ((s.getSlot k).lostRegisters (Config.freeWord (s.freeCtr - 1)))).post (.faultPath k)
  else s

/-- The guest entries of an isolated Bassoon are removed, and their senders raise SHIP detail 2 (R436). -/
def State.dropGuests (s : State) (core : Nat) : State :=
  let c := s.getCore core
  (c.guest ++ c.running).foldl (fun s p =>
    s.post (.shipReply p.slot p.gen p.tag p.order (.exception Cause.ship.code 2 (word p.iword))))
    (s.setCore core { c with guest := [], running := [] })

/-- Isolation of a core until the next start. Entries that are never spilled stay (R45, R55). -/
def State.isolateCore (s : State) (core : Nat) : State :=
  let c := s.getCore core
  let s := s.setCore core { c with isolated := true, arrival := c.arrival.filter fun e => neverSpilled e.msg, errors := [] }
  let s := (List.range 4).foldl (fun s i => s.loseRegisters (slotKey core i)) s
  ((s.spillBack core (c.arrival.filter fun e => !neverSpilled e.msg)).dropGuests core).logRecord (dieOfCore core)
    ⟨2, 3, 7, 6, none, none, s.corePlace core, core⟩

/-- CORE_REGISTER_ERROR: the activation of the slot stops; the third error of the core within 10⁹ ticks isolates it. -/
def State.registerError (s : State) (k : Nat) : State :=
  let core := coreOfSlot k
  let c := s.getCore core
  if c.isolated then s
  else
    let now := s.time.toNat
    let errors := now :: c.errors.filter fun t => decide (now ≤ t + 10 ^ 9)
    let s := s.setCore core { c with errors := errors }
    if 3 ≤ errors.length then s.isolateCore core else s.loseRegisters k

def execCoreRegisterError (s : State) : Out :=
  match s.agenda with
  | .coreRegisterError k :: t => .next ({ s with agenda := t }.registerError k)
  | _ => .next s

/-! ## SHOOTDOWN_TIMEOUT (R457) -/

/-- A `TLBINV` is outstanding: its token has still to complete. -/
def State.shootingDown (s : State) : Bool :=
  s.agenda.any fun e => match e with | .fenceTokenCompletion _ _ _ _ (_ :: _) none => true | _ => false

/-- SHOOTDOWN_TIMEOUT of an agent, while a `TLBINV` is outstanding: the TLBs of a DZ core or an MXE load pipe are reset; a Shawm hart
is reset and stays out of service until the next reset. The entries that a `TLBINV` covers go with the word, and no token waits for
an agent (log 7). -/
def State.isolateAgent (s : State) (agent : Nat) : State :=
  let die := dieOfCore agent
  let n := pcoreOf agent
  if !s.shootingDown then s
  else if h : 132 ≤ n ∧ n < 136 then
    let shawm := 4 * die + (n - 132)
    let d := s.getDie die
    let s := s.setDie die { d with shawms := d.shawms.set (n - 132) Shawm.reset (by omega) }
    let s := s.setCore agent { s.getCore agent with tlb := [] }
    let p := s.package
    { s with package := { p with shawmsReset := if p.shawmsReset.contains shawm then p.shawmsReset else p.shawmsReset ++ [shawm] } }.logRecord
      die ⟨1, 3, 7, 6, none, none, location 9 (n - 132) s.pkg die 0, agent⟩
  else if n < 132 ∨ (168 ≤ n ∧ n < 172) then
    let kind := if n < 132 then 0 else 3
    let index := if n < 132 then n else n - 168
    (s.setCore agent { s.getCore agent with tlb := [] }).logRecord die
      ⟨1, 3, 7, 6, none, none, location kind index s.pkg die 0, agent⟩
  else s

def execShootdownTimeout (s : State) : Out :=
  match s.agenda with
  | .shootdownTimeout agent :: t => .next ({ s with agenda := t }.isolateAgent agent)
  | _ => .next s

end Sys2Proof.Machine
end

