-- ==== Sys2Proof/Machine/Issue.lean ====
section
/-!
DEFINITION. Bundles: fetching and decoding one (R163, R165, R171, R420, R424, R426, R428), the waits at issue (R164,
R233 to R235, R242 to R244, R269, R270), the execution of its words (R165 to R167), and the choice of the slot that
issues (R335, R336). `ex` is the meaning of a word.
-/
namespace Sys2Proof.Machine

/-! ## Kinds of words -/

/-- A C word: bit 31 of its encoding is 0 (R163). -/
def isC (i : Instr) : Bool := match encode i with | some w => decide (w < 2 ^ 31) | none => false

/-- The C words with which an A word of the same pair may still execute behind a transfer (R166). -/
def isTransfer : Instr → Bool
  | .beq .. | .bne .. | .blt .. | .bge .. | .bltn .. | .bgen .. | .bmany .. | .bmall .. | .jal .. | .jalr .. => true
  | _ => false

/-- The C words that must be lone words (R165). -/
def isLoneOnly : Instr → Bool
  | .done | .yield | .migr .. | .safept .. | .rep .. | .ecall .. | .ebreak .. | .tret | .wfm .. | .halt .. => true
  | _ => false

/-- The words of the V stream (R164). -/
def isV : Instr → Bool
  | .vadd .. | .vsub .. | .vmul .. | .vmulh .. | .vand .. | .vor .. | .vxor .. | .vsll .. | .vsrl .. | .vsra ..
  | .vmin .. | .vmax .. | .vminn .. | .vmaxn .. | .vfadd .. | .vfsub .. | .vfmul .. | .vfdiv .. | .vfsqrt ..
  | .vfmin .. | .vfmax .. | .vffma .. | .vffms .. | .vfnfma .. | .vfnfms .. | .veq .. | .vlt .. | .vltn ..
  | .vfeq .. | .vflt .. | .vfle .. | .vsel .. | .vrsum .. | .vrmin .. | .vrmax .. | .vrfsum .. | .vperm ..
  | .vzip .. | .vunzip .. | .vbcast .. | .vext .. | .vins .. | .vcvt .. | .vdot4 .. | .vq8 .. | .vfrsqe ..
  | .vfrcpe .. | .mand .. | .mor .. | .mxor .. | .mnot .. | .mpop .. | .mfirst .. | .barq .. => true
  | _ => false

/-- Destination and first source of an INT word (R191). -/
def intOperands : Instr → Option (SDst × SSrc)
  | .add d a _ | .sub d a _ | .and d a _ | .or d a _ | .xor d a _ | .andn d a _ | .orn d a _ | .xnor d a _
  | .sll d a _ | .srl d a _ | .sra d a _ | .rol d a _ | .ror d a _ | .min d a _ | .max d a _ | .minn d a _
  | .maxn d a _ | .slt d a _ | .sltn d a _ | .sel d a _ => some (d, a)
  | _ => none

/-- The words that name a queue register (R174). -/
def namesQueue (i : Instr) : Bool :=
  (vTakes i).isSome || (vAppends i).isSome ||
  (match intOperands i with | some (d, a) => (match d with | .q _ => true | .g _ => false) || (match a with | .q _ => true | .g _ => false) | none => false) ||
  (match i with | .qcnt .. => true | _ => false)

/-- The C words that issue while an older shipped word is outstanding (R234). -/
def issuesBehindShip : Instr → Bool
  | .ldb .. | .ldbn .. | .ldh .. | .ldhn .. | .ldw .. | .ldwn .. | .ldd .. | .ldq .. | .vld .. | .vlds .. | .vldx ..
  | .vldb .. | .stb .. | .sth .. | .stw .. | .std .. | .stq .. | .vst .. | .vsts .. | .vstx .. | .lui .. | .addpc ..
  | .pref .. => true
  | i => isTransfer i

/-- The plain stores (R234). -/
def isPlainStore : Instr → Bool
  | .stb .. | .sth .. | .stw .. | .std .. | .stq .. | .vst .. | .vsts .. | .vstx .. => true
  | _ => false

/-- The CSR a CSR word names. -/
def csrNamed : Instr → Option Nat
  | .csrr _ c | .csrw _ c | .csrrw _ _ c | .csrs _ c | .csrc _ c => some c.toNat
  | _ => none

/-- A word with a dynamic rounding field, or one that consults `FCSR.RM` (R424 detail 4). -/
def consultsRm : Instr → Bool
  | .fadd _ _ _ r _ | .fsub _ _ _ r _ | .fmul _ _ _ r _ | .fdiv _ _ _ r _ | .fsqrt _ _ r _ => r == .dyn
  | .fcvt _ _ _ r dst => cvtDynamic (r == .dyn) dst
  | .ffma _ _ _ _ _ r | .ffms _ _ _ _ _ r | .fnfma _ _ _ _ _ r | .fnfms _ _ _ _ _ r => r == .dyn
  | i => vConsultsRm i

/-! ## ILLEGAL by encoding beyond the decoder (R424 details 4, 5, 7 and 9) -/

def payloadOverruns (p : Fin 32) (n : Plen) : Bool := decide (32 < p.val + n.val)

/-- The lowest detail of a decoded word that is ILLEGAL by its encoding, the slot's `FCSR.RM` and its privilege. -/
def State.encodingFault (s : State) (i : Instr) : Option Nat :=
  if consultsRm i && decide (3 < s.hot.rm) then some 4
  else
    let scope : Bool := match i with
      | .bara _ _ sc | .barw _ _ _ sc => sc == .core || sc == .sys
      | _ => false
    if scope then some 5
    else
      let fields : Bool := match i with
        | .send _ _ p n | .spawn _ _ _ p n | .launch _ _ _ p n => payloadOverruns p n
        | .barw d _ g _ => d == g && d != 0
        | .sel d _ _ => match d with | .q _ => true | .g _ => false
        | .exts _ _ p n | .extz _ _ p n | .ins _ _ p n => decide (64 < p.toNat + n.toNat + 1)
        | _ => false
      if fields then some 7
      else match i with
        | .csrr _ c => if csrExists c.toNat then none else some 9
        | .csrw _ c | .csrrw _ _ c =>
          if !csrExists c.toNat || csrReadOnly s.hot.supervisor c.toNat then some 9 else none
        | .csrs a c | .csrc a c =>
          if !csrExists c.toNat || (a != 0 && csrReadOnly s.hot.supervisor c.toNat) || c.toNat == csrXlaunch then some 9 else none
        | _ => none

/-! ## The bundle at `pc` -/

/-- A bundle that passed ranks 1 to 6 of R420. -/
inductive Bundle where
  /-- A word alone, with its bit 30. -/
  | one (i : Instr) (lone : Bool)
  | pair (c a : Instr)
deriving DecidableEq, Repr

/-- Why a bundle is not to run: a fault of ranks 1 to 6; a table of the context that could not be read, which made it dead
(R494); or a page of code that is still being claimed (R153). -/
inductive Early where
  | raise (c : Cause) (detail : Nat) (value : Word)
  | dead | wait
deriving DecidableEq, Repr

/-- Fetches one word at an address: its bounds, then its translation and poison. -/
def State.fetchWord (s : State) (va : Word) : State × Except Early Nat :=
  if !(s.getCtx s.hot.ctx).holdsCode va 4 then (s, .error (.raise .bounds 0 va))
  else match s.fetch va 4 with
    | (s, .error .dead) => (s, .error .dead)
    | (s, .error .wait) => (s, .error .wait)
    | (s, .error (.raise c d)) => (s, .error (.raise c d (if c = .poison then va &&& ~~~(7#64) else va)))
    | (s, .ok w) => (s, .ok w)

/-- Whether a word that the decoder refuses for a reserved code or a queue has a dynamic rounding field all the same: an `FCVT` or
`VCVT`, unless to F8, or a `VRFSUM`. -/
def dynamicField (w : Nat) : Bool :=
  classA w && match fld w 24 6 with
    | 0x14 => fld w 6 3 == 7 && fld w 2 4 / 2 != 2
    | 0x2A => fld w 4 2 == 3 && fld w 0 4 / 2 != 2
    | 0x25 => fld w 0 2 == 3
    | _ => false

/-- The detail of a word that the decoder refuses: the lowest that applies (R424). -/
def State.refusedWord (s : State) (w : Nat) (e : DecodeError) : Nat :=
  if 4 < e.detail ∧ dynamicField w ∧ 3 < s.hot.rm then 4 else e.detail

/-- A word decoded with every check of its encoding. -/
def State.decodeChecked (s : State) (w : Nat) : Except Early Instr :=
  match decodeWord w with
  | .error e => .error (.raise .illegal (s.refusedWord w e) (word w))
  | .ok i => match s.encodingFault i with
    | some d => .error (.raise .illegal d (word w))
    | none => .ok i

/-- Whether two lists share an element other than register 0. -/
def shareReg {n : Nat} [NeZero n] (a b : List (Fin n)) (zero : Bool) : Bool :=
  a.any fun r => b.contains r && (!zero || r != 0)

/-- PAIRING cases 4 to 6 (R165, R426). `g0` and `m0` are left out of the fourth case only, as R165 is worded. DEDUCED (log 64),
unsafe. -/
def pairFault (c a : Instr) : Option Nat :=
  let x := regUse c
  let y := regUse a
  if shareReg x.gw y.gw true || shareReg x.vw y.vw false || shareReg x.mw y.mw true then some 4
  else if shareReg x.gw y.gr false || shareReg x.vw y.vr false || shareReg x.mw y.mr false then some 5
  else if isLoneOnly c then some 6
  else none

/-- The two words of a pair, in the order of R420. -/
def State.pairOf (s : State) (c a : Nat) : Except Early Bundle :=
  match s.decodeChecked c with
  | .error e => .error e
  | .ok ci => match s.decodeChecked a with
    | .error e => .error e
    | .ok ai => match pairFault ci ai with
      | some d => .error (.raise .pairing d (word (c + a * 2 ^ 32)))
      | none => .ok (.pair ci ai)

/-- The bundle at `pc`, with the faults of ranks 1 to 6 in their order (R420, R165, R426). -/
def State.prepare (s : State) : State × Except Early Bundle :=
  let pc := s.hot.pc
  match s.fetchWord pc with
  | (s, .error e) => (s, .error e)
  | (s, .ok w) =>
    match w / 2 ^ 30 with
    | 0 =>
      if pc.bits 0 3 ≠ 0 then (s, .error (.raise .pairing 2 (word w)))
      else match s.fetchWord (pc + 4) with
        | (s, .error e) => (s, .error e)
        | (s, .ok a) =>
          if a / 2 ^ 30 ≠ 2 then (s, .error (.raise .pairing 1 (word (w + a * 2 ^ 32))))
          else (s, s.pairOf w a)
    | 2 =>
      if s.hot.aOnly && pc.bits 0 3 == 4 then
        match s.decodeChecked w with
        | .error e => (s, .error e)
        | .ok i => (s, .ok (.one i false))
      else (s, .error (.raise .pairing 3 (word w)))
    | _ =>
      match s.decodeChecked w with
      | .error e => (s, .error e)
      | .ok i => (s, .ok (.one i true))

/-! ## Waits at issue -/

/-- Whether a word touches a register that another use writes. -/
def regMeets (x y : RegUse) : Bool :=
  shareReg y.gw (x.gr ++ x.gw) true || shareReg y.vw (x.vr ++ x.vw) false || shareReg y.mw (x.mr ++ x.mw) true

/-- The history buffer has no room for what the words may log (R235). -/
def Slot.historyWaits (x : Slot) (is : List Instr) : Bool :=
  x.shipping && decide (32 < x.historyUsed + (is.map historyNeed).sum)

/-- The waits of R233 to R235 while a shipped word is outstanding. -/
def Slot.shipWaits (x : Slot) (i : Instr) : Bool :=
  x.window.toList.any (fun e => match e with | some e => regMeets (regUse i) (regUse e.instr) | none => false) ||
  (x.holding &&
    (namesQueue i || (isC i && !issuesBehindShip i) || x.historyWaits [i] ||
     (isPlainStore i && decide (32 ≤ x.held.length))))

/-- The waits between the two streams (R164, R242 to R244, R269). A V word reads its `g` operands as it issues, and so waits for
one that an earlier V word writes; one that it only writes itself it writes after that word, in the order of its stream. The word
that enters a handler, where the buffer is idle, waits for the passes that are before it (R408). -/
def Slot.streamWaits (x : Slot) (piccolo : Bool) (i : Instr) : Bool :=
  let u := regUse i
  let pending := x.pendingV.map regUse
  pending.any (fun p => shareReg p.gw (if isV i then u.gr else u.gr ++ u.gw) true) ||
  (isC i && pending.any fun p =>
    shareReg (u.vr ++ u.vw) (p.vr ++ p.vw) false || shareReg (u.mr ++ u.mw) (p.mr ++ p.mw) true) ||
  (serialV i && x.te != 0 && !(piccolo && shipsV i) && !x.vIdle) ||
  ((csrNamed i == some 1) && !x.vIdle) ||
  (match i with
   | .done | .yield | .migr .. | .safept .. => !x.repCapturing && !x.vIdle
   | .ecall .. | .ebreak .. => x.passesLeft
   | _ => false)

/-- Whether a word of the executing slot waits at issue (R335). -/
def State.waits (s : State) (i : Instr) : Bool :=
  let u := regUse i
  s.hot.busy.any (fun b => (u.gr ++ u.gw).contains b.1) || s.hot.shipWaits i || s.hot.streamWaits s.piccolo i

/-- Whether the slot issues nothing at all: it is free or does something else, holds an exception (R234), or waits for a
serialised word (R244) or for the passes of a serialised capture (R270). -/
def Slot.blocked (x : Slot) : Bool :=
  !x.active || x.phase != .running || x.heldTrap.isSome ||
  x.vq.any (·.serial) || (match x.vrun with | some (e, _) => e.serial | none => false) ||
  (match x.rep with | some r => r.te && r.todo == 0 | none => false)

/-! ## Execution of a bundle (R165 to R167) -/

/-- Sets what a word finds: its address, the address it reports, the following bundle, and its bit 30. -/
def State.setWord (s : State) (wa tpc nxt : Word) (lone : Bool) : State :=
  { s with hot := { s.hot with wa := wa, tpc := tpc, nxt := nxt, lone := lone } }

/-- Program order goes on by one word. -/
def State.tickOrder (s : State) : State := { s with hot := { s.hot with order := s.hot.order + 1 } }

/-- The end of a bundle: `SPD` counts it, except for a `SAFEPT` (R54); a resumed activation has executed its first
bundle (R60); the V stream goes on. -/
def State.endBundle (s : State) (pc : Word) (safept : Bool) : State :=
  let s := if s.hot.active && !safept then { s with hot := { s.hot with spd := s.hot.spd + 1 } } else s
  let s := if s.hot.stub.map (·.1) = some pc then s.resumedOne s.hotId else s
  (s.retryHeldReply s.hotId).pokeV s.hotId

/-- A word that now waits has taken a queue entry: a result that waited for its place goes there (R242, R249). -/
def State.tookEntry (t : State) (before : List (QReg × Word)) : State :=
  if t.hot.taken = before then t else (t.retryHeldReply t.hotId).pokeV t.hotId

/-- What follows the execution of a word. -/
def Out.bind (o : Out) (k : State → Out) : Out := match o with | .next s => k s | o => o

/-- A word alone: on a stall an A word there still runs alone. -/
def runOne (ex : Instr → State → Out) (i : Instr) (lone : Bool) (s : State) : Out :=
  let pc := s.hot.pc
  let alone := s.hot.aOnly
  let s := s.setWord pc pc (pc + 4) lone
  Out.bind (ex i { s with hot := { s.hot with aOnly := false } }) fun t =>
    match t.hot.did with
    | .done => .next (t.tickOrder.endBundle pc (match i with | .safept .. => true | _ => false))
    | .stalled => .next ({ t with hot := { t.hot with aOnly := alone } }.tookEntry s.hot.taken)
    | .trapped => .next t

/-- The link register that a `JAL` or `JALR` writes, with its value before (R166, R437). -/
def linkOf (c : Instr) (x : Slot) : Option (GReg × Word) :=
  match c with
  | .jal d _ | .jalr d _ _ => if d = 0 then none else some (d, x.getG d)
  | _ => none

/-- Records the link of a branch C word, and `RETIRED` before its pair, with the A word, where that is shipped, queued or
captured: an exception of the A word undoes the C word too (R167). -/
def Slot.noteLink (x : Slot) (order : Nat) (l : Option (GReg × Word)) (retired : Word) : Slot :=
  let note := fun (e : VEntry) => if e.order = order then { e with link := l, retired := retired } else e
  { x with
    window := x.window.map fun e => e.map fun w => if w.order = order then { w with link := l, retired := retired } else w
    vq := x.vq.map note
    vrun := x.vrun.map fun r => (note r.1, r.2)
    rep := x.rep.map fun r => { r with captured := r.captured.map note } }

/-- The A word stalled: the bundle has not issued, but what its stream took from a queue stays taken (R173). -/
def State.undoPair (s t : State) : State :=
  { s with hot := { s.hot with q := t.hot.q, taken := t.hot.taken, did := .stalled } }.tookEntry s.hot.taken

/-- The A word of a pair behind a branch, `BMANY`, `BMALL`, `JAL` or `JALR`: it executes whether or not control
transfers; if it traps, link and transfer are undone (R166, R167). `s` is the state before the pair, `t` after C. -/
def runBehindTransfer (ex : Instr → State → Out) (c a : Instr) (s t : State) : Out :=
  let pc := s.hot.pc
  let order := t.hot.order
  Out.bind (ex a (t.setWord (pc + 4) pc t.hot.pc false)) fun u =>
    match u.hot.did with
    | .done => .next ({ u with hot := u.hot.noteLink order (linkOf c s.hot) s.hot.retired }.tickOrder.endBundle pc false)
    | .stalled => .next (s.undoPair u)
    | .trapped => ex a (s.setWord (pc + 4) pc (pc + 8) false)

/-- The A word of a pair still to run, alone, at its own address; a resumption at the pair goes on there (R60). -/
def Slot.aloneNext (x : Slot) (pc : Word) : Slot :=
  { x with pc := pc + 4, aOnly := true, did := .done, stub := x.stub.map fun r => if r.1 = pc then (pc + 4, r.2) else r }

/-- The A word of a pair behind any other C word, whose effect stands (R167). A word that must wait for a `CAS2` or
`SWP2` of its own pair waits alone (R234). -/
def runBehind (ex : Instr → State → Out) (a : Instr) (s t : State) : Out :=
  let pc := s.hot.pc
  if t.hot.shipWaits a then .next { t with hot := t.hot.aloneNext pc }
  else
    Out.bind (ex a (t.setWord (pc + 4) (pc + 4) (pc + 8) false)) fun u =>
      match u.hot.did with
      | .done => .next (u.tickOrder.endBundle pc false)
      | .stalled =>
        if t.hot.shipping && !s.hot.shipping then .next { u with hot := u.hot.aloneNext pc }
        else .next (s.undoPair u)
      | .trapped => .next u

/-- The A word of a pair would stall before its C word has any effect: neither issues (R165, R173). -/
def stallsFirst (ex : Instr → State → Out) (a : Instr) (s : State) : Option State :=
  let pc := s.hot.pc
  match ex a (s.setWord (pc + 4) (pc + 4) (pc + 8) false) with
  | .next u => if u.hot.did == .stalled then some (s.undoPair u) else none
  | _ => none

/-- A pair: the C word, then the A word; both issue in one cycle, or neither (R165). -/
def runPair (ex : Instr → State → Out) (c a : Instr) (s : State) : Out :=
  let pc := s.hot.pc
  let s := { s with hot := { s.hot with aOnly := false } }
  match stallsFirst ex a s with
  | some t => .next t
  | none =>
  Out.bind (ex c (s.setWord pc pc (pc + 8) false)) fun t =>
    match t.hot.did with
    | .done => if isTransfer c then runBehindTransfer ex c a s t.tickOrder else runBehind ex a s t.tickOrder
    | _ => .next t

/-- The words of a bundle. -/
def Bundle.words : Bundle → List Instr | .one i _ => [i] | .pair c a => [c, a]

/-- Whether the bundle would make `SPD` exceed `SPLIM`, but for a `SAFEPT`, which sets it to 0 (R54); or a write has made `SPLIM`
lower than `SPD` (R465). -/
def Slot.spdOver (x : Slot) (b : Bundle) : Bool :=
  decide (x.splim < x.spd) || (decide (x.splim < x.spd + 1) && (match b with | .one (.safept _) _ => false | _ => true))

/-- One bundle of the executing slot: a refused update first (R448), then ranks 1 to 6, the waits, `SPD`, the words. -/
def State.runBundle (s : State) (ex : Instr → State → Out) : Out :=
  match (if s.hot.wait.isNone then s.hot.refusal else none) with
  | some (d, va) => .next ({ s with hot := { s.hot with refusal := none } }.raiseAt s.hot.pc .cls (d ||| 0x8000) va)
  | none =>
    match s.prepare with
    | (s, .error .dead) => s.tableDead
    | (s, .error .wait) => .next s.stall
    | (s, .error (.raise c d v)) => .next (s.raiseAt s.hot.pc c d v)
    | (s, .ok b) =>
      if b.words.any s.waits || s.hot.historyWaits b.words then .next s.stall
      else if s.hot.spdOver b then .next (s.raiseAt s.hot.pc .spd 0 (word s.hot.splim))
      else match b with
        | .one i lone => runOne ex i lone s
        | .pair c a => runPair ex c a s

/-! ## ISSUE_CYCLE (R335) -/

/-- Gives an issue position to the slots of a core, from the one after the slot that issued last. -/
def State.offerSlots (s : State) (core : Nat) : State :=
  { s.focus (slotKey core (((s.getCore core).rrSlot + 1) % 4)) with issuing := true, scan := 3 }

/-- ISSUE_CYCLE of a Piccolo. -/
def execIssueCycle (s : State) : Out :=
  match s.agenda with
  | .issueCycle core :: t =>
    let s := { s with agenda := t }
    .next (if isBassoonCore core || (s.getCore core).isolated then s
      else { s with second := false, first := none }.offerSlots core)
  | _ => .next s

/-! ## BASSOON_ISSUE (R231, R336) -/

/-- The head of the guest queue takes an issue position. -/
def State.guestIssue (s : State) (core : Nat) : State :=
  let c := s.getCore core
  match c.guest with
  | p :: t => (s.setCore core { c with guest := t, running := c.running ++ [p] }).post (.guestEntryCompletion core p)
  | [] => s

/-- One issue position: the deficit counter, with the share in force, then the guest queue or the Bassoon's own slots. -/
def State.position (s : State) (core : Nat) : State × Bool :=
  let c := s.getCore core
  let d := c.deficit + c.share
  let s := s.setCore core { c with deficit := if 16 ≤ d then d - 16 else d }
  if 16 ≤ d ∧ c.guest ≠ [] then (s.guestIssue core, true) else (s.offerSlots core, false)

/-- The second position of a cycle, in which the slot that took the first does not issue again. -/
def State.secondPosition (s : State) (core : Nat) (first : Option Nat) : State :=
  let s := { s with issuing := false, second := false, first := first }
  (s.position core).1

/-- The share of a cycle is `GSHARE` as the cycle begins: a write counts from the cycle after it (R231). -/
def State.latchShare (s : State) (core : Nat) : State :=
  s.setCore core { s.getCore core with share := (s.getCore core).gshare }

/-- BASSOON_ISSUE: the first position; the second follows it. -/
def execBassoonIssue (s : State) : Out :=
  match s.agenda with
  | .bassoonIssue core :: t =>
    let s := { s with agenda := t }
    .next (if !isBassoonCore core || (s.getCore core).isolated then s
      else
        match (({ s with second := true, first := none }).latchShare core).position core with
        | (s, true) => s.secondPosition core none
        | (s, false) => s)
  | _ => .next s

/-! ## The end of an issue position -/

/-- Of two slots of a core that fault in one cycle the one of lower number goes first on the fault path (R410). -/
def State.lowerFaultFirst (s : State) : State :=
  match s.first with
  | some f =>
    let mine : Event := .faultPath s.hotId
    let other : Event := .faultPath f
    if s.hotId < f ∧ s.agenda.contains mine ∧ s.agenda.contains other then
      let rest := s.agenda.erase mine
      { s with agenda := rest.takeWhile (· != other) ++ mine :: rest.dropWhile (· != other) }
    else s
  | none => s

/-- The executing slot has issued: it was the last of its core (R335), and a second position may follow. -/
def State.issued (s : State) : State :=
  let core := s.core
  let k := s.hotId
  let s := s.setCore core { s.getCore core with rrSlot := k % 4 }
  if s.second then s.secondPosition core (some k) else { s.lowerFaultFirst with issuing := false }

/-- The executing slot has not issued: the next slot of its core is examined; when all are stalled the guest queue of a
Bassoon takes the position (R336). -/
def State.notIssued (s : State) : State :=
  match s.scan with
  | n + 1 =>
    { s.focus (slotKey s.core ((s.hotId + 1) % 4)) with scan := n }
  | 0 =>
    let core := s.core
    let s := if isBassoonCore core then s.guestIssue core else s
    if s.second then s.secondPosition core none else { s with issuing := false }

/-- A step of an issue position: the executing slot tries its bundle. A bundle that raises a cause before it issues takes the
position, and its slot counts as the one that issued last. DESIGN CHOICE (log 80), unsafe. -/
def State.issueStep (s : State) (ex : Instr → State → Out) : Out :=
  let s := s.retryStores s.hotId
  if s.hot.blocked || s.first == some s.hotId || (s.getCore s.core).isolated then .next s.notIssued
  else
    Out.bind (s.runBundle ex) fun t =>
      match t.hot.did with
      | .stalled => .next t.notIssued
      | _ => .next t.issued

end Sys2Proof.Machine
end

