-- ==== Sys2Proof/Machine/Start.lean ====
section
/-!
DEFINITION. Signed images (R356 to R360), start-up, the boot record and recovery (R354, R355, R484 to R486), the negotiation with the host driver
(R363, R364), attestation (R362), supply loss and the checkpoint marker (R472, R473), security alarms and the housekeeping
partition (R361, R482, R483).
-/
namespace Sys2Proof

/-! ## Images in flash (R357, R358) -/

/-- The image of a kind in flash. -/
def Flash.image (f : Flash) (k : ImageKind) : Option Image := f.images.find? fun i => i.kind == k

/-- Flash with an image in place of the one of its kind. -/
def Flash.install (f : Flash) (i : Image) : Flash := { f with images := i :: f.images.filter fun j => j.kind != i.kind }

/-- The body of the configuration records. -/
def Flash.config (f : Flash) : List Byte := match f.image .config with | some i => i.body | none => []

/-- SHA3-512 of an image's header and body. -/
def Image.digest (i : Image) : List Byte := Machine.sha3 (Config.imageHeader i.body.length i.version i.kind ++ i.body)

/-- The digest of the key under which an image of a kind must verify: the owner's, which the configuration records hold, for the
housekeeping and supervisor images; the one in the ROM for the rest. R358 names no key for the kinds of R486: DESIGN CHOICE
(log 60), unsafe. -/
def Flash.keyDigest (f : Flash) : ImageKind → List Byte
  | .housekeeping | .supervisor => Config.ownerDigest f.config
  | _ => Config.romDigest

namespace Machine

/-! ## The boot record (R355) -/

/-- Which copy is current, so that the other is overwritten. -/
def Package.secondCurrent (p : Package) : Bool := p.boot[1].valid && (!p.boot[0].valid || decide (p.boot[0].seq < p.boot[1].seq))

/-- A write of the boot record: the older copy is overwritten with the sequence number incremented. -/
def Package.writeRecord (p : Package) (f : BootRecord → BootRecord) : Package :=
  let now := p.record
  let next := { f now with valid := true, seq := now.seq + 1 }
  { p with boot := if p.secondCurrent then p.boot.set 0 next else p.boot.set 1 next }

/-- A mask of `n` units, those in service set. -/
def inService (out : List Nat) (n : Nat) : List Byte :=
  leBytes (((List.range n).filter fun i => !out.contains i).foldl (fun m i => m + 2 ^ i) 0) (n / 8)

/-- Bytes 0 to 191 of a copy, and all 256 with their digest. -/
def BootRecord.head (b : BootRecord) : List Byte :=
  leBytes b.seq 8 ++ leBytes b.starts 8 ++ leBytes (Config.bootNonce b.nonce).toNat 32 ++ leBytes 0 16 ++
  (b.steps.toList.flatMap fun e => [BitVec.ofNat 8 e.outcome, BitVec.ofNat 8 e.params, BitVec.ofNat 8 e.fails, 0]) ++
  leBytes 0 8 ++ inService b.chansOut 192 ++ inService b.portsOut 128 ++ inService b.shawmsOut 96 ++ leBytes 0 12
def BootRecord.bytes (b : BootRecord) : List Byte := b.head ++ sha3 b.head

/-! ## Signed images (R357 to R360) -/

/-- An image verifies: its key, its signature, and its security version against the board counter (R358, R359). -/
def Package.verifies (p : Package) (i : Image) : Bool :=
  sha3 i.publicKey == p.flash.keyDigest i.kind && Config.verifies i.publicKey i.digest i.signature && decide (p.boardCounter ≤ i.version)

/-- The kind of image that a step verifies (R354). -/
def stepImage (k : Nat) : Option ImageKind :=
  match k with | 1 => some .trusted | 2 => some .config | 11 => some .housekeeping | 12 => some .supervisor | _ => none

/-- The image of a step is there and verifies. -/
def Package.imageGood (p : Package) (k : Nat) : Bool :=
  match stepImage k with
  | none => true
  | some kind => match p.flash.image kind with | some i => p.verifies i | none => false

/-- Updates that the housekeeping firmware staged are verified before use (R360): each that verifies takes its place at the
next start, and the rest are dropped. That moment is the model's. DESIGN CHOICE (log 60), unsafe. -/
def Package.takeStaged (p : Package) : Package :=
  let good := p.flash.staged.filter p.verifies
  { p with flash := { good.foldl Flash.install p.flash with staged := [] } }

/-! ## Steps (R354, R484, R485) -/

/-- Steps 6, 8, 9 and 10 are optional by unit; of step 10 Shawm 0 of die 0 is mandatory. A step whose image does not verify
fails. -/
def stepFails (r : StartReport) (p : Package) (k : Nat) : Bool :=
  if k = 10 then r.shawmsOut.contains 0 else !([6, 8, 9].contains k) && (r.failed.contains k || !p.imageGood k)

/-- Whether an optional unit of a step fails. -/
def stepSkips (r : StartReport) (k : Nat) : Bool :=
  match k with
  | 6 => !r.chansOut.isEmpty
  | 8 => r.failed.contains 8
  | 9 => !r.portsOut.isEmpty
  | 10 => r.shawmsOut.any (· != 0)
  | _ => false

/-- The parameter set of a step: a trainable one whose last outcome was 4 goes on to the next set. -/
def stepParams (e : StepEntry) (k : Nat) (recovery : Bool) : Nat :=
  if recovery && k == 7 then 2
  else if decide (4 ≤ k) && decide (k ≤ 9) && e.outcome == 4 then min (e.params + 1) 2 else e.params

/-- The entry of a step at its end. -/
def stepEntry (r : StartReport) (fails : Bool) (e : StepEntry) (k : Nat) (recovery : Bool) : StepEntry :=
  let p := stepParams e k recovery
  if fails then ⟨4, p, min (e.fails + 1) 255⟩
  else if stepSkips r k then ⟨3, p, 0⟩
  else ⟨if p = 0 then 1 else 2, p, 0⟩

/-- Units that fail go out of service, and stay out. -/
def addUnits (old new : List Nat) : List Nat := old ++ new.filter fun u => !old.contains u

/-- What a step writes to the boot record at its end; step 0 counts the start and has drawn its nonce. Shawm 0 of die 0 is no
optional unit: its failure fails the step and leaves its mask bit as it is. -/
def recordStep (r : StartReport) (fails : Bool) (draw k : Nat) (recovery : Bool) (b : BootRecord) : BootRecord :=
  { b with
    starts := if k = 0 then b.starts + 1 else b.starts
    nonce := if k = 0 then draw else b.nonce
    steps := b.steps.set! k (stepEntry r fails (b.steps.getD k ⟨0, 0, 0⟩) k recovery)
    chansOut := if k = 6 then addUnits b.chansOut r.chansOut else b.chansOut
    portsOut := if k = 9 then addUnits b.portsOut r.portsOut else b.portsOut
    shawmsOut := if k = 10 then addUnits b.shawmsOut (r.shawmsOut.filter (· != 0)) else b.shawmsOut }

/-- Steps in order, up to a mandatory one that fails. -/
def runSteps (r : StartReport) (draw : Nat) (recovery : Bool) : List Nat → Package → Package × Option Nat
  | [], p => (p, none)
  | k :: t, p =>
    let q := p.writeRecord (recordStep r (stepFails r p k) draw k recovery)
    if stepFails r p k then (q, some k) else runSteps r draw recovery t q

/-! ## The checkpoint marker (R473) -/

/-- The 128 bytes of the marker of the start that a record describes. -/
def marker (b : BootRecord) : List Byte :=
  let head := leBytes b.starts 8 ++ leBytes (Config.bootNonce b.nonce).toNat 32
  head ++ sha3 head ++ leBytes 0 24

/-- The check at step 0 against the previous record: none, valid or mismatch; the marker is then zeroed. -/
def State.checkMarker (s : State) : State :=
  let b := memRead s.mem reservedBase 128
  let status := if b.all (· == 0) then 0 else if s.package.record.valid && b == marker s.package.record then 1 else 2
  { s with mem := memWrite s.mem reservedBase (leBytes 0 128), package := { s.package with ckptsts := status } }

/-! ## START_UP (R354) -/

/-- Whether bytes lie in scratchpads, which step 3 zeroes. -/
def inScratch (pa : Nat) : Bool := decide (spadBase ≤ pa) && decide (pa < devBase)

/-- What a reset leaves: memory but for scratchpads, package flash, and the package's number. Registers, caches, queues
and everything in flight are at their reset values; accumulator lines that had left their slices keep their state. -/
def State.bare (s : State) : State :=
  { State.reset with
    agenda := []
    freeCtr := s.freeCtr
    ids := s.ids
    mem := s.mem.filter fun (c : Host.Cell) => !inScratch c.1
    poison := s.poison.filter fun w => !inScratch (8 * w)
    acc := s.acc.filter fun (x : Nat × AccState) => !x.2.resident
    pkg := s.pkg
    package := { Package.reset with
      boot := s.package.boot
      identityErased := s.package.identityErased
      flash := s.package.flash
      boardCounter := s.package.boardCounter } }

/-- Step 0 draws the boot key and nonce afresh, reconstructs the PUF root and unwraps the identity (R354, R357); step 1 reads
the board counter (R362). -/
def State.draw (s : State) : State :=
  let p := s.package
  let root := Config.pufRoot p.flash.helper
  { s with
    freeCtr := s.freeCtr + 1
    package := { p with
      key := s.freeCtr
      pufRoot := some root
      identityKey := if p.identityErased then none else some (Config.unwrap root p.flash.wrapped)
      counterRead := p.boardCounter } }

/-- Step 2 applies the current shares and the current limits of the configuration records (R347, R475). -/
def State.configure (s : State) : State :=
  let body := s.package.flash.config
  { s with dies := (List.range 24).map fun d => (d, { Die.reset with
      limit := Config.currentLimit body d
      domains := (List.range 36).map fun i => (i, { Domain.reset with share := Config.share body d i }) }) }

/-- The trusted firmware, once the steps of a start have verified their images, may ask the board to advance its counter, at most
to the newest version among those (R359). -/
def Package.advanceCounter (p : Package) : Package :=
  let verified := (List.range 14).filterMap fun k => (stepImage k).bind p.flash.image
  let newest := verified.foldl (fun m i => max m i.version) 0
  { p with boardCounter := max p.boardCounter (min (Config.advance p.key) newest) }

/-- `FEATURES` (R363): version 1; HCO, HDM and the launch record features always, the others with their units. -/
def featuresOf (portsOut : List Nat) (port1 : Bool) : Nat :=
  1 + 2 ^ 9 + 2 ^ 10 + (if port1 then 2 ^ 11 else 0) +
  (if (List.range 128).any fun j => !portsOut.contains j then 2 ^ 12 else 0) + 2 ^ 13 + 2 ^ 14 + 2 ^ 15

/-- The package restarts: the board answers `RSTREQ_N` (R484, R486). -/
def State.restart (s : State) : State :=
  { s with
    agenda := [.startUp (Config.restart s.freeCtr)]
    freeCtr := s.freeCtr + 1
    issuing := false
    package := { s.package with halted := true } }

/-- The first step whose consecutive failures have reached 3 (R485). -/
def stuckStep (b : BootRecord) : Option Nat := (List.range 14).find? fun k => decide (3 ≤ (b.steps.getD k ⟨0, 0, 0⟩).fails)

/-- The steps of a normal start: the host driver's commit is step 13. -/
def State.normalStart (s : State) (r : StartReport) : State :=
  match runSteps r s.package.key false (List.range 13) s.package with
  | (p, some k) => { s with package := { p with bootStep := k } }.restart
  | (p, none) =>
    let port1 := !r.failed.contains 8
    { s with package := { p.advanceCounter with
      bootState := 1
      bootStep := 13
      features := featuresOf p.record.portsOut port1
      hostDown := if port1 then [] else [1]
      ranges := (Config.partition p.flash.config).take 16
      locked := true } }.configure

/-- Recovery mode (R486): steps 0 to 3 and step 7 with set 2; a failure of one of them leaves no host link. -/
def State.recoveryStart (s : State) (r : StartReport) (step : Nat) : State :=
  match runSteps r s.package.key true [0, 1, 2, 3, 7] s.package with
  | (p, failed) => { s with package := { p with
      bootState := 3
      bootStep := step
      hostDown := if failed.isSome then [0, 1] else [1] } }.configure

/-- START_UP. After a level 3 alarm no step has failed: which one recovery mode reports is not stated. -/
def State.startUp (s : State) (r : StartReport) : State :=
  let stuck := stuckStep s.package.record
  let s := s.bare.checkMarker.draw
  let s := { s with package := s.package.takeStaged }
  match stuck with
  | some k => s.recoveryStart r k
  | none =>
    if s.package.identityErased then s.bump.recoveryStart r ((Config.freeWord s.freeCtr).toNat % 16)
    else s.normalStart r

def execStartUp (s : State) : Out :=
  match s.agenda with
  | .startUp r :: t => .next ({ s with agenda := t }.startUp r)
  | _ => .next s

/-! ## ACCEPT_HIGH_WRITE, ACCEPT_COMMIT (R364) -/

/-- Whether the commit is still to come. -/
def Package.awaits (p : Package) : Bool := p.bootState == 1 && !p.committed

def execAcceptHighWrite (s : State) : Out :=
  match s.agenda with
  | .acceptHighWrite w :: t =>
    let s := { s with agenda := t }
    .next (if s.package.awaits then { s with package := { s.package with acceptHigh := w } } else s)
  | _ => .next s

/-- The accepted features: those offered, and a DZVER that the device has. -/
def acceptValue (features v : Nat) : Nat :=
  let ver := if v % 256 = 0 ∨ features % 256 < v % 256 then features % 256 else v % 256
  (v &&& features) / 256 * 256 + ver

/-- ACCEPT_COMMIT: the first only; step 13 has passed and the device runs. -/
def execAcceptCommit (s : State) : Out :=
  match s.agenda with
  | .acceptCommit w :: t =>
    let s := { s with agenda := t }
    .next (if s.package.awaits then
      let p := s.package.writeRecord (recordStep ⟨[], [], [], []⟩ false 0 13 false)
      { s with package := { p with
        accepted := acceptValue p.features (w.toNat + p.acceptHigh.toNat * 2 ^ 64)
        committed := true
        bootState := 2 } }
    else s)
  | _ => .next s

/-! ## ATTREQ_GO, ATTESTATION_REPORT (R362, R483) -/

/-- ATTREQ_GO: a write of `ATTREQ` stores ADDR; with GO set, DONE clears and the report is on its way. A write while GO
reads 1 is discarded. -/
def execAttreqGo (s : State) : Out :=
  match s.agenda with
  | .attreqGo w :: t =>
    let s := { s with agenda := t }
    let old := s.package.attreq
    .next (if old.bit 0 || s.package.bootState == 3 then s
      else
        let addr := w &&& 0xFFFFFFFFFFFFE000
        if w.bit 0 then { s with package := { s.package with attreq := addr ||| 1 } }.post .attestationReport
        else { s with package := { s.package with attreq := addr ||| (old &&& 2) } })
  | _ => .next s

/-- The digest of the image of a kind, as this start measured it. -/
def Package.measured (p : Package) (k : ImageKind) : List Byte := match p.flash.image k with | some i => i.digest | none => leBytes 0 64

/-- Bytes 0 to 511 of a report over the host's nonce. -/
def Package.reportHead (p : Package) (nonce : List Byte) : List Byte :=
  nonce ++ p.measured .trusted ++ p.measured .config ++ p.measured .housekeeping ++ p.measured .supervisor ++
  sha3 p.record.bytes ++ sha3 p.flash.publicKey ++ leBytes p.counterRead 8 ++ leBytes 0 56

/-- A report: its head, then the signature over it by the identity key. -/
def Package.report (p : Package) (nonce : List Byte) : List Byte :=
  p.reportHead nonce ++ (List.range 4627).map (Config.signature (p.identityKey.getD []) (p.reportHead nonce))

/-- Where the bytes at a host address lie: in the window of port 0 up to its size, and beyond it, where no address of the map
names them, above the map (log 61). -/
def hostPlace (addr : Nat) : Nat := if addr < 0x200000000000 then hostBase + addr else 2 ^ 62 + addr

/-- ATTESTATION_REPORT: written through host port 0, or without keys no report: GO clears and DONE does not set. -/
def execAttestationReport (s : State) : Out :=
  match s.agenda with
  | .attestationReport :: t =>
    let s := { s with agenda := t }
    let p := s.package
    let addr := p.attreq &&& 0xFFFFFFFFFFFFE000
    let pa := hostPlace addr.toNat
    .next (if !p.attreq.bit 0 then s
      else if p.keysErased then { s with package := { p with attreq := addr } }
      else if p.hostDown.contains 0 then s
      else
        { s with
          mem := memWrite s.mem pa (p.report (memRead s.mem pa 64))
          package := { p with attreq := addr ||| 2 } })
  | _ => .next s

/-! ## RCVREQ_GO (R486) -/

/-- A valid image clears every count of consecutive failures and every skip; starts are counted since enrolment (R355). -/
def forgetFailures (enrols : Bool) (b : BootRecord) : BootRecord :=
  { b with
    starts := if enrols then 0 else b.starts
    steps := b.steps.map fun e => { e with outcome := if e.outcome = 3 then 0 else e.outcome, fails := 0 }
    chansOut := []
    portsOut := []
    shawmsOut := [] }

/-- The image that the Quince core reads through port 0 (R486). -/
def State.readImage (s : State) (addr : Nat) : Option Image :=
  let pa := hostPlace addr
  Config.parseImage (memRead s.mem pa (Config.imageBytes (memRead s.mem pa 8192)))

/-- An image that recovery mode takes: of kind recovery, or after a level 3 alarm of kind enrolment alone (R483, R486). -/
def Package.takes (p : Package) (i : Image) : Bool := (i.kind == if p.identityErased then .enrolment else .recovery) && p.verifies i

/-- A valid image is written to flash; one of enrolment brings a new identity. -/
def Package.writeImage (p : Package) (i : Image) : Package :=
  let f := p.flash.install i
  if i.kind = .enrolment then
    let (wrapped, key, cert) := Config.enrol i.body
    { p with identityErased := false, flash := { f with wrapped := wrapped, publicKey := key, certificate := cert } }
  else { p with flash := f }

/-- The Quince core has read the image that `RCVREQ` names: it is verified, installed and the device restarts, or it is bad and GO
clears. -/
def State.recoverImage (s : State) : State :=
  let addr := s.package.rcvreq &&& 0xFFFFFFFFFFFFE000
  let bad := { s with package := { s.package with rcvreq := addr ||| 2 } }
  match s.readImage addr.toNat with
  | some i =>
    if s.package.takes i then
      { s with package := (s.package.writeRecord (forgetFailures (i.kind == ImageKind.enrolment))).writeImage i }.restart
    else bad
  | none => bad

/-- RCVREQ_GO in recovery mode: a write with GO set starts the read of the image, and GO reads 1 until it ends, which is the next
of these events; a write meanwhile is discarded. -/
def execRcvreqGo (s : State) : Out :=
  match s.agenda with
  | .rcvreqGo w :: t =>
    let s := { s with agenda := t }
    let addr := w &&& 0xFFFFFFFFFFFFE000
    let put := fun (x : Word) => { s with package := { s.package with rcvreq := addr ||| (s.package.rcvreq &&& 2) ||| x } }
    .next (if s.package.bootState ≠ 3 ∨ s.package.hostDown.contains 0 then s
      else if s.package.rcvreq.bit 0 then s.recoverImage
      else if w.bit 0 then (put 1).post (.rcvreqGo addr)
      else put 0)
  | _ => .next s

/-! ## PWRFAIL (R472) -/

/-- Step 1: one power record, and nothing starts any more. -/
def State.powerStop (s : State) : State :=
  { s.logRecord 0 ⟨3, 4, 1, 0, none, none, location 12 0 s.pkg 0 0, 0⟩ with agenda := [], backoff := [], issuing := false }

/-- The copies of a byte that may reach DRAM last, with their keys: of each die an L1 copy, or with none its L2 copy. -/
def State.lastCopies (s : State) (a : Nat) : List (Nat × Byte) :=
  (List.range 24).flatMap fun d =>
    match (s.dirtyCopies a).filter fun x => dieOfCore x.1 == d with
    | [] => if tabHas (s.getDie d).l2 a then [(coreKey d 255, tabGet 0 (s.getDie d).l2 a)] else []
    | l => l

/-- Step 2: dirty bytes of this package's DRAM are written; the order of caches is open, so which copy stays is too. -/
def State.writeDirty (s : State) : State :=
  let as := ((s.cores.flatMap fun (c : Nat × Core) => c.2.l1.map (·.1)) ++
    (s.dies.flatMap fun (d : Nat × Die) => d.2.l2.map (·.1))).dedup.filter fun a =>
      match region s.pkg a with | .near _ | .far => true | _ => false
  let last := fun (a : Nat) =>
    let l := s.lastCopies a
    l.getD ((Config.freeWord (s.freeCtr + a)).toNat % l.length) (0, 0)
  let bad : List Nat := (as.filter fun a => s.copyPoisoned (last a).1 a).map (· / 8)
  let s := s.bump.writeHome (as.map fun a => (a, (last a).2)) bad
  { s with
    cores := s.cores.map fun (c : Nat × Core) => (c.1, { c.2 with l1 := [], l1p := [] })
    dies := s.dies.map fun (d : Nat × Die) => (d.1, { d.2 with l2 := [], l2p := [] })
    acc := s.acc.map fun (x : Nat × AccState) => (x.1, { x.2 with resident := false }) }

/-- PWRFAIL: the sequence runs to its end; the device then waits for a reset. -/
def State.supplyLoss (s : State) : State :=
  let s := s.powerStop.writeDirty
  { s with
    mem := memWrite s.mem reservedBase (marker s.package.record)
    package := { s.package with halted := true } }

def execPwrfail (s : State) : Out :=
  match s.agenda with
  | .pwrfail :: t => .next ({ s with agenda := t }.supplyLoss)
  | _ => .next s

/-! ## SECURITY_ALARM (R482, R483) -/

/-- The record of an alarm (R487). -/
def State.logAlarm (s : State) (die level : Nat) : State :=
  s.logRecord die ⟨6, if level = 1 then 0 else if level = 2 then 3 else 4, level, 0, none, none, location 10 0 s.pkg die 0, die⟩

/-- Every key in Quince RAM is erased: the engines drop the capabilities they keep. -/
def State.eraseKeys (s : State) : State :=
  { s with
    package := { s.package with keysErased := true, pufRoot := none, identityKey := none }
    dies := s.dies.map fun (d : Nat × Die) => (d.1, { d.2 with macs := Vector.replicate 4 [] }) }

/-- SECURITY_ALARM at a level; the fourth of level 1 within a second is one of level 2 as well. -/
def State.alarm (s : State) (die level : Nat) : State :=
  let s := s.logAlarm die level
  let now := s.time.toNat
  if level = 1 then
    let recent := now :: s.package.alarms.filter fun t => decide (now < t + 10 ^ 9)
    if 4 ≤ recent.length then ({ s with package := { s.package with alarms := [] } }.logAlarm die 2).eraseKeys
    else { s with package := { s.package with alarms := recent } }
  else if level = 2 then s.eraseKeys
  else
    let s := s.eraseKeys
    { s with package := { s.package with identityErased := true, flash := { s.package.flash with wrapped := [] } } }

def execSecurityAlarm (s : State) : Out :=
  match s.agenda with
  | .securityAlarm die level :: t => .next ({ s with agenda := t }.alarm die (level.val + 1))
  | _ => .next s

/-! ## HOUSEKEEPING_RANGE_VIOLATION (R361, R483) -/

/-- Once the partition is locked, an access outside the range table is not performed, gives the hart a RISC-V access fault, and is
logged. Loads of the hart come as this event alone. -/
def execHousekeepingRangeViolation (s : State) : Out :=
  match s.agenda with
  | .housekeepingRangeViolation pa :: t =>
    let s := { s with agenda := t }
    .next (if s.package.locked && !s.housekeepingMay pa 1 true then
        let d := s.getDie 0
        let s := { s.setDie 0 { d with shawms := d.shawms.set 0 (d.shawms[0].accessFault s.freeCtr) } with freeCtr := s.freeCtr + 1 }
        s.logRecord 0 ⟨6, 1, 4, 0, none, some (pa, true), location 9 0 s.pkg 0 0, pa⟩
      else s)
  | _ => .next s

end Machine
end Sys2Proof
end

