-- ==== Sys2Proof/Machine/Links.lean ====
section
/-!
DEFINITION. Failures of die boundaries (R476, R477), fabric ports (R478) and host ports (R479 to R481), with their records
(R487).
-/
namespace Sys2Proof.Machine

/-- The record of a link event: class 4. -/
def linkRecord (containment cause action : Nat) (ctx : Option Nat) (place detail : Nat) : LogRecord :=
  ⟨4, containment, cause, action, ctx, none, place, detail⟩

/-! ## Die boundaries (R476) -/

/-- The 38 boundaries: 2a between die a and the next of its row, 2a + 1 between die a and the next of its column. -/
def isBoundary (b : Nat) : Bool := if b % 2 = 0 then decide (b / 2 < 24) && b / 2 % 6 != 5 else decide (b / 2 < 18)

def State.boundaryAt (s : State) (b : Nat) : Boundary := tabGet ⟨.full, 0, []⟩ s.package.boundaries b
def State.setBoundary (s : State) (b : Nat) (x : Boundary) : State :=
  { s with package := { s.package with boundaries := tabSet s.package.boundaries b x } }

/-- The record of a boundary, in the ring of its die of lower number. -/
def State.logBoundary (s : State) (b containment cause action : Nat) : State :=
  s.logRecord (b / 2) (linkRecord containment cause action none (location 5 b s.pkg (b / 2) 0) b)

/-- FLIT_CRC_ERROR: a replay from the flit; `again` says that a replay of it failed, which 8 times in a row makes the
boundary retrain. -/
def execFlitCrcError (s : State) : Out :=
  match s.agenda with
  | .flitCrcError b again :: t =>
    let s := { s with agenda := t }
    let x := s.boundaryAt b
    .next (if !isBoundary b || x.width == .isolated then s
      else (s.setBoundary b { x with replays := if again then min (x.replays + 1) 8 else 0 }).logBoundary b 0 1 2)
  | _ => .next s

/-! ## BOUNDARY_RETRAIN (R476, R477) -/

/-- What retraining makes of a boundary in which a lane of a group has failed: its spare lane, or with that used half
width, or isolation. -/
def retrained (x : Boundary) (group : Nat) (works : Bool) : Boundary :=
  if !x.spares.contains group then { x with replays := 0, spares := group :: x.spares, width := if x.width = .full then .spared else x.width }
  else { x with replays := 0, width := if works then .half else .isolated }

/-- The boundaries of a die. -/
def boundariesOf (d : Nat) : List Nat := ((List.range 24).filter fun e => adjacent d e).map fun e => boundaryOf d e

/-- Whether a die has no working boundary left. -/
def State.cutOff (s : State) (d : Nat) : Bool := (boundariesOf d).all fun b => (s.boundaryAt b).width == .isolated

/-- An unreachable die: every context is made dead, step 1 of R472 runs, and the package waits for a restart. -/
def State.dieLost (s : State) (d : Nat) : State :=
  let s := s.logRecord d (linkRecord 4 4 6 none (location 4 0 s.pkg d 0) d)
  let s := ((s.ctxs.filter fun (c : Nat × Context) => c.2.live).map (·.1)).foldl State.killContext s
  { s.powerStop with package := { s.powerStop.package with halted := true } }

/-- BOUNDARY_RETRAIN, after 8 failed replays in a row. -/
def State.retrain (s : State) (b group : Nat) (works : Bool) : State :=
  let x := s.boundaryAt b
  if !isBoundary b || x.width == .isolated || decide (x.replays < 8) then s
  else
    let y := retrained x group works
    let s := s.setBoundary b y
    if y.width = .isolated then
      let s := s.logBoundary b 3 3 6
      match (List.range 24).find? s.cutOff with
      | some d => s.dieLost d
      | none => s
    else s.logBoundary b 0 2 5

def execBoundaryRetrain (s : State) : Out :=
  match s.agenda with
  | .boundaryRetrain b group works :: t => .next ({ s with agenda := t }.retrain b group works)
  | _ => .next s

/-! ## The request that a slot waits on (R478, R479, R481) -/

/-- The load or atomic that a word of the S stream is, with its elements. The block that `MMA`, `MQD` or a read of `XLAUNCH` reads
is one (R451). -/
def State.requestOf (s : State) (i : Instr) : Option (AccOp × List (Nat × Elem)) :=
  let scalar := fun (a : GReg) (i : BitVec 14) (n : Nat) =>
    let va := s.g a + imm14 i
    some (AccOp.load, scalarElems va n (s.expanded s.me va))
  let block := fun (va : Word) (n : Nat) => some (AccOp.load, [(0, (⟨va, n, 1, false⟩ : Elem))])
  match i with
  | .ldb _ a o | .ldbn _ a o => scalar a o 1
  | .ldh _ a o | .ldhn _ a o => scalar a o 2
  | .ldw _ a o | .ldwn _ a o => scalar a o 4
  | .ldd _ a o => scalar a o 8
  | .ldq _ a o => scalar a o 16
  | .vld _ a m o => some (.load, vmemElems (s.m m) (addrUnit (s.g a + imm6 o)))
  | .vlds _ a b m o => some (.load, vmemElems (s.m m) (addrStride (s.g a + imm6 o) (s.g b)))
  | .vldx _ a x m o => some (.load, vmemElems (s.m m) (addrIndex (s.g a + imm6 o) (s.v x)))
  | .vldb _ a m o => if (vmemElems (s.m m) fun _ => 0).isEmpty then none else some (.load, [(0, ⟨s.g a + imm6 o, 4, 4, false⟩)])
  | .amoaddW _ a .. | .amoandW _ a .. | .amoorW _ a .. | .amoxorW _ a .. | .amominW _ a .. | .amomaxW _ a ..
  | .amominnW _ a .. | .amomaxnW _ a .. | .amoswpW _ a .. | .amocasW _ a .. | .amoaddD _ a .. | .amoandD _ a ..
  | .amoorD _ a .. | .amoxorD _ a .. | .amominD _ a .. | .amomaxD _ a .. | .amominnD _ a .. | .amomaxnD _ a ..
  | .amoswpD _ a .. | .amocasD _ a .. =>
    some (atomicOp i, [(0, ⟨s.g a, atomicSize i, atomicSize i, false⟩)])
  | .cas2 _ a .. | .swp2 _ a .. => if s.piccolo then none else some (.cas2, [(0, ⟨s.g a, 16, 16, false⟩)])
  | .mma a _ | .mqd a _ => if (s.g a).bits 0 6 = 0 then block (s.g a) 64 else none
  | .csrr _ c => if c.toNat = csrXlaunch then block s.hot.xset[7] 32 else none
  | _ => none

/-- Whether a place asks its port, or its agent the host, for what an access needs: not where a copy is held that will do. -/
def State.goesOut (s : State) (core : Nat) (o : AccOp) (p : Phys) : Bool :=
  let line := lineOf p.pa
  match p.kind with
  | .hco => match s.hco.find? fun h => h.1 == line with
    | some h => o.writes && !h.2
    | none => true
  | k => !(k.bySoftware && o == .load &&
      (tabHas (s.getCore core).l1c line || tabHas (s.getDie (dieOfCore core)).l2c line))

/-- The place of an address among `n` bytes that an access of `w` has to fetch from where `reaches` says. -/
def State.requestPlace (s : State) (w : Who) (o : AccOp) (need : Need) (reaches : Phys → Bool) (base : Word) (n : Nat) (va : Word) :
    Option Phys :=
  if base.toNat ≤ va.toNat ∧ va.toNat < base.toNat + n then
    match (s.translate w base need).2 with
    | .ok p => if reaches p && s.goesOut w.core o p then some { p with pa := p.pa + (va.toNat - base.toNat) } else none
    | .error _ => none
  else none

/-- The element of a request that holds an address: its index, and the place of the address. -/
def State.elementAt (s : State) (w : Who) (o : AccOp) (es : List (Nat × Elem)) (reaches : Phys → Bool) (va : Word) :
    Option (Nat × Elem × Phys) :=
  es.findSome? fun x => (s.requestPlace w o o.need reaches x.2.va x.2.n va).map fun p => (x.1, x.2, p)

/-- Nothing keeps the executing slot from its next bundle. -/
def Slot.ready (x : Slot) : Bool := !x.blocked && x.wait.isNone

/-- The first word of the next bundle of the executing slot, if nothing keeps it from issuing. -/
def State.nextWord (s : State) : Option Instr :=
  match s.prepare.2 with
  | .ok b => if !s.hot.ready || b.words.any s.waits || s.hot.spdOver b then none else b.words.head?
  | .error _ => none

/-- What the next bundle of the executing slot fetches: the addresses with their lengths, and what `TRAPVAL` shows: its words, and
the descriptor of a `SAFEPT`. -/
def State.fetches (s : State) : List (Word × Nat × Word) :=
  let pc := s.hot.pc
  let pair : Bool := match (s.fetchWord pc).2 with | .ok w => w / 2 ^ 30 == 0 | .error _ => false
  let desc : List (Word × Nat × Word) := match s.nextWord with
    | some (.safept o) => (List.range 4).map fun i => (target19 pc o + word (8 * i), 8, target19 pc o)
    | _ => []
  (pc, 4, pc) :: ((if pair then [(pc + 4, 4, pc + 4)] else []) ++ desc)

/-- A fetch of the executing slot that waits for an address: what `TRAPVAL` shows, and its place. -/
def State.fetchAt (s : State) (reaches : Phys → Bool) (va : Word) : Option (Word × Phys) :=
  if !s.hot.ready then none
  else s.fetches.findSome? fun f =>
    (s.requestPlace s.me .load ⟨false, false, true⟩ reaches f.1 f.2.1 va).bind fun p =>
      if ((s.getCore s.core).codeLine (lineOf p.pa)).isSome then none else some (f.2.2, p)

/-- The shipped `CAS2` or `SWP2` of a slot that waits at a Bassoon on such a place (R232). -/
def State.shippedRequest (s : State) (k : Nat) (reaches : Phys → Bool) (va : Word) : Option (Fin 8 × ShipEntry × Phys) :=
  (List.finRange 8).findSome? fun t =>
    match (s.getSlot k).window[t.val] with
    | some e =>
      match e.reply, e.packet with
      | none, some p =>
        match p.ops with
        | .pair a .. =>
          let w : Who := ⟨p.ctx, p.lcore, k % 4, p.supervisor, coreOfSlot k, false, p.asid⟩
          (s.elementAt w .cas2 [(0, ⟨a, 16, 16, false⟩)] reaches va).map fun x => (t, e, x.2.2)
        | _ => none
      | _, _ => none
    | none => none

/-- A request of a slot that waits on a port. -/
inductive Request where
  | shipped (tag : Fin 8) (e : ShipEntry)
  /-- Of a fetch: what `TRAPVAL` shows. -/
  | fetch (value : Word)
  /-- Of a load or atomic: the index and the address of its element, and what `TRAPVAL` shows of POISON: of the block of an engine's
  command (R451), a vector element or a part of a scalar (R421) its address, else that of the word (R444). -/
  | access (index : Nat) (value poisoned : Word)
deriving DecidableEq, Repr

/-- The request of a slot that waits for an address where `reaches` says, and its place. -/
def State.requestAt (s : State) (k : Nat) (reaches : Phys → Bool) (va : Word) : Option (Request × Phys) :=
  match s.shippedRequest k reaches va with
  | some (t, e, p) => some (.shipped t e, p)
  | none =>
    let s := s.focus k
    match s.fetchAt reaches va with
    | some (v, p) => some (.fetch v, p)
    | none => s.nextWord.bind fun i => (s.requestOf i).bind fun r =>
        (s.elementAt s.me r.1 r.2 reaches va).map fun x =>
          let block : Bool := match i with | .mma .. | .mqd .. | .csrr .. => true | _ => false
          (.access x.1 x.2.1.va (if block || x.2.1.part r.1 then x.2.1.va else va &&& ~~~(7#64)), x.2.2)

/-- An exception of the next bundle of the executing slot. -/
def State.raiseNext (s : State) (c : Cause) (detail record : Nat) (value : Word) : State :=
  let e : Exc := ⟨c.code, detail, false, value, s.hot.pc, record⟩
  if s.hot.shipping then { s with hot := { s.hot with heldTrap := some e, did := .trapped } } else s.deliver s.hotId e

/-- A request fails: the cause is precise. A fetch of a poisoned word is POISON detail 3 (R444), of whatever else detail 1 (R479).
DEDUCED (log 81), unsafe. -/
def State.failRequest (s : State) (k : Nat) (r : Request) (c : Cause) (detail record : Nat) (va : Word) : State :=
  match r with
  | .shipped t e => (s.squashOne k e).shipReply k t { e with record := record } (.exception c.code detail va)
  | .fetch v => (s.focus k).raiseNext c (if c = .poison then 3 else detail) record (if c = .poison then va &&& ~~~(7#64) else v)
  | .access i v p => (s.focus k).raiseNext c (detail + i % 16 * 256) record (if c = .poison then p else v)

/-- The requests of a list of slots and addresses that wait where `reaches` says raise ACCESS detail 7. -/
def State.failWaiting (s : State) (reaches : State → Nat → Phys → Bool) (waiting : List (Nat × Word)) : State :=
  waiting.foldl (fun s x =>
    match s.requestAt x.1 (reaches s x.1) x.2 with
    | some (r, _) => s.failRequest x.1 r .access 7 0 x.2
    | none => s) s

/-! ## Fabric ports (R478) -/

/-- A fabric port that is there and works: one missing from the mask is absent (R355), and one disabled is off (R478). -/
def Package.portThere (p : Package) (port : Nat) : Bool :=
  decide (port < 128) && !p.record.portsOut.contains port && !p.portsOff.contains port

/-- Failed replays of a fabric port in a row. -/
def State.portReplays (s : State) (port : Nat) : Nat := tabGet 0 s.package.replays port

/-- The die of a fabric port (R21). -/
def portDie (port : Nat) : Nat := perimeterDie (port / 8)

/-- FABRIC_CRC_ERROR: replayed as on a die boundary. -/
def execFabricCrcError (s : State) : Out :=
  match s.agenda with
  | .fabricCrcError port again :: t =>
    let s := { s with agenda := t }
    .next (if !s.package.portThere port then s
      else
        let n := if again then min (s.portReplays port + 1) 8 else 0
        { s with package := { s.package with replays := tabSet s.package.replays port n } }.logRecord (portDie port)
          (linkRecord 0 1 2 none (location 7 port s.pkg (portDie port) 0) port))
  | _ => .next s

/-- The other package of a place, for a context that reaches it through a port. -/
def State.throughPort (s : State) (c port : Nat) (p : Phys) : Bool :=
  match region s.pkg p.pa with
  | .domain q _ => s.route c q == .open port
  | .remote => s.route c ((p.pa - remoteBase) / 2 ^ 48) == .open port
  | _ => false

/-- Whether a route of a context names a port. -/
def State.usesPort (s : State) (c port : Nat) : Bool := (List.range 64).any fun q => s.route c q == .open port

/-- FABRIC_PORT_DISABLE, after 8 failed replays in a row: waiting loads and atomics fail, contexts with unacknowledged
traffic are made dead, and the port is off until the next start. -/
def State.disablePort (s : State) (port : Nat) (lost : List Nat) (waiting : List (Nat × Word)) : State :=
  if s.portReplays port < 8 ∨ !s.package.portThere port then s
  else
    let place := location 7 port s.pkg (portDie port) 0
    let s := s.logRecord (portDie port) (linkRecord 3 5 6 none place port)
    let gone := lost.dedup.filter fun c => (s.getCtx c).live && s.usesPort c port
    let s := s.failWaiting (fun s k => s.throughPort (s.getSlot k).ctx port) waiting
    let s := gone.foldl (fun s c => s.loseContext place c (linkRecord 2 6 4 (some c) place port)) s
    { s with package := { s.package with portsOff := s.package.portsOff ++ [port] } }

def execFabricPortDisable (s : State) : Out :=
  match s.agenda with
  | .fabricPortDisable port lost waiting :: t => .next ({ s with agenda := t }.disablePort port lost waiting)
  | _ => .next s

/-! ## Failed requests at a host port (R479) -/

/-- Whether a place lies in the window of a host port, reached as HNC or HCO. -/
def State.atHost (s : State) (port : Nat) (p : Phys) : Bool :=
  hostPort s.pkg p.pa == some port && (p.kind == .hnc || p.kind == .hco)

/-- The die of a host port. -/
def hostDie (port : Nat) : Nat := if port = 0 then 0 else 23

/-- The record of a host event: class 5. -/
def State.logHost (s : State) (port containment cause action : Nat) (addr : Option (Nat × Bool)) (detail : Nat) : State :=
  s.logRecord (hostDie port) ⟨5, containment, cause, action, none, addr, location 8 port s.pkg (hostDie port) 0, detail⟩

/-- A host port reports an error through PCIe AER (R479, R487). -/
def State.reportAer (s : State) (port : Nat) (correctable : Bool) : State :=
  { s with package := { s.package with aer := s.package.aer ++ [(port, correctable)] } }

/-- A slot's request at the host that fails, through whichever port it goes: reported, logged, and a cause at the slot. Data that
comes back poisoned marks the word of a line that caches hold (R444). -/
def State.hostFailure (s : State) (k gen : Nat) (c : Cause) (detail : Nat) (va : Word) : State :=
  if (s.getSlot k).gen ≠ gen then s
  else match [0, 1].findSome? fun j => (s.requestAt k (s.atHost j) va).map fun r => (j, r) with
    | none => s
    | some (j, r, p) =>
      let d := hostDie j
      let before := s.lastRecord d
      let s := (s.reportAer j false).logHost j 1 2 3 none va.toNat
      let wd := p.pa / 8
      let s := if c = .poison ∧ p.kind = .hco ∧ !s.poison.contains wd then { s with poison := s.poison ++ [wd] } else s
      s.failRequest k r c detail (if s.lastRecord d = before then 0 else s.lastRecord d) va

/-- HOST_REQUEST_FAILURE: data poisoned or in error, or the request refused. -/
def execHostRequestFailure (s : State) : Out :=
  match s.agenda with
  | .hostRequestFailure k gen poison va :: t =>
    .next ({ s with agenda := t }.hostFailure k gen (if poison then .poison else .access) (if poison then 1 else 7) va)
  | _ => .next s

/-- HOST_COMPLETION_TIMEOUT: no completion within 50 ms (log 9). -/
def execHostCompletionTimeout (s : State) : Out :=
  match s.agenda with
  | .hostCompletionTimeout k gen va :: t => .next ({ s with agenda := t }.hostFailure k gen .timeout 1 va)
  | _ => .next s

/-! ## HCO_FALLBACK, HOST_LINK_DOWN (R480, R481) -/

/-- HCO lines of the window of a port that some cache holds dirty. -/
def State.dirtyHost (s : State) (port : Nat) : List Nat :=
  ((s.caches.filter fun (c : Nat × CState) => c.2 == .m && hostPort s.pkg (c.1 / 8192) == some port).map
    fun (c : Nat × CState) => c.1 / 8192).dedup

/-- A dirty line is lost: what the host holds in its place is not stated, and its address is logged. -/
def State.loseLine (s : State) (port line : Nat) : State :=
  let n := s.freeCtr
  let bytes := leBytes (Config.freeVec n).toNat 64 ++ leBytes (Config.freeVec (n + 1)).toNat 64
  { s with mem := memWrite s.mem line bytes, freeCtr := n + 2 }.logHost port 3 3 0 (some (line, true)) line

/-- Every device copy of the lines of a window is gone. -/
def State.dropWindow (s : State) (port : Nat) : State :=
  { s with
    caches := s.caches.filter fun (c : Nat × CState) => hostPort s.pkg (c.1 / 8192) != some port
    homes := s.homes.filter fun (h : Nat × HState) => hostPort s.pkg (h.1 / 32) != some port
    waiters := s.waiters.filter fun w => hostPort s.pkg w.line != some port
    hco := s.hco.filter fun h => hostPort s.pkg h.1 != some port }

/-- HCO_FALLBACK: logged; dirty lines are written back but for those whose write fails; from then on accesses are HNC. -/
def State.hcoFallback (s : State) (port : Nat) (lost : List Nat) : State :=
  if s.package.fallback.contains port then s
  else
    let s := s.logHost port 3 3 0 none port
    let s := ((s.dirtyHost port).filter lost.contains).foldl (fun s l => s.loseLine port l) s
    let s := s.dropWindow port
    { s with package := { s.package with fallback := s.package.fallback ++ [port] } }

/-- An error of a port in service that its link corrects is reported and logged, and changes nothing else (R487). -/
def State.correctedHost (s : State) (port : Nat) : State :=
  if s.package.hostDown.contains port then s else (s.reportAer port true).logHost port 0 1 1 none port

def execHcoFallback (s : State) : Out :=
  match s.agenda with
  | .hcoFallback port lost correctable :: t =>
    let s := { s with agenda := t }
    .next (if correctable then s.correctedHost port.val else s.hcoFallback port.val lost)
  | _ => .next s

/-- HOST_LINK_DOWN until the next start: waiting requests fail, and dirty HCO lines of the window are lost. -/
def State.hostDown (s : State) (port : Nat) (waiting : List (Nat × Word)) : State :=
  if s.package.hostDown.contains port then s
  else
    let s := s.failWaiting (fun s _ => s.atHost port) waiting
    let lost := s.dirtyHost port
    let s := { s with package := { s.package with hostDown := s.package.hostDown ++ [port] } }.logHost port 4 4 6 none port
    (lost.foldl (fun s l => s.loseLine port l) s).dropWindow port

def execHostLinkDown (s : State) : Out :=
  match s.agenda with
  | .hostLinkDown port waiting :: t => .next ({ s with agenda := t }.hostDown port.val waiting)
  | _ => .next s

end Sys2Proof.Machine
end

