-- ==== Sys2Proof/Machine/Preempt.lean ====
section
/-!
DEFINITION. Pre-emption and resumption of a logical core (R55, R58 to R61, R413, R462).
-/
namespace Sys2Proof.Machine

/-- A pre-empt or resume message is discarded, counted as every message of a context that has been live (R414), and logged; it
changes nothing else (R462). -/
def State.discardControl (s : State) (core : Nat) (m : Msg) : State :=
  (s.dropped (dieOfCore core) (msgCtx m)).logRecord (dieOfCore core) ⟨2, 1, 3, 0, some (msgCtx m), none, s.corePlace core, msgDst m⟩

/-- The checks that both messages share: form, live context, and that the context's supervisor endpoint sent it. -/
def State.controlMessage (s : State) (core : Nat) (m : Msg) (trusted : Bool) (k : State) : State :=
  if malformed m then s.discardMalformed core m
  else if !(s.getCtx (msgCtx m)).live then s.dropped (dieOfCore core) (msgCtx m)
  else if !trusted then s.discardControl core m
  else k

/-! ## PRE_EMPT_MESSAGE (R55) -/

/-- The logical cores of a context that a core holds; none if the table cannot be read. -/
def State.heldCores (s : State) (core c : Nat) : Option (List Nat) :=
  (s.tableRead c (s.getCtx c).coretab 4).bind fun n =>
    (List.range n).foldr (fun l acc =>
      match acc, s.holds core c l with
      | some t, some true => some (l :: t)
      | some t, some false => some t
      | _, _ => none) (some [])

/-- What that search leaves behind (R494). -/
def State.heldTouch (s : State) (core c : Nat) : State :=
  (List.range (s.tableCores c)).foldl (fun s l => s.ctMiss core c l) (s.tableTouch c (s.getCtx c).coretab 4)

/-- The pre-empt message: marks, entries back to the spill queues, waiting slots woken, and at once pre-empted where no
slot runs the logical core. -/
def State.preempt (s : State) (core : Nat) (m : Msg) : State :=
  let c := msgCtx m
  match s.heldCores core c with
  | none => s.tableFailure (s.corePlace core) c
  | some ls =>
    let s := s.heldTouch core c
    let new := ls.filter fun l => !s.marked core c l
    let x := s.getCore core
    let back := x.arrival.filter fun e => msgCtx e.msg == c && !neverSpilled e.msg
    let stay := x.arrival.filter fun e => !(msgCtx e.msg == c && !neverSpilled e.msg)
    if new = [] then s
    else
      let s := s.setCore core { x with arrival := stay, marks := x.marks ++ new.map fun l => ⟨c, l, false, m.handler, []⟩ }
      let s := (s.spillBack core back).wakeWfm core c 2
      new.foldl (fun s l => s.preemptSettle core c l) s

def execPreEmptMessage (s : State) : Out :=
  match s.agenda with
  | .preEmptMessage core m trusted :: t =>
    let s := { s with agenda := t }
    .next (s.controlMessage core m trusted (s.preempt core m))
  | _ => .next s

/-! ## RESUME_MESSAGE (R60, R462) -/

/-- Whether a resume may name a position: occupied, and not already listed by an accepted resume. -/
def State.resumable (s : State) (core c l p : Nat) : Bool :=
  (s.getCtx c).occupied.contains (l * 4 + p) &&
  !((s.getCore core).resuming.any fun r => r.1 == c && r.2.1 == l && nbit r.2.2.1 p)

/-- Whether a core accepts a resume for a logical core: pre-empted there, or free of marks and named by its entry; none if
the entry cannot be read. -/
def State.acceptsResume (s : State) (core c l : Nat) : Option Bool :=
  match (s.getCore core).marks.find? fun m => m.ctx == c && m.lcore == l with
  | some m => some m.preempted
  | none => s.holds core c l

/-- An accepted resume joins one still in progress for the same logical core. -/
def addResuming (rows : List (Nat × Nat × Nat × Nat)) (c l mask n : Nat) : List (Nat × Nat × Nat × Nat) :=
  if rows.any fun r => r.1 == c && r.2.1 == l then
    rows.map fun r => if r.1 = c ∧ r.2.1 = l then (c, l, r.2.2.1 + mask, r.2.2.2 + n) else r
  else rows ++ [(c, l, mask, n)]

/-- A resume: the listed positions wait for slots, and the logical core counts as pre-empted until all have run. -/
def State.resume (s : State) (core : Nat) (m : Msg) : State :=
  let c := msgCtx m
  let l := msgDst m
  let mask := (m.payload.headD 0).bits 0 4
  let ps := (List.range 4).filter fun p => nbit mask p
  let read := s.marked core c l
  match s.acceptsResume core c l with
  | none => s.tableFailure (s.corePlace core) c
  | some false => (if read then s else s.ctMiss core c l).discardControl core m
  | some true =>
    let s := if read then s else s.ctMiss core c l
    if !ps.all (s.resumable core c l) then s.discardControl core m
    else
      let x := s.getCore core
      let marks := if s.marked core c l then x.marks else x.marks ++ [⟨c, l, true, 0, []⟩]
      (s.setCore core { x with marks := marks, resuming := addResuming x.resuming c l mask ps.length }).post (.resumption core)

def execResumeMessage (s : State) : Out :=
  match s.agenda with
  | .resumeMessage core m trusted :: t =>
    let s := { s with agenda := t }
    .next (s.controlMessage core m trusted (s.resume core m))
  | _ => .next s

/-! ## RESUMPTION (R60) -/

/-- The registers that a record holds go to a slot. -/
def Slot.reload (x : Slot) (b : List Byte) : Slot :=
  let f := fun at_ n => leNat ((b.drop at_).take n)
  let gmap := f 16 4
  let vmap := f 20 4
  let mmap := f 24 1
  let v0 := (32 + 8 * onesIn gmap 32 + 63) / 64 * 64
  let m0 := v0 + 64 * onesIn vmap 32
  { x with
    g := Vector.ofFn fun (r : Fin 32) => if r ≠ 0 ∧ nbit gmap r.val then word (f (32 + 8 * onesIn gmap r.val) 8) else x.g[r.val]
    v := Vector.ofFn fun (r : Fin 32) => if nbit vmap r.val then BitVec.ofNat 512 (f (v0 + 64 * onesIn vmap r.val) 64) else x.v[r.val]
    m := Vector.ofFn fun (r : Fin 8) => if r ≠ 0 ∧ nbit mmap r.val then word (f (m0 + 8 * onesIn mmap r.val) 8) else x.m[r.val] }

/-- The doublewords of the safe-point descriptor of a resumed slot, which the slot fetches; none where its record names none. -/
def State.stubWords (s : State) (k : Nat) (desc : Word) (format : Nat) : State × Except FetchFault (List Nat) :=
  if format ≠ 0 ∨ desc = 0 then (s, .ok []) else (s.focus k).fetchWords desc 4

/-- The rebuild stub of a resumed slot: its start, or the resume address where there is none. A descriptor that cannot be
fetched raises there. -/
def State.enterStub (s : State) (k p : Nat) (resume desc : Word) (r : Except FetchFault (List Nat)) : State :=
  let at_ := fun (pc : Word) => s.setSlot k { s.getSlot k with pc := pc, aOnly := pc == resume, stub := some (resume, p) }
  match r with
  | .ok ws =>
    let off := ws.getD 3 0 % 2 ^ 32
    at_ (if off = 0 then resume else resume - 4 + sextTo64 32 off)
  | .error (.raise c d) => (at_ resume).deliver k ⟨c.code, d, false, desc, resume, 0⟩
  | .error _ => s.tableFailure (s.slotPlace k) (s.getSlot k).ctx

/-- The fence-token count with which the activation saved at a position goes on: tokens it holds stay complete (R56, R132).
Where a loader wrote the record the spec states none, and it is a free value (log 50). -/
def State.savedSeq (s : State) (c l p : Nat) : Nat :=
  let x := s.getCtx c
  if tabHas x.seqs (l * 4 + p) then tabGet 0 x.seqs (l * 4 + p) else (Config.freeWord (s.freeCtr + 39)).toNat % seqSpan

/-- One position is reloaded into a slot; false where the slot still waits for a claim of its descriptor's page (R153), and
nothing has been reloaded. -/
def State.loadPosition (s : State) (core k c l p : Nat) : State × Bool :=
  match s.recordAccess c l p with
  | (s, none) => (s.tableFailure (s.corePlace core) c, true)
  | (s, some b) =>
    let f := fun at_ n => leNat ((b.drop at_).take n)
    let resume := word (f 0 8)
    let x := s.getSlot k
    let y := x.start s.freeCtr c l (f 28 4) (f 26 1 % 4) (s.isSupervisor c) resume
    match (s.setSlot k { y.reload b with seq := s.savedSeq c l p }).stubWords k (word (f 8 8)) (f 25 1) with
    | (s, .error .wait) => (s.setSlot k x, false)
    | (s, r) =>
      let s := (s.giveUp c l p).zeroArea k c
      ({ s with freeCtr := s.freeCtr + startValues }.enterStub k p resume (word (f 8 8)) r, true)

/-- Where every listed activation of an accepted resume has run, the logical core is no longer pre-empted and its spill
queue is redelivered (R60, step 3). -/
def State.liftResumed (s : State) (core : Nat) : State :=
  let x := s.getCore core
  let ended := x.resuming.filter fun r => r.2.2.1 == 0 && r.2.2.2 == 0
  if ended = [] then s
  else
    let gone := fun (c l : Nat) => ended.any fun r => r.1 == c && r.2.1 == l
    ((s.setCore core { x with
      resuming := x.resuming.filter fun r => !gone r.1 r.2.1
      marks := x.marks.filter fun m => !gone m.ctx m.lcore }).post (.redelivery core)).post (.dispatch core)

/-- The next listed position takes a free slot, lowest position first. -/
def State.resumeOne (s : State) (core : Nat) : State :=
  let x := s.getCore core
  match x.resuming.findIdx? fun r => r.2.2.1 != 0, s.freeSlot core with
  | some i, some k =>
    match x.resuming[i]? with
    | some (c, l, mask, n) =>
      match (List.range 4).find? fun p => nbit mask p with
      | some p =>
        let (s, loaded) := s.loadPosition core k c l p
        let y := s.getCore core
        let rows := y.resuming.map fun r => if r.1 = c ∧ r.2.1 = l then (c, l, mask - 2 ^ p, n) else r
        (if loaded then s.setCore core { y with resuming := rows } else s).post (.resumption core)
      | none => s
    | none => s
  | _, _ => s

/-- RESUMPTION: a listed position is reloaded, or an accepted resume ends. -/
def execResumption (s : State) : Out :=
  match s.agenda with
  | .resumption core :: t =>
    let s := { s with agenda := t }
    .next (if (s.getCore core).isolated then s else (s.resumeOne core).liftResumed core)
  | _ => .next s

end Sys2Proof.Machine
end

