-- ==== Sys2Proof/Machine/Resend.lean ====
section
/-!
DEFINITION. RESEND_AFTER_BACKOFF (R300, R411, R463): a network interface sends again what was refused.
-/
namespace Sys2Proof.Machine

/-- Whether what was refused earlier holds this back: messages of one flow to one core (R48), transfers of one slot (R306). -/
def sameOrder : Resend → Resend → Bool
  | .message _ m _ r, .message _ m' _ r' => r.isNone && r'.isNone && sameFlow m m'
  | .command _ _ (.bte x), .command _ _ (.bte y) => x.slot == y.slot && sameBte x y
  | _, _ => false

/-- It waits, and nothing of its order waits before it. -/
def State.mayResend (s : State) (x : Resend) : Bool :=
  s.backoff.contains x && (s.backoff.takeWhile (· != x)).all fun y => !sameOrder y x

/-- A message sent again: taken, discarded, or refused once more. -/
def State.resendMessage (s t : State) (core : Nat) (m : Msg) (creator : Creator) (range : Option (Nat × Nat × Nat × Nat)) :
    State :=
  if neverSpilled m then (if s.reportRefused core m then s else t.reportTaken core m)
  else match t.accept core m range with
    | (t, .taken id) => (t.retryCount creator false).accepted core (msgCtx m) creator id
    | (t, .gone) => (t.retryCount creator false).discarded creator
    | (_, .refused) => s.logRefusal core (msgCtx m) (msgDst m)

/-- One resend; `t` is the state in which it waits no more. -/
def State.resend (s : State) (x : Resend) : State :=
  if !s.mayResend x then s
  else
    let t := { s with backoff := s.backoff.erase x }
    match x with
    | .command die engine c => (t.offerCommand die engine c).getD s
    | .record die r => (t.offerRecord die r).getD s
    | .message core m creator range => s.resendMessage t core m creator range
    | .packet p toAlt => t.sendPacket p toAlt

def execResendAfterBackoff (s : State) : Out :=
  match s.agenda with
  | .resendAfterBackoff x :: t => .next ({ s with agenda := t }.resend x)
  | _ => .next s

end Sys2Proof.Machine
end

