-- ==== Sys2Proof/Machine/Watchdog.lean ====
section
/-!
DEFINITION. The queue watchdog (R410, R466).
-/
namespace Sys2Proof.Machine

/-- The queue that a started word still has to append to: a local one has its result, a shipped one its clean reply (R249). -/
def Slot.appendsTo (x : Slot) (e : VEntry) (r : VRes) : Option QReg :=
  match e.tag with
  | some t =>
    match (x.window[t.val]).bind ShipEntry.reply with
    | some (.clean ..) => vAppends e.instr
    | _ => none
  | none => r.q.map (·.1)

/-- A V word that waits on a queue, and which (R466): a started one whose queue is full, or the next one, whose queue is
empty. -/
def Slot.vWaits (x : Slot) : Option (VEntry × QReg) :=
  match x.vrun with
  | some (e, r) =>
    match x.appendsTo e r with
    | some q => if queueDepth ≤ (x.getQ q).length then some (e, q) else none
    | none => none
  | none =>
    match x.nextV with
    | some (e, _) => match vTakes e.instr with | some q => if (x.getQ q).isEmpty then some (e, q) else none | none => none
    | none => none

/-- The queue on which a word of the S stream waits, or the vector issue queue (DETAIL[3]). -/
def Slot.sWaits (x : Slot) (i : Instr) : Option Nat :=
  match intOperands i with
  | some (d, a) =>
    let empty := match a with | .q n => !(x.taken.any fun y => y.1 == sReads n) && (x.getQ (sReads n)).isEmpty | .g _ => false
    let full := match d with | .q n => decide (queueDepth ≤ (x.getQ (sWrites n)).length) | .g _ => false
    if empty then (match a with | .q n => some (sReads n).val | .g _ => none)
    else if full then (match d with | .q n => some (sWrites n).val | .g _ => none)
    else none
  | none => if isV i && decide (16 ≤ x.vq.length) then some 8 else none

/-- The first word of the next bundle of the executing slot that waits so. -/
def State.bundleWaits (s : State) : Option (Instr × Nat) :=
  match s.prepare.2 with
  | .ok b => b.words.findSome? fun i => (s.hot.sWaits i).map fun d => (i, d)
  | .error _ => none

/-- A slot without its V words that have not started, and with the repetition buffer idle. They were counted in `RETIRED` and `SPD`
as they were queued, and are not (R422). -/
def Slot.discardV (x : Slot) : Slot :=
  let gone := x.vq ++ (x.vWaits.toList.map (·.1))
  { x with
    window := Vector.ofFn fun (i : Fin 8) => if gone.any fun e => e.tag == some i then none else x.window[i.val]
    retired := x.retired - word (gone.filter fun e => !e.replayed).length
    spd := x.spd - (gone.filter fun e => !e.replayed).length
    vq := []
    vrun := if x.vWaits.isSome then none else x.vrun
    rep := none }

/-- A slot that waits in `WFM` leaves it as the watchdog fires for its V stream: the waiting word has no effect (R466). -/
def Slot.leaveWfm (x : Slot) : Slot :=
  match x.phase with
  | .wfm .. => { x with phase := .running, retired := x.retired - 1, spd := x.spd - 1 }
  | _ => x

/-- Shipped words younger than a word are squashed, with what was done behind them, and younger stores are dropped
(R237, R410). -/
def State.squashYounger (s : State) (k order : Nat) : State :=
  let x := s.getSlot k
  let young := x.window.toList.filterMap fun w => match w with | some w => if order < w.order then some w else none | none => none
  let s := young.foldl (fun s w => if w.reply.isNone then s.squashOne k w else s) s
  let x := s.getSlot k
  let x := match young with
    | [] => x
    | e :: es => x.rollback (es.foldl (fun (a b : ShipEntry) => if b.order < a.order then b else a) e)
  s.setSlot k { x with held := x.held.filter fun h => decide (h.order ≤ order) }

/-- QUEUE_STALL of a slot, at the oldest word discarded or waiting: a trap if R408 admits one, else the fault path. During
the wait of R410 it takes the place of the cause that waits. -/
def State.queueStall (s : State) (k order : Nat) (addr : Word) (detail : Nat) : State :=
  let e : Exc := ⟨Cause.queueStall.code, detail, false, addr, addr, 0⟩
  let x := s.getSlot k
  match x.phase with
  | .faulting _ => ((s.squashYounger k order).setSlot k { (s.squashYounger k order).getSlot k with phase := .faulting e }).poke k
  | _ =>
    let s := if x.admitsTrap e.cause then s else s.squashYounger k order
    let x := s.getSlot k
    if x.shipping then s.setSlot k { x with heldTrap := some e } else s.deliver k e

/-- The watchdog of the executing slot. -/
def State.watchdog (s : State) : State :=
  let x := s.hot
  let k := s.hotId
  let v := x.vWaits
  let sw := if x.phase = .running ∧ x.wait.isNone ∧ x.heldTrap.isNone then s.bundleWaits else none
  if !x.active || (v.isNone && sw.isNone) then s
  else
    let y := x.discardV.giveBack.leaveWfm
    let t := { s with hot := y }
    match v, x.nextV, sw with
    | some (e, q), _, _ => t.queueStall k e.order e.addr (4 + q.val)
    | none, some (e, _), _ => t.queueStall k e.order e.addr 4
    | none, none, some (_, d) => t.queueStall k x.order x.pc d
    | none, none, none => s

/-- QUEUE_WATCHDOG: 2²⁰ core cycles have passed with nothing issued and nothing completed (log 9). -/
def execQueueWatchdog (s : State) : Out :=
  match s.agenda with
  | .queueWatchdog k :: t =>
    let s := { s with agenda := t }
    .next (match (s.getSlot k).phase with
      | .running | .wfm .. | .faulting _ => (s.focus k).watchdog
      | _ => s)
  | _ => .next s

end Sys2Proof.Machine
end

