-- ==== Sys2Proof/Machine/Dispatch.lean ====
section
/-!
DEFINITION. The meaning of every row of the opcode table: one arm per constructor of `Instr`, each one direct call.
-/
namespace Sys2Proof.Machine

def exec (i : Instr) (s : State) : Host.Outcome State Fault Refusal :=
  match i with
  | .ldb d a im => Sys2Proof.Machine.execLdb d a im s
  | .ldbn d a im => Sys2Proof.Machine.execLdbn d a im s
  | .ldh d a im => Sys2Proof.Machine.execLdh d a im s
  | .ldhn d a im => Sys2Proof.Machine.execLdhn d a im s
  | .ldw d a im => Sys2Proof.Machine.execLdw d a im s
  | .ldwn d a im => Sys2Proof.Machine.execLdwn d a im s
  | .ldd d a im => Sys2Proof.Machine.execLdd d a im s
  | .ldq d a im => Sys2Proof.Machine.execLdq d a im s
  | .stb b a im => Sys2Proof.Machine.execStb b a im s
  | .sth b a im => Sys2Proof.Machine.execSth b a im s
  | .stw b a im => Sys2Proof.Machine.execStw b a im s
  | .std b a im => Sys2Proof.Machine.execStd b a im s
  | .stq b a im => Sys2Proof.Machine.execStq b a im s
  | .vld v a m im => Sys2Proof.Machine.execVld v a m im s
  | .vst v a m im => Sys2Proof.Machine.execVst v a m im s
  | .vlds v a b m im => Sys2Proof.Machine.execVlds v a b m im s
  | .vsts v a b m im => Sys2Proof.Machine.execVsts v a b m im s
  | .vldx v a x m im => Sys2Proof.Machine.execVldx v a x m im s
  | .vstx v a x m im => Sys2Proof.Machine.execVstx v a x m im s
  | .vldb v a m im => Sys2Proof.Machine.execVldb v a m im s
  | .amoaddW d a b sc o => Sys2Proof.Machine.execAmoaddW d a b sc o s
  | .amoandW d a b sc o => Sys2Proof.Machine.execAmoandW d a b sc o s
  | .amoorW d a b sc o => Sys2Proof.Machine.execAmoorW d a b sc o s
  | .amoxorW d a b sc o => Sys2Proof.Machine.execAmoxorW d a b sc o s
  | .amominW d a b sc o => Sys2Proof.Machine.execAmominW d a b sc o s
  | .amomaxW d a b sc o => Sys2Proof.Machine.execAmomaxW d a b sc o s
  | .amominnW d a b sc o => Sys2Proof.Machine.execAmominnW d a b sc o s
  | .amomaxnW d a b sc o => Sys2Proof.Machine.execAmomaxnW d a b sc o s
  | .amoswpW d a b sc o => Sys2Proof.Machine.execAmoswpW d a b sc o s
  | .amocasW d a b sc o => Sys2Proof.Machine.execAmocasW d a b sc o s
  | .amoaddD d a b sc o => Sys2Proof.Machine.execAmoaddD d a b sc o s
  | .amoandD d a b sc o => Sys2Proof.Machine.execAmoandD d a b sc o s
  | .amoorD d a b sc o => Sys2Proof.Machine.execAmoorD d a b sc o s
  | .amoxorD d a b sc o => Sys2Proof.Machine.execAmoxorD d a b sc o s
  | .amominD d a b sc o => Sys2Proof.Machine.execAmominD d a b sc o s
  | .amomaxD d a b sc o => Sys2Proof.Machine.execAmomaxD d a b sc o s
  | .amominnD d a b sc o => Sys2Proof.Machine.execAmominnD d a b sc o s
  | .amomaxnD d a b sc o => Sys2Proof.Machine.execAmomaxnD d a b sc o s
  | .amoswpD d a b sc o => Sys2Proof.Machine.execAmoswpD d a b sc o s
  | .amocasD d a b sc o => Sys2Proof.Machine.execAmocasD d a b sc o s
  | .cas2 d a b sc o => Sys2Proof.Machine.execCas2 d a b sc o s
  | .swp2 d a b sc o => Sys2Proof.Machine.execSwp2 d a b sc o s
  | .redFaddS a b sc o => Sys2Proof.Machine.execRedFaddS a b sc o s
  | .redFaddD a b sc o => Sys2Proof.Machine.execRedFaddD a b sc o s
  | .redIaddW a b sc o => Sys2Proof.Machine.execRedIaddW a b sc o s
  | .redIaddD a b sc o => Sys2Proof.Machine.execRedIaddD a b sc o s
  | .vacc v a t m im => Sys2Proof.Machine.execVacc v a t m im s
  | .accinit a b sc o => Sys2Proof.Machine.execAccinit a b sc o s
  | .accrd d a sc o => Sys2Proof.Machine.execAccrd d a sc o s
  | .accz a sc o => Sys2Proof.Machine.execAccz a sc o s
  | .fiss d c sc => Sys2Proof.Machine.execFiss d c sc s
  | .fwait a => Sys2Proof.Machine.execFwait a s
  | .ftest d a => Sys2Proof.Machine.execFtest d a s
  | .fence c sc => Sys2Proof.Machine.execFence c sc s
  | .fencef => Sys2Proof.Machine.execFencef s
  | .clean a sc => Sys2Proof.Machine.execClean a sc s
  | .invl a sc => Sys2Proof.Machine.execInvl a sc s
  | .flush a sc => Sys2Proof.Machine.execFlush a sc s
  | .zline a sc => Sys2Proof.Machine.execZline a sc s
  | .pref a sc => Sys2Proof.Machine.execPref a sc s
  | .beq a b o => Sys2Proof.Machine.execBeq a b o s
  | .bne a b o => Sys2Proof.Machine.execBne a b o s
  | .blt a b o => Sys2Proof.Machine.execBlt a b o s
  | .bge a b o => Sys2Proof.Machine.execBge a b o s
  | .bltn a b o => Sys2Proof.Machine.execBltn a b o s
  | .bgen a b o => Sys2Proof.Machine.execBgen a b o s
  | .bmany m o => Sys2Proof.Machine.execBmany m o s
  | .bmall m o => Sys2Proof.Machine.execBmall m o s
  | .jal d o => Sys2Proof.Machine.execJal d o s
  | .jalr d a im => Sys2Proof.Machine.execJalr d a im s
  | .lui d im => Sys2Proof.Machine.execLui d im s
  | .addpc d im => Sys2Proof.Machine.execAddpc d im s
  | .send a b p n => Sys2Proof.Machine.execSend a b p n s
  | .spawn d a b p n => Sys2Proof.Machine.execSpawn d a b p n s
  | .launch d a b p n => Sys2Proof.Machine.execLaunch d a b p n s
  | .migr a im => Sys2Proof.Machine.execMigr a im s
  | .done => Sys2Proof.Machine.execDone s
  | .yield => Sys2Proof.Machine.execYield s
  | .tcancel d a => Sys2Proof.Machine.execTcancel d a s
  | .tqry d a => Sys2Proof.Machine.execTqry d a s
  | .bara a b sc => Sys2Proof.Machine.execBara a b sc s
  | .barw d a g sc => Sys2Proof.Machine.execBarw d a g sc s
  | .safept o => Sys2Proof.Machine.execSafept o s
  | .mma a b => Sys2Proof.Machine.execMma a b s
  | .mqd a b => Sys2Proof.Machine.execMqd a b s
  | .rep t u v x a sc k n => Sys2Proof.Machine.execRep t u v x a sc k n s
  | .csrr d c => Sys2Proof.Machine.execCsrr d c s
  | .csrw a c => Sys2Proof.Machine.execCsrw a c s
  | .csrrw d a c => Sys2Proof.Machine.execCsrrw d a c s
  | .csrs a c => Sys2Proof.Machine.execCsrs a c s
  | .csrc a c => Sys2Proof.Machine.execCsrc a c s
  | .ecall a => Sys2Proof.Machine.execEcall a s
  | .ebreak c => Sys2Proof.Machine.execEbreak c s
  | .tret => Sys2Proof.Machine.execTret s
  | .wfm d a => Sys2Proof.Machine.execWfm d a s
  | .tlbinv d a b => Sys2Proof.Machine.execTlbinv d a b s
  | .halt d => Sys2Proof.Machine.execHalt d s
  | .capmint d a b => Sys2Proof.Machine.execCapmint d a b s
  | .add d a b => Sys2Proof.Machine.execAdd d a b s
  | .sub d a b => Sys2Proof.Machine.execSub d a b s
  | .and d a b => Sys2Proof.Machine.execAnd d a b s
  | .or d a b => Sys2Proof.Machine.execOr d a b s
  | .xor d a b => Sys2Proof.Machine.execXor d a b s
  | .andn d a b => Sys2Proof.Machine.execAndn d a b s
  | .orn d a b => Sys2Proof.Machine.execOrn d a b s
  | .xnor d a b => Sys2Proof.Machine.execXnor d a b s
  | .sll d a b => Sys2Proof.Machine.execSll d a b s
  | .srl d a b => Sys2Proof.Machine.execSrl d a b s
  | .sra d a b => Sys2Proof.Machine.execSra d a b s
  | .rol d a b => Sys2Proof.Machine.execRol d a b s
  | .ror d a b => Sys2Proof.Machine.execRor d a b s
  | .min d a b => Sys2Proof.Machine.execMin d a b s
  | .max d a b => Sys2Proof.Machine.execMax d a b s
  | .minn d a b => Sys2Proof.Machine.execMinn d a b s
  | .maxn d a b => Sys2Proof.Machine.execMaxn d a b s
  | .slt d a b => Sys2Proof.Machine.execSlt d a b s
  | .sltn d a b => Sys2Proof.Machine.execSltn d a b s
  | .sel d a b => Sys2Proof.Machine.execSel d a b s
  | .mul d a b => Sys2Proof.Machine.execMul d a b s
  | .mulh d a b => Sys2Proof.Machine.execMulh d a b s
  | .mulhn d a b => Sys2Proof.Machine.execMulhn d a b s
  | .mulhsn d a b => Sys2Proof.Machine.execMulhsn d a b s
  | .div d a b => Sys2Proof.Machine.execDiv d a b s
  | .divn d a b => Sys2Proof.Machine.execDivn d a b s
  | .rem d a b => Sys2Proof.Machine.execRem d a b s
  | .remn d a b => Sys2Proof.Machine.execRemn d a b s
  | .clz d a => Sys2Proof.Machine.execClz d a s
  | .ctz d a => Sys2Proof.Machine.execCtz d a s
  | .popc d a => Sys2Proof.Machine.execPopc d a s
  | .brev d a => Sys2Proof.Machine.execBrev d a s
  | .bswap d a => Sys2Proof.Machine.execBswap d a s
  | .exts d a p l => Sys2Proof.Machine.execExts d a p l s
  | .extz d a p l => Sys2Proof.Machine.execExtz d a p l s
  | .ins d a p l => Sys2Proof.Machine.execIns d a p l s
  | .addsh d a b k => Sys2Proof.Machine.execAddsh d a b k s
  | .addi d a im => Sys2Proof.Machine.execAddi d a im s
  | .andi d a im => Sys2Proof.Machine.execAndi d a im s
  | .ori d a im => Sys2Proof.Machine.execOri d a im s
  | .xori d a im => Sys2Proof.Machine.execXori d a im s
  | .slli d a k => Sys2Proof.Machine.execSlli d a k s
  | .srli d a k => Sys2Proof.Machine.execSrli d a k s
  | .srai d a k => Sys2Proof.Machine.execSrai d a k s
  | .rori d a k => Sys2Proof.Machine.execRori d a k s
  | .slti d a im => Sys2Proof.Machine.execSlti d a im s
  | .sltni d a im => Sys2Proof.Machine.execSltni d a im s
  | .addw d a b => Sys2Proof.Machine.execAddw d a b s
  | .subw d a b => Sys2Proof.Machine.execSubw d a b s
  | .sllw d a b => Sys2Proof.Machine.execSllw d a b s
  | .srlw d a b => Sys2Proof.Machine.execSrlw d a b s
  | .sraw d a b => Sys2Proof.Machine.execSraw d a b s
  | .mulw d a b => Sys2Proof.Machine.execMulw d a b s
  | .fadd d a b r f => Sys2Proof.Machine.execFadd d a b r f s
  | .fsub d a b r f => Sys2Proof.Machine.execFsub d a b r f s
  | .fmul d a b r f => Sys2Proof.Machine.execFmul d a b r f s
  | .fdiv d a b r f => Sys2Proof.Machine.execFdiv d a b r f s
  | .fsqrt d a r f => Sys2Proof.Machine.execFsqrt d a r f s
  | .fmin d a b r f => Sys2Proof.Machine.execFmin d a b r f s
  | .fmax d a b r f => Sys2Proof.Machine.execFmax d a b r f s
  | .fsgnj d a b f => Sys2Proof.Machine.execFsgnj d a b f s
  | .fsgnjn d a b f => Sys2Proof.Machine.execFsgnjn d a b f s
  | .fsgnjx d a b f => Sys2Proof.Machine.execFsgnjx d a b f s
  | .feq d a b f => Sys2Proof.Machine.execFeq d a b f s
  | .flt d a b f => Sys2Proof.Machine.execFlt d a b f s
  | .fle d a b f => Sys2Proof.Machine.execFle d a b f s
  | .fclass d a f => Sys2Proof.Machine.execFclass d a f s
  | .fcvt d a sc r t => Sys2Proof.Machine.execFcvt d a sc r t s
  | .frsqe d a f => Sys2Proof.Machine.execFrsqe d a f s
  | .frcpe d a f => Sys2Proof.Machine.execFrcpe d a f s
  | .fexp2 d a f => Sys2Proof.Machine.execFexp2 d a f s
  | .flog2 d a f => Sys2Proof.Machine.execFlog2 d a f s
  | .fsin d a f => Sys2Proof.Machine.execFsin d a f s
  | .fcos d a f => Sys2Proof.Machine.execFcos d a f s
  | .ftanh d a f => Sys2Proof.Machine.execFtanh d a f s
  | .fatan d a f => Sys2Proof.Machine.execFatan d a f s
  | .frsq d a f => Sys2Proof.Machine.execFrsq d a f s
  | .frcp d a f => Sys2Proof.Machine.execFrcp d a f s
  | .ffma d a b c f r => Sys2Proof.Machine.execFfma d a b c f r s
  | .ffms d a b c f r => Sys2Proof.Machine.execFfms d a b c f r s
  | .fnfma d a b c f r => Sys2Proof.Machine.execFnfma d a b c f r s
  | .fnfms d a b c f r => Sys2Proof.Machine.execFnfms d a b c f r s
  | .vadd d a b m e => Sys2Proof.Machine.execVadd d a b m e s
  | .vsub d a b m e => Sys2Proof.Machine.execVsub d a b m e s
  | .vmul d a b m e => Sys2Proof.Machine.execVmul d a b m e s
  | .vmulh d a b m e => Sys2Proof.Machine.execVmulh d a b m e s
  | .vand d a b m e => Sys2Proof.Machine.execVand d a b m e s
  | .vor d a b m e => Sys2Proof.Machine.execVor d a b m e s
  | .vxor d a b m e => Sys2Proof.Machine.execVxor d a b m e s
  | .vsll d a b m e => Sys2Proof.Machine.execVsll d a b m e s
  | .vsrl d a b m e => Sys2Proof.Machine.execVsrl d a b m e s
  | .vsra d a b m e => Sys2Proof.Machine.execVsra d a b m e s
  | .vmin d a b m e => Sys2Proof.Machine.execVmin d a b m e s
  | .vmax d a b m e => Sys2Proof.Machine.execVmax d a b m e s
  | .vminn d a b m e => Sys2Proof.Machine.execVminn d a b m e s
  | .vmaxn d a b m e => Sys2Proof.Machine.execVmaxn d a b m e s
  | .vfadd d a b m f => Sys2Proof.Machine.execVfadd d a b m f s
  | .vfsub d a b m f => Sys2Proof.Machine.execVfsub d a b m f s
  | .vfmul d a b m f => Sys2Proof.Machine.execVfmul d a b m f s
  | .vfdiv d a b m f => Sys2Proof.Machine.execVfdiv d a b m f s
  | .vfsqrt d a m f => Sys2Proof.Machine.execVfsqrt d a m f s
  | .vfmin d a b m f => Sys2Proof.Machine.execVfmin d a b m f s
  | .vfmax d a b m f => Sys2Proof.Machine.execVfmax d a b m f s
  | .vffma d a b c f => Sys2Proof.Machine.execVffma d a b c f s
  | .vffms d a b c f => Sys2Proof.Machine.execVffms d a b c f s
  | .vfnfma d a b c f => Sys2Proof.Machine.execVfnfma d a b c f s
  | .vfnfms d a b c f => Sys2Proof.Machine.execVfnfms d a b c f s
  | .veq d a b m e => Sys2Proof.Machine.execVeq d a b m e s
  | .vlt d a b m e => Sys2Proof.Machine.execVlt d a b m e s
  | .vltn d a b m e => Sys2Proof.Machine.execVltn d a b m e s
  | .vfeq d a b m f => Sys2Proof.Machine.execVfeq d a b m f s
  | .vflt d a b m f => Sys2Proof.Machine.execVflt d a b m f s
  | .vfle d a b m f => Sys2Proof.Machine.execVfle d a b m f s
  | .vsel d a b m e => Sys2Proof.Machine.execVsel d a b m e s
  | .vrsum d a m e => Sys2Proof.Machine.execVrsum d a m e s
  | .vrmin d a m e => Sys2Proof.Machine.execVrmin d a m e s
  | .vrmax d a m e => Sys2Proof.Machine.execVrmax d a m e s
  | .vrfsum d a m f => Sys2Proof.Machine.execVrfsum d a m f s
  | .vperm d a b m e => Sys2Proof.Machine.execVperm d a b m e s
  | .vzip d a b m e => Sys2Proof.Machine.execVzip d a b m e s
  | .vunzip d a b m e => Sys2Proof.Machine.execVunzip d a b m e s
  | .vbcast d a m e => Sys2Proof.Machine.execVbcast d a m e s
  | .vext d a b m e => Sys2Proof.Machine.execVext d a b m e s
  | .vins d a b m e => Sys2Proof.Machine.execVins d a b m e s
  | .vcvt d a sc m r t => Sys2Proof.Machine.execVcvt d a sc m r t s
  | .vdot4 d a b m t => Sys2Proof.Machine.execVdot4 d a b m t s
  | .vq8 d a b m t p => Sys2Proof.Machine.execVq8 d a b m t p s
  | .vfrsqe d a m f => Sys2Proof.Machine.execVfrsqe d a m f s
  | .vfrcpe d a m f => Sys2Proof.Machine.execVfrcpe d a m f s
  | .mand d a b => Sys2Proof.Machine.execMand d a b s
  | .mor d a b => Sys2Proof.Machine.execMor d a b s
  | .mxor d a b => Sys2Proof.Machine.execMxor d a b s
  | .mnot d a => Sys2Proof.Machine.execMnot d a s
  | .mpop d a => Sys2Proof.Machine.execMpop d a s
  | .mfirst d a => Sys2Proof.Machine.execMfirst d a s
  | .qcnt d q => Sys2Proof.Machine.execQcnt d q s
  | .barq d a b c => Sys2Proof.Machine.execBarq d a b c s
  | .xlaunchRead => Sys2Proof.Machine.execXlaunchRead s
  | .tquotaWrite => Sys2Proof.Machine.execTquotaWrite s
  | .asidrWrite => Sys2Proof.Machine.execAsidrWrite s
  | .registerWrite => Sys2Proof.Machine.execRegisterWrite s
  | .issueCycle => Sys2Proof.Machine.execIssueCycle s
  | .bassoonIssue => Sys2Proof.Machine.execBassoonIssue s
  | .faultPath => Sys2Proof.Machine.execFaultPath s
  | .queueWatchdog => Sys2Proof.Machine.execQueueWatchdog s
  | .taskMessageArrival => Sys2Proof.Machine.execTaskMessageArrival s
  | .faultReportArrival => Sys2Proof.Machine.execFaultReportArrival s
  | .blockMessage => Sys2Proof.Machine.execBlockMessage s
  | .redelivery => Sys2Proof.Machine.execRedelivery s
  | .dispatch => Sys2Proof.Machine.execDispatch s
  | .agingRise => Sys2Proof.Machine.execAgingRise s
  | .acknowledgement => Sys2Proof.Machine.execAcknowledgement s
  | .preEmptMessage => Sys2Proof.Machine.execPreEmptMessage s
  | .safePointSave => Sys2Proof.Machine.execSafePointSave s
  | .resumeMessage => Sys2Proof.Machine.execResumeMessage s
  | .resumption => Sys2Proof.Machine.execResumption s
  | .remoteAtomicMessage => Sys2Proof.Machine.execRemoteAtomicMessage s
  | .remoteAtomicReply => Sys2Proof.Machine.execRemoteAtomicReply s
  | .atomicAtHome => Sys2Proof.Machine.execAtomicAtHome s
  | .shipPacketArrival => Sys2Proof.Machine.execShipPacketArrival s
  | .shipResend => Sys2Proof.Machine.execShipResend s
  | .guestEntryCompletion => Sys2Proof.Machine.execGuestEntryCompletion s
  | .shipReply => Sys2Proof.Machine.execShipReply s
  | .squashNotice => Sys2Proof.Machine.execSquashNotice s
  | .shipTimeout => Sys2Proof.Machine.execShipTimeout s
  | .engineCommandArrival => Sys2Proof.Machine.execEngineCommandArrival s
  | .commandAcceptanceReply => Sys2Proof.Machine.execCommandAcceptanceReply s
  | .resendAfterBackoff => Sys2Proof.Machine.execResendAfterBackoff s
  | .completionMessage => Sys2Proof.Machine.execCompletionMessage s
  | .engineFault => Sys2Proof.Machine.execEngineFault s
  | .mxactRestart => Sys2Proof.Machine.execMxactRestart s
  | .mxactAbandon => Sys2Proof.Machine.execMxactAbandon s
  | .nruUpdate => Sys2Proof.Machine.execNruUpdate s
  | .updateRefusal => Sys2Proof.Machine.execUpdateRefusal s
  | .accumulatorRead => Sys2Proof.Machine.execAccumulatorRead s
  | .accumulatorEviction => Sys2Proof.Machine.execAccumulatorEviction s
  | .claim => Sys2Proof.Machine.execClaim s
  | .recall => Sys2Proof.Machine.execRecall s
  | .recallAck => Sys2Proof.Machine.execRecallAck s
  | .llTlbEviction => Sys2Proof.Machine.execLlTlbEviction s
  | .pageWalk => Sys2Proof.Machine.execPageWalk s
  | .gets => Sys2Proof.Machine.execGets s
  | .getm => Sys2Proof.Machine.execGetm s
  | .puts => Sys2Proof.Machine.execPuts s
  | .pute => Sys2Proof.Machine.execPute s
  | .putm => Sys2Proof.Machine.execPutm s
  | .fwdGets => Sys2Proof.Machine.execFwdGets s
  | .fwdGetm => Sys2Proof.Machine.execFwdGetm s
  | .inv => Sys2Proof.Machine.execInv s
  | .data => Sys2Proof.Machine.execData s
  | .invAck => Sys2Proof.Machine.execInvAck s
  | .putAck => Sys2Proof.Machine.execPutAck s
  | .snpinv => Sys2Proof.Machine.execSnpinv s
  | .snpdata => Sys2Proof.Machine.execSnpdata s
  | .hostMemoryRequest => Sys2Proof.Machine.execHostMemoryRequest s
  | .hostRequestFailure => Sys2Proof.Machine.execHostRequestFailure s
  | .hostCompletionTimeout => Sys2Proof.Machine.execHostCompletionTimeout s
  | .hcoFallback => Sys2Proof.Machine.execHcoFallback s
  | .hostLinkDown => Sys2Proof.Machine.execHostLinkDown s
  | .workQueueRecordArrival => Sys2Proof.Machine.execWorkQueueRecordArrival s
  | .dispenserAssign => Sys2Proof.Machine.execDispenserAssign s
  | .rebalancerPass => Sys2Proof.Machine.execRebalancerPass s
  | .taskMove => Sys2Proof.Machine.execTaskMove s
  | .forwardingEntryExpiry => Sys2Proof.Machine.execForwardingEntryExpiry s
  | .lqbellWrite => Sys2Proof.Machine.execLqbellWrite s
  | .launchRecord => Sys2Proof.Machine.execLaunchRecord s
  | .launchRecordComplete => Sys2Proof.Machine.execLaunchRecordComplete s
  | .boostBoundary => Sys2Proof.Machine.execBoostBoundary s
  | .clockChangeComplete => Sys2Proof.Machine.execClockChangeComplete s
  | .currentWindowEnd => Sys2Proof.Machine.execCurrentWindowEnd s
  | .attreqGo => Sys2Proof.Machine.execAttreqGo s
  | .attestationReport => Sys2Proof.Machine.execAttestationReport s
  | .macReturn => Sys2Proof.Machine.execMacReturn s
  | .acceptHighWrite => Sys2Proof.Machine.execAcceptHighWrite s
  | .acceptCommit => Sys2Proof.Machine.execAcceptCommit s
  | .rcvreqGo => Sys2Proof.Machine.execRcvreqGo s
  | .startUp => Sys2Proof.Machine.execStartUp s
  | .pwrfail => Sys2Proof.Machine.execPwrfail s
  | .securityAlarm => Sys2Proof.Machine.execSecurityAlarm s
  | .housekeepingRangeViolation => Sys2Proof.Machine.execHousekeepingRangeViolation s
  | .flitCrcError => Sys2Proof.Machine.execFlitCrcError s
  | .boundaryRetrain => Sys2Proof.Machine.execBoundaryRetrain s
  | .fabricCrcError => Sys2Proof.Machine.execFabricCrcError s
  | .fabricPortDisable => Sys2Proof.Machine.execFabricPortDisable s
  | .patrolScrub => Sys2Proof.Machine.execPatrolScrub s
  | .directoryEntryError => Sys2Proof.Machine.execDirectoryEntryError s
  | .ownerFieldError => Sys2Proof.Machine.execOwnerFieldError s
  | .coreRegisterError => Sys2Proof.Machine.execCoreRegisterError s
  | .shootdownTimeout => Sys2Proof.Machine.execShootdownTimeout s
  | .wfmWake => Sys2Proof.Machine.execWfmWake s
  | .barrierEpisodeCompletion => Sys2Proof.Machine.execBarrierEpisodeCompletion s
  | .fenceTokenCompletion => Sys2Proof.Machine.execFenceTokenCompletion s
  | .vectorWordStart => Sys2Proof.Machine.execVectorWordStart s
  | .vectorWordCompletion => Sys2Proof.Machine.execVectorWordCompletion s
  | .taskControlRequest => Sys2Proof.Machine.execTaskControlRequest s
  | .fabricMemoryRequest => Sys2Proof.Machine.execFabricMemoryRequest s
  | .backInvalidationResponse => Sys2Proof.Machine.execBackInvalidationResponse s
  | .quinceMacVerification => Sys2Proof.Machine.execQuinceMacVerification s

end Sys2Proof.Machine
end

