-- ==== Sys2Proof/Machine/Next.lean ====
section
/-!
DEFINITION. What takes place next (log 6, 9): the passing of time, events that start from outside or in a unit, and how
a word is placed where the next step runs it.
-/
namespace Sys2Proof.Machine

/-! ## Time (R175, R207, R343, R347) -/

/-- What takes place at an instant: window ends, boundaries, and the ends of clock changes. -/
def ofMoment : Event → Bool
  | .boostBoundary .. | .currentWindowEnd .. | .clockChangeComplete .. => true
  | _ => false

/-- Such an event is the next: no time passes before it. -/
def State.momentary (s : State) : Bool := match s.agenda with | e :: _ => ofMoment e | [] => false

/-- The window ends and the boundaries that fall at a tick of `TIME`, on every die: windows begin at multiples of 1,000, boost
intervals at multiples of 8,000. -/
def State.moments (s : State) (t : Nat) : List Event :=
  (if t % 1000 = 0 then (List.range 24).map fun d => .currentWindowEnd d (Config.window s.freeCtr d) else []) ++
  (if t % 8000 = 0 then
    (List.range 24).map fun d => .boostBoundary d ((List.range 32).map fun q => Config.sensor s.freeCtr d q) else [])

/-- The instant at which time stops next: every half microsecond, by which clock changes end (R343). -/
def nextStop (i : Nat) : Nat := (i / 50000 + 1) * 50000

/-- `TIME` and the clocks go on by a span that no rule fixes (R175), to the next stop at most; `TIME` never decreases (R207).
At a stop the clock changes that were under way end, and what falls at that tick takes place on every die before all else. -/
def State.tick (s : State) : State :=
  if s.momentary then s
  else
    let i := s.instant
    let j := min (i + Config.ticks s.freeCtr) (min (nextStop i) (2 ^ 64 * 100 - 1))
    let s := { s with
      time := word (j / 100)
      fine := j % 100
      dies := s.dies.map fun (d : Nat × Die) =>
        (d.1, { d.2 with domains := d.2.domains.map fun (x : Nat × Domain) => (x.1, x.2.advance i j) }) }
    if j = nextStop i ∧ !s.package.halted then
      { s with agenda := s.agenda.filter ofMoment ++ s.moments (j / 100) ++ s.agenda.filter fun e => !ofMoment e }
    else s

/-- Whether an event is a start. -/
def isStart : Event → Bool
  | .startUp _ => true
  | _ => false

/-- A start is on its way, or comes from the board now. -/
def State.starts (s : State) : Bool :=
  (match s.agenda with | e :: _ => isStart e | [] => false) || isStart (Config.input s.freeCtr)

/-- The package has stopped, and no start is at hand (R472, R477, R484). -/
def State.stopped (s : State) : Bool := s.package.halted && !s.starts

/-- Events that the outside or a unit starts of itself; every other event answers one that took place before. A request
for a line is of itself where it leaves its cache, and a message where it comes from another package. -/
def spontaneous : Event → Bool
  | .registerWrite who .. => match who with | .slot .. => false | _ => true
  | .gets _ _ sent | .getm _ _ sent | .puts _ _ sent | .pute _ _ sent | .putm _ _ sent => !sent
  | .taskMessageArrival _ _ _ creator | .blockMessage _ _ _ _ creator => creator == .none
  | .preEmptMessage .. | .resumeMessage .. | .asidrWrite .. | .tquotaWrite .. | .issueCycle .. | .bassoonIssue .. | .queueWatchdog .. | .redelivery .. | .dispatch ..
  | .agingRise .. | .resendAfterBackoff .. | .shipResend .. | .shipTimeout .. | .accumulatorRead .. | .accumulatorEviction ..
  | .llTlbEviction .. | .pageWalk .. | .snpinv .. | .snpdata .. | .hostMemoryRequest .. | .fabricMemoryRequest ..
  | .hostRequestFailure .. | .hostCompletionTimeout .. | .hcoFallback .. | .hostLinkDown .. | .dispenserAssign ..
  | .rebalancerPass .. | .forwardingEntryExpiry .. | .lqbellWrite .. | .launchRecord
  | .attreqGo .. | .acceptHighWrite .. | .acceptCommit .. | .rcvreqGo .. | .startUp .. | .pwrfail | .securityAlarm ..
  | .housekeepingRangeViolation .. | .flitCrcError .. | .boundaryRetrain .. | .fabricCrcError .. | .fabricPortDisable ..
  | .patrolScrub .. | .directoryEntryError .. | .ownerFieldError .. | .coreRegisterError .. | .shootdownTimeout ..
  | .wfmWake _ none | .acknowledgement _ _ true | .barrierEpisodeCompletion .. | .vectorWordStart .. | .faultPath .. | .safePointSave .. | .resumption .. => true
  | _ => false

/-- What a unit or the outside does next; a choice that no unit can make is a cycle of the executing slot's core. -/
def State.chosen (s : State) : Event :=
  let e := Config.input s.freeCtr
  if spontaneous e then e
  else if isBassoonCore s.core then .bassoonIssue s.core else .issueCycle s.core

/-- Cores of the package, and what each of them does of itself in turn. -/
def coreCount : Nat := 24 * 132
def dutyCount : Nat := 16

/-- A turn of the units that act of themselves: each core issues, refills, dispatches, ages and resumes; its V words start; its
slots in `WFM` wake (R210); interfaces send again; dispensers and the launch agent go on. Every unit has its turn again and again (R62). -/
def State.dutyEvent (s : State) : Event :=
  let n := s.duty / 2
  let i := n / dutyCount % coreCount
  let core := coreKey (i / 132) (i % 132)
  match n % dutyCount with
  | 0 => if isBassoonCore core then .bassoonIssue core else .issueCycle core
  | 1 => .redelivery core
  | 2 => .dispatch core
  | 3 => .agingRise core (n / (dutyCount * coreCount) % 64)
  | 4 => .resumption core
  | 5 => .dispenserAssign (i / 132)
  | 6 => .launchRecord
  | 7 => match s.backoff[n / dutyCount % max 1 s.backoff.length]? with | some x => .resendAfterBackoff x | none => .dispatch core
  | 8 | 9 | 10 | 11 => .vectorWordStart (slotKey core (n % dutyCount % 4))
  | k => .wfmWake (slotKey core (k % 4)) none

/-! ## Arrivals of one mesh cycle (R45, R153, R300, R493) -/

/-- A unit at which arrivals of one mesh cycle go in an order, and the place of an event in it: at a core and at an engine that of
the input port by which it comes, and at the die that holds an owner field that of the claimant's die and agent (R153). A
dispensed task comes from the dispenser's stop to the core that takes it. -/
def State.arrivalAt (s : State) (e : Event) : Option ((Nat ⊕ Nat) × Nat) :=
  let atCore := fun (core src : Nat) => some (Sum.inl core, (inputPort src (coreStop (pcoreOf core))).rank)
  match e with
  | .taskMessageArrival core src _ _ | .faultReportArrival core src _ => atCore core src
  | .blockMessage die side core m _ => atCore (s.blockDest die side core m).1 (edgeQuad side)
  | .engineCommandArrival die engine src c =>
    let e := (s.getDie die).engineFor engine c
    some (.inr (die * 16 + e), (inputPort src (engineStop e)).rank)
  | .dispenserAssign die =>
    (s.pickRecord die (s.getDie die).work).bind fun r => (s.assignment die r).bind fun x => atCore x.2 dispenserStop
  | .claim e agent _ => some (.inr (512 + homeDie e.pte), agent)
  | _ => none

/-- The arrivals at a list's head that come to one unit, at most `n + 1` of them: those of one mesh cycle. -/
def State.sameCycle (s : State) (n : Nat) (l : List Event) : List Event :=
  match l with
  | [] => []
  | e :: _ => (l.take (n + 1)).takeWhile fun x =>
    (s.arrivalAt e).isSome && (s.arrivalAt x).map (·.1) == (s.arrivalAt e).map (·.1)

/-- The place among them of the arrival that goes first, the first where there are several. -/
def State.leastPort (s : State) (l : List Event) : Nat :=
  let rank := fun (i : Nat) => (((l[i]?).bind s.arrivalAt).map (·.2)).getD (2 ^ 16)
  (List.range l.length).foldl (fun b i => if rank i < rank b then i else b) 0

/-- The agenda with the arrivals of one mesh cycle at its head in their order: the first of them leads. -/
def State.meshOrder (s : State) (n : Nat) (l : List Event) : List Event :=
  let i := s.leastPort (s.sameCycle n l)
  match l[i]? with
  | some e => e :: l.eraseIdx i
  | none => l

/-- The next event stands at the head of the agenda. In a stopped package it is a start. A free choice comes at most every
second time; of the others every second is a turn of `dutyEvent`, and the rest are the oldest on their way, those that reach
one unit in one mesh cycle in the order of its ports (R45, R62, R300). -/
def State.nextEvent (s : State) : State :=
  let ctr := s.freeCtr + 1
  if s.package.halted then
    match s.agenda with
    | e :: _ => if isStart e then { s with freeCtr := ctr } else { s with agenda := s.chosen :: s.agenda, freeCtr := ctr }
    | [] => { s with agenda := [s.chosen], freeCtr := ctr }
  else if s.momentary then { s with freeCtr := ctr }
  else if !s.spun && Config.interleave s.freeCtr then { s with agenda := s.chosen :: s.agenda, freeCtr := ctr, spun := true }
  else
    let t := { s with freeCtr := ctr, spun := false, duty := s.duty + 1 }
    if s.agenda.isEmpty || s.duty % 2 == 1 then { t with agenda := s.dutyEvent :: s.agenda }
    else { t with agenda := s.meshOrder (Config.sameCycle s.freeCtr) s.agenda }

/-! ## Placing a word -/

/-- The address at which a placed word stands: the bundle at `pc`, or a fixed one where `pc` is no plain low address. -/
def State.placeAt (s : State) : Nat := let a := s.hot.pc.toNat / 8 * 8; if a < 2 ^ 47 then a else 0x10000

/-- The page that holds it, mapped to its own physical address in near DRAM. -/
def placedPage (asid a : Nat) : TlbEntry :=
  ⟨asid, true, a / 4096 * 4096, 12, a / 4096 * 4096 % 2 ^ 33, true, true, true, true, true, 0, none, []⟩

/-- The executing slot runs an activation of its context whose next bundle holds the word: a first word of a pair with
`ADD g0, g0, g0` after it, a second word of a pair reached alone (R167), or a lone word. -/
def State.loadWord (s : State) (nbits w : Nat) : State :=
  if nbits ≠ 32 then s
  else
    let a := s.placeAt
    let second := w / 2 ^ 30 % 4 = 2
    let va := if second then a + 4 else a
    let c := s.getCtx s.hot.ctx
    let s := s.setCtx s.hot.ctx { c with
      live := true
      everLive := true
      cbase := word a
      clim := word (a + 8)
      asidr := (c.asidr &&& 0x0FFFFFFFFFFFFFFF) ||| 0xA000000000000000 }
    let core := s.getCore s.core
    let s := s.setCore s.core { core with
      tlb := placedPage ((s.getCtx s.hot.ctx).asidr.bits 44 16) a :: core.tlb
      icache := []
      icachep := []
      isolated := false }
    let pa := a / 4096 * 4096 % 2 ^ 33 + a % 4096
    let s := if second then s.writeMem (pa + 4) 4 w else (s.writeMem pa 4 w).writeMem (pa + 4) 4 0x80000000
    let page := placedPage ((s.getCtx s.hot.ctx).asidr.bits 44 16) a
    let s := { s with
      pages := tabSet s.pages 0 ⟨.shared, page, false, false, []⟩
      poison := s.poison.filter (· ≠ pa / 8)
      mctbase := s.mctbase &&& ~~~(1#64)
      agenda := []
      issuing := true
      scan := 0
      second := false
      first := none
      package := { s.package with halted := false } }
    { s with hot := { s.hot with
      active := true
      phase := .running
      heldTrap := none
      wait := none
      refusal := none
      pc := word va
      aOnly := decide second } }

end Sys2Proof.Machine
end

