-- ==== Sys2Proof/Machine/Step.lean ====
section
/-!
DEFINITION. One step of the package: a try of the slot that holds an issue position, or the next event; and the state
in which the next step runs a given word.
-/
namespace Sys2Proof.Machine

/-- The event that takes place now: the oldest on its way, or one that the outside or a unit starts (Machine/Next.lean). -/
def eventStep (s : State) : Out :=
  match (s.tick.nextEvent).agenda with
  | e :: _ => exec e.row s.tick.nextEvent
  | [] => .next s.tick.nextEvent

/-- One step. A stopped package does nothing until a start (R472, R477). -/
def step (s : State) : Host.Outcome State Fault Refusal :=
  if s.stopped then .fault .packageStopped
  else if s.issuing then s.issueStep exec
  else eventStep s

/-- `s` with the bits `w` of an instruction of `nbits` bits where the next step fetches, and that step an issue of it:
the executing slot runs an activation whose code lies there. -/
def State.withFetchWord (s : State) (nbits w : Nat) : State := s.loadWord nbits w

end Sys2Proof.Machine
end

