-- ==== Sys2Proof/Safety.lean ====
section
/-!
DEFINITION. What a safe run is, and the frames of words, in the terms statements use: what a word writes, and that
everything else stays as it was.
-/
namespace Sys2Proof.Machine

/-- The canonical form of physical memory: it lists strictly rising addresses and no zero byte. -/
def State.memOk (s : State) : Prop := memWf s.mem = true

/-- A step neither faults nor is refused. -/
def State.goes (s : State) : Prop := ∃ t, step s = .next t

/-- `n` steps in a row answer a next state. -/
def State.goesFor (s : State) : Nat → Prop
  | 0 => True
  | n + 1 => ∃ t, step s = .next t ∧ t.goesFor n

/-! ## Frames -/

/-- Every byte of physical memory reads as before. -/
def State.sameMemory (s t : State) : Prop := ∀ a, memGet t.mem a = memGet s.mem a

/-- Everything but the executing slot is as before: memory, the other slots, cores with their TLBs, dies with their
engines, contexts with their CSRs, what is on its way, time. -/
def State.sameOutside (s t : State) : Prop := { t with hot := s.hot } = s

/-- Every byte of physical memory outside the `n` bytes at `lo` reads as before. -/
def State.sameMemoryOutside (s t : State) (lo n : Nat) : Prop :=
  ∀ a, ¬(lo ≤ a ∧ a < lo + n) → memGet t.mem a = memGet s.mem a

/-- How a word ends that completes: it is counted in `RETIRED` and control is at `pc` when the bundle ends. -/
def Slot.completes (x y : Slot) (pc : Word) : Prop := y.pc = pc ∧ y.retired = x.retired + 1 ∧ y.did = .done

/-- Of a slot, everything is as before but its `g` registers, `pc`, `RETIRED`, the outcome of the word and the log of
overwritten values (R235): every other register and flag, CSR, queue, token, shipped word, accumulator update. -/
def Slot.sameButG (x y : Slot) : Prop :=
  y = { x with g := y.g, pc := y.pc, retired := y.retired, did := y.did, history := y.history }

/-- Every `g` register but `d` reads as before. -/
def State.sameOtherG (s t : State) (d : GReg) : Prop := ∀ r, r ≠ d → t.g r = s.g r

/-- The log gains the old value of `d` while an older shipped word is outstanding; `g0` is never logged (R235). -/
def State.logsG (s t : State) (d : GReg) : Prop :=
  t.hot.history = if s.hot.beforeShips s.hot.order ∨ d = 0 then s.hot.history else s.hot.logged (.g d (s.g d))

/-- A word answers a next state in which `g[d]` holds `x` (`g0` discards it), control is at `pc`, and nothing else has
changed: no other register, no flag or CSR, no byte of memory, no other part of the package. -/
def writesG (s : State) (o : Out) (d : GReg) (x pc : Word) : Prop :=
  ∃ t, o = .next t ∧ t.g d = (if d = 0 then 0 else x) ∧ s.sameOtherG t d ∧ s.hot.completes t.hot pc ∧
    s.logsG t d ∧ s.hot.sameButG t.hot ∧ s.sameOutside t ∧ s.sameMemory t

/-- A word answers a next state in which control is at `pc` and nothing else has changed. -/
def onlyMoves (s : State) (o : Out) (pc : Word) : Prop :=
  ∃ t, o = .next t ∧ s.hot.completes t.hot pc ∧
    t.hot = { s.hot with pc := t.hot.pc, retired := t.hot.retired, did := t.hot.did } ∧ s.sameOutside t ∧ s.sameMemory t

/-- Of a slot, everything is as before but its `v` registers, `pc`, `RETIRED`, the outcome of the word and the log. -/
def Slot.sameButV (x y : Slot) : Prop :=
  y = { x with v := y.v, pc := y.pc, retired := y.retired, did := y.did, history := y.history }

/-- A word answers a next state in which `v[d]` holds `x`, control is at `pc`, and nothing else has changed. -/
def writesV (s : State) (o : Out) (d : VReg) (x : VWord) (pc : Word) : Prop :=
  ∃ t, o = .next t ∧ t.v d = x ∧ (∀ r, r ≠ d → t.v r = s.v r) ∧ s.hot.completes t.hot pc ∧
    t.hot.history = (if s.hot.beforeShips s.hot.order then s.hot.history else s.hot.logged (.v d (s.v d))) ∧
    s.hot.sameButV t.hot ∧ s.sameOutside t ∧ s.sameMemory t

end Sys2Proof.Machine
end

