-- ==== Sys2Proof/WellFormed.lean ====
section
/-!
DEFINITION. Well-formed instructions: those that have an encoding and whose field combination R424 does not make
ILLEGAL, whatever the slot holds.
-/
namespace Sys2Proof

/-- The instruction is a DZ word: a row of the table with an encoding (R187, R188). -/
def Instr.hasWord (i : Instr) : Bool := (encode i).isSome

/-- The payload registers of a message word: `pb + PLEN ≤ 32`, and `pb` is zero when there is no payload (R288). -/
def payloadOk (p : Fin 32) (n : Plen) : Bool := decide (p.val + n.val ≤ 32) && (n.val != 0 || p.val == 0)

/-- The field combinations of R424: barrier scopes (detail 5), and detail 7. -/
def Instr.fieldsOk : Instr → Bool
  | .send _ _ p n | .spawn _ _ _ p n | .launch _ _ _ p n => payloadOk p n
  | .bara _ _ sc => sc != .core && sc != .sys
  | .barw d _ g sc => sc != .core && sc != .sys && (d != g || d == 0)
  | .sel d _ _ => match d with | .g _ => true | .q _ => false
  | .exts _ _ p l | .extz _ _ p l | .ins _ _ p l => decide (p.toNat + l.toNat + 1 ≤ 64)
  | _ => true

/-- A well-formed instruction. -/
def Instr.wf (i : Instr) : Bool := i.hasWord && i.fieldsOk

end Sys2Proof
end

