-- ==== Sys2Proof/Certificates/Slice0/Obligations.lean ====
section
/-!
DEFINITION. The statements about the model, family by family, from the numbered rules of spec/. Values are said in the
arithmetic of the rule, not by the operations the meanings call; the frames are those of Safety.lean.
-/
namespace Sys2Proof.Machine

/-! ## The rules' arithmetic -/

/-- The number whose bits are given, bit 0 first. -/
def ofBits : List Bool → Nat
  | [] => 0
  | b :: t => b.toNat + 2 * ofBits t

/-- The 64-bit value whose bit `i` is `f i`. -/
def wordOf (f : Nat → Bool) : Word := BitVec.ofNat 64 (ofBits ((List.range 64).map f))

/-- The number of zero bits of `x` above its highest one bit. -/
def leadingZeros (x : Word) : Nat := (((List.range 64).map fun i => x.getLsbD (63 - i)).takeWhile (! ·)).length

/-- The number of zero bits of `x` below its lowest one bit. -/
def trailingZeros (x : Word) : Nat := (((List.range 64).map fun i => x.getLsbD i).takeWhile (! ·)).length

/-- The number of one bits of `x`. -/
def oneBits (x : Word) : Nat := ((List.range 64).filter fun i => x.getLsbD i).length

/-- The 64-bit two's-complement value of an integer. -/
def wordOfInt (x : Int) : Word := BitVec.ofInt 64 x

/-- A word of class A with the given fields (R163, R164): major, rd, rs1 and the 14 bits below; bit 30 zero. -/
def aWord (major d a low : Nat) : Nat := 2 ^ 31 + major * 2 ^ 24 + d * 2 ^ 19 + a * 2 ^ 14 + low

/-- The word reads as the instruction, in a pair and alone (R163: bit 30 is no part of it). -/
def readsAs (w : Nat) (i : Instr) : Prop := ∀ lone : Bool, decodeWord (w + lone.toNat * 2 ^ 30) = .ok i

/-- The word names no instruction, in a pair and alone. -/
def readsAsNone (w : Nat) : Prop := ∀ lone : Bool, ∃ e, decodeWord (w + lone.toNat * 2 ^ 30) = .error e

end Sys2Proof.Machine

open Sys2Proof Sys2Proof.Machine

/-! ## Integer words (R191 to R200, R205) -/

/-- INT words with the function each has of its operands a and b (R191, R193); `SEL`, which reads rd, stands apart. -/
def intFunctions : List ((SDst → SSrc → GReg → Instr) × (Word → Word → Word)) :=
  [(.add, fun x y => wordOfInt (x.toInt + y.toInt)),
   (.sub, fun x y => wordOfInt (x.toInt - y.toInt)),
   (.and, fun x y => wordOf fun i => x.getLsbD i && y.getLsbD i),
   (.or, fun x y => wordOf fun i => x.getLsbD i || y.getLsbD i),
   (.xor, fun x y => wordOf fun i => x.getLsbD i != y.getLsbD i),
   (.andn, fun x y => wordOf fun i => x.getLsbD i && !y.getLsbD i),
   (.orn, fun x y => wordOf fun i => x.getLsbD i || !y.getLsbD i),
   (.xnor, fun x y => wordOf fun i => x.getLsbD i == y.getLsbD i),
   (.sll, fun x y => word (x.toNat * 2 ^ (y.toNat % 64))),
   (.srl, fun x y => word (x.toNat / 2 ^ (y.toNat % 64))),
   (.sra, fun x y => wordOfInt (x.toInt / 2 ^ (y.toNat % 64))),
   (.rol, fun x y => wordOf fun i => x.getLsbD ((i + 64 - (y.toNat % 64)) % 64)),
   (.ror, fun x y => wordOf fun i => x.getLsbD ((i + (y.toNat % 64)) % 64)),
   (.min, fun x y => wordOfInt (min x.toInt y.toInt)),
   (.max, fun x y => wordOfInt (max x.toInt y.toInt)),
   (.minn, fun x y => word (min x.toNat y.toNat)),
   (.maxn, fun x y => word (max x.toNat y.toNat)),
   (.slt, fun x y => if x.toInt < y.toInt then 1 else 0),
   (.sltn, fun x y => if x.toNat < y.toNat then 1 else 0)]

/-- INT words on registers (R191, R193): each writes rd with the rule's function of g[rs1] and g[rs2], and nothing else. -/
def intWordsWriteTheirFunction : Prop :=
  ∀ (s : State) (d a b : GReg),
    (∀ w ∈ intFunctions, writesG s (exec (w.1 (.g d) (.g a) b) s) d (w.2 (s.g a) (s.g b)) s.hot.nxt) ∧
    writesG s (exec (.sel (.g d) (.g a) b) s) d (if s.g d ≠ 0 then s.g a else s.g b) s.hot.nxt

/-- MULDIV words (R194): A major 0x01 with the sub-operation in fn9[2:0], all eight assigned; the exact products and quotients,
with the rule's edges; no operand raises an exception. -/
def Obligations.MulDivWordsWriteTheirFunction : Prop :=
  ∀ (s : State) (d a b : GReg),
    let x := s.g a
    let y := s.g b
    let w := fun (i : Instr) (v : Word) => writesG s (exec i s) d v s.hot.nxt
    w (.mul d a b) (word (x.toNat * y.toNat)) ∧
    w (.mulh d a b) (wordOfInt (x.toInt * y.toInt / 2 ^ 64)) ∧
    w (.mulhn d a b) (word (x.toNat * y.toNat / 2 ^ 64)) ∧
    w (.mulhsn d a b) (wordOfInt (x.toInt * y.toNat / 2 ^ 64)) ∧
    w (.div d a b) (if y = 0 then -1 else wordOfInt (x.toInt.tdiv y.toInt)) ∧
    w (.divn d a b) (if y = 0 then word (2 ^ 64 - 1) else word (x.toNat / y.toNat)) ∧
    w (.rem d a b) (if y = 0 then x else wordOfInt (x.toInt - y.toInt * x.toInt.tdiv y.toInt)) ∧
    w (.remn d a b) (if y = 0 then x else word (x.toNat - y.toNat * (x.toNat / y.toNat))) ∧
    (let at_ := fun (k : Nat) (i : Instr) => readsAs (aWord 0x01 d.val a.val (b.val * 2 ^ 9 + k)) i
     at_ 0 (.mul d a b) ∧ at_ 1 (.mulh d a b) ∧ at_ 2 (.mulhn d a b) ∧ at_ 3 (.mulhsn d a b) ∧ at_ 4 (.div d a b) ∧
     at_ 5 (.divn d a b) ∧ at_ 6 (.rem d a b) ∧ at_ 7 (.remn d a b))

/-- BIT, BFLD and ADDSH words (R195 to R197) with their encodings, the fields at every place R424 allows; a BFLD word whose
field runs past bit 63 raises ILLEGAL detail 7 with the word (R192, R424). -/
def Obligations.BitWordsWriteTheirFunction : Prop :=
  ∀ (s : State) (d a b : GReg) (p l : BitVec 6) (k : BitVec 3),
    let x := s.g a
    let n := l.toNat + 1
    let w := fun (i : Instr) (v : Word) => writesG s (exec i s) d v s.hot.nxt
    w (.clz d a) (word (leadingZeros x)) ∧
    w (.ctz d a) (word (trailingZeros x)) ∧
    w (.popc d a) (word (oneBits x)) ∧
    w (.brev d a) (wordOf fun i => x.getLsbD (63 - i)) ∧
    w (.bswap d a) (wordOf fun i => x.getLsbD (8 * (7 - i / 8) + i % 8)) ∧
    w (.addsh d a b k) (wordOfInt (x.toInt + (s.g b).toInt * 2 ^ k.toNat)) ∧
    (p.toNat + n ≤ 64 →
      w (.exts d a p l) (wordOf fun i => x.getLsbD (p.toNat + min i (n - 1))) ∧
      w (.extz d a p l) (wordOf fun i => decide (i < n) && x.getLsbD (p.toNat + i)) ∧
      w (.ins d a p l) (wordOf fun i =>
        if p.toNat ≤ i ∧ i < p.toNat + n then x.getLsbD (i - p.toNat) else (s.g d).getLsbD i)) ∧
    (64 < p.toNat + n → ∀ i ∈ [Instr.exts d a p l, .extz d a p l, .ins d a p l],
      exec i s = .next (s.raise .illegal 7 (s.wordVal i))) ∧
    (let bit := aWord 0x02 d.val a.val
     readsAs (bit 0) (.clz d a) ∧ readsAs (bit 1) (.ctz d a) ∧ readsAs (bit 2) (.popc d a) ∧ readsAs (bit 3) (.brev d a) ∧
     readsAs (bit 4) (.bswap d a) ∧ (∀ j, 5 ≤ j → j < 8 → readsAsNone (bit j)) ∧
     readsAs (aWord 0x04 d.val a.val (b.val * 2 ^ 9 + k.toNat)) (.addsh d a b k)) ∧
    (let field := fun (j : Nat) => aWord 0x03 d.val a.val (p.toNat * 2 ^ 8 + l.toNat * 2 ^ 2 + j)
     readsAs (field 0) (.exts d a p l) ∧ readsAs (field 1) (.extz d a p l) ∧ readsAs (field 2) (.ins d a p l))

/-- Immediate forms, SHI, `LUI` and `ADDPC` (R198, R199, R205), with the immediates of R168 and the encodings of the first
two. -/
def Obligations.ImmediateWordsWriteTheirFunction : Prop :=
  ∀ (s : State) (d a : GReg) (i : BitVec 14) (k : BitVec 6) (u : BitVec 19),
    let x := s.g a
    let c := wordOfInt i.toInt
    let w := fun (j : Instr) (v : Word) => writesG s (exec j s) d v s.hot.nxt
    w (.addi d a i) (wordOfInt (x.toInt + i.toInt)) ∧
    w (.andi d a i) (wordOf fun j => x.getLsbD j && c.getLsbD j) ∧
    w (.ori d a i) (wordOf fun j => x.getLsbD j || c.getLsbD j) ∧
    w (.xori d a i) (wordOf fun j => x.getLsbD j != c.getLsbD j) ∧
    w (.slti d a i) (if x.toInt < i.toInt then 1 else 0) ∧
    w (.sltni d a i) (if x.toNat < c.toNat then 1 else 0) ∧
    w (.slli d a k) (word (x.toNat * 2 ^ k.toNat)) ∧
    w (.srli d a k) (word (x.toNat / 2 ^ k.toNat)) ∧
    w (.srai d a k) (wordOfInt (x.toInt / 2 ^ k.toNat)) ∧
    w (.rori d a k) (wordOf fun j => x.getLsbD ((j + k.toNat) % 64)) ∧
    w (.lui d u) (wordOfInt (u.toInt * 2 ^ 13)) ∧
    w (.addpc d u) (wordOfInt (s.hot.wa.toInt + u.toInt * 2 ^ 13)) ∧
    (let at_ := fun (major : Nat) (j : Instr) => readsAs (aWord major d.val a.val i.toNat) j
     at_ 0x05 (.addi d a i) ∧ at_ 0x06 (.andi d a i) ∧ at_ 0x07 (.ori d a i) ∧ at_ 0x08 (.xori d a i) ∧
     at_ 0x0A (.slti d a i) ∧ at_ 0x0B (.sltni d a i)) ∧
    (let at_ := fun (op : Nat) (j : Instr) => readsAs (aWord 0x09 d.val a.val (op * 2 ^ 6 + k.toNat)) j
     at_ 0 (.slli d a k) ∧ at_ 1 (.srli d a k) ∧ at_ 2 (.srai d a k) ∧ at_ 3 (.rori d a k))

/-- W32 words (R200): bits [31:0] of the operands; the 32-bit result is sign-extended. -/
def word32WordsWriteTheirFunction : Prop :=
  ∀ (s : State) (d a b : GReg),
    let x := (s.g a).toNat % 2 ^ 32
    let y := (s.g b).toNat % 2 ^ 32
    let k := (s.g b).toNat % 32
    let ext := fun (n : Nat) => wordOfInt (if n % 2 ^ 32 < 2 ^ 31 then (n % 2 ^ 32 : Int) else (n % 2 ^ 32 : Int) - 2 ^ 32)
    let w := fun (i : Instr) (v : Word) => writesG s (exec i s) d v s.hot.nxt
    w (.addw d a b) (ext (x + y)) ∧
    w (.subw d a b) (ext (x + 2 ^ 32 - y)) ∧
    w (.mulw d a b) (ext (x * y)) ∧
    w (.sllw d a b) (ext (x * 2 ^ k)) ∧
    w (.srlw d a b) (ext (x / 2 ^ k)) ∧
    w (.sraw d a b) (wordOfInt ((if x < 2 ^ 31 then (x : Int) else (x : Int) - 2 ^ 32) / 2 ^ k))

/-- INT words (R191, R193) and W32 words (R200), whole: as the two parts above say. -/
def Obligations.IntWordsWriteTheirFunction : Prop := intWordsWriteTheirFunction ∧ word32WordsWriteTheirFunction

/-! ## Branches and jumps (R201 to R204) -/

/-- Branches (R201, R202): control goes to wa + sext(off14, 14) × 4 if the condition holds and to the following bundle if
it does not; nothing else changes. -/
def branchesMoveControlOnly : Prop :=
  ∀ (s : State) (a b : GReg) (m : MReg) (o : BitVec 14),
    let x := s.g a
    let y := s.g b
    let there := s.hot.wa + wordOfInt (o.toInt * 4)
    let w := fun (i : Instr) (taken : Bool) => onlyMoves s (exec i s) (if taken then there else s.hot.nxt)
    w (.beq a b o) (x = y) ∧
    w (.bne a b o) (x ≠ y) ∧
    w (.blt a b o) (x.toInt < y.toInt) ∧
    w (.bge a b o) (y.toInt ≤ x.toInt) ∧
    w (.bltn a b o) (x.toNat < y.toNat) ∧
    w (.bgen a b o) (y.toNat ≤ x.toNat) ∧
    w (.bmany m o) ((List.range 64).any fun i => (s.m m).getLsbD i) ∧
    w (.bmall m o) ((List.range 64).all fun i => (s.m m).getLsbD i)

/-- `JAL` and `JALR` (R203, R204): the link is the address of the following bundle; `JALR` reads its target before it
writes rd, and raises MISALIGNED with the target where that is not a multiple of 4, writing nothing. -/
def jumpsLinkAndMove : Prop :=
  ∀ (s : State) (d a : GReg) (o : BitVec 19) (i : BitVec 14),
    let t := s.g a + wordOfInt i.toInt
    writesG s (exec (.jal d o) s) d s.hot.nxt (s.hot.wa + wordOfInt (o.toInt * 4)) ∧
    (t.toNat % 4 = 0 → writesG s (exec (.jalr d a i) s) d s.hot.nxt t) ∧
    (t.toNat % 4 ≠ 0 → exec (.jalr d a i) s = .next (s.raise .misaligned 0 t))

/-! ## Exceptions (R408, R409, R208, R209) -/

/-- What delivery leaves alone at the slot: all but the trap CSRs, `pc`, and what the model keeps of the word itself;
an incomplete capture ends (R270), and an operand that a waiting word took goes back to its queue (R422), where that has fewer
than 8 entries; where it has filled since, it stays the next of that queue: the model's choice (DESIGN CHOICE, log 63). -/
def trapFrame (x y : Slot) : Prop :=
  (∀ r, y.getQ r = ((x.taken.filter fun t => t.1 == r && decide ((x.getQ r).length < 8)).map fun t => t.2) ++ x.getQ r) ∧
  y = { x.endCapture with
    trappc := y.trappc, trapval := y.trapval, trapcause := y.trapcause, pc := y.pc, aOnly := y.aOnly, did := .trapped,
    taken := x.taken.filter fun t => decide (8 ≤ (x.getQ t.1).length), q := y.q, phase := y.phase }

/-- A fault of the word being executed. While no shipped word of the slot is outstanding (R408): with a handler, HND
clear and cause FP, QUEUE_STALL, CAPABILITY, BREAK or ECALL, the slot enters at `TRAPVEC`: `TRAPPC` holds the address
to report, `TRAPVAL` the value, `TRAPCAUSE` the detail, HND, REM clear and the cause, and no other register changes.
Else the slot takes the fault path with that cause, detail, value and address, and no register changes at all. While a shipped
word is outstanding the exception is held, with its cause, detail, value and address, and nothing else changes (R234). What
becomes of an operand whose queue has filled since is the model's choice (DESIGN CHOICE, log 63). -/
def Obligations.FaultDeliveryFollowsTheRule : Prop :=
  ∀ (s : State) (c : Cause) (detail : Nat) (value : Word),
    let t := s.raise c detail value
    (s.hot.shipping = true →
      t.hot = { s.hot with heldTrap := some ⟨c.code, detail, false, value, s.hot.tpc, 0⟩, did := .trapped } ∧
      s.sameOutside t ∧ s.sameMemory t) ∧
    (s.hot.shipping = false →
    let user := s.hot.trapvec ≠ 0 ∧ s.hot.trapcause.getLsbD 9 = false ∧
      (c = .fp ∨ c = .queueStall ∨ c = .capability ∨ c = .break ∨ c = .ecall)
    trapFrame s.hot t.hot ∧ s.sameMemory t ∧
    (user →
      t.hot.pc = s.hot.trapvec ∧ t.hot.trappc = s.hot.tpc ∧ t.hot.trapval = value ∧
      t.hot.trapcause = word (detail * 65536 + 512 + c.code) ∧ t.hot.phase = s.hot.phase ∧ s.sameOutside t) ∧
    (¬user →
      t.hot.phase = .faulting ⟨c.code, detail, false, value, s.hot.tpc, 0⟩ ∧ t.hot.pc = s.hot.pc ∧
      t.hot.trappc = s.hot.trappc ∧ t.hot.trapval = s.hot.trapval ∧ t.hot.trapcause = s.hot.trapcause ∧
      t.agenda = s.agenda ++ [Event.faultPath s.hotId] ∧ s.sameOutside { t with agenda := s.agenda }))

/-- `ECALL` and `EBREAK` (R208) take their exceptions; `TRET` (R209, R409), inside a handler, clears HND and continues
at `TRAPPC` with bits [1:0] taken as zero, restoring nothing else; anywhere else it raises ILLEGAL detail 10. -/
def Obligations.TrapWordsTakeAndReturn : Prop :=
  ∀ (s : State) (a : GReg) (c : BitVec 10),
    exec (.ecall a) s = .next (s.raise .ecall 0 (s.g a)) ∧
    exec (.ebreak c) s = .next (s.raise .break 0 (word c.toNat)) ∧
    (s.hot.trapcause.getLsbD 9 = true →
      ∃ t, exec .tret s = .next t ∧
        t.hot.pc = word (s.hot.trappc.toNat / 4 * 4) ∧
        (∀ i, t.hot.trapcause.getLsbD i = (s.hot.trapcause.getLsbD i && i != 9)) ∧
        t.hot = { s.hot with
          pc := t.hot.pc, trapcause := t.hot.trapcause, aOnly := true, retired := s.hot.retired + 1, did := .done } ∧
        s.sameOutside t ∧ s.sameMemory t) ∧
    (s.hot.trapcause.getLsbD 9 = false → exec .tret s = .next (s.raise .illegal 10 (s.wordVal .tret)))

/-- `TLBINV`, `HALT` and `CAPMINT` in a user activation raise PRIVILEGE with the word in `TRAPVAL` and DETAIL 0, ranked
before their operand checks; so does a CSR word that names a supervisor CSR, with the CSR's number in DETAIL (R211,
R213, R214, R427). -/
def supervisorWordsTrapInUserMode : Prop :=
  ∀ (s : State) (d a b : GReg) (c : BitVec 11), s.hot.supervisor = false →
    let traps := fun (i : Instr) (detail : Nat) => exec i s = .next (s.raise .privilege detail (s.wordVal i))
    traps (.tlbinv d a b) 0 ∧ traps (.halt d) 0 ∧ traps (.capmint d a b) 0 ∧
    (csrExists c.toNat = true → 0x100 ≤ c.toNat →
      traps (.csrr d c) c.toNat ∧ traps (.csrw a c) c.toNat ∧ traps (.csrrw d a c) c.toNat ∧
      traps (.csrs a c) c.toNat ∧ traps (.csrc a c) c.toNat)

/-- A reserved CSR number, a write of a CSR that is RO to the activation, and any CSR word but `CSRR` that names
`XLAUNCH`, raise ILLEGAL detail 9 (R179, R206, R427). That `CSRS` and `CSRC` of `XLAUNCH` do so with `g0` as operand too is log
entry 17, DEDUCED. -/
def badCsrNumbersAreIllegal : Prop :=
  ∀ (s : State) (d a : GReg) (c : BitVec 11),
    let traps := fun (i : Instr) => exec i s = .next (s.raise .illegal 9 (s.wordVal i))
    (csrExists c.toNat = false →
      traps (.csrr d c) ∧ traps (.csrw a c) ∧ traps (.csrrw d a c) ∧ traps (.csrs a c) ∧ traps (.csrc a c)) ∧
    (csrExists c.toNat = true → (c.toNat < 0x100 ∨ s.hot.supervisor = true) →
      csrReadOnly s.hot.supervisor c.toNat = true ∨ c.toNat = 0x088 →
      traps (.csrw a c) ∧ traps (.csrrw d a c) ∧
      (a ≠ 0 ∨ c.toNat = 0x088 → traps (.csrs a c) ∧ traps (.csrc a c)))

/-! ## Control and status registers (R175 to R178, R206) -/

/-- The CSRs of R175 that a read returns without an effect, with their values. -/
def csrValues (s : State) : List (Nat × Word) :=
  let x := s.hot
  let c := s.getCtx (if x.supervisor then x.tctx else x.ctx)
  let core := s.getCore s.core
  [(0x001, x.fcsr), (0x010, s.cycleOf s.core), (0x011, s.time), (0x012, x.retired),
   (0x020, word (s.pkg * 2 ^ 20 + s.die * 2 ^ 15 + s.core % 256 * 2 ^ 2 + s.hotId % 4)),
   (0x021, word x.lcore), (0x022, word x.ctx), (0x030, x.contrib),
   (0x040, word (core.boostReq + 2 ^ 8 * ((s.getDie s.die).domain (domainOf (s.core % 256))).level)),
   (0x041, word (s.getDie s.die).pool), (0x042, tabGet 0 (s.getDie s.die).tquota (if x.supervisor then x.tctx else x.ctx)),
   (0x050, word x.spd), (0x051, word x.splim), (0x052, word x.slim),
   (0x080, x.xset[0]), (0x081, x.xset[1]), (0x082, x.xset[2]), (0x083, x.xset[3]),
   (0x084, x.xset[4]), (0x085, x.xset[5]), (0x086, x.xset[6]), (0x087, x.xset[7]), (0x089, x.xid),
   (0x0A0, x.trapvec), (0x0A1, x.trapcause), (0x0A2, x.trapval), (0x0A3, x.trappc),
   (0x100, word (x.tctx * 2 ^ 8 + x.supervisor.toNat)),
   (0x101, c.cbase), (0x102, c.clim), (0x103, c.csave), (0x104, c.asidr), (0x105, c.coretab), (0x106, c.routetab),
   (0x107, c.ownmap), (0x108, c.spillbase), (0x110, s.shipTarget s.core), (0x111, word core.gshare), (0x120, s.mctbase)]

/-- `CSRR` (R206, R207): rd receives the CSR, and nothing else changes; user CSRs at any privilege, supervisor CSRs in a
supervisor activation, those held per context of the activation's context or of TCTX (R177). R175 holds `SHIPTGT` per quad and
`GSHARE` per Bassoon; that 0x110 on a Bassoon names a value of its own (log 58) and 0x111 on a Piccolo one that acts on nothing
(log 59) is the model's choice (DESIGN CHOICE). -/
def Obligations.CsrReadsReturnTheRegister : Prop :=
  ∀ (s : State) (d : GReg) (c : BitVec 11) (x : Word), (c.toNat, x) ∈ csrValues s →
    c.toNat < 0x100 ∨ s.hot.supervisor = true → writesG s (exec (.csrr d c) s) d x s.hot.nxt

/-- The signed value of the low 32 bits. -/
def low32 (x : Word) : Int := if x.toNat % 2 ^ 32 < 2 ^ 31 then (x.toNat % 2 ^ 32 : Int) else (x.toNat % 2 ^ 32 : Int) - 2 ^ 32

/-- What a CSR holds after a write of `x` (R178): reserved fields are discarded, and `SPLIM`, `SLIM` and `GSHARE` are
clamped (R50, R54, R231). `BOOSTRQ` stores REQ, 0 for 3, and LEVEL reads on (R342); `TQUOTA` stores EN and the new balance with
the debt that stood, saturated (R352). -/
def csrStored (s : State) : List (Nat × (Word → Word)) :=
  [(0x001, fun x => word (x.toNat % 2 ^ 13)), (0x030, fun x => word (x.toNat % 16)),
   (0x040, fun x => word ((if x.toNat % 4 = 3 then 0 else x.toNat % 4) +
     2 ^ 8 * ((s.getDie s.die).domain (domainOf (s.core % 256))).level)),
   (0x042, fun x => word ((max (-2 ^ 31) (min (2 ^ 31 - 1)
     (low32 x + min (low32 (tabGet 0 (s.getDie s.die).tquota s.hot.tctx)) 0)) % 2 ^ 32).toNat + x.toNat / 2 ^ 63 * 2 ^ 63)),
   (0x051, fun x => word (max 64 (min 8192 x.toNat))), (0x052, fun x => word (max 1 (min 64 x.toNat))),
   (0x080, id), (0x081, id), (0x082, fun x => word (x.toNat % 2 ^ 37)),
   (0x083, id), (0x084, id), (0x085, fun x => word (x.toNat % 2 ^ 56)),
   (0x086, fun x => word (x.toNat % 2 ^ 24 + x.toNat / 2 ^ 32 % 2 ^ 10 * 2 ^ 32 + x.toNat / 2 ^ 63 * 2 ^ 63)), (0x087, fun x => word (x.toNat / 32 * 32)),
   (0x0A0, fun x => word (x.toNat / 4 * 4)), (0x0A3, id),
   (0x101, fun x => word (x.toNat / 4 * 4)), (0x102, fun x => word (x.toNat / 4 * 4)),
   (0x103, fun x => word (x.toNat / 4096 * 4096)), (0x104, id), (0x105, fun x => word (x.toNat / 64 * 64)),
   (0x106, fun x => word (x.toNat / 8 * 8)), (0x107, fun x => word (x.toNat / 32 * 32)),
   (0x108, fun x => word (x.toNat / 32 * 32)), (0x110, fun x => word (x.toNat % 16 + x.toNat / 128 % 2 * 128)),
   (0x111, fun x => word (max 1 (min 16 (x.toNat % 32)))),
   (0x120, fun x => word (x.toNat / 4096 % 2 ^ 40 * 4096 + x.toNat % 2))]

/-- A CSR word answers a next state in which CSR `n` holds `x`; every other CSR but `RETIRED` reads as before, and no
other register, no queue and no byte of memory changes. rd, if there is one, receives `d`. -/
def csrHolds (s : State) (o : Out) (n : Nat) (x : Word) (d : Option (GReg × Word)) : Prop :=
  ∃ t, o = .next t ∧ t.csrRead n = x ∧ (∀ k, k ≠ n → k ≠ 0x012 → t.csrRead k = s.csrRead k) ∧
    s.hot.completes t.hot s.hot.nxt ∧ t.hot.v = s.hot.v ∧ t.hot.m = s.hot.m ∧ t.hot.q = s.hot.q ∧
    (match d with
     | some (r, y) => t.g r = (if r = 0 then 0 else y) ∧ s.sameOtherG t r
     | none => t.hot.g = s.hot.g) ∧
    t.slots = s.slots ∧ t.agenda = s.agenda ∧ s.sameMemory t

/-- `CSRW`, `CSRRW`, `CSRS` and `CSRC` (R206, R178): the CSR stores the value, its OR, or its AND NOT, with reserved
fields discarded and the clamps applied; `CSRRW` returns the value before; `CSRS` and `CSRC` with rs1 = `g0` write
nothing. `TQUOTA` is written in a supervisor activation only. What 0x110 names on a Bassoon (log 58) and 0x111
on a Piccolo (log 59) is the model's choice (DESIGN CHOICE). -/
def csrWritesStoreTheLegalValue : Prop :=
  ∀ (s : State) (d a : GReg) (c : BitVec 11) (f : Word → Word), (c.toNat, f) ∈ csrStored s →
    (c.toNat < 0x100 ∧ c.toNat ≠ 0x042) ∨ s.hot.supervisor = true →
    let old := s.csrRead c.toNat
    let x := s.g a
    csrHolds s (exec (.csrw a c) s) c.toNat (f x) none ∧
    csrHolds s (exec (.csrrw d a c) s) c.toNat (f x) (some (d, old)) ∧
    (a ≠ 0 → csrHolds s (exec (.csrs a c) s) c.toNat (f (old ||| x)) none ∧
      csrHolds s (exec (.csrc a c) s) c.toNat (f (old &&& ~~~x)) none) ∧
    (a = 0 → onlyMoves s (exec (.csrs a c) s) s.hot.nxt ∧ onlyMoves s (exec (.csrc a c) s) s.hot.nxt)

/-- A write of `STATUS` stores TCTX and leaves PRV (R177); the other CSRs of the slot, registers and memory stay. -/
def statusWriteStoresTheTargetContext : Prop :=
  ∀ (s : State) (a : GReg), s.hot.supervisor = true →
    ∃ t, exec (.csrw a 0x100) s = .next t ∧ t.hot.tctx = (s.g a).toNat / 2 ^ 8 % 2 ^ 8 ∧
      t.csrRead 0x100 = word (t.hot.tctx * 2 ^ 8 + 1) ∧ s.hot.completes t.hot s.hot.nxt ∧
      t.hot = { s.hot with tctx := t.hot.tctx, pc := t.hot.pc, retired := t.hot.retired, did := t.hot.did } ∧
      s.sameOutside t ∧ s.sameMemory t

/-! ## QCNT, REP, WFM (R210, R265, R266) -/

/-- `REP` (R266, R433): with no repetition under way it opens a capture of n words for k passes, k as the rule gives it
from K, rs1 and g[rs1]; k above 256 raises REP_MISUSE detail 5 with g[rs1], and a `REP` inside an incomplete capture
detail 1 with the word; while an earlier capture is complete but its passes remain it waits (R269). -/
def Obligations.RepOpensACapture : Prop :=
  ∀ (s : State) (t u v x : Bool) (a : GReg) (st : Fin 4) (k : BitVec 8) (n : Fin 8),
    let i : Instr := .rep t u v x a st k n
    let passes := if k ≠ 0 then k.toNat + 1 else if a = 0 then 1 else (s.g a).toNat
    (s.hot.rep = none → passes ≤ 256 →
      ∃ y r, exec i s = .next y ∧ y.hot.rep = some r ∧ r.k = passes ∧ r.n = n.val + 1 ∧ r.todo = n.val + 1 ∧
        r.captured = [] ∧ r.stride = 2 ^ st.val ∧
        r.stagger = x.toNat + 2 * v.toNat + 4 * u.toNat + 8 * t.toNat ∧
        s.hot.completes y.hot s.hot.nxt ∧
        y.hot = { s.hot with rep := y.hot.rep, pc := y.hot.pc, retired := y.hot.retired, did := y.hot.did } ∧
        s.sameOutside y ∧ s.sameMemory y) ∧
    ((∀ r, s.hot.rep = some r → r.todo = 0) → 256 < passes → exec i s = .next (s.raise .repMisuse 5 (s.g a))) ∧
    (∀ r, s.hot.rep = some r → r.todo = 0 → passes ≤ 256 → exec i s = .next s.stall) ∧
    (∀ r, s.hot.rep = some r → r.todo ≠ 0 → exec i s = .next (s.raise .repMisuse 1 (s.wordVal i)))

/-- `WFM` (R210): an event already true wakes the slot at once with the highest code; else the slot stops issuing with
its limit, and nothing else of it changes but `pc` and `RETIRED`. The codes: 2 while a pre-emption of the activation's
context is pending on the core, else 1 while a message waits for its context, else 0 once the limit has passed. -/
def Obligations.WfmWakesOrWaits : Prop :=
  ∀ (s : State) (d a : GReg),
    let limit := if s.g a = 0 then none else some (s.time.toNat + (s.g a).toNat)
    (∀ c, s.wakeCode s.hotId limit = some c → writesG s (exec (.wfm d a) s) d (word c) s.hot.nxt) ∧
    (s.wakeCode s.hotId limit = none →
      ∃ t, exec (.wfm d a) s = .next t ∧ t.hot.phase = .wfm d limit ∧ s.hot.completes t.hot s.hot.nxt ∧
        t.hot = { s.hot with phase := t.hot.phase, pc := t.hot.pc, retired := t.hot.retired, did := t.hot.did } ∧
        s.sameOutside t ∧ s.sameMemory t) ∧
    (∀ l, s.wakeCode s.hotId l =
      if ((s.getCore s.core).marks.any fun m => m.ctx == s.hot.ctx && !m.preempted) = true then some 2
      else if s.messageWaits s.core s.hot.ctx = true then some 1
      else match l with | some n => (if n ≤ s.time.toNat then some 0 else none) | none => none)

/-- Branches and jumps (R201 to R204), whole: as the two parts above say. -/
def Obligations.BranchesAndJumpsMoveControl : Prop := branchesMoveControlOnly ∧ jumpsLinkAndMove

/-- Writes of CSRs (R175, R177, R178, R206), whole: those of the slot, and those that reach the target context, as the two
parts above say. -/
def Obligations.CsrWritesStoreTheLegalValue : Prop := csrWritesStoreTheLegalValue ∧ statusWriteStoresTheTargetContext

/-! ## Queue operands (R173, R174, R191, R265) -/

/-- What a word on queues leaves alone: all but g, the queues and what is taken of them, `pc`, `RETIRED` and the log. -/
def queueFrame (s t : State) : Prop :=
  t.hot = { s.hot with
    g := t.hot.g, q := t.hot.q, taken := t.hot.taken, pc := t.hot.pc, retired := t.hot.retired, did := t.hot.did,
    history := t.hot.history } ∧ s.sameOutside t ∧ s.sameMemory t

/-- A word writes `x` to `g[d]` or appends it to queue `k`, leaves the queues `q` otherwise and the entries `l` taken, and
changes nothing else. -/
def queueWrites (s : State) (o : Out) (d : GReg) (x : Word) (q : Vector (List Word) 4) (l : List (QReg × Word)) : Prop :=
  ∃ t, o = .next t ∧ t.g d = (if d = 0 then 0 else x) ∧ s.sameOtherG t d ∧ s.logsG t d ∧ t.hot.q = q ∧ t.hot.taken = l ∧
    s.hot.completes t.hot s.hot.nxt ∧ queueFrame s t

/-- The same of a word that appends `x` to queue `k`. -/
def queueAppends (s : State) (o : Out) (k : Fin 2) (x : Word) (q : Vector (List Word) 4) (l : List (QReg × Word)) : Prop :=
  ∃ t, o = .next t ∧ t.hot.q = q.set k.val (s.hot.q[k.val] ++ [x]) ∧ t.hot.g = s.hot.g ∧ t.hot.history = s.hot.history ∧
    t.hot.taken = l ∧ s.hot.completes t.hot s.hot.nxt ∧ queueFrame s t

/-- INT words on queues (R173, R174, R191): every sub-operation of R191 has its function of the operand taken and g[rs2]. Taking
from a non-empty `q2` or `q3` removes its oldest entry and yields it; appending to `q0` or `q1` with room puts the value last; an
empty source stalls with nothing taken; a full destination stalls after the take, and the entry taken is kept, not returned, and
is the operand once there is room. `SEL` takes its operand and writes a register alike; with a queue destination it raises
ILLEGAL detail 7. `QCNT` counts a queue's entries and takes none. -/
def Obligations.QueueWordsTakeAndAppend : Prop :=
  ∀ (s : State) (d a b : GReg) (n k : Fin 2) (r : QReg) (x : Word) (rest : List Word),
    let from_ : QReg := ⟨2 + n.val, by omega⟩
    let source := s.hot.q[2 + n.val]
    let sink := s.hot.q[k.val]
    let kept := s.hot.taken.filter fun t => t.1 == from_
    let others := s.hot.taken.filter fun t => t.1 != from_
    let sel : (SDst → SSrc → GReg → Instr) × (Word → Word → Word) := (.sel, fun x y => if s.g d ≠ 0 then x else y)
    (∀ w ∈ sel :: intFunctions,
      (kept = [] → source = x :: rest →
        queueWrites s (exec (w.1 (.g d) (.q n) b) s) d (w.2 x (s.g b)) (s.hot.q.set (2 + n.val) rest) s.hot.taken) ∧
      (kept = [(from_, x)] → queueWrites s (exec (w.1 (.g d) (.q n) b) s) d (w.2 x (s.g b)) s.hot.q others) ∧
      (kept = [] → source = [] → exec (w.1 (.g d) (.q n) b) s = .next s.stall)) ∧
    (∀ w ∈ intFunctions,
      (kept = [] → source = x :: rest →
        (sink.length < 8 →
          queueAppends s (exec (w.1 (.q k) (.q n) b) s) k (w.2 x (s.g b)) (s.hot.q.set (2 + n.val) rest) s.hot.taken) ∧
        (8 ≤ sink.length →
          ∃ t, exec (w.1 (.q k) (.q n) b) s = .next t ∧
            t.hot = { s.hot with
              q := s.hot.q.set (2 + n.val) rest, taken := (from_, x) :: s.hot.taken, did := .stalled } ∧
            s.sameOutside t ∧ s.sameMemory t)) ∧
      (kept = [(from_, x)] → sink.length < 8 →
        queueAppends s (exec (w.1 (.q k) (.q n) b) s) k (w.2 x (s.g b)) s.hot.q others) ∧
      (kept = [(from_, x)] → 8 ≤ sink.length → exec (w.1 (.q k) (.q n) b) s = .next s.stall) ∧
      (kept = [] → source = [] → exec (w.1 (.q k) (.q n) b) s = .next s.stall) ∧
      (sink.length < 8 → queueAppends s (exec (w.1 (.q k) (.g a) b) s) k (w.2 (s.g a) (s.g b)) s.hot.q s.hot.taken) ∧
      (8 ≤ sink.length → exec (w.1 (.q k) (.g a) b) s = .next s.stall)) ∧
    (∀ c : SSrc, exec (.sel (.q k) c b) s = .next (s.raise .illegal 7 (s.wordVal (.sel (.q k) c b)))) ∧
    writesG s (exec (.qcnt d r) s) d (word (s.hot.q[r.val]).length) s.hot.nxt

/-! ## Fence tokens (R131 to R134, R286) -/

/-- The token entry that a word takes where one is free is the lowest free one, its sequence number one more than the
last modulo 2^29; the slot `y` holds it, and every other entry is kept. -/
def takesEntry (x y : Slot) (e : Fin 8) (need : List Nat) (done : Bool) : Prop :=
  x.tokens[e.val] = none ∧ (∀ j : Fin 8, j < e → x.tokens[j.val] ≠ none) ∧ y.seq = (x.seq + 1) % 2 ^ 29 ∧
    y.tokens = x.tokens.set e.val (some ⟨(x.seq + 1) % 2 ^ 29, need, done⟩)

/-- What a token word leaves alone: all but g, tokens, their sequence number, `pc`, `RETIRED` and the log. -/
def tokenFrame (s t : State) : Prop :=
  t.hot = { s.hot with
    g := t.hot.g, tokens := t.hot.tokens, seq := t.hot.seq, pc := t.hot.pc, retired := t.hot.retired, did := t.hot.did,
    history := t.hot.history } ∧ s.sameOutside t ∧ s.sameMemory t

/-- A token value names a live entry: one whose sequence number it holds. -/
def namesLive (x : Slot) (v : Word) (e : Fin 8) (k : Token) : Prop :=
  e.val = v.toNat % 8 ∧ x.tokens[e.val] = some k ∧ k.seq = v.toNat / 8

/-- `FISS`, `FENCE`, `FWAIT`, `FTEST` and `FENCEF` (R131 to R134, R286). `FISS` takes an entry that is complete once the
covered reductions are applied, those of `RED`, `VACC` and `MMA` (R122), and writes its token, sequence number × 8 +
entry; where all eight are live it takes the oldest one if that is complete, and else stalls. A token that names no live entry, or a complete one, is complete; observing it
frees the entry. `FWAIT` stalls and `FTEST` writes 0 while it is not. `FENCE` waits for the covered reductions and uses
and frees one entry. `FENCEF` waits for the slot's held stores, and empties the instruction cache of its core and nothing
else (R106). That `FENCE` takes a sequence number (DEDUCED, log 24), and that accesses of the classes L, S and E have performed
when their words complete (DESIGN CHOICE, log 7), is the model's. -/
def Obligations.FenceTokensAreTakenAndObserved : Prop :=
  ∀ (s : State) (d a : GReg) (c : BitVec 4) (sc : Scope),
    let v := s.g a
    let covered := if c.getLsbD 2 then s.hot.updates.map (·.1) ++ s.hot.matrix else []
    ((∃ e : Fin 8, s.hot.tokens[e.val] = none) →
      (∃ t e, exec (.fiss d c sc) s = .next t ∧ takesEntry s.hot t.hot e covered covered.isEmpty ∧
        t.g d = (if d = 0 then 0 else word ((s.hot.seq + 1) % 2 ^ 29 * 8 + e.val)) ∧ s.sameOtherG t d ∧
        s.hot.completes t.hot s.hot.nxt ∧ tokenFrame s t) ∧
      (covered = [] →
        ∃ t, exec (.fence c sc) s = .next t ∧ t.hot.tokens = s.hot.tokens ∧ t.hot.seq = (s.hot.seq + 1) % 2 ^ 29 ∧
          s.hot.completes t.hot s.hot.nxt ∧ t.hot.g = s.hot.g ∧ tokenFrame s t)) ∧
    (covered ≠ [] → exec (.fence c sc) s = .next s.stall) ∧
    (∀ (e : Fin 8) (k : Token), s.hot.tokens[e.val] = some k →
      (∀ j : Fin 8, ∃ y, s.hot.tokens[j.val] = some y ∧
        (j ≠ e → (s.hot.seq + 2 ^ 29 - y.seq) % 2 ^ 29 < (s.hot.seq + 2 ^ 29 - k.seq) % 2 ^ 29)) →
      let next := (s.hot.seq + 1) % 2 ^ 29
      (k.complete = false → exec (.fiss d c sc) s = .next s.stall) ∧
      (k.complete = true →
        (∃ t, exec (.fiss d c sc) s = .next t ∧ t.hot.seq = next ∧
          t.hot.tokens = s.hot.tokens.set e.val (some ⟨next, covered, covered.isEmpty⟩) ∧
          t.g d = (if d = 0 then 0 else word (next * 8 + e.val)) ∧ s.sameOtherG t d ∧
          s.hot.completes t.hot s.hot.nxt ∧ tokenFrame s t) ∧
        (covered = [] →
          ∃ t, exec (.fence c sc) s = .next t ∧ t.hot.seq = next ∧ t.hot.tokens = s.hot.tokens.set e.val none ∧
            t.hot.g = s.hot.g ∧ s.hot.completes t.hot s.hot.nxt ∧ tokenFrame s t))) ∧
    ((∀ e k, ¬namesLive s.hot v e k) →
      onlyMoves s (exec (.fwait a) s) s.hot.nxt ∧ writesG s (exec (.ftest d a) s) d 1 s.hot.nxt) ∧
    (∀ e k, namesLive s.hot v e k → k.complete = true →
      (∃ t, exec (.fwait a) s = .next t ∧ t.hot.tokens = s.hot.tokens.set e.val none ∧ t.hot.seq = s.hot.seq ∧
        s.hot.completes t.hot s.hot.nxt ∧ t.hot.g = s.hot.g ∧ tokenFrame s t) ∧
      (∃ t, exec (.ftest d a) s = .next t ∧ t.hot.tokens = s.hot.tokens.set e.val none ∧ t.hot.seq = s.hot.seq ∧
        s.hot.completes t.hot s.hot.nxt ∧ t.g d = (if d = 0 then 0 else 1) ∧ s.sameOtherG t d ∧ tokenFrame s t)) ∧
    (∀ e k, namesLive s.hot v e k → k.complete = false →
      exec (.fwait a) s = .next s.stall ∧ writesG s (exec (.ftest d a) s) d 0 s.hot.nxt) ∧
    (s.hot.held ≠ [] → exec .fencef s = .next s.stall) ∧
    (s.hot.held = [] →
      ∃ t, exec .fencef s = .next t ∧ (t.getCore s.core) = { s.getCore s.core with icache := [], icachep := [] } ∧
        (∀ k, k ≠ s.core → t.getCore k = s.getCore k) ∧ s.hot.completes t.hot s.hot.nxt ∧
        t.hot = { s.hot with pc := t.hot.pc, retired := t.hot.retired, did := t.hot.did } ∧
        s.sameOutside { t with cores := s.cores } ∧ s.sameMemory t)

/-! ## Cache maintenance (R287) -/

/-- Whether a line's home, or the reach of the scope, lets a word of a core act on memory. -/
def reachesMemory (s : State) (p : Phys) (sc : Scope) : Prop :=
  isHome s.die p = true ∨ sc = .pkg ∨ sc = .dom ∨ sc = .sys

/-- `CLEAN`, `INVL`, `FLUSH` and `PREF` on an address that passes its checks (R287). On a line that neither software nor
hardware keeps consistent they change nothing. On a line that hardware keeps consistent they wait while the line is on its
way to or from the core; else `CLEAN` leaves a dirty line of the core, and of the proxy of its die, there and clean, and `INVL`
and `FLUSH` evict the core's after that. On a
software-managed line of the executing core, `INVL` drops the core's bytes of the line and writes none, at a scope that
reaches memory from another die the die's too; `CLEAN` and `FLUSH` at a scope that reaches memory lay the die's L2 bytes of
the line and then the core's over memory, where the die is not the home, or the core's alone, where it is; after `CLEAN`
the core keeps its copy, after `FLUSH` it has none. At the home a word is poisoned where the bytes come from a poisoned one, or
it was and they do not cover it (R444). Bytes of other lines keep their copies. `PREF` never faults and
changes nothing. That the words of a core of the home die act on memory at every scope is DEDUCED (log 25). -/
def Obligations.CacheWordsMoveDirtyBytes : Prop :=
  ∀ (s s1 : State) (a : GReg) (sc : Scope) (p : Phys) (ps : List (Phys × Elem)) (e : Elem),
    s.checkAll s.me s.die .maint [(0, ⟨s.g a, 1, 1, false⟩)] = (s1, none, (p, e) :: ps) →
    let line := lineOf p.pa
    let dirty := lineCells (s1.getCore s1.core).l1 line
    let held := lineCells (s1.getDie s1.die).l2 line
    let others := otherCells (s1.getCore s1.core).l1 line
    let lay := fun (m cells : List Host.Cell) => cells.foldl (fun (m : List Host.Cell) (x : Host.Cell) => memSet m x.1 x.2) m
    let moving := ∃ x, s1.cst line s1.core = some x ∧ x.moving = true
    let frame := fun (t : State) => s1.hot.completes t.hot s1.hot.nxt ∧
      t.hot = { s1.hot with pc := t.hot.pc, retired := t.hot.retired, did := t.hot.did }
    (p.kind ≠ .swm → p.kind ≠ .domain → p.kind ≠ .coh → p.kind ≠ .hco →
      onlyMoves s1 (exec (.clean a sc) s) s1.hot.nxt ∧ onlyMoves s1 (exec (.invl a sc) s) s1.hot.nxt ∧
      onlyMoves s1 (exec (.flush a sc) s) s1.hot.nxt) ∧
    (p.kind = .coh ∨ p.kind = .hco →
      (moving → exec (.clean a sc) s = .next s1.stall ∧ exec (.invl a sc) s = .next s1.stall ∧ exec (.flush a sc) s = .next s1.stall) ∧
      (¬moving →
        (∃ t, exec (.clean a sc) s = .next t ∧ frame t ∧ s1.sameMemory t ∧
          (∀ x ∈ [s1.core, proxyOf s1.die],
            (s1.cst line x = some .m → t.cst line x = some .e) ∧ (s1.cst line x ≠ some .m → t.cst line x = s1.cst line x)) ∧
          s1.sameOutside { t with caches := s1.caches } ∧
          (s1.cst line s1.core ≠ some .m → s1.cst line (proxyOf s1.die) ≠ some .m → s1.sameOutside t)) ∧
        (∃ t u, exec (.clean a sc) s = .next t ∧ exec (.invl a sc) s = .next u ∧ frame u ∧
          u = { t.evictLine line s1.core with hot := u.hot }) ∧
        exec (.flush a sc) s = exec (.invl a sc) s)) ∧
    (p.kind = .swm →
      (∃ t, exec (.invl a sc) s = .next t ∧ frame t ∧ t.mem = s1.mem ∧ (t.getCore s1.core).l1 = others ∧
        (t.getCore s1.core).l1c = tabErase (s1.getCore s1.core).l1c line ∧
        (reachesMemory s1 p sc → isHome s1.die p = false →
          (t.getDie s1.die).l2 = otherCells (s1.getDie s1.die).l2 line ∧
          (t.getDie s1.die).l2c = tabErase (s1.getDie s1.die).l2c line)) ∧
      (reachesMemory s1 p sc →
        ∃ t u, exec (.clean a sc) s = .next t ∧ exec (.flush a sc) s = .next u ∧ frame t ∧ frame u ∧ u.mem = t.mem ∧
          t.mem = lay s1.mem (if isHome s1.die p then dirty else overlay held dirty) ∧
          (isHome s1.die p = true → ∀ w, w ∈ t.poison ↔
            (w ∈ s1.poison ∧ ∃ i < 8, ∀ x ∈ dirty, x.1 ≠ 8 * w + i) ∨
            (w ∈ (s1.getCore s1.core).l1p ∧ ∃ x ∈ dirty, x.1 / 8 = w)) ∧
          (t.getCore s1.core).l1 = others ∧ (u.getCore s1.core).l1 = others ∧
          (t.getCore s1.core).l1c = mergeCopy (s1.getCore s1.core).l1c line dirty ∧
          (u.getCore s1.core).l1c = tabErase (t.getCore s1.core).l1c line)) ∧
    onlyMoves s (exec (.pref a sc) s) s.hot.nxt

/-! ## TLBINV, HALT, CAPMINT (R211 to R215) -/

/-- `TLBINV` in a supervisor activation, with a legal descriptor, no update outstanding and a token entry free (R211,
R212): rd receives the token, which is complete at once where nothing that went through a covered entry is still to take
place, and else once the awaited has taken place. Kind 0 removes every covered leaf from every TLB in the unit of the
scope, and no other, and evicts the owner field of every covered classified page whose LL-TLB is in the unit (R155);
kind 1 leaves the class of the granule in no TLB, gives the host back the granule's lines that a port's agent has, and has the
granule's lines held under its MCT byte as it now is; kind 2 removes the covered core-table cache entries of the target context in the unit, and no other. Kinds 0 and 2 change no byte
of memory. While copies of the granule's coherent lines remain kind 1 recalls them and waits. An illegal descriptor raises
ILLEGAL detail 8 with the descriptor. R212 has `TLBINV` take its token as `FISS` does. -/
def tlbinvRemovesCoveredEntries : Prop :=
  ∀ (s : State) (d a b : GReg), s.hot.supervisor = true →
    let x := s.g b
    let va := s.g a
    let unit := fun k => sameUnit (x.toNat % 8) s.core k = true
    let await := s.tlbinvAwaits (s.tlbinv x va) x va
    let granule := va.toNat % 2 ^ 52 / 2 ^ 21
    let busy := s.hot.updates ≠ [] ∨ s.granuleBusy x va = true
    (badTlbinv x = true → exec (.tlbinv d a b) s = .next (s.raise .illegal 8 x)) ∧
    (badTlbinv x = false → busy → exec (.tlbinv d a b) s = .next s.stall) ∧
    (badTlbinv x = false → ¬busy → x.bits 3 2 = 1 → s.granuleLines (va.toNat % 2 ^ 52) ≠ [] →
      exec (.tlbinv d a b) s = .next ((s.granuleLines (va.toNat % 2 ^ 52)).foldl State.recallLine s).stall) ∧
    (badTlbinv x = false → ¬busy → (x.bits 3 2 = 1 → s.granuleLines (va.toNat % 2 ^ 52) = []) →
      (∃ e : Fin 8, s.hot.tokens[e.val] = none) →
      ∃ t e, exec (.tlbinv d a b) s = .next t ∧ takesEntry s.hot t.hot e [] await.isEmpty ∧
        t.g d = (if d = 0 then 0 else word ((s.hot.seq + 1) % 2 ^ 29 * 8 + e.val)) ∧ s.sameOtherG t d ∧
        s.hot.completes t.hot s.hot.nxt ∧
        (await ≠ [] → Event.fenceTokenCompletion s.hotId s.hot.gen e t.hot.seq await none ∈ t.agenda) ∧
        (x.bits 3 2 = 0 →
          let size := tlbSize (x.bits 8 4)
          let hit := coversLeaf (x.bit 12) (x.bits 8 4 == 15) ((s.getCtx s.hot.tctx).asidr.bits 44 16)
            (va.toNat % 2 ^ 57 / 2 ^ size * 2 ^ size) size
          (∀ k, unit k → (t.getCore k).tlb = (s.getCore k).tlb.filter fun e => !hit e) ∧
          (∀ k, ¬unit k → (t.getCore k).tlb = (s.getCore k).tlb) ∧
          (∀ q ∈ s.pages, hit q.2.leaf = true → unit (llTlb (homeDie q.1)) → Event.llTlbEviction q.1 ∈ t.agenda) ∧
          s.sameMemory t) ∧
        (x.bits 3 2 = 1 →
          (∀ k, ∀ y ∈ (t.getCore k).tlb, ∀ z ∈ y.classes, z.1 ≠ granule) ∧
          (∀ l, tabHas t.hco l = true → l / 2 ^ 21 ≠ granule) ∧
          (∀ j, mctIndex s.pkg (granule * 2 ^ 21) = some j → s.mctbase.getLsbD 0 = true →
            tabHas t.mct granule = true ∧ tabGet 0 t.mct granule = (s.sweepDirty (granule * 2 ^ 21)).mctEntry j)) ∧
        (x.bits 3 2 = 2 →
          let gone := fun (e : Nat × Nat × Word) => e.1 == s.hot.tctx && (x.bits 32 16 == 0xFFFF || e.2.1 == x.bits 32 16)
          (∀ k, unit k → (t.getCore k).ctCache = (s.getCore k).ctCache.filter fun e => !gone e) ∧
          (∀ k, ¬unit k → (t.getCore k).ctCache = (s.getCore k).ctCache) ∧ s.sameMemory t))

/-- `HALT` in a supervisor activation whose TCTX is not its own context, with a token entry free (R213): rd receives the
token, which completes by an event of its own, once the stores, updates and atomics of the stopped activations and the commands
that engines accepted have taken place; the target context is dead, no slot runs an activation of it, no arrival queue holds a message for it, and its
pre-empted state has ended. The executing slot's other registers stay, and memory is as the emptying of the context's
spill queues leaves it. With TCTX its own context it raises ILLEGAL detail 10. That the token takes the next sequence number is
DEDUCED (log 24). -/
def haltMakesTheContextDead : Prop :=
  ∀ (s : State) (d : GReg), s.hot.supervisor = true →
    let c := s.hot.tctx
    let u := (s.slotKeys.filter fun k => (s.getSlot k).active && (s.getSlot k).ctx == c).foldl State.stopSlot s
    (c = s.hot.ctx → exec (.halt d) s = .next (s.raise .illegal 10 (s.wordVal (.halt d)))) ∧
    (c ≠ s.hot.ctx → (∃ e : Fin 8, s.hot.tokens[e.val] = none) →
      ∃ t e, exec (.halt d) s = .next t ∧ takesEntry s.hot t.hot e [] false ∧
        t.g d = (if d = 0 then 0 else word ((s.hot.seq + 1) % 2 ^ 29 * 8 + e.val)) ∧ s.sameOtherG t d ∧
        s.hot.completes t.hot s.hot.nxt ∧
        Event.fenceTokenCompletion s.hotId s.hot.gen e t.hot.seq (s.haltAwaits c) (some c) ∈ t.agenda ∧
        (t.getCtx c).live = false ∧ (t.getCtx c).haltDone = false ∧ (t.getCtx c).occupied = [] ∧
        (∀ k, (t.getSlot k).active = true → (t.getSlot k).ctx ≠ c) ∧
        (∀ k x, x ∈ (t.getCore k).arrival → msgCtx x.msg ≠ c) ∧
        (∀ k m, m ∈ (t.getCore k).marks → m.ctx ≠ c) ∧
        t.hot.v = s.hot.v ∧ t.hot.m = s.hot.m ∧ t.hot.q = s.hot.q ∧
        t.mem = ((List.range (u.tableCores c)).foldl (fun s l => s.emptySpill c l)
          (u.tableTouch c (u.getCtx c).coretab 4)).mem)

/-- `CAPMINT` in a supervisor activation (R214, R215): rd waits for the digest, and the request holds bits [63:32] of the
capability: the target context, the engine mask g[rs1][7:0], and the expiry, (`TIME`[35:20] + min(u(g[rs2]), 32,767))
modulo 2^16. Nothing else changes. -/
def capmintRequestsACapability : Prop :=
  ∀ (s : State) (d a b : GReg), s.hot.supervisor = true →
    let life := min (s.g b).toNat 32767
    let expiry := (s.time.toNat / 2 ^ 20 % 2 ^ 16 + life) % 2 ^ 16
    let high := BitVec.ofNat 32 (s.hot.tctx * 2 ^ 24 + (s.g a).toNat % 2 ^ 8 * 2 ^ 16 + expiry)
    ∃ t, exec (.capmint d a b) s = .next t ∧ t.agenda = s.agenda ++ [Event.macReturn s.hotId s.hot.gen d high] ∧
      t.hot.busy = (if d = 0 then s.hot.busy else (d, .mac) :: s.hot.busy) ∧ s.hot.completes t.hot s.hot.nxt ∧
      t.hot = { s.hot with busy := t.hot.busy, pc := t.hot.pc, retired := t.hot.retired, did := t.hot.did } ∧
      s.sameOutside { t with agenda := s.agenda } ∧ s.sameMemory t

/-! ## SAFEPT (R54, R56, R298, R299, R429) -/

/-- `SAFEPT` (R298, R299): outside a capture, with empty queues, and a well-formed descriptor that lies in the code bounds
on a multiple of 8 and can be fetched, `SPD` becomes 0; where the activation's logical core is pre-empting and the slot
runs no trap handler the slot stops to be saved with the descriptor's live registers (R56), else nothing else happens.
Its faults, in their order (R429): REP_MISUSE details 2 and 6, BOUNDS, ILLEGAL detail 8 for the place, the cause of a fetch
that fails, ILLEGAL detail 8 for a malformed descriptor. A fetch whose page has just been claimed waits (R153). An entry that the
slot still keeps for a queue counts as one of the queue (log 63). -/
def Obligations.SafePointClearsSpdAndHonoursPreemption : Prop :=
  ∀ (s : State) (o : BitVec 19),
    let i : Instr := .safept o
    let a := s.hot.wa + wordOfInt (o.toInt * 4)
    let c := s.getCtx s.hot.ctx
    let capturing := ∃ r, s.hot.rep = some r ∧ r.todo ≠ 0
    let empty := (∀ q : QReg, s.hot.q[q.val] = []) ∧ s.hot.taken = []
    let inside := c.cbase.toNat ≤ a.toNat ∧ a.toNat + 32 ≤ c.clim.toNat
    (capturing → exec i s = .next (s.raise .repMisuse 2 (s.wordVal i))) ∧
    (¬capturing → ¬empty → exec i s = .next (s.raise .repMisuse 6 (s.wordVal i))) ∧
    (¬capturing → empty → ¬inside → exec i s = .next (s.raise .bounds 0 a)) ∧
    (¬capturing → empty → inside → a.toNat % 8 ≠ 0 → exec i s = .next (s.raise .illegal 8 a)) ∧
    (¬capturing → empty → inside → a.toNat % 8 = 0 → ∀ s1 f, s.fetchWords a 4 = (s1, .error f) →
      exec i s = match f with
        | .raise k d => .next (s1.raise k d a)
        | .dead => s1.tableDead
        | .wait => .next s1.stall) ∧
    (¬capturing → empty → inside → a.toNat % 8 = 0 → ∀ s1 ws, s.fetchWords a 4 = (s1, .ok ws) →
      (badSafePoint c s1.hot.wa ws = true → exec i s = .next (s1.raise .illegal 8 a)) ∧
      (badSafePoint c s1.hot.wa ws = false →
        ∃ t, exec i s = .next t ∧ t.hot.spd = 0 ∧ s1.hot.completes t.hot s1.hot.nxt ∧ s1.sameMemory t ∧
          (if s1.preempting s1.core s1.hot.ctx s1.hot.lcore = true ∧ s1.hot.trapcause.getLsbD 9 = false then
            t.hot.phase = .saving a (ws.getD 0 0 % 2 ^ 32) (ws.getD 0 0 / 2 ^ 32) (ws.getD 1 0 % 2 ^ 8) ∧
              t.agenda = s1.agenda ++ [Event.safePointSave s1.hotId]
          else t.hot.phase = s1.hot.phase ∧ t.agenda = s1.agenda) ∧
          t.hot = { s1.hot with
            spd := t.hot.spd, phase := t.hot.phase, pc := t.hot.pc, retired := t.hot.retired, did := t.hot.did } ∧
          s1.sameOutside { t with agenda := s1.agenda }))

/-- Words of a supervisor (R211 to R215), whole: `TLBINV`, `HALT` and `CAPMINT`, as the three parts above say. -/
def Obligations.SupervisorWordsTakeEffect : Prop :=
  tlbinvRemovesCoveredEntries ∧ haltMakesTheContextDead ∧ capmintRequestsACapability

/-! ## Messages and tasks (R38, R50, R51, R288 to R294, R459) -/

/-- A message of R38: its handler, and the fields of its meta word, with FLAGS zero. -/
def isMessage (m : Msg) (handler : Word) (type plen prio ctx src dst : Nat) (payload : List Word) : Prop :=
  m.handler = handler ∧ m.payload = payload ∧
    m.metaWord = word (dst % 2 ^ 16 + src % 2 ^ 16 * 2 ^ 16 + ctx % 2 ^ 8 * 2 ^ 32 + type * 2 ^ 40 + plen * 2 ^ 44 +
      prio % 4 * 2 ^ 48)

/-- The event with which a message sets out to a core of this package: an arrival there from the stop of the issuing core,
or, where it crosses a die boundary, an arrival across the side of the die that its route enters (R321, R493). -/
def setsOut (s : State) (core : Nat) (m : Msg) (c : Creator) (e : Event) : Prop :=
  match s.entrySide s.die (dieOfCore core) with
  | some side => e = .blockMessage (dieOfCore core) side core m c
  | none => e = .taskMessageArrival core (coreStop (pcoreOf s.core)) m c

/-- What a message word leaves alone: all of the slot but its creations, its scoreboard, `pc` and `RETIRED`; all of the
package but what is on its way. -/
def messageFrame (s t : State) : Prop :=
  t.hot = { s.hot with
    creations := t.hot.creations, ownCreations := t.hot.ownCreations, busy := t.hot.busy, pc := t.hot.pc,
    retired := t.hot.retired, did := t.hot.did } ∧
  s.sameOutside { t with agenda := s.agenda } ∧ s.sameMemory t

/-- What a creation leaves to wait for: rd is scoreboarded, and the creation is outstanding, one that `SLIM` counts or one
of the activation's own logical core (R50, R289). -/
def awaitsCreation (s t : State) (d : GReg) (counted : Bool) : Prop :=
  t.hot.busy = (if d = 0 then s.hot.busy else (d, .task) :: s.hot.busy) ∧
  t.hot.creations = s.hot.creations + counted.toNat ∧ t.hot.ownCreations = s.hot.ownCreations + (!counted).toNat

/-- What a message that expects no task id leaves as it is. -/
def awaitsNothing (s t : State) : Prop :=
  t.hot.busy = s.hot.busy ∧ t.hot.creations = s.hot.creations ∧ t.hot.ownCreations = s.hot.ownCreations

/-- `SEND`, `SPAWN` and `LAUNCH` to a core of this package (R288, R289, R50), where the interface retries nothing, and no
creation limit holds the word back; `s1` is the state after the core-table lookup. The message carries g[rs1], the
logical core and PRIO of g[rs2], and g[pb] to g[pb + PLEN − 1]. `SEND` writes no register. `SPAWN`, to a core of the same
die only, and `LAUNCH` scoreboard rd for the task id and count a creation, but a `SPAWN` to its own logical core. -/
def messageWordsSendTheirMessage : Prop :=
  ∀ (s s1 : State) (d a b : GReg) (p : Fin 32) (n : Plen) (k : Nat),
    p.val + n.val ≤ 32 → s.hot.retrying = 0 →
    let w := s.g b
    let dst := w.toNat % 2 ^ 16
    s.destination s.core s.hot.ctx dst = (s1, .here k) →
    let payload := (List.range n.val).map fun j => s.g (Fin.ofNat 32 (p.val + j))
    let sends := fun (t : State) (c : Creator) => ∃ m e,
      isMessage m (s.g a) 0 n.val (w.toNat / 2 ^ 16) s.hot.ctx s.hot.lcore dst payload ∧ setsOut s1 k m c e ∧
      t.agenda = s1.agenda ++ [e] ∧ s1.hot.completes t.hot s1.hot.nxt ∧ messageFrame s1 t
    (∃ t, exec (.send a b p n) s = .next t ∧ sends t (.send s1.hotId s1.hot.gen) ∧ awaitsNothing s1 t) ∧
    (w.toNat / 2 ^ 18 % 2 = 0 → dieOfCore k = s1.die →
      let counted := decide (dst ≠ s.hot.lcore)
      (counted = true → s.hot.creations < s.hot.slim) →
        ∃ t, exec (.spawn d a b p n) s = .next t ∧ sends t (.slot s1.hotId s1.hot.gen d counted) ∧
          awaitsCreation s1 t d counted) ∧
    (w.toNat / 2 ^ 18 % 2 = 0 → dieOfCore k ≠ s1.die → s.hot.creations < s.hot.slim → dst ≠ s.hot.lcore →
      exec (.spawn d a b p n) s = .next (s1.raise .message 2 w)) ∧
    (s.hot.creations < s.hot.slim →
      ∃ t, exec (.launch d a b p n) s = .next t ∧ sends t (.slot s1.hotId s1.hot.gen d true) ∧
        awaitsCreation s1 t d true)

/-- `SEND` and `LAUNCH` to a core of another package leave by the fabric port of its route (R37, R288, R289), and the
acknowledgement of a `LAUNCH` is awaited from there; `SPAWN` to one raises MESSAGE detail 2 with g[rs2]: DEDUCED (log 86), for
R459 speaks of another die. -/
def messageWordsLeaveThePackage : Prop :=
  ∀ (s s1 : State) (d a b : GReg) (p : Fin 32) (n : Plen) (port : Nat),
    p.val + n.val ≤ 32 → s.hot.retrying = 0 →
    let w := s.g b
    s.destination s.core s.hot.ctx (w.toNat % 2 ^ 16) = (s1, .away port) →
    let leaves := fun (t : State) (owed : List Creator) => ∃ m,
      isMessage m (s.g a) 0 n.val (w.toNat / 2 ^ 16) s.hot.ctx s.hot.lcore (w.toNat % 2 ^ 16)
        ((List.range n.val).map fun j => s.g (Fin.ofNat 32 (p.val + j))) ∧
      t.package = { s1.package with
        fabricOut := s1.package.fabricOut ++ [(port, m)], owed := s1.package.owed ++ owed } ∧
      t.agenda = s1.agenda ∧ s1.hot.completes t.hot s1.hot.nxt ∧ messageFrame s1 { t with package := s1.package }
    (∃ t, exec (.send a b p n) s = .next t ∧ leaves t [] ∧ awaitsNothing s1 t) ∧
    (s.hot.creations < s.hot.slim →
      ∃ t, exec (.launch d a b p n) s = .next t ∧ leaves t [.slot s1.hotId s1.hot.gen d true] ∧
        awaitsCreation s1 t d true) ∧
    (w.toNat / 2 ^ 18 % 2 = 0 → s.hot.creations < s.hot.slim →
      exec (.spawn d a b p n) s = .next (s1.raise .message 2 w))

/-- Message words that wait or are refused (R50, R289, R424, R459): a payload past g31 raises ILLEGAL detail 7; `SPAWN`
with ANY posts a work-queue record instead of a message; a creation at the limit `SLIM` stalls, and so does any of them
while the interface retries; an unmapped logical core raises MESSAGE detail 1 and a shut route detail 3, with g[rs2], and of a
`SPAWN` too detail 1, but detail 2 where the entry names another package (DEDUCED, log 86). -/
def messageWordsWaitOrAreRefused : Prop :=
  ∀ (s s1 : State) (d a b : GReg) (p : Fin 32) (n : Plen),
    let w := s.g b
    let all := fun (f : Instr → Prop) => f (.send a b p n) ∧ f (.spawn d a b p n) ∧ f (.launch d a b p n)
    let any := w.toNat / 2 ^ 18 % 2 = 1
    (32 < p.val + n.val → all fun i => exec i s = .next (s.raise .illegal 7 (s.wordVal i))) ∧
    (p.val + n.val ≤ 32 → 0 < s.hot.retrying → all fun i => exec i s = .next s.stall) ∧
    (p.val + n.val ≤ 32 → s.hot.retrying = 0 → s.hot.slim ≤ s.hot.creations →
      exec (.launch d a b p n) s = .next s.stall ∧
      (any ∨ w.toNat % 2 ^ 16 ≠ s.hot.lcore → exec (.spawn d a b p n) s = .next s.stall)) ∧
    (p.val + n.val ≤ 32 → s.hot.retrying = 0 → s.hot.creations < s.hot.slim → any →
      ∀ first count, s.gangRange s.core s.hot.ctx s.hot.lcore = some (first, count) →
        let s2 := s.ctMiss s.core s.hot.ctx s.hot.lcore
        ∃ t m, exec (.spawn d a b p n) s = .next t ∧
          isMessage m (s.g a) 0 n.val (w.toNat / 2 ^ 16) s.hot.ctx s.hot.lcore (w.toNat % 2 ^ 16)
            ((List.range n.val).map fun j => s.g (Fin.ofNat 32 (p.val + j))) ∧
          t.agenda = s2.agenda ++
            [Event.workQueueRecordArrival s2.die ⟨m, first, count, 0, 0, .slot s2.hotId s2.hot.gen d true⟩] ∧
          awaitsCreation s2 t d true ∧ s2.hot.completes t.hot s2.hot.nxt ∧ messageFrame s2 t) ∧
    (p.val + n.val ≤ 32 → s.hot.retrying = 0 → s.hot.creations < s.hot.slim →
      ∀ detail, detail = 1 ∨ detail = 3 →
      s.destination s.core s.hot.ctx (w.toNat % 2 ^ 16) = (s1, .refused detail) →
        exec (.send a b p n) s = .next (s1.raise .message detail w) ∧
        exec (.launch d a b p n) s = .next (s1.raise .message detail w) ∧
        (¬any → exec (.spawn d a b p n) s = .next (s1.raise .message (if detail = 1 then 1 else 2) w)))

/-- An activation that has ended (R292): the slot is free, its waits, queues, tokens and shipped words are gone, its
register files stay until the next activation starts. -/
def ended (x y : Slot) : Prop :=
  y.active = false ∧ y.gen = x.gen + 1 ∧ y.lastCtx = some x.ctx ∧ y.retired = x.retired + 1 ∧ y.did = .done ∧
    y.q = Vector.replicate 4 [] ∧ y.tokens = Vector.replicate 8 none ∧ y.window = Vector.replicate 8 none ∧
    y.held = [] ∧ y.vq = [] ∧ y.rep = none ∧ y.busy = [] ∧ y.creations = 0 ∧ y.ownCreations = 0 ∧ y.reductions = [] ∧
    y.stub = none ∧
    y.g = x.g ∧ y.v = x.v ∧ y.m = x.m ∧ y.fcsr = x.fcsr ∧ y.xset = x.xset

/-- The words that end an activation, `DONE`, `YIELD` and `MIGR` (R290, R292, R293, R51), for an activation whose logical
core is under no pre-emption and that runs no rebuild stub: the slot is free and its core looks for a message to
dispatch. `YIELD` first sends its own core the migrate message with continuation `next`, and `MIGR` sends the core of
the address's owner one with its continuation, by a fabric port where that core is in another package; both carry g8 to g15.
An owner that no valid entry maps, or that no open route reaches, raises MESSAGE with the address. Nothing else changes. -/
def endingWordsFreeTheSlot : Prop :=
  ∀ (s s0 s1 : State) (a : GReg) (i : BitVec 14) (l k : Nat),
    (∀ r, s.hot.rep = some r → r.todo = 0) → s.hot.stub = none →
    let frees := fun (t from_ : State) (sent : List Event) =>
      ended s.hot t.hot ∧ t.agenda = from_.agenda ++ sent ++ [Event.dispatch s.core] ∧
      from_.sameOutside { t with agenda := from_.agenda } ∧ from_.sameMemory t
    let payload := (List.range 8).map fun j => s.g (Fin.ofNat 32 (8 + j))
    let cont := if i = 0 then s.hot.nxt else s.hot.wa + wordOfInt (i.toInt * 4)
    (s.preempting s.core s.hot.ctx s.hot.lcore = false → ∃ t, exec .done s = .next t ∧ frees t s []) ∧
    (s.preempting s.core s.hot.ctx s.hot.lcore = false → s.hot.reductions = [] → s.hot.retrying = 0 →
      ∃ t m, exec .yield s = .next t ∧
        isMessage m s.hot.nxt 1 8 s.hot.prio s.hot.ctx s.hot.lcore s.hot.lcore payload ∧
        frees t s [Event.taskMessageArrival s.core (coreStop (pcoreOf s.core)) m (.send s.hotId s.hot.gen)]) ∧
    (s.hot.reductions = [] → s.hot.retrying = 0 → s.hot.creations < s.hot.slim →
      s.ownerAccess s.hot.ctx (s.g a) = (s0, .lcore l) → s0.destination s0.core s0.hot.ctx l = (s1, .here k) →
      s1.preempting s1.core s1.hot.ctx s1.hot.lcore = false →
      ∃ t m e, exec (.migr a i) s = .next t ∧
        isMessage m cont 1 8 s.hot.prio s.hot.ctx s.hot.lcore l payload ∧ setsOut s1 k m (.migr s1.hotId) e ∧ frees t s1 [e]) ∧
    (∀ port, s.hot.reductions = [] → s.hot.retrying = 0 → s.hot.creations < s.hot.slim →
      s.ownerAccess s.hot.ctx (s.g a) = (s0, .lcore l) → s0.destination s0.core s0.hot.ctx l = (s1, .away port) →
      s1.preempting s1.core s1.hot.ctx s1.hot.lcore = false →
      ∃ t m, exec (.migr a i) s = .next t ∧
        isMessage m cont 1 8 s.hot.prio s.hot.ctx s.hot.lcore l payload ∧
        t.package = { s1.package with fabricOut := s1.package.fabricOut ++ [(port, m)] } ∧
        frees { t with package := s1.package } s1 []) ∧
    (∀ detail, s.hot.reductions = [] → s.hot.retrying = 0 → s.hot.creations < s.hot.slim →
      s.ownerAccess s.hot.ctx (s.g a) = (s0, .lcore l) → s0.destination s0.core s0.hot.ctx l = (s1, .refused detail) →
      exec (.migr a i) s = .next (s1.raise .message detail (s.g a))) ∧
    (s.hot.reductions = [] → s.hot.retrying = 0 → s.hot.creations < s.hot.slim →
      s.ownerAccess s.hot.ctx (s.g a) = (s0, .outside) → exec (.migr a i) s = .next (s0.raise .access 5 (s.g a))) ∧
    (s.hot.reductions ≠ [] → exec .yield s = .next s.stall ∧ exec (.migr a i) s = .next s.stall)

/-- In an incomplete capture `DONE`, `YIELD` and `MIGR` raise REP_MISUSE detail 2 with the word (R433). -/
def endingWordsInACaptureAreMisuse : Prop :=
  ∀ (s : State) (a : GReg) (i : BitVec 14) (r : Rep), s.hot.rep = some r → r.todo ≠ 0 →
    let traps := fun (j : Instr) => exec j s = .next (s.raise .repMisuse 2 (s.wordVal j))
    traps .done ∧ traps .yield ∧ traps (.migr a i)

/-- `TCANCEL` and `TQRY` (R294): the request goes to the core that holds the logical core of the task id, and rd is
scoreboarded for its answer; a logical core that no valid entry maps answers at once, 1 for `TCANCEL` and 2 for `TQRY`
(DEDUCED, log 86). A core of another package answers with a value of the rule's fields that is free in the model (DESIGN CHOICE,
log 26). -/
def Obligations.TaskQueriesAskTheHolder : Prop :=
  ∀ (s : State) (d a : GReg) (query : Bool),
    let i : Instr := if query then .tqry d a else .tcancel d a
    let id := (s.g a).toNat % 2 ^ 32
    (s.ctLookup s.core s.hot.ctx (id / 2 ^ 16) = .unmapped →
      let s1 := s.ctMiss s.core s.hot.ctx (id / 2 ^ 16)
      writesG s1 (exec i s) d (if query then 2 else 1) s1.hot.nxt) ∧
    (∀ raw e, s.ctLookup s.core s.hot.ctx (id / 2 ^ 16) = .entry raw e → e.pkg = s.pkg →
      let s1 := s.ctFill s.core s.hot.ctx (id / 2 ^ 16) raw
      ∃ t, exec i s = .next t ∧
        t.agenda = s1.agenda ++
          [Event.taskControlRequest (coreKey e.die e.pcore) s1.hotId s1.hot.gen d s1.hot.ctx id query] ∧
        t.hot.busy = (if d = 0 then s1.hot.busy else (d, .control) :: s1.hot.busy) ∧
        t.hot.creations = s1.hot.creations ∧ t.hot.ownCreations = s1.hot.ownCreations ∧
        s1.hot.completes t.hot s1.hot.nxt ∧ messageFrame s1 t) ∧
    (∀ raw e, s.ctLookup s.core s.hot.ctx (id / 2 ^ 16) = .entry raw e → e.pkg ≠ s.pkg →
      let s1 := (s.ctFill s.core s.hot.ctx (id / 2 ^ 16) raw).bump
      ∃ x : Word, writesG s1 (exec i s) d x s1.hot.nxt ∧
        (query = false → x.toNat ≤ 1) ∧
        (query = true → x.toNat % 2 ^ 8 ≤ 2 ∧ x.toNat / 2 ^ 8 ≤ 64))

/-! ## Barriers (R295 to R297, R467) -/

/-- A legal barrier word: a scope other than core and sys, and a descriptor with zero fields zero and OP at most 4. -/
def barrierLegal (x : Word) (sc : Scope) : Prop :=
  sc ≠ .core ∧ sc ≠ .sys ∧ x.toNat / 2 ^ 11 = 0 ∧ x.toNat / 2 ^ 4 % 2 ^ 4 = 0 ∧ x.toNat / 2 ^ 8 % 2 ^ 3 ≤ 4

/-- `BARA` (R296), of a participant that has not contributed to the open episode: it returns at once, its unread result is
dropped, and its OP and operand join the episode, at once where the slot has no reduction to be applied, and else held back
with those it waits for (R139); if it is the last participant to join, the episode's completion is on its way. A second
`BARA` in an episode stalls (R467), and so does that of a logical core which is no participant of it (DESIGN CHOICE, log 52). `x` is the barrier as the slot's gang, scope, unit and descriptor name it in `s1`; `s2` is that state after the reads
of the gang's entries, which an episode that is open already does not make. An illegal scope raises ILLEGAL detail 5, an illegal descriptor detail 8. -/
def baraContributes : Prop :=
  ∀ (s s1 s2 : State) (a b : GReg) (sc : Scope) (look : CtLookup) (x : Barrier) (ms : List Nat),
    let v := s.g a
    let s0 := s.ctMiss s.core s.hot.ctx s.hot.lcore
    (sc = .core ∨ sc = .sys → exec (.bara a b sc) s = .next (s.raise .illegal 5 (s.wordVal (.bara a b sc)))) ∧
    (sc ≠ .core → sc ≠ .sys → ¬barrierLegal v sc → exec (.bara a b sc) s = .next (s.raise .illegal 8 v)) ∧
    (barrierLegal v sc → look = s.ctLookup s.core s.hot.ctx s.hot.lcore → look ≠ .unreadable →
      let gang := gangOf s.hot.lcore look
      let unit := scopeUnit sc s.die (pcoreOf s.core)
      let op := v.toNat / 2 ^ 8 % 2 ^ 3
      let isOpen := x.given ≠ [] ∨ x.early ≠ []
      let contributed := (∃ y : Nat × Nat × Word, y ∈ x.given ∧ y.1 = s1.hot.lcore) ∨ (∃ y ∈ x.early, y.lcore = s1.hot.lcore)
      s0.getBarrier gang.1 sc unit (v.toNat % 2 ^ 4) = (s1, x) →
      (isOpen → s2 = s1) → (¬isOpen → s2 = s1.gangTouch s1.core s1.hot.ctx gang.1 gang.2) →
      (¬isOpen → s1.participants s1.core s1.hot.ctx s1.hot.lcore sc unit gang.1 gang.2 = some ms) →
      (isOpen → ms = x.members) →
      (contributed ∨ s1.hot.lcore ∉ ms → exec (.bara a b sc) s = .next s2.stall) ∧
      (¬contributed → s1.hot.lcore ∈ ms →
        ∃ t y, exec (.bara a b sc) s = .next t ∧ y ∈ t.barriers ∧ y.key = x.key ∧ y.members = ms ∧
          y.results = x.results.filter (·.1 != s1.hot.lcore) ∧
          (∀ z, z.key ≠ x.key → (z ∈ t.barriers ↔ z ∈ s2.barriers)) ∧
          (s1.hot.reductions = [] →
            y.given = x.given ++ [(s1.hot.lcore, op, s.g b)] ∧ y.early = x.early ∧
            t.agenda = s2.agenda ++ (if ∀ m ∈ ms, ∃ (z : Nat × Nat × Word), z ∈ y.given ∧ z.1 = m
              then [Event.barrierEpisodeCompletion s1.hot.ctx gang.1 unit sc x.id] else [])) ∧
          (s1.hot.reductions ≠ [] →
            y.given = x.given ∧ y.early = x.early ++ [⟨s1.hot.lcore, op, s.g b, s1.hot.reductions⟩] ∧
            t.agenda = s2.agenda) ∧
          onlyMoves s2 (.next { t with agenda := s2.agenda, barriers := s2.barriers }) s2.hot.nxt))

/-- `BARW` (R296, R467): with a result of the last episode for its logical core it writes the value to rd and the code to
gS; woken by the episode it waited for, likewise; with a pre-emption of its context pending on the core it writes 0 to gS and leaves rd; else it
waits. rd and gS the same register other than `g0` raise ILLEGAL detail 7. -/
def barwReturnsOrWaits : Prop :=
  ∀ (s s1 : State) (d a g : GReg) (sc : Scope) (look : CtLookup) (x : Barrier),
    let v := s.g a
    let s0 := s.ctMiss s.core s.hot.ctx s.hot.lcore
    let i : Instr := .barw d a g sc
    let returns := fun (t : State) (value : Word) (code : Nat) =>
      (∀ r, t.g r = if r = 0 then 0 else if r = g then word code else if r = d then value else s.g r) ∧
      s.hot.completes t.hot s.hot.nxt ∧ t.hot.wait = none ∧ t.hot.v = s.hot.v ∧ t.hot.m = s.hot.m ∧
      t.hot.q = s.hot.q ∧ t.hot.fcsr = s.hot.fcsr
    (d = g → d ≠ 0 → exec i s = .next (s.raise .illegal 7 (s.wordVal i))) ∧
    ((d ≠ g ∨ d = 0) →
      (∀ value code, s.hot.wait = some (.combined value code) →
        ∃ t, exec i s = .next t ∧ returns t value code ∧ s.sameMemory t ∧ s.sameOutside t) ∧
      ((∀ value code, s.hot.wait ≠ some (.combined value code)) → barrierLegal v sc →
        look = s.ctLookup s.core s.hot.ctx s.hot.lcore → look ≠ .unreadable →
        (s.pendingPreempt s.core s.hot.ctx = true →
          ∃ t, exec i s = .next t ∧ (∀ r, t.g r = if r = g then 0 else s.g r) ∧ s.hot.completes t.hot s.hot.nxt ∧
            t.hot.wait = none ∧ s0.sameOutside t ∧ s0.sameMemory t) ∧
        (s.pendingPreempt s.core s.hot.ctx = false → s.hot.wait = none →
          s0.getBarrier (gangOf s.hot.lcore look).1 sc (scopeUnit sc s.die (pcoreOf s.core)) (v.toNat % 2 ^ 4) = (s1, x) →
          (∀ value code, x.results.find? (·.1 == s1.hot.lcore) = some (s1.hot.lcore, value, code) →
            ∃ t, exec i s = .next t ∧ returns t value code ∧ s0.sameMemory t) ∧
          ((∀ y ∈ x.results, y.1 ≠ s1.hot.lcore) →
            ∃ t, exec i s = .next t ∧ t.hot = { s1.hot with wait := some (.barrier x.key), did := .stalled } ∧
              x ∈ t.barriers ∧ s0.sameMemory t))))

/-- Words that end an activation (R290 to R293, R433), whole: outside a capture and inside one, as the two parts above
say. -/
def Obligations.EndingWordsFreeTheSlot : Prop := endingWordsFreeTheSlot ∧ endingWordsInACaptureAreMisuse

/-- Barrier words (R295 to R297, R467), whole: `BARA` and `BARW`, as the two parts above say. -/
def Obligations.BarrierWordsContributeAndWait : Prop := baraContributes ∧ barwReturnsOrWaits

/-- Message words (R38, R50, R288, R289), whole: the message that leaves, and the waits and refusals, as the three parts above say. -/
def Obligations.MessageWordsSendWaitOrAreRefused : Prop :=
  messageWordsSendTheirMessage ∧ messageWordsLeaveThePackage ∧ messageWordsWaitOrAreRefused

/-! ## Loads and stores (R273 to R278, R421) -/

/-- The little-endian value of bytes (R5). -/
def leValue (bs : List Byte) : Nat := bs.foldr (fun b t => b.toNat + 256 * t) 0

/-- Byte `j` of a number. -/
def byteOf (x j : Nat) : Byte := BitVec.ofNat 8 (x / 256 ^ j)

/-- An `n`-bit number read as signed. -/
def signedOf (n x : Nat) : Int := if x % 2 ^ n < 2 ^ (n - 1) then (x % 2 ^ n : Int) else (x % 2 ^ n : Int) - 2 ^ n

/-- Classes whose bytes lie in physical memory itself for a thread: COH, HCO, HNC, and scratchpad through window w0. -/
def plainKind (k : MemKind) : Prop := k = .coh ∨ k = .hco ∨ k = .hnc ∨ k = .spad 0

/-- A place whose bytes lie in physical memory itself for a store: of those classes, of any scratchpad window, of DEV outside the
device registers, or of an untyped accumulator line (R103, R104, R115). -/
def plainPlace (s : State) (p : Phys) : Prop :=
  plainKind p.kind ∨ (∃ w, p.kind = .spad w) ∨ (p.kind = .dev ∧ s.isDevReg p.pa = false) ∨
    ∃ n, p.kind = .acc n ∧ s.typed (p.pa / 128 * 128) = false

/-- The stored form of the bytes of an element (R103): through an expanded window each 4-byte element narrowed, else the bytes. -/
def formAt (p : Phys) (bs : List Byte) : List Byte :=
  match p.kind with
  | .spad (w + 1) => (List.range (bs.length / 4)).flatMap fun k =>
      (List.range (storedBytes (w + 1))).map (byteOf (narrowElem (w + 1) (leValue ((bs.drop (4 * k)).take 4))))
  | _ => bs

/-- The pieces of a store over checked places, in order: where each begins, and its stored bytes. -/
def pieces : List (Phys × Elem) → List Byte → List (Nat × List Byte)
  | [], _ => []
  | q :: t, bs => (q.1.pa, formAt q.1 (bs.take q.2.n)) :: pieces t (bs.drop q.2.n)

/-- A piece covers an address. -/
def pieceCovers (w : Nat × List Byte) (x : Nat) : Prop := w.1 ≤ x ∧ x < w.1 + w.2.length

/-- After pieces have been stored, `f` gives of every address the byte of the last piece that covers it, and of an address that
none covers what `g` gives. -/
def holdsPieces (f g : Nat → Byte) (ws : List (Nat × List Byte)) : Prop :=
  (∀ x, (∀ w ∈ ws, ¬pieceCovers w x) → f x = g x) ∧
  (∀ before w after x, ws = before ++ w :: after → pieceCovers w x → (∀ y ∈ after, ¬pieceCovers y x) →
    f x = w.2.getD (x - w.1) 0)

/-- The elements of a scalar access of 1, 2, 4, 8 or 16 bytes through no expanded window cover its bytes in order: an
aligned access is one element, a misaligned one its single bytes (R275, R421). -/
def scalarElementsCoverTheAccess : Prop :=
  ∀ (va : Word) (n : Nat), n ∈ [1, 2, 4, 8, 16] →
    let es := (scalarElems va n false).map (·.2)
    (va.toNat % n = 0 → es = [⟨va, n, 1, false⟩]) ∧
    (va.toNat % n ≠ 0 → es.length = n ∧ ∀ j, (h : j < es.length) → es[j] = ⟨va + word j, 1, 1, true⟩) ∧
    (es.flatMap fun e => (List.range e.n).map fun j => e.va + word j) = (List.range n).map fun j => va + word j

/-- The checks of one element, in the order of R420 rank 10: an address that is not a multiple of the alignment is
MISALIGNED before anything else; then the cause of the translation, LOAD_PAGE or STORE_PAGE by whether the access has a
write half, or ACCESS (R438, R440): through an expanded window, mapped or not, MISALIGNED first where the address is no multiple
of 4, then detail 4 where the window does not allow the form, and else the detail of the place. A load or store of memory that
caches may hold then meets RANGE_LOCK at the first entry of the table
that locks its bytes for writing, or for a store at all (R442); else a load meets POISON at its first poisoned word, of
software-managed memory that in the core's own copy, or as the die's L2 shows it (R444); else it passes. A fault found is raised at
the word with the faulting address (R421): of POISON the element's, of an element of a vector or a byte of a misaligned access,
and else that of the poisoned word, which is the model's inference (DEDUCED, log 20). -/
def accessChecksFollowTheirOrder : Prop :=
  ∀ (s s1 : State) (w : Who) (die : Nat) (o : AccOp) (e : Elem) (d : Nat) (f : AccFault) (c : Cause) (p : Phys),
    (e.va.toNat % e.align ≠ 0 → s.checkElem w die o e = (s, .error ⟨0, some .misaligned, 0, e.va⟩)) ∧
    (e.va.toNat % e.align = 0 → s.translate w e.va o.need = (s1, .error (.page d)) →
      s.checkElem w die o e = (s1, .error ⟨1, some (if o.writes then .storePage else .loadPage), d, e.va⟩)) ∧
    (∀ k, e.va.toNat % e.align = 0 → s.translate w e.va o.need = (s1, .error (.access d k)) →
      let allowed : Bool := o == .maint || ((o == .load || o == .store) && [4, 8, 16, 64].contains e.n)
      s.checkElem w die o e = (s1, .error (
        if k = 0 ∨ k = 7 then ⟨2, some .access, d, e.va⟩
        else if e.va.toNat % 4 ≠ 0 then ⟨0, some .misaligned, 0, e.va⟩
        else ⟨2, some .access, if allowed then d else 4, e.va⟩))) ∧
    (e.va.toNat % e.align = 0 → o = .load ∨ o = .store → s.translate w e.va o.need = (s1, .ok p) → 0 < e.n →
      let meets := fun (x : Nat × Lock) => x.2.ctx = w.ctx ∧ x.2.lo < e.va.toNat + e.n ∧ e.va.toNat < x.2.hi ∧
        (o = .store ∨ x.2.write = true)
      let table := (s1.getDie die).locks
      let own := (s1.getCore w.core).l1p
      let reads := fun (poison : List Nat) =>
        (∀ i < e.n, (p.pa + i) / 8 ∈ poison → (∀ j < i, (p.pa + j) / 8 ∉ poison) →
          s.checkElem w die o e = (s1, .error ⟨5, some .poison, 1,
            if e.mis = true ∨ e.align = 4 then e.va else e.va + word ((p.pa + i) / 8 * 8) - word p.pa⟩)) ∧
        ((∀ i < e.n, (p.pa + i) / 8 ∉ poison) → s.checkElem w die o e = (s1, .ok p))
      (p.kind = .coh ∨ p.kind = .hco ∨ p.kind = .swm ∨ p.kind = .domain →
        (∀ before x after, table = before ++ x :: after → (∀ y ∈ before, ¬meets y) → meets x →
          s.checkElem w die o e = (s1, .error ⟨4, some .rangeLock, x.1, e.va⟩)) ∧
        ((∀ x ∈ table, ¬meets x) → o = .store → s.checkElem w die o e = (s1, .ok p))) ∧
      ((∀ x ∈ table, ¬meets x) → o = .load →
        (p.kind = .coh ∨ p.kind = .hco → reads s1.poison) ∧
        (p.kind = .swm ∨ p.kind = .domain → p.pa % 128 + e.n ≤ 128 →
          reads (if tabHas (s1.getCore w.core).l1c (p.pa / 128 * 128) then own else s1.l2Words (w.core / 256) p)))) ∧
    (f.cause = some c → s.accessFault f = s.raise c f.detail f.va)

/-- What a translation changes in memory (R98): of a page translation, no byte where a TLB answers or the walk fails, no
byte outside the PTE of the leaf that the walk finds, and after it that PTE has A set, and D after a write. Translation at
a place of this package then changes no other byte, and neither does one through the aperture whose core-table entry the
core holds where that names no other package; no register of the slot changes at all. -/
def Obligations.TranslationChangesOnlyThePte : Prop :=
  ∀ (s : State) (w : Who) (va : Word) (n : Need), s.memOk →
    let t := (s.transPage w va n).1
    let u := (s.translate w va n).1
    let v := va.toNat % 2 ^ 57
    let walked := s.walk (dieOfCore w.core) (s.getCtx w.ctx).asidr v
    u.hot = s.hot ∧
    (s.tlbFind w.core w.asid v n.write ≠ none → s.sameMemory t) ∧
    (∀ l, walked = .ok l → s.sameMemoryOutside t l.pteAddr 8) ∧
    ((∀ l, walked ≠ .ok l) → s.sameMemory t) ∧
    (∀ l pa, walked = .ok l → s.tlbFind w.core w.asid v n.write = none → (s.transPage w va n).2 = .ok pa →
      t.readMem l.pteAddr 8 / 2 ^ 6 % 2 = 1 ∧ (n.write = true → t.readMem l.pteAddr 8 / 2 ^ 7 % 2 = 1)) ∧
    (canonical va = true → inAperture va = false →
      (∀ pa pkg off, (s.transPage w va n).2 = .ok pa → region s.pkg pa ≠ .domain pkg off) → t.sameMemory u) ∧
    (inAperture va = true →
      let k := (va.toNat - 0x00F0000000000000) % 2 ^ 48 / (262144 * windowScale ((va.toNat - 0x00F0000000000000) / 2 ^ 48))
      (∃ y ∈ (s.getCore w.core).ctCache, y.1 = w.ctx ∧ y.2.1 = k) →
      (∀ raw e, s.ctLookup w.core w.ctx k = .entry raw e → e.pkg = s.pkg) → s.sameMemory u)

/-- Scalar loads (R273): with the elements checked (`s1`), no wait of the memory, and every line that hardware keeps
consistent in the core's cache, rd receives the bytes read, extended as the rule says (`LDQ`: both registers of the pair);
everything else is as reading left it (`s2`). A fault of the check is raised, a wait stalls, and so does a load that misses,
once it has asked for its lines (R159). -/
def Obligations.ScalarLoadsWriteTheBytesRead : Prop :=
  ∀ (s s1 s2 : State) (d a : GReg) (q : GPair) (i : BitVec 14) (ps : List (Phys × Elem)) (bs : List Byte) (f : AccFault),
    let va := s.g a + wordOfInt i.toInt
    let x := leValue bs
    let loads := fun (j : Instr) (n : Nat) (v : Word) =>
      let checked := s.checkAll s.me s.die .load (scalarElems va n (s.expanded s.me va))
      (checked = (s1, some f, ps) → exec j s = .next (s1.accessFault f)) ∧
      (checked = (s1, none, ps) → s1.loadWaits ps = true → exec j s = .next s1.stall) ∧
      (checked = (s1, none, ps) → s1.loadWaits ps = false → s1.loadsHit ps = false →
        exec j s = .next (s1.askLoads ps).stall) ∧
      (checked = (s1, none, ps) → s1.loadWaits ps = false → s1.loadsHit ps = true →
        s1.readAll (some s1.core) ps = (s2, bs) → writesG s2 (exec j s) d v s2.hot.nxt)
    loads (.ldb d a i) 1 (wordOfInt (signedOf 8 x)) ∧ loads (.ldbn d a i) 1 (word x) ∧
    loads (.ldh d a i) 2 (wordOfInt (signedOf 16 x)) ∧ loads (.ldhn d a i) 2 (word x) ∧
    loads (.ldw d a i) 4 (wordOfInt (signedOf 32 x)) ∧ loads (.ldwn d a i) 4 (word x) ∧
    loads (.ldd d a i) 8 (word x) ∧
    (s.checkAll s.me s.die .load (scalarElems va 16 (s.expanded s.me va)) = (s1, none, ps) →
      s1.loadWaits ps = false → s1.loadsHit ps = true → s1.readAll (some s1.core) ps = (s2, bs) →
      ∃ t, exec (.ldq q a i) s = .next t ∧
        (∀ r, t.g r = if r = 0 then 0 else if r.val = 2 * q.val then word (x % 2 ^ 64)
          else if r.val = 2 * q.val + 1 then word (x / 2 ^ 64) else s2.g r) ∧
        s2.hot.completes t.hot s2.hot.nxt ∧ s2.hot.sameButG t.hot ∧ s2.sameOutside t ∧ s2.sameMemory t)

/-- What a read of bytes of one line returns (R105, R125, R127, R234, R287): byte by byte the slot's latest held store to
it, else, at a place of a plain class, memory. At a software-managed place it is the core's dirty byte, else the line as
the core's L1 took it, and where it has not taken it the line as the die's L2 shows it, which the L1 now takes; that is
memory where the L2 has neither a copy nor dirty bytes of it. No byte of memory changes. That a cache takes the whole line at
the first access is DEDUCED (log 25). -/
def readsReturnTheVisibleBytes : Prop :=
  ∀ (s : State) (p : Phys) (n c : Nat), p.pa % 128 + n ≤ 128 →
    let line := p.pa / 128 * 128
    let l1 := (s.getCore c).l1
    let l1c := (s.getCore c).l1c
    let l2 := s.l2Line (c / 256) p
    let t := (s.readPlace (some c) p n).1
    let returns := fun (b : Nat → Byte) => (s.readPlace (some c) p n).2 = (List.range n).map fun j =>
      match heldByte s.hot.held (p.pa + j) with
      | some x => x
      | none => b (p.pa + j)
    (plainKind p.kind → t = s ∧ returns (memGet s.mem)) ∧
    (p.kind = .swm ∨ p.kind = .domain →
      t.mem = s.mem ∧ t.hot = s.hot ∧
      returns (fun a => if tabHas l1 a then tabGet 0 l1 a
        else (if tabHas l1c line then tabGet [] l1c line else l2).getD (a % 128) 0) ∧
      (tabHas l1c line = false → tabGet [] (t.getCore c).l1c line = l2) ∧
      (tabHas (s.getDie (c / 256)).l2c line = false → lineCells (s.getDie (c / 256)).l2 line = [] →
        l2 = (List.range 128).map fun j => memGet s.mem (line + j)))

/-- A store word stores its bytes over checked places (R104, R115, R125, R274, R275, R449). Where they lie in memory, each address
holds the byte of the last element that covers it, and every other byte is unchanged; where hardware keeps a line consistent its
states and requests may change (R159). At software-managed places the bytes become the core's own dirty bytes, and memory stays.
On a typed accumulator line, whole elements are set, and those of an ordered line are cleared in its slot lines. A doubleword for
a device register is written to it. No register changes. While an older store is held, or a shipped word outstanding, the store
is held instead, in its stored form (R234). -/
def storesBytes (s1 : State) (o : Out) (ps : List (Phys × Elem)) (bs : List Byte) : Prop :=
  let ws := pieces ps bs
  let ends := fun (t : State) => s1.hot.completes t.hot s1.hot.nxt ∧
    t.hot = { s1.hot with pc := t.hot.pc, retired := t.hot.retired, did := t.hot.did }
  (s1.hot.holding = true →
    ∃ t r, o = .next t ∧ t.hot.held = s1.hot.held ++ [r] ∧ r.order = s1.hot.order ∧
      r.parts.map (fun x => (x.place.pa, x.bytes)) = ws ∧ s1.hot.completes t.hot s1.hot.nxt ∧
      t.hot = { s1.hot with held := t.hot.held, pc := t.hot.pc, retired := t.hot.retired, did := t.hot.did } ∧
      s1.sameOutside t ∧ s1.sameMemory t) ∧
  (s1.hot.holding = false →
    ((∀ q ∈ ps, plainPlace s1 q.1) →
      ∃ t, o = .next t ∧ ends t ∧ holdsPieces (memGet t.mem) (memGet s1.mem) ws ∧
        s1.sameOutside { t with
          hot := s1.hot, mem := s1.mem, poison := s1.poison, caches := s1.caches, agenda := s1.agenda } ∧
        ((∀ q ∈ ps, q.1.kind ≠ .coh ∧ q.1.kind ≠ .hco) → t.caches = s1.caches ∧ t.agenda = s1.agenda)) ∧
    ((∀ q ∈ ps, q.1.kind = .swm ∨ q.1.kind = .domain) →
      ∃ t, o = .next t ∧ ends t ∧ s1.sameMemory t ∧ t.poison = s1.poison ∧
        holdsPieces (tabGet 0 (t.getCore s1.core).l1) (tabGet 0 (s1.getCore s1.core).l1) ws ∧
        (∀ x, tabHas (t.getCore s1.core).l1 x = true ↔
          (tabHas (s1.getCore s1.core).l1 x = true ∨ ∃ w ∈ ws, pieceCovers w x)) ∧
        (∀ k, k ≠ s1.core → t.getCore k = s1.getCore k) ∧
        s1.sameOutside { t with hot := s1.hot, cores := s1.cores, dies := s1.dies }) ∧
    (let state := fun (q : Phys × Elem) => s1.accState (q.1.pa / 128 * 128)
     let cleared := fun (x : Nat) => ∃ q ∈ ps, ∃ n, q.1.kind = .acc n ∧ (state q).ordered = true ∧
       ∃ j < (state q).n, slotLine n q.1.pa j ≤ x ∧ x < slotLine n q.1.pa j + q.2.n
     (∀ q ∈ ps, (∃ n, q.1.kind = .acc n) ∧ s1.typed (q.1.pa / 128 * 128) = true ∧
       q.1.pa % accSize (state q).ty = 0 ∧ q.2.n % accSize (state q).ty = 0) →
     (∀ x, cleared x → ∀ w ∈ ws, ¬pieceCovers w x) →
      ∃ t, o = .next t ∧ ends t ∧ (∀ x, cleared x → memGet t.mem x = 0) ∧
        holdsPieces (memGet t.mem) (fun x => memGet t.mem x) ws ∧
        (∀ x, ¬cleared x → (∀ w ∈ ws, ¬pieceCovers w x) → memGet t.mem x = memGet s1.mem x) ∧
        s1.sameOutside { t with hot := s1.hot, mem := s1.mem, poison := s1.poison }) ∧
    (∀ p e die off, ps = [(p, e)] → e.n = 8 → p.kind = .dev → region s1.pkg p.pa = .dev die off →
      let u := s1.devWrite s1.writer die off (word (leValue (bs.take 8)))
      ∃ t, o = .next t ∧ u.hot.completes t.hot u.hot.nxt ∧
        t.hot = { u.hot with pc := t.hot.pc, retired := t.hot.retired, did := t.hot.did } ∧
        u.sameOutside { t with hot := u.hot, poison := u.poison }))

/-- Scalar stores and `ZLINE` (R274, R287): `STB` to `STQ` store the low bytes of g[rs2], or of the pair, and `ZLINE` 128
zero bytes to the line that holds its address, in every class of memory. A fault of the check is raised, nothing stored; a store
whose page is not the core's to use, whose line is on its way, or that finds no room for its lines, waits (R105, R153, R159). -/
def Obligations.ScalarStoresWriteTheirBytes : Prop :=
  ∀ (s s1 : State) (a b : GReg) (q : GPair) (i : BitVec 14) (sc : Scope) (ps : List (Phys × Elem)) (f : AccFault),
    let va := s.g a + wordOfInt i.toInt
    let line := word ((s.g a).toNat / 128 * 128)
    let stores := fun (j : Instr) (o : AccOp) (n : Nat) (es : List (Nat × Elem)) (v : Nat) =>
      (s.checkAll s.me s.die o es = (s1, some f, ps) → exec j s = .next (s1.accessFault f)) ∧
      (s.checkAll s.me s.die o es = (s1, none, ps) → s1.storeWaits ps = true → exec j s = .next s1.stall) ∧
      (s.checkAll s.me s.die o es = (s1, none, ps) → s1.storeWaits ps = false → s1.storesHit ps = false →
        exec j s = .next (s1.askStores ps).stall) ∧
      (s.checkAll s.me s.die o es = (s1, none, ps) → s1.storeWaits ps = false → s1.storesHit ps = true → s1.memOk →
        storesBytes s1 (exec j s) ps ((List.range n).map (byteOf v)))
    let scalar := fun (j : Instr) (n v : Nat) => stores j .store n (scalarElems va n (s.expanded s.me va)) v
    scalar (.stb b a i) 1 (s.g b).toNat ∧ scalar (.sth b a i) 2 (s.g b).toNat ∧
    scalar (.stw b a i) 4 (s.g b).toNat ∧ scalar (.std b a i) 8 (s.g b).toNat ∧
    scalar (.stq q a i) 16 ((s.g (GPair.lo q)).toNat + (s.g (GPair.hi q)).toNat * 2 ^ 64) ∧
    stores (.zline a sc) .zline 128 [(0, ⟨line, 128, 1, false⟩)] 0

/-- A store of the executing slot to a line of software-managed or domain-window memory stays in its core's cache (R105, R125),
which takes the whole line (DEDUCED, log 25): memory and its poison are unchanged, and the core sees the bytes; of its own copy a word wholly written loses its poison, and no other does
(R444). -/
def softwareManagedStoresStayInTheCore : Prop :=
  ∀ (s : State) (c : Nat) (who : Writer) (pa : Nat) (bs : List Byte) (j : Nat), s.hot.held = [] → j < bs.length →
    pa % 128 + bs.length ≤ 128 → ∀ kind ∈ [MemKind.swm, .domain],
    let t := s.writePlace (some c) who ⟨kind, pa⟩ bs
    s.sameMemory t ∧ t.poison = s.poison ∧ t.seeByte (some c) kind (pa + j) = bs.getD j 0 ∧
    (tabHas (s.getCore c).l1c (pa / 128 * 128) = true → ∀ w, w ∈ (t.getCore c).l1p ↔
      w ∈ (s.getCore c).l1p ∧ ¬(pa ≤ 8 * w ∧ 8 * w + 8 ≤ pa + bs.length))

/-- The active elements of a vector memory word, in order, with their addresses: 4 bytes each, aligned to 4 (R277, R278). -/
def vectorElems (mask : Word) (addr : Nat → Word) : List (Nat × Elem) :=
  ((List.range 16).filter fun i => mask.getLsbD i).map fun i => (i, ⟨addr i, 4, 4, false⟩)

/-- How many active elements stand below element `i`. -/
def activeBelow (mask : Word) (i : Nat) : Nat := ((List.range i).filter fun j => mask.getLsbD j).length

/-- The vector register whose lane `i` of 32 bits is `f i`. -/
def vectorOf (f : Nat → Nat) : VWord := BitVec.ofNat 512 (((List.range 16).map fun i => f i % 2 ^ 32 * 2 ^ (32 * i)).sum)

/-- Lane `i` of 32 bits of a vector register. -/
def lane32 (x : VWord) (i : Nat) : Nat := x.toNat / 2 ^ (32 * i) % 2 ^ 32

/-- Vector loads (R277, R278): each active element of vd receives the 4 bytes read at its address, an inactive one keeps
its value; `VLDB` reads once for every active element, and not at all where none is active. -/
def vectorLoadsFillActiveElements : Prop :=
  ∀ (s s1 s2 : State) (v x : VReg) (a b : GReg) (m : MReg) (i : BitVec 6) (ps : List (Phys × Elem)) (bs : List Byte)
    (f : AccFault),
    let base := s.g a + word (i.toNat * 64)
    let mask := s.m m
    let loads := fun (j : Instr) (es : List (Nat × Elem)) (value : State → Nat → Nat) =>
      let checked := s.checkAll s.me s.die .load es
      (checked = (s1, some f, ps) → exec j s = .next (s1.accessFault f)) ∧
      (checked = (s1, none, ps) → s1.loadWaits ps = true → exec j s = .next s1.stall) ∧
      (checked = (s1, none, ps) → s1.loadWaits ps = false → s1.loadsHit ps = false →
        exec j s = .next (s1.askLoads ps).stall) ∧
      (checked = (s1, none, ps) → s1.loadWaits ps = false → s1.loadsHit ps = true →
        s1.readAll (some s1.core) ps = (s2, bs) → writesV s2 (exec j s) v
          (vectorOf fun k => if mask.getLsbD k then value s2 k else lane32 (s2.v v) k) s2.hot.nxt)
    let element := fun (_ : State) (k : Nat) => leValue ((bs.drop (4 * activeBelow mask k)).take 4)
    let none_ := ∀ k < 16, mask.getLsbD k = false
    loads (.vld v a m i) (vectorElems mask fun k => base + word (4 * k)) element ∧
    loads (.vlds v a b m i) (vectorElems mask fun k => base + wordOfInt (k * (s.g b).toInt)) element ∧
    loads (.vldx v a x m i)
      (vectorElems mask fun k => base + wordOfInt (signedOf 32 (lane32 (s.v x) k))) element ∧
    (¬none_ → loads (.vldb v a m i) [(0, ⟨base, 4, 4, false⟩)] fun _ _ => leValue bs) ∧
    (none_ → onlyMoves s (exec (.vldb v a m i) s) s.hot.nxt)

/-- Vector stores (R277, R278): each active element of vs goes to its address, as 4 bytes; where elements write the same bytes the
highest-numbered active one stands. -/
def vectorStoresWriteActiveElements : Prop :=
  ∀ (s s1 : State) (v x : VReg) (a b : GReg) (m : MReg) (i : BitVec 6) (ps : List (Phys × Elem)) (f : AccFault),
    let base := s.g a + word (i.toNat * 64)
    let mask := s.m m
    let bs := ((List.range 16).filter fun k => mask.getLsbD k).flatMap fun k =>
      (List.range 4).map (byteOf (lane32 (s.v v) k))
    let stores := fun (j : Instr) (addr : Nat → Word) =>
      let checked := s.checkAll s.me s.die .store (vectorElems mask addr)
      (checked = (s1, some f, ps) → exec j s = .next (s1.accessFault f)) ∧
      (checked = (s1, none, ps) → s1.storeWaits ps = true → exec j s = .next s1.stall) ∧
      (checked = (s1, none, ps) → s1.storeWaits ps = false → s1.storesHit ps = false →
        exec j s = .next (s1.askStores ps).stall) ∧
      (checked = (s1, none, ps) → s1.storeWaits ps = false → s1.storesHit ps = true → s1.memOk →
        storesBytes s1 (exec j s) ps bs)
    stores (.vst v a m i) (fun k => base + word (4 * k)) ∧
    stores (.vsts v a b m i) (fun k => base + wordOfInt (k * (s.g b).toInt)) ∧
    stores (.vstx v a x m i) (fun k => base + wordOfInt (signedOf 32 (lane32 (s.v x) k)))

/-! ## Atomics (R279 to R282) -/

/-- What an AMO of `n` bytes writes over `old` (R279), by sub-operation; none where `AMOCAS` finds old ≠ e. -/
def amoWrites (n : Nat) (old b e : Nat) : Nat → Option Nat
  | 0 => some ((old + b) % 2 ^ (8 * n))
  | 1 => some (old &&& b)
  | 2 => some (old ||| b)
  | 3 => some (old ^^^ b)
  | 4 => some (if signedOf (8 * n) old ≤ signedOf (8 * n) b then old else b)
  | 5 => some (if signedOf (8 * n) old < signedOf (8 * n) b then b else old)
  | 6 => some (min old b)
  | 7 => some (max old b)
  | 8 => some b
  | _ => if old = e then some b else none

/-- The AMO words by sub-operation (R279). -/
def amoWords (d a b : GReg) (sc : Scope) (o : Order) : List (Instr × Instr) :=
  [(.amoaddW d a b sc o, .amoaddD d a b sc o), (.amoandW d a b sc o, .amoandD d a b sc o),
   (.amoorW d a b sc o, .amoorD d a b sc o), (.amoxorW d a b sc o, .amoxorD d a b sc o),
   (.amominW d a b sc o, .amominD d a b sc o), (.amomaxW d a b sc o, .amomaxD d a b sc o),
   (.amominnW d a b sc o, .amominnD d a b sc o), (.amomaxnW d a b sc o, .amomaxnD d a b sc o),
   (.amoswpW d a b sc o, .amoswpD d a b sc o), (.amocasW d a b sc o, .amocasD d a b sc o)]

/-- The bytes of memory as a number. -/
def memValue (s : State) (a n : Nat) : Nat := leValue ((List.range n).map fun j => memGet s.mem (a + j))

/-- An atomic of `n` bytes has performed at a place in memory: the value written, if one is, stands there, and every other
byte is unchanged; an HCO line has come to its port's agent (R144), and nothing else outside the slot has changed. -/
def performedAt (s t : State) (p : Phys) (n : Nat) (new : Option Nat) : Prop :=
  s.sameMemoryOutside t p.pa n ∧
  (match new with | some x => ∀ j < n, memGet t.mem (p.pa + j) = byteOf x j | none => s.sameMemory t) ∧
  s.sameOutside { t with mem := s.mem, poison := s.poison, hco := s.hco } ∧ (p.kind ≠ .hco → t.hco = s.hco)

/-- Places where an atomic performs at the home, in memory. -/
def atomicPlace (s : State) (p : Phys) : Prop :=
  p.kind = .coh ∨ p.kind = .swm ∨ p.kind = .hco ∨ p.kind = .hnc ∨ p.kind = .domain ∨
    (p.kind = .dev ∧ s.isDevReg p.pa = false)

/-- An atomic word has sent its registers on, as `m` in the event `f m`, and waits for the reply. -/
def sendsOn (s1 : State) (o : Out) (p : Phys) (b e : Nat) (f : AtomMsg → Event) : Prop :=
  ∃ t m, o = .next t ∧ t.agenda = s1.agenda ++ [f m] ∧ m.pa = p.pa ∧ m.slot = s1.hotId ∧ m.gen = s1.hot.gen ∧
    m.tag = none ∧ m.operand = b ∧ m.comparand = e ∧ t.hot = { s1.hot with wait := some .sent, did := .stalled } ∧
    s1.sameOutside { t with agenda := s1.agenda, package := s1.package } ∧ (p.pa < remoteBase → t.package = s1.package)

/-- Where an atomic word on the checked place `p` goes that does not perform at once: to a line that hardware keeps consistent and
that a cache still holds, or at which others wait, it is queued at the home (R62, R144); to a scratchpad it goes as a
remote-atomic message (R281); on a page that is not the core's to use it asks for the page and stalls (R153). -/
def atomicGoesOn (s1 : State) (o : Out) (p : Phys) (e : Elem) (x y : Nat) : Prop :=
  (p.kind = .coh → s1.pageReady p.pa s1.core = false → o = .next (s1.askFor (p, e) id).stall) ∧
  (p.kind = .coh ∨ p.kind = .hco → (p.kind = .coh → s1.pageReady p.pa s1.core = true) → s1.atomicReady p = false →
    sendsOn s1 o p x y fun m => .atomicAtHome m false false) ∧
  (∀ j, p.kind = .spad j → sendsOn s1 o p x y .remoteAtomicMessage)

/-- AMO words at places where memory performs them (COH, SWM, HCO, HNC, DEV, the domain window; R279, R280): old is read and
the function's value written as one, whatever dirty copies other caches hold, and rd receives sext(old, 8n). The issuing core
keeps no copy of a line that software keeps consistent (R144); that dirty bytes of it there go home first is the model's choice
(DESIGN CHOICE, log 75). On a device register a doubleword is read and written. HNC allows `AMOADD`, `AMOSWP` and `AMOCAS`. A
word whose line is still held, or whose place is in a scratchpad, sends its registers on and stalls; the old value that comes
back completes it, and the poison that comes back is raised with the word's address (R444). -/
def amoWordsPerformAsOne : Prop :=
  ∀ (s s1 : State) (d a b : GReg) (sc : Scope) (o : Order) (p : Phys) (e : Elem) (ps : List (Phys × Elem)) (k x : Nat),
    ∀ w ∈ (amoWords d a b sc o)[k]?,
    let amo := AccOp.amo (k == 0 || k == 8 || k == 9)
    let performs := fun (i : Instr) (n : Nat) =>
      let s2 := s1.leaveCopy s1.core p
      let new := fun (old : Nat) => amoWrites n old ((s.g b).toNat % 2 ^ (8 * n)) ((s.g d).toNat % 2 ^ (8 * n)) k
      let result := fun (t : State) (old : Nat) =>
        t.g d = (if d = 0 then 0 else wordOfInt (signedOf (8 * n) old)) ∧ s1.sameOtherG t d
      (s.hot.wait = none → s.checkAll s.me s.die amo [(0, ⟨s.g a, n, n, false⟩)] = (s1, none, (p, e) :: ps) →
        s1.hot.meetsUpdate p n = false →
        atomicGoesOn s1 (exec i s) p ⟨s.g a, n, n, false⟩ (s.g b).toNat (s.g d).toNat ∧
        (atomicPlace s1 p → (p.kind = .coh → s1.pageReady p.pa s1.core = true) → s1.atomicReady p = true → s1.memOk →
          let old := memValue s2 p.pa n
          ∃ t, exec i s = .next t ∧ performedAt s2 t p n (new old) ∧ result t old ∧
            s1.hot.completes t.hot s1.hot.nxt ∧ s1.hot.sameButG t.hot ∧
            (p.kind = .swm ∨ p.kind = .domain → lineCells (t.getCore s1.core).l1 (p.pa / 128 * 128) = [] ∧
              ((s1.getCore s1.core).l1c.Pairwise (fun x y => x.1 < y.1) → tabHas (t.getCore s1.core).l1c (p.pa / 128 * 128) = false)) ∧
            (p.kind ≠ .swm → p.kind ≠ .domain → s2 = s1)) ∧
        (∀ die off, p.kind = .dev → region s1.pkg p.pa = .dev die off → n = 8 →
          let old := (s1.devRead die off).toNat
          let u := match new old with | some y => s1.devWrite s1.writer die off (word y) | none => s1
          ∃ t, exec i s = .next t ∧ result t old ∧ s1.hot.completes t.hot s1.hot.nxt ∧
            s1.hot.sameButG t.hot ∧ u.sameOutside { t with hot := u.hot, poison := u.poison })) ∧
      (s.hot.wait = some (.old x) →
        ∃ t, exec i s = .next t ∧ t.g d = (if d = 0 then 0 else wordOfInt (signedOf (8 * n) x)) ∧ s.sameOtherG t d ∧
          s.hot.completes t.hot s.hot.nxt ∧ t.hot.wait = none ∧ s.sameOutside t ∧ s.sameMemory t) ∧
      (s.hot.wait = some (.poison x) →
        exec i s = .next ({ s with hot := { s.hot with wait := none } }.raise .poison 2
          (word ((s.g a).toNat / 16 * 16) + word (8 * x % 16)))) ∧
      (s.hot.wait = some .sent → exec i s = .next s.stall)
    performs w.1 4 ∧ performs w.2 8

/-- `CAS2` and `SWP2` on a Bassoon (R282): 16 bytes at a multiple of 16 of which no cache holds a copy are compared with the
pair rd, exchanged with the pair rs2 where the rule says so, and the pair rd receives the old value, low half in the even
register; a word whose line is still held, or whose place is in a scratchpad, sends its pairs on and stalls. -/
def pairAtomicsPerformOnABassoon : Prop :=
  ∀ (s s1 : State) (d b : GPair) (a : GReg) (sc : Scope) (o : Order) (p : Phys) (e : Elem) (ps : List (Phys × Elem))
    (swap : Bool),
    s.piccolo = false → s.hot.wait = none →
    s.checkAll s.me s.die .cas2 [(0, ⟨s.g a, 16, 16, false⟩)] = (s1, none, (p, e) :: ps) →
    s1.hot.meetsUpdate p 16 = false →
    let i : Instr := if swap then .swp2 d a b sc o else .cas2 d a b sc o
    let value := fun (q : GPair) => (s.g (GPair.lo q)).toNat + (s.g (GPair.hi q)).toNat * 2 ^ 64
    let s2 := s1.leaveCopy s1.core p
    let old := memValue s2 p.pa 16
    atomicGoesOn s1 (exec i s) p ⟨s.g a, 16, 16, false⟩ (value b) (value d) ∧
    (atomicPlace s1 p → (p.kind = .coh → s1.pageReady p.pa s1.core = true) → s1.atomicReady p = true → s1.memOk →
    ∃ t, exec i s = .next t ∧
      performedAt s2 t p 16 (if swap = true ∨ old = value d then some (value b) else none) ∧
      (∀ r, t.g r = if r = 0 then 0 else if r.val = 2 * d.val then word (old % 2 ^ 64)
        else if r.val = 2 * d.val + 1 then word (old / 2 ^ 64) else s1.g r) ∧
      s1.hot.completes t.hot s1.hot.nxt ∧ s1.hot.sameButG t.hot)

/-! ## Reductions and accumulator lines (R112 to R114, R283 to R285) -/

/-- `RED` and `VACC` (R283, R284): the update of each element, low bytes of g[rs2] or the active elements of one half line,
goes to the home of its line with `CONTRIB`[3:0] and the type, as one arrival; the slot writes no register and no byte of
memory, and counts the update outstanding. They wait while a matrix command of the slot may still update the line (R143).
`RED` to a scratchpad goes to its sequencer (R281). `VACC` with no active element sends nothing. -/
def Obligations.ReductionsSendTheirUpdates : Prop :=
  ∀ (s s1 : State) (a b : GReg) (v : VReg) (m : MReg) (i : BitVec 6) (t : AccType) (sc : Scope) (o : Order) (p : Phys)
    (e : Elem) (ps : List (Phys × Elem)) (n : Nat),
    let red : Instr := match t with
      | .fp32 => .redFaddS a b sc o | .fp64 => .redFaddD a b sc o | .i32 => .redIaddW a b sc o | .i64 => .redIaddD a b sc o
    let size := match t with | .fp32 | .i32 => 4 | .fp64 | .i64 => 8
    let base := s.g a + word (i.toNat * 64)
    let active := (List.range (64 / size)).filter fun k => (s.m m).getLsbD k
    let sends := fun (j : Instr) (elems : List (Nat × Word × Word)) =>
      ∃ y u, exec j s = .next y ∧ y.agenda = s1.agenda ++ [Event.nruUpdate u] ∧ u.slot = s1.hotId ∧ u.ty = t ∧
        u.contrib = s1.hot.contrib.toNat % 16 ∧ u.elems = elems ∧ u.id = s1.ids ∧ y.ids = s1.ids + 1 ∧
        y.hot = { s1.hot with
          updates := s1.hot.updates ++ [(u.id, lineOf p.pa)], pc := y.hot.pc, retired := y.hot.retired, did := y.hot.did } ∧
        s1.hot.completes y.hot s1.hot.nxt ∧ s1.sameOutside { y with agenda := s1.agenda, ids := s1.ids } ∧
        s1.sameMemory y
    (p.kind = .acc n → s.checkAll s.me s.die .red [(0, ⟨s.g a, size, size, false⟩)] = (s1, none, (p, e) :: ps) →
      (s1.hot.matrix ≠ [] → exec red s = .next s1.stall) ∧
      (s1.hot.matrix = [] → sends red [(p.pa, s.g a, word ((s.g b).toNat % 2 ^ (8 * size)))])) ∧
    (∀ k, p.kind = .spad k → s.checkAll s.me s.die .red [(0, ⟨s.g a, size, size, false⟩)] = (s1, none, (p, e) :: ps) →
      ∃ y u, exec red s = .next y ∧ y.agenda = s1.agenda ++ [Event.remoteAtomicMessage u] ∧ u.slot = s1.hotId ∧
        u.id = s1.ids ∧ u.pa = p.pa ∧ u.operand = (s.g b).toNat ∧ y.ids = s1.ids + 1 ∧
        y.hot = { s1.hot with
          updates := s1.hot.updates ++ [(s1.ids, lineOf p.pa)], pc := y.hot.pc, retired := y.hot.retired, did := y.hot.did } ∧
        s1.hot.completes y.hot s1.hot.nxt ∧
        s1.sameOutside { y with agenda := s1.agenda, ids := s1.ids, package := s1.package } ∧ s1.sameMemory y) ∧
    (base.toNat % 64 = 0 →
      s.checkAll s.me s.die .vacc (active.map fun k => (k, ⟨base + word (k * size), size, size, false⟩)) =
        (s1, none, (p, e) :: ps) → p.kind = .acc n →
      (s1.hot.matrix ≠ [] → exec (.vacc v a t m i) s = .next s1.stall) ∧
      (s1.hot.matrix = [] → sends (.vacc v a t m i) ((List.zip ((p, e) :: ps) active).map fun x =>
        (x.1.1.pa, x.1.2.va, word ((s1.v v).toNat / 2 ^ (8 * size * x.2) % 2 ^ (8 * size)))))) ∧
    (base.toNat % 64 = 0 → active = [] → onlyMoves s (exec (.vacc v a t m i) s) s.hot.nxt) ∧
    (base.toNat % 64 ≠ 0 → exec (.vacc v a t m i) s = .next (s.raise .misaligned 0 base))

/-- The bytes of a line and of its first `slots` slot lines (R113). -/
def inAccLines (n line slots x : Nat) : Prop :=
  (line ≤ x ∧ x < line + 128) ∨ ∃ j < slots, slotLine n line j ≤ x ∧ x < slotLine n line j + 128

/-- `ACCINIT`, `ACCZ` and `ACCRD` on an accumulator line that passes its checks, with no update of the slot to it
outstanding (R112, R114, R285). `ACCINIT` types the line as g[rs2] says and zeroes it with its slot lines; `ACCZ` zeroes
it and clears DIRTY; other bytes stay. `ACCRD` reads the element, of a DIRTY line plus its slots in the rule's order, FP32
zero-extended, I32 sign-extended, 64-bit types whole; bytes outside the line and its slots stay. -/
def Obligations.AccumulatorWordsActOnTheLine : Prop :=
  ∀ (s s1 : State) (d a b : GReg) (sc : Scope) (o : Order) (p : Phys) (e : Elem) (ps : List (Phys × Elem)) (n : Nat),
    p.kind = .acc n → s1.memOk → s1.hot.held = [] →
    let v := (s.g b).toNat
    let line := lineOf p.pa
    let st := s1.accState line
    let ends := fun (t : State) => s1.hot.completes t.hot s1.hot.nxt ∧ s1.hot.sameButG t.hot
    let slots := if v / 2 ^ 4 % 2 = 1 then v / 2 ^ 8 % 2 ^ 4 + 1 else 0
    let ty := match v % 4 with | 0 => AccType.fp32 | 1 => .fp64 | 2 => .i32 | _ => .i64
    (s.checkAll s.me s.die (.accinit (s.g b)) [(0, ⟨s.g a, 128, 128, false⟩)] = (s1, none, (p, e) :: ps) →
      s1.hot.meetsUpdate p e.n = false →
      ∃ t, exec (.accinit a b sc o) s = .next t ∧ t.accState line = ⟨ty, decide (v / 2 ^ 4 % 2 = 1), slots, false, true⟩ ∧
        (∀ x, inAccLines n line slots x → memGet t.mem x = 0) ∧
        (∀ x, ¬inAccLines n line slots x → memGet t.mem x = memGet s1.mem x) ∧ t.hot.g = s1.hot.g ∧ ends t) ∧
    (s.checkAll s.me s.die .accz [(0, ⟨s.g a, 128, 128, false⟩)] = (s1, none, (p, e) :: ps) →
      s1.hot.meetsUpdate p e.n = false →
      ∃ t, exec (.accz a sc o) s = .next t ∧ t.accState line = { st with dirty := false } ∧
        (∀ x, inAccLines n line st.n x → memGet t.mem x = 0) ∧
        (∀ x, ¬inAccLines n line st.n x → memGet t.mem x = memGet s1.mem x) ∧ t.hot.g = s1.hot.g ∧ ends t) ∧
    (s.checkAll s.me s.die .accrd [(0, ⟨s.g a, s.accElemSize (s.g a), 1, false⟩)] = (s1, none, (p, e) :: ps) →
      s1.hot.meetsUpdate p e.n = false →
      let size := match st.ty with | .fp32 | .i32 => 4 | .fp64 | .i64 => 8
      let cell := memValue s1 p.pa size
      let x := if st.dirty then accAdd st.ty cell (s1.slotSum st.ty n p.pa st.n) % 2 ^ (8 * size) else cell
      p.pa % size = 0 →
      ∃ t, exec (.accrd d a sc o) s = .next t ∧
        t.g d = (if d = 0 then 0 else if st.ty = .i32 then wordOfInt (signedOf 32 x) else word x) ∧ s1.sameOtherG t d ∧
        (t.accState line).dirty = false ∧
        (∀ x, ¬inAccLines n line st.n x → memGet t.mem x = memGet s1.mem x) ∧ ends t)

/-- The checks of an access (R97 to R104, R272, R427, R438 to R444), whole: the elements of an access and the order of
their checks, as the two parts above say. -/
def Obligations.AccessChecksFollowTheirOrder : Prop := scalarElementsCoverTheAccess ∧ accessChecksFollowTheirOrder

/-- What reads return and where stores to software-managed places stay (R103, R104, R125, R127), whole: as the two parts
above say. -/
def Obligations.ReadsReturnTheVisibleBytes : Prop := readsReturnTheVisibleBytes ∧ softwareManagedStoresStayInTheCore

/-- Vector loads and stores (R274 to R277), whole: as the two parts above say. -/
def Obligations.VectorAccessesMoveActiveElements : Prop := vectorLoadsFillActiveElements ∧ vectorStoresWriteActiveElements

/-- Atomic words (R279 to R282), whole: AMO words, and `CAS2` and `SWP2` on a Bassoon, as the two parts above say. -/
def Obligations.AtomicWordsPerformAsOne : Prop :=
  amoWordsPerformAsOne ∧ pairAtomicsPerformOnABassoon

/-! ## Floating point (R66 to R68, R216 to R226, R430, R431) -/

/-- Exponent bits, fraction bits and bias of a format (R63). -/
def formatShape : Fmt → Nat × Nat × Nat
  | .fp32 => (8, 23, 127) | .fp64 => (11, 52, 1023) | .h16 => (5, 10, 15) | .b16 => (8, 7, 127)

/-- The fields of the low bits of `b` (R63, R216): whether the sign is set, the exponent, the fraction. -/
def fpFields (f : Fmt) (b : Nat) : Bool × Nat × Nat :=
  let (e, n, _) := formatShape f
  (b / 2 ^ (e + n) % 2 == 1, b / 2 ^ n % 2 ^ e, b % 2 ^ n)

/-- The magnitude and sign that the fields name as a number, an infinity being the power of two above the greatest finite
magnitude: so that order and equality of these rationals are those of the values (R63). -/
def fpPlace (f : Fmt) (b : Nat) : ℚ :=
  let (_, n, bias) := formatShape f
  let (neg, ex, fr) := fpFields f b
  (if neg then -1 else 1) * (if ex = 0 then (fr : ℚ) * 2 ^ ((1 : Int) - bias - n) else (2 ^ n + fr : ℚ) * 2 ^ ((ex : Int) - bias - n))

def fpIsSpecial (f : Fmt) (b : Nat) : Bool := (fpFields f b).2.1 == 2 ^ (formatShape f).1 - 1
def fpIsNan (f : Fmt) (b : Nat) : Bool := fpIsSpecial f b && (fpFields f b).2.2 != 0
def fpIsInf (f : Fmt) (b : Nat) : Bool := fpIsSpecial f b && (fpFields f b).2.2 == 0

/-- A signalling NaN's most significant fraction bit is zero (R64). -/
def fpIsSignalling (f : Fmt) (b : Nat) : Bool := fpIsNan f b && decide ((fpFields f b).2.2 < 2 ^ ((formatShape f).2.1 - 1))

/-- The number that the low bits of `b` are in a format, `none` for an infinity or a NaN (R63). -/
def fpNumber (f : Fmt) (b : Nat) : Option ℚ := if fpIsSpecial f b then none else some (fpPlace f b)

/-- The codes of a format's infinity, greatest finite magnitude, canonical NaN, and of a zero of a sign (R63). -/
def fpInfinity (f : Fmt) (neg : Bool) : Nat :=
  let (e, n, _) := formatShape f
  (if neg then 2 ^ (e + n) else 0) + (2 ^ e - 1) * 2 ^ n
def fpGreatest (f : Fmt) (neg : Bool) : Nat := fpInfinity f neg - 1
def fpQuietNan (f : Fmt) : Nat := fpInfinity f false + 2 ^ ((formatShape f).2.1 - 1)
def fpZero (f : Fmt) (neg : Bool) : Nat := if neg then 2 ^ ((formatShape f).1 + (formatShape f).2.1) else 0

/-- The member of a set of numbers that a mode rounds `x` to (R66): the nearest, a tie going to the even one, the greatest
not above in magnitude, the greatest not above, or the least not below. -/
def isRounding (rm : RMode) (member even : ℝ → Prop) (x y : ℝ) : Prop :=
  member y ∧
  match rm with
  | .rne => ∀ z, member z → |y - x| ≤ |z - x| ∧ (z ≠ y → |y - x| = |z - x| → even y)
  | .rtz => 0 ≤ x * y ∧ |y| ≤ |x| ∧ ∀ z, member z → 0 ≤ x * z → |z| ≤ |x| → |z| ≤ |y|
  | .rdn => y ≤ x ∧ ∀ z, member z → z ≤ x → z ≤ y
  | .rup => x ≤ y ∧ ∀ z, member z → x ≤ z → y ≤ z

/-- The numbers of `p` significant bits, and those whose last bit is zero. -/
def precise (p : Nat) (z : ℝ) : Prop := ∃ n k : ℤ, |n| < 2 ^ p ∧ z = n * (2 : ℝ) ^ k
def preciseEven (p : Nat) (z : ℝ) : Prop := ∃ n k : ℤ, 2 ^ (p - 1) ≤ |2 * n| ∧ |2 * n| < 2 ^ p ∧ z = (2 * n : ℤ) * (2 : ℝ) ^ k

/-- The numbers of a format, and those with an even code. -/
def inFormat (f : Fmt) (z : ℝ) : Prop := ∃ b v, fpNumber f b = some v ∧ z = v
def inFormatEven (f : Fmt) (z : ℝ) : Prop := ∃ b v, b % 2 = 0 ∧ fpNumber f b = some v ∧ z = v

/-- A result is `round(x, f, rm)` of a number other than zero (R66, R68): `u` is `x` rounded to the format's precision with an
unbounded exponent. Above the greatest finite magnitude it overflows as the table of R68 says, with OF and NX; else the
result is the rounding of `x` in the format, with NX where it is not `x`, and then UF where `u` is below the smallest
normal magnitude. Its sign is that of `x`. -/
def roundsTo (f : Fmt) (rm : RMode) (r : FRes) (x : ℝ) : Prop :=
  let p := (formatShape f).2.1 + 1
  let neg := decide (x < 0)
  ∃ u : ℝ, isRounding rm (precise p) (preciseEven p) x u ∧
    if (fpPlace f (fpGreatest f false) : ℝ) < |u| then
      r = ⟨if rm = .rne ∨ rm = (if neg then .rdn else .rup) then fpInfinity f neg else fpGreatest f neg, 5⟩
    else ∃ y, fpNumber f r.bits = some y ∧ r.bits < 2 ^ f.width ∧ (fpFields f r.bits).1 = neg ∧
      isRounding rm (inFormat f) (inFormatEven f) x y ∧
      r.flags = if (y : ℝ) = x then 0 else if |u| < 2 ^ ((1 : Int) - (formatShape f).2.2) then 3 else 1

/-- Sums, differences, products, quotients and fused multiply-adds of numbers are the exact result rounded once, in every
format and mode; an exact zero of unlike operands is +0, in RDN −0, and one of zeros of one sign keeps it (R68, R216,
R218, R226). -/
def arithmeticRoundsTheExactResultOnce : Prop :=
  ∀ (f : Fmt) (rm : RMode) (a b c : Nat) (x y z : ℚ),
    fpNumber f a = some x → fpNumber f b = some y → fpNumber f c = some z →
    let sign := fun n => (fpFields f n).1
    let sum := fun (r : FRes) (v : ℚ) (s1 s2 : Bool) =>
      (v ≠ 0 → roundsTo f rm r v) ∧ (v = 0 → r = ⟨fpZero f (if s1 = s2 then s1 else decide (rm = .rdn)), 0⟩)
    let product := fun (r : FRes) (v : ℚ) => (v ≠ 0 → roundsTo f rm r v) ∧ (v = 0 → r = ⟨fpZero f (sign a != sign b), 0⟩)
    let ab := sign a != sign b
    sum (fAdd f rm a b) (x + y) (sign a) (sign b) ∧ sum (fSub f rm a b) (x - y) (sign a) (!sign b) ∧
    product (fMul f rm a b) (x * y) ∧ (y ≠ 0 → product (fDiv f rm a b) (x / y)) ∧
    (x ≠ 0 → y = 0 → fDiv f rm a b = ⟨fpInfinity f ab, 8⟩) ∧ (x = 0 → y = 0 → fDiv f rm a b = ⟨fpQuietNan f, 16⟩) ∧
    sum (fFma f rm false false a b c) (x * y + z) ab (sign c) ∧
    sum (fFma f rm false true a b c) (x * y - z) ab (!sign c) ∧
    sum (fFma f rm true true a b c) (-(x * y) - z) (!ab) (!sign c) ∧
    sum (fFma f rm true false a b c) (-(x * y) + z) (!ab) (sign c)

/-- Infinite operands give the exact infinite result or zero with no flag, and the canonical NaN with NV where the operation
is invalid (R218, R226). -/
def infiniteOperandsGiveTheExactResult : Prop :=
  ∀ (f : Fmt) (rm : RMode) (a b c : Nat), fpIsNan f a = false → fpIsNan f b = false → fpIsNan f c = false →
    let sign := fun n => (fpFields f n).1
    let inf := fpIsInf f
    let zero := fun n => fpNumber f n == some 0
    let ab := sign a != sign b
    let sum := fun (r : FRes) (i j : Bool) (s1 s2 : Bool) => i = true ∨ j = true →
      r = if i && j && s1 != s2 then ⟨fpQuietNan f, 16⟩ else ⟨fpInfinity f (if i then s1 else s2), 0⟩
    sum (fAdd f rm a b) (inf a) (inf b) (sign a) (sign b) ∧ sum (fSub f rm a b) (inf a) (inf b) (sign a) (!sign b) ∧
    (inf a = true ∨ inf b = true →
      fMul f rm a b = (if zero a || zero b then ⟨fpQuietNan f, 16⟩ else ⟨fpInfinity f ab, 0⟩) ∧
      fDiv f rm a b = (if inf a && inf b then ⟨fpQuietNan f, 16⟩ else ⟨if inf a then fpInfinity f ab else fpZero f ab, 0⟩)) ∧
    ∀ n m : Bool,
      ((inf a && zero b) || (zero a && inf b) → fFma f rm n m a b c = ⟨fpQuietNan f, 16⟩) ∧
      (((inf a && zero b) || (zero a && inf b)) = false →
        sum (fFma f rm n m a b c) (inf a || inf b) (inf c) (ab != n) (sign c != m))

/-- A NaN operand gives the canonical NaN; NV is raised exactly for a signalling one, or where a fused multiply-add's product
is zero times infinity (R64, R218, R226). -/
def nanOperandsGiveTheCanonicalNan : Prop :=
  ∀ (f : Fmt) (rm : RMode) (a b c : Nat),
    let nv := fun (l : List Nat) => if l.any (fpIsSignalling f) then 16 else 0
    let invalid := (fpIsInf f a && fpNumber f b == some 0) || (fpNumber f a == some 0 && fpIsInf f b)
    (fpIsNan f a = true ∨ fpIsNan f b = true →
      ∀ r ∈ [fAdd f rm a b, fSub f rm a b, fMul f rm a b, fDiv f rm a b], r = ⟨fpQuietNan f, nv [a, b]⟩) ∧
    (fpIsNan f a = true ∨ fpIsNan f b = true ∨ fpIsNan f c = true → ∀ n m : Bool,
      fFma f rm n m a b c = ⟨fpQuietNan f, if invalid then 16 else nv [a, b, c]⟩)

/-- `FSQRT` (R218): the square root rounded once; −0 and the infinity keep, and a negative operand is invalid. -/
def squareRootsAreRoundedOnce : Prop :=
  ∀ (f : Fmt) (rm : RMode) (a : Nat),
    let r := fSqrt f rm a
    (fpIsNan f a = true → r = ⟨fpQuietNan f, if fpIsSignalling f a then 16 else 0⟩) ∧
    (fpIsInf f a = true → r = if (fpFields f a).1 then ⟨fpQuietNan f, 16⟩ else ⟨fpInfinity f false, 0⟩) ∧
    ∀ x, fpNumber f a = some x →
      (x = 0 → r = ⟨fpZero f (fpFields f a).1, 0⟩) ∧ (x < 0 → r = ⟨fpQuietNan f, 16⟩) ∧
      (0 < x → roundsTo f rm r (Real.sqrt x))

/-- `FMIN`, `FMAX`, FCMP, `FCLASS` and FSGN (R65, R218 to R221): one operand that is a NaN yields the other, −0 is below +0 for
the first two and equal for the compares, the class is one bit of ten, and a sign is composed with a magnitude. -/
def comparisonsFollowTheOrderOfValues : Prop :=
  ∀ (f : Fmt) (a b : Nat),
    let low := fun n => n % 2 ^ f.width
    let sign := fun n => (fpFields f n).1
    let nan := fpIsNan f
    let nv := if fpIsSignalling f a || fpIsSignalling f b then 16 else 0
    let below := fun m n => fpPlace f m < fpPlace f n ∨ fpPlace f m = 0 ∧ fpPlace f n = 0 ∧ sign m = true ∧ sign n = false
    let pick := fun (r : FRes) (second : Prop) =>
      (nan a = true → nan b = true → r = ⟨fpQuietNan f, nv⟩) ∧ (nan a = true → nan b = false → r = ⟨low b, nv⟩) ∧
      (nan a = false → nan b = true → r = ⟨low a, nv⟩) ∧
      (nan a = false → nan b = false → (second → r = ⟨low b, nv⟩) ∧ (¬ second → r = ⟨low a, nv⟩))
    let holds := fun (r : FRes) (rel : Prop) (flags : Nat) => r.flags = flags ∧
      (nan a = false ∧ nan b = false ∧ rel → r.bits = 1) ∧ (¬ (nan a = false ∧ nan b = false ∧ rel) → r.bits = 0)
    let any := if nan a || nan b then 16 else 0
    let (neg, ex, fr) := fpFields f a
    let cls := if ex = 2 ^ (formatShape f).1 - 1 then
        (if fr = 0 then (if neg then 0 else 7) else if fr < 2 ^ ((formatShape f).2.1 - 1) then 8 else 9)
      else if ex = 0 then (if fr = 0 then (if neg then 3 else 4) else (if neg then 2 else 5)) else (if neg then 1 else 6)
    pick (fMinMax f false a b) (below b a) ∧ pick (fMinMax f true a b) (below a b) ∧
    holds (fCmp f .eq a b) (fpPlace f a = fpPlace f b) nv ∧ holds (fCmp f .lt a b) (fpPlace f a < fpPlace f b) any ∧
    holds (fCmp f .le a b) (fpPlace f a ≤ fpPlace f b) any ∧
    fClass f a = 2 ^ cls ∧
    ∀ g : Bool, fSgn f g a = ⟨if nan a then fpQuietNan f else a % 2 ^ (f.width - 1) + (if g then 2 ^ (f.width - 1) else 0), 0⟩

/-! ### Conversions and seeds (R69 to R74, R84, R85, R222, R223) -/

/-- The number of a code of F8 or F8W, `none` for its NaN (R69). -/
def eightNumber (wide : Bool) (b : Nat) : Option ℚ :=
  let n : Nat := if wide then 2 else 3
  let e : Nat := b / 2 ^ n % 2 ^ (7 - n)
  let fr : Nat := b % 2 ^ n
  if b % 2 ^ 8 = 0x80 then none
  else some ((if b / 2 ^ 7 % 2 = 1 then -1 else 1) *
    (if wide then (if e = 0 then (fr : ℚ) * 2 ^ (-17 : Int) else (4 + fr : ℚ) * 2 ^ ((e : Int) - 18))
     else (if e = 0 then (fr : ℚ) * 2 ^ (-10 : Int) else (8 + fr : ℚ) * 2 ^ ((e : Int) - 11))))

/-- A result is the conversion of a number to F8 or F8W (R70): `u` is `x` to nearest-even at the format's precision, with no
upper bound of the exponent and the subnormal spacing below the smallest normal; above the greatest magnitude the result
is that magnitude with OF and NX; a zero is the code 0; NX and UF are set as in R68. -/
def roundsToEight (wide : Bool) (r : FRes) (x : ℝ) : Prop :=
  let p := if wide then 3 else 4
  let least : ℤ := if wide then -17 else -10
  let member := fun z : ℝ => ∃ n k : ℤ, |n| < 2 ^ p ∧ least ≤ k ∧ z = n * (2 : ℝ) ^ k
  let even := fun z : ℝ => ∃ n k : ℤ, |2 * n| < 2 ^ p ∧ (2 ^ (p - 1) ≤ |2 * n| ∧ least ≤ k ∨ k = least) ∧
    z = (2 * n : ℤ) * (2 : ℝ) ^ k
  ∃ u v : ℝ, isRounding .rne member even x u ∧ isRounding .rne (precise p) (preciseEven p) x v ∧
    if (if wide then 57344 else 240) < |u| then r = ⟨if x < 0 then 0xFF else 0x7F, 5⟩
    else r.bits < 2 ^ 8 ∧ (∃ y, eightNumber wide r.bits = some y ∧ (y : ℝ) = u) ∧ (u = 0 → r.bits = 0) ∧
      r.flags = if u = x then 0 else if |v| < 2 ^ (if wide then (-15 : Int) else -7) then 3 else 1

/-- A result is the conversion of a number to an integer type from `lo` to `hi` (R74): rounded in the mode, limited to the
range with NV, else with NX where it is inexact. -/
def roundsToInteger (w : Nat) (lo hi : Int) (rm : RMode) (r : FRes) (x : ℝ) : Prop :=
  ∃ n : ℤ, isRounding rm (fun z => ∃ k : ℤ, z = k) (fun z => ∃ k : ℤ, z = (2 * k : ℤ)) x n ∧
    r = if n < lo then ⟨(lo % 2 ^ w).toNat, 16⟩ else if hi < n then ⟨(hi % 2 ^ w).toNat, 16⟩
      else ⟨(n % 2 ^ w).toNat, if (n : ℝ) = x then 0 else 1⟩

/-- `FCVT` and each lane of `VCVT` (R69 to R74, R222, R223), for sources of every kind: FP32, FP64, H16 and B16, F8 and F8W, and
the integers, with NaN and infinite sources, to each kind of destination. -/
def conversionsFollowTheirFamilies : Prop :=
  ∀ (rm : RMode) (src dst : CvtType) (a : Nat),
    let fmt : CvtType → Option Fmt := fun
      | .fp32 => some .fp32 | .fp64 => some .fp64 | .h16 => some .h16 | .b16 => some .b16 | _ => none
    let eight : CvtType → Option Bool := fun | .f8 => some false | .f8w => some true | _ => none
    let integer : CvtType → Option (Nat × Int × Int) := fun
      | .i8 => some (8, -2 ^ 7, 2 ^ 7 - 1) | .i32 => some (32, -2 ^ 31, 2 ^ 31 - 1) | .i64 => some (64, -2 ^ 63, 2 ^ 63 - 1)
      | .n8 => some (8, 0, 2 ^ 8 - 1) | .n32 => some (32, 0, 2 ^ 32 - 1) | .n64 => some (64, 0, 2 ^ 64 - 1) | _ => none
    let r := convert src dst rm a
    let number := fun (x : ℚ) (neg : Bool) =>
      (∀ g, fmt dst = some g → (x = 0 → r = ⟨fpZero g neg, 0⟩) ∧ (x ≠ 0 → roundsTo g rm r x)) ∧
      (∀ wide, eight dst = some wide → (x = 0 → r = ⟨0, 0⟩) ∧ (x ≠ 0 → roundsToEight wide r x))
    (∀ f, fmt src = some f →
      (∀ x, fpNumber f a = some x → number x (fpFields f a).1 ∧
        ∀ w lo hi, integer dst = some (w, lo, hi) → roundsToInteger w lo hi rm r x) ∧
      (fpIsNan f a = true →
        let nv := if fpIsSignalling f a then 16 else 0
        (∀ g, fmt dst = some g → r = ⟨fpQuietNan g, nv⟩) ∧ (∀ wide, eight dst = some wide → r = ⟨0x80, nv⟩) ∧
        (∀ w lo hi, integer dst = some (w, lo, hi) → r = ⟨0, 16⟩)) ∧
      (fpIsInf f a = true →
        let neg := (fpFields f a).1
        (∀ g, fmt dst = some g → r = ⟨fpInfinity g neg, 0⟩) ∧
        (∀ wide, eight dst = some wide → r = ⟨if neg then 0xFF else 0x7F, 5⟩) ∧
        (∀ w lo hi, integer dst = some (w, lo, hi) → r = ⟨((if neg then lo else hi) % 2 ^ w).toNat, 16⟩))) ∧
    (∀ v, eight src = some v →
      (∀ x, eightNumber v a = some x → number x false ∧ (∀ g, fmt dst = some g → r.flags = 0) ∧
        ∀ w lo hi, integer dst = some (w, lo, hi) → roundsToInteger w lo hi rm r x) ∧
      (eightNumber v a = none →
        (∀ g, fmt dst = some g → r = ⟨fpQuietNan g, 0⟩) ∧ (∀ wide, eight dst = some wide → r = ⟨0x80, 0⟩) ∧
        (∀ w lo hi, integer dst = some (w, lo, hi) → r = ⟨0, 16⟩))) ∧
    (∀ w lo hi, integer src = some (w, lo, hi) →
      let n : Int := if lo < 0 then signedOf w (a % 2 ^ w) else (a % 2 ^ w : Nat)
      number n false ∧ ∀ w' lo' hi', integer dst = some (w', lo', hi') → r = ⟨(max lo' (min hi' n) % 2 ^ w').toNat, 0⟩)

/-- FSEED (R84, R85, R224): the index is the first ten fraction bits of the operand; the seed of its interval's middle is rounded
to 12 significant bits and then into the format, and only that last rounding sets flags; the special operands give the
table of R85. -/
def seedsFollowTheTable : Prop :=
  ∀ (f : Fmt) (root : Bool) (a : Nat),
    let r := fSeed f root a
    let neg := (fpFields f a).1
    (fpIsNan f a = true → r = ⟨fpQuietNan f, if fpIsSignalling f a then 16 else 0⟩) ∧
    (fpIsInf f a = true → r = if root && neg then ⟨fpQuietNan f, 16⟩ else ⟨fpZero f neg, 0⟩) ∧
    ∀ x, fpNumber f a = some x →
      (x = 0 → r = ⟨fpInfinity f neg, 8⟩) ∧ (x < 0 → root = true → r = ⟨fpQuietNan f, 16⟩) ∧
      (0 < x ∨ x < 0 ∧ root = false →
        ∃ (e : ℤ) (m : ℚ) (u : ℝ), 1 ≤ m ∧ m < 2 ∧ |x| = 2 ^ e * m ∧
          let i := ⌊(m - 1) * 1024⌋
          let middle : ℝ := 1 + (2 * i + 1 : ℤ) / 2048
          isRounding .rne (precise 12) (preciseEven 12)
            (if root then (if e % 2 = 0 then (2 : ℝ) ^ (-(e / 2)) / Real.sqrt middle
                else (2 : ℝ) ^ (-((e - 1) / 2)) / Real.sqrt (2 * middle))
              else (2 : ℝ) ^ (-e) / middle) u ∧
          roundsTo f .rne r (if x < 0 then -u else u))

/-- FTRANS (R86, R225): NaN, zero, infinite and negative operands as the table of R225 says; the reciprocal and the reciprocal
square root rounded once to nearest-even; powers of two of integers and logarithms of powers of two exact. Of the other
results, which no number of a format equals, this statement says nothing. -/
def transcendentalsFollowTheTable : Prop :=
  ∀ (f : Fmt) (a : Nat),
    let neg := (fpFields f a).1
    let one := fun (s : Bool) (r : FRes) => roundsTo f .rne r (if s then -1 else 1)
    let nan : FRes := ⟨fpQuietNan f, 16⟩
    let zero := fun s => (⟨fpZero f s, 0⟩ : FRes)
    let inf := fun s => (⟨fpInfinity f s, 0⟩ : FRes)
    (fpIsNan f a = true →
      ∀ r ∈ [fExp2 f a, fLog2 f a, fSin f a, fCos f a, fTanh f a, fAtan f a, fRsq f a, fRcp f a],
        r = ⟨fpQuietNan f, if fpIsSignalling f a then 16 else 0⟩) ∧
    (fpIsInf f a = true →
      fExp2 f a = (if neg then zero false else inf false) ∧ fLog2 f a = (if neg then nan else inf false) ∧
      fSin f a = nan ∧ fCos f a = nan ∧ one neg (fTanh f a) ∧
      roundsTo f .rne (fAtan f a) (if neg then -(Real.pi / 2) else Real.pi / 2) ∧
      fRsq f a = (if neg then nan else zero false) ∧ fRcp f a = zero neg) ∧
    ∀ x, fpNumber f a = some x →
      (x = 0 → one false (fExp2 f a) ∧ fLog2 f a = ⟨fpInfinity f true, 8⟩ ∧ fSin f a = zero neg ∧ one false (fCos f a) ∧
        fTanh f a = zero neg ∧ fAtan f a = zero neg ∧ fRsq f a = ⟨fpInfinity f neg, 8⟩ ∧
        fRcp f a = ⟨fpInfinity f neg, 8⟩) ∧
      (x < 0 → fLog2 f a = nan ∧ fRsq f a = nan) ∧
      (0 < x → roundsTo f .rne (fRsq f a) (1 / Real.sqrt x)) ∧
      (x ≠ 0 → roundsTo f .rne (fRcp f a) (1 / x)) ∧
      (∀ n : ℤ, x = n → x ≠ 0 → roundsTo f .rne (fExp2 f a) ((2 : ℝ) ^ n)) ∧
      (∀ n : ℤ, x = (2 : ℚ) ^ n → (n = 0 → fLog2 f a = zero false) ∧ (n ≠ 0 → roundsTo f .rne (fLog2 f a) n))

/-- The mode of a rounding field (R66): a dynamic one takes `FCSR.RM`. -/
def modeCode (r : Rnd) (rm : Nat) : Nat := match r with | .rne => 0 | .rtz => 1 | .rdn => 2 | .rup => 3 | .dyn => rm
def modeCode4 (q : Rnd4) (rm : Nat) : Nat := match q with | .rne => 0 | .rtz => 1 | .rdn => 2 | .dyn => rm

/-- The scalar FP words on registers, each with its operand values, its result and flags, and the code of the mode that it
consults, 0 where it consults none (R218 to R226). -/
def fpWords (s : State) (d a b c : GReg) (r : Rnd) (q : Rnd4) (f : Fmt) (src dst : CvtType) :
    List (Instr × (Word × Word × Word) × (Word × Nat) × Nat) :=
  let rm := s.hot.fcsr.toNat / 32 % 8
  let x := s.g a
  let y := s.g b
  let z := s.g c
  let m := RMode.ofCode (modeCode r rm)
  let m4 := RMode.ofCode (modeCode4 q rm)
  let two := fun (i : Instr) (v : FRes) (code : Nat) => (i, (x, y, (0 : Word)), (word v.bits, v.flags), code)
  let one := fun (i : Instr) (v : FRes) (code : Nat) => (i, (x, (0 : Word), (0 : Word)), (word v.bits, v.flags), code)
  let three := fun (i : Instr) (v : FRes) => (i, (x, y, z), (word v.bits, v.flags), modeCode4 q rm)
  let cv := convert src dst m x.toNat
  let c1 := modeCode r rm
  [two (.fadd d a b r f) (fAdd f m x.toNat y.toNat) c1, two (.fsub d a b r f) (fSub f m x.toNat y.toNat) c1,
   two (.fmul d a b r f) (fMul f m x.toNat y.toNat) c1, two (.fdiv d a b r f) (fDiv f m x.toNat y.toNat) c1,
   one (.fsqrt d a r f) (fSqrt f m x.toNat) c1,
   two (.fmin d a b r f) (fMinMax f false x.toNat y.toNat) 0, two (.fmax d a b r f) (fMinMax f true x.toNat y.toNat) 0,
   two (.fsgnj d a b f) (fSgn f (f.signOf y.toNat) x.toNat) 0,
   two (.fsgnjn d a b f) (fSgn f (!f.signOf y.toNat) x.toNat) 0,
   two (.fsgnjx d a b f) (fSgn f (f.signOf x.toNat != f.signOf y.toNat) x.toNat) 0,
   two (.feq d a b f) (fCmp f .eq x.toNat y.toNat) 0, two (.flt d a b f) (fCmp f .lt x.toNat y.toNat) 0,
   two (.fle d a b f) (fCmp f .le x.toNat y.toNat) 0, one (.fclass d a f) ⟨fClass f x.toNat, 0⟩ 0,
   (.fcvt d a src r dst, (x, 0, 0), (if dst = .i8 then wordOfInt (signedOf 8 cv.bits)
     else if dst = .i32 then wordOfInt (signedOf 32 cv.bits) else word cv.bits, cv.flags),
     if dst = .f8 ∨ dst = .f8w then 0 else c1),
   one (.frsqe d a f) (fSeed f true x.toNat) 0, one (.frcpe d a f) (fSeed f false x.toNat) 0,
   one (.fexp2 d a f) (fExp2 f x.toNat) 0, one (.flog2 d a f) (fLog2 f x.toNat) 0, one (.fsin d a f) (fSin f x.toNat) 0,
   one (.fcos d a f) (fCos f x.toNat) 0, one (.ftanh d a f) (fTanh f x.toNat) 0, one (.fatan d a f) (fAtan f x.toNat) 0,
   one (.frsq d a f) (fRsq f x.toNat) 0, one (.frcp d a f) (fRcp f x.toNat) 0,
   three (.ffma d a b c f q) (fFma f m4 false false x.toNat y.toNat z.toNat),
   three (.ffms d a b c f q) (fFma f m4 false true x.toNat y.toNat z.toNat),
   three (.fnfma d a b c f q) (fFma f m4 true true x.toNat y.toNat z.toNat),
   three (.fnfms d a b c f q) (fFma f m4 true false x.toNat y.toNat z.toNat)]

/-- Scalar FP words that a core performs itself (a Bassoon all of them, a Piccolo those that R227 does not ship): rd
receives the result, zero-extended, and the flags accrue in `FCSR`[4:0]; where a raised flag's trap is enabled the word
raises FP with the flags and the enabled ones in `TRAPVAL`, writing and accruing nothing (R216, R217, R430, R431). -/
def Obligations.FpWordsWriteAndAccrue : Prop :=
  ∀ (s : State) (d a b c : GReg) (r : Rnd) (q : Rnd4) (f : Fmt) (src dst : CvtType),
    ∀ w ∈ fpWords s d a b c r q f src dst, w.2.2.2 ≤ 3 → s.piccolo = false ∨ shipsFp w.1 = false →
      let te := s.hot.fcsr.toNat / 2 ^ 8 % 2 ^ 5
      let flags := w.2.2.1.2
      (flags &&& te = 0 →
        ∃ t, exec w.1 s = .next t ∧ t.g d = (if d = 0 then 0 else w.2.2.1.1) ∧ s.sameOtherG t d ∧
          t.hot.fcsr = s.hot.fcsr ||| word flags ∧ s.hot.completes t.hot s.hot.nxt ∧
          t.hot = { s.hot with
            g := t.hot.g, fcsr := t.hot.fcsr, pc := t.hot.pc, retired := t.hot.retired, did := t.hot.did,
            history := t.hot.history } ∧
          s.sameOutside t ∧ s.sameMemory t) ∧
      (flags &&& te ≠ 0 → exec w.1 s = .next (s.raise .fp 0 (word ((flags &&& te) * 2 ^ 8 + flags))))

/-- A word with a dynamic rounding field, while `FCSR.RM` holds a reserved code, raises ILLEGAL detail 4 with the word
(R66, R424). Which words consult the mode, VFP words among them and `FMIN`, `FMAX` and conversions to F8 and F8W not, is log
entry 16, DEDUCED; that this detail precedes others of the same word is log entry 17, DEDUCED. -/
def reservedRoundingModesAreIllegal : Prop :=
  ∀ (s : State) (d a b c : GReg) (v w : VReg) (k : MReg) (f : Fmt) (src dst : CvtType),
    3 < s.hot.fcsr.toNat / 32 % 8 →
    let traps := fun (i : Instr) => exec i s = .next (s.raise .illegal 4 (s.wordVal i))
    traps (.fadd d a b .dyn f) ∧ traps (.fsub d a b .dyn f) ∧ traps (.fmul d a b .dyn f) ∧ traps (.fdiv d a b .dyn f) ∧
    traps (.fsqrt d a .dyn f) ∧ (dst ≠ .f8 → dst ≠ .f8w → traps (.fcvt d a src .dyn dst)) ∧
    traps (.ffma d a b c f .dyn) ∧ traps (.ffms d a b c f .dyn) ∧ traps (.fnfma d a b c f .dyn) ∧
    traps (.fnfms d a b c f .dyn) ∧ traps (.vfadd v w w k f) ∧ traps (.vfmul v w w k f) ∧ traps (.vffma v w w w f)

/-- Words that a Piccolo ships (R227 to R230, R233, R234): scalar FP words on FP64 and FTRANS, `CAS2` and `SWP2`. With a
ship-window entry free, and HOME of its quad in service, the lowest entry holds the word until its reply, a packet with
the operands leaves for HOME, the word retires, and no register is written yet; with none free the word stalls. -/
def Obligations.ShippedWordsTakeAWindowEntry : Prop :=
  ∀ (s : State) (d a b c : GReg) (p u : GPair) (r : Rnd) (q : Rnd4) (f : Fmt) (src dst : CvtType) (sc : Scope) (o : Order),
    s.piccolo = true →
    let fp := ((fpWords s d a b c r q f src dst).filter fun w => shipsFp w.1 && decide (w.2.2.2 ≤ 3)).map fun w =>
      (w.1, ShipOps.scalar w.2.1.1 w.2.1.2.1 w.2.1.2.2)
    let pair := ShipOps.pair (s.g a) (s.g (GPair.lo p)) (s.g (GPair.hi p)) (s.g (GPair.lo u)) (s.g (GPair.hi u))
    ∀ w ∈ fp ++ [(.cas2 p a u sc o, pair), (.swp2 p a u sc o, pair)],
      ((∀ k : Fin 8, s.hot.window[k.val] ≠ none) → exec w.1 s = .next s.stall) ∧
      (∀ k : Fin 8, s.hot.window[k.val] = none → (∀ j : Fin 8, j < k → s.hot.window[j.val] ≠ none) →
        let target := (s.shipTarget s.core).toNat % 2 ^ 8
        let home := coreKey s.die (128 + target % 4)
        (s.getCore home).isolated = false →
        ∃ t e pkt, exec w.1 s = .next t ∧ t.hot.window = s.hot.window.set k.val (some e) ∧ e.instr = w.1 ∧
          e.addr = s.hot.tpc ∧ e.order = s.hot.order ∧ e.reply = none ∧ e.packet = some pkt ∧ pkt.ops = w.2 ∧
          pkt.slot = s.hotId ∧ pkt.tag = k ∧ pkt.ctx = s.hot.ctx ∧ pkt.target = target ∧
          t.agenda = s.agenda ++ [Event.shipPacketArrival home pkt] ∧ s.hot.completes t.hot s.hot.nxt ∧
          t.hot = { s.hot with window := t.hot.window, pc := t.hot.pc, retired := t.hot.retired, did := t.hot.did } ∧
          s.sameOutside { t with agenda := s.agenda } ∧ s.sameMemory t)

/-! ## Vector words (R241 to R264, R323) -/

/-- The vector register whose lane `i` of `w` bits is `f i`. -/
def vec (w : Nat) (f : Nat → Nat) : VWord :=
  BitVec.ofNat 512 (((List.range (512 / w)).map fun i => f i % 2 ^ w * 2 ^ (w * i)).sum)

/-- The mask register whose bit `i` is `f` of `i` modulo the lane count (R254). -/
def maskOf (w : Nat) (f : Nat → Bool) : Word := wordOf fun i => f (i % (512 / w))

/-- A V word performs as it issues (R241, R244, R267): the V stream is empty, no repetition is under way, and where the word
consults `FCSR.RM` (R424) its code is not reserved. -/
def performsAtOnce (s : State) (i : Instr) : Prop :=
  s.hot.vq = [] ∧ s.hot.vrun = none ∧ s.hot.rep = none ∧ (s.piccolo = false ∨ shipsV i = false) ∧
    (vConsultsRm i = true → s.hot.fcsr.toNat / 32 % 8 ≤ 3)

/-- A V word answers a next state with this effect: registers, an entry appended, flags accrued in `FCSR`[4:0]; nothing
else changes (R243, R247). -/
def vectorWrites (s : State) (o : Out) (v : Option (VReg × VWord)) (m : Option (MReg × Word)) (g : Option (GReg × Word))
    (flags : Nat) : Prop :=
  ∃ t, o = .next t ∧
    (∀ r, t.v r = match v with | some (d, x) => (if r = d then x else s.v r) | none => s.v r) ∧
    (∀ r, t.m r = match m with | some (d, x) => (if r = d ∧ r ≠ 0 then x else s.m r) | none => s.m r) ∧
    (∀ r, t.g r = match g with | some (d, x) => (if r = d ∧ r ≠ 0 then x else s.g r) | none => s.g r) ∧
    t.hot.fcsr = s.hot.fcsr ||| word flags ∧ s.hot.completes t.hot s.hot.nxt ∧
    t.hot = { s.hot with
      v := t.hot.v, m := t.hot.m, g := t.hot.g, fcsr := t.hot.fcsr, pc := t.hot.pc, retired := t.hot.retired,
      did := t.hot.did, history := t.hot.history } ∧
    s.sameOutside t ∧ s.sameMemory t

/-- Integer V words and lane moves that perform at once (R247, R250, R255, R258 to R261): each active lane of vd receives
the rule's function, an inactive one keeps its value. `VBCAST` from `q0` or `q1` takes its oldest entry, and with the queue
empty waits in the vector issue queue (R173, R174). -/
def Obligations.VectorIntegerWordsWriteActiveLanes : Prop :=
  ∀ (s : State) (d a b : VReg) (x y : GReg) (k : MReg) (e : EW), performsAtOnce s (.vadd d a b k e) →
    let w := e.bits
    let n := 512 / w
    let la := fun i => (s.v a).toNat / 2 ^ (w * i) % 2 ^ w
    let lb := fun i => (s.v b).toNat / 2 ^ (w * i) % 2 ^ w
    let old := fun i => (s.v d).toNat / 2 ^ (w * i) % 2 ^ w
    let on := fun i => (s.m k).getLsbD i
    let wrap := fun (z : Int) => (z % 2 ^ w).toNat
    let writes := fun (i : Instr) (f : Nat → Nat) =>
      vectorWrites s (exec i s) (some (d, vec w fun j => if on j then f j else old j)) none none 0
    let lanes2 := fun (i : Instr) (f : Nat → Nat → Nat) => writes i fun j => f (la j) (lb j)
    lanes2 (.vadd d a b k e) (fun p q => p + q) ∧
    lanes2 (.vsub d a b k e) (fun p q => wrap ((p : Int) - q)) ∧
    lanes2 (.vmul d a b k e) (fun p q => p * q) ∧
    lanes2 (.vmulh d a b k e) (fun p q => wrap (signedOf w p * signedOf w q / 2 ^ w)) ∧
    lanes2 (.vand d a b k e) (fun p q => p &&& q) ∧
    lanes2 (.vor d a b k e) (fun p q => p ||| q) ∧
    lanes2 (.vxor d a b k e) (fun p q => p ^^^ q) ∧
    lanes2 (.vsll d a b k e) (fun p q => p * 2 ^ (q % w)) ∧
    lanes2 (.vsrl d a b k e) (fun p q => p / 2 ^ (q % w)) ∧
    lanes2 (.vsra d a b k e) (fun p q => wrap (signedOf w p / 2 ^ (q % w))) ∧
    lanes2 (.vmin d a b k e) (fun p q => wrap (min (signedOf w p) (signedOf w q))) ∧
    lanes2 (.vmax d a b k e) (fun p q => wrap (max (signedOf w p) (signedOf w q))) ∧
    lanes2 (.vminn d a b k e) min ∧
    lanes2 (.vmaxn d a b k e) max ∧
    vectorWrites s (exec (.vsel d a b k e) s) (some (d, vec w fun j => if on j then la j else lb j)) none none 0 ∧
    writes (.vperm d a b k e) (fun j => la (lb j % n)) ∧
    writes (.vzip d a b k e) (fun j => if j % 2 = 0 then la (j / 2) else lb (j / 2)) ∧
    writes (.vunzip d a b k e) (fun j => if j < n / 2 then la (2 * j) else lb (2 * (j - n / 2))) ∧
    writes (.vbcast d (.g x) k e) (fun _ => (s.g x).toNat) ∧
    (∀ (q : Fin 2) (h : Word) (rest : List Word), s.hot.q[q.val] = h :: rest →
      ∃ t, exec (.vbcast d (.q q) k e) s = .next t ∧ t.hot.q = s.hot.q.set q.val rest ∧
        vectorWrites s (.next { t with hot := { t.hot with q := s.hot.q } })
          (some (d, vec w fun j => if on j then h.toNat else old j)) none none 0) ∧
    (∀ (q : Fin 2), s.hot.q[q.val] = [] →
      ∃ t v, exec (.vbcast d (.q q) k e) s = .next t ∧ t.hot.vq = [v] ∧ v.instr = .vbcast d (.q q) k e ∧
        s.hot.completes t.hot s.hot.nxt ∧
        t.hot = { s.hot with vq := t.hot.vq, pc := t.hot.pc, retired := t.hot.retired, did := t.hot.did } ∧
        s.sameOutside t ∧ s.sameMemory t) ∧
    vectorWrites s (exec (.vins d x y k e) s)
      (some (d, vec w fun j => if j = (s.g y).toNat % n ∧ on j = true then (s.g x).toNat else old j)) none none 0

/-- `TRAPVAL` of a V word's FP trap (R431): in [63:32] a bit for each lane, modulo 32, that raised an enabled flag, the lanes of
each raising given as a set of bits; then the enabled flags raised, and all of them. -/
def vectorTrapValue (te : Nat) (raised : List (Nat × Nat)) : Word :=
  let flags := (raised.map (·.2)).foldl (· ||| ·) 0
  let lanes := ofBits ((List.range 32).map fun i => raised.any fun x => x.1.testBit i && x.2 &&& te != 0)
  word (lanes * 2 ^ 32 + (flags &&& te) * 2 ^ 8 + flags)

/-- FP V words that a core performs itself, at once (R251 to R253, R262 to R264, R323): each active lane receives the rounded
result, an inactive one keeps its value and raises nothing, and the flags of the active lanes accrue together; where one
is enabled as a trap the word raises FP with the lanes that raised one in `TRAPVAL`, and nothing is written (R430, R431). -/
def Obligations.VectorFloatWordsWriteActiveLanes : Prop :=
  ∀ (s : State) (d a b c : VReg) (k : MReg) (f : Fmt) (src dst : CvtType) (q : Rnd4) (t : Q8Type) (p : Fin 4)
    (z : BitVec 2),
    let m := RMode.ofCode (s.hot.fcsr.toNat / 32 % 8)
    let te := s.hot.fcsr.toNat / 2 ^ 8 % 2 ^ 5
    let la := fun (w : Nat) (r : VReg) i => (s.v r).toNat / 2 ^ (w * i) % 2 ^ w
    let acts := fun (i : Instr) (value : VWord) (lanes : List (Nat × Nat)) => performsAtOnce s i →
      let flags := (lanes.map (·.2)).foldl (· ||| ·) 0
      (flags &&& te = 0 → vectorWrites s (exec i s) (some (d, value)) none none flags) ∧
      (flags &&& te ≠ 0 → exec i s = .next (s.raise .fp 0 (vectorTrapValue te (lanes.map fun x => (2 ^ (x.1 % 32), x.2)))))
    let masked := fun (i : Instr) (w : Nat) (g : Nat → FRes) =>
      acts i (vec w fun j => if (s.m k).getLsbD j then (g j).bits else la w d j)
        (((List.range (512 / w)).filter fun j => (s.m k).getLsbD j).map fun j => (j, (g j).flags))
    let w := f.width
    let two := fun (i : Instr) (g : Nat → Nat → FRes) => masked i w fun j => g (la w a j) (la w b j)
    let three := fun (i : Instr) (g : Nat → Nat → Nat → FRes) =>
      acts i (vec w fun j => (g (la w a j) (la w b j) (la w c j)).bits)
        ((List.range (512 / w)).map fun j => (j, (g (la w a j) (la w b j) (la w c j)).flags))
    let cm := RMode.ofCode (modeCode4 q (s.hot.fcsr.toNat / 32 % 8))
    let n := 512 / max src.width dst.width
    two (.vfadd d a b k f) (fAdd f m) ∧ two (.vfsub d a b k f) (fSub f m) ∧ two (.vfmul d a b k f) (fMul f m) ∧
    two (.vfdiv d a b k f) (fDiv f m) ∧ two (.vfmin d a b k f) (fMinMax f false) ∧
    two (.vfmax d a b k f) (fMinMax f true) ∧
    masked (.vfsqrt d a k f) w (fun j => fSqrt f m (la w a j)) ∧
    masked (.vfrsqe d a k f) w (fun j => fSeed f true (la w a j)) ∧
    masked (.vfrcpe d a k f) w (fun j => fSeed f false (la w a j)) ∧
    three (.vffma d a b c f) (fFma f m false false) ∧ three (.vffms d a b c f) (fFma f m false true) ∧
    three (.vfnfma d a b c f) (fFma f m true true) ∧ three (.vfnfms d a b c f) (fFma f m true false) ∧
    acts (.vcvt d a src k q dst)
      (BitVec.ofNat 512 (((List.range n).map fun j => (if (s.m k).getLsbD j
        then (convert src dst cm (la src.width a j)).bits else la dst.width d j) % 2 ^ dst.width * 2 ^ (dst.width * j)).sum))
      (((List.range n).filter fun j => (s.m k).getLsbD j).map fun j => (j, (convert src dst cm (la src.width a j)).flags)) ∧
    masked (.vdot4 d a b k .f8) 32 (fun j => dotF8 (la 32 d j) (la 32 a j) (la 32 b j)) ∧
    masked (.vdot4 d a b k .i8) 32 (fun j =>
      ⟨(((la 32 d j : Int) + ((List.range 4).map fun i =>
        signedOf 8 (la 32 a j / 2 ^ (8 * i)) * signedOf 8 (la 32 b j / 2 ^ (8 * i))).sum) % 2 ^ 32).toNat, 0⟩) ∧
    acts (.vq8 d a b k t p)
      (vec 8 fun j => if 16 * p.val ≤ j ∧ j < 16 * p.val + 16 ∧ (s.m k).getLsbD (j - 16 * p.val) = true
        then (quant8 t (signedOf 32 (la 32 b 0)) (la 32 a (j - 16 * p.val))).bits else la 8 d j)
      (((List.range 16).filter fun j => (s.m k).getLsbD j).map fun j =>
        (j, (quant8 t (signedOf 32 (la 32 b 0)) (la 32 a j)).flags)) ∧
    acts (.barq d a b z)
      (BitVec.ofNat 512 (leValue (barq (vBytes (s.v a)) (vBytes (s.v b)) z.toNat).1))
      ((barq (vBytes (s.v a)) (vBytes (s.v b)) z.toNat).2.mapIdx fun j x => (j, x))

/-- Compares and mask words that perform at once (R254, R256): a compare writes bit i of the mask register with the relation
of lane i, 0 for an inactive lane, repeated through all 64 bits; FP compares accrue the flags of active lanes, or trap. `MPOP`
and `MFIRST` write the count of one bits and the lowest one bit, 64 for none; writes to m0 are discarded. -/
def compareAndMaskWordsWrite : Prop :=
  ∀ (s : State) (d x y : MReg) (a b : VReg) (r : GReg) (k : MReg) (e : EW) (f : Fmt),
    let la := fun (w : Nat) (v : VReg) i => (s.v v).toNat / 2 ^ (w * i) % 2 ^ w
    let on := fun i => (s.m k).getLsbD i
    let te := s.hot.fcsr.toNat / 2 ^ 8 % 2 ^ 5
    let cmp := fun (i : Instr) (g : Nat → Nat → Bool) => performsAtOnce s i →
      vectorWrites s (exec i s) none (some (d, maskOf e.bits fun j => on j && g (la e.bits a j) (la e.bits b j))) none 0
    let fcmp := fun (i : Instr) (rel : FRel) => performsAtOnce s i →
      let lanes := ((List.range (512 / f.width)).filter fun j => on j).map fun j =>
        (2 ^ (j % 32), (fCmp f rel (la f.width a j) (la f.width b j)).flags)
      let flags := (lanes.map (·.2)).foldl (· ||| ·) 0
      (flags &&& te = 0 → vectorWrites s (exec i s) none
        (some (d, maskOf f.width fun j => on j && (fCmp f rel (la f.width a j) (la f.width b j)).bits == 1)) none flags) ∧
      (flags &&& te ≠ 0 → exec i s = .next (s.raise .fp 0 (vectorTrapValue te lanes)))
    let mask := fun (i : Instr) (g : Nat → Bool) => performsAtOnce s i →
      vectorWrites s (exec i s) none (some (d, wordOf g)) none 0
    let count := fun (i : Instr) (n : Nat) => performsAtOnce s i →
      vectorWrites s (exec i s) none none (some (r, word n)) 0
    cmp (.veq d a b k e) (fun p q => p == q) ∧
    cmp (.vlt d a b k e) (fun p q => decide (signedOf e.bits p < signedOf e.bits q)) ∧
    cmp (.vltn d a b k e) (fun p q => decide (p < q)) ∧
    fcmp (.vfeq d a b k f) .eq ∧ fcmp (.vflt d a b k f) .lt ∧ fcmp (.vfle d a b k f) .le ∧
    mask (.mand d x y) (fun i => (s.m x).getLsbD i && (s.m y).getLsbD i) ∧
    mask (.mor d x y) (fun i => (s.m x).getLsbD i || (s.m y).getLsbD i) ∧
    mask (.mxor d x y) (fun i => (s.m x).getLsbD i != (s.m y).getLsbD i) ∧
    mask (.mnot d x) (fun i => !(s.m x).getLsbD i) ∧
    count (.mpop r x) (oneBits (s.m x)) ∧ count (.mfirst r x) (trailingZeros (s.m x))

/-- V words with a scalar result that perform at once (R174, R257, R258): rd receives it, or `q2` or `q3` gains it as its
last entry. Sums, least and greatest of the active lanes as signed integers, the pairwise sum of FP lanes in the rule's
tree, and one lane, 0 where it is inactive. An enabled flag of
the sum traps with the lanes beneath the additions that raised one (R257, R431). With the queue full the word waits
instead. -/
def vectorScalarResultsAreWrittenOrAppended : Prop :=
  ∀ (s : State) (r : GReg) (n : Fin 2) (a : VReg) (b : GReg) (k : MReg) (e : EW) (f : Fmt),
    let w := e.bits
    let la := fun i => signedOf w ((s.v a).toNat / 2 ^ (w * i) % 2 ^ w)
    let active := (List.range (512 / w)).filter fun i => (s.m k).getLsbD i
    let i := (s.g b).toNat % (512 / w)
    let te := s.hot.fcsr.toNat / 2 ^ 8 % 2 ^ 5
    let tree := treeSum f (RMode.ofCode (s.hot.fcsr.toNat / 32 % 8)) (treeDepth f)
      ((List.range (512 / f.width)).map fun j => if (s.m k).getLsbD j
        then some ((s.v a).toNat / 2 ^ (f.width * j) % 2 ^ f.width, 2 ^ (j % 32)) else none)
    let yields := fun (word_ : VDst → Instr) (x : Word) (raised : List (Nat × Nat)) => performsAtOnce s (word_ (.g r)) →
      let flags := (raised.map (·.2)).foldl (· ||| ·) 0
      (flags &&& te ≠ 0 →
        exec (word_ (.g r)) s = .next (s.raise .fp 0 (vectorTrapValue te raised)) ∧
        ((s.hot.q[2 + n.val]).length < 8 →
          exec (word_ (.q n)) s = .next (s.raise .fp 0 (vectorTrapValue te raised)))) ∧
      (flags &&& te = 0 →
      vectorWrites s (exec (word_ (.g r)) s) none none (some (r, x)) flags ∧
      ((s.hot.q[2 + n.val]).length < 8 →
        ∃ t, exec (word_ (.q n)) s = .next t ∧ t.hot.q = s.hot.q.set (2 + n.val) (s.hot.q[2 + n.val] ++ [x]) ∧
          t.hot.g = s.hot.g ∧ t.hot.v = s.hot.v ∧ t.hot.m = s.hot.m ∧ t.hot.fcsr = s.hot.fcsr ||| word flags ∧
          s.hot.completes t.hot s.hot.nxt ∧ s.sameOutside t ∧ s.sameMemory t) ∧
      (8 ≤ (s.hot.q[2 + n.val]).length →
        ∃ t v, exec (word_ (.q n)) s = .next t ∧ t.hot.vq = [v] ∧ v.instr = word_ (.q n) ∧ t.hot.q = s.hot.q ∧
          s.hot.completes t.hot s.hot.nxt ∧ s.sameOutside t ∧ s.sameMemory t))
    yields (fun d => .vrsum d a k e) (wordOfInt ((active.map la).sum)) [] ∧
    yields (fun d => .vrmin d a k e) (wordOfInt ((active.map la).foldl min (2 ^ (w - 1) - 1))) [] ∧
    yields (fun d => .vrmax d a k e) (wordOfInt ((active.map la).foldl max (-2 ^ (w - 1)))) [] ∧
    yields (fun d => .vrfsum d a k f) (word tree.1) tree.2 ∧
    yields (fun d => .vext d a b k e)
      (if (s.m k).getLsbD i then word ((s.v a).toNat / 2 ^ (w * i) % 2 ^ w) else 0) []

/-- A V word that issues while an earlier one waits or runs, outside a capture and not to be shipped (R241), enters the
vector issue queue of 16 entries and retires; it writes nothing yet. With the queue full it stalls. -/
def Obligations.VectorWordsQueueBehindEarlierOnes : Prop :=
  ∀ (s : State) (i : Instr), isV i = true → s.hot.rep = none → s.hot.vq ≠ [] ∨ s.hot.vrun ≠ none →
    s.piccolo = false ∨ shipsV i = false → (vConsultsRm i = true → s.hot.fcsr.toNat / 32 % 8 ≤ 3) →
    (s.hot.vq.length < 16 →
      ∃ t e, exec i s = .next t ∧ t.hot.vq = s.hot.vq ++ [e] ∧ e.instr = i ∧ e.addr = s.hot.tpc ∧
        e.order = s.hot.order ∧ s.hot.completes t.hot s.hot.nxt ∧
        t.hot = { s.hot with vq := t.hot.vq, pc := t.hot.pc, retired := t.hot.retired, did := t.hot.did } ∧
        s.sameOutside t ∧ s.sameMemory t) ∧
    (16 ≤ s.hot.vq.length → exec i s = .next s.stall)

/-- FP arithmetic (R64 to R68, R216, R218, R226), whole: the exact result rounded once, infinite operands, and NaN operands, as
the three parts above say. -/
def Obligations.ArithmeticRoundsTheExactResultOnce : Prop :=
  arithmeticRoundsTheExactResultOnce ∧ infiniteOperandsGiveTheExactResult ∧ nanOperandsGiveTheCanonicalNan

/-- Words that trap before they have an effect (R66, R175, R177, R179, R206, R211, R213, R214, R424, R425, R427), whole: supervisor words in user mode,
CSR numbers that name no register or forbid the access, and reserved rounding modes, as the three parts above say. -/
def Obligations.IllegalAndPrivilegedWordsTrap : Prop :=
  supervisorWordsTrapInUserMode ∧ badCsrNumbersAreIllegal ∧ reservedRoundingModesAreIllegal

/-- V words with a mask or a scalar as result (R254 to R258), whole, as the two parts above say. -/
def Obligations.MaskAndScalarResultsAreWritten : Prop :=
  compareAndMaskWordsWrite ∧ vectorScalarResultsAreWrittenOrAppended

/-! ## Engine commands (R301, R304 to R316, R319, R434, R451) -/

/-- A shadow set that R307 allows: a length of 1 to 2^36 bytes, which rows, where given, make up; a deal has no rows, whole
blocks, a destination in window w0, a step, and 1 to 128 targets of which the first is one. -/
def legalShadow (x : Slot) : Prop :=
  let n := x.xset[2].toNat % 2 ^ 37
  let rows := x.xset[5].toNat / 2 ^ 32 % 2 ^ 24
  let deal := x.xset[6].toNat
  0 < n ∧ n ≤ 2 ^ 36 ∧ (rows = 0 ∨ n = rows * (x.xset[5].toNat % 2 ^ 32)) ∧
  (deal / 2 ^ 63 % 2 = 1 →
    rows = 0 ∧ n % (64 * (deal / 2 ^ 32 % 2 ^ 10 + 1)) = 0 ∧
    0x00F0000000000000 ≤ x.xset[1].toNat ∧ x.xset[1].toNat < 0x00F1000000000000 ∧
    0 < deal / 2 ^ 16 % 2 ^ 8 ∧ 0 < deal / 2 ^ 8 % 2 ^ 8 ∧ deal / 2 ^ 8 % 2 ^ 8 ≤ 128 ∧
    deal % 2 ^ 8 < deal / 2 ^ 8 % 2 ^ 8)

/-- The number in `n` bytes at byte `i` of a block. -/
def blockNumber (bs : List Byte) (i n : Nat) : Nat := leValue ((bs.drop i).take n)

/-- A parameter block with zeros where R305 requires them. -/
def legalParams (pb : List Byte) : Prop :=
  blockNumber pb 10 1 < 16 ∧ blockNumber pb 11 1 < 4 ∧ blockNumber pb 12 4 = 0 ∧ blockNumber pb 24 8 = 0

/-- No read range meets a write range (R451). -/
def rangesApart (reads writes : List (Nat × Nat)) : Prop :=
  ∀ (r : Nat × Nat), r ∈ reads → ∀ (w : Nat × Nat), w ∈ writes → min r.2 w.2 ≤ max r.1 w.1

/-- Every range has its own entry of the table, the lowest that were free, and no other entry has changed (R301); which of the
free ones are taken is the model's choice (DESIGN CHOICE, log 78). -/
def registered (before after : List (Nat × Lock)) (ctx id : Nat) (reads writes : List (Nat × Nat)) : Prop :=
  let rows := reads.map (fun r => (⟨ctx, r.1, r.2, false, id⟩ : Lock)) ++
    writes.map (fun r => (⟨ctx, r.1, r.2, true, id⟩ : Lock))
  let free := (List.range 256).filter fun i => !before.any fun l => l.1 == i
  after = (List.zip free rows).foldl (fun (t : List (Nat × Lock)) (x : Nat × Lock) => tabSet t x.1 x.2) before ∧
    rows.length ≤ free.length

/-- What an engine word leaves alone: all of the slot but its scoreboard, its wait, its matrix commands, `pc` and `RETIRED`;
all of the package but the range-lock table of one die, what is on its way and the counter of registrations. -/
def engineFrame (s t : State) (die : Nat) : Prop :=
  t.hot = { s.hot with
    busy := t.hot.busy, wait := t.hot.wait, matrix := t.hot.matrix, pc := t.hot.pc, retired := t.hot.retired,
    did := t.hot.did } ∧
  s.sameOutside { t with agenda := s.agenda, ids := s.ids, dies := s.dies } ∧ t.ids = s.ids + 1 ∧
  t.dies = tabSet s.dies die { s.getDie die with locks := (t.getDie die).locks } ∧ s.sameMemory t

/-- The lowest address that a read and a write range share (R451). -/
def lowestShared (reads writes : List (Nat × Nat)) (a : Nat) : Prop :=
  IsLeast {x | ∃ r ∈ reads, ∃ w ∈ writes, r.1 ≤ x ∧ x < r.2 ∧ w.1 ≤ x ∧ x < w.2} a

/-- A read of `XLAUNCH` (R306), with the parameter block read as a load: a legal set and block whose ranges do not meet
are registered, and the transfer goes to its engine with what the eight CSRs and the block say, and with the slot's matrix
commands before it, whose updates come first (R140); rd waits for the id. Illegal sets raise ENGINE detail 1 with the word,
illegal blocks detail 2 with their address, ranges that meet detail 3 with the lowest address they share, and a block that
cannot be read the cause of a load with the block's address. It waits while updates of the slot are outstanding, and while
its block misses. A matrix command that is parked is none of those before it (DESIGN CHOICE, log 51). -/
def readsXlaunch (s : State) (i : Instr) (d : GReg) : Prop :=
  ∀ (s1 s2 : State) (ps : List (Phys × Elem)) (pb : List Byte),
    let x := s2.hot
    let reads := [sideRange x.xset[0] x.xset[3] (x.xset[2].toNat % 2 ^ 37) (x.xset[5].toNat / 2 ^ 32 % 2 ^ 24)
      (x.xset[5].toNat % 2 ^ 32)]
    (s.hot.updates ≠ [] → exec i s = .next s.stall) ∧
    (s.hot.updates = [] → ∀ f c,
      s.checkAll s.me s.die .load [(0, ⟨s.hot.xset[7], 32, 1, false⟩)] = (s1, some f, ps) → f.cause = some c →
        exec i s = .next (s1.raise c f.detail s.hot.xset[7])) ∧
    (s.hot.updates = [] →
      s.checkAll s.me s.die .load [(0, ⟨s.hot.xset[7], 32, 1, false⟩)] = (s1, none, ps) → s1.loadWaits ps = false →
      (s1.loadsHit ps = false → exec i s = .next (s1.askLoads ps).stall) ∧
      (s1.loadsHit ps = true → s1.readAll (some s1.core) ps = (s2, pb) →
      (¬legalShadow x → exec i s = .next (s2.raise .engine 1 (s2.wordVal (.csrr d 0x088)))) ∧
      (legalShadow x → ¬legalParams pb → exec i s = .next (s2.raise .engine 2 s.hot.xset[7])) ∧
      (legalShadow x → legalParams pb → ∀ a, lowestShared reads x.writeRanges a →
        exec i s = .next (s2.raise .engine 3 (word a))) ∧
      (legalShadow x → legalParams pb → rangesApart reads x.writeRanges →
        reads.length + x.writeRanges.length ≤ ((s2.getDie s2.die).freeLocks).length →
        ∃ t c, exec i s = .next t ∧
          t.agenda = s2.agenda ++
            [Event.engineCommandArrival s2.die c.bte.val (coreStop (pcoreOf s2.core)) (.bte c)] ∧
          (c.src = x.xset[0] ∧ c.dst = x.xset[1] ∧ c.cnt = x.xset[2] ∧ c.strs = x.xset[3] ∧ c.strd = x.xset[4] ∧
            c.shape = x.xset[5] ∧ c.deal = x.xset[6]) ∧
          (c.slot = s2.hotId ∧ c.gen = x.gen ∧ c.rd = d ∧ c.ctx = x.ctx ∧ c.lcore = x.lcore ∧
            c.supervisor = x.supervisor ∧ c.lock = s2.ids ∧ c.after = s2.waitsFor) ∧
          c.handler = word (blockNumber pb 0 8) ∧
          c.doneLc = (if blockNumber pb 8 2 = 0xFFFF then x.lcore else blockNumber pb 8 2) ∧
          c.bte.val = blockNumber pb 10 1 % 8 ∧ c.auto = decide (8 ≤ blockNumber pb 10 1) ∧
          c.prio = blockNumber pb 11 1 ∧ c.tag = word (blockNumber pb 16 8) ∧
          registered (s2.getDie s2.die).locks (t.getDie s2.die).locks x.ctx s2.ids reads x.writeRanges ∧
          t.hot.busy = (if d = 0 then x.busy else (d, .engine) :: x.busy) ∧ t.hot.wait = x.wait ∧ t.hot.matrix = x.matrix ∧
          x.completes t.hot x.nxt ∧ engineFrame s2 t s2.die)))

/-- Engine words (R306, R309, R313, R319, R434): `CSRR` of `XLAUNCH` as above; `MMA` and `MQD`, of a block on a multiple of
64 and a die up to 23, read the block, register its ranges at the target die, send it and wait; accepted, they retire,
and refused they raise CAPABILITY with its detail and the capability. The updates of `MMA` belong to the slot's reductions
until it has ended (R122, R143). Bad operands and blocks raise ILLEGAL detail 8, the block's alignment before the die (DEDUCED,
log 17); ranges that meet ENGINE detail 3 with the lowest address they share, and an unreadable block the cause of a load,
with the block's address (R451). A refusal waits for the passes of the repetition buffer, as the buffer is idle in the
handler (R408). -/
def Obligations.EngineWordsSendTheirCommand : Prop :=
  ∀ (s s1 s2 : State) (d a b : GReg) (mqd : Bool) (ps : List (Phys × Elem)) (bs : List Byte) (k : Nat) (cap : Word),
    let i : Instr := if mqd then .mqd a b else .mma a b
    let va := s.g a
    let die := (s.g b).toNat % 2 ^ 5
    let engine := 8 + (s.g b).toNat / 2 ^ 5 % 2 ^ 2
    let reads := if mqd then mqdReads bs else mmaReads bs
    let writes := if mqd then mqdWrites bs else mmaWrites bs
    let bad := if mqd then badMqd bs else badMma bs
    readsXlaunch s (.csrr d 0x088) d ∧
    (s.hot.wait = some .accepted →
      ∃ t, exec i s = .next t ∧ s.hot.completes t.hot s.hot.nxt ∧
        t.hot = { s.hot with wait := none, pc := t.hot.pc, retired := t.hot.retired, did := t.hot.did } ∧
        s.sameOutside t ∧ s.sameMemory t) ∧
    (s.hot.wait = some (.refused k cap) → s.hot.passesLeft = true → exec i s = .next s.stall) ∧
    (s.hot.wait = some (.refused k cap) → s.hot.passesLeft = false →
      exec i s = .next ({ s with hot := { s.hot with wait := none } }.raise .capability k cap)) ∧
    (s.hot.wait = some .sent → exec i s = .next s.stall) ∧
    (s.hot.wait = none →
      (va.toNat % 64 ≠ 0 → exec i s = .next (s.raise .illegal 8 va)) ∧
      (va.toNat % 64 = 0 → 23 < die → exec i s = .next (s.raise .illegal 8 (s.g b))) ∧
      (va.toNat % 64 = 0 → die ≤ 23 → s.hot.updates ≠ [] → exec i s = .next s.stall) ∧
      (va.toNat % 64 = 0 → die ≤ 23 → s.hot.updates = [] → ∀ f c,
        s.checkAll s.me s.die .load [(0, ⟨va, 64, 1, false⟩)] = (s1, some f, ps) → f.cause = some c →
          exec i s = .next (s1.raise c f.detail va)) ∧
      (va.toNat % 64 = 0 → die ≤ 23 → s.hot.updates = [] →
        s.checkAll s.me s.die .load [(0, ⟨va, 64, 1, false⟩)] = (s1, none, ps) → s1.loadWaits ps = false →
        s1.loadsHit ps = true → s1.readAll (some s1.core) ps = (s2, bs) →
        (bad = true → exec i s = .next (s2.raise .illegal 8 va)) ∧
        (bad = false → ∀ a, lowestShared reads writes a → exec i s = .next (s2.raise .engine 3 (word a))) ∧
        (bad = false → rangesApart reads writes →
          reads.length + writes.length ≤ ((s2.getDie die).freeLocks).length →
          ∃ t c, exec i s = .next t ∧ t.agenda = s2.agenda ++ [Event.engineCommandArrival die engine
              (s2.entryStop s2.die (coreStop (pcoreOf s2.core)) die) (.mxe c)] ∧
            (c.slot = s2.hotId ∧ c.gen = s2.hot.gen ∧ c.ctx = s2.hot.ctx ∧ c.lcore = s2.hot.lcore ∧
              c.supervisor = s2.hot.supervisor ∧ c.fromDie = s2.die ∧ c.mqd = mqd ∧ c.block = va ∧ c.bytes = bs ∧
              c.lock = s2.ids ∧ c.asid = (s2.getCtx s2.hot.ctx).asidr.toNat / 2 ^ 44 % 2 ^ 16 ∧ c.after = s2.waitsFor ∧
              c.sb = if mqd then 0 else blockNumber bs 56 2 % 2 ^ 11) ∧
            registered (s2.getDie die).locks (t.getDie die).locks s2.hot.ctx s2.ids reads writes ∧
            t.hot.wait = some .sent ∧ t.hot.did = .stalled ∧ t.hot.busy = s2.hot.busy ∧
            t.hot.matrix = (if mqd then s2.hot.matrix else s2.hot.matrix ++ [s2.ids]) ∧ engineFrame s2 t die)))

/-! ## Events: what takes place in a unit, on the oldest event on its way -/

/-- With event `e` the oldest on its way, its row `i` answers a next state `t`; `u` is the state without the event. -/
def takes (s : State) (i : Instr) (e : Event) (effect : State → State → Prop) : Prop :=
  ∀ rest, s.agenda = e :: rest → ∃ t, exec i s = .next t ∧ effect { s with agenda := rest } t

/-! ## Events of a slot and of a core's issue (R132, R210, R241, R243, R296, R335, R336, R410, R466, R471, R50) -/

/-- An issue position is offered: the slot after the one that issued last is the executing one, and no slot has changed. -/
def offersSlots (u t : State) (core : Nat) : Prop :=
  t.hotId = core * 4 + ((u.getCore core).rrSlot + 1) % 4 ∧ t.issuing = true ∧ t.scan = 3 ∧
    (∀ k, t.getSlot k = u.getSlot k) ∧ t.agenda = u.agenda ∧ t.ctxs = u.ctxs ∧ t.dies = u.dies ∧ u.sameMemory t

/-- The value of an episode with one OP (R297): 0, the sum, the least or the greatest as signed integers; the FP64 sum in
the tree of gang ranks. -/
def episodeValue (b : Barrier) (op : Nat) : Word :=
  let xs := b.given.map fun x => x.2.2.toInt
  match op with
  | 1 => wordOfInt xs.sum
  | 2 => wordOfInt (xs.foldl min (xs.headD 0))
  | 3 => wordOfInt (xs.foldl max (xs.headD 0))
  | 4 => combineBarrier (if 0x10000 ≤ b.gang then b.gang - 0x10000 else b.gang) 4 b.given
  | _ => 0

/-- A slot of a member of an episode waits for its end. -/
def waitsFor (u : State) (b : Barrier) (k : Nat) : Prop :=
  (u.getSlot k).active = true ∧ (u.getSlot k).lcore ∈ b.members ∧ (u.getSlot k).wait = some (.barrier b.key)

/-- ISSUE_CYCLE and BASSOON_ISSUE offer issue positions (R335, R336): a Bassoon's deficit counter gains `GSHARE` first, and
at 16 with a guest waiting, the head of the guest queue takes the position. WFM_WAKE writes the code and ends the wait.
FENCE_TOKEN_COMPLETION completes the token once nothing it awaits is left. VECTOR_WORD_START takes the oldest V word and evaluates it,
VECTOR_WORD_COMPLETION writes its effect. ACKNOWLEDGEMENT gives rd the task id. BARRIER_EPISODE_COMPLETION gives the
waiting participants value and code. FAULT_PATH waits for earlier work, then saves, ends and reports the activation, or
kills the context of a supervisor one. QUEUE_WATCHDOG raises QUEUE_STALL at the waiting bundle (its `pc` as the place: DEDUCED,
log 22). CORE_REGISTER_ERROR
stops the slot with POISON detail 5, and the third in a second isolates the core. -/
def Obligations.SlotEventsTakeEffect : Prop :=
  ∀ (s : State) (core k gen seq id : Nat) (d : GReg) (e : Fin 8) (counted : Bool) (c gang unit : Nat) (sc : Scope)
    (seen : Option (Nat × Nat × Word)) (awaits : List Await) (halts : Option Nat),
    takes s .issueCycle (.issueCycle core) (fun u t =>
      isBassoonCore core = false → (u.getCore core).isolated = false →
        offersSlots u t core ∧ t.second = false ∧ t.cores = u.cores) ∧
    takes s .bassoonIssue (.bassoonIssue core) (fun u t =>
      isBassoonCore core = true → (u.getCore core).isolated = false →
        let x := u.getCore core
        let sum := x.deficit + x.gshare
        (sum < 16 ∨ x.guest = [] →
          offersSlots u t core ∧ t.second = true ∧
            t.cores = tabSet u.cores core { x with share := x.gshare, deficit := if 16 ≤ sum then sum - 16 else sum }) ∧
        (16 ≤ sum → ∀ p ps, x.guest = p :: ps →
          p ∈ (t.getCore core).running ∧ Event.guestEntryCompletion core p ∈ t.agenda)) ∧
    takes s .wfmWake (.wfmWake k seen) (fun u t => ∀ rd limit, (u.getSlot k).phase = .wfm rd limit →
      let x := u.getSlot k
      let found := match seen with
        | some (code, g, n) => if x.gen = g ∧ x.retired = n then some code else none
        | none => none
      let wakes := fun (code : Nat) => ∃ y, t = u.setSlot k y ∧ y.phase = .running ∧
        (∀ r, y.getG r = if r = 0 then 0 else if r = rd then word code else x.getG r) ∧
        y = { x with g := y.g, phase := .running }
      (∀ code, found = some code → wakes (max code ((u.wakeCode k limit).getD 0))) ∧
      (∀ code, found = none → u.wakeCode k limit = some code → wakes code) ∧
      (found = none → u.wakeCode k limit = none → t = u)) ∧
    takes s .fenceTokenCompletion (.fenceTokenCompletion k gen e seq awaits halts) (fun u t =>
      let x := u.getSlot k
      let v := match halts with
        | some n => if (u.getCtx n).live then u else u.setCtx n { u.getCtx n with haltDone := true }
        | none => u
      ((∃ a ∈ awaits, u.awaited a = true) → t = u.post (.fenceTokenCompletion k gen e seq awaits halts)) ∧
      ((∀ a ∈ awaits, u.awaited a = false) →
        (∀ n, x.gen = gen → x.tokens[e.val] = some ⟨seq, [], n⟩ →
          t = v.setSlot k { x with tokens := x.tokens.set e.val (some ⟨seq, [], true⟩) }) ∧
        (x.gen ≠ gen → t = v))) ∧
    takes s .vectorWordStart (.vectorWordStart k) (fun u t => ∀ v vs,
      let x := u.getSlot k
      x.vrun = none → x.rep = none → x.vq = v :: vs → v.tag = none → v.cap = none → vTakes v.instr = none →
        t = (u.setSlot k { x with vq := vs, vrun := some (v, evalV v.instr (vOps v.instr x v.gops 0) v.rm) }).post
          (.vectorWordCompletion k)) ∧
    takes s .vectorWordCompletion (.vectorWordCompletion k) (fun u t => ∀ v r,
      let x := u.getSlot k
      x.vrun = some (v, r) → v.tag = none → v.cap = none → r.q = none → x.shipping = false → x.phase = .running →
        vTrapped v.te r = false →
        ∃ y, t = (u.setSlot k y).post (.vectorWordStart k) ∧
          (∀ n, y.getV n = match r.v with | some (m, w) => (if n = m then w else x.getV n) | none => x.getV n) ∧
          (∀ n, y.getM n = match r.m with | some (m, w) => (if n = m ∧ n ≠ 0 then w else x.getM n) | none => x.getM n) ∧
          (∀ n, y.getG n = match r.g with | some (m, w) => (if n = m ∧ n ≠ 0 then w else x.getG n) | none => x.getG n) ∧
          y.fcsr = x.fcsr ||| word ((r.raised.map (·.2)).foldl (· ||| ·) 0) ∧
          y = { x with v := y.v, m := y.m, g := y.g, fcsr := y.fcsr, vrun := none, history := y.history }) ∧
    takes s .acknowledgement (.acknowledgement (.slot k gen d counted) id false) (fun u t =>
      let x := u.getSlot k
      (x.gen = gen → (d, .task) ∈ x.busy → x.phase = .running →
        ∃ y, t = u.setSlot k y ∧ (∀ r, y.getG r = if r = 0 then 0 else if r = d then word id else x.getG r) ∧
          y = { x with
            g := y.g, busy := x.busy.erase (d, .task), creations := x.creations - counted.toNat,
            ownCreations := x.ownCreations - (!counted).toNat }) ∧
      (x.gen ≠ gen → t = u)) ∧
    takes s .barrierEpisodeCompletion (.barrierEpisodeCompletion c gang unit sc id) (fun u t => ∀ b op,
      u.barriers.find? (fun b => b.is c gang sc unit id) = some b → b.given ≠ [] → (∀ m ∈ b.members, ∃ (x : Nat × Nat × Word), x ∈ b.given ∧ x.1 = m) →
        (∀ (x : Nat × Nat × Word), x ∈ b.given → x.2.1 = op) →
        (∀ n, waitsFor u b n → (t.getSlot n).wait = some (.combined (episodeValue b op) 1)) ∧
        (∀ n, ¬waitsFor u b n → t.getSlot n = u.getSlot n) ∧
        (∃ (y : Barrier), y ∈ t.barriers ∧ y.key = b.key ∧ y.given = [] ∧ y.members = [] ∧
          ∀ m ∈ b.members, (∀ n, waitsFor u b n → (u.getSlot n).lcore ≠ m) → (m, episodeValue b op, 1) ∈ y.results) ∧
        t.agenda = u.agenda ∧ t.cores = u.cores ∧ t.ctxs = u.ctxs ∧ u.sameMemory t) ∧
    takes s .faultPath (.faultPath k) (fun u t => ∀ f, k < 24 * 1024 →
      let x := u.getSlot k
      x.phase = .faulting f →
        (x.supervisor = true → (t.getCtx x.ctx).live = false) ∧
        (x.supervisor = false → x.quiet = false → t = u) ∧
        (x.supervisor = false → x.quiet = true → f.cause ≠ 0x11 ∨ f.detail ≠ 5 → x.refusal = none → x.stub = none →
          ∀ u1 p, u.writeSave k (saveRecord x f.pc 0 (2 ^ 32 - 1) (2 ^ 32 - 1) 255 1) = (u1, .position p) →
          u1.preempting (coreOfSlot k) x.ctx x.lcore = false →
          let u2 := (u1.setSlot k x.freed).post (.dispatch (coreOfSlot k))
          ∀ at_ h sup, u2.endpoint (dieOfSlot k) x.ctx = (.here at_, h) → u2.supervisorOf x.ctx = some sup →
          (u2.getCtx sup).acceptsHandler h = true → (u2.getCtx sup).live = true →
          let u3 := u2.headerTouch x.ctx
          ∃ m, t = u3.post (.faultReportArrival at_ (u3.entryStop (dieOfSlot k) (coreStop (k / 4 % 256)) (dieOfCore at_)) m) ∧
            isMessage m h 5 6 3 sup x.lcore 0xFFFF
              [word (f.cause % 2 ^ 8 + f.remote.toNat * 2 ^ 8 + x.ctx % 2 ^ 8 * 2 ^ 16 + p % 4 * 2 ^ 24 + 2 ^ 26 +
                x.lcore % 2 ^ 16 * 2 ^ 32),
               f.pc, f.value, word (x.taskId % 2 ^ 32 + f.detail % 2 ^ 16 * 2 ^ 32), u.slotIdOf k, word f.record])) ∧
    takes s .queueWatchdog (.queueWatchdog k) (fun u t => ∀ i n,
      let x := u.hot
      u.hotId = k → x.active = true → x.phase = .running → x.wait = none → x.heldTrap = none → x.held = [] →
        (∀ j : Fin 8, x.window[j.val] = none) → x.vrun = none → x.vq = [] → x.rep = none →
        u.bundleWaits = some (i, n) →
        trapFrame x t.hot ∧ u.sameMemory t ∧
        (x.trapvec ≠ 0 ∧ x.trapcause.getLsbD 9 = false →
          t.hot.pc = x.trapvec ∧ t.hot.trappc = x.pc ∧ t.hot.trapval = x.pc ∧
          t.hot.trapcause = word (n * 65536 + 512 + 0x0E) ∧ t.agenda = u.agenda) ∧
        (¬(x.trapvec ≠ 0 ∧ x.trapcause.getLsbD 9 = false) →
          t.hot.phase = .faulting ⟨0x0E, n, false, x.pc, x.pc, 0⟩ ∧ t.agenda = u.agenda ++ [Event.faultPath k])) ∧
    takes s .coreRegisterError (.coreRegisterError k) (fun u t =>
      let x := u.getSlot k
      let y := u.getCore (coreOfSlot k)
      let recent := u.time.toNat :: y.errors.filter fun n => decide (u.time.toNat ≤ n + 10 ^ 9)
      y.isolated = false → x.active = true → (∀ j : Fin 8, x.window[j.val] = none) →
        (recent.length < 3 →
          (∃ v, (t.getSlot k).phase = .faulting ⟨0x11, 5, false, v, x.pc, 0⟩) ∧ t.agenda = u.agenda ++ [Event.faultPath k] ∧
          t.cores = tabSet u.cores (coreOfSlot k) { y with errors := recent } ∧ t.ctxs = u.ctxs ∧ u.sameMemory t) ∧
        (3 ≤ recent.length → (t.getCore (coreOfSlot k)).isolated = true))

/-! ## Messages at a core (R39, R42, R43, R45 to R50, R294, R321, R333, R334, R460, R463) -/

/-- Bits `[lo + n - 1 : lo]` of the meta word of a message (R38). -/
def metaField (m : Msg) (lo n : Nat) : Nat := m.metaWord.toNat / 2 ^ lo % 2 ^ n

/-- A well-formed message of a type (R39, R460): FLAGS zero, and a PLEN that the type allows. -/
def formed (m : Msg) (type : Nat) : Prop :=
  metaField m 50 14 = 0 ∧ metaField m 40 4 = type ∧
    (match type with
     | 1 => metaField m 44 4 = 8
     | 3 => metaField m 44 4 = 0
     | 4 => metaField m 44 4 = 1
     | 6 => 3 ≤ metaField m 44 4 ∧ metaField m 44 4 ≤ 6
     | _ => metaField m 44 4 ≤ 14)

/-- A task-carrying message: of type 0, 1 or 2, other than a completion of R59. -/
def taskMessage (m : Msg) : Prop :=
  (formed m 0 ∨ formed m 1 ∨ formed m 2) ∧ ¬(metaField m 40 4 = 2 ∧ metaField m 0 16 = 0xFFFF)

/-- A message to the supervisor endpoint: a fault report, or a completion of R59. -/
def endpointMessage (m : Msg) : Prop := formed m 5 ∨ formed m 2 ∧ metaField m 0 16 = 0xFFFF

/-- Two messages from one source to one logical core of one context (R48). -/
def oneFlow (a b : Msg) : Prop := metaField a 32 8 = metaField b 32 8 ∧ metaField a 16 16 = metaField b 16 16 ∧
  metaField a 0 16 = metaField b 0 16

/-- An earlier message of the flow, but for dispensed tasks, waits to be sent again, at whatever core (R48, R332). -/
def behindRetry (u : State) (m : Msg) : Prop := ∃ k n c, Resend.message k n c none ∈ u.backoff ∧ oneFlow m n

/-- The wake-ups that an event of a code brings at a core: of the slots of a context in `WFM` (R210). -/
def wakeups (u : State) (core c code : Nat) : List Event :=
  ((List.range 4).filter fun i =>
    let x := u.getSlot (core * 4 + i)
    (match x.phase with | .wfm .. => true | _ => false) && x.active && x.ctx == c).map fun i =>
      let x := u.getSlot (core * 4 + i)
      .wfmWake (core * 4 + i) (some (code, x.gen, x.retired))

/-- What a core does once it has accepted a message: it wakes, dispatches and redelivers. -/
def goesOn (u : State) (core c : Nat) : List Event := wakeups u core c 1 ++ [Event.dispatch core, Event.redelivery core]

/-- The acknowledgement that a creator receives, if it waits for one (R289). -/
def acknowledged (c : Creator) (id : Nat) : List Event :=
  match c with | .none | .send .. => [] | _ => [Event.acknowledgement c id false]

/-- The next task id of a logical core (R42). -/
def nextTaskId (u : State) (c l : Nat) : Nat := l * 2 ^ 16 + tabGet 0 (u.getCtx c).accept l

/-- The context with the acceptance counter of a logical core counted up (R42). -/
def countedUp (u : State) (c l : Nat) : Context :=
  { u.getCtx c with accept := tabSet (u.getCtx c).accept l ((tabGet 0 (u.getCtx c).accept l + 1) % 2 ^ 16) }

/-- A message entered the arrival queue (R42, R45): at its end, with the next task id, its priority and the cycle; its
creator is told, the core dispatches and redelivers, waiting slots wake. Nothing else has changed. -/
def entersQueue (u t : State) (core : Nat) (m : Msg) (cr : Creator) : Prop :=
  let c := metaField m 32 8
  let l := metaField m 0 16
  let x := u.getCore core
  t = { u with
    cores := tabSet u.cores core { x with
      arrival := x.arrival ++ [⟨m, nextTaskId u c l, metaField m 48 2, (u.cycleOf core).toNat, none, none, false⟩] }
    ctxs := tabSet u.ctxs c (countedUp u c l)
    agenda := u.agenda ++ acknowledged cr (nextTaskId u c l) ++ goesOn u core c }

/-- The arrival queue may take a message (R45): its spill queue is empty, the core holds the logical core, which carries
no mark there, and is in service, and the queue holds fewer than 64 entries. -/
def queueTakes (u : State) (core : Nat) (m : Msg) (d : SpillDesc) (held : Bool) : Prop :=
  d.head = d.tail ∧ held = true ∧
    (∀ (k : PreMark), k ∈ (u.getCore core).marks → ¬(k.ctx = metaField m 32 8 ∧ k.lcore = metaField m 0 16)) ∧
    (u.getCore core).isolated = false ∧ (u.getCore core).arrival.length < 64

/-- `x` is the next of a list in round-robin order after the one served last: the least greater, else the least. Where none has
been served yet it is the least (DESIGN CHOICE, log 2). -/
def nextInRound (l : List Nat) (last : Option Nat) (x : Nat) : Prop :=
  x ∈ l ∧
    match last with
    | none => ∀ y ∈ l, x ≤ y
    | some z => ((∃ y ∈ l, z < y) → z < x ∧ ∀ y ∈ l, z < y → x ≤ y) ∧ ((¬∃ y ∈ l, z < y) → ∀ y ∈ l, x ≤ y)

/-- A turn of redelivery (R47): the head of the spill queue next in order, by context and then by logical core. -/
def redeliveryTurn (core : Nat) (u v : State) : Prop :=
  ∃ c l, let x := u.getCore core
    nextInRound (u.servedContexts core) x.rrCtx c ∧
    nextInRound (u.servedCores core c) (if tabHas x.rrLc c then some (tabGet 0 x.rrLc c) else none) l ∧
    v = (((u.setCore core { x with rrCtx := some c, rrLc := tabSet x.rrLc c l }).serveTouch core c).popSpill core c l).wakeWfm
      core c 1

def redeliveryTurns (core : Nat) : Nat → State → State → Prop
  | 0, u, t => t = u
  | n + 1, u, t => ∃ v, (u.getCore core).arrival.length < 64 ∧ redeliveryTurn core u v ∧ redeliveryTurns core n v t

/-- The entry at an index may be dispatched (R49, R58, R333): it is not held back nor moving; the context of an endpoint
message carries no mark, and the logical core of another none and fewer than 4 activations and saved ones. -/
def mayGo (u : State) (core i : Nat) (e : ArrEntry) : Prop :=
  let x := u.getCore core
  let c := metaField e.msg 32 8
  let l := metaField e.msg 0 16
  x.arrival[i]? = some e ∧ e.moving = none ∧
  (e.range = none → ∀ j b, j < i → x.arrival[j]? = some b → b.range = none → ¬oneFlow b.msg e.msg) ∧
  (if metaField e.msg 40 4 = 5 ∨ metaField e.msg 40 4 = 2 ∧ l = 0xFFFF then ∀ (k : PreMark), k ∈ x.marks → k.ctx ≠ c
   else (∀ (k : PreMark), k ∈ x.marks → ¬(k.ctx = c ∧ k.lcore = l)) ∧
    ((List.range 4).filter fun j =>
      let y := u.getSlot (core * 4 + j)
      y.active && y.ctx == c && y.lcore == l).length + ((u.getCtx c).occupied.filter fun p => p / 4 == l).length < 4)

/-- The entry at an index is the one dispatched: of those that may go, the oldest of highest priority. -/
def chosenEntry (u : State) (core i : Nat) (e : ArrEntry) : Prop :=
  mayGo u core i e ∧ ∀ j b, mayGo u core j b → b.prio < e.prio ∨ (b.prio = e.prio ∧ i ≤ j)

/-- The lowest-numbered free slot of a core (R334). -/
def lowestFree (u : State) (core i : Nat) : Prop :=
  i < 4 ∧ (u.getSlot (core * 4 + i)).active = false ∧ ∀ j < i, (u.getSlot (core * 4 + j)).active = true

/-- A message as bytes: the handler address, the meta word, the payload (R38). -/
def messageBytes (m : Msg) : List Byte :=
  (m.handler :: m.metaWord :: m.payload).flatMap fun w => (List.range 8).map fun i => byteOf w.toNat i

/-- A slot holds the state of R43 for a message: the registers of the convention, and every queue, buffer and CSR in its
first state. -/
def startsAs (u : State) (x y : Slot) (e : ArrEntry) : Prop :=
  let m := e.msg
  let l := metaField m 0 16
  let c := metaField m 32 8
  (y.active = true ∧ y.ctx = c ∧ y.lcore = l ∧ y.taskId = e.taskId ∧ y.prio = e.prio ∧ y.pc = m.handler ∧ y.tctx = c ∧
    y.gen = x.gen ∧ y.supervisor = u.ctxs.any fun z => z.2.supctx.toNat / 2 ^ 8 % 2 == 1 && z.2.supctx.toNat % 2 ^ 8 == c) ∧
  (y.getG 0 = 0 ∧ y.getG 1 = (u.getCtx c).runtime ∧ y.getG 2 = word (0x00F0000000000000 + l * 0x40000 + 0x34000) ∧
    y.getG 3 = word (0x00F0000000000000 + l * 0x40000 + 0x30000) ∧ y.getG 4 = word (metaField m 16 16) ∧
    y.getG 5 = word (metaField m 44 4) ∧ y.getG 6 = word e.taskId ∧
    ∀ i : Fin 8, y.getG (Fin.ofNat 32 (8 + i.val)) = m.payload.getD i.val 0) ∧
  ((∀ q : Fin 4, y.q[q.val] = []) ∧ y.rep = none ∧ y.fcsr = 0 ∧ y.contrib = 0 ∧ y.spd = 0 ∧ y.splim = 4096 ∧ y.slim = 16 ∧
    (∀ i : Fin 8, y.xset[i.val] = 0) ∧ y.trapvec = 0 ∧ y.trapcause = 0 ∧ y.trapval = 0 ∧ y.trappc = 0 ∧
    (∀ i : Fin 8, y.tokens[i.val] = none ∧ y.window[i.val] = none) ∧ y.vq = [] ∧ y.vrun = none ∧ y.held = [] ∧
    y.heldTrap = none ∧ y.wait = none ∧ y.phase = .running ∧ y.busy = [] ∧ y.creations = 0 ∧ y.ownCreations = 0 ∧
    y.reductions = [] ∧ y.seq = 0 ∧ y.taken = [] ∧
    y.xid = (if metaField m 40 4 = 2 ∧ l ≠ 0xFFFF ∧ 2 ≤ metaField m 44 4 ∧ (m.payload.getD 1 0).toNat / 2 ^ 32 % 2 = 0 then
      word ((m.payload.getD 1 0).toNat / 2 ^ 48 % 2 ^ 16) else 0))

/-- A core as DISPATCH has prepared a slot of it for a message: the entry is gone, the slot's area is zero where another
context ran last, and the message stands at its start (R35, R43). -/
def preparedFor (u : State) (core n i : Nat) (m : Msg) : State :=
  let v := (u.setCore core { u.getCore core with arrival := (u.getCore core).arrival.eraseIdx i }).zeroArea n (metaField m 32 8)
  { v with mem := memWrite v.mem (slotArea n) (messageBytes m) }.unpoison [(slotArea n, (messageBytes m).length)]

/-- Messages at a core. TASK_MESSAGE_ARRIVAL and FAULT_REPORT_ARRIVAL enter the arrival queue, go to the spill queue, or
are refused and sent again; a malformed one is discarded and counted, types 3, 4 and 6 bypass the queue (a forged one of types 3
and 4 is not told apart: DEDUCED, log 31), one of type 6 for a dead context is discarded and counted, and a report whose
supervisor context is dead kills the faulting context (log 31). What the hardware keeps of a spilled message beside the ring is
the model's (DESIGN CHOICE, log 12); that a context is not looked at of which nothing is spilled is DEDUCED (log 85). BLOCK_MESSAGE sets DST by the block index where the
side's register takes the message, which then goes to that core of the edge quad; any other crosses unchanged. REDELIVERY
takes turns until the queue is full or no spill queue is left. DISPATCH starts the oldest entry of highest priority in the
lowest free slot. AGING_RISE raises an entry that has waited 65,536 cycles. TASK_CONTROL_REQUEST answers a `TCANCEL` or
`TQRY`, or passes it on; a context whose tables cannot be read dies (R464). The hardware's own reads set A in the PTEs that they
translate through (R494). The order in which units act is the model's (log 6). -/
def Obligations.MessageEventsTakeEffect : Prop :=
  ∀ (s : State) (core src k gen c id die i : Nat) (m : Msg) (cr : Creator) (d : GReg) (query : Bool) (side : Fin 4),
    takes s .taskMessageArrival (.taskMessageArrival core src m cr) (fun u t =>
      let c := metaField m 32 8
      let l := metaField m 0 16
      (metaField m 50 14 ≠ 0 →
        t.cores = u.cores ∧ t.ctxs = u.ctxs ∧ t.agenda = u.agenda ∧ t.backoff = u.backoff ∧ (∀ n, t.getSlot n = u.getSlot n) ∧
        ((u.getCtx c).everLive = true → (t.getDie (dieOfCore core)).dropcnt =
          tabSet (u.getDie (dieOfCore core)).dropcnt c (min (tabGet 0 (u.getDie (dieOfCore core)).dropcnt c + 1) (2 ^ 64 - 1)))) ∧
      (formed m 3 → t = { u with agenda := u.agenda ++ [Event.preEmptMessage core m false] }) ∧
      (formed m 4 → t = { u with agenda := u.agenda ++ [Event.resumeMessage core m false] }) ∧
      (formed m 6 → (u.getCtx c).live = false → t.agenda = u.agenda ∧ t.cores = u.cores ∧
        ((u.getCtx c).everLive = true → (t.getDie (dieOfCore core)).dropcnt =
          tabSet (u.getDie (dieOfCore core)).dropcnt c (min (tabGet 0 (u.getDie (dieOfCore core)).dropcnt c + 1) (2 ^ 64 - 1)))) ∧
      (formed m 6 → (u.getCtx c).live = true → ∃ a, t = { u with agenda := u.agenda ++ [Event.remoteAtomicMessage a] } ∧
        a.iword = (m.payload.getD 0 0).toNat % 2 ^ 32 ∧ a.pa = (m.payload.getD 1 0).toNat) ∧
      (taskMessage m → (u.getCtx c).live = true → ¬behindRetry u m → ∀ (dsc : SpillDesc) (held : Bool),
        u.spillDesc c l = some dsc → u.holds core c l = some held →
        let v := u.acceptReads core c l
        (queueTakes u core m dsc held → entersQueue v t core m cr) ∧
        (¬queueTakes u core m dsc held → 2 ^ dsc.cap ≤ (dsc.tail + 2 ^ 32 - dsc.head) % 2 ^ 32 + 64 →
          t.backoff = u.backoff ++ [Resend.message core m cr none] ∧ t.cores = v.cores ∧ t.agenda = v.agenda) ∧
        (¬queueTakes u core m dsc held → (dsc.tail + 2 ^ 32 - dsc.head) % 2 ^ 32 + 64 < 2 ^ dsc.cap → ∀ (u1 u2 : State),
          (v.setCtx c (countedUp v c l)).tableWrite c (dsc.ring + word (128 * (dsc.tail % 2 ^ dsc.cap)))
            ((messageBytes m ++ List.replicate 128 0).take 128) = some u1 →
          u1.tableWrite c ((u.getCtx c).spillbase + word (32 * l) + 12)
            ((List.range 4).map fun i => byteOf ((dsc.tail + 1) % 2 ^ 32) i) = some u2 →
          u2.sameMemory t ∧ t.cores = u2.cores ∧ t.backoff = u2.backoff ∧
          (⟨l, dsc.tail, nextTaskId u c l, false, none, core, (u.cycleOf core).toNat, metaField m 48 2⟩ : Spilled) ∈
            (t.getCtx c).spilled ∧
          t.agenda = u2.agenda ++ acknowledged cr (nextTaskId u c l) ++
            (if t.messageWaits core c then wakeups u2 core c 1 else []) ++ [Event.dispatch core, Event.redelivery core]))) ∧
    takes s .faultReportArrival (.faultReportArrival core src m) (fun u t =>
      let c := metaField m 32 8
      let x := u.getCore core
      endpointMessage m →
        ((u.getCtx c).live = false → ¬behindRetry u m → formed m 5 → (t.getCtx ((m.payload.headD 0).toNat / 2 ^ 16 % 2 ^ 8)).live = false) ∧
        ((u.getCtx c).live = true → ¬behindRetry u m → x.arrival.length < 64 → x.isolated = false →
          (∀ (k : PreMark), k ∈ x.marks → k.ctx ≠ c) → entersQueue u t core m .none) ∧
        ((u.getCtx c).live = true → behindRetry u m ∨ 64 ≤ x.arrival.length ∨ x.isolated = true ∨ (∃ (k : PreMark), k ∈ x.marks ∧ k.ctx = c) →
          t = { u with backoff := u.backoff ++ [Resend.message core m .none none] })) ∧
    takes s .blockMessage (.blockMessage die side core m cr) (fun u t =>
      let r := (u.getDie die).gateway[side.val].toNat
      let block := (m.payload.headD 0).toNat % 4
      let l := r % 2 ^ 16 + block
      let n : Msg := ⟨m.handler, word (m.metaWord.toNat / 2 ^ 16 * 2 ^ 16 + l % 2 ^ 16), m.payload⟩
      let taken := hasNeighbour die side = true ∧ r / 2 ^ 63 = 1 ∧ metaField m 40 4 = 0 ∧
        r / 2 ^ 32 % 2 ^ 8 = metaField m 32 8 ∧ r % 2 ^ 16 = metaField m 0 16
      let arrives := fun (at_ : Nat) (w : Msg) =>
        exec .taskMessageArrival { u with agenda := .taskMessageArrival at_ src w cr :: u.agenda } = .next t
      (taken → arrives (die * 256 + edgeQuad side * 4 + block) n) ∧ (¬taken → arrives core m)) ∧
    takes s .redelivery (.redelivery core) (fun u t =>
      (48 < (u.getCore core).arrival.length ∨ (u.getCore core).isolated = true → t = u) ∧
      ((u.getCore core).arrival.length ≤ 48 → (u.getCore core).isolated = false → ∀ c, (u.getCtx c).live = true →
        (u.getCtx c).spilled ≠ [] → u.tableRead c (u.getCtx c).coretab 4 = none → (t.getCtx c).live = false) ∧
      ((u.getCore core).arrival.length ≤ 48 → (u.getCore core).isolated = false → u.servedContexts core ≠ [] →
        (∀ x ∈ u.ctxs, u.unservable core x.1 = false) →
        (u.ctxs.map fun x => x.1).Pairwise (· < ·) →
        ∃ (n : Nat) (v : State), redeliveryTurns core n u v ∧ t = v.post (.dispatch core) ∧
          (64 ≤ (v.getCore core).arrival.length ∨ v.servedContexts core = [] ∨ n = u.redeliveryTurns))) ∧
    takes s .dispatch (.dispatch core) (fun u t => ∀ (j : Nat) (e : ArrEntry),
      let x := u.getCore core
      let n := core * 4 + j
      let y := u.getSlot n
      let area := slotArea n
      x.isolated = false → (∀ (r : Nat × Nat × Nat × Nat), r ∈ x.resuming → r.2.2.1 = 0) → lowestFree u core j → chosenEntry u core i e →
      let c := metaField e.msg 32 8
      let l := metaField e.msg 0 16
      let w := preparedFor u core n i e.msg
      let look := w.ctLookup core c l
      (u.getCtx c).acceptsHandler e.msg.handler = true →
      (l ≠ 0xFFFF ∧ look = .unreadable → (t.getCtx c).live = false) ∧
      (l = 0xFFFF ∨ look ≠ .unreadable →
        startsAs u y (t.getSlot n) e ∧ (∀ k, k ≠ n → t.getSlot k = u.getSlot k) ∧
        t.cores = tabSet u.cores core { x with arrival := x.arrival.eraseIdx i } ∧ t.ctxs = u.ctxs ∧ t.dies = u.dies ∧
        t.agenda = u.agenda ++ [Event.dispatch core, Event.redelivery core] ∧
        ((l = 0xFFFF ∨ look = .unmapped) → (t.getSlot n).getG 7 = word l) ∧
        (∀ (b : Word) (g : CtEntry), l ≠ 0xFFFF → look = .entry b g →
          (t.getSlot n).getG 7 = word (if g.gfirst = 0xFFFF then l else (l + 2 ^ 16 - g.gfirst) % 2 ^ 16)) ∧
        t.mem = (if l = 0xFFFF then w else w.ctMiss core c l).mem ∧
        (u.memOk → ∀ a,
          let bs := messageBytes e.msg
          memGet w.mem a =
            if area ≤ a ∧ a < area + bs.length then bs.getD (a - area) 0
            else if y.lastCtx ≠ some c ∧ area ≤ a ∧ a < area + 0x4000 then 0
            else memGet u.mem a))) ∧
    takes s .agingRise (.agingRise core i) (fun u t => ∀ (e : ArrEntry),
      let x := u.getCore core
      x.arrival[i]? = some e → e.since < 2 ^ 64 →
        t = if e.prio < 3 ∧ 65536 ≤ ((u.cycleOf core).toNat + 2 ^ 64 - e.since) % 2 ^ 64 then
          { u with cores := tabSet u.cores core { x with
              arrival := x.arrival.set i { e with prio := e.prio + 1, since := (u.cycleOf core).toNat } } }
        else u) ∧
    takes s .taskControlRequest (.taskControlRequest core k gen d c id query) (fun u t =>
      let x := u.getCore core
      let mine := fun (e : ArrEntry) => metaField e.msg 32 8 = c ∧ e.taskId = id ∧ metaField e.msg 40 4 < 3
      let answers := fun (w : Nat) =>
        (u.getSlot k).gen = gen → (d, .control) ∈ (u.getSlot k).busy → (u.getSlot k).phase = .running →
          (∀ r, (t.getSlot k).getG r = if r = 0 then 0 else if r = d then word w else (u.getSlot k).getG r) ∧
          (t.getSlot k).busy = (u.getSlot k).busy.erase (d, .control) ∧ (∀ n, n ≠ k → t.getSlot n = u.getSlot n) ∧
          t.agenda = u.agenda ++ (if query then [] else [Event.redelivery core])
      let its := fun (y : Spilled) => y.taskId = id ∧ y.void = false ∧ u.holds core c y.lcore = some true
      let spilled := ∃ (y : Spilled), y ∈ (u.getCtx c).spilled ∧ its y
      let moved := fun (f : Nat × Nat × Nat × Nat) => f.1 = c ∧ f.2.1 = id ∧ (u.cycleOf core - word f.2.2.2).toNat < 2 ^ 20
      let read := ∀ (y : Spilled), y ∈ (u.getCtx c).spilled → y.taskId = id → y.void = false → u.holds core c y.lcore ≠ none
      (¬read → (t.getCtx c).live = false) ∧ (read →
      (∀ (i : Nat) (e : ArrEntry), x.arrival[i]? = some e → mine e → (∀ (j : Nat) (b : ArrEntry), j < i → x.arrival[j]? = some b → ¬mine b) →
        answers (if query then x.arrival.length * 2 ^ 8 else 0) ∧ t.ctxs = u.ctxs ∧
        (t.getCore core).arrival = if query then x.arrival else x.arrival.eraseIdx i) ∧
      ((∀ (e : ArrEntry), e ∈ x.arrival → ¬mine e) → spilled →
        answers (if query then x.arrival.length * 2 ^ 8 + 1 else 0) ∧ t.cores = u.cores ∧
        (t.getCtx c).spilled = (if query then (u.getCtx c).spilled
          else (u.getCtx c).spilled.map fun y => if its y then { y with void := true } else y)) ∧
      ((∀ (e : ArrEntry), e ∈ x.arrival → ¬mine e) → ¬spilled → (∀ f ∈ x.fwd, ¬moved f) →
        answers (if query then x.arrival.length * 2 ^ 8 + 2 else 1) ∧ t.cores = u.cores ∧ t.ctxs = u.ctxs) ∧
      ((∀ (e : ArrEntry), e ∈ x.arrival → ¬mine e) → ¬spilled → ∀ (before after : List (Nat × Nat × Nat × Nat)) (there n : Nat),
        x.fwd = before ++ (c, id, there, n) :: after → (∀ f ∈ before, ¬moved f) → moved (c, id, there, n) → there ≠ core →
        t = (u.controlTouch core c id).post (.taskControlRequest there k gen d c id query))))


/-! ## Pre-emption and resumption (R55 to R60, R462) -/

/-- How many of the bits of `map` below bit `r` are set. -/
def onesBelow (map r : Nat) : Nat := ((List.range r).filter fun i => map / 2 ^ i % 2 == 1).length

/-- A save record (R57): the header, the live `g` registers, zeros up to a multiple of 64 bytes, the live `v` and `m`
registers, each in increasing number. -/
def recordOf (x : Slot) (resume desc : Word) (gmap vmap mmap format : Nat) : List Byte :=
  let bytes := fun (n w : Nat) => (List.range n).map fun i => byteOf w i
  let head := bytes 8 resume.toNat ++ bytes 8 desc.toNat ++ bytes 4 gmap ++ bytes 4 vmap ++ bytes 1 mmap ++ bytes 1 format ++
    bytes 1 x.prio ++ bytes 1 0 ++ bytes 4 x.taskId
  let gs := ((List.range 32).filter fun r => gmap / 2 ^ r % 2 == 1).flatMap fun r => bytes 8 (x.getG (Fin.ofNat 32 r)).toNat
  let vs := ((List.range 32).filter fun r => vmap / 2 ^ r % 2 == 1).flatMap fun r => bytes 64 (x.getV (Fin.ofNat 32 r)).toNat
  let ms := ((List.range 8).filter fun r => mmap / 2 ^ r % 2 == 1).flatMap fun r => bytes 8 (x.getM (Fin.ofNat 8 r)).toNat
  head ++ gs ++ List.replicate ((64 - (32 + gs.length) % 64) % 64) 0 ++ vs ++ ms

/-- A logical core carries a mark of one kind on a core. -/
def hasMark (u : State) (core c l : Nat) : Prop := ∃ (k : PreMark), k ∈ (u.getCore core).marks ∧ k.ctx = c ∧ k.lcore = l

/-- A slot of a core runs an activation of a logical core. -/
def runsOn (u : State) (core c l : Nat) : Prop :=
  ∃ i < 4, let x := u.getSlot (core * 4 + i); x.active = true ∧ x.ctx = c ∧ x.lcore = l

/-- A discarded control message leaves cores, contexts, slots and what is on its way alone (R462); it is counted (R414). -/
def controlDiscarded (u t : State) (core c : Nat) : Prop :=
  t.cores = u.cores ∧ t.ctxs = u.ctxs ∧ t.agenda = u.agenda ∧ (∀ n, t.getSlot n = u.getSlot n) ∧
  ((u.getCtx c).everLive = true → (t.getDie (dieOfCore core)).dropcnt =
    tabSet (u.getDie (dieOfCore core)).dropcnt c (min (tabGet 0 (u.getDie (dieOfCore core)).dropcnt c + 1) (2 ^ 64 - 1)))

/-- The completion of a pre-emption reaches the endpoint of the supervisor of a context (R59): logical core, count of save
records, mask of their positions, those of safe-point saves only (DEDUCED, log 37). The core-table header has been read. -/
def completionSent (u t : State) (core c l : Nat) (handler : Word) (saved : List Nat) : Prop :=
  ∀ k h sup, core < 24 * 256 → u.endpoint (dieOfCore core) c = (.here k, h) → u.supervisorOf c = some sup →
    (u.getCtx sup).acceptsHandler handler = true →
    let v := u.headerTouch c
    ∃ m, t = v.post (.faultReportArrival k (v.entryStop (dieOfCore core) (coreStop (core % 256)) (dieOfCore k)) m) ∧
      isMessage m handler 2 1 3 sup l 0xFFFF [word (l * 2 ^ 16 + saved.length % 8 * 16 +
        ((List.range 4).map fun p => if saved.any (fun q => q % 4 == p) then 2 ^ p else 0).sum)]

/-- The registers of a slot that a save record holds (R57, R60). -/
def reloadedFrom (b : List Byte) (y : Slot) : Prop :=
  let gmap := blockNumber b 16 4
  let vmap := blockNumber b 20 4
  let mmap := blockNumber b 24 1
  let v0 := (32 + 8 * onesBelow gmap 32 + 63) / 64 * 64
  let m0 := v0 + 64 * onesBelow vmap 32
  (∀ r : GReg, r ≠ 0 → gmap / 2 ^ r.val % 2 = 1 → y.getG r = word (blockNumber b (32 + 8 * onesBelow gmap r.val) 8)) ∧
  (∀ r : VReg, vmap / 2 ^ r.val % 2 = 1 → (y.getV r).toNat = blockNumber b (v0 + 64 * onesBelow vmap r.val) 64) ∧
  (∀ r : MReg, r ≠ 0 → mmap / 2 ^ r.val % 2 = 1 → y.getM r = word (blockNumber b (m0 + 8 * onesBelow mmap r.val) 8))

/-- PRE_EMPT_MESSAGE marks the logical cores of the context that the core holds, puts their entries back before the heads
of their spill queues, wakes waiting slots, and reports one that no slot runs as pre-empted; a second one, and one that
the endpoint did not send, changes nothing. SAFE_POINT_SAVE, once earlier work has ended, writes the save record at the
lowest free position and frees the slot; the last one reports, each logical core as it is (DESIGN CHOICE, log 49). RESUME_MESSAGE lists positions, and RESUMPTION reloads
one into the lowest free slot, with the fence count that it was saved with (DESIGN CHOICE, log 50), or ends a resume all of whose
activations have run. -/
def Obligations.PreemptionEventsTakeEffect : Prop :=
  ∀ (s : State) (core k : Nat) (m : Msg) (trusted : Bool),
    let c := metaField m 32 8
    takes s .preEmptMessage (.preEmptMessage core m trusted) (fun u t =>
      formed m 3 → (u.getCtx c).live = true →
        (trusted = false → controlDiscarded u t core c) ∧
        (trusted = true → ∀ (ls : List Nat), u.heldCores core c = some ls →
          let r := u.heldTouch core c
          let x := u.getCore core
          let news := ls.filter fun l => !(x.marks.any fun k => k.ctx == c && k.lcore == l)
          let stay := fun (e : ArrEntry) => metaField e.msg 32 8 ≠ c ∨ metaField e.msg 40 4 = 5 ∨
            metaField e.msg 40 4 = 2 ∧ metaField e.msg 0 16 = 0xFFFF
          let u1 := { r with
            cores := tabSet u.cores core { x with marks := x.marks ++ news.map fun l => (⟨c, l, false, m.handler, []⟩ : PreMark) }
            agenda := u.agenda ++ wakeups u core c 2 }
          (news = [] → t = r) ∧
          (news ≠ [] → (∀ (e : ArrEntry), e ∈ x.arrival → stay e) → (∀ l ∈ news, runsOn u core c l) → t = u1) ∧
          (∀ (e : ArrEntry) (es fs : List ArrEntry), x.arrival = es ++ e :: fs → (∀ y ∈ es ++ fs, stay y) → ¬stay e → news ≠ [] →
            ∀ (d : SpillDesc) (u2 u3 : State),
            let l := metaField e.msg 0 16
            let h := (d.head + 2 ^ 32 - 1) % 2 ^ 32
            let v := { r with
              cores := tabSet u.cores core { x with
                arrival := es ++ fs, marks := x.marks ++ news.map fun l => (⟨c, l, false, m.handler, []⟩ : PreMark) } }
            v.spillDesc c l = some d →
            (v.descTouch c l).tableWrite c (d.ring + word (128 * (h % 2 ^ d.cap))) ((messageBytes e.msg ++ List.replicate 128 0).take 128) = some u2 →
            u2.tableWrite c ((u.getCtx c).spillbase + word (32 * l) + 8) ((List.range 4).map fun i => byteOf h i) = some u3 →
              (∀ k ∈ news, runsOn u3 core c k) →
              u3.sameMemory t ∧ t.cores = u3.cores ∧
              (⟨l, h, e.taskId, false, e.range, core, e.since, e.prio⟩ : Spilled) ∈ (t.getCtx c).spilled ∧
              t.agenda = u3.agenda ++ wakeups u3 core c 2) ∧
          (∀ (l : Nat), news = [l] → (∀ (e : ArrEntry), e ∈ x.arrival → stay e) → ¬runsOn u core c l → completionSent { u1 with
              cores := tabSet u.cores core { x with marks := x.marks ++ [⟨c, l, true, m.handler, []⟩] } } t core c l m.handler []))) ∧
    takes s .safePointSave (.safePointSave k) (fun u t => ∀ (desc : Word) (g v n : Nat),
      let x := u.getSlot k
      let core := coreOfSlot k
      x.phase = .saving desc g v n →
        (x.quiet = false → t = u) ∧
        (x.quiet = true → ∀ (u1 : State) (p : Nat), u.writeSave k (recordOf x x.pc desc g v n 0) = (u1, .position p) →
          (u1.getSlot k).stub = none →
          let y := u1.getCore core
          let marks := y.marks.map fun z => if z.ctx = x.ctx ∧ z.lcore = x.lcore then { z with saved := p :: z.saved } else z
          let y1 := u1.getSlot k
          let u2 := { (u1.setSlot k y1.freed) with cores := tabSet u1.cores core { y with marks := marks } }
          (runsOn u2 core y1.ctx y1.lcore → t = { u2 with agenda := u2.agenda ++ [Event.dispatch core] }) ∧
          (¬runsOn u2 core y1.ctx y1.lcore → ∀ (z : PreMark) (zs ws : List PreMark), marks = ws ++ z :: zs → z.ctx = y1.ctx → z.lcore = y1.lcore →
            z.preempted = false → (∀ a ∈ ws ++ zs, ¬(a.ctx = y1.ctx ∧ a.lcore = y1.lcore)) →
            let u3 := { u2 with cores := tabSet u2.cores core { y with marks := ws ++ { z with preempted := true } :: zs } }
            ∃ v, completionSent u3 v core y1.ctx y1.lcore z.handler z.saved ∧ t = { v with agenda := v.agenda ++ [Event.dispatch core] }))) ∧
    takes s .resumeMessage (.resumeMessage core m trusted) (fun u t =>
      let l := metaField m 0 16
      let mask := (m.payload.headD 0).toNat % 2 ^ 4
      let x := u.getCore core
      let y := u.getCtx c
      let ps := (List.range 4).filter fun p => mask / 2 ^ p % 2 == 1
      let mayResume := (∀ z, x.marks.find? (fun k => k.ctx == c && k.lcore == l) = some z → z.preempted = true) ∧
        (¬hasMark u core c l → u.holds core c l = some true) ∧
        (∀ p ∈ ps, l * 4 + p ∈ y.occupied ∧
          ∀ (r : Nat × Nat × Nat × Nat), r ∈ x.resuming → ¬(r.1 = c ∧ r.2.1 = l ∧ r.2.2.1 / 2 ^ p % 2 = 1))
      formed m 4 → y.live = true →
        (trusted = false ∨ ¬mayResume ∧ (hasMark u core c l ∨ u.holds core c l ≠ none) → controlDiscarded u t core c) ∧
        (trusted = true → ¬hasMark u core c l → u.holds core c l = none → (t.getCtx c).live = false) ∧
        (trusted = true → mayResume → (∀ (r : Nat × Nat × Nat × Nat), r ∈ x.resuming → ¬(r.1 = c ∧ r.2.1 = l)) →
          (t.getCore core).resuming = x.resuming ++ [(c, l, mask, ps.length)] ∧
          hasMark t core c l ∧ (t.getCtx c).occupied = y.occupied ∧ t.agenda = u.agenda ++ [Event.resumption core] ∧
          (∀ n, t.getSlot n = u.getSlot n) ∧ (hasMark u core c l → u.sameMemory t) ∧
          (¬hasMark u core c l → (u.ctMiss core c l).sameMemory t))) ∧
    takes s .resumption (.resumption core) (fun u t =>
      let x := u.getCore core
      (x.isolated = true → t = u) ∧
      (x.isolated = false → ∀ (i c l mask n p j : Nat) (b : List Byte),
        x.resuming[i]? = some (c, l, mask, n) → mask ≠ 0 → n ≠ 0 →
        (∀ h r, h < i → x.resuming[h]? = some r → r.2.2.1 = 0) → (∀ (r : Nat × Nat × Nat × Nat), r ∈ x.resuming → r.2.2.1 ≠ 0 ∨ r.2.2.2 ≠ 0) →
        p < 4 → mask / 2 ^ p % 2 = 1 → (∀ q < p, mask / 2 ^ q % 2 = 0) → lowestFree u core j →
        u.recordAt c l p = some b → (blockNumber b 25 1 ≠ 0 ∨ word (blockNumber b 8 8) = 0) →
          let y := t.getSlot (core * 4 + j)
          (tabHas (u.getCtx c).seqs (l * 4 + p) = true → y.seq = tabGet 0 (u.getCtx c).seqs (l * 4 + p)) ∧
          reloadedFrom b y ∧ y.active = true ∧ y.ctx = c ∧ y.lcore = l ∧ y.pc = word (blockNumber b 0 8) ∧
          y.taskId = blockNumber b 28 4 ∧ y.prio = blockNumber b 26 1 % 4 ∧ y.spd = 0 ∧ y.fcsr = 0 ∧ y.trapvec = 0 ∧
          y.phase = .running ∧ y.stub = some (word (blockNumber b 0 8), p) ∧
          (∀ k, k ≠ core * 4 + j → t.getSlot k = u.getSlot k) ∧ l * 4 + p ∉ (t.getCtx c).occupied ∧
          t.cores = tabSet u.cores core { x with
            resuming := x.resuming.map fun r => if r.1 = c ∧ r.2.1 = l then (c, l, mask - 2 ^ p, n) else r } ∧
          t.agenda = u.agenda ++ [Event.resumption core]) ∧
      (x.isolated = false → (∀ (r : Nat × Nat × Nat × Nat), r ∈ x.resuming → r.2.2.1 = 0) → ∀ (r : Nat × Nat × Nat × Nat), r ∈ x.resuming → r.2.2.2 = 0 →
        ¬hasMark t core r.1 r.2.1 ∧ (∀ (q : Nat × Nat × Nat × Nat), q ∈ (t.getCore core).resuming → ¬(q.1 = r.1 ∧ q.2.1 = r.2.1)) ∧
        t.agenda = u.agenda ++ [Event.redelivery core, Event.dispatch core]))

/-! ## The ship path (R228 to R237, R435, R436, R490) -/

/-- The Bassoon of a die that HOME of a `SHIPTGT` value names, or ALT (R228). -/
def homeBassoon (die target : Nat) : Nat := die * 256 + 128 + target % 4
def altBassoon (die target : Nat) : Nat := die * 256 + 128 + target / 4 % 4

/-- Resends go to ALT and HOME in turn (R228). -/
def takesTurns (target : Nat) : Prop := target / 2 ^ 7 % 2 = 1 ∧ target / 4 % 4 ≠ target % 4

/-- A packet leaves for ALT, where its turn is ALT's and ALT is in service, or else for HOME; with no Bassoon left in service it
comes back with SHIP detail 1 (R228, R436). -/
def packetSent (u t : State) (p : ShipPacket) (alt : Prop) : Prop :=
  let die := dieOfSlot p.slot
  let out := fun (b : Nat) => (u.getCore b).isolated = true
  (alt → takesTurns p.target → ¬out (altBassoon die p.target) →
    t = u.post (.shipPacketArrival (altBassoon die p.target) p)) ∧
  (¬alt ∨ ¬takesTurns p.target → ¬out (homeBassoon die p.target) →
    t = u.post (.shipPacketArrival (homeBassoon die p.target) p)) ∧
  (out (homeBassoon die p.target) → ¬takesTurns p.target ∨ out (altBassoon die p.target) →
    t = u.post (.shipReply p.slot p.gen p.tag p.order (.exception 0x14 1 (word p.iword))))

/-- `e` is the only shipped word outstanding, under its tag, with no reply yet; the V stream is idle, and the slot runs. -/
def onlyShipped (x : Slot) (gen : Nat) (tag : Fin 8) (order : Nat) (e : ShipEntry) : Prop :=
  x.gen = gen ∧ x.window[tag.val] = some e ∧ (∀ j : Fin 8, j ≠ tag → x.window[j.val] = none) ∧ e.order = order ∧ e.reply = none ∧
    e.link = none ∧ x.vq = [] ∧ x.vrun = none ∧ x.rep = none ∧ x.heldTrap = none ∧ x.phase = .running

/-- What a register holds once the log of a rolled-back slot is undone: the oldest logged value (R235, R237). -/
def undoneG (x : Slot) (r : GReg) : Word :=
  ((x.history.filterMap fun h => match h.2 with | .g q w => if q = r then some w else none | _ => none).head?).getD (x.getG r)

/-- A returned exception of `e` has rolled the slot back: `SPD` and `RETIRED` stand as before the word, the registers
written since hold their logged values, and no shipped word, held store or younger exception is left. -/
def rolledBack (x y : Slot) (e : ShipEntry) : Prop :=
  y.spd = e.spd ∧ y.retired = e.retired ∧ y.held = [] ∧ y.heldTrap = none ∧ y.history = [] ∧
    (∀ j : Fin 8, y.window[j.val] = none) ∧ (∀ r, y.getG r = if r = 0 then 0 else undoneG x r)

/-- The ship path. SHIP_PACKET_ARRIVAL enters the guest queue of 64 entries; a full one refuses the packet, and one
that finds the Bassoon out of service goes on to ALT or returns SHIP detail 1. SHIP_RESEND sends a refused packet again, to ALT and HOME in turn where `SHIPTGT` says so;
with no Bassoon in service the word raises SHIP detail 1. GUEST_ENTRY_COMPLETION evaluates an issued entry and replies; a 128-bit atomic
performs at once where no cache holds its line, else waits its turn at the line's home (R62), and waits for its page.
SHIP_REPLY writes a clean result, or rolls the slot back and delivers the exception at its word, with DETAIL 0 unless the
sender raised it: SHIP, and a TIMEOUT that no reply gave (R436; log 81). SQUASH_NOTICE removes the entries of a squashed word. SHIP_TIMEOUT acts as a reply of TIMEOUT; that its
time has passed is the event's firing (log 9). -/
def Obligations.ShipEventsTakeEffect : Prop :=
  ∀ (s : State) (core k gen order : Nat) (tag : Fin 8) (p : ShipPacket) (toAlt : Bool) (r : ShipResult),
    takes s .shipPacketArrival (.shipPacketArrival core p) (fun u t =>
      let x := u.getCore core
      ((u.getSlot p.slot).gen ≠ p.gen → t = u) ∧
      ((u.getSlot p.slot).gen = p.gen →
        (x.isolated = true →
          packetSent u t p (takesTurns p.target ∧ core = homeBassoon (dieOfSlot p.slot) p.target)) ∧
        (x.isolated = false → x.guest.length < 64 →
          t = { u with cores := tabSet u.cores core { x with guest := x.guest ++ [p] } }) ∧
        (x.isolated = false → 64 ≤ x.guest.length → ∃ b : Bool, t = { u with backoff := u.backoff ++ [Resend.packet p b] } ∧
          (b = true ↔ takesTurns p.target ∧ core = homeBassoon (dieOfSlot p.slot) p.target)))) ∧
    takes s .shipResend (.shipResend p toAlt) (fun u t =>
      let u1 := { u with backoff := u.backoff.erase (Resend.packet p toAlt) }
      (Resend.packet p toAlt ∉ u.backoff → t = u) ∧
      (Resend.packet p toAlt ∈ u.backoff → packetSent u1 t p (toAlt = true))) ∧
    takes s .guestEntryCompletion (.guestEntryCompletion core p) (fun u t =>
      let x := u.getCore core
      let u1 := { u with cores := tabSet u.cores core { x with running := x.running.erase p } }
      (p ∉ x.running → t = u) ∧
      (p ∈ x.running → ∀ (i : Instr) (a b c : Word), decodeWord (p.iword % 2 ^ 32) = .ok i → p.ops = .scalar a b c →
        let f := evalFp i a b c p.rm
        (f.2 &&& p.te = 0 → t = { u1 with
          agenda := u.agenda ++ [Event.shipReply p.slot p.gen p.tag p.order (.clean f.2 (f.1.setWidth 512))] }) ∧
        (f.2 &&& p.te ≠ 0 → t = { u1 with
          agenda := u.agenda ++ [Event.shipReply p.slot p.gen p.tag p.order
            (.exception 0x0C 0 (word ((f.2 &&& p.te) * 2 ^ 8 + f.2)))] })) ∧
      (p ∈ x.running → ∀ (i : Instr) (a b c : VWord) (m : Word), decodeWord (p.iword % 2 ^ 32) = .ok i →
        p.ops = .vector a b c m →
        let f := evalV i ⟨a, b, c, m, 0, 0⟩ p.rm
        ∃ z, t = { u1 with agenda := u.agenda ++ [Event.shipReply p.slot p.gen p.tag p.order z] } ∧
          (f.raised.all (fun y => y.2 &&& p.te == 0) = true → ∃ w, z = .clean ((f.raised.map (·.2)).foldl (· ||| ·) 0) w ∧
            (∀ d y, f.v = some (d, y) → w = y) ∧ (∀ d y, f.v = none → f.m = none → f.g = some (d, y) → w = y.setWidth 512)) ∧
          (f.raised.all (fun y => y.2 &&& p.te == 0) = false → z = .exception 0x0C 0 (vectorTrapValue p.te f.raised))) ∧
      (p ∈ x.running → ∀ (i : Instr) (a dl dh bl bh : Word) (s1 : State) (f : AccFault) (qs : List (Phys × Elem)) (c : Cause),
        decodeWord (p.iword % 2 ^ 32) = .ok i → p.ops = .pair a dl dh bl bh →
        u1.checkAll ⟨p.ctx, p.lcore, p.slot % 4, p.supervisor, core, false, p.asid⟩ (dieOfCore core) .cas2 [(0, ⟨a, 16, 16, false⟩)] =
          (s1, some f, qs) → f.cause = some c →
        t = s1.post (.shipReply p.slot p.gen p.tag p.order (.exception c.code f.detail f.va))) ∧
      (p ∈ x.running → ∀ (i : Instr) (a dl dh bl bh : Word) (s1 : State) (w pa : Nat) (q : Elem) (qs : List (Phys × Elem)),
        decodeWord (p.iword % 2 ^ 32) = .ok i → p.ops = .pair a dl dh bl bh →
        u1.checkAll ⟨p.ctx, p.lcore, p.slot % 4, p.supervisor, core, false, p.asid⟩ (dieOfCore core) .cas2 [(0, ⟨a, 16, 16, false⟩)] =
          (s1, none, (⟨.spad w, pa⟩, q) :: qs) → pa < remoteBase →
        t = s1.post (.remoteAtomicMessage ⟨p.slot, p.gen, p.order, some p.tag, p.iword, pa,
          bl.toNat + bh.toNat * 2 ^ 64, dl.toNat + dh.toNat * 2 ^ 64⟩)) ∧
      (p ∈ x.running → ∀ (swap : Bool) (gd gb : GPair) (ga : GReg) (sc : Scope) (o : Order) (a dl dh bl bh : Word) (s1 : State)
        (at_ : Phys) (q : Elem) (qs : List (Phys × Elem)),
        decodeWord (p.iword % 2 ^ 32) = .ok (if swap then .swp2 gd ga gb sc o else .cas2 gd ga gb sc o) →
        p.ops = .pair a dl dh bl bh → atomicPlace s1 at_ →
        u1.checkAll ⟨p.ctx, p.lcore, p.slot % 4, p.supervisor, core, false, p.asid⟩ (dieOfCore core) .cas2 [(0, ⟨a, 16, 16, false⟩)] =
          (s1, none, (at_, q) :: qs) →
        let s2 := s1.leaveCopy (coreOfSlot p.slot) at_
        let old := memValue s2 at_.pa 16
        let ready := at_.kind = .coh → s1.pageReady at_.pa core = true
        let b := bl.toNat + bh.toNat * 2 ^ 64
        let d := dl.toNat + dh.toNat * 2 ^ 64
        let v := s1.reclaim ⟨p.ctx, p.lcore, p.slot % 4, p.supervisor, core, false, p.asid⟩ a
        (¬ready →
          t = (v.setCore core { v.getCore core with running := x.running }).post (.guestEntryCompletion core p)) ∧
        (ready → s1.atomicReady at_ = false →
          t = s1.post (.atomicAtHome ⟨p.slot, p.gen, p.order, some p.tag, p.iword, at_.pa, b, d⟩ false false)) ∧
        (ready → s1.atomicReady at_ = true → s2.memOk →
          ∃ v, t = { v with agenda := s2.agenda ++ [Event.shipReply p.slot p.gen p.tag p.order (.clean 0 (BitVec.ofNat 512 old))] } ∧
            performedAt s2 v at_ 16 (if swap = true ∨ old = d then some b else none)))) ∧
    takes s .shipReply (.shipReply k gen tag order r) (fun u t =>
      let x := u.getSlot k
      (x.gen ≠ gen ∨ x.window[tag.val] = none → t = u) ∧
      (∀ (e : ShipEntry) (flags : Nat) (value : VWord) (d : GReg), onlyShipped x gen tag order e → r = .clean flags value →
        x.held = [] → regUse e.instr = { regUse e.instr with vw := [], mw := [], gw := [d] } → vAppends e.instr = none →
        ∃ y, t = u.setSlot k y ∧ (∀ i, y.getG i = if i = 0 then 0 else if i = d then value.setWidth 64 else x.getG i) ∧
          y.fcsr = x.fcsr ||| word flags ∧
          y = { x with g := y.g, fcsr := y.fcsr, window := x.window.set tag.val none, history := [] }) ∧
      (∀ (e : ShipEntry) (flags : Nat) (value : VWord) (d : VReg), onlyShipped x gen tag order e → r = .clean flags value →
        x.held = [] → regUse e.instr = { regUse e.instr with vw := [d] } → vAppends e.instr = none →
        ∃ y, t = u.setSlot k y ∧ (∀ i, y.getV i = if i = d then value else x.getV i) ∧
          y.fcsr = x.fcsr ||| word flags ∧
          y = { x with v := y.v, fcsr := y.fcsr, window := x.window.set tag.val none, history := [] }) ∧
      (∀ (e : ShipEntry) (c dt : Nat) (v : Word), onlyShipped x gen tag order e → r = .exception c dt v →
        (∀ h ∈ x.history, e.order < h.1) → (∀ h : HeldStore, h ∈ x.held → e.order ≤ h.order) →
        let sent := c = 0x14 ∨ c = 0x17 ∧ dt = 0
        rolledBack x (t.getSlot k) e ∧ (∀ n, n ≠ k → t.getSlot n = u.getSlot n) ∧ t.cores = u.cores ∧ u.sameMemory t ∧
        (x.trapvec = 0 → ∃ (f : Exc), (t.getSlot k).phase = .faulting f ∧ f.cause = c ∧ (sent → f.detail = dt ∧ f.remote = false) ∧
          (¬sent → f.detail = 0 ∧ f.remote = true) ∧ f.value = v ∧ f.pc = e.addr ∧
          t.agenda = u.agenda ++ [Event.faultPath k]) ∧
        (c = 0x0C → x.trapvec ≠ 0 → x.trapcause.getLsbD 9 = false →
          (t.getSlot k).pc = x.trapvec ∧ (t.getSlot k).trappc = e.addr ∧ (t.getSlot k).trapval = v ∧
          (t.getSlot k).trapcause = word (512 + 256 + 0x0C) ∧ t.agenda = u.agenda))) ∧
    takes s .squashNotice (.squashNotice core k gen order) (fun u t =>
      let x := u.getCore core
      let other := fun (q : ShipPacket) => !(q.slot == k && q.gen == gen && q.order == order)
      t = { u with cores := tabSet u.cores core { x with guest := x.guest.filter other, running := x.running.filter other } }) ∧
    takes s .shipTimeout (.shipTimeout k gen tag) (fun u t =>
      let x := u.getSlot k
      (x.gen ≠ gen ∨ x.window[tag.val] = none → t = u) ∧
      (∀ (e : ShipEntry) (q : ShipPacket), x.gen = gen → x.window[tag.val] = some e → e.reply = none → e.packet = some q →
        (∀ v : VEntry, v ∈ x.vq → v.tag ≠ some tag) →
        exec .shipReply { u with
          agenda := .shipReply k gen tag e.order (.exception 0x17 0 (word q.iword)) :: u.agenda } = .next t))

/-! ## Engines (R87, R300 to R308, R313 to R316, R452 to R454, R483) -/

/-- The detail of the first check of R314 before the MAC that a capability fails, at matrix engine `b` of a die: context,
engine, another die, reserved bits, life. -/
def capabilityFails (u : State) (die b : Nat) (c : MxeCmd) : Option Nat :=
  let k := blockNumber c.bytes 32 8
  let left := (k / 2 ^ 32 % 2 ^ 16 + 2 ^ 16 - u.time.toNat / 2 ^ 20 % 2 ^ 16) % 2 ^ 16
  if k / 2 ^ 56 % 2 ^ 8 ≠ c.ctx % 2 ^ 8 then some 1
  else if k / 2 ^ (48 + b) % 2 = 0 then some 2
  else if die ≠ c.fromDie ∧ k / 2 ^ 52 % 2 = 0 then some 3
  else if k / 2 ^ 53 % 2 ^ 3 ≠ 0 then some 4
  else if left = 0 ∨ 2 ^ 15 ≤ left then some 5
  else none

/-- A die without the locks of a registration (R302). -/
def unlocked (x : Die) (id : Nat) : Die := { x with locks := x.locks.filter fun l => l.2.cmd != id }

/-- A die's table has lost the locks of a registration. -/
def withoutLocks (u : State) (die id : Nat) : State := { u with dies := tabSet u.dies die (unlocked (u.getDie die) id) }

/-- A matrix command is over (R143, R302): its locks have dropped, and its slot waits for no update of it. -/
def matrixOver (u : State) (die : Nat) (c : MxeCmd) : State := (withoutLocks u die c.lock).updateDone c.slot c.gen c.lock

/-- A matrix command is refused (R434): it is over, and its slot hears of it; `x` is the die otherwise. -/
def refusedWith (u t : State) (die : Nat) (x : Die) (c : MxeCmd) (detail : Nat) : Prop :=
  t = (matrixOver { u with dies := tabSet u.dies die x } die c).post
    (.commandAcceptanceReply c.slot c.gen (.refused detail (word (blockNumber c.bytes 32 8))))

/-- A matrix command is accepted (R313): it enters its queue at the tail, the first starts, and its slot hears of it. -/
def acceptedWith (u t : State) (die engine : Nat) (x : Die) (c : MxeCmd) : Prop :=
  let b : Fin 4 := Fin.ofNat 4 engine
  t = { u with
    dies := tabSet u.dies die { x with mxeQ := x.mxeQ.set b.val (x.mxeQ[b.val] ++ [c]) }
    agenda := u.agenda ++ (if x.mxeQ[b.val] = [] then [Event.completionMessage die engine] else []) ++
      [Event.commandAcceptanceReply c.slot c.gen .accepted] }

/-- The completion word (R302). -/
def completionOf (die engine id bands code : Nat) : Word :=
  word (code % 2 ^ 8 + bands % 2 ^ 12 * 2 ^ 8 + die % 2 ^ 5 * 2 ^ 24 + engine % 8 * 2 ^ 29 + (if engine < 8 then 0 else 2 ^ 32) +
    id % 2 ^ 16 * 2 ^ 48)

/-- A completion message leaves the stop of an engine for the core that its logical core names, in this package (R302). -/
def completionLeaves (v : State) (die engine : Nat) (e : Ending) (code : Nat) (va : Word) (ev : Event) : Prop :=
  ∀ (w : Word) (x : CtEntry), v.ctRead e.ctx e.doneLc = .entry w x → x.pkg = v.pkg →
    ∃ m, isMessage m e.handler 2 (if 2 ≤ code then 3 else 2) e.prio e.ctx e.lcore e.doneLc
        ([e.first, completionOf die engine e.id e.bands code] ++ if 2 ≤ code then [va] else []) ∧
      ev = (match v.entrySide die x.die with
        | some side => .blockMessage x.die side (x.die * 256 + x.pcore) m .none
        | none => .taskMessageArrival (x.die * 256 + x.pcore) (engineStop engine) m .none)

/-- The die without the head command of an engine. -/
def withoutHead (x : Die) (engine : Nat) : Die :=
  if engine < 8 then { x with bteQ := x.bteQ.set (engine % 8) (x.bteQ[engine % 8].drop 1) }
  else { x with mxeQ := x.mxeQ.set (engine % 4) (x.mxeQ[engine % 4].drop 1) }

/-- What starts when the head command of an engine leaves (R300, R454): the next of its queue, and a restart that waits. -/
def startsNext (x : Die) (die engine : Nat) : List Event :=
  (if (if engine < 8 then x.bteQ[engine % 8].length else x.mxeQ[engine % 4].length) = 0 then []
   else [Event.completionMessage die engine]) ++
  (match x.park.find? (fun p => p.2.restart && p.2.bassoon + 8 == engine) with
   | some p => [Event.mxactRestart die (Fin.ofNat 16 p.1)]
   | none => [])

/-- The head command of an engine has ended (R302, R316): its completion message leaves, and the next command starts; `v` is
the state after its accesses, in which its locks have dropped; the entry of its logical core has been read (R494). -/
def commandEnds (v t : State) (die engine : Nat) (e : Ending) (code : Nat) (va : Word) : Prop :=
  let x := withoutHead (v.getDie die) engine
  let v1 := v.ctTouch e.ctx e.doneLc
  (v.getCtx e.ctx).live = true → ∀ (w : Word) (g : CtEntry), v.ctRead e.ctx e.doneLc = .entry w g → g.pkg = v.pkg →
    ∃ ev, completionLeaves v die engine e code va ev ∧
      t = { v1 with dies := tabSet v1.dies die x, agenda := v1.agenda ++ [ev] ++ startsNext x die engine }

/-- The end of a transfer (R302): what its parameter block asks to be told. -/
def transferEnding (c : BteCmd) : Ending := ⟨c.handler, c.prio, c.ctx, c.lcore, c.doneLc, c.tag, c.id, 0⟩

/-- A slot whose register waited for a reply (R215, R306): it holds the value, and waits no more. -/
def replyWritten (x y : Slot) (d : GReg) (f : BusyFor) (w : Word) : Prop :=
  (∀ r, y.getG r = if r = 0 then 0 else if r = d then w else x.getG r) ∧ y = { x with g := y.g, busy := x.busy.erase (d, f) }

/-- Engine events. XLAUNCH_READ acts as the word. ENGINE_COMMAND_ARRIVAL accepts a transfer into a queue of 16, by default
or at the least busy BTE, with its id (one behind a refused launch of its slot to the same BTE, or where either goes to the least
busy one, waits: for the second DESIGN CHOICE, log 78); checks the capability of a matrix command, against the kept ones or by way of the
Quince core; a full queue refuses for now. COMMAND_ACCEPTANCE_REPLY and MAC_RETURN answer the slot. QUINCE_MAC_VERIFICATION
decides and keeps a right capability; a queue that has filled refuses for now (DESIGN CHOICE, log 78). COMPLETION_MESSAGE ends the head command, its bytes moved and its locks dropped, once
every command of its slot that it follows is over (R140); ENGINE_FAULT ends it with its CODE, or parks it; one that has claimed a page waits for the
answer (R153). BANDS of CODE 1, and that a parked entry stays busy until its restart enters the queue, are log 33 (DEDUCED,
unsafe); that nothing waits for a parked command is log 51 (DESIGN CHOICE). MXACT_RESTART and MXACT_ABANDON act on a parked command. RESEND_AFTER_BACKOFF sends
again. A command performs in one step (log 7), and which fault it meets first is free. -/
def Obligations.EngineEventsTakeEffect : Prop :=
  ∀ (s : State) (die engine k gen src : Nat) (d : GReg) (x : BteCmd) (c : MxeCmd) (high : BitVec 32) (entry : Fin 16) (id : Nat)
    (cap : Word) (p : ShipPacket) (toAlt : Bool) (core : Nat) (m : Msg) (wr : WorkRecord),
    takes s .xlaunchRead (.xlaunchRead d) (fun u t => exec (.csrr d 0x088) u = .next t) ∧
    takes s .engineCommandArrival (.engineCommandArrival die engine src (.bte x)) (fun u t =>
      let y := u.getDie die
      let behind := ∃ (n n' : Nat) (z : BteCmd), Resend.command n n' (.bte z) ∈ u.backoff ∧ z.slot = x.slot ∧
        (x.auto = true ∨ z.auto = true ∨ z.bte = x.bte)
      ∀ e : Fin 8, (if x.auto then ∀ j : Fin 8, y.bteQ[e.val].length < y.bteQ[j.val].length ∨
          (y.bteQ[e.val].length = y.bteQ[j.val].length ∧ e ≤ j) else e = x.bte) →
        (¬behind → y.bteQ[e.val].length < 16 →
          let id := e.val * 2 ^ 13 + y.bteCtr[e.val]
          t = { u with
            dies := tabSet u.dies die { y with
              bteCtr := y.bteCtr.set e.val ((y.bteCtr[e.val] + 1) % 2 ^ 13)
              bteQ := y.bteQ.set e.val (y.bteQ[e.val] ++ [{ x with id := id }]) }
            agenda := u.agenda ++ (if y.bteQ[e.val] = [] then [Event.completionMessage die e.val] else []) ++
              [Event.commandAcceptanceReply x.slot x.gen (.transfer x.rd id)] }) ∧
        (behind ∨ 16 ≤ y.bteQ[e.val].length →
          t = { u with backoff := u.backoff ++ [Resend.command die engine (.bte x)] })) ∧
    takes s .engineCommandArrival (.engineCommandArrival die engine src (.mxe c)) (fun u t =>
      let y := u.getDie die
      let b := engine % 4
      let key := word (blockNumber c.bytes 32 8)
      let kept := y.macs[b].find? fun z => z.toNat / 2 ^ 32 == key.toNat / 2 ^ 32
      8 ≤ engine →
      (16 ≤ y.mxeQ[b].length → t = { u with backoff := u.backoff ++ [Resend.command die engine (.mxe c)] }) ∧
      (y.mxeQ[b].length < 16 →
        (∀ f, capabilityFails u die b c = some f → refusedWith u t die y c f) ∧
        (capabilityFails u die b c = none →
          (u.package.keysErased = true → refusedWith u t die y c 6) ∧
          (u.package.keysErased = false →
            (kept = some key → acceptedWith u t die engine y c) ∧
            (∀ z, kept = some z → z ≠ key → refusedWith u t die y c 6) ∧
            (kept = none → t = { u with
              dies := tabSet u.dies die { y with macWait := y.macWait ++ [(engine, c)] }
              agenda := u.agenda ++ [Event.quinceMacVerification die engine] }))))) ∧
    takes s .commandAcceptanceReply (.commandAcceptanceReply k gen (.transfer d id)) (fun u t =>
      let x := u.getSlot k
      (x.gen ≠ gen → t = u) ∧
      (x.gen = gen → x.phase = .running → (d, .engine) ∈ x.busy →
        ∃ y, t = u.setSlot k y ∧ replyWritten x y d .engine (word (id % 2 ^ 16)))) ∧
    takes s .commandAcceptanceReply (.commandAcceptanceReply k gen .accepted) (fun u t =>
      let x := u.getSlot k
      x.gen = gen → x.phase = .running → x.wait = some .sent → t = u.setSlot k { x with wait := some .accepted }) ∧
    takes s .commandAcceptanceReply (.commandAcceptanceReply k gen (.refused id cap)) (fun u t =>
      let x := u.getSlot k
      x.gen = gen → x.phase = .running → x.wait = some .sent → t = u.setSlot k { x with wait := some (.refused id cap) }) ∧
    takes s .quinceMacVerification (.quinceMacVerification die engine) (fun u t =>
      let y := u.getDie die
      let b : Fin 4 := Fin.ofNat 4 engine
      ∀ c : MxeCmd, 8 ≤ engine → y.macWait.find? (fun z => z.1 == engine) = some (engine, c) →
        let y1 := { y with macWait := y.macWait.erase (engine, c) }
        let key := word (blockNumber c.bytes 32 8)
        let right := u.package.keysErased = false ∧ (u.macOf (BitVec.ofNat 32 (key.toNat / 2 ^ 32))).toNat = key.toNat % 2 ^ 32
        (16 ≤ y.mxeQ[b.val].length → t = { u with
          dies := tabSet u.dies die y1
          backoff := u.backoff ++ [Resend.command die engine (.mxe c)] }) ∧
        (y.mxeQ[b.val].length < 16 →
          (∀ f, capabilityFails u die b.val c = some f → refusedWith u t die y1 c f) ∧
          (capabilityFails u die b.val c = none → right →
            acceptedWith u t die engine { y1 with macs := y1.macs.set b.val ((key :: y1.macs[b.val]).take 16) } c) ∧
          (capabilityFails u die b.val c = none → ¬right → refusedWith u t die y1 c 6))) ∧
    takes s .macReturn (.macReturn k gen d high) (fun u t =>
      let x := u.getSlot k
      (x.gen ≠ gen → t = u) ∧
      (x.gen = gen → x.phase = .running → (d, .mac) ∈ x.busy →
        ∃ y, t = u.setSlot k y ∧ replyWritten x y d .mac
          (word (high.toNat * 2 ^ 32 + if u.package.keysErased then 0 else (u.macOf high).toNat)))) ∧
    takes s .completionMessage (.completionMessage die engine) (fun u t =>
      let y := u.getDie die
      let behind := u.running (y.headAfter engine)
      let lost := 8 ≤ engine ∧ (u.getCore (die * 256 + 128 + engine % 4)).isolated = true
      (behind = true → ¬lost → t = u.post (.completionMessage die engine)) ∧
      (∀ (z : BteCmd) (zs : List BteCmd) (u1 : State) (moves : List (Nat × Nat × Nat)), behind = false → engine < 8 →
        y.bteQ[engine % 8] = z :: zs →
        foldAll (State.movePlaces ⟨z.ctx, z.lcore, 0, z.supervisor, die * 256 + 160 + engine, true, u.asidOf z.ctx⟩ z) u
          (List.range (z.cnt.toNat % 2 ^ 37)) = (u1, [], moves) →
        (∀ m : Nat × Nat × Nat, m ∈ moves → m.2.1 / 8 ∉ u1.poison) →
        ∃ v, { v with mem := u1.mem, poison := u1.poison, freeCtr := u1.freeCtr } = u1 ∧
          commandEnds (withoutLocks v die z.lock) t die engine (transferEnding z) 0 0 ∧
          (u1.memOk → (moves.map fun m => m.2.2).Nodup →
            (∀ m : Nat × Nat × Nat, m ∈ moves → memGet v.mem m.2.2 = memGet u1.mem m.2.1) ∧
            (∀ a, (∀ m : Nat × Nat × Nat, m ∈ moves → m.2.2 ≠ a) → memGet v.mem a = memGet u1.mem a))) ∧
      (∀ (z : BteCmd) (zs : List BteCmd) (u1 : State) (f : CmdFault), behind = false → engine < 8 →
        y.bteQ[engine % 8] = z :: zs →
        u.transfer die engine z false = (u1, some f) →
          (f.code = 0 → t = u1.post (.completionMessage die engine)) ∧
          (f.code ≠ 0 → t = { u with agenda := u.agenda ++ [Event.engineFault die engine] })) ∧
      (∀ (z : MxeCmd) (zs : List MxeCmd), behind = false ∨ lost → 8 ≤ engine → y.mxeQ[engine % 4] = z :: zs →
        ((u.getCore (die * 256 + 128 + engine % 4)).isolated = true → ∃ va,
          commandEnds (matrixOver { u with freeCtr := u.freeCtr + 1 } die z) t die engine (mxeEnding z z.sb) 13 va) ∧
        ((u.getCore (die * 256 + 128 + engine % 4)).isolated = false →
          (z.mqd = false → mxeFamily (mmaFa z.bytes) ≠ mxeFamily (mmaFb z.bytes) →
            commandEnds (matrixOver u die z) t die engine (mxeEnding z z.sb) 1 0) ∧
          (z.mqd = true ∨ mxeFamily (mmaFa z.bytes) = mxeFamily (mmaFb z.bytes) → ∀ (v : State) (bands : Nat),
            (u.runMxe die engine z = (v, bands, none) →
              commandEnds (matrixOver v die z) t die engine (mxeEnding z bands) 0 0) ∧
            (∀ f, u.runMxe die engine z = (v, bands, some f) → f.code ≠ 0 → t = u.post (.engineFault die engine)) ∧
            (∀ f w ws, u.runMxe die engine z = (v, bands, some f) → f.code = 0 → (v.getDie die).mxeQ[engine % 4] = w :: ws →
              t = ({ v with dies := tabSet v.dies die { v.getDie die with
                mxeQ := (v.getDie die).mxeQ.set (engine % 4) ({ w with sb := bands } :: ws) } }).post
                  (.completionMessage die engine)))))) ∧
    takes s .engineFault (.engineFault die engine) (fun u t =>
      let y := u.getDie die
      (∀ (z : BteCmd) (zs : List BteCmd) (v : State) (f : CmdFault), engine < 8 → y.bteQ[engine % 8] = z :: zs →
        u.transfer die engine z true = (v, some f) → f.code ≠ 0 →
          commandEnds (withoutLocks v die z.lock) t die engine (transferEnding z) f.code f.va) ∧
      (∀ (z : MxeCmd) (zs : List MxeCmd) (v : State) (bands : Nat) (f : CmdFault), 8 ≤ engine → y.mxeQ[engine % 4] = z :: zs →
        (u.getCore (die * 256 + 128 + engine % 4)).isolated = false →
        z.mqd = true ∨ mxeFamily (mmaFa z.bytes) = mxeFamily (mmaFb z.bytes) →
        u.runMxe die engine z = (v, bands, some f) →
        (f.code ≠ 0 → f.code ≠ 6 → f.code ≠ 7 →
          commandEnds (matrixOver v die z) t die engine (mxeEnding z bands) f.code f.va) ∧
        (f.code = 6 ∨ f.code = 7 → ∀ i, i < 4 → tabHas (v.getDie die).park (4 * (engine % 4) + i) = false →
          (∀ j < i, tabHas (v.getDie die).park (4 * (engine % 4) + j) = true) →
          let parked : Parked := ⟨{ z with sb := if z.mqd then 0 else bands }, engine % 4, f.code, f.va, false⟩
          let w := { v with dies := tabSet v.dies die { v.getDie die with
            park := tabSet (v.getDie die).park (4 * (engine % 4) + i) parked } }.released z.lock
          let x := withoutHead (w.getDie die) engine
          let v1 := { w with dies := tabSet w.dies die x, agenda := w.agenda ++ startsNext x die engine }
          ∀ at_ h sup, die < 24 → v1.endpoint die z.ctx = (.here at_, h) → v1.supervisorOf z.ctx = some sup →
            (v1.getCtx sup).acceptsHandler h = true → (v1.getCtx sup).live = true →
            let v2 := v1.headerTouch z.ctx
            ∃ m, t = v2.post (.faultReportArrival at_ (v2.entryStop die (bassoonStop (engine % 4)) (dieOfCore at_)) m) ∧
              m.handler = h ∧
              (m.payload.getD 0 0).toNat % 2 ^ 8 = 0x10 ∧ m.payload.getD 2 0 = f.va ∧
              (m.payload.getD 3 0).toNat / 2 ^ 32 % 2 ^ 16 = f.code % 2 ^ 8 + (4 * (engine % 4) + i) * 2 ^ 8))) ∧
    takes s .mxactRestart (.mxactRestart die entry) (fun u t =>
      let y := u.getDie die
      (∀ q, y.park.find? (fun z => z.1 == entry.val) = some q → ∀ b : Fin 4, q.2.bassoon = b.val →
        (16 ≤ y.mxeQ[b.val].length → t = { u with
          dies := tabSet u.dies die { y with park := tabSet y.park entry.val { q.2 with restart := true } } }) ∧
        (y.mxeQ[b.val].length < 16 → t = { u with
          dies := tabSet u.dies die { y with
            park := tabErase y.park entry.val
            mxeQ := y.mxeQ.set b.val (y.mxeQ[b.val] ++ [q.2.cmd]) }
          agenda := u.agenda ++ if y.mxeQ[b.val] = [] then [Event.completionMessage die (8 + b.val)] else [] })) ∧
      (y.park.find? (fun z => z.1 == entry.val) = none → t = u)) ∧
    takes s .mxactAbandon (.mxactAbandon die entry) (fun u t =>
      let y := u.getDie die
      (∀ q, y.park.find? (fun z => z.1 == entry.val) = some q → q.2.restart = false →
        let e := mxeEnding q.2.cmd q.2.cmd.sb
        let v := matrixOver { u with dies := tabSet u.dies die { y with park := tabErase y.park entry.val } } die q.2.cmd
        (v.getCtx e.ctx).live = true → ∀ (w : Word) (g : CtEntry), v.ctRead e.ctx e.doneLc = .entry w g → g.pkg = v.pkg →
          ∃ ev, completionLeaves v die (8 + q.2.bassoon) e q.2.code q.2.va ev ∧
            t = (v.ctTouch e.ctx e.doneLc).post ev) ∧
      (y.park.find? (fun z => z.1 == entry.val) = none → t = u)) ∧
    takes s .resendAfterBackoff (.resendAfterBackoff (.packet p toAlt)) (fun u t =>
      exec .shipResend { u with agenda := .shipResend p toAlt :: u.agenda } = .next t) ∧
    takes s .resendAfterBackoff (.resendAfterBackoff (.command die engine (.mxe c))) (fun u t =>
      let x := Resend.command die engine (.mxe c)
      8 ≤ engine →
      (x ∉ u.backoff ∨ 16 ≤ (u.getDie die).mxeQ[engine % 4].length → t = u) ∧
      (x ∈ u.backoff → (u.getDie die).mxeQ[engine % 4].length < 16 → exec .engineCommandArrival { u with
        backoff := u.backoff.erase x
        agenda := .engineCommandArrival die engine src (.mxe c) :: u.agenda } = .next t)) ∧
    takes s .resendAfterBackoff (.resendAfterBackoff (.record die wr)) (fun u t =>
      let x := Resend.record die wr
      x ∈ u.backoff →
        ((u.getCtx (metaField wr.msg 32 8)).live = true → 512 ≤ (u.getDie die).work.length → t = u) ∧
        ((u.getDie die).work.length < 512 → exec .workQueueRecordArrival { u with
          backoff := u.backoff.erase x
          agenda := .workQueueRecordArrival die wr :: u.agenda } = .next t)) ∧
    takes s .resendAfterBackoff (.resendAfterBackoff (.message core m .none none)) (fun u t =>
      let x := Resend.message core m .none none
      let v := { u with backoff := u.backoff.erase x }
      x ∈ u.backoff → taskMessage m → (u.getCtx (metaField m 32 8)).live = true →
        (∀ k n c, Resend.message k n c none ∈ u.backoff → oneFlow n m → Resend.message k n c none = x) → ∀ dsc held,
        v.spillDesc (metaField m 32 8) (metaField m 0 16) = some dsc →
        v.holds core (metaField m 32 8) (metaField m 0 16) = some held →
        (queueTakes u core m dsc held →
          entersQueue (v.acceptReads core (metaField m 32 8) (metaField m 0 16)) t core m .none) ∧
        (¬queueTakes u core m dsc held → 2 ^ dsc.cap ≤ (dsc.tail + 2 ^ 32 - dsc.head) % 2 ^ 32 + 64 →
          t.backoff = u.backoff ∧ t.cores = u.cores ∧ t.agenda = u.agenda))

/-! ## At the home of an access (R89, R90, R114, R116, R144, R148, R161, R281, R443 to R450) -/

/-- A reduction of a slot has ended (R132, R143): it is outstanding no more, no barrier nor token waits for it, and a token
that waits for nothing now has its completion on its way. -/
def updateEnds (u t : State) (k gen id : Nat) (change : Slot → Slot) : Prop :=
  let x := u.getSlot k
  let y := t.getSlot k
  (x.gen = gen →
    y = { change x with
      updates := x.updates.filter (fun z => z.1 != id), matrix := x.matrix.filter (· != id), tokens := y.tokens } ∧
    (∀ e : Fin 8, y.tokens[e.val] = x.tokens[e.val].map fun z => { z with need := z.need.filter (· != id) }) ∧
    (∀ (e : Fin 8) (z : Token), y.tokens[e.val] = some z → z.need = [] → z.complete = false →
      Event.fenceTokenCompletion k gen e z.seq [] none ∈ t.agenda)) ∧
  t.barriers = u.barriers.map (fun b => b.settle id) ∧
  (∀ n, n ≠ k → t.getSlot n = u.getSlot n)

/-- Bytes at an address hold what was written, and every other byte of memory reads as before. -/
def bytesWritten (u t : State) (pa : Nat) (bs : List Byte) : Prop :=
  ∀ a, memGet t.mem a = if pa ≤ a ∧ a < pa + bs.length then bs.getD (a - pa) 0 else memGet u.mem a

/-- The sum that an element of a type keeps (R89): FP32 and FP64 rounded once to nearest even, I32 and I64 modulo 2^n. -/
def sumOf (ty : AccType) (a b : Nat) : Nat :=
  match ty with
  | .fp32 => (fAdd .fp32 .rne a b).bits
  | .fp64 => (fAdd .fp64 .rne a b).bits
  | .i32 => (a + b) % 2 ^ 32
  | .i64 => (a + b) % 2 ^ 64

/-- Bytes of an element of a type. -/
def elemBytes (ty : AccType) : Nat := match ty with | .fp32 | .i32 => 4 | .fp64 | .i64 => 8

/-- The words of a micro-handler (R281), by sub-operation and width: the AMO words, and the pair words. -/
def microWords (d a b : GReg) (p q : GPair) (sc : Scope) (o : Order) : List (Instr × Nat × Nat) :=
  ((amoWords d a b sc o).zipIdx.flatMap fun w => [(w.1.1, 4, w.2), (w.1.2, 8, w.2)]) ++
    [(.swp2 p a q sc o, 16, 8), (.cas2 p a q sc o, 16, 9)]

/-- Messages set out. -/
def sends (u : State) (es : List Event) : State := { u with agenda := u.agenda ++ es }

/-- At the home. NRU_UPDATE adds each element to the base line, or in ordered mode to the contributor's slot line, or is
refused with its detail and changes no byte. UPDATE_REFUSAL records the first refusal of an activation and counts the
rest, in a syndrome record each (the place of the count: DESIGN CHOICE, log 76). ACCUMULATOR_READ combines a DIRTY line in the rule's order, and a line whose metadata is lost becomes untyped and
poisoned. ACCUMULATOR_EVICTION takes a line out of the slice once DRAM has acknowledged it. REMOTE_ATOMIC_MESSAGE reads and
writes as one and replies, or replies POISON; REMOTE_ATOMIC_REPLY reaches the word that waits. At ATOMIC_AT_HOME an atomic
takes its turn behind those that wait for its line, the first performs once no cache holds a copy of the line, and the next
follows (R62, R144). Requests of the host and of other packages read and write
DRAM if their feature is accepted, the host's once the page is shared; its writes may compare first, and to its
own memory first take the line from the agent of its port. -/
def Obligations.HomeEventsTakeEffect : Prop :=
  ∀ (s : State) (un : NruUpdate) (line detail : Nat) (va : Word) (lost acked : Bool) (a : AtomMsg) (v : Nat) (port : Fin 2)
    (pa n : Nat) (bs : List Byte) (expect : Option (List Byte)) (d ra rb : GReg) (p q : GPair) (sc : Scope) (o : Order) (outside queued : Bool),
    takes s .nruUpdate (.nruUpdate un) (fun u t => ∀ x y z, un.elems = [(x, y, z)] →
      let st := u.accState (lineOf x)
      let refused := fun (k : Nat) => t = { u with agenda := u.agenda ++ [Event.updateRefusal un k y] }
      (tabHas u.acc (lineOf x) = false → refused 2) ∧
      (tabHas u.acc (lineOf x) = true → st.ty ≠ un.ty → refused 3) ∧
      (tabHas u.acc (lineOf x) = true → st.ty = un.ty → st.ordered = true → st.n ≤ un.contrib → refused 4) ∧
      (tabHas u.acc (lineOf x) = true → st.ty = un.ty → (st.ordered = true → un.contrib < st.n) → u.memOk →
        let at_ := if st.ordered then slotLine un.accn x un.contrib else x
        bytesWritten u t at_ ((List.range (elemBytes st.ty)).map fun i =>
          byteOf (sumOf st.ty (memValue u at_ (elemBytes st.ty)) z.toNat) i) ∧
        t.accState (lineOf x) = { st with dirty := st.dirty || st.ordered, resident := true } ∧
        updateEnds u t un.slot un.gen un.id id)) ∧
    takes s .updateRefusal (.updateRefusal un detail va) (fun u t =>
      let x := u.getSlot un.slot
      let before := if x.refusals.1 = un.gen then x.refusals.2 else 0
      x.gen = un.gen → x.active = true → x.phase = .running →
        updateEnds u t un.slot un.gen un.id (fun x => { x with
          refusals := (un.gen, before + 1)
          refusal := if before = 0 then some (detail, va) else x.refusal }) ∧
        (before = 0 → u.sameMemory t ∧ t.acc = u.acc ∧ t.dies = u.dies) ∧
        (before ≠ 0 → ∃ (v : State) (r : LogRecord), r.detail = before + 1 ∧ r.cause = 0x12 ∧ r.ctx = some un.ctx ∧
          r.addr = some (va.toNat, false) ∧ t.dies = (v.logRecord (dieOfSlot un.slot) r).dies ∧ v.dies = u.dies)) ∧
    takes s .accumulatorRead (.accumulatorRead line lost) (fun u t =>
      let b := lineOf line
      let st := u.accState b
      let size := elemBytes st.ty
      ∀ m, u.accGranule b = some m →
        (lost = true → (u.acc.map fun z => z.1).Pairwise (· < ·) → ∃ (v : State) (r : LogRecord),
          t = v.logRecord (homeDie b) r ∧ r.cls = 1 ∧ r.cause = 5 ∧ r.addr = some (b, true) ∧
          tabHas v.acc b = false ∧ ∀ i < 16, b / 8 + i ∈ v.poison) ∧
        (lost = false → tabHas u.acc b = false → t = u) ∧
        (lost = false → tabHas u.acc b = true → u.memOk →
          t.accState b = { st with dirty := false, resident := true } ∧
          (st.dirty = false → u.sameMemory t) ∧
          (st.dirty = true →
            (∀ i < 128 / size, memValue t (b + i * size) size =
              sumOf st.ty (memValue u (b + i * size) size) (u.slotSum st.ty m (b + i * size) st.n) % 2 ^ (8 * size)) ∧
            (∀ j < st.n, ∀ i < 128, memGet t.mem (slotLine m b j + i) = 0) ∧
            (∀ c, ¬inAccLines m b st.n c → memGet t.mem c = memGet u.mem c)))) ∧
    takes s .accumulatorEviction (.accumulatorEviction line acked) (fun u t =>
      let b := lineOf line
      (tabHas u.acc b = false → t = u) ∧
      (tabHas u.acc b = true → acked = true →
        t = { u with acc := tabSet u.acc b { u.accState b with resident := false } }) ∧
      (tabHas u.acc b = true → acked = false → ∃ r : LogRecord, t = u.logRecord (homeDie b) r ∧ r.cls = 1 ∧ r.cause = 6 ∧
        r.addr = some (b, true))) ∧
    takes s .remoteAtomicMessage (.remoteAtomicMessage a) (fun u t =>
      ∀ w : Instr × Nat × Nat, w ∈ microWords d ra rb p q sc o → decodeWord (a.iword % 2 ^ 32) = .ok w.1 →
        let old := memValue u a.pa w.2.1
        let cut := fun (z : Nat) => z % 2 ^ (8 * w.2.1)
        ((∀ i < w.2.1, (a.pa + i) / 8 ∉ u.poison) → u.memOk →
          { t with mem := u.mem, agenda := u.agenda } = u ∧ t.agenda = u.agenda ++ [Event.remoteAtomicReply a (.old old)] ∧
          bytesWritten u t a.pa (match amoWrites w.2.1 old (cut a.operand) (cut a.comparand) w.2.2 with
            | some x => (List.range w.2.1).map fun i => byteOf x i | none => [])) ∧
        (∀ i < w.2.1, (a.pa + i) / 8 ∈ u.poison → (∀ j < i, (a.pa + j) / 8 ∉ u.poison) →
          t = { u with agenda := u.agenda ++ [Event.remoteAtomicReply a (.poison ((a.pa + i) / 8))] })) ∧
    takes s .remoteAtomicReply (.remoteAtomicReply a (.old v)) (fun u t =>
      let x := u.getSlot a.slot
      (∀ tag, a.tag = some tag → exec .shipReply { u with
        agenda := .shipReply a.slot a.gen tag a.id (.clean 0 (BitVec.ofNat 512 v)) :: u.agenda } = .next t) ∧
      (∀ w : Instr × Nat × Nat, a.tag = none → w ∈ microWords d ra rb p q sc o → decodeWord (a.iword % 2 ^ 32) = .ok w.1 →
        (x.gen = a.gen → x.wait = some .sent → x.phase = .running →
          t = u.setSlot a.slot { x with wait := some (.old v) }) ∧
        (x.gen ≠ a.gen ∨ x.wait ≠ some .sent → t = u)) ∧
      (a.tag = none → decodeWord (a.iword % 2 ^ 32) = .ok (.redIaddD ra rb sc o) → updateEnds u t a.slot a.gen a.id id)) ∧
    takes s .atomicAtHome (.atomicAtHome a outside queued) (fun u t =>
      let line := lineOf a.pa
      let behind := fun (l : List (AtomMsg × Bool)) => l.filter fun z => lineOf z.1.pa == line
      let u1 := { u with atHome := if queued then u.atHome else u.atHome ++ [(a, outside)] }
      let done := { u1 with atHome := u1.atHome.erase (a, outside) }
      let follows := match behind done.atHome with | z :: _ => [Event.atomicAtHome z.1 z.2 true] | [] => []
      let replies := fun (r : AtomReply) => if outside then [] else [Event.remoteAtomicReply a r]
      (queued = true → (a, outside) ∉ u.atHome → t = u) ∧
      (queued = false → behind u.atHome ≠ [] → t = u1) ∧
      ((queued = true ∧ (a, outside) ∈ u.atHome) ∨ (queued = false ∧ behind u.atHome = []) →
        ∀ w : Instr × Nat × Nat, w ∈ microWords d ra rb p q sc o → decodeWord (a.iword % 2 ^ 32) = .ok w.1 →
        let cut := fun (z : Nat) => z % 2 ^ (8 * w.2.1)
        let place : Phys := ⟨.coh, a.pa⟩
        u.classify (u.lineHome line) a.pa = .ok place →
          (∀ i < w.2.1, (a.pa + i) / 8 ∈ u.poison → (∀ j < i, (a.pa + j) / 8 ∉ u.poison) →
            t = sends done (replies (.poison ((a.pa + i) / 8)) ++ follows)) ∧
          ((∀ i < w.2.1, (a.pa + i) / 8 ∉ u.poison) →
            (u.lineFree line = false → t = (u1.recallLine line).post (.atomicAtHome a outside true)) ∧
            (u.lineFree line = true → u.memOk →
              let old := memValue u a.pa w.2.1
              performedAt done { t with agenda := done.agenda } place w.2.1
                (amoWrites w.2.1 old (cut a.operand) (cut a.comparand) w.2.2) ∧ t.hot = u.hot ∧
              t.agenda = u.agenda ++ replies (.old old) ++ follows)))) ∧
    takes s .hostMemoryRequest (.hostMemoryRequest port pa n (some bs) expect) (fun u t =>
      let line := lineOf pa
      let agent := hostAgent port
      let closed := u.package.accepts 10 = false ∨ port.val ∈ u.package.hostDown ∨ port = 1 ∧ u.package.accepts 11 = false
      let again : Event := .hostMemoryRequest port pa n (some bs) expect
      let writes := expect = none ∨ expect = some ((List.range n).map fun i => memGet u.mem (pa + i))
      let quiet := (∀ k, t.getSlot k = u.getSlot k) ∧ t.cores = u.cores
      let held := fun (x : Option CState) => u.cst line agent = x
      lineOf (pa + n - 1) = line → bs.length = n →
        ((∃ k, region u.pkg pa = .near k) ∨ region u.pkg pa = .far →
          u.classify (u.lineHome line) pa = .ok ⟨.coh, pa⟩ →
          (closed → t = u) ∧
          (¬closed →
            (∀ e, u.hostClaim line = some e → t = (u.sendClaim e agent false).post again) ∧
            (u.hostClaim line = none → u.memOk →
              (held none → (u.hostCopies agent).length < 262144 →
                (writes → bytesWritten u t pa bs) ∧ (¬writes → u.sameMemory t) ∧ quiet ∧
                t.agenda = u.agenda ++ [Event.getm line agent true]) ∧
              (held (some .e) ∨ held (some .m) →
                (writes → bytesWritten u t pa bs) ∧ (¬writes → u.sameMemory t) ∧ quiet ∧ t.agenda = u.agenda)))) ∧
        ((∃ k, region u.pkg pa = .host k) → u.classify (u.lineHome line) pa = .ok ⟨.hco, pa⟩ →
          (tabHas u.hco line = true → t = { u with
            agenda := u.agenda ++ (if Event.snpinv line ∈ u.agenda then [] else [Event.snpinv line]) ++ [again] }) ∧
          (tabHas u.hco line = false → u.memOk →
            (writes → bytesWritten u t pa bs) ∧ (¬writes → t = u) ∧ quiet ∧ t.agenda = u.agenda))) ∧
    takes s .hostMemoryRequest (.hostMemoryRequest port pa n none expect) (fun u t =>
      u.classify (u.lineHome (lineOf pa)) pa = .ok ⟨.coh, pa⟩ →
        u.sameMemory t ∧ (∀ k, t.getSlot k = u.getSlot k) ∧ t.cores = u.cores) ∧
    takes s .fabricMemoryRequest (.fabricMemoryRequest (.store pa bs)) (fun u t =>
      let dram := (∃ k, region u.pkg pa = .near k) ∨ region u.pkg pa = .far
      (u.package.accepts 12 = false → t = u) ∧
      (dram → u.classify (homeDie pa) pa = .ok ⟨.coh, pa⟩ → u.package.accepts 12 = true → u.memOk →
        bytesWritten u t pa bs ∧ { t with mem := u.mem, poison := u.poison } = u)) ∧
    takes s .fabricMemoryRequest (.fabricMemoryRequest (.elsewhere pa bs)) (fun u t =>
      (u.package.accepts 12 = false → t = u) ∧
      (∀ q o, region u.pkg pa = .domain q o → u.package.accepts 12 = true → u.memOk →
        bytesWritten u t pa bs ∧ { t with mem := u.mem, poison := u.poison } = u)) ∧
    takes s .fabricMemoryRequest (.fabricMemoryRequest (.atomic a)) (fun u t =>
      ((∃ k, region u.pkg a.pa = .near k) ∨ region u.pkg a.pa = .far) →
        u.classify (homeDie a.pa) a.pa = .ok ⟨.coh, a.pa⟩ →
        u.package.accepts 12 = true → t = { u with agenda := u.agenda ++ [Event.atomicAtHome a true false] })

/-! ## Coherence (R98, R118, R153 to R162) -/

/-- The state with a line's state in a cache, or at a directory, replaced. -/
def cacheTo (u : State) (line a : Nat) (x : CState) : State := { u with caches := tabSet u.caches (line * 8192 + a) x }
def cacheDrop (u : State) (line a : Nat) : State := { u with caches := tabErase u.caches (line * 8192 + a) }
def dirTo (u : State) (line die : Nat) (x : HState) : State := { u with homes := tabSet u.homes (line * 32 + die) x }
def dirDrop (u : State) (line die : Nat) : State := { u with homes := tabErase u.homes (line * 32 + die) }

/-- A forward stalls at a cache, behind those that stall already (R158). -/
def stalls (u : State) (e : Event) : State := { u with forwards := u.forwards ++ [e] }

/-- After a response, stalled forwards come before all else (R158). -/
def looksAgain (u : State) : State := { u with agenda := u.forwards ++ u.agenda, forwards := [] }

/-- Requests that wait for a line at the directory of a die are looked at again. -/
def wakes (u : State) (line die : Nat) : State :=
  let mine := fun (w : Waiter) => w.line == line && w.die == die
  sends { u with waiters := u.waiters.filter fun w => !mine w }
    ((u.waiters.filter mine).map fun w => if w.exclusive then Event.getm line w.agent true else Event.gets line w.agent true)

/-- A DZ core or a Shawm as an agent; the proxy of a die; the home slice or proxy directory of a die. -/
def plainAgent (a : Nat) : Prop := a < 8192 ∧ a % 256 < 136
def proxyAgent (die : Nat) : Nat := die * 256 + 255
def dirAgent (die : Nat) : Nat := die * 256 + 254

/-- A directory recalls a line from every holder that it records, as a GetM of its own (R157). -/
def recallsAll (u t : State) (line die : Nat) : Prop :=
  (∀ l, u.hst line die = some (.s l) →
    t = sends (dirTo u line die (.rc l.length)) (l.map fun c => Event.inv line c (dirAgent die))) ∧
  (∀ o, u.hst line die = some (.o o) → t = sends (dirTo u line die (.rc 1)) [Event.fwdGetm line o (dirAgent die)]) ∧
  (u.hst line die = none → t = u)

/-- One answer to a recall has come to a directory: after the last, nobody has the line, and requests go on (R157). -/
def recallCounts (u t : State) (line die : Nat) : Prop :=
  ∀ n, u.hst line die = some (.rc n) →
    t = looksAgain (if n ≤ 1 then wakes (dirDrop u line die) line die else dirTo u line die (.rc (n - 1)))

/-- An L1 holds a line that software keeps consistent, or bytes of it. -/
def softHeld (cores : Nat → Core) (line a : Nat) : Bool := tabHas (cores a).l1c line || !(lineCells (cores a).l1 line).isEmpty

/-- The requests of R159, at caches, at the home of a line of no private page, and at the proxy of another die (R160). GETS
and GETM: a miss changes the state of the line in the cache and sends the request, which the directory answers, forwards,
or keeps waiting; a proxy that has too little asks the home. An HCO line comes to the agent of its port first (R162), and
GETM of a home itself recalls the line from every holder (R157). A cache without room first makes room (which line goes:
DESIGN CHOICE, log 73). PUTS, PUTE and PUTM: an eviction begins, and the directory takes the Put and acknowledges; an HCO line
goes back to the host with its last copy (R162; DESIGN CHOICE, log 71). A host asks by HOST_MEMORY_REQUEST only, and the
housekeeping hart only in its partition (R361). Which line misses or is evicted, and when, is free; the bytes are held once
(log 7). -/
def lineRequestsFollowTheProtocol : Prop :=
  ∀ (s : State) (line a : Nat), line % 128 = 0 →
    let may := fun (u : State) => u.mayCache (u.kindFor line a) line a = true
    let kept := fun (u : State) (write : Bool) => a = housekeepingAgent ∧ u.housekeepingMay line 128 write = false
    takes s .gets (.gets line a false) (fun u t =>
      (a % 256 = 136 → t = u) ∧
      (kept u false → t = sends u [Event.housekeepingRangeViolation line]) ∧
      (a % 256 ≠ 136 → ¬kept u false →
        (may u → u.cst line a = none →
          t = if u.fits a [line] then sends (cacheTo u line a .isD) [Event.gets line a true] else u.makeRoom a line []) ∧
        (¬may u ∨ u.cst line a ≠ none → t = u))) ∧
    takes s .getm (.getm line a false) (fun u t => plainAgent a →
      (kept u true → t = sends u [Event.housekeepingRangeViolation line]) ∧
      (¬kept u true → ¬may u → t = u) ∧
      (¬kept u true → may u →
        (u.cst line a = none →
          t = if u.fits a [line] then sends (cacheTo u line a (.imAD 0)) [Event.getm line a true]
            else u.makeRoom a line []) ∧
        (u.cst line a = some .s → t = sends (cacheTo u line a (.smAD 0)) [Event.getm line a true]) ∧
        (u.cst line a = some .e → t = cacheTo u line a .m) ∧ (u.cst line a = some .m → t = u))) ∧
    takes s .gets (.gets line a true) (fun u t =>
      let d := a / 256
      let waits := fun (v : State) => { v with waiters := v.waiters ++ [⟨line, d, a, false⟩] }
      let alone := fun (v : State) => sends (dirTo v line d (.o a)) [Event.data line a 0 true]
      let among := fun (v : State) => sends (dirTo v line d (.s [a])) [Event.data line a 0 false]
      (u.privateOwner line = some a → t = sends u [Event.data line a 0 true]) ∧
      (∀ o, u.privateOwner line = some o → o ≠ a → t = sends u [Event.gets line a true]) ∧
      (u.privateOwner line = none → plainAgent a →
        (∀ l, u.hst line d = some (.s l) →
          t = sends (dirTo u line d (.s (if a ∈ l then l else l ++ [a]))) [Event.data line a 0 false]) ∧
        (∀ o, u.hst line d = some (.o o) → t = sends (dirTo u line d (.sd [o, a])) [Event.fwdGets line o a]) ∧
        (u.hst line d = none → d = u.lineHome line →
          t = if (u.obtain line false).homeOwns line then alone (u.obtain line false) else among (u.obtain line false)) ∧
        (∀ l, u.hst line d = some (.sd l) → d = u.lineHome line → t = waits u) ∧
        (u.hst line d = none → d ≠ u.lineHome line →
          (u.cst line (proxyAgent d) = some .e ∨ u.cst line (proxyAgent d) = some .m → t = alone u) ∧
          (u.cst line (proxyAgent d) = some .s → t = among u) ∧
          (u.cst line (proxyAgent d) = none →
            t = if u.fits (proxyAgent d) [line] then
                sends (cacheTo (waits u) line (proxyAgent d) .isD) [Event.gets line (proxyAgent d) true]
              else sends (u.makeRoom (proxyAgent d) line []) [Event.gets line a true])))) ∧
    takes s .getm (.getm line a true) (fun u t =>
      let d := a / 256
      let waits := fun (v : State) => { v with waiters := v.waiters ++ [⟨line, d, a, true⟩] }
      (a % 256 = 254 → recallsAll u t line d) ∧
      (a % 256 ≠ 254 → u.privateOwner line = some a → t = sends u [Event.data line a 0 true]) ∧
      (a % 256 ≠ 254 → ∀ o, u.privateOwner line = some o → o ≠ a → t = sends u [Event.getm line a true]) ∧
      (u.privateOwner line = none → plainAgent a → d = u.lineHome line → u.cst line (proxyAgent d) = none →
        let v := u.obtain line true
        (u.hst line d = none → t = sends (dirTo v line d (.o a)) [Event.data line a 0 true]) ∧
        (∀ l, u.hst line d = some (.s l) →
          let others := l.filter (· ≠ a)
          t = sends (dirTo v line d (.o a)) (Event.data line a others.length true :: others.map fun x => Event.inv line x a)) ∧
        (∀ o, u.hst line d = some (.o o) → t = sends (dirTo v line d (.o a)) [Event.fwdGetm line o a]) ∧
        (∀ l, u.hst line d = some (.sd l) → t = waits v)) ∧
      (u.privateOwner line = none → plainAgent a → d ≠ u.lineHome line →
        (u.cst line (proxyAgent d) = none →
          t = if u.fits (proxyAgent d) [line] then
              sends (cacheTo (waits u) line (proxyAgent d) (.imAD 0)) [Event.getm line (proxyAgent d) true]
            else sends (u.makeRoom (proxyAgent d) line []) [Event.getm line a true]) ∧
        (u.cst line (proxyAgent d) = some .s →
          t = sends (cacheTo (waits u) line (proxyAgent d) (.smAD 0)) [Event.getm line (proxyAgent d) true]) ∧
        (u.cst line (proxyAgent d) = some .e → u.hst line d = none →
          t = sends (dirTo (cacheTo u line (proxyAgent d) .m) line d (.o a)) [Event.data line a 0 true]))) ∧
    (let puts := fun (i : Instr) (e : Bool → Event) (now next : CState) (hardware : State → Prop) =>
      takes s i (e false) (fun u t => plainAgent a → hardware u →
        (u.cst line a = some now →
          t = if now = .e ∧ u.privateOwner line = some a then cacheDrop u line a
            else sends (cacheTo u line a next) [e true]) ∧
        (u.cst line a ≠ some now → t = u)) ∧
      takes s i (e true) (fun u t => plainAgent a → let h := a / 256
        let back := fun (v : State) => if h = u.lineHome line then { v with hco := tabErase v.hco line } else v
        (∀ l, u.hst line h = some (.s l) →
          let rest := l.filter (· ≠ a)
          t = sends (if rest = [] then back (dirDrop u line h) else dirTo u line h (.s rest)) [Event.putAck line a]) ∧
        (∀ l, u.hst line h = some (.sd l) → t = sends (dirTo u line h (.sd (l.filter (· ≠ a)))) [Event.putAck line a]) ∧
        (u.hst line h = some (.o a) →
          let v := if now = .m ∧ u.cst line (proxyAgent h) = some .e then cacheTo u line (proxyAgent h) .m else u
          t = sends (back (dirDrop v line h)) [Event.putAck line a]) ∧
        (∀ o, u.hst line h = some (.o o) → o ≠ a → t = sends (dirTo u line h (.o o)) [Event.putAck line a]) ∧
        (u.hst line h = none → t = sends u [Event.putAck line a]))
     puts .puts (fun b => Event.puts line a b) .s .siA (fun _ => True) ∧
     puts .pute (fun b => Event.pute line a b) .e .miA (fun _ => True) ∧
     puts .putm (fun b => Event.putm line a b) .m .miA
      (fun u => a % 256 < 132 → softHeld u.getCore line a = false)) ∧
    takes s .putm (.putm line a false) (fun u t =>
      (a % 256 < 132 → softHeld u.getCore line a = true →
        t = u.evictCopy a ⟨match region s.pkg line with | .domain _ _ => .domain | _ => .swm, line⟩) ∧
      (a % 256 = 255 → tabHas (u.getDie (a / 256)).l2c line = true ∨ lineCells (u.getDie (a / 256)).l2 line ≠ [] →
        t = u.evictL2 (a / 256) line))

/-- The forwards and responses of R159. FWD_GETS, FWD_GETM and INV at a cache, which stall in a state on its way and behind
one that stalls (R158); at a proxy they first bring its die's agents to answer (R160); a host agent is asked by a snoop,
whose response is BACK_INVALIDATION_RESPONSE (R161). DATA, INV_ACK and PUT_ACK, with the counts of acknowledgements, after
which stalled forwards are looked at again. SNPINV and SNPDATA of the host take a line back, or share it (R162). -/
def lineAnswersFollowTheProtocol : Prop :=
  ∀ (s : State) (line a c acks : Nat) (exclusive : Bool), line % 128 = 0 →
    let d := a / 256
    let free := fun (u : State) => ∀ e : Event, e ∈ u.forwards → forwardTo e ≠ some a
    let shares := fun (u : State) (next : CState) => sends (cacheTo u line a next)
      (Event.data line c 0 false :: if c = dirAgent d then [] else [Event.data line (dirAgent d) 0 false])
    let invalidated := fun (u t : State) =>
      (u.cst line a = some .s → t = sends (cacheDrop u line a) [Event.invAck line c]) ∧
      (∀ n, u.cst line a = some (.smAD n) → t = sends (cacheTo u line a (.imAD n)) [Event.invAck line c]) ∧
      (u.cst line a = some .siA → t = sends (cacheTo u line a .iiA) [Event.invAck line c]) ∧
      (u.cst line a = none → t = sends u [Event.invAck line c]) ∧
      (u.cst line a = some .isD → t = stalls u (.inv line a c))
    let forwards := fun (i : Instr) (e : Event) (ask : Bool) (effect : State → State → Prop) =>
      takes s i e (fun u t =>
        (¬free u → t = stalls u e) ∧
        (free u →
          (plainAgent a → effect u t) ∧
          (a % 256 = 136 → t = sends u [Event.backInvalidationResponse line a c ask (e == Event.inv line a c)]) ∧
          (∀ o, a % 256 = 255 → u.hst line d = some (.o o) →
            t = stalls (if ask then sends (dirTo u line d (.rc 1)) [Event.fwdGetm line o (dirAgent d)]
              else sends (dirTo u line d (.sd [o])) [Event.fwdGets line o (dirAgent d)]) e) ∧
          (∀ l, a % 256 = 255 → u.hst line d = some (.s l) → ask = true →
            t = stalls (sends (dirTo u line d (.rc l.length)) (l.map fun x => Event.inv line x (dirAgent d))) e)))
    forwards .fwdGets (.fwdGets line a c) false (fun u t =>
      (u.cst line a = some .e ∨ u.cst line a = some .m → t = shares u .s) ∧ (u.cst line a = some .miA → t = shares u .siA) ∧
      (∀ n, u.cst line a = some (.imAD n) → t = stalls u (.fwdGets line a c)) ∧
      (∀ n, u.cst line a = some (.smA n) → t = stalls u (.fwdGets line a c))) ∧
    forwards .fwdGetm (.fwdGetm line a c) true (fun u t =>
      (u.cst line a = some .e ∨ u.cst line a = some .m → t = sends (cacheDrop u line a) [Event.data line c 0 true]) ∧
      (u.cst line a = some .miA → t = sends (cacheTo u line a .iiA) [Event.data line c 0 true]) ∧
      (∀ n, u.cst line a = some (.imAD n) → t = stalls u (.fwdGetm line a c)) ∧
      (∀ n, u.cst line a = some (.smA n) → t = stalls u (.fwdGetm line a c))) ∧
    forwards .inv (.inv line a c) true invalidated ∧
    (let asked := fun (invalidate : Bool) (effect : State → State → Prop) =>
      takes s .backInvalidationResponse (.backInvalidationResponse line a c exclusive invalidate) (fun u t =>
        a < 8192 → a % 256 = 136 → effect u t)
     asked false (fun u t =>
       (u.cst line a = some .e ∨ u.cst line a = some .m →
         t = if exclusive then sends (cacheDrop u line a) [Event.data line c 0 true] else shares u .s) ∧
       (exclusive = false → u.cst line a = some .s → t = u)) ∧
     asked true invalidated) ∧
    takes s .data (.data line a acks exclusive) (fun u t =>
      (plainAgent a →
        (u.cst line a = some .isD → t = looksAgain (cacheTo u line a (if exclusive then .e else .s))) ∧
        (∀ n, u.cst line a = some (.imAD n) →
          t = looksAgain (cacheTo u line a (if (acks : Int) = n then .m else .imA (acks - n)))) ∧
        (∀ n, u.cst line a = some (.smAD n) →
          t = looksAgain (cacheTo u line a (if (acks : Int) = n then .m else .smA (acks - n))))) ∧
      (a % 256 = 254 → u.cst line (proxyAgent d) = none →
        (∀ l, u.hst line d = some (.sd l) →
          t = looksAgain (wakes (if l = [] then dirDrop u line d else dirTo u line d (.s l)) line d)) ∧
        recallCounts u t line d)) ∧
    takes s .invAck (.invAck line a) (fun u t =>
      (plainAgent a →
        (∀ n, u.cst line a = some (.imAD n) → t = looksAgain (cacheTo u line a (.imAD (n + 1)))) ∧
        (∀ n, u.cst line a = some (.smAD n) → t = looksAgain (cacheTo u line a (.smAD (n + 1)))) ∧
        (∀ n, u.cst line a = some (.imA n) → t = looksAgain (cacheTo u line a (if n = 1 then .m else .imA (n - 1)))) ∧
        (∀ n, u.cst line a = some (.smA n) → t = looksAgain (cacheTo u line a (if n = 1 then .m else .smA (n - 1))))) ∧
      (a % 256 = 254 → recallCounts u t line d)) ∧
    takes s .putAck (.putAck line a) (fun u t =>
      (u.cst line a = some .miA ∨ u.cst line a = some .siA ∨ u.cst line a = some .iiA →
        t = looksAgain (if a % 256 = 255 then wakes (cacheDrop u line a) line d else cacheDrop u line a)) ∧
      (u.cst line a = none → t = looksAgain u)) ∧
    takes s .snpinv (.snpinv line) (fun u t =>
      (tabHas u.hco line = false → t = u) ∧
      (tabHas u.hco line = true → u.lineFree line = true → t = { u with hco := tabErase u.hco line }) ∧
      (tabHas u.hco line = true → u.lineFree line = false →
        ∃ v, t = sends v [Event.snpinv line] ∧ recallsAll u v line (u.lineHome line))) ∧
    takes s .snpdata (.snpdata line) (fun u t => let h := u.lineHome line
      (tabHas u.hco line = false → t = u) ∧
      (tabHas u.hco line = true →
        (u.hst line h = none ∨ (∃ l, u.hst line h = some (.s l)) → t = { u with hco := tabSet u.hco line false }) ∧
        (∀ o, u.hst line h = some (.o o) →
          t = sends (dirTo u line h (.sd [o])) [Event.fwdGets line o (dirAgent h), Event.snpdata line]) ∧
        ((∃ l, u.hst line h = some (.sd l)) ∨ (∃ n, u.hst line h = some (.rc n)) → t = sends u [Event.snpdata line])))

/-- The line protocol (R157 to R162), whole: requests and Puts, forwards and responses, as the two parts above say. -/
def Obligations.LineEventsFollowTheProtocol : Prop := lineRequestsFollowTheProtocol ∧ lineAnswersFollowTheProtocol

/-- The TLBs that an agent looks in hold a mark for a leaf: private-own, or shared (R153). -/
def marked (t : State) (agent pte : Nat) (own : Bool) : Prop :=
  ∀ k ∈ tlbLevels agent, ∀ e : TlbEntry, e ∈ (t.getCore k).tlb → e.pte = pte → e.mark = some own

/-- Outside the agenda, the pages, the caches and the TLBs nothing has changed. -/
def onlyPages (u t : State) : Prop :=
  { t with agenda := u.agenda, pages := u.pages, caches := u.caches, cores := u.cores } = u

/-- The claims that waited for the eviction of a field are served afresh (R155). -/
def claimsAgain (u : State) (p : Page) : List Event := p.waiting.map fun a => Event.claim p.leaf a (u.ownerAgent a)

/-- Pages (R153 to R155) and walks (R98, R118). CLAIM compares and sets the owner field: the first claimant owns the page or
shares it, a claim on another's page recalls it, and the claimant's TLBs take the answer as a mark. RECALL at the owner
gives up its lines of the page, once none of them changes and the access that made its claim is made (R154); RECALL_ACK shares the page, or for an eviction leaves no field.
LL_TLB_EVICTION recalls the owner, or the copies of a shared page. PAGE_WALK fills the TLBs with the leaf it finds, and
changes no byte but those of its PTE; one of the housekeeping hart stays in its partition (R361). A page of which some line is cached already is shared at once (log 57). -/
def Obligations.PageEventsTakeEffect : Prop :=
  ∀ (s : State) (pte agent core ctx : Nat) (e : TlbEntry) (mayOwn supervisor write : Bool) (va : Word),
    takes s .claim (.claim e agent mayOwn) (fun u t =>
      let home := homeDie e.pte * 256 + 224
      let v := (u.holdLeaf e home).noteClass [home] e.pa
      let p? := (u.pages.find? fun z => z.1 == e.pte).map (·.2)
      let told := fun (own : Bool) => (agent % 256 ≠ 136 → marked t agent e.pte own) ∧ t.agenda = v.agenda
      let owns := mayOwn = true ∧ u.ownerAgent agent = true ∧ u.pageHeld e = false
      let waits := fun (p : Page) =>
        { p with recalling := true, waiting := if agent ∈ p.waiting then p.waiting else p.waiting ++ [agent] }
      ({ t with agenda := u.agenda, pages := u.pages, cores := u.cores, mct := u.mct } = u) ∧
      (p? = none ∨ (∃ p, p? = some p ∧ p.owner = .none) →
        (owns → t.pages = tabSet u.pages e.pte ⟨.priv (agent / 256) (agent % 256), e, false, false, []⟩ ∧ told true) ∧
        (¬owns → t.pages = tabSet u.pages e.pte ⟨.shared, e, false, false, []⟩ ∧ told false)) ∧
      (∀ p, p? = some p →
        (p.owner = .shared → p.evicting = false → t.pages = u.pages ∧ told false) ∧
        (p.owner = .shared → p.evicting = true → t.pages = tabSet u.pages e.pte (waits p) ∧ t.agenda = v.agenda) ∧
        (∀ d a, p.owner = .priv d a →
          let mine := mayOwn = true ∧ agent = d * 256 + a ∧ p.recalling = false
          (mine → t.pages = u.pages ∧ told true) ∧
          (¬mine → t.pages = tabSet u.pages e.pte (waits p) ∧
            t.agenda = v.agenda ++ if p.recalling then [] else [Event.recall e.pte])))) ∧
    takes s .recall (.recall pte) (fun u t => ∀ (p : Page) (d a : Nat),
      u.pages.find? (fun z => z.1 == pte) = some (pte, p) → p.owner = .priv d a →
      let mine := fun (c : Nat × CState) => c.1 % 8192 = d * 256 + a ∧ leafHolds p.leaf (c.1 / 8192) = true
      ((∀ c : Nat × CState, c ∈ u.caches → mine c → c.2 = .s ∨ c.2 = .e ∨ c.2 = .m) →
        u.claimPending (d * 256 + a) pte = false →
        onlyPages u t ∧ t.pages = u.pages ∧ t.agenda = u.agenda ++ [Event.recallAck pte] ∧
        marked t (d * 256 + a) pte false ∧ (∀ c : Nat × CState, c ∈ t.caches ↔ c ∈ u.caches ∧ ¬mine c)) ∧
      ((∃ c : Nat × CState, c ∈ u.caches ∧ mine c ∧ c.2 ≠ .s ∧ c.2 ≠ .e ∧ c.2 ≠ .m) ∨
          u.claimPending (d * 256 + a) pte = true →
        t = { u with agenda := u.agenda ++ [Event.recall pte] })) ∧
    takes s .recallAck (.recallAck pte) (fun u t => ∀ p, u.pages.find? (fun z => z.1 == pte) = some (pte, p) →
      (p.recalling = false → t = u) ∧
      (p.recalling = true → p.evicting = false →
        onlyPages u t ∧ t.agenda = u.agenda ∧ t.caches = u.caches ∧
        t.pages = tabSet u.pages pte { p with owner := .shared, recalling := false, waiting := [] } ∧
        ∀ a ∈ p.waiting, a % 256 ≠ 136 → marked t a pte false) ∧
      (p.recalling = true → p.evicting = true →
        t = { u with pages := tabErase u.pages pte, agenda := u.agenda ++ claimsAgain u p })) ∧
    takes s .llTlbEviction (.llTlbEviction pte) (fun u t =>
      (u.pages.find? (fun z => z.1 == pte) = none → t = u) ∧
      (∀ p, u.pages.find? (fun z => z.1 == pte) = some (pte, p) →
        (∀ e : TlbEntry, e ∈ (t.getCore (homeDie pte * 256 + 224)).tlb → e.pte ≠ pte) ∧
        (p.owner = .none → t.pages = tabErase u.pages pte ∧ t.agenda = u.agenda) ∧
        (∀ d a, p.owner = .priv d a →
          t.pages = tabSet u.pages pte { p with recalling := true, evicting := true } ∧
          t.agenda = u.agenda ++ if p.recalling then [] else [Event.recall pte]) ∧
        (p.owner = .shared → u.pageHeld p.leaf = false →
          t.pages = tabErase u.pages pte ∧ t.agenda = u.agenda ++ claimsAgain u p) ∧
        (p.owner = .shared → u.pageHeld p.leaf = true →
          t.pages = tabSet u.pages pte { p with evicting := true } ∧ Event.llTlbEviction pte ∈ t.agenda ∧
          (∀ line ∈ u.pageLines p.leaf, ∀ o, u.hst line (u.lineHome line) = some (.o o) →
            Event.fwdGetm line o (dirAgent (u.lineHome line)) ∈ t.agenda) ∧
          (∀ line ∈ u.pageLines p.leaf, ∀ l, u.hst line (u.lineHome line) = some (.s l) → ∀ c ∈ l,
            Event.inv line c (dirAgent (u.lineHome line)) ∈ t.agenda)) ∧
        (∀ k, t.getSlot k = u.getSlot k) ∧ u.sameMemory t)) ∧
    takes s .pageWalk (.pageWalk core ctx supervisor va write) (fun u t =>
      let asidr := (u.getCtx ctx).asidr
      let asid := asidr.toNat / 2 ^ 44 % 2 ^ 16
      let v := va.toNat % 2 ^ 57
      let walks := u.ownerAgent core = true ∨ 160 ≤ core % 256 ∧ core % 256 < 172 ∧ core / 256 < 24
      (∀ x, u.walkViolation core ctx va = some x → t = sends u [Event.housekeepingRangeViolation x]) ∧
      (u.walkViolation core ctx va = none →
        canonical va = false ∨ inAperture va = true ∨ (u.getCtx ctx).live = false ∨ ¬walks → t = u) ∧
      (u.walkViolation core ctx va = none → canonical va = true → inAperture va = false → (u.getCtx ctx).live = true → walks → asidr.toNat / 2 ^ 60 = 10 →
        u.tlbFind core asid v write = none → ∀ l, u.walk (dieOfCore core) asidr v = .ok l →
        permFault supervisor l.u l.r l.w l.x ⟨!write, write, false⟩ = none → u.memOk →
          (∃ e : TlbEntry, e ∈ (t.getCore core).tlb ∧ e.asid = asid ∧ e.base = v / 2 ^ l.size * 2 ^ l.size ∧ e.size = l.size ∧
            e.pa = l.pa ∧ e.r = l.r ∧ e.w = l.w ∧ e.x = l.x ∧ e.u = l.u ∧ e.global = l.g) ∧
          u.sameMemoryOutside t l.pteAddr 8 ∧ ∀ k, t.getSlot k = u.getSlot k))

/-! ## Placement of work (R213, R324 to R331, R337 to R340, R468) -/

/-- The power domain of a physical core (R341): the quad, or the Bassoon's own. -/
def domainAt (pcore : Nat) : Nat := if pcore < 128 then pcore / 4 else pcore - 96

/-- A context is withheld on a die for its energy quota (R353). -/
def quotaStops (u : State) (die c : Nat) : Prop :=
  let q := tabGet 0 (u.getDie die).tquota c
  q.getLsbD 63 = true ∧ ((q.setWidth 32).toInt ≤ 0 ∨ c ∈ (u.getDie die).quotaHeld)

/-- A logical core of a context lies on a core of this die and package that takes new work (R330). -/
def offers (u : State) (die c k core : Nat) : Prop :=
  ∃ w e, u.ctRead c k = .entry w e ∧ e.pkg = u.pkg ∧ e.die = die ∧ core = die * 256 + e.pcore ∧
    (u.getDie die).withheld (domainAt e.pcore) = false ∧ ¬quotaStops u die c ∧ (u.getCore core).isolated = false

/-- A logical core is eligible for a record (R330): in the candidate range, on a core that takes new work and whose arrival
queue holds fewer than 8 entries. -/
def eligibleFor (u : State) (die k core : Nat) (r : WorkRecord) : Prop :=
  r.first ≤ k ∧ k < r.first + r.count ∧ offers u die (metaField r.msg 32 8) k core ∧ (u.getCore core).arrival.length < 8

/-- Some entry of the core table for a candidate range of a context cannot be read (R464). -/
def unreadRange (u : State) (c first count : Nat) : Prop := ∃ k, first ≤ k ∧ k < first + count ∧ u.ctRead c k = .unreadable

/-- The dispenser stops at a record: it has an eligible logical core, or its entries of the core table cannot be read. -/
def stopsAt (u : State) (die : Nat) (r : WorkRecord) : Prop :=
  unreadRange u (metaField r.msg 32 8) r.first r.count ∨ ∃ k core, eligibleFor u die k core r

/-- The record at an index is the one that the dispenser acts on: of those that it stops at, the first of highest priority. -/
def chosenRecord (u : State) (die i : Nat) (r : WorkRecord) : Prop :=
  (u.getDie die).work[i]? = some r ∧ stopsAt u die r ∧
  ∀ (j : Nat) (q : WorkRecord), (u.getDie die).work[j]? = some q → stopsAt u die q →
    metaField q.msg 48 2 < metaField r.msg 48 2 ∨ (metaField q.msg 48 2 = metaField r.msg 48 2 ∧ i ≤ j)

/-- A message with another logical core as DST (R38). -/
def sentTo (m : Msg) (k : Nat) : Msg := ⟨m.handler, word (m.metaWord.toNat / 2 ^ 16 * 2 ^ 16 + k % 2 ^ 16), m.payload⟩

/-- A core takes a moved entry (R337): nothing in its queue, a free slot, not withheld, in service. -/
def hasRoom (u : State) (core pcore : Nat) : Prop :=
  (u.getCore core).arrival = [] ∧ (∃ i < 4, (u.getSlot (core * 4 + i)).active = false) ∧
  (u.getDie (core / 256)).withheld (domainAt pcore) = false ∧ (u.getCore core).isolated = false

/-- A core of the die is a target for an entry, with a logical core of the entry's range there. -/
def isTarget (u : State) (die p k : Nat) (e : ArrEntry) : Prop :=
  hasRoom u (die * 256 + p) p ∧ offers u die (metaField e.msg 32 8) k (die * 256 + p) ∧
    ∃ f n o l, e.range = some (f, n, o, l) ∧ f ≤ k ∧ k < f + n

/-- The entry at an index is the first that a pass moves: of the movable ones of lowest priority, the youngest. -/
def firstMoved (u : State) (core i : Nat) (e : ArrEntry) : Prop :=
  let x := u.getCore core
  x.arrival[i]? = some e ∧ e.range ≠ none ∧ e.moving = none ∧ e.prio < 4 ∧
  ∀ (j : Nat) (b : ArrEntry), x.arrival[j]? = some b → b.range ≠ none → b.moving = none → e.prio < b.prio ∨ (b.prio = e.prio ∧ j ≤ i)

/-- The address of a context's launch queue descriptor (R324). -/
def descriptorAt (u : State) (c : Nat) : Nat := (u.getCtx c).lqbase.toNat / 2 ^ 5 % 2 ^ 47 * 32

/-- `n` bytes of near DRAM of class COH, with no poison. -/
def nearReadable (u : State) (a n : Nat) : Prop :=
  ∀ i < n, (∃ die, region u.pkg (a + i) = .near die) ∧ u.classify 0 (a + i) = .ok ⟨.coh, a + i⟩ ∧ (a + i) / 8 ∉ u.poison

/-- A context is the next that the agent serves (R328): of those with EN set and work, in turn, once the agent is awake and no
record is in progress. -/
def agentServes (u : State) (c : Nat) : Prop :=
  u.package.launches = [] ∧ u.package.belled ≠ [] ∧
  ∀ l : List Nat, (∀ y, y ∈ l ↔ (u.getCtx y).lqbase.getLsbD 0 = true ∧ u.launchWork y = true) → l.Pairwise (· < ·) →
    nextInRound l u.package.rrLaunch c

/-- A field of a record: `n` bytes at byte `i` of address `a`. -/
def field (u : State) (a i n : Nat) : Nat := memValue u (a + i) n

/-- The fields of a version 3 record are as R326 has them, for a mode. -/
def record3 (u : State) (a mode : Nat) : Prop :=
  let count := field u a 8 4
  let wide := if mode = 1 then field u a 6 2 else count
  field u a 0 1 = 3 ∧ field u a 1 1 = mode ∧ mode ≤ 1 ∧ field u a 2 1 < 8 ∧ field u a 3 1 ≤ 12 - mode ∧ field u a 13 1 = 0 ∧
  1 ≤ count ∧ count ≤ 65535 ∧ field u a 4 2 + wide ≤ 65535 ∧ field u a 24 4 % 64 = 0 ∧ field u a 28 4 % 64 = 0 ∧
  field u a 28 4 ≤ 65536 ∧
  (if mode = 1 then 1 ≤ field u a 6 2 ∧ field u a 12 1 ≤ 23 else field u a 6 2 = 0 ∧ field u a 12 1 = 0)

/-- The message of a record: TYPE 0, SRC 0xFFFF, the record's PRIO, and its payload with what follows it. -/
def recordMessage (u : State) (a c dst : Nat) (more : List Word) : Msg :=
  let payload := ((List.range (field u a 3 1)).map fun j => word (field u a (32 + 8 * j) 8)) ++ more
  ⟨word (field u a 16 8),
   word (dst % 2 ^ 16 + 0xFFFF * 2 ^ 16 + c % 2 ^ 8 * 2 ^ 32 + payload.length % 16 * 2 ^ 44 + field u a 2 1 % 4 * 2 ^ 48), payload⟩

/-- The tasks of a gang-mode record set out in increasing rank, each once its logical core is found in the core table (R328). -/
def gangSent (u : State) (c first : Nat) (place : Nat → CtEntry) (task : Nat → Msg) : Nat → State
  | 0 => u
  | n + 1 =>
    let v := (gangSent u c first place task n).ctTouch c (first + n)
    let core := (place n).die * 256 + (place n).pcore
    sends v [match v.entrySide 0 (place n).die with
      | some side => Event.blockMessage (place n).die side core (task n) (.agent c)
      | none => Event.taskMessageArrival core dispenserStop (task n) (.agent c)]

/-- Placement. WORK_QUEUE_RECORD_ARRIVAL enters a record, holds it for a resend if 512 are there, and discards that of a dead
context. DISPENSER_ASSIGN gives the first record of highest priority that has an eligible logical core to the next of them
in its context's round-robin (from the least: DESIGN CHOICE, log 2). REBALANCER_PASS marks entries of an overfull core alone
(the case of one core with 49 entries is said whole; which logical core of several on the target is open, log 34; moves under way
count as places of the forwarding table: DESIGN CHOICE, log 79). TASK_MOVE copies the footprint, then hands the entry over, with
its task id and its waiting so far, and writes a forwarding entry in place of an earlier one of the task, which
FORWARDING_ENTRY_EXPIRY removes 2²⁰ cycles later. A context whose core table one of them cannot read dies (R464); the reads set A
in the PTEs that they translate through (R494). -/
def Obligations.PlacementEventsTakeEffect : Prop :=
  ∀ (s : State) (die core c id i k kc : Nat) (r : WorkRecord) (e : ArrEntry),
    takes s .workQueueRecordArrival (.workQueueRecordArrival die r) (fun u t =>
      let d := u.getDie die
      let c := metaField r.msg 32 8
      ((u.getCtx c).live = false →
        (t.getDie die).work = d.work ∧ t.agenda = u.agenda ++ acknowledged r.creator 0 ∧ t.cores = u.cores ∧ t.ctxs = u.ctxs ∧
        ((u.getCtx c).everLive = true →
          (t.getDie die).dropcnt = tabSet d.dropcnt c (min (tabGet 0 d.dropcnt c + 1) (2 ^ 64 - 1)))) ∧
      ((u.getCtx c).live = true → 512 ≤ d.work.length → t = { u with backoff := u.backoff ++ [Resend.record die r] }) ∧
      ((u.getCtx c).live = true → d.work.length < 512 →
        t = { u with
          dies := tabSet u.dies die { d with work := d.work ++ [r] }
          agenda := u.agenda ++ acknowledged r.creator 0 ++ [Event.dispenserAssign die] })) ∧
    takes s .dispenserAssign (.dispenserAssign die) (fun u t =>
      let d := u.getDie die
      ((∀ (q : WorkRecord), q ∈ d.work → ¬stopsAt u die q) → t = u) ∧
      (chosenRecord u die i r → unreadRange u (metaField r.msg 32 8) r.first r.count →
        (t.getCtx (metaField r.msg 32 8)).live = false ∧ ∃ v : State, t = sends v [Event.dispenserAssign die]) ∧
      (chosenRecord u die i r → ¬unreadRange u (metaField r.msg 32 8) r.first r.count →
        ∀ (l : List Nat) (dsc : SpillDesc) (held : Bool),
        let c := metaField r.msg 32 8
        let m := sentTo r.msg k
        let v := u.rangeTouch c r.first r.count
        let v1 := { v with dies := tabSet v.dies die { v.getDie die with
          work := d.work.erase r, rrDispLc := tabSet d.rrDispLc c k } }
        let w := v1.acceptReads kc c k
        let x := w.getCore kc
        let since := (w.cycleOf kc).toNat
        l.Pairwise (· < ·) → (∀ y, y ∈ l ↔ ∃ core, eligibleFor u die y core r) →
        nextInRound l (if tabHas d.rrDispLc c then some (tabGet 0 d.rrDispLc c) else none) k → eligibleFor u die k kc r → k < 2 ^ 16 →
        taskMessage m → (v1.getCtx c).live = true → v1.spillDesc c k = some dsc → v1.holds kc c k = some held →
        queueTakes w kc m dsc held →
          t = { w with
            cores := tabSet w.cores kc { x with
              arrival := x.arrival ++
                [⟨m, nextTaskId w c k, metaField m 48 2, since, some (r.first, r.count, r.fpOff, r.fpLen), none, false⟩] }
            ctxs := tabSet w.ctxs c (countedUp w c k)
            agenda := w.agenda ++ goesOn w kc c ++ [Event.dispenserAssign die] })) ∧
    takes s .rebalancerPass (.rebalancerPass die) (fun u t =>
      let at_ := fun (p : Nat) => (u.getCore (die * 256 + p)).arrival
      let d := u.getDie die
      let begun := { u with dies := tabSet u.dies die { d with passUsed := [] } }
      let broken := fun (y : ArrEntry) => ∃ f n o l, y.range = some (f, n, o, l) ∧ unreadRange u (metaField y.msg 32 8) f n
      ((∀ p < 132, (at_ p).length ≤ 48) → t = begun) ∧
      (∀ p < 132, 48 < (at_ p).length → (∀ q < 132, q ≠ p → (at_ q).length ≤ 48) →
        ((∃ y ∈ at_ p, broken y) → ∃ y ∈ at_ p, broken y ∧ (t.getCtx (metaField y.msg 32 8)).live = false) ∧
        ((∀ y ∈ at_ p, ¬broken y) →
          (∀ n, (t.getCore n).arrival.map (fun y => { y with moving := none, copied := false }) =
            (u.getCore n).arrival.map (fun y => { y with moving := none, copied := false })) ∧
          ((t.getCore (die * 256 + p)).arrival.filter (fun y => y.moving.isSome)).length ≤
            ((at_ p).filter (fun y => y.moving.isSome)).length + min 8 ((at_ p).length - 48) ∧
          (∀ n, t.getSlot n = u.getSlot n) ∧ t.ctxs = u.ctxs)) ∧
      (∀ p < 132, (at_ p).length = 49 → (∀ q < 132, q ≠ p → (at_ q).length ≤ 48) → firstMoved u (die * 256 + p) i e →
        (∀ y ∈ at_ p, ¬broken y) → (∀ j < 4, (u.getSlot ((die * 256 + p) * 4 + j)).active = true) →
        (u.forwarded (die * 256 + p)).length + ((at_ p).filter (fun y => y.moving.isSome)).length < 32 →
        ∀ j < 132,
          let target := fun (j : Nat) => (d.rrRebal + 1 + j) % 132
          (∃ k, isTarget u die (target j) k e) → (∀ j' < j, ¬∃ k, isTarget u die (target j') k e) →
          ∃ k, isTarget u die (target j) k e ∧
            let w := begun.targetTouch e
            t = { w with
              freeCtr := w.freeCtr + 1
              cores := tabSet w.cores (die * 256 + p) { u.getCore (die * 256 + p) with
                arrival := (at_ p).set i { e with moving := some k, copied := false } }
              dies := tabSet w.dies die { w.getDie die with rrRebal := target j, passUsed := target j :: (w.getDie die).passUsed }
              agenda := w.agenda ++ [Event.taskMove (die * 256 + p) (metaField e.msg 32 8) e.taskId] })) ∧
    takes s .taskMove (.taskMove core c id) (fun u t =>
      let x := u.getCore core
      let mine := fun (y : ArrEntry) => y.moving ≠ none ∧ metaField y.msg 32 8 = c ∧ y.taskId = id
      ((∀ (y : ArrEntry), y ∈ x.arrival → ¬mine y) → t = u) ∧
      let broken := (∃ k, e.moving = some k ∧ u.ctRead c k = .unreadable) ∨
        ∃ f n o l, e.range = some (f, n, o, l) ∧ unreadRange u c f n
      (x.arrival[i]? = some e → mine e → (∀ (j : Nat) (y : ArrEntry), j < i → x.arrival[j]? = some y → ¬mine y) →
        (broken → (t.getCtx c).live = false) ∧ (¬broken →
        ((∀ p k, ¬isTarget u (core / 256) p k e) → e.moving = some k →
          (∀ w g, u.ctRead c k = .entry w g → g.pkg = u.pkg → g.die = core / 256 →
            ¬hasRoom u (core / 256 * 256 + g.pcore) g.pcore) →
          let w := u.targetTouch e
          t = { w with cores := tabSet w.cores core { x with
            arrival := x.arrival.set i { e with moving := none, copied := false } } }) ∧
        (∀ p w g f n off len, e.moving = some k → u.ctRead c k = .entry w g → g.pkg = u.pkg → g.die = core / 256 → g.pcore = p →
          p < 256 → hasRoom u (core / 256 * 256 + p) p → e.range = some (f, n, off, len) →
          let dest := core / 256 * 256 + p
          let old := metaField e.msg 0 16
          let v := if len = 0 then u else (u.ctTouch c old).ctTouch c k
          (e.copied = false → len ≠ 0 → u.ctRead c old = .unreadable → (t.getCtx c).live = false) ∧
          (e.copied = false → (len ≠ 0 → u.ctRead c old ≠ .unreadable) → v.memOk →
            t.cores = tabSet v.cores core { v.getCore core with
              arrival := (v.getCore core).arrival.set i { e with copied := true } } ∧
            t.agenda = v.agenda ++ [Event.taskMove core c id] ∧ t.ctxs = v.ctxs ∧ t.dies = v.dies ∧
            (len = 0 → u.sameMemory t) ∧
            (∀ w1 g1 w2 g2, len ≠ 0 → v.ctRead c old = .entry w1 g1 → v.ctRead c k = .entry w2 g2 →
              let src := shareAddr v.pkg g1 (g1.pbase * 16384 + off)
              let dst := shareAddr v.pkg g2 (g2.pbase * 16384 + off)
              ∀ a, memGet t.mem a = if dst ≤ a ∧ a < dst + len then memGet v.mem (src + (a - dst)) else memGet v.mem a)) ∧
          (e.copied = true →
            let w := u.ctTouch c k
            (∀ (z : PreMark), z ∈ (w.getCore dest).marks → ¬(z.ctx = c ∧ z.lcore = k % 2 ^ 16)) →
            (t.getCore core).arrival = (w.getCore core).arrival.eraseIdx i ∧
            (∀ z, z ∈ (t.getCore core).fwd ↔
              z = (c, id, dest, (w.cycleOf core).toNat) ∨ z ∈ w.forwarded core ∧ ¬(z.1 = c ∧ z.2.1 = id)) ∧
            (t.getCore dest).arrival = (w.getCore dest).arrival ++ [{ e with
              msg := sentTo e.msg k, moving := none, copied := false,
              since := (w.cycleOf dest - (w.cycleOf core - word e.since)).toNat }] ∧
            (∀ n, n ≠ core → n ≠ dest → t.getCore n = w.getCore n) ∧ t.ctxs = w.ctxs ∧ t.dies = w.dies ∧ w.sameMemory t ∧
            t.agenda = w.agenda ++ wakeups w dest c 1 ++ [Event.dispatch dest, Event.redelivery core]))))) ∧
    takes s .forwardingEntryExpiry (.forwardingEntryExpiry core c id) (fun u t =>
      { t with cores := u.cores } = u ∧
      (∀ n, t.getCore n = if n = core then { u.getCore core with fwd := (t.getCore core).fwd } else u.getCore n) ∧
      (∀ f, f ∈ (t.getCore core).fwd ↔
        f ∈ (u.getCore core).fwd ∧ ¬(f.1 = c ∧ f.2.1 = id ∧ 2 ^ 20 ≤ (u.cycleOf core - word f.2.2.2).toNat)))

/-- The launch agent. LQBELL_WRITE stores TAIL, where it can, and wakes the agent, while EN is set and `ACCEPT` is committed,
and is else discarded. LAUNCH_RECORD takes the next context in turn that has EN set and work (from the least: DESIGN CHOICE, log 2),
and sleeps where none has: it clears EN at a descriptor that breaks the rule or cannot be read, and goes on for the others;
refuses a record with its lowest REASON; both it logs (R487). Else it sends the tasks of a record in increasing rank, or its
dispense records. LAUNCH_RECORD_COMPLETE increments HEAD, and sends the vector if the record asks for it. -/
def Obligations.LaunchEventsTakeEffect : Prop :=
  ∀ (s : State) (c tail reason : Nat) (l : Launch),
    takes s .lqbellWrite (.lqbellWrite c tail) (fun u t =>
      let a := descriptorAt u c
      let serves := u.package.committed = true ∧ (u.getCtx c).lqbase.getLsbD 0 = true ∧ nearReadable u a 1
      ((u.package.committed = false ∨ (u.getCtx c).lqbase.getLsbD 0 = false) → t = u) ∧
      (serves → u.memOk →
        bytesWritten u t (a + 12) ((List.range 4).map fun i => byteOf tail i) ∧ c ∈ t.package.belled ∧
        (∀ y, y ≠ c → (y ∈ t.package.belled ↔ y ∈ u.package.belled)) ∧ t.agenda = u.agenda ++ [Event.launchRecord] ∧
        { t with mem := u.mem, package := u.package, agenda := u.agenda } = u) ∧
      (u.package.committed = true → (u.getCtx c).lqbase.getLsbD 0 = true → (∀ die, region u.pkg (a + 12) ≠ .near die) →
        u.sameMemory t ∧ c ∈ t.package.belled ∧ t.agenda = u.agenda ++ [Event.launchRecord])) ∧
    takes s .launchRecord .launchRecord (fun u t =>
      let x := u.getCtx c
      let a := descriptorAt u c
      let ring := memValue u a 8
      let head := memValue u (a + 8) 4
      let cap := memValue u (a + 16) 1
      let rec_ := ring + 128 * (head % 2 ^ cap)
      let sound := nearReadable u a 32 ∧ ring % 128 = 0 ∧ 4 ≤ cap ∧ cap ≤ 12 ∧ (∀ i < 15, memGet u.mem (a + 17 + i) = 0)
      let begun := fun (v : State) => t = { v with
        package := { v.package with
          launches := ⟨c, field u rec_ 8 4, decide (field u rec_ 2 1 / 4 % 2 = 1), field u rec_ 14 2⟩ :: v.package.launches
          rrLaunch := some c } }
      (u.package.belled ≠ [] → u.package.launches = [] →
        (∀ y, (u.getCtx y).lqbase.getLsbD 0 = true → u.launchWork y = false) →
          t = { u with package := { u.package with belled := [] } }) ∧
      ((u.ctxs.map fun y => y.1).Pairwise (· < ·) → agentServes u c →
      ((∀ die, region u.pkg a ≠ .near die) ∨ (ring % 128 ≠ 0 ∨ cap < 4 ∨ 12 < cap) ∧ nearReadable u a 32 →
        ∃ r : LogRecord, r.cls = 5 ∧ r.containment = 1 ∧ r.cause = 5 ∧ r.ctx = some c ∧ r.addr = none ∧
          t = sends (State.logRecord { u with ctxs := tabSet u.ctxs c { x with lqbase := word (x.lqbase.toNat / 2 * 2) } } 0 r)
            [Event.launchRecord]) ∧
      (sound → head ≠ memValue u (a + 12) 4 → nearReadable u rec_ 128 →
        (field u rec_ 0 1 = 3 →
          (reason = 2 ∧ 1 < field u rec_ 1 1 ∨ reason = 3 ∧ field u rec_ 1 1 = 1 ∧ 11 < field u rec_ 3 1 ∨
           reason = 3 ∧ field u rec_ 1 1 = 0 ∧ 12 < field u rec_ 3 1 ∨
           reason = 4 ∧ field u rec_ 1 1 = 0 ∧ field u rec_ 3 1 ≤ 12 ∧ (field u rec_ 8 4 = 0 ∨ 65535 < field u rec_ 4 2 + field u rec_ 8 4) ∨
           reason = 5 ∧ field u rec_ 1 1 = 0 ∧ field u rec_ 3 1 ≤ 12 ∧ 1 ≤ field u rec_ 8 4 ∧
             field u rec_ 4 2 + field u rec_ 8 4 ≤ 65535 ∧ field u rec_ 13 1 ≠ 0) →
          let err := word (reason + min (x.lqerr.toNat / 2 ^ 16 % 2 ^ 16 + 1) (2 ^ 16 - 1) * 2 ^ 16 + head * 2 ^ 32)
          ∃ (r : LogRecord) (v : State), v = State.logRecord { u with ctxs := tabSet u.ctxs c { x with lqerr := err } } 0 r ∧
            r.cls = 5 ∧ r.containment = 1 ∧ r.cause = 5 ∧ r.ctx = some c ∧ r.addr = none ∧
            t = { v with
              package := { v.package with
                launches := ⟨c, 0, decide (field u rec_ 2 1 / 4 % 2 = 1), field u rec_ 14 2⟩ :: v.package.launches
                rrLaunch := some c }
              agenda := v.agenda ++ [Event.launchRecordComplete c] }) ∧
        (record3 u rec_ 1 → begun (sends u ((List.range (field u rec_ 8 4)).map fun i =>
          Event.workQueueRecordArrival (field u rec_ 12 1)
            ⟨recordMessage u rec_ c 0 [word i], field u rec_ 4 2, field u rec_ 6 2, field u rec_ 24 4, field u rec_ 28 4, .agent c⟩))) ∧
        (record3 u rec_ 0 → ∀ place : Nat → CtEntry,
          let first := field u rec_ 4 2
          let sent := gangSent u c first place fun i => recordMessage u rec_ c (first + i) []
          (∀ i < field u rec_ 8 4, ((sent i).getCtx c).live = true ∧
            ∃ w, (sent i).ctRead c (first + i) = .entry w (place i) ∧ (place i).pkg = ((sent i).ctTouch c (first + i)).pkg ∧
              dieOfCore (coreKey (place i).die (place i).pcore) = (place i).die) →
          begun (sent (field u rec_ 8 4)))))) ∧
    takes s .launchRecordComplete (.launchRecordComplete c) (fun u t =>
      let a := descriptorAt u c
      ((∀ (y : Launch), y ∈ u.package.launches → y.ctx ≠ c) → t = u) ∧
      (l ∈ u.package.launches → l.ctx = c → (∀ (y : Launch), y ∈ u.package.launches → y.ctx = c → y = l) →
        nearReadable u a 12 → u.memOk →
        bytesWritten u t (a + 8) ((List.range 4).map fun i => byteOf ((memValue u (a + 8) 4 + 1) % 2 ^ 32) i) ∧
        t.package.launches = u.package.launches.erase l ∧ t.agenda = u.agenda ++ [Event.launchRecord] ∧
        (0 ∉ u.package.hostDown → t.package.msix = u.package.msix ++
          (if l.notify = true ∧ u.package.accepts 15 = true then [(0, l.vec)] else [])) ∧
        { t with mem := u.mem, package := u.package, agenda := u.agenda } = u))

/-! ## Power, current and heat (R341 to R353, R474, R475) -/

/-- The request of a domain at a boundary (R342): boost if a core of it that runs an activation requests boost; low if
every core of it runs one and requests low; else nominal. -/
def boostRequest (u : State) (die i : Nat) : Prop :=
  ∃ p < 132, domainAt p = i ∧ (∃ j < 4, (u.getSlot ((die * 256 + p) * 4 + j)).active = true) ∧ (u.getCore (die * 256 + p)).boostReq = 2

def lowRequest (u : State) (die i : Nat) : Prop :=
  ∀ p < 132, domainAt p = i → (∃ j < 4, (u.getSlot ((die * 256 + p) * 4 + j)).active = true) ∧ (u.getCore (die * 256 + p)).boostReq = 1

/-- The quad whose sensor a domain uses (R341, R13). -/
def sensorQuad (i : Nat) : Nat := if i < 32 then i else if i = 32 then 0 else if i = 33 then 7 else if i = 34 then 24 else 31

/-- The throttle state of a domain after a boundary (R349): above 98 °C it becomes throttled, at 95 °C or below it stops, and
it changes at most once in 64 µs. -/
def throttles (x : Domain) (time temp : Nat) (on : Bool) : Prop :=
  let free := x.changedAt = 0 ∨ x.changedAt - 1 + 64000 ≤ time
  (free → x.throttled = false → (on = true ↔ 392 ≤ temp)) ∧ (free → x.throttled = true → (on = false ↔ temp ≤ 380)) ∧
  (¬free → on = x.throttled)

/-- Power. TQUOTA_WRITE stores EN and adds the debt to BAL, saturated. BOOST_BOUNDARY samples, charges the pool for every
domain that ran above nominal in the interval (R345), refills it, grants and sets the levels in the rule's order; `THERMCRIT_N` is
released once no die is critical (DESIGN CHOICE, log 82). CLOCK_CHANGE_COMPLETE ends a change. CURRENT_WINDOW_END sets and lifts
withholding for the predicted current, the energy of contexts and the current of the die, and makes a die with a sensor at
110 °C critical, which asserts `THERMCRIT_N` (R474). Readings and predictions are inputs (log 48). -/
def Obligations.PowerEventsTakeEffect : Prop :=
  ∀ (s : State) (die c i : Nat) (w : Word) (temps : List Nat) (win : PowerWindow),
    takes s .tquotaWrite (.tquotaWrite die c w) (fun u t =>
      let old := ((tabGet 0 (u.getDie die).tquota c).setWidth 32).toInt
      let bal := (w.setWidth 32).toInt + min old 0
      let q := tabGet 0 (t.getDie die).tquota c
      q.getLsbD 63 = w.getLsbD 63 ∧ (q.setWidth 32).toInt = max (-(2 ^ 31)) (min (2 ^ 31 - 1) bal) ∧ (∀ k, 32 ≤ k → k < 63 → q.getLsbD k = false) ∧
      (∀ y, y ≠ c → tabGet 0 (t.getDie die).tquota y = tabGet 0 (u.getDie die).tquota y) ∧
      (∀ n, n ≠ die → t.getDie n = u.getDie n) ∧ { t with dies := u.dies } = u) ∧
    takes s .boostBoundary (.boostBoundary die temps) (fun u t =>
      let d := u.getDie die
      let d' := t.getDie die
      let time := u.time.toNat
      let above := (List.range 36).filter fun i => (d.domain i).ran || decide (2 ≤ (d.domain i).level)
      let charged := d.pool - above.length
      let pool := if above = [] then min (charged + 1) 64 else charged
      let hot := fun (i : Nat) => (d'.domain i).throttled || d'.critical != 0
      temps.length = 32 → ∀ boosts : Nat → Bool, (∀ i < 36, boosts i = true ↔ boostRequest u die i) →
        let claims := ((List.range 36).map fun i => (d.grant + 1 + i) % 36).filter fun i => boosts i && !hot i
        let grants := if d'.critical ≠ 0 ∨ d.limited = true then [] else claims.take pool
        d'.pool = pool ∧ d'.grant = grants.getLast?.getD d.grant ∧
        d'.critical = (if d.critical ≠ 0 ∧ d.critical - 1 + 64000 ≤ time ∧ (∀ x ∈ temps, x ≤ 400) then 0 else d.critical) ∧
        (∀ i < 36,
          let x := d.domain i
          let y := d'.domain i
          let level := if hot i = true then 0 else if i ∈ grants then 3 else if d.limited = true ∧ 1 < x.level then 1
            else if x.level = 3 then 2 else y.level
          throttles x time (temps.getD (sensorQuad i) 0) y.throttled ∧ y.temp = temps.getD (sensorQuad i) 0 ∧
          y.changedAt = (if y.throttled = x.throttled then x.changedAt else time + 1) ∧ y.withheld = x.withheld ∧ y.level = level ∧
          (hot i = false → i ∉ grants → ¬(d.limited = true ∧ 1 < x.level) → x.level ≠ 3 →
            (lowRequest u die i → y.level = 0) ∧ (¬lowRequest u die i → y.level = 1)) ∧
          (y.changing = if y.level = x.level then x.changing else true) ∧
          (y.before = if y.level = x.level then x.before else x.level) ∧ y.ran = false ∧ y.share = x.share ∧ y.offset = x.offset) ∧
        d' = { d with pool := d'.pool, grant := d'.grant, critical := d'.critical, domains := d'.domains } ∧
        (∀ n, n ≠ die → t.getDie n = u.getDie n) ∧
        t.agenda = u.agenda ++ ((List.range 36).filter fun i => (d'.domain i).level != (d.domain i).level).map
          (fun i => Event.clockChangeComplete die i) ∧
        (t.package.thermcrit = true ↔ u.package.thermcrit = true ∧ ∃ y ∈ t.dies, y.2.critical ≠ 0) ∧
        { t with
          dies := u.dies, agenda := u.agenda
          package := { t.package with thermcrit := u.package.thermcrit } } = u) ∧
    takes s .clockChangeComplete (.clockChangeComplete die i) (fun u t =>
      let x := (u.getDie die).domain i
      (t.getDie die).domain i = { x with changing := false, before := x.level } ∧
      (∀ j, j ≠ i → (t.getDie die).domain j = (u.getDie die).domain j) ∧ (∀ n, n ≠ die → t.getDie n = u.getDie n) ∧
      { t with dies := u.dies } = u) ∧
    takes s .currentWindowEnd (.currentWindowEnd die win) (fun u t =>
      let d := u.getDie die
      let d' := t.getDie die
      (∀ n, t.getSlot n = u.getSlot n) ∧ t.cores = u.cores ∧ t.ctxs = u.ctxs ∧ (∀ n, n ≠ die → t.getDie n = u.getDie n) ∧
      (∀ p, win.domains = [(i, p)] →
        let share := (d.domain i).share
        ((d'.domain i).withheld = true ↔ share < p ∨ (9 * share < 10 * p ∧ (d.domain i).withheld = true)) ∧
        ∀ j, j ≠ i → (d'.domain j).withheld = (d.domain j).withheld) ∧
      (∀ e, win.energy = [(c, e)] →
        let q := tabGet 0 d.tquota c
        let q' := tabGet 0 d'.tquota c
        (q.getLsbD 63 = true → q'.getLsbD 63 = true ∧ (q'.setWidth 32).toInt = max (-(2 ^ 31)) ((q.setWidth 32).toInt - e)) ∧
        (q.getLsbD 63 = false → q' = q) ∧ ∀ y, y ≠ c → tabGet 0 d'.tquota y = tabGet 0 d.tquota y) ∧
      (d.limit < win.current → d'.limited = true) ∧ (10 * win.current ≤ 9 * d.limit → win.current ≤ d.limit → d'.limited = false) ∧
      (win.current ≤ d.limit → 9 * d.limit < 10 * win.current → d'.limited = d.limited) ∧
      (d.critical = 0 → (∃ x ∈ win.temps, 440 ≤ x) →
        d'.critical = u.time.toNat + 1 ∧ t.package.thermcrit = true ∧ ∀ j < 36,
          (d'.domain j).level = 0 ∧
          ((d.domain j).level ≠ 0 → (d'.domain j).ran = ((d.domain j).ran || decide (2 ≤ (d.domain j).level)))) ∧
      ((d.critical ≠ 0 ∨ ∀ x ∈ win.temps, x < 440) →
        d'.critical = d.critical ∧ (∀ j, (d'.domain j).level = (d.domain j).level) ∧
        (win.current ≤ d.limit ∨ d.limited = true → t.agenda = u.agenda ∧ u.sameMemory t)))

/-! ## Registers, start-up and trust (R213, R324, R354, R355, R360 to R364, R412, R416, R472, R473, R482 to R487) -/

/-- The host's writes at an offset are discarded: every register but `LQBELL`, `ACCEPT` and `ATTREQ`, or in recovery mode
but `RCVREQ` (R363). -/
def hostDiscards (u : State) (off : Nat) : Prop :=
  (u.package.bootState ≠ 3 → off ≠ 0x20 ∧ off ≠ 0x28 ∧ off ≠ 0x40 ∧ ¬(0x200000 ≤ off ∧ off < 0x200800)) ∧
  (u.package.bootState = 3 → off ≠ 0x90)

/-- The entry of a step in a boot record (R355). -/
def stepOf (b : BootRecord) (k : Nat) : StepEntry := b.steps.toList.getD k ⟨0, 0, 0⟩

/-- Bits of a word, and the zero beside them. -/
def keeps (w : Word) (bits : List (Nat × Nat)) : Word :=
  wordOf fun i => w.getLsbD i && bits.any fun b => decide (b.1 ≤ i) && decide (i ≤ b.2)

/-- The host reaches the package (R363, R364): port 0 is up, or port 1 is and is a feature not yet refused. -/
def hostComes (u : State) : Prop :=
  0 ∉ u.package.hostDown ∨ 1 ∉ u.package.hostDown ∧ (u.package.committed = false ∨ u.package.accepted.testBit 11 = true)

/-- A Shawm hart is in service (R355, R457). -/
def inPlace (u : State) (hart : Nat) : Prop := hart ∉ u.package.record.shawmsOut ∧ hart ∉ u.package.shawmsReset

/-- A Shawm hart has run code of its own: its registers hold free values, its `x0` is zero, and all else is as it was (log 67). -/
def hartActed (u v : State) (hart : Fin 96) : Prop := ∃ x : Shawm, x.x[0] = 0 ∧
  v = { u with
    freeCtr := u.freeCtr + 1
    dies := tabSet u.dies (hart.val / 4) { u.getDie (hart.val / 4) with
      shawms := (u.getDie (hart.val / 4)).shawms.set (hart.val % 4) x (by omega) } }

/-- The bytes of memory from an address. -/
def bytesAt (u : State) (a n : Nat) : List Byte := (List.range n).map fun i => memGet u.mem (a + i)

/-- Where the bytes of a host address stand: in the window of port 0, and beyond it above the map (log 61). -/
def hostBytesAt (addr : Nat) : Nat := if addr < 2 ^ 45 then 0x400000000000 + addr else 2 ^ 62 + addr

/-- The image of a kind in flash. -/
def imageOf (f : Flash) (k : ImageKind) : Option Image := f.images.find? fun i => i.kind == k

/-- The body of the configuration records in flash. -/
def configOf (f : Flash) : List Byte := match imageOf f .config with | some i => i.body | none => []

/-- SHA3-512 of an image's header and body (R357). -/
def imageDigest (i : Image) : List Byte := sha3 (Config.imageHeader i.body.length i.version i.kind ++ i.body)

/-- An image verifies (R358, R359): the digest of its key, its signature, and its security version. -/
def imageVerifies (f : Flash) (counter : Nat) (i : Image) : Prop :=
  sha3 i.publicKey = (if i.kind = .housekeeping ∨ i.kind = .supervisor then Config.ownerDigest (configOf f) else Config.romDigest) ∧
  Config.verifies i.publicKey (imageDigest i) i.signature = true ∧ counter ≤ i.version

/-- The image that recovery mode finds at a host address, good to be installed (R483, R486). -/
def goodImage (u : State) (addr : Nat) (i : Image) : Prop :=
  let pa := hostBytesAt addr
  Config.parseImage (bytesAt u pa (Config.imageBytes (bytesAt u pa 8192))) = some i ∧
  i.kind = (if u.package.identityErased then .enrolment else .recovery) ∧ imageVerifies u.package.flash u.package.boardCounter i

/-- Register writes from outside the cores. REGISTER_WRITE by the host reaches `ACCEPT`, `ATTREQ` and `LQBELL`, or in
recovery mode `RCVREQ`, through the window of die 0. A Shawm hart of the supervisor in service writes supervisor registers and
CSRs, the address of `DONE` of a context, memory, and save records, whose positions it occupies (DEDUCED, log 13). ASIDR_WRITE makes a halted
context live; that one never live becomes so by its first write of `ASIDR` is the model's reading (log 28). -/
def registerWritesTakeEffect : Prop :=
  ∀ (s : State) (off c core : Nat) (w : Word) (side : Fin 4) (hart : Fin 96) (k l : Nat) (p : Fin 4) (bytes : List Byte) (pa : Nat),
    takes s .registerWrite (.registerWrite .host (.device 0 off) w) (fun u t =>
      (¬hostComes u ∨ hostDiscards u off → t = u) ∧
      (hostComes u → u.package.bootState ≠ 3 →
        (off = 0x20 → t = { u with agenda := u.agenda ++ [Event.acceptCommit w] }) ∧
        (off = 0x28 → t = { u with agenda := u.agenda ++ [Event.acceptHighWrite w] }) ∧
        (off = 0x40 → t = { u with agenda := u.agenda ++ [Event.attreqGo w] }) ∧
        (c < 256 → off = 0x200000 + 8 * c → t = { u with agenda := u.agenda ++ [Event.lqbellWrite c (w.toNat % 2 ^ 32)] })) ∧
      (hostComes u → u.package.bootState = 3 → off = 0x90 → t = { u with agenda := u.agenda ++ [Event.rcvreqGo w] })) ∧
    takes s .registerWrite (.registerWrite (.shawm hart.val) (.device 0 off) w) (fun u t =>
      (hart.val = 0 ∨ ¬inPlace u hart.val → t = u) ∧
      (0 < hart.val → inPlace u hart.val → ∃ v, hartActed u v hart ∧
        (let x := v.getCtx c
         let d := v.getDie 0
         (c < 256 → off = 0x201000 + 8 * c → t = { v with ctxs := tabSet v.ctxs c { x with lqbase := keeps w [(5, 51), (0, 0)] } }) ∧
         (off = 0x100000 + 8 * side.val → t = { v with dies := tabSet v.dies 0 { d with
           gateway := d.gateway.set side.val (keeps w [(63, 63), (32, 39), (0, 15)]) } }) ∧
         (c < 256 → off = 0x202000 + 8 * c ∨ off = 0x203000 + 8 * c ∨ off = 0x204000 + 8 * c → t = v)))) ∧
    takes s .registerWrite (.registerWrite (.shawm hart.val) (.csr c core k) w) (fun u t =>
      0 < hart.val → inPlace u hart.val → ∃ v, hartActed u v hart ∧
      (let x := v.getCtx c
       let ctx := fun (y : Context) => t = { v with ctxs := tabSet v.ctxs c y }
       (k = 0x101 → ctx { x with cbase := keeps w [(2, 63)] }) ∧ (k = 0x102 → ctx { x with clim := keeps w [(2, 63)] }) ∧
       (k = 0x103 → ctx { x with csave := keeps w [(12, 63)] }) ∧ (k = 0x105 → ctx { x with coretab := keeps w [(6, 63)] }) ∧
       (k = 0x106 → ctx { x with routetab := keeps w [(3, 63)] }) ∧ (k = 0x107 → ctx { x with ownmap := keeps w [(5, 63)] }) ∧
       (k = 0x108 → ctx { x with spillbase := keeps w [(5, 63)] }) ∧
       (k = 0x110 → core % 256 < 128 →
         t = { v with shiptgt := tabSet v.shiptgt (core / 256 * 32 + core % 256 / 4) (keeps w [(7, 7), (0, 3)]) }) ∧
       (k = 0x111 → t = { v with cores := tabSet v.cores core { v.getCore core with gshare := max 1 (min 16 (w.toNat % 32)) } }) ∧
       (k = 0x120 → t = { v with mctbase := keeps w [(12, 51), (0, 0)] }) ∧
       (k = 0x104 → exec .asidrWrite { v with agenda := .asidrWrite c w :: v.agenda } = .next t))) ∧
    takes s .registerWrite (.registerWrite (.shawm hart.val) (.runtime c) w) (fun u t =>
      0 < hart.val → inPlace u hart.val → ∃ v, hartActed u v hart ∧
        t = { v with ctxs := tabSet v.ctxs c { v.getCtx c with runtime := w } }) ∧
    takes s .registerWrite (.registerWrite (.shawm hart.val) (.record c l p.val bytes) w) (fun u t =>
      0 < hart.val → inPlace u hart.val → ∃ v, hartActed u v hart ∧
        (let i := l * 4 + p.val
         match v.tableWrite c ((v.getCtx c).csave + word (i * 4096)) bytes with
         | none => t = v
         | some v2 =>
           let x := v2.getCtx c
           (∀ j, j ∈ (t.getCtx c).occupied ↔ j ∈ x.occupied ∨ j = i) ∧
           t = { v2 with ctxs := tabSet v2.ctxs c { x with occupied := (t.getCtx c).occupied, seqs := tabErase x.seqs i } })) ∧
    takes s .registerWrite (.registerWrite (.shawm hart.val) (.memory pa bytes) w) (fun u t =>
      0 < hart.val → inPlace u hart.val → ∃ v, hartActed u v hart ∧
        (pa % 128 + bytes.length ≤ 128 → v.memOk → ∀ q, v.classify (hart.val / 4) pa = .ok q → q.kind = .hnc ∨ q.kind = .swm →
          bytesWritten v t q.pa bytes ∧ t.agenda = v.agenda ∧ t.cores = v.cores ∧ t.ctxs = v.ctxs ∧ t.dies = v.dies)) ∧
    takes s .asidrWrite (.asidrWrite c w) (fun u t =>
      let x := u.getCtx c
      let revives := x.live = false ∧ (x.haltDone = true ∨ x.everLive = false)
      (¬revives → t = { u with ctxs := tabSet u.ctxs c { x with asidr := w } }) ∧
      (revives → t.ctxs = tabSet u.ctxs c { x with
          asidr := w, live := true, everLive := true, haltDone := false, occupied := [], seqs := [], spilled := [] } ∧
        { t with ctxs := u.ctxs, dies := u.dies } = u ∧
        ∀ die, (t.getDie die) = { u.getDie die with dropcnt := (t.getDie die).dropcnt } ∧
          (((u.getDie die).dropcnt.map fun y => y.1).Pairwise (· < ·) → tabGet 0 (t.getDie die).dropcnt c = 0 ∧
            ∀ y, y ≠ c → tabGet 0 (t.getDie die).dropcnt y = tabGet 0 (u.getDie die).dropcnt y)))

/-- The housekeeping hart: once its partition is locked it writes the registers and memory in it, and no other (R361), nor any
table that R360 keeps from it (DEDUCED, log 83); flash updates it only stages (R360; DESIGN CHOICE, log 60). ACCEPT_HIGH_WRITE and ACCEPT_COMMIT form the
accepted features. ATTREQ_GO and ATTESTATION_REPORT write a report. RCVREQ_GO stores ADDR; with GO set, which then reads 1, the
next of these events reads an image from the host and installs one that verifies; one of enrolment brings a new identity, from
which starts are counted (R355). -/
def trustWritesTakeEffect : Prop :=
  ∀ (s : State) (off pa : Nat) (w : Word) (image : Image) (bytes : List Byte) (i : Nat),
    takes s .registerWrite (.registerWrite .housekeeping (.device 0 off) w) (fun u t =>
      (¬inPlace u 0 ∨ u.package.locked = false → t = u) ∧
      (inPlace u 0 → u.package.locked = true → ∃ v, hartActed u v 0 ∧
        (let a := 0x300000000000 + off
         let inside := (∃ r ∈ u.package.ranges, r.1 ≤ a ∧ a + 8 ≤ r.1 + r.2) ∧ v.meetsTables a 8 = false
         (¬inside → t = { v with agenda := v.agenda ++ [Event.housekeepingRangeViolation a] }) ∧
         (inside → off = 0x400000 → t = { v with dies := tabSet v.dies 0 { v.getDie 0 with elbase := keeps w [(6, 63)] } }) ∧
         (inside → off = 0x400018 → t = { v with package := { v.package with errnote := keeps w [(16, 31), (0, 3)] } }) ∧
         (inside → 0x200000 ≤ off → off < 0x203000 → t = v)))) ∧
    takes s .registerWrite (.registerWrite .housekeeping (.memory pa bytes) w) (fun u t =>
      (¬inPlace u 0 ∨ u.package.locked = false → t = u) ∧
      (inPlace u 0 → u.package.locked = true → ∃ v, hartActed u v 0 ∧
        ((∀ r ∈ u.package.ranges, ¬(r.1 ≤ pa ∧ pa + bytes.length ≤ r.1 + r.2)) ∨ v.meetsTables pa bytes.length = true →
          t = { v with agenda := v.agenda ++ [Event.housekeepingRangeViolation pa] }))) ∧
    takes s .registerWrite (.registerWrite .housekeeping (.flash image) w) (fun u t =>
      inPlace u 0 → u.package.locked = true → ∃ v, hartActed u v 0 ∧
        t = { v with package := { v.package with flash := { v.package.flash with staged := v.package.flash.staged ++ [image] } } }) ∧
    takes s .acceptHighWrite (.acceptHighWrite w) (fun u t =>
      (u.package.bootState = 1 → u.package.committed = false → t = { u with package := { u.package with acceptHigh := w } }) ∧
      (u.package.bootState ≠ 1 ∨ u.package.committed = true → t = u)) ∧
    takes s .acceptCommit (.acceptCommit w) (fun u t =>
      let p := u.package
      (p.bootState ≠ 1 ∨ p.committed = true → t = u) ∧
      (p.bootState = 1 → p.committed = false →
        let asked := w.toNat + p.acceptHigh.toNat * 2 ^ 64
        let ver := asked % 256
        t.package.committed = true ∧ t.package.bootState = 2 ∧
        t.package.accepted % 256 = (if ver = 0 ∨ p.features % 256 < ver then p.features % 256 else ver) ∧
        (∀ j, 8 ≤ j → t.package.accepted.testBit j = (asked.testBit j && p.features.testBit j)) ∧
        (stepOf t.package.record 13).outcome = (if (stepOf p.record 13).params = 0 then 1 else 2) ∧
        { t with package := u.package } = u ∧
        t.package = { p with accepted := t.package.accepted, committed := true, bootState := 2, boot := t.package.boot })) ∧
    takes s .attreqGo (.attreqGo w) (fun u t =>
      let set := fun (x : Word) (es : List Event) => t = { u with package := { u.package with attreq := x }, agenda := u.agenda ++ es }
      (u.package.attreq.getLsbD 0 = true ∨ u.package.bootState = 3 → t = u) ∧
      (u.package.attreq.getLsbD 0 = false → u.package.bootState ≠ 3 →
        (w.getLsbD 0 = true → set (keeps w [(13, 63)] + 1) [Event.attestationReport]) ∧
        (w.getLsbD 0 = false → set (keeps w [(13, 63)] + keeps u.package.attreq [(1, 1)]) []))) ∧
    takes s .attestationReport .attestationReport (fun u t =>
      let p := u.package
      let addr := keeps p.attreq [(13, 63)]
      let pa := hostBytesAt addr.toNat
      (p.attreq.getLsbD 0 = false → t = u) ∧
      (p.attreq.getLsbD 0 = true → p.keysErased = true → t = { u with package := { p with attreq := addr } }) ∧
      (p.attreq.getLsbD 0 = true → p.keysErased = false → 0 ∈ p.hostDown → t = u) ∧
      (p.attreq.getLsbD 0 = true → p.keysErased = false → 0 ∉ p.hostDown → u.memOk → ∃ head : List Byte,
        head.length = 512 ∧
        bytesWritten u t pa (head ++ (List.range 4627).map (Config.signature (p.identityKey.getD []) head)) ∧
        (∀ j < 64, head.getD j 0 = memGet u.mem (pa + j)) ∧
        (∀ n < 4, ∀ j < 64, head.getD (64 + 64 * n + j) 0 =
          match imageOf p.flash (([.trusted, .config, .housekeeping, .supervisor] : List ImageKind).getD n .trusted) with
          | some i => (imageDigest i).getD j 0
          | none => 0) ∧
        (∀ j < 64, head.getD (320 + j) 0 = (sha3 p.record.bytes).getD j 0) ∧
        (∀ j < 64, head.getD (384 + j) 0 = (sha3 p.flash.publicKey).getD j 0) ∧
        (∀ j < 8, head.getD (448 + j) 0 = byteOf p.counterRead j) ∧
        (∀ j < 56, head.getD (456 + j) 0 = 0) ∧
        { t with mem := u.mem } = { u with package := { p with attreq := addr + 2 } })) ∧
    takes s .rcvreqGo (.rcvreqGo w) (fun u t =>
      let p := u.package
      let addr := keeps p.rcvreq [(13, 63)]
      let set := fun (go : Word) (es : List Event) =>
        t = { u with package := { p with rcvreq := keeps w [(13, 63)] + keeps p.rcvreq [(1, 1)] + go }, agenda := u.agenda ++ es }
      (p.bootState ≠ 3 ∨ 0 ∈ p.hostDown → t = u) ∧
      (p.bootState = 3 → 0 ∉ p.hostDown → p.rcvreq.getLsbD 0 = false →
        (w.getLsbD 0 = false → set 0 []) ∧ (w.getLsbD 0 = true → set 1 [Event.rcvreqGo (keeps w [(13, 63)])])) ∧
      (p.bootState = 3 → 0 ∉ p.hostDown → p.rcvreq.getLsbD 0 = true →
        ((∀ x, ¬goodImage u addr.toNat x) → t = { u with package := { p with rcvreq := addr + 2 } }) ∧
        (goodImage u addr.toNat image → i < 14 →
          (∃ r, t.agenda = [Event.startUp r]) ∧ t.package.halted = true ∧ t.issuing = false ∧ t.package.identityErased = false ∧
          imageOf t.package.flash image.kind = some image ∧ (∀ k, k ≠ image.kind → imageOf t.package.flash k = imageOf p.flash k) ∧
          (image.kind = .enrolment → (t.package.flash.wrapped, t.package.flash.publicKey, t.package.flash.certificate) =
            Config.enrol image.body) ∧
          (image.kind ≠ .enrolment → t.package.flash.wrapped = p.flash.wrapped ∧ t.package.flash.publicKey = p.flash.publicKey) ∧
          (stepOf t.package.record i).fails = 0 ∧ (stepOf t.package.record i).outcome ≠ 3 ∧ t.package.record.chansOut = [] ∧
          t.package.record.portsOut = [] ∧ t.package.record.shawmsOut = [] ∧
          t.package.record.starts = (if image.kind = .enrolment then 0 else p.record.starts) ∧
          u.sameMemory t ∧ ∀ n, t.getSlot n = u.getSlot n)))

/-- Registers, negotiation and trust, whole: as the two parts above say. -/
def Obligations.RegisterEventsTakeEffect : Prop := registerWritesTakeEffect ∧ trustWritesTakeEffect

/-- Where the next record of a die's ring goes. -/
def recordPlace (u : State) (die : Nat) : Nat :=
  let d := u.getDie die
  d.elbase.toNat / 2 ^ 6 % 2 ^ 46 * 64 + 64 * (d.eltail % 2 ^ (d.elbase.toNat / 2 ^ 52))

/-- A record is written to the ring of a die (R416, R417, R419): the ring is set up and not full, its next place is near memory of
the die, of no accumulator class, and no identical corrected record of this window stands in it. -/
def recordsOnce (u : State) (die : Nat) (r : LogRecord) : Prop :=
  let d := u.getDie die
  let cap := d.elbase.toNat / 2 ^ 52
  let a := recordPlace u die
  6 ≤ cap ∧ cap ≤ 16 ∧ (d.eltail + 2 ^ 32 - d.elhead) % 2 ^ 32 < 2 ^ cap ∧
    region u.pkg a = .near die ∧ (∃ kind, u.classify die a = .ok ⟨kind, a⟩ ∧ (kind = .coh ∨ kind = .hnc ∨ kind = .swm)) ∧
    (r.containment = 0 → ∀ x, x ∈ d.recent → ¬(x.1 = r ∧ x.2.1 = u.time.toNat / 10 ^ 6))

/-- The fields of a record in memory (R417). -/
def recordHolds (u t : State) (die : Nat) (r : LogRecord) : Prop :=
  let a := recordPlace u die
  memValue t a 8 = (u.getDie die).recSeq % 2 ^ 64 + 1 ∧ memValue t (a + 8) 8 = u.time.toNat ∧ memValue t (a + 16) 1 = r.cls ∧
  memValue t (a + 17) 1 = r.containment ∧ memValue t (a + 18) 2 = r.cause ∧ memValue t (a + 20) 1 = r.action ∧
  memValue t (a + 21) 1 = r.ctx.getD 0 ∧
  memValue t (a + 22) 1 = (if r.ctx.isSome then 1 else 0) + (match r.addr with | some (_, p) => if p then 6 else 2 | none => 0) ∧
  memValue t (a + 23) 1 = 0 ∧ memValue t (a + 24) 8 = r.location ∧ memValue t (a + 32) 8 = (r.addr.map fun x => x.1).getD 0 ∧
  memValue t (a + 40) 8 = r.detail ∧ memValue t (a + 48) 4 = 1 ∧ (∀ i < 12, memGet t.mem (a + 52 + i) = 0)

/-- That record stands behind TAIL, which advances, and `ERRSUM` counts it. -/
def recorded (u t : State) (die : Nat) (r : LogRecord) : Prop :=
  u.memOk → recordsOnce u die r → (u.getDie die).recSeq + 1 < 2 ^ 64 → r.location < 2 ^ 64 → r.detail < 2 ^ 64 →
    (r.addr.map fun x => x.1).getD 0 < 2 ^ 64 →
    let d := u.getDie die
    recordHolds u t die r ∧ (t.getDie die).eltail = (d.eltail + 1) % 2 ^ 32 ∧ (t.getDie die).recSeq = d.recSeq + 1 ∧
    t.package.errsum =
      (if r.containment = 2 then min (u.package.errsum.1 + 1) (2 ^ 16 - 1) else u.package.errsum.1,
       if r.containment = 3 then min (u.package.errsum.2.1 + 1) (2 ^ 16 - 1) else u.package.errsum.2.1,
       if r.containment = 4 then min (u.package.errsum.2.2 + 1) (2 ^ 16 - 1) else u.package.errsum.2.2) ∧
    (0 ∉ u.package.hostDown → t.package.msix = u.package.msix ++
      (let min := u.package.errnote.toNat % 16
       if min ≠ 0 ∧ min - 1 ≤ r.containment then [(0, u.package.errnote.toNat / 2 ^ 16 % 2 ^ 16)] else []))

/-- A unit's location (R417): its kind and index, the package, the die and the slot. -/
def placeOf (u : State) (kind index die slot : Nat) : Nat := kind * 2 ^ 56 + index * 2 ^ 40 + u.pkg * 2 ^ 20 + die * 2 ^ 15 + slot

/-- The image that a step verifies (R354). -/
def stepVerifies (k : Nat) : Option ImageKind :=
  match k with | 1 => some .trusted | 2 => some .config | 11 => some .housekeeping | 12 => some .supervisor | _ => none

/-- A mandatory step fails (R354, R358, R359): 0 to 5, 7, 11 and 12, by what the start finds or for want of an image that
verifies, and of step 10 Shawm 0 of die 0. -/
def breaks (r : StartReport) (f : Flash) (counter k : Nat) : Prop :=
  if k = 10 then 0 ∈ r.shawmsOut
  else k ≠ 6 ∧ k ≠ 8 ∧ k ≠ 9 ∧ (k ∈ r.failed ∨ ∃ kind, stepVerifies k = some kind ∧
    ∀ i, imageOf f kind = some i → ¬imageVerifies f counter i)

/-- An optional unit of a step fails (R354). -/
def skips (r : StartReport) (k : Nat) : Prop :=
  k = 6 ∧ r.chansOut ≠ [] ∨ k = 8 ∧ 8 ∈ r.failed ∨ k = 9 ∧ r.portsOut ≠ [] ∨ k = 10 ∧ r.shawmsOut ≠ []

/-- The entry of a step that has run (R355, R484, R485): a trainable step whose last outcome was 4 uses the next set. -/
def entryAfter (r : StartReport) (f : Flash) (counter k : Nat) (x y : StepEntry) : Prop :=
  y.params = (if 4 ≤ k ∧ k ≤ 9 ∧ x.outcome = 4 then min (x.params + 1) 2 else x.params) ∧
  (breaks r f counter k → y.outcome = 4 ∧ y.fails = min (x.fails + 1) 255) ∧
  (¬breaks r f counter k → y.fails = 0 ∧ (skips r k → y.outcome = 3) ∧ (¬skips r k → y.outcome = if y.params = 0 then 1 else 2))

/-- What every start leaves (R354, R472, R473): registers, queues and what was in flight as after reset, but for the current
shares and limits that it applies, scratchpads and the marker zeroed, the rest of memory as it was, fresh keys, and each staged
update that verifies in the place of the image of its kind. -/
def bareAfter (u t : State) : Prop :=
  (∀ n, t.getSlot n = Slot.reset) ∧ t.cores = [] ∧ t.ctxs = [] ∧ t.backoff = [] ∧ t.issuing = false ∧ t.caches = [] ∧
  t.homes = [] ∧ t.pages = [] ∧ t.mct = [] ∧ t.atHome = [] ∧ t.barriers = [] ∧ t.forwards = [] ∧ t.hco = [] ∧ t.time = 0 ∧ t.mctbase = 0 ∧ t.pkg = u.pkg ∧
  (∀ n, { t.getDie n with limit := 0, domains := [] } = Die.reset) ∧
  (∀ n i, { (t.getDie n).domain i with share := 0 } = Domain.reset) ∧
  (u.memOk → ∀ a, memGet t.mem a =
    if inScratch a = true ∨ (0xBFFE00000 ≤ a ∧ a < 0xBFFE00000 + 128) then 0 else memGet u.mem a) ∧
  t.package.key = u.freeCtr ∧ t.package.keysErased = false ∧ t.package.committed = false ∧ t.package.accepted = 0 ∧
  (let root := Config.pufRoot u.package.flash.helper
   t.package.pufRoot = some root ∧
   t.package.identityKey = if u.package.identityErased then none else some (Config.unwrap root u.package.flash.wrapped)) ∧
  t.package.counterRead = u.package.boardCounter ∧ t.package.flash.staged = [] ∧
  { t.package.flash with images := [], staged := [] } = { u.package.flash with images := [], staged := [] } ∧
  (let good := imageVerifies u.package.flash u.package.boardCounter
   (∀ kind, (∀ i ∈ u.package.flash.staged, i.kind = kind → ¬good i) → imageOf t.package.flash kind = imageOf u.package.flash kind) ∧
   (∀ before i after, u.package.flash.staged = before ++ i :: after → good i → (∀ j ∈ after, j.kind = i.kind → ¬good j) →
     imageOf t.package.flash i.kind = some i)) ∧
  (let none_ := ∀ i < 128, memGet u.mem (0xBFFE00000 + i) = 0
   let fits := u.package.record.valid = true ∧ (∀ i < 128, memGet u.mem (0xBFFE00000 + i) = (marker u.package.record).getD i 0)
   (none_ → t.package.ckptsts = 0) ∧ (¬none_ → fits → t.package.ckptsts = 1) ∧ (¬none_ → ¬fits → t.package.ckptsts = 2))

/-- Start and trust. START_UP takes the staged updates that verify, then runs the steps in order to the end, to a mandatory step
that fails or whose image does not verify, or in recovery mode; it locks the partition. PWRFAIL
logs, writes dirty bytes and the marker, and stops the package. SECURITY_ALARM logs, erases the keys at level 2 and the
identity too at level 3. HOUSEKEEPING_RANGE_VIOLATION logs an access outside the locked table, which gives the hart an access
fault (its registers: PRESUMED, log 77). What a start finds, and the STEP after a level 3 alarm, are open (log 5, 38, 39); that a
start is one event is the model's choice (log 38), as is the moment at which staged updates are taken (DESIGN CHOICE, log 60);
which features are offered is DEDUCED (log 35). -/
def Obligations.StartEventsTakeEffect : Prop :=
  ∀ (s : State) (r : StartReport) (k n a pa die : Nat) (b : Byte) (level : Fin 3),
    takes s .startUp (.startUp r) (fun u t =>
      let old := u.package.record
      let new := t.package.record
      let stuck := fun (j : Nat) => j < 14 ∧ 3 ≤ (stepOf old j).fails
      let flash := t.package.flash
      let counter := u.package.boardCounter
      let breaks := breaks r flash counter
      let applied := ∀ n < 24, (t.getDie n).limit = Config.currentLimit (configOf flash) n ∧
        ∀ i < 36, ((t.getDie n).domain i).share = Config.share (configOf flash) n i
      bareAfter u t ∧
      ((∀ j, ¬stuck j) → u.package.identityErased = false →
        new.starts = old.starts + 1 ∧ new.nonce = u.freeCtr ∧
        ((∀ j < 13, ¬breaks j) →
          t.package.bootState = 1 ∧ t.package.bootStep = 13 ∧ t.package.halted = false ∧ t.agenda = [] ∧ applied ∧
          t.package.locked = true ∧ t.package.ranges = (Config.partition (configOf flash)).take 16 ∧
          counter ≤ t.package.boardCounter ∧
          (∀ b, counter ≤ b → (∀ kind, (∃ j, stepVerifies j = some kind) → ∀ i, imageOf flash kind = some i → i.version ≤ b) →
            t.package.boardCounter ≤ b) ∧
          t.package.hostDown = (if 8 ∈ r.failed then [1] else []) ∧
          t.package.features % 256 = 1 ∧ (∀ j, 8 ≤ j → (t.package.features.testBit j = true ↔
            j = 9 ∨ j = 10 ∨ j = 11 ∧ 8 ∉ r.failed ∨ j = 12 ∧ (∃ p < 128, p ∉ new.portsOut) ∨ j = 13 ∨ j = 14 ∨ j = 15)) ∧
          (∀ j < 13, entryAfter r flash counter j (stepOf old j) (stepOf new j)) ∧ stepOf new 13 = stepOf old 13 ∧
          (∀ x, x ∈ new.chansOut ↔ x ∈ old.chansOut ∨ x ∈ r.chansOut) ∧ (∀ x, x ∈ new.portsOut ↔ x ∈ old.portsOut ∨ x ∈ r.portsOut) ∧
          (∀ x, x ∈ new.shawmsOut ↔ x ∈ old.shawmsOut ∨ x ∈ r.shawmsOut)) ∧
        (k < 13 → breaks k → (∀ j < k, ¬breaks j) →
          t.package.bootStep = k ∧ t.package.halted = true ∧ (∃ x, t.agenda = [Event.startUp x]) ∧
          (∀ j ≤ k, entryAfter r flash counter j (stepOf old j) (stepOf new j)) ∧ (∀ j, k < j → j < 14 → stepOf new j = stepOf old j))) ∧
      (stuck k → (∀ j < k, ¬stuck j) →
        t.package.bootState = 3 ∧ t.package.bootStep = k ∧ t.agenda = [] ∧ t.package.halted = false ∧ applied ∧
        (0 ∉ t.package.hostDown ↔ ∀ j, j < 4 ∨ j = 7 → ¬breaks j) ∧
        ((∀ j, j < 4 ∨ j = 7 → ¬breaks j) → (stepOf new 7).params = 2 ∧ ∀ j < 14, 3 < j → j ≠ 7 → stepOf new j = stepOf old j)) ∧
      ((∀ j, ¬stuck j) → u.package.identityErased = true →
        t.package.bootState = 3 ∧ t.package.bootStep < 16 ∧ t.agenda = [] ∧ t.package.identityErased = true)) ∧
    takes s .pwrfail .pwrfail (fun u t =>
      t.package.halted = true ∧ t.agenda = [] ∧ t.backoff = [] ∧ t.issuing = false ∧ (∀ n, t.getSlot n = u.getSlot n) ∧
      (∀ n, (t.getCore n).l1 = []) ∧ (∀ n, (t.getDie n).l2 = []) ∧ (∀ x : Nat × AccState, x ∈ t.acc → x.2.resident = false) ∧
      t.package.boot = u.package.boot ∧
      (u.memOk → ∀ i < 128, memGet t.mem (0xBFFE00000 + i) = (marker u.package.record).getD i 0) ∧
      (u.memOk → (u.getDie 0).elbase = 0 → ¬(0xBFFE00000 ≤ a ∧ a < 0xBFFE00000 + 128) →
        (u.cores.map fun x => x.1).Pairwise (· < ·) → (u.dies.map fun x => x.1).Pairwise (· < ·) →
        (∀ x ∈ u.cores, (x.2.l1.map fun (z : Host.Cell) => z.1).Pairwise (· < ·)) →
        (∀ x ∈ u.dies, (x.2.l2.map fun (z : Host.Cell) => z.1).Pairwise (· < ·)) →
        ((∀ m, tabHas (u.getCore m).l1 a = false) → (∀ m, tabHas (u.getDie m).l2 a = false) → memGet t.mem a = memGet u.mem a) ∧
        (n < 24 * 256 → ((∃ m, region u.pkg a = .near m) ∨ region u.pkg a = .far) →
          (u.getCore n).l1.find? (fun z => z.1 == a) = some (a, b) → (∀ m, m ≠ n → tabHas (u.getCore m).l1 a = false) →
          (∀ m, tabHas (u.getDie m).l2 a = false) → memGet t.mem a = b))) ∧
    takes s .securityAlarm (.securityAlarm die level) (fun u t =>
      let now := u.time.toNat
      let late := (u.package.alarms.filter fun x => decide (now < x + 10 ^ 9)).length
      let erases := level = 0 ∧ 3 ≤ late ∨ level = 1 ∨ level = 2
      (erases → t.package.keysErased = true ∧ t.package.pufRoot = none ∧ t.package.identityKey = none ∧ ∀ n, (t.getDie n).macs = Vector.replicate 4 []) ∧
      (¬erases → t.package.keysErased = u.package.keysErased ∧ (∀ n, (t.getDie n).macs = (u.getDie n).macs) ∧
        t.package.alarms = now :: u.package.alarms.filter fun x => decide (now < x + 10 ^ 9)) ∧
      t.package.identityErased = (if level = 2 then true else u.package.identityErased) ∧
      t.package.flash.wrapped = (if level = 2 then [] else u.package.flash.wrapped) ∧
      (∀ n, t.getSlot n = u.getSlot n) ∧ t.cores = u.cores ∧ t.ctxs = u.ctxs ∧ t.agenda = u.agenda ∧
      (level ≠ 0 ∨ late < 3 → recorded u t die
        ⟨6, if level = 0 then 0 else if level = 1 then 3 else 4, level.val + 1, 0, none, none, placeOf u 10 0 die 0, die⟩)) ∧
    takes s .housekeepingRangeViolation (.housekeepingRangeViolation pa) (fun u t =>
      let inside := (∃ r ∈ u.package.ranges, r.1 ≤ pa ∧ pa + 1 ≤ r.1 + r.2) ∧ u.meetsTables pa 1 = false
      let x := (u.getDie 0).shawms[0]
      let y := (t.getDie 0).shawms[0]
      (u.package.locked = false ∨ inside → t = u) ∧
      (u.package.locked = true → ¬inside →
        (y.x, y.f, y.v) = (x.x, x.f, x.v) ∧ y.pc = word ((tabGet 0 x.csr 0x305).toNat / 4 * 4) ∧ tabGet 0 y.csr 0x341 = x.pc ∧
        (tabGet 0 y.csr 0x342 = 5 ∨ tabGet 0 y.csr 0x342 = 7) ∧
        (∀ n, n ≠ 0x341 → n ≠ 0x342 → n ≠ 0x343 → tabGet 0 y.csr n = tabGet 0 x.csr n) ∧
        ∀ i : Fin 4, i ≠ 0 → (t.getDie 0).shawms[i.val] = (u.getDie 0).shawms[i.val]) ∧
      (u.package.locked = true → ¬inside → recorded u t 0 ⟨6, 1, 4, 0, none, some (pa, true), placeOf u 9 0 0 0, pa⟩ ∧
        (∀ n, t.getSlot n = u.getSlot n) ∧ t.cores = u.cores ∧ t.ctxs = u.ctxs ∧ t.agenda = u.agenda))

/-! ## Errors found (R443 to R445, R457, R458) -/

/-- The holders of a line whose directory entry is lost: agents of its home die, and the proxies of other dies (R160, R445). -/
def lineHolders (u : State) (line : Nat) : List (Nat × CState) :=
  u.caches.filter fun c => c.1 / 8192 == line &&
    (if c.1 % 256 = 255 then decide (c.1 % 8192 / 256 ≠ u.lineHome line) else decide (c.1 % 8192 / 256 = u.lineHome line))

/-- What the home asks of such a holder: its data, or to give its copy up. -/
def askedOf (u : State) (line : Nat) (c : Nat × CState) : Event :=
  if c.2 = .e ∨ c.2 = .m then .fwdGetm line (c.1 % 8192) (dirAgent (u.lineHome line))
  else .inv line (c.1 % 8192) (dirAgent (u.lineHome line))

/-- No copy of a line is on its way to another state, and its home waits for no answer about it. -/
def lineAtRest (u : State) (line : Nat) : Prop :=
  (∀ c : Nat × CState, c ∈ u.caches → c.1 / 8192 = line → c.2 = .s ∨ c.2 = .e ∨ c.2 = .m) ∧
  (∀ l, u.hst line (u.lineHome line) ≠ some (.sd l)) ∧ ∀ n, u.hst line (u.lineHome line) ≠ some (.rc n)

/-- The record of a recovery, in the log of the die of the line's home slice (R107, R445). -/
def recovered (u t : State) (pa : Nat) : Prop :=
  recorded u t (u.lineHome pa)
    ⟨1, 0, 4, 2, none, some (pa, true), placeOf u 1 ((pa / 128 ^^^ pa / 4096) % 32) (u.lineHome pa) 0, pa⟩

/-- An error event: what it does to memory's poison, to TLBs, to the directory and to owner fields, each with its record.
PATROL_SCRUB corrects, or poisons the ECC word; of a clean line of a cache neither, which is invalidated and fetched again: that
it is logged as corrected is the model's reading (DEDUCED, log 72). SHOOTDOWN_TIMEOUT, while a `TLBINV` is outstanding, resets the
TLBs of a core or load pipe, or resets a Shawm hart and takes it out of service. DIRECTORY_ENTRY_ERROR asks every holder to give the line up, and with no entry to lose, of a private page, only
logs. OWNER_FIELD_ERROR recalls every copy of a page until none is left; it is then shared, and its claimants are told. That
each waits until no change of a line is under way is the model's reading of a recall (log 32). -/
def Obligations.ErrorEventsTakeEffect : Prop :=
  ∀ (s : State) (pa d agent line pte : Nat) (error : Fin 3) (p : Page),
    takes s .patrolScrub (.patrolScrub (.l1 agent) pa error) (fun u t =>
      let l := pa / 128 * 128
      let dirty := ∃ x ∈ (u.getCore agent).l1, l ≤ x.1 ∧ x.1 < l + 128
      let corrected := recorded u t (agent / 256)
        ⟨1, 0, 1, 1, none, some (pa, true), placeOf u 0 (agent % 256) (agent / 256) 0, pa⟩
      tabHas (u.getCore agent).l1c l = true →
        (error = 0 → t = u) ∧ (error = 1 → corrected ∧ t.cores = u.cores) ∧
        (error = 2 → dirty → (∀ w, w ∈ (t.getCore agent).l1p ↔ w ∈ (u.getCore agent).l1p ∨ w = pa / 8) ∧
          recorded u t (agent / 256) ⟨1, 1, 2, 0, none, some (pa, true), placeOf u 0 (agent % 256) (agent / 256) 0, pa⟩) ∧
        (error = 2 → ¬dirty → (t.getCore agent).l1c = tabErase (u.getCore agent).l1c l ∧ corrected) ∧
        t.poison = u.poison ∧ (∀ n, t.getSlot n = u.getSlot n) ∧ t.ctxs = u.ctxs ∧ t.agenda = u.agenda) ∧
    takes s .patrolScrub (.patrolScrub (.l1 agent) pa error) (fun u t =>
      let l := pa / 128 * 128
      let at_ := placeOf u 0 (agent % 256) (agent / 256) 0
      let corrected := recorded u t (agent / 256) ⟨1, 0, 1, 1, none, some (pa, true), at_, pa⟩
      tabHas (u.getCore agent).l1c l = false →
        (error = 0 ∨ (u.cst l agent ≠ some .m ∧ u.cst l agent ≠ some .s ∧ u.cst l agent ≠ some .e) → t = u) ∧
        (error = 1 → (u.cst l agent = some .m ∨ u.cst l agent = some .s ∨ u.cst l agent = some .e) → corrected ∧
          t.caches = u.caches ∧ t.agenda = u.agenda ∧ t.poison = u.poison) ∧
        (error = 2 → u.cst l agent = some .m → (∀ w, w ∈ t.poison ↔ w ∈ u.poison ∨ w = pa / 8) ∧ t.caches = u.caches ∧
          t.agenda = u.agenda ∧ recorded u t (agent / 256) ⟨1, 1, 2, 0, none, some (pa, true), at_, pa⟩) ∧
        (error = 2 → u.cst l agent = some .s ∨ u.cst l agent = some .e →
          corrected ∧ t.caches = (u.evictLine l agent).caches ∧ t.agenda = (u.evictLine l agent).agenda)) ∧
    takes s .patrolScrub (.patrolScrub (.code agent) pa error) (fun u t =>
      let l := pa / 128 * 128
      let x := u.getCore agent
      let corrected := recorded u t (agent / 256)
        ⟨1, 0, 1, 1, none, some (pa, true), placeOf u 0 (agent % 256) (agent / 256) 0, pa⟩
      (error = 0 ∨ (∀ y ∈ x.icache, y.1 ≠ l) → t = u) ∧
      ((∃ y ∈ x.icache, y.1 = l) →
        (error = 1 → corrected ∧ t.cores = u.cores) ∧
        (error = 2 → corrected ∧ (∀ y, y ∈ (t.getCore agent).icache ↔ y ∈ x.icache ∧ y.1 ≠ l)) ∧
        t.agenda = u.agenda ∧ t.caches = u.caches)) ∧
    takes s .patrolScrub (.patrolScrub (.l2 d) pa error) (fun u t =>
      let l := pa / 128 * 128
      let x := u.getDie d
      let dirty := ∃ y ∈ x.l2, l ≤ y.1 ∧ y.1 < l + 128
      let at_ := placeOf u 1 ((pa / 128 ^^^ pa / 4096) % 32) d 0
      let corrected := recorded u t d ⟨1, 0, 1, 1, none, some (pa, true), at_, pa⟩
      let poisoned := recorded u t d ⟨1, 1, 2, 0, none, some (pa, true), at_, pa⟩
      (tabHas x.l2c l = true →
        (error = 0 → t = u) ∧ (error = 1 → corrected ∧ (t.getDie d).l2c = x.l2c ∧ (t.getDie d).l2p = x.l2p) ∧
        (error = 2 → dirty → (∀ w, w ∈ (t.getDie d).l2p ↔ w ∈ x.l2p ∨ w = pa / 8) ∧ poisoned) ∧
        (error = 2 → ¬dirty → (t.getDie d).l2c = tabErase x.l2c l ∧ corrected)) ∧
      (tabHas x.l2c l = false → ¬dirty → error = 2 →
        (∀ y, u.acc.find? (fun z => z.1 == l) = some (l, y) → y.resident = true → d = homeDie l →
          (∀ w, w ∈ t.poison ↔ w ∈ u.poison ∨ w = pa / 8) ∧ poisoned) ∧
        (tabHas u.acc l = false → u.cst l (proxyAgent d) = some .m →
          (∀ w, w ∈ t.poison ↔ w ∈ u.poison ∨ w = pa / 8) ∧ poisoned) ∧
        (tabHas u.acc l = false → u.cst l (proxyAgent d) = some .s ∨ u.cst l (proxyAgent d) = some .e →
          t.poison = u.poison ∧ corrected)) ∧
      t.agenda = u.agenda ∧ t.caches = u.caches ∧ t.cores = u.cores ∧ t.ctxs = u.ctxs ∧ ∀ n, t.getSlot n = u.getSlot n) ∧
    takes s .patrolScrub (.patrolScrub .store pa error) (fun u t =>
      region u.pkg pa = .near d →
        (error = 0 → t = u) ∧
        (error = 1 → t.poison = u.poison ∧ recorded u t d ⟨1, 0, 1, 1, none, some (pa, true), placeOf u 11 0 d 0, pa⟩) ∧
        (error = 2 → (∀ w, w ∈ t.poison ↔ w ∈ u.poison ∨ w = pa / 8) ∧
          recorded u t d ⟨1, 1, 2, 0, none, some (pa, true), placeOf u 11 0 d 0, pa⟩) ∧
        (∀ n, t.getSlot n = u.getSlot n) ∧ t.cores = u.cores ∧ t.ctxs = u.ctxs ∧ t.agenda = u.agenda) ∧
    takes s .shootdownTimeout (.shootdownTimeout agent) (fun u t =>
      let n := agent % 256
      let die := agent / 256
      let unit := n < 132 ∨ 168 ≤ n ∧ n < 172
      (u.shootingDown = false → t = u) ∧
      (u.shootingDown = true → unit →
        t.cores = tabSet u.cores agent { u.getCore agent with tlb := [] } ∧
        recorded u t die ⟨1, 3, 7, 6, none, none, placeOf u (if n < 132 then 0 else 3) (if n < 132 then n else n - 168) die 0, agent⟩) ∧
      (u.shootingDown = true → 132 ≤ n ∧ n < 136 →
        t.cores = tabSet u.cores agent { u.getCore agent with tlb := [] } ∧
        (∀ i : Fin 4, (t.getDie die).shawms[i.val] =
          if i.val = n - 132 then ⟨Vector.replicate 32 0, Vector.replicate 32 0, Vector.replicate 32 0, [], 0⟩
          else (u.getDie die).shawms[i.val]) ∧
        (∀ h, h ∈ t.package.shawmsReset ↔ h ∈ u.package.shawmsReset ∨ h = 4 * die + (n - 132)) ∧
        recorded u t die ⟨1, 3, 7, 6, none, none, placeOf u 9 (n - 132) die 0, agent⟩) ∧
      (¬n < 136 → ¬(168 ≤ n ∧ n < 172) → t = u) ∧
      (∀ k, t.getSlot k = u.getSlot k) ∧ t.ctxs = u.ctxs ∧ t.agenda = u.agenda) ∧
    takes s .directoryEntryError (.directoryEntryError line) (fun u t =>
      let l := line / 128 * 128
      let ask := lineHolders u l
      (u.privateOwner l ≠ none → recovered u t l ∧ t.homes = u.homes ∧ t.agenda = u.agenda) ∧
      (u.privateOwner l = none → ¬lineAtRest u l → t = { u with agenda := u.agenda ++ [Event.directoryEntryError line] }) ∧
      (u.privateOwner l = none → lineAtRest u l →
        recovered u t l ∧ t.agenda = u.agenda ++ ask.map (askedOf u l) ∧
        (ask = [] → t.homes = tabErase u.homes (l * 32 + u.lineHome l)) ∧
        (ask ≠ [] → t.homes = tabSet u.homes (l * 32 + u.lineHome l) (.rc ask.length))) ∧
      t.caches = u.caches ∧ t.pages = u.pages ∧ t.cores = u.cores ∧ t.ctxs = u.ctxs ∧ ∀ k, t.getSlot k = u.getSlot k) ∧
    takes s .ownerFieldError (.ownerFieldError pte) (fun u t =>
      (u.pages.find? (fun x => x.1 == pte) = none → t = u) ∧
      (u.pages.find? (fun x => x.1 == pte) = some (pte, p) → u.pageHeld p.leaf = false →
        t.pages = tabSet u.pages pte { p with owner := .shared, recalling := false, evicting := false, waiting := [] } ∧
        t.caches = u.caches ∧ t.agenda = u.agenda ∧ recovered u t p.leaf.pa ∧ ∀ a ∈ p.waiting, a % 256 ≠ 136 → marked t a pte false) ∧
      (u.pages.find? (fun x => x.1 == pte) = some (pte, p) → u.pageHeld p.leaf = true →
        let v := { u with pages := tabSet u.pages pte { p with recalling := true } }
        { t with agenda := u.agenda, homes := u.homes } = v ∧ Event.ownerFieldError pte ∈ t.agenda ∧
        (∀ line ∈ u.pageLines p.leaf, ∀ o, v.privateOwner line = some o → v.cst line o = some .e ∨ v.cst line o = some .m →
          Event.fwdGetm line o (dirAgent (u.lineHome line)) ∈ t.agenda) ∧
        (∀ line ∈ u.pageLines p.leaf, v.privateOwner line = none → ∀ o, u.hst line (u.lineHome line) = some (.o o) →
          Event.fwdGetm line o (dirAgent (u.lineHome line)) ∈ t.agenda) ∧
        (∀ line ∈ u.pageLines p.leaf, v.privateOwner line = none → ∀ l, u.hst line (u.lineHome line) = some (.s l) → ∀ c ∈ l,
          Event.inv line c (dirAgent (u.lineHome line)) ∈ t.agenda)) ∧
      (∀ k, t.getSlot k = u.getSlot k) ∧ t.ctxs = u.ctxs)

/-! ## Links and ports (R476 to R481) -/

/-- The state of a boundary: full width with no failed replay where nothing else is recorded. -/
def boundaryOfNumber (u : State) (b : Nat) : Boundary := tabGet ⟨.full, 0, []⟩ u.package.boundaries b

/-- Two dies share a boundary (R13, R476): neighbours in a row of six, or in a column; its number is the model's (log 40). -/
def shareBoundary (a b n : Nat) : Prop :=
  a < 24 ∧ b < 24 ∧ (a / 6 = b / 6 ∧ (b = a + 1 ∨ a = b + 1) ∧ n = 2 * min a b ∨ (b = a + 6 ∨ a = b + 6) ∧ n = 2 * min a b + 1)

/-- The executing slot, `k`, waits on an `LDW` that reaches a place: its next bundle is that word, and nothing else keeps
it from issuing. -/
def waitsOnLoad (v : State) (k : Nat) (d a : GReg) (o : BitVec 14) (p : Phys) : Prop :=
  v.hotId = k ∧ v.hot.blocked = false ∧ v.hot.wait = none ∧ v.hot.shipping = false ∧ (∀ t : Fin 8, v.hot.window[t.val] = none) ∧
  (∃ lone, v.prepare.2 = .ok (.one (.ldw d a o) lone) ∧ v.hot.spdOver (.one (.ldw d a o) lone) = false) ∧
  v.waits (.ldw d a o) = false ∧ (v.translate v.me (v.g a + o.signExtend 64) AccOp.load.need).2 = .ok p

/-- A failed request of the waiting word of slot `k` at the host raises its cause precisely (R479): the port reports it through
AER, and its die logs it; the word of an HCO line that came back poisoned is marked (R444); the slot takes the cause, or starts on
the fault path, with the number of the record. -/
def failsPrecisely (u t : State) (k : Nat) (host : Fin 2) (va : Word) (mark : Option Nat) (c : Cause) (detail : Nat)
    (value : Word) : Prop :=
  let die := if host = 0 then 0 else 23
  let v1 := State.logRecord { u with package := { u.package with aer := u.package.aer ++ [(host.val, false)] } } die
    ⟨5, 1, 2, 3, none, none, placeOf u 8 host.val die 0, va.toNat⟩
  let record := if (v1.getDie die).recSeq = (u.getDie die).recSeq then 0 else (v1.getDie die).recSeq
  let v2 := match mark with
    | some w => if w ∈ v1.poison then v1 else { v1 with poison := v1.poison ++ [w] }
    | none => v1
  let v := v2.focus k
  t = v.deliver v.hotId ⟨c.code, detail, false, value, v.hot.pc, record⟩

/-- Links. FLIT_CRC_ERROR and FABRIC_CRC_ERROR count failed replays. BOUNDARY_RETRAIN, after 8 in a row, uses the spare lane,
then half width, then isolates the boundary, and a die cut off stops the package. FABRIC_PORT_DISABLE makes dead the contexts
whose traffic is lost; a port that is absent from the mask does neither (R355). HOST_REQUEST_FAILURE and HOST_COMPLETION_TIMEOUT
raise the cause at the waiting word, with the number of the record. HCO_FALLBACK and HOST_LINK_DOWN drop every copy of the window;
in place of a dirty line that is lost stand free bytes (log 43). An error that the link of a host port corrects is reported and
logged alone; that it comes as HCO_FALLBACK is the model's (DESIGN CHOICE, log 87). -/
def Obligations.LinkEventsTakeEffect : Prop :=
  ∀ (s : State) (b group port k gen c : Nat) (again works poison correctable : Bool) (lost : List Nat) (host : Fin 2) (va : Word)
    (d a : GReg) (o : BitVec 14) (p : Phys),
    takes s .flitCrcError (.flitCrcError b again) (fun u t =>
      let x := boundaryOfNumber u b
      (x.width = .isolated ∨ (∀ e f, ¬shareBoundary e f b) → t = u) ∧
      (x.width ≠ .isolated → (∃ e f, shareBoundary e f b) →
        t.package.boundaries = tabSet u.package.boundaries b { x with replays := if again then min (x.replays + 1) 8 else 0 } ∧
        recorded u t (b / 2) ⟨4, 0, 1, 2, none, none, placeOf u 5 b (b / 2) 0, b⟩ ∧ (∀ n, t.getSlot n = u.getSlot n) ∧
        t.cores = u.cores ∧ t.ctxs = u.ctxs ∧ t.agenda = u.agenda)) ∧
    takes s .boundaryRetrain (.boundaryRetrain b group works) (fun u t =>
      let x := boundaryOfNumber u b
      let y := boundaryOfNumber t b
      let cut := ∃ e < 24, ∀ f n, shareBoundary e f n → (boundaryOfNumber t n).width = .isolated
      (x.width = .isolated ∨ x.replays < 8 → t = u) ∧
      ((∃ e f, shareBoundary e f b) → x.width ≠ .isolated → 8 ≤ x.replays →
        y.replays = 0 ∧ (∀ n, n ≠ b → boundaryOfNumber t n = boundaryOfNumber u n) ∧
        (group ∉ x.spares → y.spares = group :: x.spares ∧ y.width = (if x.width = .full then .spared else x.width)) ∧
        (group ∈ x.spares → y.spares = x.spares ∧ y.width = if works then .half else .isolated) ∧
        (y.width ≠ .isolated → recorded u t (b / 2) ⟨4, 0, 2, 5, none, none, placeOf u 5 b (b / 2) 0, b⟩ ∧ t.agenda = u.agenda ∧
          t.ctxs = u.ctxs ∧ t.cores = u.cores ∧ (∀ n, t.getSlot n = u.getSlot n)) ∧
        (y.width = .isolated → ¬cut → recorded u t (b / 2) ⟨4, 3, 3, 6, none, none, placeOf u 5 b (b / 2) 0, b⟩ ∧
          t.agenda = u.agenda ∧ t.ctxs = u.ctxs ∧ t.package.halted = u.package.halted ∧ ∀ n, t.getSlot n = u.getSlot n) ∧
        (y.width = .isolated → cut → t.package.halted = true ∧ t.agenda = [] ∧ t.issuing = false ∧ ∀ n, (t.getCtx n).live = false))) ∧
    takes s .fabricCrcError (.fabricCrcError port again) (fun u t =>
      (128 ≤ port ∨ port ∈ u.package.portsOff ∨ port ∈ u.package.record.portsOut → t = u) ∧
      (port < 128 → port ∉ u.package.portsOff → port ∉ u.package.record.portsOut →
        t.package.replays = tabSet u.package.replays port (if again then min (tabGet 0 u.package.replays port + 1) 8 else 0) ∧
        recorded u t (portDie port) ⟨4, 0, 1, 2, none, none, placeOf u 7 port (portDie port) 0, port⟩ ∧
        (∀ n, t.getSlot n = u.getSlot n) ∧ t.cores = u.cores ∧ t.ctxs = u.ctxs ∧ t.agenda = u.agenda)) ∧
    takes s .fabricPortDisable (.fabricPortDisable port lost []) (fun u t =>
      let fails := port < 128 ∧ 8 ≤ tabGet 0 u.package.replays port ∧ port ∉ u.package.portsOff ∧ port ∉ u.package.record.portsOut
      let v := u.logRecord (portDie port) ⟨4, 3, 5, 6, none, none, placeOf u 7 port (portDie port) 0, port⟩
      (¬fails → t = u) ∧
      (fails → t.package.portsOff = u.package.portsOff ++ [port] ∧
        (c ∈ lost → (u.getCtx c).live = true → (∃ n < 64, v.route c n = .open port) → (t.getCtx c).live = false) ∧
        ((c ∉ lost ∨ ∀ n < 64, v.route c n ≠ .open port) → (t.getCtx c).live = (u.getCtx c).live) ∧
        (lost = [] → recorded u t (portDie port) ⟨4, 3, 5, 6, none, none, placeOf u 7 port (portDie port) 0, port⟩))) ∧
    (let outstanding := fun (u : State) =>
      waitsOnLoad (u.focus k) k d a o p ∧ va = (u.focus k).g a + o.signExtend 64 ∧ va.toNat % 4 = 0 ∧
      hostPort u.pkg p.pa = some host.val ∧ (p.kind = .hnc ∨ p.kind = .hco ∧ tabHas u.hco (p.pa / 128 * 128) = false) ∧
      ∀ j, (u.focus k).fetchAt (u.atHost j) va = none
    takes s .hostRequestFailure (.hostRequestFailure k gen poison va) (fun u t =>
      ((u.getSlot k).gen ≠ gen → t = u) ∧
      ((u.getSlot k).gen = gen → outstanding u →
        (poison = false → failsPrecisely u t k host va none .access 7 va) ∧
        (poison = true → failsPrecisely u t k host va (if p.kind = .hco then some (p.pa / 8) else none) .poison 1
          (word (va.toNat / 8 * 8))))) ∧
    takes s .hostCompletionTimeout (.hostCompletionTimeout k gen va) (fun u t =>
      ((u.getSlot k).gen ≠ gen → t = u) ∧
      ((u.getSlot k).gen = gen → outstanding u → failsPrecisely u t k host va none .timeout 1 va))) ∧
    takes s .hcoFallback (.hcoFallback host lost correctable) (fun u t =>
      let die := if host = 0 then 0 else 23
      let mine := fun (l : Nat) => hostPort u.pkg l = some host.val
      (correctable = true → host.val ∈ u.package.hostDown → t = u) ∧
      (correctable = true → host.val ∉ u.package.hostDown → t = State.logRecord
        { u with package := { u.package with aer := u.package.aer ++ [(host.val, true)] } } die
        ⟨5, 0, 1, 1, none, none, placeOf u 8 host.val die 0, host.val⟩) ∧
      (correctable = false → host.val ∈ u.package.fallback → t = u) ∧
      (correctable = false → host.val ∉ u.package.fallback →
        t.package.fallback = u.package.fallback ++ [host.val] ∧
        (∀ x, x ∈ t.caches ↔ x ∈ u.caches ∧ ¬mine (x.1 / 8192)) ∧ (∀ x, x ∈ t.homes ↔ x ∈ u.homes ∧ ¬mine (x.1 / 32)) ∧
        (∀ x, x ∈ t.waiters ↔ x ∈ u.waiters ∧ ¬mine x.line) ∧ (∀ x, x ∈ t.hco ↔ x ∈ u.hco ∧ ¬mine x.1) ∧
        (∀ n, t.getSlot n = u.getSlot n) ∧ t.cores = u.cores ∧ t.ctxs = u.ctxs ∧ t.agenda = u.agenda ∧
        ((∀ x : Nat × CState, x ∈ u.caches → x.2 = .m → mine (x.1 / 8192) → x.1 / 8192 ∉ lost) →
          t.freeCtr = u.freeCtr ∧ recorded u t die ⟨5, 3, 3, 0, none, none, placeOf u 8 host.val die 0, host.val⟩))) ∧
    takes s .hostLinkDown (.hostLinkDown host []) (fun u t =>
      let die := if host = 0 then 0 else 23
      let mine := fun (l : Nat) => hostPort u.pkg l = some host.val
      (host.val ∈ u.package.hostDown → t = u) ∧
      (host.val ∉ u.package.hostDown →
        t.package.hostDown = u.package.hostDown ++ [host.val] ∧
        (∀ x, x ∈ t.caches ↔ x ∈ u.caches ∧ ¬mine (x.1 / 8192)) ∧ (∀ x, x ∈ t.homes ↔ x ∈ u.homes ∧ ¬mine (x.1 / 32)) ∧
        (∀ x, x ∈ t.waiters ↔ x ∈ u.waiters ∧ ¬mine x.line) ∧ (∀ x, x ∈ t.hco ↔ x ∈ u.hco ∧ ¬mine x.1) ∧
        (∀ n, t.getSlot n = u.getSlot n) ∧ t.cores = u.cores ∧ t.ctxs = u.ctxs ∧ t.agenda = u.agenda ∧
        ((∀ x : Nat × CState, x ∈ u.caches → x.2 = .m → ¬mine (x.1 / 8192)) →
          t.freeCtr = u.freeCtr ∧
          recorded { u with package := { u.package with hostDown := u.package.hostDown ++ [host.val] } } t die
            ⟨5, 4, 4, 6, none, none, placeOf u 8 host.val die 0, host.val⟩)))

/-! ## Encoding (R163 to R170, R187, R188) -/

/-- Decode and encode agree: every well-formed word reads back as its instruction with every operand, in a pair and alone,
and every word that reads as an instruction is the word of that instruction. -/
def Obligations.DecodeAndEncodeAgree : Prop :=
  (∀ (i : Instr) (lone : Bool), i.wf = true → ∃ w, encode i = some w ∧ w < 2 ^ 32 ∧ w / 2 ^ 30 % 2 = 0 ∧
    decodeWord (w + lone.toNat * 2 ^ 30) = .ok i) ∧
  (∀ (w : Nat) (i : Instr), w < 2 ^ 32 → decodeWord w = .ok i → encode i = some (w - w / 2 ^ 30 % 2 * 2 ^ 30))

/-- Words written out from the encoding tables read as the instructions they stand for, one of several families. -/
def Obligations.WordsReadAsWritten : Prop :=
  readsAs (0x80000000 + 25 * 2 ^ 19 + 3 * 2 ^ 14 + 20 * 2 ^ 9) (.add (.g 25) (.g 3) 20) ∧
  readsAs (0x06000000 + 9 * 2 ^ 19 + 3 * 2 ^ 14 + 16) (.ldd 9 3 16) ∧
  readsAs (0x21000000 + 22 * 2 ^ 19 + 23 * 2 ^ 14 + 0x3FFE) (.bne 22 23 (BitVec.ofInt 14 (-2))) ∧
  readsAs (0x3B000000 + 1) (.ebreak 0) ∧ readsAs (0x3B000000 + 2) .tret ∧
  readsAs (0x3A000000 + 5 * 2 ^ 19 + 16) (.csrr 5 16)

/-! ## A step (R163 to R167, R335) -/

/-- The four bytes of a word at an address (R106): in code bounds, translated for fetch to coherent memory of a page that the core
may use (R153), and found in the instruction cache of the core; or else in memory, whose line the cache takes; not poisoned (R444).
`v` is the state after the fetch. -/
def fetchable (u v : State) (va : Word) (w : Nat) : Prop :=
  let x := u.getCtx u.hot.ctx
  x.cbase.toNat ≤ va.toNat ∧ va.toNat + 4 ≤ x.clim.toNat ∧
  ∃ (v0 : State) (pa : Nat), pa % 4 = 0 ∧ u.translate u.me va ⟨false, false, true⟩ = (v0, .ok ⟨.coh, pa⟩) ∧
    v0.pageReady pa v0.core = true ∧
    (let held := (v0.getCore v0.core).icache.find? fun x => x.1 == pa / 128 * 128
     (∃ bs : List Byte, held = some (pa / 128 * 128, bs) ∧ pa / 8 ∉ (v0.getCore v0.core).icachep ∧ v = v0 ∧
       leValue ((bs.drop (pa % 128)).take 4) = w) ∨
     (held = none ∧ pa / 8 ∉ v0.poison ∧ memValue v0 pa 4 = w ∧ v = v0.fillCode ⟨.coh, pa⟩))

/-- The executing slot may issue a bundle now; `r` is the state once its released stores that waited for lines have gone on. -/
def mayIssue (s r : State) : Prop :=
  s.stopped = false ∧ s.issuing = true ∧ r = s.retryStores s.hotId ∧ r.hot.blocked = false ∧ r.first ≠ some r.hotId ∧
  (r.getCore r.core).isolated = false ∧ (r.hot.wait = none → r.hot.refusal = none)

/-- A word may issue in a state: its fields are legal there, it waits for nothing, and `SPD` has room (R424, R335, R465). -/
def wordGoes (v : State) (i : Instr) : Prop := i.wf = true ∧ v.encodingFault i = none ∧ v.waits i = false

/-- What follows a bundle: the slot has issued, or, stalled, the next slot of the core is examined. -/
def afterBundle (t : State) : Out := if t.hot.did = .stalled then .next t.notIssued else .next t.issued

/-- A step runs the decoded words. A lone word: `exec` of it, on the state in which it finds its address and the next bundle;
done, the bundle ends; stalled, it is tried again; trapped, the trap stands; a bundle that raises before it issues counts as issued
too (DESIGN CHOICE, log 80); a bundle adds 1 to `SPD` as it completes (DEDUCED, log 19). A pair of plain words: `exec` of the C word, then of the A word. A word that reads as no instruction
raises ILLEGAL with the lowest detail (R424; DEDUCED, log 17). A word of a page that is still being claimed waits. With no issue under way the step is `exec` of
the row of one event, on its way or starting of itself now, and no other is lost; `TIME` does not decrease and stops at every
half microsecond, where each die's window ends and boost boundaries are then to come (log 6, 45). -/
def Obligations.StepRunsTheDecodedWords : Prop :=
  (∀ (s r v : State) (w : Nat) (i : Instr), mayIssue s r → fetchable r v r.hot.pc w → w / 2 ^ 30 % 2 = 1 → decodeWord w = .ok i →
    wordGoes v i → (v.hot.spd + 1 ≤ v.hot.splim ∨ v.hot.spd ≤ v.hot.splim ∧ ∃ a, i = .safept a) →
    let pc := r.hot.pc
    let start := v.setWord pc pc (pc + 4) true
    step s = Out.bind (exec i { start with hot := { start.hot with aOnly := false } }) fun t =>
      match t.hot.did with
      | .done => afterBundle (t.tickOrder.endBundle pc (match i with | .safept .. => true | _ => false))
      | .stalled => afterBundle (State.tookEntry { t with hot := { t.hot with aOnly := v.hot.aOnly } } v.hot.taken)
      | .trapped => .next t.issued) ∧
  (∀ (s r v1 v t u : State) (w1 w2 : Nat) (c a : Instr), mayIssue s r → fetchable r v1 r.hot.pc w1 →
    fetchable v1 v (r.hot.pc + 4) w2 → r.hot.pc.toNat % 8 = 0 → w1 / 2 ^ 30 = 0 → w2 / 2 ^ 30 = 2 → decodeWord w1 = .ok c → decodeWord w2 = .ok a →
    wordGoes v c → wordGoes v a → v.hot.historyWaits [c, a] = false → pairFault c a = none → isTransfer c = false → v.hot.spd + 1 ≤ v.hot.splim →
    let pc := r.hot.pc
    let z := { v with hot := { v.hot with aOnly := false } }
    stallsFirst exec a z = none → exec c (z.setWord pc pc (pc + 8) false) = .next t → t.hot.did = .done →
    t.tickOrder.hot.shipWaits a = false →
    exec a (t.tickOrder.setWord (pc + 4) (pc + 4) (pc + 8) false) = .next u → u.hot.did = .done →
      step s = afterBundle (u.tickOrder.endBundle pc false)) ∧
  (∀ (s r v : State) (w : Nat) (e : DecodeError), mayIssue s r → fetchable r v r.hot.pc w → w / 2 ^ 30 % 2 = 1 →
    decodeWord w = .error e →
    let detail := if 4 < e.detail ∧ dynamicField w = true ∧ 3 < v.hot.fcsr.toNat / 32 % 8 then 4 else e.detail
    step s = afterBundle (v.raiseAt r.hot.pc .illegal detail (word w))) ∧
  (∀ (s r v0 : State) (pa : Nat), mayIssue s r → (r.getCtx r.hot.ctx).cbase.toNat ≤ r.hot.pc.toNat →
    r.hot.pc.toNat + 4 ≤ (r.getCtx r.hot.ctx).clim.toNat → r.hot.wait = none →
    r.translate r.me r.hot.pc ⟨false, false, true⟩ = (v0, .ok ⟨.coh, pa⟩) → v0.pageReady pa v0.core = false →
      ∃ v : State, step s = .next v.notIssued ∧ v.hot.pc = v0.hot.pc ∧ v.hot.retired = v0.hot.retired ∧ v.hot.g = v0.hot.g) ∧
  (∀ s : State, s.stopped = true → step s = .fault .packageStopped) ∧
  (∀ s : State, s.stopped = false → s.issuing = false → ∃ (t : State) (e : Event) (rest : List Event),
    step s = exec e.row t ∧ t.agenda = e :: rest ∧ (∀ x ∈ s.agenda, x ∈ t.agenda) ∧
    { t with
      time := s.time, fine := s.fine, dies := s.dies, agenda := s.agenda, freeCtr := s.freeCtr, spun := s.spun, duty := s.duty } = s ∧
    s.time.toNat ≤ t.time.toNat ∧
    (∀ d, { t.getDie d with domains := (s.getDie d).domains } = s.getDie d) ∧
    (let stop := (s.instant / 50000 + 1) * 50000
     t.instant ≤ max s.instant stop ∧
     (s.momentary = true → t.instant = s.instant) ∧
     (s.momentary = false → s.package.halted = false → t.instant = stop →
       (stop % 100000 = 0 → ∀ d < 24, ∃ w, Event.currentWindowEnd d w ∈ t.agenda) ∧
       (stop % 800000 = 0 → ∀ d < 24, ∃ l, Event.boostBoundary d l ∈ t.agenda))))

/-! ## Reset, and what every step keeps (R94, R172, R175, R344, R350, R354) -/

/-- Reset leaves what the rules give: registers zeroed, CSRs at their resets, empty queues, no task, a full permit pool with its
pointer at 35, every domain nominal, no owner, no lock, memory in its canonical form; the start is about to take place. -/
def Obligations.ResetLeavesTheRulesState : Prop :=
  let s := State.reset
  (∀ k c, (s.getSlot k).active = false ∧ (∀ r, (s.getSlot k).getG r = 0) ∧ (∀ r : VReg, (s.getSlot k).v[r.val] = (0 : VWord)) ∧
    (∀ q : Fin 4, (s.getSlot k).q[q.val] = []) ∧ (s.getSlot k).fcsr = 0 ∧ (s.getSlot k).splim = 4096 ∧ (s.getSlot k).slim = 16 ∧
    (s.getSlot k).retired = 0 ∧ (s.getSlot k).trapvec = 0 ∧ (∀ t : Fin 8, (s.getSlot k).tokens[t.val] = none) ∧
    (s.getCore c).gshare = 1 ∧ (s.getCore c).boostReq = 0 ∧ (s.getCore c).arrival = [] ∧ (s.getCtx c).live = false ∧
    (s.getCtx c).asidr = 0 ∧ (s.getCtx c).cbase = 0 ∧ (s.getCtx c).lqbase = 0) ∧
  (∀ d i, (s.getDie d).pool = 64 ∧ (s.getDie d).grant = 35 ∧ ((s.getDie d).domain i).level = 1 ∧ (s.getDie d).locks = [] ∧
    (s.getDie d).elbase = 0 ∧ (s.getDie d).work = []) ∧
  s.mctbase = 0 ∧ s.time = 0 ∧ s.package.bootState = 0 ∧ s.package.committed = false ∧ s.pages = [] ∧ s.caches = [] ∧ s.memOk ∧
  (∃ r, s.agenda = [Event.startUp r])

/-- Every step keeps the canonical form of memory, whatever the state: listed addresses rise strictly, and no listed byte is
zero, so that equal memories are equal data. -/
def Obligations.StepKeepsMemoryForm : Prop := ∀ s t : State, s.memOk → step s = .next t → t.memOk

/-! ## The sums of matrix elements (R87, R88) -/

/-- The rational value of an exact finite value. -/
def finiteValue : FVal → Option ℚ
  | .num neg m e => some ((if neg then -1 else 1) * (m : ℚ) * (2 : ℚ) ^ e)
  | .zero _ => some 0
  | _ => none

/-- The FP32 code `G` is an exact sum rounded once to nearest-even (R66, R68). -/
def sumRounded (G : Nat) (q : ℚ) : Prop :=
  (q ≠ 0 → ∃ r : FRes, r.bits = G ∧ roundsTo .fp32 .rne r q) ∧ (q = 0 → fpNumber .fp32 G = some 0 ∧ G < 2 ^ 32)

/-- A rational truncated toward zero to a multiple of `u`. -/
def truncatedTo (u q : ℚ) : ℚ := u * (if 0 ≤ q then ⌊q / u⌋ else ⌈q / u⌉)

/-- The group sum `G` of products: a NaN gives the canonical NaN; finite products give their exact sum, each first truncated
where the family says so, rounded once to FP32. -/
def groupSum (truncates : Bool) (ps : List FVal) (G : Nat) : Prop :=
  (∀ xs : List ℚ, ps.map finiteValue = xs.map some →
    (truncates = false → sumRounded G xs.sum) ∧
    (truncates = true → (∀ x ∈ xs, x = 0) → G = 0) ∧
    (truncates = true → ∀ e : ℤ, (∃ x ∈ xs, (2 : ℚ) ^ e ≤ |x|) → (∀ x ∈ xs, |x| < (2 : ℚ) ^ (e + 1)) →
      sumRounded G (xs.map (truncatedTo ((2 : ℚ) ^ (e - 52)))).sum)) ∧
  ((∃ p ∈ ps, p.isNaN = true) → G = 0x7FC00000) ∧
  (truncates = true → FVal.inf true ∈ ps → FVal.inf false ∈ ps → G = 0x7FC00000) ∧
  (truncates = true → ∀ neg : Bool, FVal.inf neg ∈ ps → FVal.inf (!neg) ∉ ps → (∀ p ∈ ps, p.isNaN = false) →
    G = if neg then 0xFF800000 else 0x7F800000)

/-- The update of an element of C (R87, R88), as a sum over k of the products of A and B. I8: the exact sum of signed products
modulo 2^32. FP64: a chain of fused multiply-adds from +0. F8 and B16 families: from +0, one FP32 addition for each group of
64 or 16 products, of the group sum. -/
def Obligations.EngineSumsFollowTheirFamilies : Prop :=
  ∀ (fa fb k : Nat) (a b : Nat → Nat × Int),
    let sum := fun (n : Nat) => productElem fa fb n a b
    let product := fun (i : Nat) => (operandVal fa (a i)).mul (operandVal fb (b i))
    sum 0 = 0 ∧
    (mxeFamily fa = .i8 → (sum k : Int) =
      ((List.range k).map fun i => (BitVec.ofNat 8 (a i).1).toInt * (BitVec.ofNat 8 (b i).1).toInt).sum % 2 ^ 32) ∧
    (mxeFamily fa = .fp64 → sum (k + 1) = (fFma .fp64 .rne false false (a k).1 (b k).1 (sum k)).bits) ∧
    (mxeFamily fa = .f8 → mxeFamily fb = .f8 → ∃ G, groupSum false ((List.range 64).map fun j => product (64 * k + j)) G ∧
      sum (64 * (k + 1)) = (fAdd .fp32 .rne (sum (64 * k)) G).bits) ∧
    (mxeFamily fa = .b16 → mxeFamily fb = .b16 → ∃ G, groupSum true ((List.range 16).map fun j => product (16 * k + j)) G ∧
      sum (16 * (k + 1)) = (fAdd .fp32 .rne (sum (16 * k)) G).bits)

/-! ## The values of the other FP functions -/

/-- The values and flags of `FSQRT`, `FMIN`, `FMAX`, FCMP, `FCLASS`, FSGN, `FCVT`, FSEED and FTRANS (R63 to R74, R84 to R86, R218
to R225), in scalar words and in the lanes of V words alike, each from the bits of its operands, as the five parts above
say: rounded results as reals rounded once in the mode. -/
def Obligations.FpValuesFollowTheRules : Prop :=
  squareRootsAreRoundedOnce ∧ comparisonsFollowTheOrderOfValues ∧ conversionsFollowTheirFamilies ∧ seedsFollowTheTable ∧
    transcendentalsFollowTheTable
end

