-- ==== Sys2Proof/Laws/State.lean ====
section
/-!
SUPPORT. One lemma per field of the state per update, so that no proof unfolds a record update.
-/
namespace Sys2Proof.Machine

/-! ## State.setCore -/

@[simp] theorem State.setCore_hotId (s : State) (k : Nat) (c : Core) : (s.setCore k c).hotId = s.hotId := rfl
@[simp] theorem State.setCore_hot (s : State) (k : Nat) (c : Core) : (s.setCore k c).hot = s.hot := rfl
@[simp] theorem State.setCore_issuing (s : State) (k : Nat) (c : Core) : (s.setCore k c).issuing = s.issuing := rfl
@[simp] theorem State.setCore_scan (s : State) (k : Nat) (c : Core) : (s.setCore k c).scan = s.scan := rfl
@[simp] theorem State.setCore_second (s : State) (k : Nat) (c : Core) : (s.setCore k c).second = s.second := rfl
@[simp] theorem State.setCore_first (s : State) (k : Nat) (c : Core) : (s.setCore k c).first = s.first := rfl
@[simp] theorem State.setCore_agenda (s : State) (k : Nat) (c : Core) : (s.setCore k c).agenda = s.agenda := rfl
@[simp] theorem State.setCore_backoff (s : State) (k : Nat) (c : Core) : (s.setCore k c).backoff = s.backoff := rfl
@[simp] theorem State.setCore_freeCtr (s : State) (k : Nat) (c : Core) : (s.setCore k c).freeCtr = s.freeCtr := rfl
@[simp] theorem State.setCore_ids (s : State) (k : Nat) (c : Core) : (s.setCore k c).ids = s.ids := rfl
@[simp] theorem State.setCore_slots (s : State) (k : Nat) (c : Core) : (s.setCore k c).slots = s.slots := rfl
@[simp] theorem State.setCore_cores (s : State) (k : Nat) (c : Core) : (s.setCore k c).cores = tabSet s.cores k c := rfl
@[simp] theorem State.setCore_shiptgt (s : State) (k : Nat) (c : Core) : (s.setCore k c).shiptgt = s.shiptgt := rfl
@[simp] theorem State.setCore_dies (s : State) (k : Nat) (c : Core) : (s.setCore k c).dies = s.dies := rfl
@[simp] theorem State.setCore_ctxs (s : State) (k : Nat) (c : Core) : (s.setCore k c).ctxs = s.ctxs := rfl
@[simp] theorem State.setCore_mem (s : State) (k : Nat) (c : Core) : (s.setCore k c).mem = s.mem := rfl
@[simp] theorem State.setCore_poison (s : State) (k : Nat) (c : Core) : (s.setCore k c).poison = s.poison := rfl
@[simp] theorem State.setCore_acc (s : State) (k : Nat) (c : Core) : (s.setCore k c).acc = s.acc := rfl
@[simp] theorem State.setCore_mct (s : State) (k : Nat) (c : Core) : (s.setCore k c).mct = s.mct := rfl
@[simp] theorem State.setCore_time (s : State) (k : Nat) (c : Core) : (s.setCore k c).time = s.time := rfl
@[simp] theorem State.setCore_mctbase (s : State) (k : Nat) (c : Core) : (s.setCore k c).mctbase = s.mctbase := rfl
@[simp] theorem State.setCore_pkg (s : State) (k : Nat) (c : Core) : (s.setCore k c).pkg = s.pkg := rfl
@[simp] theorem State.setCore_barriers (s : State) (k : Nat) (c : Core) : (s.setCore k c).barriers = s.barriers := rfl
@[simp] theorem State.setCore_pages (s : State) (k : Nat) (c : Core) : (s.setCore k c).pages = s.pages := rfl
@[simp] theorem State.setCore_homes (s : State) (k : Nat) (c : Core) : (s.setCore k c).homes = s.homes := rfl
@[simp] theorem State.setCore_caches (s : State) (k : Nat) (c : Core) : (s.setCore k c).caches = s.caches := rfl
@[simp] theorem State.setCore_waiters (s : State) (k : Nat) (c : Core) : (s.setCore k c).waiters = s.waiters := rfl
@[simp] theorem State.setCore_package (s : State) (k : Nat) (c : Core) : (s.setCore k c).package = s.package := rfl
@[simp] theorem State.setCore_spun (s : State) (k : Nat) (c : Core) : (s.setCore k c).spun = s.spun := rfl
@[simp] theorem State.setCore_duty (s : State) (k : Nat) (c : Core) : (s.setCore k c).duty = s.duty := rfl
@[simp] theorem State.setCore_fine (s : State) (k : Nat) (c : Core) : (s.setCore k c).fine = s.fine := rfl
@[simp] theorem State.setCore_forwards (s : State) (k : Nat) (c : Core) : (s.setCore k c).forwards = s.forwards := rfl
@[simp] theorem State.setCore_hco (s : State) (k : Nat) (c : Core) : (s.setCore k c).hco = s.hco := rfl
@[simp] theorem State.setCore_atHome (s : State) (k : Nat) (c : Core) : (s.setCore k c).atHome = s.atHome := rfl

/-! ## State.setDie -/

@[simp] theorem State.setDie_hotId (s : State) (d : Nat) (x : Die) : (s.setDie d x).hotId = s.hotId := rfl
@[simp] theorem State.setDie_hot (s : State) (d : Nat) (x : Die) : (s.setDie d x).hot = s.hot := rfl
@[simp] theorem State.setDie_issuing (s : State) (d : Nat) (x : Die) : (s.setDie d x).issuing = s.issuing := rfl
@[simp] theorem State.setDie_scan (s : State) (d : Nat) (x : Die) : (s.setDie d x).scan = s.scan := rfl
@[simp] theorem State.setDie_second (s : State) (d : Nat) (x : Die) : (s.setDie d x).second = s.second := rfl
@[simp] theorem State.setDie_first (s : State) (d : Nat) (x : Die) : (s.setDie d x).first = s.first := rfl
@[simp] theorem State.setDie_agenda (s : State) (d : Nat) (x : Die) : (s.setDie d x).agenda = s.agenda := rfl
@[simp] theorem State.setDie_backoff (s : State) (d : Nat) (x : Die) : (s.setDie d x).backoff = s.backoff := rfl
@[simp] theorem State.setDie_freeCtr (s : State) (d : Nat) (x : Die) : (s.setDie d x).freeCtr = s.freeCtr := rfl
@[simp] theorem State.setDie_ids (s : State) (d : Nat) (x : Die) : (s.setDie d x).ids = s.ids := rfl
@[simp] theorem State.setDie_slots (s : State) (d : Nat) (x : Die) : (s.setDie d x).slots = s.slots := rfl
@[simp] theorem State.setDie_cores (s : State) (d : Nat) (x : Die) : (s.setDie d x).cores = s.cores := rfl
@[simp] theorem State.setDie_shiptgt (s : State) (d : Nat) (x : Die) : (s.setDie d x).shiptgt = s.shiptgt := rfl
@[simp] theorem State.setDie_dies (s : State) (d : Nat) (x : Die) : (s.setDie d x).dies = tabSet s.dies d x := rfl
@[simp] theorem State.setDie_ctxs (s : State) (d : Nat) (x : Die) : (s.setDie d x).ctxs = s.ctxs := rfl
@[simp] theorem State.setDie_mem (s : State) (d : Nat) (x : Die) : (s.setDie d x).mem = s.mem := rfl
@[simp] theorem State.setDie_poison (s : State) (d : Nat) (x : Die) : (s.setDie d x).poison = s.poison := rfl
@[simp] theorem State.setDie_acc (s : State) (d : Nat) (x : Die) : (s.setDie d x).acc = s.acc := rfl
@[simp] theorem State.setDie_mct (s : State) (d : Nat) (x : Die) : (s.setDie d x).mct = s.mct := rfl
@[simp] theorem State.setDie_time (s : State) (d : Nat) (x : Die) : (s.setDie d x).time = s.time := rfl
@[simp] theorem State.setDie_mctbase (s : State) (d : Nat) (x : Die) : (s.setDie d x).mctbase = s.mctbase := rfl
@[simp] theorem State.setDie_pkg (s : State) (d : Nat) (x : Die) : (s.setDie d x).pkg = s.pkg := rfl
@[simp] theorem State.setDie_barriers (s : State) (d : Nat) (x : Die) : (s.setDie d x).barriers = s.barriers := rfl
@[simp] theorem State.setDie_pages (s : State) (d : Nat) (x : Die) : (s.setDie d x).pages = s.pages := rfl
@[simp] theorem State.setDie_homes (s : State) (d : Nat) (x : Die) : (s.setDie d x).homes = s.homes := rfl
@[simp] theorem State.setDie_caches (s : State) (d : Nat) (x : Die) : (s.setDie d x).caches = s.caches := rfl
@[simp] theorem State.setDie_waiters (s : State) (d : Nat) (x : Die) : (s.setDie d x).waiters = s.waiters := rfl
@[simp] theorem State.setDie_package (s : State) (d : Nat) (x : Die) : (s.setDie d x).package = s.package := rfl
@[simp] theorem State.setDie_spun (s : State) (d : Nat) (x : Die) : (s.setDie d x).spun = s.spun := rfl
@[simp] theorem State.setDie_duty (s : State) (d : Nat) (x : Die) : (s.setDie d x).duty = s.duty := rfl
@[simp] theorem State.setDie_fine (s : State) (d : Nat) (x : Die) : (s.setDie d x).fine = s.fine := rfl
@[simp] theorem State.setDie_forwards (s : State) (d : Nat) (x : Die) : (s.setDie d x).forwards = s.forwards := rfl
@[simp] theorem State.setDie_hco (s : State) (d : Nat) (x : Die) : (s.setDie d x).hco = s.hco := rfl
@[simp] theorem State.setDie_atHome (s : State) (d : Nat) (x : Die) : (s.setDie d x).atHome = s.atHome := rfl

/-! ## State.setCtx -/

@[simp] theorem State.setCtx_hotId (s : State) (c : Nat) (x : Context) : (s.setCtx c x).hotId = s.hotId := rfl
@[simp] theorem State.setCtx_hot (s : State) (c : Nat) (x : Context) : (s.setCtx c x).hot = s.hot := rfl
@[simp] theorem State.setCtx_issuing (s : State) (c : Nat) (x : Context) : (s.setCtx c x).issuing = s.issuing := rfl
@[simp] theorem State.setCtx_scan (s : State) (c : Nat) (x : Context) : (s.setCtx c x).scan = s.scan := rfl
@[simp] theorem State.setCtx_second (s : State) (c : Nat) (x : Context) : (s.setCtx c x).second = s.second := rfl
@[simp] theorem State.setCtx_first (s : State) (c : Nat) (x : Context) : (s.setCtx c x).first = s.first := rfl
@[simp] theorem State.setCtx_agenda (s : State) (c : Nat) (x : Context) : (s.setCtx c x).agenda = s.agenda := rfl
@[simp] theorem State.setCtx_backoff (s : State) (c : Nat) (x : Context) : (s.setCtx c x).backoff = s.backoff := rfl
@[simp] theorem State.setCtx_freeCtr (s : State) (c : Nat) (x : Context) : (s.setCtx c x).freeCtr = s.freeCtr := rfl
@[simp] theorem State.setCtx_ids (s : State) (c : Nat) (x : Context) : (s.setCtx c x).ids = s.ids := rfl
@[simp] theorem State.setCtx_slots (s : State) (c : Nat) (x : Context) : (s.setCtx c x).slots = s.slots := rfl
@[simp] theorem State.setCtx_cores (s : State) (c : Nat) (x : Context) : (s.setCtx c x).cores = s.cores := rfl
@[simp] theorem State.setCtx_shiptgt (s : State) (c : Nat) (x : Context) : (s.setCtx c x).shiptgt = s.shiptgt := rfl
@[simp] theorem State.setCtx_dies (s : State) (c : Nat) (x : Context) : (s.setCtx c x).dies = s.dies := rfl
@[simp] theorem State.setCtx_ctxs (s : State) (c : Nat) (x : Context) : (s.setCtx c x).ctxs = tabSet s.ctxs c x := rfl
@[simp] theorem State.setCtx_mem (s : State) (c : Nat) (x : Context) : (s.setCtx c x).mem = s.mem := rfl
@[simp] theorem State.setCtx_poison (s : State) (c : Nat) (x : Context) : (s.setCtx c x).poison = s.poison := rfl
@[simp] theorem State.setCtx_acc (s : State) (c : Nat) (x : Context) : (s.setCtx c x).acc = s.acc := rfl
@[simp] theorem State.setCtx_mct (s : State) (c : Nat) (x : Context) : (s.setCtx c x).mct = s.mct := rfl
@[simp] theorem State.setCtx_time (s : State) (c : Nat) (x : Context) : (s.setCtx c x).time = s.time := rfl
@[simp] theorem State.setCtx_mctbase (s : State) (c : Nat) (x : Context) : (s.setCtx c x).mctbase = s.mctbase := rfl
@[simp] theorem State.setCtx_pkg (s : State) (c : Nat) (x : Context) : (s.setCtx c x).pkg = s.pkg := rfl
@[simp] theorem State.setCtx_barriers (s : State) (c : Nat) (x : Context) : (s.setCtx c x).barriers = s.barriers := rfl
@[simp] theorem State.setCtx_pages (s : State) (c : Nat) (x : Context) : (s.setCtx c x).pages = s.pages := rfl
@[simp] theorem State.setCtx_homes (s : State) (c : Nat) (x : Context) : (s.setCtx c x).homes = s.homes := rfl
@[simp] theorem State.setCtx_caches (s : State) (c : Nat) (x : Context) : (s.setCtx c x).caches = s.caches := rfl
@[simp] theorem State.setCtx_waiters (s : State) (c : Nat) (x : Context) : (s.setCtx c x).waiters = s.waiters := rfl
@[simp] theorem State.setCtx_package (s : State) (c : Nat) (x : Context) : (s.setCtx c x).package = s.package := rfl
@[simp] theorem State.setCtx_spun (s : State) (c : Nat) (x : Context) : (s.setCtx c x).spun = s.spun := rfl
@[simp] theorem State.setCtx_duty (s : State) (c : Nat) (x : Context) : (s.setCtx c x).duty = s.duty := rfl
@[simp] theorem State.setCtx_fine (s : State) (c : Nat) (x : Context) : (s.setCtx c x).fine = s.fine := rfl
@[simp] theorem State.setCtx_forwards (s : State) (c : Nat) (x : Context) : (s.setCtx c x).forwards = s.forwards := rfl
@[simp] theorem State.setCtx_hco (s : State) (c : Nat) (x : Context) : (s.setCtx c x).hco = s.hco := rfl
@[simp] theorem State.setCtx_atHome (s : State) (c : Nat) (x : Context) : (s.setCtx c x).atHome = s.atHome := rfl

/-! ## State.post -/

@[simp] theorem State.post_hotId (s : State) (e : Event) : (s.post e).hotId = s.hotId := rfl
@[simp] theorem State.post_hot (s : State) (e : Event) : (s.post e).hot = s.hot := rfl
@[simp] theorem State.post_issuing (s : State) (e : Event) : (s.post e).issuing = s.issuing := rfl
@[simp] theorem State.post_scan (s : State) (e : Event) : (s.post e).scan = s.scan := rfl
@[simp] theorem State.post_second (s : State) (e : Event) : (s.post e).second = s.second := rfl
@[simp] theorem State.post_first (s : State) (e : Event) : (s.post e).first = s.first := rfl
@[simp] theorem State.post_agenda (s : State) (e : Event) : (s.post e).agenda = s.agenda ++ [e] := rfl
@[simp] theorem State.post_backoff (s : State) (e : Event) : (s.post e).backoff = s.backoff := rfl
@[simp] theorem State.post_freeCtr (s : State) (e : Event) : (s.post e).freeCtr = s.freeCtr := rfl
@[simp] theorem State.post_ids (s : State) (e : Event) : (s.post e).ids = s.ids := rfl
@[simp] theorem State.post_slots (s : State) (e : Event) : (s.post e).slots = s.slots := rfl
@[simp] theorem State.post_cores (s : State) (e : Event) : (s.post e).cores = s.cores := rfl
@[simp] theorem State.post_shiptgt (s : State) (e : Event) : (s.post e).shiptgt = s.shiptgt := rfl
@[simp] theorem State.post_dies (s : State) (e : Event) : (s.post e).dies = s.dies := rfl
@[simp] theorem State.post_ctxs (s : State) (e : Event) : (s.post e).ctxs = s.ctxs := rfl
@[simp] theorem State.post_mem (s : State) (e : Event) : (s.post e).mem = s.mem := rfl
@[simp] theorem State.post_poison (s : State) (e : Event) : (s.post e).poison = s.poison := rfl
@[simp] theorem State.post_acc (s : State) (e : Event) : (s.post e).acc = s.acc := rfl
@[simp] theorem State.post_mct (s : State) (e : Event) : (s.post e).mct = s.mct := rfl
@[simp] theorem State.post_time (s : State) (e : Event) : (s.post e).time = s.time := rfl
@[simp] theorem State.post_mctbase (s : State) (e : Event) : (s.post e).mctbase = s.mctbase := rfl
@[simp] theorem State.post_pkg (s : State) (e : Event) : (s.post e).pkg = s.pkg := rfl
@[simp] theorem State.post_barriers (s : State) (e : Event) : (s.post e).barriers = s.barriers := rfl
@[simp] theorem State.post_pages (s : State) (e : Event) : (s.post e).pages = s.pages := rfl
@[simp] theorem State.post_homes (s : State) (e : Event) : (s.post e).homes = s.homes := rfl
@[simp] theorem State.post_caches (s : State) (e : Event) : (s.post e).caches = s.caches := rfl
@[simp] theorem State.post_waiters (s : State) (e : Event) : (s.post e).waiters = s.waiters := rfl
@[simp] theorem State.post_package (s : State) (e : Event) : (s.post e).package = s.package := rfl
@[simp] theorem State.post_spun (s : State) (e : Event) : (s.post e).spun = s.spun := rfl
@[simp] theorem State.post_duty (s : State) (e : Event) : (s.post e).duty = s.duty := rfl
@[simp] theorem State.post_fine (s : State) (e : Event) : (s.post e).fine = s.fine := rfl
@[simp] theorem State.post_forwards (s : State) (e : Event) : (s.post e).forwards = s.forwards := rfl
@[simp] theorem State.post_hco (s : State) (e : Event) : (s.post e).hco = s.hco := rfl
@[simp] theorem State.post_atHome (s : State) (e : Event) : (s.post e).atHome = s.atHome := rfl

/-! ## State.bump -/

@[simp] theorem State.bump_hotId (s : State) : (s.bump).hotId = s.hotId := rfl
@[simp] theorem State.bump_hot (s : State) : (s.bump).hot = s.hot := rfl
@[simp] theorem State.bump_issuing (s : State) : (s.bump).issuing = s.issuing := rfl
@[simp] theorem State.bump_scan (s : State) : (s.bump).scan = s.scan := rfl
@[simp] theorem State.bump_second (s : State) : (s.bump).second = s.second := rfl
@[simp] theorem State.bump_first (s : State) : (s.bump).first = s.first := rfl
@[simp] theorem State.bump_agenda (s : State) : (s.bump).agenda = s.agenda := rfl
@[simp] theorem State.bump_backoff (s : State) : (s.bump).backoff = s.backoff := rfl
@[simp] theorem State.bump_freeCtr (s : State) : (s.bump).freeCtr = s.freeCtr + 1 := rfl
@[simp] theorem State.bump_ids (s : State) : (s.bump).ids = s.ids := rfl
@[simp] theorem State.bump_slots (s : State) : (s.bump).slots = s.slots := rfl
@[simp] theorem State.bump_cores (s : State) : (s.bump).cores = s.cores := rfl
@[simp] theorem State.bump_shiptgt (s : State) : (s.bump).shiptgt = s.shiptgt := rfl
@[simp] theorem State.bump_dies (s : State) : (s.bump).dies = s.dies := rfl
@[simp] theorem State.bump_ctxs (s : State) : (s.bump).ctxs = s.ctxs := rfl
@[simp] theorem State.bump_mem (s : State) : (s.bump).mem = s.mem := rfl
@[simp] theorem State.bump_poison (s : State) : (s.bump).poison = s.poison := rfl
@[simp] theorem State.bump_acc (s : State) : (s.bump).acc = s.acc := rfl
@[simp] theorem State.bump_mct (s : State) : (s.bump).mct = s.mct := rfl
@[simp] theorem State.bump_time (s : State) : (s.bump).time = s.time := rfl
@[simp] theorem State.bump_mctbase (s : State) : (s.bump).mctbase = s.mctbase := rfl
@[simp] theorem State.bump_pkg (s : State) : (s.bump).pkg = s.pkg := rfl
@[simp] theorem State.bump_barriers (s : State) : (s.bump).barriers = s.barriers := rfl
@[simp] theorem State.bump_pages (s : State) : (s.bump).pages = s.pages := rfl
@[simp] theorem State.bump_homes (s : State) : (s.bump).homes = s.homes := rfl
@[simp] theorem State.bump_caches (s : State) : (s.bump).caches = s.caches := rfl
@[simp] theorem State.bump_waiters (s : State) : (s.bump).waiters = s.waiters := rfl
@[simp] theorem State.bump_package (s : State) : (s.bump).package = s.package := rfl
@[simp] theorem State.bump_spun (s : State) : (s.bump).spun = s.spun := rfl
@[simp] theorem State.bump_duty (s : State) : (s.bump).duty = s.duty := rfl
@[simp] theorem State.bump_fine (s : State) : (s.bump).fine = s.fine := rfl
@[simp] theorem State.bump_forwards (s : State) : (s.bump).forwards = s.forwards := rfl
@[simp] theorem State.bump_hco (s : State) : (s.bump).hco = s.hco := rfl
@[simp] theorem State.bump_atHome (s : State) : (s.bump).atHome = s.atHome := rfl

/-! ## State.writeG -/

@[simp] theorem State.writeG_hotId (s : State) (r : GReg) (w : Word) : (s.writeG r w).hotId = s.hotId := rfl
@[simp] theorem State.writeG_hot (s : State) (r : GReg) (w : Word) : (s.writeG r w).hot = s.hot.writeG r w := rfl
@[simp] theorem State.writeG_issuing (s : State) (r : GReg) (w : Word) : (s.writeG r w).issuing = s.issuing := rfl
@[simp] theorem State.writeG_scan (s : State) (r : GReg) (w : Word) : (s.writeG r w).scan = s.scan := rfl
@[simp] theorem State.writeG_second (s : State) (r : GReg) (w : Word) : (s.writeG r w).second = s.second := rfl
@[simp] theorem State.writeG_first (s : State) (r : GReg) (w : Word) : (s.writeG r w).first = s.first := rfl
@[simp] theorem State.writeG_agenda (s : State) (r : GReg) (w : Word) : (s.writeG r w).agenda = s.agenda := rfl
@[simp] theorem State.writeG_backoff (s : State) (r : GReg) (w : Word) : (s.writeG r w).backoff = s.backoff := rfl
@[simp] theorem State.writeG_freeCtr (s : State) (r : GReg) (w : Word) : (s.writeG r w).freeCtr = s.freeCtr := rfl
@[simp] theorem State.writeG_ids (s : State) (r : GReg) (w : Word) : (s.writeG r w).ids = s.ids := rfl
@[simp] theorem State.writeG_slots (s : State) (r : GReg) (w : Word) : (s.writeG r w).slots = s.slots := rfl
@[simp] theorem State.writeG_cores (s : State) (r : GReg) (w : Word) : (s.writeG r w).cores = s.cores := rfl
@[simp] theorem State.writeG_shiptgt (s : State) (r : GReg) (w : Word) : (s.writeG r w).shiptgt = s.shiptgt := rfl
@[simp] theorem State.writeG_dies (s : State) (r : GReg) (w : Word) : (s.writeG r w).dies = s.dies := rfl
@[simp] theorem State.writeG_ctxs (s : State) (r : GReg) (w : Word) : (s.writeG r w).ctxs = s.ctxs := rfl
@[simp] theorem State.writeG_mem (s : State) (r : GReg) (w : Word) : (s.writeG r w).mem = s.mem := rfl
@[simp] theorem State.writeG_poison (s : State) (r : GReg) (w : Word) : (s.writeG r w).poison = s.poison := rfl
@[simp] theorem State.writeG_acc (s : State) (r : GReg) (w : Word) : (s.writeG r w).acc = s.acc := rfl
@[simp] theorem State.writeG_mct (s : State) (r : GReg) (w : Word) : (s.writeG r w).mct = s.mct := rfl
@[simp] theorem State.writeG_time (s : State) (r : GReg) (w : Word) : (s.writeG r w).time = s.time := rfl
@[simp] theorem State.writeG_mctbase (s : State) (r : GReg) (w : Word) : (s.writeG r w).mctbase = s.mctbase := rfl
@[simp] theorem State.writeG_pkg (s : State) (r : GReg) (w : Word) : (s.writeG r w).pkg = s.pkg := rfl
@[simp] theorem State.writeG_barriers (s : State) (r : GReg) (w : Word) : (s.writeG r w).barriers = s.barriers := rfl
@[simp] theorem State.writeG_pages (s : State) (r : GReg) (w : Word) : (s.writeG r w).pages = s.pages := rfl
@[simp] theorem State.writeG_homes (s : State) (r : GReg) (w : Word) : (s.writeG r w).homes = s.homes := rfl
@[simp] theorem State.writeG_caches (s : State) (r : GReg) (w : Word) : (s.writeG r w).caches = s.caches := rfl
@[simp] theorem State.writeG_waiters (s : State) (r : GReg) (w : Word) : (s.writeG r w).waiters = s.waiters := rfl
@[simp] theorem State.writeG_package (s : State) (r : GReg) (w : Word) : (s.writeG r w).package = s.package := rfl
@[simp] theorem State.writeG_spun (s : State) (r : GReg) (w : Word) : (s.writeG r w).spun = s.spun := rfl
@[simp] theorem State.writeG_duty (s : State) (r : GReg) (w : Word) : (s.writeG r w).duty = s.duty := rfl
@[simp] theorem State.writeG_fine (s : State) (r : GReg) (w : Word) : (s.writeG r w).fine = s.fine := rfl
@[simp] theorem State.writeG_forwards (s : State) (r : GReg) (w : Word) : (s.writeG r w).forwards = s.forwards := rfl
@[simp] theorem State.writeG_hco (s : State) (r : GReg) (w : Word) : (s.writeG r w).hco = s.hco := rfl
@[simp] theorem State.writeG_atHome (s : State) (r : GReg) (w : Word) : (s.writeG r w).atHome = s.atHome := rfl

/-! ## State.writeV -/

@[simp] theorem State.writeV_hotId (s : State) (r : VReg) (w : VWord) : (s.writeV r w).hotId = s.hotId := rfl
@[simp] theorem State.writeV_hot (s : State) (r : VReg) (w : VWord) : (s.writeV r w).hot = s.hot.writeV r w := rfl
@[simp] theorem State.writeV_issuing (s : State) (r : VReg) (w : VWord) : (s.writeV r w).issuing = s.issuing := rfl
@[simp] theorem State.writeV_scan (s : State) (r : VReg) (w : VWord) : (s.writeV r w).scan = s.scan := rfl
@[simp] theorem State.writeV_second (s : State) (r : VReg) (w : VWord) : (s.writeV r w).second = s.second := rfl
@[simp] theorem State.writeV_first (s : State) (r : VReg) (w : VWord) : (s.writeV r w).first = s.first := rfl
@[simp] theorem State.writeV_agenda (s : State) (r : VReg) (w : VWord) : (s.writeV r w).agenda = s.agenda := rfl
@[simp] theorem State.writeV_backoff (s : State) (r : VReg) (w : VWord) : (s.writeV r w).backoff = s.backoff := rfl
@[simp] theorem State.writeV_freeCtr (s : State) (r : VReg) (w : VWord) : (s.writeV r w).freeCtr = s.freeCtr := rfl
@[simp] theorem State.writeV_ids (s : State) (r : VReg) (w : VWord) : (s.writeV r w).ids = s.ids := rfl
@[simp] theorem State.writeV_slots (s : State) (r : VReg) (w : VWord) : (s.writeV r w).slots = s.slots := rfl
@[simp] theorem State.writeV_cores (s : State) (r : VReg) (w : VWord) : (s.writeV r w).cores = s.cores := rfl
@[simp] theorem State.writeV_shiptgt (s : State) (r : VReg) (w : VWord) : (s.writeV r w).shiptgt = s.shiptgt := rfl
@[simp] theorem State.writeV_dies (s : State) (r : VReg) (w : VWord) : (s.writeV r w).dies = s.dies := rfl
@[simp] theorem State.writeV_ctxs (s : State) (r : VReg) (w : VWord) : (s.writeV r w).ctxs = s.ctxs := rfl
@[simp] theorem State.writeV_mem (s : State) (r : VReg) (w : VWord) : (s.writeV r w).mem = s.mem := rfl
@[simp] theorem State.writeV_poison (s : State) (r : VReg) (w : VWord) : (s.writeV r w).poison = s.poison := rfl
@[simp] theorem State.writeV_acc (s : State) (r : VReg) (w : VWord) : (s.writeV r w).acc = s.acc := rfl
@[simp] theorem State.writeV_mct (s : State) (r : VReg) (w : VWord) : (s.writeV r w).mct = s.mct := rfl
@[simp] theorem State.writeV_time (s : State) (r : VReg) (w : VWord) : (s.writeV r w).time = s.time := rfl
@[simp] theorem State.writeV_mctbase (s : State) (r : VReg) (w : VWord) : (s.writeV r w).mctbase = s.mctbase := rfl
@[simp] theorem State.writeV_pkg (s : State) (r : VReg) (w : VWord) : (s.writeV r w).pkg = s.pkg := rfl
@[simp] theorem State.writeV_barriers (s : State) (r : VReg) (w : VWord) : (s.writeV r w).barriers = s.barriers := rfl
@[simp] theorem State.writeV_pages (s : State) (r : VReg) (w : VWord) : (s.writeV r w).pages = s.pages := rfl
@[simp] theorem State.writeV_homes (s : State) (r : VReg) (w : VWord) : (s.writeV r w).homes = s.homes := rfl
@[simp] theorem State.writeV_caches (s : State) (r : VReg) (w : VWord) : (s.writeV r w).caches = s.caches := rfl
@[simp] theorem State.writeV_waiters (s : State) (r : VReg) (w : VWord) : (s.writeV r w).waiters = s.waiters := rfl
@[simp] theorem State.writeV_package (s : State) (r : VReg) (w : VWord) : (s.writeV r w).package = s.package := rfl
@[simp] theorem State.writeV_spun (s : State) (r : VReg) (w : VWord) : (s.writeV r w).spun = s.spun := rfl
@[simp] theorem State.writeV_duty (s : State) (r : VReg) (w : VWord) : (s.writeV r w).duty = s.duty := rfl
@[simp] theorem State.writeV_fine (s : State) (r : VReg) (w : VWord) : (s.writeV r w).fine = s.fine := rfl
@[simp] theorem State.writeV_forwards (s : State) (r : VReg) (w : VWord) : (s.writeV r w).forwards = s.forwards := rfl
@[simp] theorem State.writeV_hco (s : State) (r : VReg) (w : VWord) : (s.writeV r w).hco = s.hco := rfl
@[simp] theorem State.writeV_atHome (s : State) (r : VReg) (w : VWord) : (s.writeV r w).atHome = s.atHome := rfl

/-! ## State.writeM -/

@[simp] theorem State.writeM_hotId (s : State) (r : MReg) (w : Word) : (s.writeM r w).hotId = s.hotId := rfl
@[simp] theorem State.writeM_hot (s : State) (r : MReg) (w : Word) : (s.writeM r w).hot = s.hot.writeM r w := rfl
@[simp] theorem State.writeM_issuing (s : State) (r : MReg) (w : Word) : (s.writeM r w).issuing = s.issuing := rfl
@[simp] theorem State.writeM_scan (s : State) (r : MReg) (w : Word) : (s.writeM r w).scan = s.scan := rfl
@[simp] theorem State.writeM_second (s : State) (r : MReg) (w : Word) : (s.writeM r w).second = s.second := rfl
@[simp] theorem State.writeM_first (s : State) (r : MReg) (w : Word) : (s.writeM r w).first = s.first := rfl
@[simp] theorem State.writeM_agenda (s : State) (r : MReg) (w : Word) : (s.writeM r w).agenda = s.agenda := rfl
@[simp] theorem State.writeM_backoff (s : State) (r : MReg) (w : Word) : (s.writeM r w).backoff = s.backoff := rfl
@[simp] theorem State.writeM_freeCtr (s : State) (r : MReg) (w : Word) : (s.writeM r w).freeCtr = s.freeCtr := rfl
@[simp] theorem State.writeM_ids (s : State) (r : MReg) (w : Word) : (s.writeM r w).ids = s.ids := rfl
@[simp] theorem State.writeM_slots (s : State) (r : MReg) (w : Word) : (s.writeM r w).slots = s.slots := rfl
@[simp] theorem State.writeM_cores (s : State) (r : MReg) (w : Word) : (s.writeM r w).cores = s.cores := rfl
@[simp] theorem State.writeM_shiptgt (s : State) (r : MReg) (w : Word) : (s.writeM r w).shiptgt = s.shiptgt := rfl
@[simp] theorem State.writeM_dies (s : State) (r : MReg) (w : Word) : (s.writeM r w).dies = s.dies := rfl
@[simp] theorem State.writeM_ctxs (s : State) (r : MReg) (w : Word) : (s.writeM r w).ctxs = s.ctxs := rfl
@[simp] theorem State.writeM_mem (s : State) (r : MReg) (w : Word) : (s.writeM r w).mem = s.mem := rfl
@[simp] theorem State.writeM_poison (s : State) (r : MReg) (w : Word) : (s.writeM r w).poison = s.poison := rfl
@[simp] theorem State.writeM_acc (s : State) (r : MReg) (w : Word) : (s.writeM r w).acc = s.acc := rfl
@[simp] theorem State.writeM_mct (s : State) (r : MReg) (w : Word) : (s.writeM r w).mct = s.mct := rfl
@[simp] theorem State.writeM_time (s : State) (r : MReg) (w : Word) : (s.writeM r w).time = s.time := rfl
@[simp] theorem State.writeM_mctbase (s : State) (r : MReg) (w : Word) : (s.writeM r w).mctbase = s.mctbase := rfl
@[simp] theorem State.writeM_pkg (s : State) (r : MReg) (w : Word) : (s.writeM r w).pkg = s.pkg := rfl
@[simp] theorem State.writeM_barriers (s : State) (r : MReg) (w : Word) : (s.writeM r w).barriers = s.barriers := rfl
@[simp] theorem State.writeM_pages (s : State) (r : MReg) (w : Word) : (s.writeM r w).pages = s.pages := rfl
@[simp] theorem State.writeM_homes (s : State) (r : MReg) (w : Word) : (s.writeM r w).homes = s.homes := rfl
@[simp] theorem State.writeM_caches (s : State) (r : MReg) (w : Word) : (s.writeM r w).caches = s.caches := rfl
@[simp] theorem State.writeM_waiters (s : State) (r : MReg) (w : Word) : (s.writeM r w).waiters = s.waiters := rfl
@[simp] theorem State.writeM_package (s : State) (r : MReg) (w : Word) : (s.writeM r w).package = s.package := rfl
@[simp] theorem State.writeM_spun (s : State) (r : MReg) (w : Word) : (s.writeM r w).spun = s.spun := rfl
@[simp] theorem State.writeM_duty (s : State) (r : MReg) (w : Word) : (s.writeM r w).duty = s.duty := rfl
@[simp] theorem State.writeM_fine (s : State) (r : MReg) (w : Word) : (s.writeM r w).fine = s.fine := rfl
@[simp] theorem State.writeM_forwards (s : State) (r : MReg) (w : Word) : (s.writeM r w).forwards = s.forwards := rfl
@[simp] theorem State.writeM_hco (s : State) (r : MReg) (w : Word) : (s.writeM r w).hco = s.hco := rfl
@[simp] theorem State.writeM_atHome (s : State) (r : MReg) (w : Word) : (s.writeM r w).atHome = s.atHome := rfl

/-! ## State.accrue -/

@[simp] theorem State.accrue_hotId (s : State) (n : Nat) : (s.accrue n).hotId = s.hotId := rfl
@[simp] theorem State.accrue_hot (s : State) (n : Nat) : (s.accrue n).hot = s.hot.accrue n := rfl
@[simp] theorem State.accrue_issuing (s : State) (n : Nat) : (s.accrue n).issuing = s.issuing := rfl
@[simp] theorem State.accrue_scan (s : State) (n : Nat) : (s.accrue n).scan = s.scan := rfl
@[simp] theorem State.accrue_second (s : State) (n : Nat) : (s.accrue n).second = s.second := rfl
@[simp] theorem State.accrue_first (s : State) (n : Nat) : (s.accrue n).first = s.first := rfl
@[simp] theorem State.accrue_agenda (s : State) (n : Nat) : (s.accrue n).agenda = s.agenda := rfl
@[simp] theorem State.accrue_backoff (s : State) (n : Nat) : (s.accrue n).backoff = s.backoff := rfl
@[simp] theorem State.accrue_freeCtr (s : State) (n : Nat) : (s.accrue n).freeCtr = s.freeCtr := rfl
@[simp] theorem State.accrue_ids (s : State) (n : Nat) : (s.accrue n).ids = s.ids := rfl
@[simp] theorem State.accrue_slots (s : State) (n : Nat) : (s.accrue n).slots = s.slots := rfl
@[simp] theorem State.accrue_cores (s : State) (n : Nat) : (s.accrue n).cores = s.cores := rfl
@[simp] theorem State.accrue_shiptgt (s : State) (n : Nat) : (s.accrue n).shiptgt = s.shiptgt := rfl
@[simp] theorem State.accrue_dies (s : State) (n : Nat) : (s.accrue n).dies = s.dies := rfl
@[simp] theorem State.accrue_ctxs (s : State) (n : Nat) : (s.accrue n).ctxs = s.ctxs := rfl
@[simp] theorem State.accrue_mem (s : State) (n : Nat) : (s.accrue n).mem = s.mem := rfl
@[simp] theorem State.accrue_poison (s : State) (n : Nat) : (s.accrue n).poison = s.poison := rfl
@[simp] theorem State.accrue_acc (s : State) (n : Nat) : (s.accrue n).acc = s.acc := rfl
@[simp] theorem State.accrue_mct (s : State) (n : Nat) : (s.accrue n).mct = s.mct := rfl
@[simp] theorem State.accrue_time (s : State) (n : Nat) : (s.accrue n).time = s.time := rfl
@[simp] theorem State.accrue_mctbase (s : State) (n : Nat) : (s.accrue n).mctbase = s.mctbase := rfl
@[simp] theorem State.accrue_pkg (s : State) (n : Nat) : (s.accrue n).pkg = s.pkg := rfl
@[simp] theorem State.accrue_barriers (s : State) (n : Nat) : (s.accrue n).barriers = s.barriers := rfl
@[simp] theorem State.accrue_pages (s : State) (n : Nat) : (s.accrue n).pages = s.pages := rfl
@[simp] theorem State.accrue_homes (s : State) (n : Nat) : (s.accrue n).homes = s.homes := rfl
@[simp] theorem State.accrue_caches (s : State) (n : Nat) : (s.accrue n).caches = s.caches := rfl
@[simp] theorem State.accrue_waiters (s : State) (n : Nat) : (s.accrue n).waiters = s.waiters := rfl
@[simp] theorem State.accrue_package (s : State) (n : Nat) : (s.accrue n).package = s.package := rfl
@[simp] theorem State.accrue_spun (s : State) (n : Nat) : (s.accrue n).spun = s.spun := rfl
@[simp] theorem State.accrue_duty (s : State) (n : Nat) : (s.accrue n).duty = s.duty := rfl
@[simp] theorem State.accrue_fine (s : State) (n : Nat) : (s.accrue n).fine = s.fine := rfl
@[simp] theorem State.accrue_forwards (s : State) (n : Nat) : (s.accrue n).forwards = s.forwards := rfl
@[simp] theorem State.accrue_hco (s : State) (n : Nat) : (s.accrue n).hco = s.hco := rfl
@[simp] theorem State.accrue_atHome (s : State) (n : Nat) : (s.accrue n).atHome = s.atHome := rfl

/-! ## State.retireTo -/

@[simp] theorem State.retireTo_hotId (s : State) (w : Word) : (s.retireTo w).hotId = s.hotId := rfl
@[simp] theorem State.retireTo_hot (s : State) (w : Word) : (s.retireTo w).hot = { s.hot with pc := w, retired := s.hot.retired + 1, did := .done } := rfl
@[simp] theorem State.retireTo_issuing (s : State) (w : Word) : (s.retireTo w).issuing = s.issuing := rfl
@[simp] theorem State.retireTo_scan (s : State) (w : Word) : (s.retireTo w).scan = s.scan := rfl
@[simp] theorem State.retireTo_second (s : State) (w : Word) : (s.retireTo w).second = s.second := rfl
@[simp] theorem State.retireTo_first (s : State) (w : Word) : (s.retireTo w).first = s.first := rfl
@[simp] theorem State.retireTo_agenda (s : State) (w : Word) : (s.retireTo w).agenda = s.agenda := rfl
@[simp] theorem State.retireTo_backoff (s : State) (w : Word) : (s.retireTo w).backoff = s.backoff := rfl
@[simp] theorem State.retireTo_freeCtr (s : State) (w : Word) : (s.retireTo w).freeCtr = s.freeCtr := rfl
@[simp] theorem State.retireTo_ids (s : State) (w : Word) : (s.retireTo w).ids = s.ids := rfl
@[simp] theorem State.retireTo_slots (s : State) (w : Word) : (s.retireTo w).slots = s.slots := rfl
@[simp] theorem State.retireTo_cores (s : State) (w : Word) : (s.retireTo w).cores = s.cores := rfl
@[simp] theorem State.retireTo_shiptgt (s : State) (w : Word) : (s.retireTo w).shiptgt = s.shiptgt := rfl
@[simp] theorem State.retireTo_dies (s : State) (w : Word) : (s.retireTo w).dies = s.dies := rfl
@[simp] theorem State.retireTo_ctxs (s : State) (w : Word) : (s.retireTo w).ctxs = s.ctxs := rfl
@[simp] theorem State.retireTo_mem (s : State) (w : Word) : (s.retireTo w).mem = s.mem := rfl
@[simp] theorem State.retireTo_poison (s : State) (w : Word) : (s.retireTo w).poison = s.poison := rfl
@[simp] theorem State.retireTo_acc (s : State) (w : Word) : (s.retireTo w).acc = s.acc := rfl
@[simp] theorem State.retireTo_mct (s : State) (w : Word) : (s.retireTo w).mct = s.mct := rfl
@[simp] theorem State.retireTo_time (s : State) (w : Word) : (s.retireTo w).time = s.time := rfl
@[simp] theorem State.retireTo_mctbase (s : State) (w : Word) : (s.retireTo w).mctbase = s.mctbase := rfl
@[simp] theorem State.retireTo_pkg (s : State) (w : Word) : (s.retireTo w).pkg = s.pkg := rfl
@[simp] theorem State.retireTo_barriers (s : State) (w : Word) : (s.retireTo w).barriers = s.barriers := rfl
@[simp] theorem State.retireTo_pages (s : State) (w : Word) : (s.retireTo w).pages = s.pages := rfl
@[simp] theorem State.retireTo_homes (s : State) (w : Word) : (s.retireTo w).homes = s.homes := rfl
@[simp] theorem State.retireTo_caches (s : State) (w : Word) : (s.retireTo w).caches = s.caches := rfl
@[simp] theorem State.retireTo_waiters (s : State) (w : Word) : (s.retireTo w).waiters = s.waiters := rfl
@[simp] theorem State.retireTo_package (s : State) (w : Word) : (s.retireTo w).package = s.package := rfl
@[simp] theorem State.retireTo_spun (s : State) (w : Word) : (s.retireTo w).spun = s.spun := rfl
@[simp] theorem State.retireTo_duty (s : State) (w : Word) : (s.retireTo w).duty = s.duty := rfl
@[simp] theorem State.retireTo_fine (s : State) (w : Word) : (s.retireTo w).fine = s.fine := rfl
@[simp] theorem State.retireTo_forwards (s : State) (w : Word) : (s.retireTo w).forwards = s.forwards := rfl
@[simp] theorem State.retireTo_hco (s : State) (w : Word) : (s.retireTo w).hco = s.hco := rfl
@[simp] theorem State.retireTo_atHome (s : State) (w : Word) : (s.retireTo w).atHome = s.atHome := rfl

/-! ## State.retire -/

@[simp] theorem State.retire_hotId (s : State) : (s.retire).hotId = s.hotId := rfl
@[simp] theorem State.retire_hot (s : State) : (s.retire).hot = { s.hot with pc := s.hot.nxt, retired := s.hot.retired + 1, did := .done } := rfl
@[simp] theorem State.retire_issuing (s : State) : (s.retire).issuing = s.issuing := rfl
@[simp] theorem State.retire_scan (s : State) : (s.retire).scan = s.scan := rfl
@[simp] theorem State.retire_second (s : State) : (s.retire).second = s.second := rfl
@[simp] theorem State.retire_first (s : State) : (s.retire).first = s.first := rfl
@[simp] theorem State.retire_agenda (s : State) : (s.retire).agenda = s.agenda := rfl
@[simp] theorem State.retire_backoff (s : State) : (s.retire).backoff = s.backoff := rfl
@[simp] theorem State.retire_freeCtr (s : State) : (s.retire).freeCtr = s.freeCtr := rfl
@[simp] theorem State.retire_ids (s : State) : (s.retire).ids = s.ids := rfl
@[simp] theorem State.retire_slots (s : State) : (s.retire).slots = s.slots := rfl
@[simp] theorem State.retire_cores (s : State) : (s.retire).cores = s.cores := rfl
@[simp] theorem State.retire_shiptgt (s : State) : (s.retire).shiptgt = s.shiptgt := rfl
@[simp] theorem State.retire_dies (s : State) : (s.retire).dies = s.dies := rfl
@[simp] theorem State.retire_ctxs (s : State) : (s.retire).ctxs = s.ctxs := rfl
@[simp] theorem State.retire_mem (s : State) : (s.retire).mem = s.mem := rfl
@[simp] theorem State.retire_poison (s : State) : (s.retire).poison = s.poison := rfl
@[simp] theorem State.retire_acc (s : State) : (s.retire).acc = s.acc := rfl
@[simp] theorem State.retire_mct (s : State) : (s.retire).mct = s.mct := rfl
@[simp] theorem State.retire_time (s : State) : (s.retire).time = s.time := rfl
@[simp] theorem State.retire_mctbase (s : State) : (s.retire).mctbase = s.mctbase := rfl
@[simp] theorem State.retire_pkg (s : State) : (s.retire).pkg = s.pkg := rfl
@[simp] theorem State.retire_barriers (s : State) : (s.retire).barriers = s.barriers := rfl
@[simp] theorem State.retire_pages (s : State) : (s.retire).pages = s.pages := rfl
@[simp] theorem State.retire_homes (s : State) : (s.retire).homes = s.homes := rfl
@[simp] theorem State.retire_caches (s : State) : (s.retire).caches = s.caches := rfl
@[simp] theorem State.retire_waiters (s : State) : (s.retire).waiters = s.waiters := rfl
@[simp] theorem State.retire_package (s : State) : (s.retire).package = s.package := rfl
@[simp] theorem State.retire_spun (s : State) : (s.retire).spun = s.spun := rfl
@[simp] theorem State.retire_duty (s : State) : (s.retire).duty = s.duty := rfl
@[simp] theorem State.retire_fine (s : State) : (s.retire).fine = s.fine := rfl
@[simp] theorem State.retire_forwards (s : State) : (s.retire).forwards = s.forwards := rfl
@[simp] theorem State.retire_hco (s : State) : (s.retire).hco = s.hco := rfl
@[simp] theorem State.retire_atHome (s : State) : (s.retire).atHome = s.atHome := rfl

/-! ## State.stall -/

@[simp] theorem State.stall_hotId (s : State) : (s.stall).hotId = s.hotId := rfl
@[simp] theorem State.stall_hot (s : State) : (s.stall).hot = { s.hot with did := .stalled } := rfl
@[simp] theorem State.stall_issuing (s : State) : (s.stall).issuing = s.issuing := rfl
@[simp] theorem State.stall_scan (s : State) : (s.stall).scan = s.scan := rfl
@[simp] theorem State.stall_second (s : State) : (s.stall).second = s.second := rfl
@[simp] theorem State.stall_first (s : State) : (s.stall).first = s.first := rfl
@[simp] theorem State.stall_agenda (s : State) : (s.stall).agenda = s.agenda := rfl
@[simp] theorem State.stall_backoff (s : State) : (s.stall).backoff = s.backoff := rfl
@[simp] theorem State.stall_freeCtr (s : State) : (s.stall).freeCtr = s.freeCtr := rfl
@[simp] theorem State.stall_ids (s : State) : (s.stall).ids = s.ids := rfl
@[simp] theorem State.stall_slots (s : State) : (s.stall).slots = s.slots := rfl
@[simp] theorem State.stall_cores (s : State) : (s.stall).cores = s.cores := rfl
@[simp] theorem State.stall_shiptgt (s : State) : (s.stall).shiptgt = s.shiptgt := rfl
@[simp] theorem State.stall_dies (s : State) : (s.stall).dies = s.dies := rfl
@[simp] theorem State.stall_ctxs (s : State) : (s.stall).ctxs = s.ctxs := rfl
@[simp] theorem State.stall_mem (s : State) : (s.stall).mem = s.mem := rfl
@[simp] theorem State.stall_poison (s : State) : (s.stall).poison = s.poison := rfl
@[simp] theorem State.stall_acc (s : State) : (s.stall).acc = s.acc := rfl
@[simp] theorem State.stall_mct (s : State) : (s.stall).mct = s.mct := rfl
@[simp] theorem State.stall_time (s : State) : (s.stall).time = s.time := rfl
@[simp] theorem State.stall_mctbase (s : State) : (s.stall).mctbase = s.mctbase := rfl
@[simp] theorem State.stall_pkg (s : State) : (s.stall).pkg = s.pkg := rfl
@[simp] theorem State.stall_barriers (s : State) : (s.stall).barriers = s.barriers := rfl
@[simp] theorem State.stall_pages (s : State) : (s.stall).pages = s.pages := rfl
@[simp] theorem State.stall_homes (s : State) : (s.stall).homes = s.homes := rfl
@[simp] theorem State.stall_caches (s : State) : (s.stall).caches = s.caches := rfl
@[simp] theorem State.stall_waiters (s : State) : (s.stall).waiters = s.waiters := rfl
@[simp] theorem State.stall_package (s : State) : (s.stall).package = s.package := rfl
@[simp] theorem State.stall_spun (s : State) : (s.stall).spun = s.spun := rfl
@[simp] theorem State.stall_duty (s : State) : (s.stall).duty = s.duty := rfl
@[simp] theorem State.stall_fine (s : State) : (s.stall).fine = s.fine := rfl
@[simp] theorem State.stall_forwards (s : State) : (s.stall).forwards = s.forwards := rfl
@[simp] theorem State.stall_hco (s : State) : (s.stall).hco = s.hco := rfl
@[simp] theorem State.stall_atHome (s : State) : (s.stall).atHome = s.atHome := rfl

/-! ## State.clearTaken -/

@[simp] theorem State.clearTaken_hotId (s : State) (a : SSrc) : (s.clearTaken a).hotId = s.hotId := rfl
@[simp] theorem State.clearTaken_hot (s : State) (a : SSrc) : (s.clearTaken a).hot = { s.hot with taken := leaveTaken a s.hot.taken } := rfl
@[simp] theorem State.clearTaken_issuing (s : State) (a : SSrc) : (s.clearTaken a).issuing = s.issuing := rfl
@[simp] theorem State.clearTaken_scan (s : State) (a : SSrc) : (s.clearTaken a).scan = s.scan := rfl
@[simp] theorem State.clearTaken_second (s : State) (a : SSrc) : (s.clearTaken a).second = s.second := rfl
@[simp] theorem State.clearTaken_first (s : State) (a : SSrc) : (s.clearTaken a).first = s.first := rfl
@[simp] theorem State.clearTaken_agenda (s : State) (a : SSrc) : (s.clearTaken a).agenda = s.agenda := rfl
@[simp] theorem State.clearTaken_backoff (s : State) (a : SSrc) : (s.clearTaken a).backoff = s.backoff := rfl
@[simp] theorem State.clearTaken_freeCtr (s : State) (a : SSrc) : (s.clearTaken a).freeCtr = s.freeCtr := rfl
@[simp] theorem State.clearTaken_ids (s : State) (a : SSrc) : (s.clearTaken a).ids = s.ids := rfl
@[simp] theorem State.clearTaken_slots (s : State) (a : SSrc) : (s.clearTaken a).slots = s.slots := rfl
@[simp] theorem State.clearTaken_cores (s : State) (a : SSrc) : (s.clearTaken a).cores = s.cores := rfl
@[simp] theorem State.clearTaken_shiptgt (s : State) (a : SSrc) : (s.clearTaken a).shiptgt = s.shiptgt := rfl
@[simp] theorem State.clearTaken_dies (s : State) (a : SSrc) : (s.clearTaken a).dies = s.dies := rfl
@[simp] theorem State.clearTaken_ctxs (s : State) (a : SSrc) : (s.clearTaken a).ctxs = s.ctxs := rfl
@[simp] theorem State.clearTaken_mem (s : State) (a : SSrc) : (s.clearTaken a).mem = s.mem := rfl
@[simp] theorem State.clearTaken_poison (s : State) (a : SSrc) : (s.clearTaken a).poison = s.poison := rfl
@[simp] theorem State.clearTaken_acc (s : State) (a : SSrc) : (s.clearTaken a).acc = s.acc := rfl
@[simp] theorem State.clearTaken_mct (s : State) (a : SSrc) : (s.clearTaken a).mct = s.mct := rfl
@[simp] theorem State.clearTaken_time (s : State) (a : SSrc) : (s.clearTaken a).time = s.time := rfl
@[simp] theorem State.clearTaken_mctbase (s : State) (a : SSrc) : (s.clearTaken a).mctbase = s.mctbase := rfl
@[simp] theorem State.clearTaken_pkg (s : State) (a : SSrc) : (s.clearTaken a).pkg = s.pkg := rfl
@[simp] theorem State.clearTaken_barriers (s : State) (a : SSrc) : (s.clearTaken a).barriers = s.barriers := rfl
@[simp] theorem State.clearTaken_pages (s : State) (a : SSrc) : (s.clearTaken a).pages = s.pages := rfl
@[simp] theorem State.clearTaken_homes (s : State) (a : SSrc) : (s.clearTaken a).homes = s.homes := rfl
@[simp] theorem State.clearTaken_caches (s : State) (a : SSrc) : (s.clearTaken a).caches = s.caches := rfl
@[simp] theorem State.clearTaken_waiters (s : State) (a : SSrc) : (s.clearTaken a).waiters = s.waiters := rfl
@[simp] theorem State.clearTaken_package (s : State) (a : SSrc) : (s.clearTaken a).package = s.package := rfl
@[simp] theorem State.clearTaken_spun (s : State) (a : SSrc) : (s.clearTaken a).spun = s.spun := rfl
@[simp] theorem State.clearTaken_duty (s : State) (a : SSrc) : (s.clearTaken a).duty = s.duty := rfl
@[simp] theorem State.clearTaken_fine (s : State) (a : SSrc) : (s.clearTaken a).fine = s.fine := rfl
@[simp] theorem State.clearTaken_forwards (s : State) (a : SSrc) : (s.clearTaken a).forwards = s.forwards := rfl
@[simp] theorem State.clearTaken_hco (s : State) (a : SSrc) : (s.clearTaken a).hco = s.hco := rfl
@[simp] theorem State.clearTaken_atHome (s : State) (a : SSrc) : (s.clearTaken a).atHome = s.atHome := rfl

/-! ## State.trapReturn -/

@[simp] theorem State.trapReturn_hotId (s : State) : (s.trapReturn).hotId = s.hotId := rfl
@[simp] theorem State.trapReturn_issuing (s : State) : (s.trapReturn).issuing = s.issuing := rfl
@[simp] theorem State.trapReturn_scan (s : State) : (s.trapReturn).scan = s.scan := rfl
@[simp] theorem State.trapReturn_second (s : State) : (s.trapReturn).second = s.second := rfl
@[simp] theorem State.trapReturn_first (s : State) : (s.trapReturn).first = s.first := rfl
@[simp] theorem State.trapReturn_agenda (s : State) : (s.trapReturn).agenda = s.agenda := rfl
@[simp] theorem State.trapReturn_backoff (s : State) : (s.trapReturn).backoff = s.backoff := rfl
@[simp] theorem State.trapReturn_freeCtr (s : State) : (s.trapReturn).freeCtr = s.freeCtr := rfl
@[simp] theorem State.trapReturn_ids (s : State) : (s.trapReturn).ids = s.ids := rfl
@[simp] theorem State.trapReturn_slots (s : State) : (s.trapReturn).slots = s.slots := rfl
@[simp] theorem State.trapReturn_cores (s : State) : (s.trapReturn).cores = s.cores := rfl
@[simp] theorem State.trapReturn_shiptgt (s : State) : (s.trapReturn).shiptgt = s.shiptgt := rfl
@[simp] theorem State.trapReturn_dies (s : State) : (s.trapReturn).dies = s.dies := rfl
@[simp] theorem State.trapReturn_ctxs (s : State) : (s.trapReturn).ctxs = s.ctxs := rfl
@[simp] theorem State.trapReturn_mem (s : State) : (s.trapReturn).mem = s.mem := rfl
@[simp] theorem State.trapReturn_poison (s : State) : (s.trapReturn).poison = s.poison := rfl
@[simp] theorem State.trapReturn_acc (s : State) : (s.trapReturn).acc = s.acc := rfl
@[simp] theorem State.trapReturn_mct (s : State) : (s.trapReturn).mct = s.mct := rfl
@[simp] theorem State.trapReturn_time (s : State) : (s.trapReturn).time = s.time := rfl
@[simp] theorem State.trapReturn_mctbase (s : State) : (s.trapReturn).mctbase = s.mctbase := rfl
@[simp] theorem State.trapReturn_pkg (s : State) : (s.trapReturn).pkg = s.pkg := rfl
@[simp] theorem State.trapReturn_barriers (s : State) : (s.trapReturn).barriers = s.barriers := rfl
@[simp] theorem State.trapReturn_pages (s : State) : (s.trapReturn).pages = s.pages := rfl
@[simp] theorem State.trapReturn_homes (s : State) : (s.trapReturn).homes = s.homes := rfl
@[simp] theorem State.trapReturn_caches (s : State) : (s.trapReturn).caches = s.caches := rfl
@[simp] theorem State.trapReturn_waiters (s : State) : (s.trapReturn).waiters = s.waiters := rfl
@[simp] theorem State.trapReturn_package (s : State) : (s.trapReturn).package = s.package := rfl
@[simp] theorem State.trapReturn_spun (s : State) : (s.trapReturn).spun = s.spun := rfl
@[simp] theorem State.trapReturn_duty (s : State) : (s.trapReturn).duty = s.duty := rfl
@[simp] theorem State.trapReturn_fine (s : State) : (s.trapReturn).fine = s.fine := rfl
@[simp] theorem State.trapReturn_forwards (s : State) : (s.trapReturn).forwards = s.forwards := rfl
@[simp] theorem State.trapReturn_hco (s : State) : (s.trapReturn).hco = s.hco := rfl
@[simp] theorem State.trapReturn_atHome (s : State) : (s.trapReturn).atHome = s.atHome := rfl

/-! ## State.writeMem -/

@[simp] theorem State.writeMem_hotId (s : State) (a n x : Nat) : (s.writeMem a n x).hotId = s.hotId := rfl
@[simp] theorem State.writeMem_hot (s : State) (a n x : Nat) : (s.writeMem a n x).hot = s.hot := rfl
@[simp] theorem State.writeMem_issuing (s : State) (a n x : Nat) : (s.writeMem a n x).issuing = s.issuing := rfl
@[simp] theorem State.writeMem_scan (s : State) (a n x : Nat) : (s.writeMem a n x).scan = s.scan := rfl
@[simp] theorem State.writeMem_second (s : State) (a n x : Nat) : (s.writeMem a n x).second = s.second := rfl
@[simp] theorem State.writeMem_first (s : State) (a n x : Nat) : (s.writeMem a n x).first = s.first := rfl
@[simp] theorem State.writeMem_agenda (s : State) (a n x : Nat) : (s.writeMem a n x).agenda = s.agenda := rfl
@[simp] theorem State.writeMem_backoff (s : State) (a n x : Nat) : (s.writeMem a n x).backoff = s.backoff := rfl
@[simp] theorem State.writeMem_freeCtr (s : State) (a n x : Nat) : (s.writeMem a n x).freeCtr = s.freeCtr := rfl
@[simp] theorem State.writeMem_ids (s : State) (a n x : Nat) : (s.writeMem a n x).ids = s.ids := rfl
@[simp] theorem State.writeMem_slots (s : State) (a n x : Nat) : (s.writeMem a n x).slots = s.slots := rfl
@[simp] theorem State.writeMem_cores (s : State) (a n x : Nat) : (s.writeMem a n x).cores = s.cores := rfl
@[simp] theorem State.writeMem_shiptgt (s : State) (a n x : Nat) : (s.writeMem a n x).shiptgt = s.shiptgt := rfl
@[simp] theorem State.writeMem_dies (s : State) (a n x : Nat) : (s.writeMem a n x).dies = s.dies := rfl
@[simp] theorem State.writeMem_ctxs (s : State) (a n x : Nat) : (s.writeMem a n x).ctxs = s.ctxs := rfl
@[simp] theorem State.writeMem_mem (s : State) (a n x : Nat) : (s.writeMem a n x).mem = memWrite s.mem a (leBytes x n) := rfl
@[simp] theorem State.writeMem_poison (s : State) (a n x : Nat) : (s.writeMem a n x).poison = s.poison := rfl
@[simp] theorem State.writeMem_acc (s : State) (a n x : Nat) : (s.writeMem a n x).acc = s.acc := rfl
@[simp] theorem State.writeMem_mct (s : State) (a n x : Nat) : (s.writeMem a n x).mct = s.mct := rfl
@[simp] theorem State.writeMem_time (s : State) (a n x : Nat) : (s.writeMem a n x).time = s.time := rfl
@[simp] theorem State.writeMem_mctbase (s : State) (a n x : Nat) : (s.writeMem a n x).mctbase = s.mctbase := rfl
@[simp] theorem State.writeMem_pkg (s : State) (a n x : Nat) : (s.writeMem a n x).pkg = s.pkg := rfl
@[simp] theorem State.writeMem_barriers (s : State) (a n x : Nat) : (s.writeMem a n x).barriers = s.barriers := rfl
@[simp] theorem State.writeMem_pages (s : State) (a n x : Nat) : (s.writeMem a n x).pages = s.pages := rfl
@[simp] theorem State.writeMem_homes (s : State) (a n x : Nat) : (s.writeMem a n x).homes = s.homes := rfl
@[simp] theorem State.writeMem_caches (s : State) (a n x : Nat) : (s.writeMem a n x).caches = s.caches := rfl
@[simp] theorem State.writeMem_waiters (s : State) (a n x : Nat) : (s.writeMem a n x).waiters = s.waiters := rfl
@[simp] theorem State.writeMem_package (s : State) (a n x : Nat) : (s.writeMem a n x).package = s.package := rfl
@[simp] theorem State.writeMem_spun (s : State) (a n x : Nat) : (s.writeMem a n x).spun = s.spun := rfl
@[simp] theorem State.writeMem_duty (s : State) (a n x : Nat) : (s.writeMem a n x).duty = s.duty := rfl
@[simp] theorem State.writeMem_fine (s : State) (a n x : Nat) : (s.writeMem a n x).fine = s.fine := rfl
@[simp] theorem State.writeMem_forwards (s : State) (a n x : Nat) : (s.writeMem a n x).forwards = s.forwards := rfl
@[simp] theorem State.writeMem_hco (s : State) (a n x : Nat) : (s.writeMem a n x).hco = s.hco := rfl
@[simp] theorem State.writeMem_atHome (s : State) (a n x : Nat) : (s.writeMem a n x).atHome = s.atHome := rfl

/-! ## State.setSlot -/

@[simp] theorem State.setSlot_hotId (s : State) (k : Nat) (x : Slot) : (s.setSlot k x).hotId = s.hotId := by
  unfold State.setSlot; split <;> rfl
@[simp] theorem State.setSlot_issuing (s : State) (k : Nat) (x : Slot) : (s.setSlot k x).issuing = s.issuing := by
  unfold State.setSlot; split <;> rfl
@[simp] theorem State.setSlot_scan (s : State) (k : Nat) (x : Slot) : (s.setSlot k x).scan = s.scan := by
  unfold State.setSlot; split <;> rfl
@[simp] theorem State.setSlot_second (s : State) (k : Nat) (x : Slot) : (s.setSlot k x).second = s.second := by
  unfold State.setSlot; split <;> rfl
@[simp] theorem State.setSlot_first (s : State) (k : Nat) (x : Slot) : (s.setSlot k x).first = s.first := by
  unfold State.setSlot; split <;> rfl
@[simp] theorem State.setSlot_agenda (s : State) (k : Nat) (x : Slot) : (s.setSlot k x).agenda = s.agenda := by
  unfold State.setSlot; split <;> rfl
@[simp] theorem State.setSlot_backoff (s : State) (k : Nat) (x : Slot) : (s.setSlot k x).backoff = s.backoff := by
  unfold State.setSlot; split <;> rfl
@[simp] theorem State.setSlot_freeCtr (s : State) (k : Nat) (x : Slot) : (s.setSlot k x).freeCtr = s.freeCtr := by
  unfold State.setSlot; split <;> rfl
@[simp] theorem State.setSlot_ids (s : State) (k : Nat) (x : Slot) : (s.setSlot k x).ids = s.ids := by
  unfold State.setSlot; split <;> rfl
@[simp] theorem State.setSlot_cores (s : State) (k : Nat) (x : Slot) : (s.setSlot k x).cores = s.cores := by
  unfold State.setSlot; split <;> rfl
@[simp] theorem State.setSlot_shiptgt (s : State) (k : Nat) (x : Slot) : (s.setSlot k x).shiptgt = s.shiptgt := by
  unfold State.setSlot; split <;> rfl
@[simp] theorem State.setSlot_dies (s : State) (k : Nat) (x : Slot) : (s.setSlot k x).dies = s.dies := by
  unfold State.setSlot; split <;> rfl
@[simp] theorem State.setSlot_ctxs (s : State) (k : Nat) (x : Slot) : (s.setSlot k x).ctxs = s.ctxs := by
  unfold State.setSlot; split <;> rfl
@[simp] theorem State.setSlot_mem (s : State) (k : Nat) (x : Slot) : (s.setSlot k x).mem = s.mem := by
  unfold State.setSlot; split <;> rfl
@[simp] theorem State.setSlot_poison (s : State) (k : Nat) (x : Slot) : (s.setSlot k x).poison = s.poison := by
  unfold State.setSlot; split <;> rfl
@[simp] theorem State.setSlot_acc (s : State) (k : Nat) (x : Slot) : (s.setSlot k x).acc = s.acc := by
  unfold State.setSlot; split <;> rfl
@[simp] theorem State.setSlot_mct (s : State) (k : Nat) (x : Slot) : (s.setSlot k x).mct = s.mct := by
  unfold State.setSlot; split <;> rfl
@[simp] theorem State.setSlot_time (s : State) (k : Nat) (x : Slot) : (s.setSlot k x).time = s.time := by
  unfold State.setSlot; split <;> rfl
@[simp] theorem State.setSlot_mctbase (s : State) (k : Nat) (x : Slot) : (s.setSlot k x).mctbase = s.mctbase := by
  unfold State.setSlot; split <;> rfl
@[simp] theorem State.setSlot_pkg (s : State) (k : Nat) (x : Slot) : (s.setSlot k x).pkg = s.pkg := by
  unfold State.setSlot; split <;> rfl
@[simp] theorem State.setSlot_barriers (s : State) (k : Nat) (x : Slot) : (s.setSlot k x).barriers = s.barriers := by
  unfold State.setSlot; split <;> rfl
@[simp] theorem State.setSlot_pages (s : State) (k : Nat) (x : Slot) : (s.setSlot k x).pages = s.pages := by
  unfold State.setSlot; split <;> rfl
@[simp] theorem State.setSlot_homes (s : State) (k : Nat) (x : Slot) : (s.setSlot k x).homes = s.homes := by
  unfold State.setSlot; split <;> rfl
@[simp] theorem State.setSlot_caches (s : State) (k : Nat) (x : Slot) : (s.setSlot k x).caches = s.caches := by
  unfold State.setSlot; split <;> rfl
@[simp] theorem State.setSlot_waiters (s : State) (k : Nat) (x : Slot) : (s.setSlot k x).waiters = s.waiters := by
  unfold State.setSlot; split <;> rfl
@[simp] theorem State.setSlot_package (s : State) (k : Nat) (x : Slot) : (s.setSlot k x).package = s.package := by
  unfold State.setSlot; split <;> rfl
@[simp] theorem State.setSlot_spun (s : State) (k : Nat) (x : Slot) : (s.setSlot k x).spun = s.spun := by
  unfold State.setSlot; split <;> rfl
@[simp] theorem State.setSlot_duty (s : State) (k : Nat) (x : Slot) : (s.setSlot k x).duty = s.duty := by
  unfold State.setSlot; split <;> rfl
@[simp] theorem State.setSlot_fine (s : State) (k : Nat) (x : Slot) : (s.setSlot k x).fine = s.fine := by
  unfold State.setSlot; split <;> rfl
@[simp] theorem State.setSlot_forwards (s : State) (k : Nat) (x : Slot) : (s.setSlot k x).forwards = s.forwards := by
  unfold State.setSlot; split <;> rfl
@[simp] theorem State.setSlot_hco (s : State) (k : Nat) (x : Slot) : (s.setSlot k x).hco = s.hco := by
  unfold State.setSlot; split <;> rfl
@[simp] theorem State.setSlot_atHome (s : State) (k : Nat) (x : Slot) : (s.setSlot k x).atHome = s.atHome := by
  unfold State.setSlot; split <;> rfl

/-! ## State.focus -/

@[simp] theorem State.focus_issuing (s : State) (k : Nat) : (s.focus k).issuing = s.issuing := by
  unfold State.focus; split <;> rfl
@[simp] theorem State.focus_scan (s : State) (k : Nat) : (s.focus k).scan = s.scan := by
  unfold State.focus; split <;> rfl
@[simp] theorem State.focus_second (s : State) (k : Nat) : (s.focus k).second = s.second := by
  unfold State.focus; split <;> rfl
@[simp] theorem State.focus_first (s : State) (k : Nat) : (s.focus k).first = s.first := by
  unfold State.focus; split <;> rfl
@[simp] theorem State.focus_agenda (s : State) (k : Nat) : (s.focus k).agenda = s.agenda := by
  unfold State.focus; split <;> rfl
@[simp] theorem State.focus_backoff (s : State) (k : Nat) : (s.focus k).backoff = s.backoff := by
  unfold State.focus; split <;> rfl
@[simp] theorem State.focus_freeCtr (s : State) (k : Nat) : (s.focus k).freeCtr = s.freeCtr := by
  unfold State.focus; split <;> rfl
@[simp] theorem State.focus_ids (s : State) (k : Nat) : (s.focus k).ids = s.ids := by
  unfold State.focus; split <;> rfl
@[simp] theorem State.focus_cores (s : State) (k : Nat) : (s.focus k).cores = s.cores := by
  unfold State.focus; split <;> rfl
@[simp] theorem State.focus_shiptgt (s : State) (k : Nat) : (s.focus k).shiptgt = s.shiptgt := by
  unfold State.focus; split <;> rfl
@[simp] theorem State.focus_dies (s : State) (k : Nat) : (s.focus k).dies = s.dies := by
  unfold State.focus; split <;> rfl
@[simp] theorem State.focus_ctxs (s : State) (k : Nat) : (s.focus k).ctxs = s.ctxs := by
  unfold State.focus; split <;> rfl
@[simp] theorem State.focus_mem (s : State) (k : Nat) : (s.focus k).mem = s.mem := by
  unfold State.focus; split <;> rfl
@[simp] theorem State.focus_poison (s : State) (k : Nat) : (s.focus k).poison = s.poison := by
  unfold State.focus; split <;> rfl
@[simp] theorem State.focus_acc (s : State) (k : Nat) : (s.focus k).acc = s.acc := by
  unfold State.focus; split <;> rfl
@[simp] theorem State.focus_mct (s : State) (k : Nat) : (s.focus k).mct = s.mct := by
  unfold State.focus; split <;> rfl
@[simp] theorem State.focus_time (s : State) (k : Nat) : (s.focus k).time = s.time := by
  unfold State.focus; split <;> rfl
@[simp] theorem State.focus_mctbase (s : State) (k : Nat) : (s.focus k).mctbase = s.mctbase := by
  unfold State.focus; split <;> rfl
@[simp] theorem State.focus_pkg (s : State) (k : Nat) : (s.focus k).pkg = s.pkg := by
  unfold State.focus; split <;> rfl
@[simp] theorem State.focus_barriers (s : State) (k : Nat) : (s.focus k).barriers = s.barriers := by
  unfold State.focus; split <;> rfl
@[simp] theorem State.focus_pages (s : State) (k : Nat) : (s.focus k).pages = s.pages := by
  unfold State.focus; split <;> rfl
@[simp] theorem State.focus_homes (s : State) (k : Nat) : (s.focus k).homes = s.homes := by
  unfold State.focus; split <;> rfl
@[simp] theorem State.focus_caches (s : State) (k : Nat) : (s.focus k).caches = s.caches := by
  unfold State.focus; split <;> rfl
@[simp] theorem State.focus_waiters (s : State) (k : Nat) : (s.focus k).waiters = s.waiters := by
  unfold State.focus; split <;> rfl
@[simp] theorem State.focus_package (s : State) (k : Nat) : (s.focus k).package = s.package := by
  unfold State.focus; split <;> rfl
@[simp] theorem State.focus_spun (s : State) (k : Nat) : (s.focus k).spun = s.spun := by
  unfold State.focus; split <;> rfl
@[simp] theorem State.focus_duty (s : State) (k : Nat) : (s.focus k).duty = s.duty := by
  unfold State.focus; split <;> rfl
@[simp] theorem State.focus_fine (s : State) (k : Nat) : (s.focus k).fine = s.fine := by
  unfold State.focus; split <;> rfl
@[simp] theorem State.focus_forwards (s : State) (k : Nat) : (s.focus k).forwards = s.forwards := by
  unfold State.focus; split <;> rfl
@[simp] theorem State.focus_hco (s : State) (k : Nat) : (s.focus k).hco = s.hco := by
  unfold State.focus; split <;> rfl
@[simp] theorem State.focus_atHome (s : State) (k : Nat) : (s.focus k).atHome = s.atHome := by
  unfold State.focus; split <;> rfl

end Sys2Proof.Machine
end

