-- ==== Sys2Proof/Laws/Table.lean ====
section
/-!
SUPPORT. What keyed tables and memory answer after an update, and that every memory operation keeps the canonical form:
read after write, writes elsewhere, the form after each of the ways in which memory is written.
-/
namespace Sys2Proof.Machine

/-! ## Keyed tables -/

/-- A key reads as it was last set, and every other key as before. -/
theorem tabGet_tabSet {V : Type} (d : V) (t : List (Nat × V)) (x z : Nat) (y : V) :
    tabGet d (tabSet t x y) z = if z = x then y else tabGet d t z := by
  induction t with
  | nil => simp only [tabSet, tabGet]; split_ifs <;> first | rfl | omega
  | cons a t ih =>
    obtain ⟨k, v⟩ := a
    simp only [tabSet, tabGet]
    split_ifs <;> simp_all [tabGet] <;> (try split_ifs) <;> first | rfl | omega

@[simp] theorem tabGet_tabSet_self {V : Type} (d : V) (t : List (Nat × V)) (x : Nat) (y : V) :
    tabGet d (tabSet t x y) x = y := by simp [tabGet_tabSet]

theorem tabGet_tabSet_ne {V : Type} (d : V) (t : List (Nat × V)) {x z : Nat} (y : V) (h : z ≠ x) :
    tabGet d (tabSet t x y) z = tabGet d t z := by simp [tabGet_tabSet, h]

/-- Keys rise strictly. -/
def tabWf {V : Type} (t : List (Nat × V)) : Prop := t.Pairwise (fun a b => a.1 < b.1)

/-- A key below every listed key is not listed. -/
theorem tabGet_below {V : Type} (d : V) (t : List (Nat × V)) (z : Nat) (h : ∀ a ∈ t, z < a.1) : tabGet d t z = d := by
  cases t with
  | nil => rfl
  | cons a t =>
    have := h a (by simp)
    simp only [tabGet]; split_ifs <;> first | rfl | omega

/-- An erased key reads as the default, and every other key as before. -/
theorem tabGet_tabErase {V : Type} (d : V) (t : List (Nat × V)) (x z : Nat) (h : tabWf t) :
    tabGet d (tabErase t x) z = if z = x then d else tabGet d t z := by
  induction t with
  | nil => simp [tabErase, tabGet]
  | cons a t ih =>
    obtain ⟨k, v⟩ := a
    have hk : ∀ b ∈ t, k < b.1 := by simpa using (List.pairwise_cons.mp h).1
    have ih := ih (List.pairwise_cons.mp h).2
    have low : z ≤ k → tabGet d t z = d := fun hz => tabGet_below d t z fun b hb => lt_of_le_of_lt hz (hk b hb)
    simp only [tabErase, tabGet]
    split_ifs <;> simp_all [tabGet]

theorem mem_tabSet {V : Type} {t : List (Nat × V)} {x : Nat} {y : V} {a : Nat × V} (h : a ∈ tabSet t x y) :
    a = (x, y) ∨ a ∈ t := by
  induction t with
  | nil => simpa [tabSet] using h
  | cons b t ih =>
    simp only [tabSet] at h
    split_ifs at h <;> simp only [List.mem_cons] at h ⊢ <;> tauto

theorem tabWf_tabSet {V : Type} (t : List (Nat × V)) (x : Nat) (y : V) (h : tabWf t) : tabWf (tabSet t x y) := by
  induction t with
  | nil => simp [tabSet, tabWf]
  | cons a t ih =>
    obtain ⟨k, v⟩ := a
    have hk := (List.pairwise_cons.mp h).1
    have ht := (List.pairwise_cons.mp h).2
    simp only [tabSet]
    split_ifs with h1 h2
    · refine List.pairwise_cons.mpr ⟨fun b hb => ?_, ih ht⟩
      rcases mem_tabSet hb with rfl | hb
      · exact h1
      · exact hk b hb
    · subst h2; exact List.pairwise_cons.mpr ⟨hk, ht⟩
    · refine List.pairwise_cons.mpr ⟨fun b hb => ?_, h⟩
      have hlt : x < k := by omega
      rcases List.mem_cons.mp hb with rfl | hb
      · exact hlt
      · exact lt_trans hlt (hk b hb)

theorem tabErase_sublist {V : Type} (t : List (Nat × V)) (x : Nat) : (tabErase t x).Sublist t := by
  induction t with
  | nil => simp [tabErase]
  | cons a t ih =>
    obtain ⟨k, v⟩ := a
    simp only [tabErase]
    split_ifs
    · exact ih.cons_cons _
    · exact List.sublist_cons_self _ _
    · exact List.Sublist.refl _

theorem tabWf_tabErase {V : Type} (t : List (Nat × V)) (x : Nat) (h : tabWf t) : tabWf (tabErase t x) :=
  h.sublist (tabErase_sublist t x)

/-! ## Units -/

@[simp] theorem State.getCore_setCore (s : State) (k z : Nat) (c : Core) :
    (s.setCore k c).getCore z = if z = k then c else s.getCore z := by
  simp [State.getCore, State.setCore, tabGet_tabSet]

@[simp] theorem State.getDie_setDie (s : State) (d z : Nat) (x : Die) :
    (s.setDie d x).getDie z = if z = d then x else s.getDie z := by
  simp [State.getDie, State.setDie, tabGet_tabSet]

@[simp] theorem State.getCtx_setCtx (s : State) (c z : Nat) (x : Context) :
    (s.setCtx c x).getCtx z = if z = c then x else s.getCtx z := by
  simp [State.getCtx, State.setCtx, tabGet_tabSet]

@[simp] theorem State.getSlot_setSlot (s : State) (k z : Nat) (x : Slot) :
    (s.setSlot k x).getSlot z = if z = k then x else s.getSlot z := by
  unfold State.setSlot State.getSlot
  by_cases hk : k = s.hotId
  · subst hk; simp only [if_true]; by_cases hz : z = s.hotId <;> simp [hz]
  · by_cases hz : z = s.hotId
    · subst hz; simp [hk, Ne.symm hk]
    · simp [hk, hz, tabGet_tabSet]

/-- Which slot is the executing one makes no difference to what a slot holds. -/
@[simp] theorem State.getSlot_focus (s : State) (k z : Nat) : (s.focus k).getSlot z = s.getSlot z := by
  unfold State.focus State.getSlot
  by_cases hk : k = s.hotId
  · simp [hk]
  · by_cases hz : z = k
    · subst hz; simp [hk]
    · by_cases h : z = s.hotId
      · subst h; simp [hk, hz]
      · simp [hk, hz, h, tabGet_tabSet]

/-! ## The canonical form of memory -/

/-- The form says: addresses rise strictly, and no entry is what an unlisted byte reads as. -/
theorem memWf_iff (m : List Host.Cell) : memWf m = true ↔ tabWf m ∧ ∀ c ∈ m, c.2 ≠ 0#8 := by
  induction m with
  | nil => simp [memWf, tabWf]
  | cons a t ih =>
    cases t with
    | nil => simp [memWf, tabWf]
    | cons b t =>
      obtain ⟨a, x⟩ := a
      obtain ⟨b, y⟩ := b
      have step : memWf ((a, x) :: (b, y) :: t) = true ↔ x ≠ 0#8 ∧ a < b ∧ memWf ((b, y) :: t) = true := by
        simp [memWf, and_assoc]
      rw [step, ih]
      constructor
      · rintro ⟨hx, hab, hw, hn⟩
        refine ⟨List.pairwise_cons.mpr ⟨fun c hc => ?_, hw⟩, fun c hc => ?_⟩
        · rcases List.mem_cons.mp hc with rfl | hc
          · exact hab
          · exact lt_trans hab ((List.pairwise_cons.mp hw).1 c hc)
        · rcases List.mem_cons.mp hc with rfl | hc
          · exact hx
          · exact hn c hc
      · rintro ⟨hw, hn⟩
        exact ⟨hn (a, x) (by simp), (List.pairwise_cons.mp hw).1 (b, y) (by simp), (List.pairwise_cons.mp hw).2,
          fun c hc => hn c (List.mem_cons_of_mem _ hc)⟩

theorem memWf_tab {m : List Host.Cell} (h : memWf m = true) : tabWf m := ((memWf_iff m).mp h).1

theorem memWf_nil : memWf [] = true := rfl

theorem memSet_wf (m : List Host.Cell) (a : Nat) (b : Byte) (h : memWf m = true) : memWf (memSet m a b) = true := by
  obtain ⟨hw, hn⟩ := (memWf_iff m).mp h
  unfold memSet
  split_ifs with hb
  · exact (memWf_iff _).mpr ⟨tabWf_tabErase m a hw, fun c hc => hn c ((tabErase_sublist m a).subset hc)⟩
  · refine (memWf_iff _).mpr ⟨tabWf_tabSet m a b hw, fun c hc => ?_⟩
    rcases mem_tabSet hc with rfl | hc
    · exact hb
    · exact hn c hc

theorem memWrite_wf (bs : List Byte) (m : List Host.Cell) (a : Nat) (h : memWf m = true) : memWf (memWrite m a bs) = true := by
  induction bs generalizing m a with
  | nil => exact h
  | cons b t ih => exact ih _ _ (memSet_wf m a b h)

theorem memScatter_wf (as : List Nat) (m : List Host.Cell) (bs : List Byte) (h : memWf m = true) :
    memWf (memScatter m as bs) = true := by
  induction as generalizing m bs with
  | nil => exact h
  | cons a as ih => cases bs with
    | nil => exact h
    | cons b bs => exact ih _ _ (memSet_wf m a b h)

theorem memFilter_wf (p : Host.Cell → Bool) (m : List Host.Cell) (h : memWf m = true) : memWf (m.filter p) = true := by
  obtain ⟨hw, hn⟩ := (memWf_iff m).mp h
  exact (memWf_iff _).mpr ⟨hw.sublist List.filter_sublist, fun c hc => hn c (List.mem_of_mem_filter hc)⟩

/-- Laying a list of cells over memory, byte by byte. -/
theorem memLay_wf (cells m : List Host.Cell) (h : memWf m = true) :
    memWf (cells.foldl (fun m (c : Host.Cell) => memSet m c.1 c.2) m) = true := by
  induction cells generalizing m with
  | nil => exact h
  | cons c t ih => exact ih _ (memSet_wf m c.1 c.2 h)

/-! ## What a byte reads as -/

/-- A written byte reads as written, and every other byte as before. -/
theorem memGet_memSet (m : List Host.Cell) (a c : Nat) (b : Byte) (h : memWf m = true) :
    memGet (memSet m a b) c = if c = a then b else memGet m c := by
  unfold memGet memSet
  split_ifs with hb hc hc
  · subst hc; rw [tabGet_tabErase _ _ _ _ (memWf_tab h)]; simp [hb]
  · rw [tabGet_tabErase _ _ _ _ (memWf_tab h)]; simp [hc]
  · subst hc; simp
  · exact tabGet_tabSet_ne _ _ _ hc

/-- Written bytes stand where they were written, and every other byte reads as before. -/
theorem memGet_memWrite (bs : List Byte) (m : List Host.Cell) (a c : Nat) (h : memWf m = true) :
    memGet (memWrite m a bs) c = if a ≤ c ∧ c < a + bs.length then bs.getD (c - a) 0 else memGet m c := by
  induction bs generalizing m a with
  | nil => simp [memWrite]
  | cons b t ih =>
    rw [memWrite, ih _ _ (memSet_wf m a b h), memGet_memSet _ _ _ _ h]
    simp only [List.length_cons]
    by_cases hc : c = a
    · subst hc; simp
    · by_cases h1 : a + 1 ≤ c ∧ c < a + 1 + t.length
      · rw [if_pos h1, if_pos (by omega)]
        obtain ⟨k, rfl⟩ : ∃ k, c = a + 1 + k := ⟨c - (a + 1), by omega⟩
        have e1 : a + 1 + k - (a + 1) = k := by omega
        have e2 : a + 1 + k - a = k + 1 := by omega
        rw [e1, e2]; rfl
      · rw [if_neg h1, if_neg hc, if_neg (by omega)]

@[simp] theorem memRead_length (m : List Host.Cell) (a n : Nat) : (memRead m a n).length = n := by
  induction n generalizing a with
  | zero => rfl
  | succ n ih => simp [memRead, ih]

theorem memRead_eq (m : List Host.Cell) (a n : Nat) : memRead m a n = (List.range n).map fun j => memGet m (a + j) := by
  induction n generalizing a with
  | zero => rfl
  | succ n ih =>
    rw [memRead, ih, List.range_succ_eq_map, List.map_cons, List.map_map]
    congr 1
    apply List.map_congr_left
    intro j _
    simp only [Function.comp]
    congr 1; omega

@[simp] theorem leBytes_length (x n : Nat) : (leBytes x n).length = n := by
  induction n generalizing x with
  | zero => rfl
  | succ n ih => simp [leBytes, ih]

/-- The little-endian bytes of a number give its value modulo 256^n back. -/
theorem leNat_leBytes (n x : Nat) : leNat (leBytes x n) = x % 256 ^ n := by
  induction n generalizing x with
  | zero => simp [leBytes, leNat, Nat.mod_one]
  | succ n ih =>
    have e : 256 ^ (n + 1) = 256 * 256 ^ n := by rw [Nat.pow_succ, Nat.mul_comm]
    rw [leBytes, leNat, ih, BitVec.toNat_ofNat, e, Nat.mod_mul]

/-- Reset memory lists nothing. -/
theorem reset_mem_wf : memWf State.reset.mem = true := rfl

end Sys2Proof.Machine
end

