-- ==== Sys2Proof/Laws/Memory.lean ====
section
/-!
SUPPORT. Every operation over physical memory keeps its canonical form: direct writes, accumulator lines, device registers,
stores at a place, cleaning, tables.
-/
namespace Sys2Proof.Machine

/-- The form is about memory only. -/
theorem State.memOk_of_mem {s t : State} (h : t.mem = s.mem) (hs : s.memOk) : t.memOk := by
  unfold State.memOk at *; rwa [h]

/-- A fold of operations each of which keeps memory keeps it. -/
theorem foldl_mem {α : Type} (f : State → α → State) (hf : ∀ s a, (f s a).mem = s.mem) (l : List α) (s : State) :
    (l.foldl f s).mem = s.mem := by
  induction l generalizing s with
  | nil => rfl
  | cons a t ih => rw [List.foldl_cons, ih, hf]

/-- A loss of poison changes nothing else. -/
theorem unpoison_eq (s : State) (written : List (Nat × Nat)) : ∃ p, s.unpoison written = { s with poison := p } := by
  unfold State.unpoison; split_ifs
  · exact ⟨s.poison, rfl⟩
  · exact ⟨_, rfl⟩

@[simp] theorem unpoison_mem (s : State) (written : List (Nat × Nat)) : (s.unpoison written).mem = s.mem := by
  obtain ⟨p, h⟩ := unpoison_eq s written; rw [h]

@[simp] theorem unpoison_hot (s : State) (written : List (Nat × Nat)) : (s.unpoison written).hot = s.hot := by
  obtain ⟨p, h⟩ := unpoison_eq s written; rw [h]

@[simp] theorem unpoisonStores_mem (s : State) (core : Nat) (rs : List StoreReq) : (s.unpoisonStores core rs).mem = s.mem := by
  unfold State.unpoisonStores; dsimp only; split_ifs <;> simp

@[simp] theorem unpoisonStores_hot (s : State) (core : Nat) (rs : List StoreReq) : (s.unpoisonStores core rs).hot = s.hot := by
  unfold State.unpoisonStores; dsimp only; split_ifs <;> simp

/-- A word is poisoned after bytes are laid over it where it was and they do not cover it, or where they come from a poisoned
word. -/
theorem mem_mixPoison (old : List Nat) (cells : List Host.Cell) (bad : List Nat) (w : Nat) :
    w ∈ mixPoison old cells bad ↔ (w ∈ old ∧ coversWord cells w = false) ∨ (w ∈ bad ∧ touchesWord cells w = true) := by
  simp only [mixPoison, List.mem_append, List.mem_filter, List.mem_dedup, Bool.and_eq_true, Bool.not_eq_true',
    List.contains_eq_mem, decide_eq_false_iff_not]
  tauto

/-- A direct write keeps the canonical form of memory. -/
theorem writeMem_memOk (s : State) (a n x : Nat) (h : s.memOk) : (s.writeMem a n x).memOk := memWrite_wf _ _ _ h

/-- Setting A and D in a PTE keeps the canonical form of memory. -/
theorem setAD_memOk (s : State) (l : Leaf) (w : Bool) (h : s.memOk) : (s.setAD l w).memOk := by
  unfold State.setAD; dsimp only; split_ifs <;> first | exact h | exact writeMem_memOk s _ _ _ h

/-! ## Accumulator lines -/

theorem clearSlots_memOk (s : State) (n a len k : Nat) (h : s.memOk) : (s.clearSlots n a len k).memOk := by
  induction k with
  | zero => exact h
  | succ k ih => exact writeMem_memOk _ _ _ _ ih

theorem combineElems_memOk (t : AccType) (n slots k : Nat) (s : State) (a : Nat) (h : s.memOk) :
    (s.combineElems t n slots a k).memOk := by
  induction k generalizing s a with
  | zero => exact h
  | succ k ih => exact ih _ _ (writeMem_memOk s _ _ _ h)

@[simp] theorem combinePoison_mem (s : State) (n line slots : Nat) : (s.combinePoison n line slots).mem = s.mem := by
  unfold State.combinePoison; split_ifs <;> rfl

theorem combine_memOk (s : State) (n line : Nat) (h : s.memOk) : (s.combine n line).memOk := by
  unfold State.combine
  split_ifs with h1
  · dsimp only
    split_ifs with h2
    · exact State.memOk_of_mem (combinePoison_mem _ _ _ _) (clearSlots_memOk _ _ _ _ _ (combineElems_memOk _ _ _ _ _ _ h))
    · exact h
  · exact h

theorem zeroLine_memOk (s : State) (n line slots : Nat) (h : s.memOk) : (s.zeroLine n line slots).memOk :=
  clearSlots_memOk _ _ _ _ _ (writeMem_memOk s _ _ _ h)

theorem storeAcc_memOk (s : State) (n pa : Nat) (bs : List Byte) (h : s.memOk) : (s.storeAcc n pa bs).memOk := by
  have w : ∀ t : State, t.memOk → State.memOk { t with mem := memWrite t.mem pa bs } := fun t ht => memWrite_wf _ _ _ ht
  unfold State.storeAcc
  dsimp only
  split_ifs <;>
    first
      | exact w _ h
      | exact w _ (combine_memOk _ _ _ h)
      | exact clearSlots_memOk _ _ _ _ _ (w _ h)
      | exact clearSlots_memOk _ _ _ _ _ (w _ (combine_memOk _ _ _ h))

/-! ## Device registers, and copies that software keeps -/

@[simp] theorem devWrite_mem (s : State) (who : Writer) (die off : Nat) (w : Word) : (s.devWrite who die off w).mem = s.mem := by
  unfold State.devWrite
  cases devReg die off with
  | none => rfl
  | some r =>
    dsimp only
    split_ifs
    · cases r <;> simp only [State.storeReg] <;> (try split_ifs) <;> simp
    · rfl

@[simp] theorem devBytesWrite_mem (s : State) (who : Writer) (die off : Nat) (bs : List Byte) :
    (s.devBytesWrite who die off bs).mem = s.mem := foldl_mem _ (fun _ _ => devWrite_mem ..) _ _

@[simp] theorem takeCopy_mem (s : State) (core : Nat) (p : Phys) : (s.takeCopy core p).mem = s.mem := by
  unfold State.takeCopy; dsimp only; split_ifs <;> simp

/-! ## A store at a place -/

theorem writePlace_memOk (s : State) (view : Option Nat) (who : Writer) (p : Phys) (bs : List Byte) (h : s.memOk) :
    (s.writePlace view who p bs).memOk := by
  have plain : (State.unpoison { s with mem := memWrite s.mem p.pa bs } [(p.pa, bs.length)]).memOk :=
    State.memOk_of_mem (unpoison_mem _ _) (memWrite_wf _ _ _ h)
  have copy : ∀ c, State.memOk ((s.takeCopy c p).setCore c
      { (s.takeCopy c p).getCore c with
        l1 := cellsWrite ((s.takeCopy c p).getCore c).l1 p.pa bs
        l1p := ((s.takeCopy c p).getCore c).l1p.filter fun w => !wordWritten [(p.pa, bs.length)] w }) := fun c =>
    State.memOk_of_mem (by simp) h
  unfold State.writePlace
  split
  · exact State.memOk_of_mem (unpoison_mem _ _) (storeAcc_memOk _ _ _ _ h)
  · split
    · exact State.memOk_of_mem (devBytesWrite_mem ..) h
    · exact plain
  · split
    · exact copy _
    · exact plain
  · split
    · exact copy _
    · exact plain
  · exact plain

/-! ## Cleaning -/

theorem writeHome_memOk (s : State) (cells : List Host.Cell) (bad : List Nat) (h : s.memOk) : (s.writeHome cells bad).memOk :=
  memLay_wf cells s.mem h

theorem cleanL2_memOk (s : State) (die line : Nat) (more : List Host.Cell) (bad : List Nat) (h : s.memOk) :
    (s.cleanL2 die line more bad).memOk :=
  writeHome_memOk _ _ _ (State.memOk_of_mem (by simp) h)

theorem cleanLine_memOk (s : State) (core : Nat) (p : Phys) (wide : Bool) (h : s.memOk) : (s.cleanLine core p wide).memOk := by
  unfold State.cleanLine
  dsimp only
  split_ifs
  · exact writeHome_memOk _ _ _ (State.memOk_of_mem (by simp) h)
  · exact cleanL2_memOk _ _ _ _ _ (State.memOk_of_mem (by simp) h)
  · exact State.memOk_of_mem (by simp) h

@[simp] theorem invalLine_mem (s : State) (core : Nat) (p : Phys) (wide : Bool) : (s.invalLine core p wide).mem = s.mem := by
  unfold State.invalLine; dsimp only; split_ifs <;> simp

/-! ## Tables -/

/-- A hardware write to a table keeps the canonical form of memory. -/
theorem tableWrite_memOk {s t : State} {c : Nat} {va : Word} {bs : List Byte} (h : s.memOk)
    (hw : s.tableWrite c va bs = some t) : t.memOk := by
  simp only [State.tableWrite, Option.map_eq_some_iff] at hw
  obtain ⟨l, -, rfl⟩ := hw
  suffices parts : ∀ (l : List (Leaf × Phys × Nat)) (bs : List Byte) (s : State), s.memOk → (s.tableWriteParts c bs l).memOk from
    parts _ _ _ h
  intro l
  induction l with
  | nil => intro _ _ h; exact h
  | cons a t ih => intro bs s h; exact ih _ _ (writePlace_memOk _ _ _ _ _ (setAD_memOk s _ _ h))

end Sys2Proof.Machine
end

