-- ==== Sys2Proof/Laws/Words.lean ====
section
/-!
SUPPORT. What the shared operations of the words can do, said once: register reads after writes, the ends of a word, an
exception raised, and the shared forms of integer words, branches, loads and stores.
-/
namespace Sys2Proof.Machine

/-! ## Registers -/

/-- The log of overwritten values is all that a logging changes. -/
theorem Slot.log_eq (x : Slot) (u : Undo) :
    x.log u = { x with history := if x.beforeShips x.order = true then x.history else x.logged (u) } := by
  unfold Slot.log; split_ifs <;> rfl

/-- A write of a `g` register: that register and the log; `g0` discards it. -/
theorem Slot.writeG_eq (x : Slot) (r : GReg) (w : Word) :
    x.writeG r w = if r = 0 then x else
      { x with
        g := x.g.set r.val w
        history := if x.beforeShips x.order = true then x.history else x.logged (.g r (x.getG r)) } := by
  unfold Slot.writeG
  split_ifs with h h2 <;> simp [Slot.log_eq, Slot.setG, *]

theorem Slot.writeV_eq (x : Slot) (r : VReg) (w : VWord) :
    x.writeV r w = { x with
      v := x.v.set r.val w
      history := if x.beforeShips x.order = true then x.history else x.logged (.v r (x.getV r)) } := by
  simp [Slot.writeV, Slot.log_eq, Slot.setV]

theorem Slot.writeM_eq (x : Slot) (r : MReg) (w : Word) :
    x.writeM r w = if r = 0 then x else
      { x with
        m := x.m.set r.val w
        history := if x.beforeShips x.order = true then x.history else x.logged (.m r (x.getM r)) } := by
  unfold Slot.writeM
  split_ifs with h h2 <;> simp [Slot.log_eq, Slot.setM, *]

/-- `g[r]` after a write of `g[d]`. -/
theorem Slot.getG_writeG (x : Slot) (d r : GReg) (w : Word) :
    (x.writeG d w).getG r = if r = 0 then 0 else if r = d then w else x.getG r := by
  rw [Slot.writeG_eq]
  by_cases hr : r = 0
  · simp [Slot.getG, hr]
  · by_cases hd : d = 0
    · have : r ≠ d := by rw [hd]; exact hr
      simp [Slot.getG, hr, hd]
    · by_cases h : r = d
      · subst h; simp [Slot.getG, hr]
      · have hv : d.val ≠ r.val := fun e => h (Fin.ext e.symm)
        simp [Slot.getG, hr, hd, h, Vector.getElem_set_ne, hv]

theorem Slot.getV_writeV (x : Slot) (d r : VReg) (w : VWord) :
    (x.writeV d w).getV r = if r = d then w else x.getV r := by
  rw [Slot.writeV_eq]
  by_cases h : r = d
  · subst h; simp [Slot.getV]
  · have hv : d.val ≠ r.val := fun e => h (Fin.ext e.symm)
    simp [Slot.getV, h, Vector.getElem_set_ne, hv]

theorem Slot.getM_writeM (x : Slot) (d r : MReg) (w : Word) :
    (x.writeM d w).getM r = if r = 0 then onesWord else if r = d then w else x.getM r := by
  rw [Slot.writeM_eq]
  by_cases hr : r = 0
  · simp [Slot.getM, hr]
  · by_cases hd : d = 0
    · have : r ≠ d := by rw [hd]; exact hr
      simp [Slot.getM, hr, hd]
    · by_cases h : r = d
      · subst h; simp [Slot.getM, hr]
      · have hv : d.val ≠ r.val := fun e => h (Fin.ext e.symm)
        simp [Slot.getM, hr, hd, h, Vector.getElem_set_ne, hv]

/-- `g0` reads as zero. -/
@[simp] theorem State.g_zero (s : State) : s.g 0 = 0 := by simp [State.g, Slot.getG]

/-- `m0` reads as all ones. -/
@[simp] theorem State.m_zero (s : State) : s.m 0 = onesWord := by simp [State.m, Slot.getM]

/-! ## The ends of a word -/

/-- A word that only moves control. -/
theorem retireTo_onlyMoves (s : State) (pc : Word) : onlyMoves s (.next (s.retireTo pc)) pc :=
  ⟨_, rfl, ⟨rfl, rfl, rfl⟩, rfl, rfl, fun _ => rfl⟩

theorem retire_onlyMoves (s : State) : onlyMoves s (.next s.retire) s.hot.nxt := retireTo_onlyMoves s s.hot.nxt

/-- A word that writes `g[d]` and goes on at `pc` changes nothing else. -/
theorem writeG_retireTo_writesG (s : State) (d : GReg) (x pc : Word) :
    writesG s (.next ((s.writeG d x).retireTo pc)) d x pc := by
  refine ⟨_, rfl, ?_, fun r hr => ?_, ?_, ?_, ?_, rfl, fun _ => rfl⟩
  · simp only [State.g, State.retireTo_hot, State.writeG_hot, Slot.getG]
    have h := Slot.getG_writeG s.hot d d x
    simp only [Slot.getG, if_true] at h
    by_cases hd : d = 0 <;> simp_all
  · have h := Slot.getG_writeG s.hot d r x
    by_cases h0 : r = 0
    · subst h0; simp
    · simp only [h0, hr, if_false] at h
      simpa [State.g, Slot.getG] using h
  · refine ⟨rfl, ?_, rfl⟩
    simp only [State.retireTo_hot, State.writeG_hot, Slot.writeG_eq]; split_ifs <;> rfl
  · simp only [State.logsG, State.g, State.retireTo_hot, State.writeG_hot, Slot.writeG_eq]; split_ifs <;> simp_all
  · simp only [Slot.sameButG, State.retireTo_hot, State.writeG_hot, Slot.writeG_eq]; split_ifs <;> rfl

/-- A word that writes one `g` register and does nothing else. -/
theorem gWord_writesG (s : State) (d : GReg) (x : Word) : writesG s (gWord d x s) d x s.hot.nxt := by
  have e : (s.writeG d x).hot.nxt = s.hot.nxt := by
    simp only [State.writeG_hot, Slot.writeG_eq]; split_ifs <;> rfl
  have h := writeG_retireTo_writesG s d x s.hot.nxt
  rwa [← e] at h ⊢

/-- A V word's whole effect where it writes one `v` register and nothing else. -/
theorem writeV_retire_writesV (s : State) (d : VReg) (x : VWord) : writesV s (.next (s.writeV d x).retire) d x s.hot.nxt := by
  refine ⟨_, rfl, ?_, fun r hr => ?_, ?_, ?_, ?_, rfl, fun _ => rfl⟩
  · simpa [State.v, Slot.getV] using Slot.getV_writeV s.hot d d x
  · simpa [State.v, Slot.getV, hr] using Slot.getV_writeV s.hot d r x
  · simp [Slot.completes, Slot.writeV_eq]
  · simp [State.v, Slot.writeV_eq]
  · simp [Slot.sameButV, Slot.writeV_eq]

/-- A branch goes to its target or to the following bundle. -/
theorem branchWord_onlyMoves (taken : Bool) (o : BitVec 14) (s : State) :
    onlyMoves s (branchWord taken o s) (if taken then target14 s.hot.wa o else s.hot.nxt) := by
  cases taken
  · exact retire_onlyMoves s
  · exact retireTo_onlyMoves s _

/-- An INT word on registers computes and writes. -/
theorem intWord_registers (d a : GReg) (op : Word → Word) (s : State) :
    intWord (.g d) (.g a) op s = .next (s.writeG d (op (s.g a))).retire := rfl

/-- Where nothing was taken nothing is given back. -/
theorem giveBack_nil (x : Slot) (h : x.taken = []) : x.giveBack = x := by
  cases x; simp only [Slot.giveBack] at *; subst h; simp [Slot.getQ]

/-- An INT word whose source queue is empty waits, and takes nothing. -/
theorem intWord_empty (d : SDst) (n : Fin 2) (op : Word → Word) (s : State) (ht : s.hot.taken = [])
    (hq : s.hot.getQ (sReads n) = []) : intWord d (.q n) op s = .next s.stall := by
  simp [intWord, State.takeSrc, ht, hq]

/-- An INT word whose destination queue is full waits, and keeps what it took. -/
theorem intWord_full (k : Fin 2) (a : GReg) (op : Word → Word) (s : State)
    (hq : queueDepth ≤ (s.hot.getQ (sWrites k)).length) : intWord (.q k) (.g a) op s = .next s.stall := by
  simp [intWord, State.takeSrc, State.putDst, hq]

/-! ## Exceptions -/

/-- A raised exception waits behind an older shipped word, and is else delivered. -/
theorem raiseAt_eq (s : State) (pc : Word) (c : Cause) (detail : Nat) (value : Word) :
    s.raiseAt pc c detail value =
      if s.hot.shipping = true then { s with hot := { s.hot with heldTrap := some ⟨c.code, detail, false, value, pc, 0⟩, did := .trapped } }
      else s.deliver s.hotId ⟨c.code, detail, false, value, pc, 0⟩ := rfl

/-- Delivery at the executing slot: the user trap, or the fault path. -/
theorem deliver_hot (s : State) (e : Exc) :
    let x := s.hot.endCapture.giveBack
    s.deliver s.hotId e =
      if x.admitsTrap e.cause then { s with hot := x.enterTrap e }
      else { s with
        hot := { x with phase := .faulting e, did := .trapped }
        agenda := s.agenda ++ [.faultPath s.hotId] } := by
  simp only [State.deliver, State.getSlot, if_true]
  split_ifs <;> simp [State.setSlot, State.post]

/-- Delivery changes no byte of memory. -/
theorem deliver_mem (s : State) (k : Nat) (e : Exc) : (s.deliver k e).mem = s.mem := by
  unfold State.deliver; dsimp only; split_ifs <;> simp

/-- A raised exception changes no byte of memory. -/
theorem raise_mem (s : State) (c : Cause) (detail : Nat) (value : Word) : (s.raise c detail value).mem = s.mem := by
  simp only [State.raise, raiseAt_eq]; split_ifs
  · rfl
  · exact deliver_mem ..

/-! ## Loads and stores -/

/-- A load whose check finds a fault raises it. -/
theorem loadElems_fault {es : List (Nat × Elem)} {k : State → List Byte → State} {s s1 : State} {f : AccFault}
    {ps : List (Phys × Elem)} (h : s.checkAll s.me s.die .load es = (s1, some f, ps)) :
    loadElems es k s = .next (s1.accessFault f) := by simp [loadElems, h]

/-- A load waits for an update or a shipped access to its bytes. -/
theorem loadElems_waits {es : List (Nat × Elem)} {k : State → List Byte → State} {s s1 : State} {ps : List (Phys × Elem)}
    (h : s.checkAll s.me s.die .load es = (s1, none, ps)) (hw : s1.loadWaits ps = true) :
    loadElems es k s = .next s1.stall := by simp [loadElems, h, hw]

/-- A load reads its bytes, and its word ends. -/
theorem loadElems_reads {es : List (Nat × Elem)} {k : State → List Byte → State} {s s1 s2 : State} {ps : List (Phys × Elem)}
    {bs : List Byte} (h : s.checkAll s.me s.die .load es = (s1, none, ps)) (hw : s1.loadWaits ps = false)
    (hit : s1.loadsHit ps = true) (hr : s1.readAll (some s1.core) ps = (s2, bs)) :
    loadElems es k s = .next (k s2 bs).retire := by
  simp [loadElems, h, hw, hit, hr]

/-- A load that misses asks for its lines and waits. -/
theorem loadElems_misses {es : List (Nat × Elem)} {k : State → List Byte → State} {s s1 : State} {ps : List (Phys × Elem)}
    (h : s.checkAll s.me s.die .load es = (s1, none, ps)) (hw : s1.loadWaits ps = false) (hit : s1.loadsHit ps = false) :
    loadElems es k s = .next (s1.askLoads ps).stall := by simp [loadElems, h, hw, hit]

/-- A store whose check finds a fault raises it. -/
theorem storeElems_fault {es : List (Nat × Elem)} {bs : List Byte} {s s1 : State} {f : AccFault} {ps : List (Phys × Elem)}
    (h : s.checkAll s.me s.die .store es = (s1, some f, ps)) : storeElems es bs s = .next (s1.accessFault f) := by
  simp [storeElems, h]

/-- A store waits for an update to its bytes. -/
theorem storeElems_waits {es : List (Nat × Elem)} {bs : List Byte} {s s1 : State} {ps : List (Phys × Elem)}
    (h : s.checkAll s.me s.die .store es = (s1, none, ps)) (hw : s1.storeWaits ps = true) :
    storeElems es bs s = .next s1.stall := by simp [storeElems, h, hw]

/-- A store is issued, and its word ends. -/
theorem storeElems_issues {es : List (Nat × Elem)} {bs : List Byte} {s s1 : State} {ps : List (Phys × Elem)}
    (h : s.checkAll s.me s.die .store es = (s1, none, ps)) (hw : s1.storeWaits ps = false) (hit : s1.storesHit ps = true) :
    storeElems es bs s = .next (s1.issueStores (storeReqs ps bs)).retire := by simp [storeElems, h, hw, hit]

/-- A store that misses asks for its lines and waits. -/
theorem storeElems_misses {es : List (Nat × Elem)} {bs : List Byte} {s s1 : State} {ps : List (Phys × Elem)}
    (h : s.checkAll s.me s.die .store es = (s1, none, ps)) (hw : s1.storeWaits ps = false) (hit : s1.storesHit ps = false) :
    storeElems es bs s = .next (s1.askStores ps).stall := by simp [storeElems, h, hw, hit]

/-- Bytes that a slot or a unit sees are memory's where no store is held and the class is not software-managed. -/
theorem seeByte_memory (s : State) (view : Option Nat) (kind : MemKind) (pa : Nat) (hk : kind.bySoftware = false)
    (hh : s.hot.held = []) : s.seeByte view kind pa = memGet s.mem pa := by
  cases view <;> simp [State.seeByte, heldByte, hh, hk]

end Sys2Proof.Machine
end

