-- ==== Sys2Proof/Tests/Slice0.lean ====
section
/-!
SUPPORT. Tests of the model: ill-formed terms that the checks refuse, words written out from the encoding tables, worked
examples of the spec, one step, and for the statements with hypotheses states and operands that meet them. Each
theorem is about one small state, or one word.
-/
namespace Sys2Proof.Tests

/- One theorem is checked at a time: the many that wait for one another would each hold a thread. -/
set_option Elab.async false

open Sys2Proof Sys2Proof.Machine

/-! ## WellFormed: an ill-formed term for each check, which the check refuses -/

/-- An event has no word (R187). -/
theorem test_wf_event_has_no_word : Instr.wf .issueCycle = false := by decide
/-- A payload past `g31` (R288). -/
theorem test_wf_payload_past_g31 : Instr.wf (.send 8 9 20 13) = false := by decide
/-- No payload, and a payload register other than zero (R288). -/
theorem test_wf_payload_register_unused : Instr.wf (.send 8 9 1 0) = false := by decide
theorem test_wf_spawn_payload : Instr.wf (.spawn 8 9 10 31 2) = false := by decide
theorem test_wf_launch_payload : Instr.wf (.launch 8 9 10 31 2) = false := by decide
/-- A payload that ends at `g31` is legal. -/
theorem test_wf_payload_to_g31 : Instr.wf (.send 8 9 20 12) = true := by decide
/-- Barrier scopes core and sys (R424, detail 5). -/
theorem test_wf_bara_core_scope : Instr.wf (.bara 8 9 .core) = false := by decide
theorem test_wf_bara_sys_scope : Instr.wf (.bara 8 9 .sys) = false := by decide
theorem test_wf_barw_core_scope : Instr.wf (.barw 8 9 10 .core) = false := by decide
theorem test_wf_barw_sys_scope : Instr.wf (.barw 8 9 10 .sys) = false := by decide
/-- `BARW` with rd and gS the same register other than `g0` (R424, detail 7). -/
theorem test_wf_barw_same_register : Instr.wf (.barw 8 9 8 .die) = false := by decide
theorem test_wf_barw_g0_twice : Instr.wf (.barw 0 9 0 .die) = true := by decide
/-- `SEL` to a queue (R191). -/
theorem test_wf_sel_to_queue : Instr.wf (.sel (.q 0) (.g 8) 9) = false := by decide
/-- Fields past bit 63 (R192). -/
theorem test_wf_exts_past_63 : Instr.wf (.exts 8 9 60 4) = false := by decide
theorem test_wf_extz_past_63 : Instr.wf (.extz 8 9 63 1) = false := by decide
theorem test_wf_ins_past_63 : Instr.wf (.ins 8 9 1 63) = false := by decide
theorem test_wf_exts_to_63 : Instr.wf (.exts 8 9 60 3) = true := by decide

/-! ## Words written out from the encoding tables (R163 to R170, R187 to R323) -/

/-- The word, with bit 30 as printed, reads as the instruction, and the encoder writes it back with bit 30 clear. -/
def reads (w : Nat) (i : Instr) : Bool :=
  decide (decodeWord w = .ok i) && decide (encode i = some (w - w / 2 ^ 30 % 2 * 2 ^ 30))

theorem test_word_ldd_pair : reads 0x0648C010 (.ldd 9 3 16) = true := by decide +kernel
theorem test_word_fadd_s_rne : reads 0x9052D800 (.fadd 10 11 12 .rne .fp32) = true := by decide +kernel
theorem test_word_lui : reads 0x6A3891A3 (.lui 7 0x091A3) = true := by decide +kernel
theorem test_word_addi_lone : reads 0xC539F678 (.addi 7 7 0x3678) = true := by decide +kernel
theorem test_word_addi_pair : reads 0x85B58001 (.addi 22 22 1) = true := by decide +kernel
theorem test_word_add : reads 0xC0CE6800 (.add (.g 25) (.g 25) 20) = true := by decide +kernel
theorem test_word_exts : reads 0xC3A54C1C (.exts 20 21 12 7) = true := by decide +kernel
theorem test_word_fdiv_d : reads 0xD052D813 (.fdiv 10 11 12 .rne .fp64) = true := by decide +kernel
theorem test_word_fcvt_i32_s_rtz : reads 0xD4298058 (.fcvt 5 6 .fp32 .rtz .i32) = true := by decide +kernel
theorem test_word_ffma_d : reads 0xD7A56D74 (.ffma 20 21 22 23 .fp64 .rne) = true := by decide +kernel
theorem test_word_bne : reads 0x21B5FFFE (.bne 22 23 (BitVec.ofInt 14 (-2))) = true := by decide +kernel
theorem test_word_ldw : reads 0x4428C008 (.ldw 5 3 8) = true := by decide +kernel
theorem test_word_amocas_d : reads 0x595316F9 (.amocasD 10 12 11 .pkg .ar) = true := by decide +kernel
theorem test_word_cas2 : reads 0x5A525970 (.cas2 5 9 6 .sys .ar) = true := by decide +kernel
theorem test_word_red_fadd_s : reads 0x5B014CA0 (.redFaddS 5 6 .die .rl) = true := by decide +kernel
theorem test_word_fiss : reads 0x5E480CC0 (.fiss 9 6 .pkg) = true := by decide +kernel
theorem test_word_csrr_cycle : reads 0x7A280010 (.csrr 5 0x010) = true := by decide +kernel
theorem test_word_csrr_xlaunch : reads 0x7A380088 (.csrr 7 0x088) = true := by decide +kernel
theorem test_word_ebreak : reads 0x7B000A01 (.ebreak 5) = true := by decide +kernel
theorem test_word_tret : reads 0x7B000002 (.tret) = true := by decide +kernel
theorem test_word_ecall : reads 0x7B024000 (.ecall 9) = true := by decide +kernel
theorem test_word_rep_k3 : reads 0x79580019 (.rep true false true true 0 0 3 1) = true := by decide +kernel
theorem test_word_rep_k2 : reads 0x79180011 (.rep false false true true 0 0 2 1) = true := by decide +kernel
theorem test_word_spawn : reads 0x714D2A81 (.spawn 9 20 21 8 1) = true := by decide +kernel
theorem test_word_bara_die : reads 0x75052A80 (.bara 20 21 .die) = true := by decide +kernel
theorem test_word_barw_die : reads 0x75B52E81 (.barw 22 20 23 .die) = true := by decide +kernel
theorem test_word_mma : reads 0x77029600 (.mma 10 11) = true := by decide +kernel
theorem test_word_mqd : reads 0x78031600 (.mqd 12 11) = true := by decide +kernel
theorem test_word_barq : reads 0xF0184401 (.barq 3 1 2 1) = true := by decide +kernel
theorem test_word_vfmul : reads 0xE1402002 (.vfmul 8 0 16 0 .fp32) = true := by decide +kernel
theorem test_word_vfadd : reads 0xE1612000 (.vfadd 12 4 16 0 .fp32) = true := by decide +kernel
theorem test_word_vffma : reads 0xE2402080 (.vffma 8 0 16 8 .fp32) = true := by decide +kernel
theorem test_word_vflt : reads 0xE3110A44 (.vflt 2 4 5 1 .fp32) = true := by decide +kernel
theorem test_word_mpop : reads 0xEE288004 (.mpop 5 2) = true := by decide +kernel
theorem test_word_vrfsum_queue : reads 0xE512000B (.vrfsum (.q 0) 8 0 .fp32) = true := by decide +kernel
theorem test_word_vbcast : reads 0xE8820020 (.vbcast 16 (.g 8) 0 .e32) = true := by decide +kernel

/-- A class C word with fields rd, rs1 and the bits below, and a class A one (R163, R164), bit 30 clear. -/
def c_ (major d a low : Nat) : Nat := major * 2 ^ 24 + d * 2 ^ 19 + a * 2 ^ 14 + low
def a_ (major d a low : Nat) : Nat := 2 ^ 31 + c_ major d a low

theorem test_word_loads : reads (c_ 0x00 9 3 0x3FFF) (.ldb 9 3 0x3FFF) && reads (c_ 0x01 9 3 1) (.ldbn 9 3 1) &&
    reads (c_ 0x02 9 3 1) (.ldh 9 3 1) && reads (c_ 0x03 9 3 1) (.ldhn 9 3 1) && reads (c_ 0x05 9 3 1) (.ldwn 9 3 1) &&
    reads (c_ 0x07 10 3 16) (.ldq 5 3 16) = true := by decide +kernel
theorem test_word_stores : reads (c_ 0x08 9 3 1) (.stb 9 3 1) && reads (c_ 0x09 9 3 1) (.sth 9 3 1) &&
    reads (c_ 0x0A 9 3 1) (.stw 9 3 1) && reads (c_ 0x0B 9 3 1) (.std 9 3 1) && reads (c_ 0x0C 10 3 16) (.stq 5 3 16) = true := by
  decide +kernel
/-- A pair word with an odd register names no instruction (R188, rd[0] fixed zero). -/
theorem test_word_ldq_odd : (decodeWord (c_ 0x07 11 3 16)).isOk = false := by decide +kernel
theorem test_word_vector_memory : reads (c_ 0x10 4 3 (1 * 2 ^ 6 + 63)) (.vld 4 3 1 63) &&
    reads (c_ 0x11 4 3 (1 * 2 ^ 6 + 2)) (.vst 4 3 1 2) && reads (c_ 0x12 4 3 (7 * 2 ^ 9 + 2)) (.vlds 4 3 7 0 2) &&
    reads (c_ 0x13 4 3 (7 * 2 ^ 9 + 2)) (.vsts 4 3 7 0 2) && reads (c_ 0x14 4 3 (7 * 2 ^ 9 + 2)) (.vldx 4 3 7 0 2) &&
    reads (c_ 0x15 4 3 (7 * 2 ^ 9 + 2)) (.vstx 4 3 7 0 2) && reads (c_ 0x16 4 3 (7 * 2 ^ 6)) (.vldb 4 3 7 0) = true := by
  decide +kernel
theorem test_word_amoadd_w : reads (c_ 0x18 9 3 (7 * 2 ^ 9 + 3 * 2 ^ 6 + 3 * 2 ^ 4)) (.amoaddW 9 3 7 .pkg .ar) = true := by
  decide +kernel
theorem test_word_accumulator : reads (c_ 0x1C 4 3 (1 * 2 ^ 9 + 2 * 2 ^ 6 + 5)) (.vacc 4 3 .fp64 2 5) &&
    reads (c_ 0x1D 0 3 (7 * 2 ^ 9 + 3 * 2 ^ 6 + 3 * 2 ^ 4)) (.accinit 3 7 .pkg .ar) = true := by decide +kernel
theorem test_word_clean : reads (c_ 0x1F 0 3 (2 * 2 ^ 6)) (.clean 3 .die) = true := by decide +kernel
theorem test_word_branches : reads (c_ 0x20 4 3 1) (.beq 4 3 1) && reads (c_ 0x22 4 3 1) (.blt 4 3 1) && reads (c_ 0x23 4 3 1) (.bge 4 3 1) &&
    reads (c_ 0x24 4 3 1) (.bltn 4 3 1) && reads (c_ 0x25 4 3 1) (.bgen 4 3 1) && reads (c_ 0x26 7 0 1) (.bmany 7 1) &&
    reads (c_ 0x27 7 0 1) (.bmall 7 1) = true := by decide +kernel
theorem test_word_jumps : reads (0x28 * 2 ^ 24 + 4 * 2 ^ 19 + 0x7FFFF) (.jal 4 0x7FFFF) && reads (c_ 0x29 4 3 4) (.jalr 4 3 4) &&
    reads (0x2B * 2 ^ 24 + 4 * 2 ^ 19 + 1) (.addpc 4 1) = true := by decide +kernel
theorem test_word_messages : reads (c_ 0x30 0 3 (7 * 2 ^ 9 + 8 * 2 ^ 4 + 2)) (.send 3 7 8 2) &&
    reads (c_ 0x32 9 3 (7 * 2 ^ 9 + 8 * 2 ^ 4 + 2)) (.launch 9 3 7 8 2) && reads (c_ 0x33 0 3 1) (.migr 3 1) &&
    reads (c_ 0x34 0 0 0) .done && reads (c_ 0x36 0 0 0x3FFE) (.safept 0x03FFE) = true := by decide +kernel
theorem test_word_integer : reads (a_ 0x01 9 3 (7 * 2 ^ 9 + 4)) (.div 9 3 7) && reads (a_ 0x02 9 3 1) (.ctz 9 3) &&
    reads (a_ 0x04 9 3 (7 * 2 ^ 9 + 5)) (.addsh 9 3 7 5) && reads (a_ 0x06 9 3 1) (.andi 9 3 1) && reads (a_ 0x07 9 3 1) (.ori 9 3 1) &&
    reads (a_ 0x08 9 3 1) (.xori 9 3 1) && reads (a_ 0x09 9 3 (2 * 2 ^ 6 + 63)) (.srai 9 3 63) && reads (a_ 0x0A 9 3 1) (.slti 9 3 1) &&
    reads (a_ 0x0B 9 3 1) (.sltni 9 3 1) && reads (a_ 0x0C 9 3 (7 * 2 ^ 9)) (.addw 9 3 7) = true := by decide +kernel
theorem test_word_scalar_fp : reads (a_ 0x11 9 3 (7 * 2 ^ 9 + 1 * 2 ^ 4)) (.fsgnj 9 3 7 .fp64) &&
    reads (a_ 0x12 9 3 (7 * 2 ^ 9 + 1 * 2 ^ 4)) (.feq 9 3 7 .fp64) && reads (a_ 0x13 9 3 (1 * 2 ^ 4)) (.fclass 9 3 .fp64) &&
    reads (a_ 0x15 9 3 0) (.frsqe 9 3 .fp32) && reads (a_ 0x16 9 3 0) (.fexp2 9 3 .fp32) &&
    reads (a_ 0x18 9 3 (7 * 2 ^ 9 + 6 * 2 ^ 4 + 4)) (.ffms 9 3 7 6 .fp64 .rne) &&
    reads (a_ 0x19 9 3 (7 * 2 ^ 9 + 6 * 2 ^ 4 + 4)) (.fnfma 9 3 7 6 .fp64 .rne) &&
    reads (a_ 0x1A 9 3 (7 * 2 ^ 9 + 6 * 2 ^ 4 + 1)) (.fnfms 9 3 7 6 .fp32 .rtz) = true := by decide +kernel
theorem test_word_vector : reads (a_ 0x20 9 3 (7 * 2 ^ 9 + 1 * 2 ^ 6 + 2 * 2 ^ 4)) (.vadd 9 3 7 1 .e32) &&
    reads (a_ 0x24 9 3 (7 * 2 ^ 9 + 1 * 2 ^ 6 + 3 * 2 ^ 4)) (.vsel 9 3 7 1 .e64) && reads (a_ 0x26 9 3 (7 * 2 ^ 9)) (.vperm 9 3 7 0 .e8) &&
    reads (a_ 0x27 9 3 (7 * 2 ^ 9 + 1 * 2 ^ 4)) (.vzip 9 3 7 0 .e16) && reads (a_ 0x29 9 3 (7 * 2 ^ 9 + 2 * 2 ^ 4)) (.vext (.g 9) 3 7 0 .e32) &&
    reads (a_ 0x2A 9 3 (0 * 2 ^ 9 + 1 * 2 ^ 4 + 6)) (.vcvt 9 3 .fp32 0 .rtz .i32) && reads (a_ 0x2B 9 3 (7 * 2 ^ 9)) (.vdot4 9 3 7 0 .f8) &&
    reads (a_ 0x2C 9 3 (7 * 2 ^ 9 + 3)) (.vq8 9 3 7 0 .f8 3) && reads (a_ 0x2D 9 3 0) (.vfrsqe 9 3 0 .fp32) &&
    reads (a_ 0x2F 9 2 0) (.qcnt 9 2) = true := by decide +kernel

/-! ## Worked examples of the spec -/

/-- A slot of core 0 with registers put as listed, before a lone word at `0x8000`. -/
def slotWith (rs : List (GReg × Word)) (vs : List (VReg × VWord)) (ms : List (MReg × Word)) : State :=
  let x := { Slot.reset with active := true, ctx := 1, pc := 0x8000, wa := 0x8000, tpc := 0x8000, nxt := 0x8004 }
  let x := rs.foldl (fun x r => x.setG r.1 r.2) x
  let x := vs.foldl (fun x r => x.setV r.1 r.2) x
  { State.reset with agenda := [], hot := ms.foldl (fun x r => x.setM r.1 r.2) x }

/-- What a word on `g8` and `g9` writes to `g10`, and the flags it leaves, on a Bassoon if asked. -/
def answer (i : Instr) (a b : Word) (bassoon : Bool) : Option (Word × Word) :=
  let s := slotWith [(8, a), (9, b)] [] []
  match exec i { s with hotId := if bassoon then 4 * 128 else 0 } with
  | .next t => some (t.g 10, t.hot.fcsr)
  | _ => none

/-- The edges of MULDIV (the table after R194). -/
theorem test_muldiv_signed : answer (.div 10 8 9) (-7) 2 false = some (0xFFFFFFFFFFFFFFFD, 0) ∧
    answer (.rem 10 8 9) (-7) 2 false = some (0xFFFFFFFFFFFFFFFF, 0) ∧
    answer (.div 10 8 9) 0x8000000000000000 (-1) false = some (0x8000000000000000, 0) ∧
    answer (.rem 10 8 9) 0x8000000000000000 (-1) false = some (0, 0) ∧ answer (.div 10 8 9) 5 0 false = some (0xFFFFFFFFFFFFFFFF, 0) ∧
    answer (.rem 10 8 9) 5 0 false = some (5, 0) := by decide +kernel
theorem test_muldiv_unsigned : answer (.divn 10 8 9) 0xFFFFFFFFFFFFFFF9 2 false = some (0x7FFFFFFFFFFFFFFC, 0) ∧
    answer (.remn 10 8 9) 0xFFFFFFFFFFFFFFF9 2 false = some (1, 0) := by decide +kernel
theorem test_muldiv_high : answer (.mulh 10 8 9) (-1) (-1) false = some (0, 0) ∧
    answer (.mulhn 10 8 9) 0xFFFFFFFFFFFFFFFF 0xFFFFFFFFFFFFFFFF false = some (0xFFFFFFFFFFFFFFFE, 0) ∧
    answer (.mulhsn 10 8 9) (-1) 0xFFFFFFFFFFFFFFFF false = some (0xFFFFFFFFFFFFFFFF, 0) := by decide +kernel

/-- Results and flags of scalar FP words (the table before R227): NX 1, UF 2, OF 4, DZ 8, NV 16. -/
theorem test_fadd_tie_to_even : answer (.fadd 10 8 9 .rne .fp32) 0x3F800000 0x33800000 false = some (0x3F800000, 1) := by decide +kernel
theorem test_fadd_up : answer (.fadd 10 8 9 .rup .fp32) 0x3F800000 0x33800000 false = some (0x3F800001, 1) := by decide +kernel
theorem test_fmul_overflow : answer (.fmul 10 8 9 .rne .fp32) 0x7F000000 0x40000000 false = some (0x7F800000, 5) ∧
    answer (.fmul 10 8 9 .rtz .fp32) 0x7F000000 0x40000000 false = some (0x7F7FFFFF, 5) := by decide +kernel
theorem test_fdiv_by_zero : answer (.fdiv 10 8 9 .rne .fp32) 0x3F800000 0 false = some (0x7F800000, 8) := by decide +kernel
theorem test_fsqrt_negative : answer (.fsqrt 10 8 .rne .fp32) 0xBF800000 0 false = some (0x7FC00000, 16) := by decide +kernel
theorem test_fmin_signalling : answer (.fmin 10 8 9 .rne .fp32) 0x7F800001 0x40400000 false = some (0x40400000, 16) := by decide +kernel
theorem test_fsgnjn_nan : answer (.fsgnjn 10 8 9 .fp32) 0x7FA00000 0 false = some (0x7FC00000, 0) := by decide +kernel
theorem test_fexp2_on_bassoon : answer (.fexp2 10 8 .fp32) 0x3F000000 0 true = some (0x3FB504F3, 1) := by decide +kernel
theorem test_frcp_on_bassoon : answer (.frcp 10 8 .h16) 0x4200 0 true = some (0x3555, 1) := by decide +kernel
theorem test_fcvt_to_i32 : answer (.fcvt 10 8 .fp32 .rtz .i32) 0xC0300000 0 false = some (0xFFFFFFFFFFFFFFFE, 1) := by decide +kernel
/-- `FRSQE` of 2.0 (the example before R86). -/
theorem test_frsqe_two : answer (.frsqe 10 8 .fp32) 0x40000000 0 false = some (0x3F350000, 0) := by decide +kernel
/-- 38.4 as F8 (the example before *one block*, R75). -/
theorem test_f8_of_38_4 : (toFmt8 .f8 (Fmt.fp32.read 0x4219999A)).bits = 0x6A := by decide +kernel

/-- The vector register with the given 32-bit lanes. -/
def vecOf (f : Nat → Nat) : VWord := pack 32 ((List.range 16).map f)

/-- The masked compare (the example before R257): `v4` holds 0.0 to 15.0, `v5` 10.0 in every lane, `m1` is `0x7FFF`. -/
def compareState : State :=
  slotWith [] [(4, vecOf fun i => [0, 0x3F800000, 0x40000000, 0x40400000, 0x40800000, 0x40A00000, 0x40C00000, 0x40E00000,
      0x41000000, 0x41100000, 0x41200000, 0x41300000, 0x41400000, 0x41500000, 0x41600000, 0x41700000].getD i 0),
    (5, vecOf fun _ => 0x41200000)] [(1, 0x7FFF)]

theorem test_masked_compare : (match exec (.vflt 2 4 5 1 .fp32) compareState with
    | .next t => decide (t.m 2 = 0x03FF03FF03FF03FF) && decide (t.hot.fcsr = 0)
    | _ => false) = true := by decide +kernel
theorem test_mask_counts : (match exec (.mpop 5 2) (slotWith [] [] [(2, 0x03FF03FF03FF03FF)]) with
      | .next t => t.g 5 | _ => 0) = 40 ∧
    (match exec (.mfirst 6 2) (slotWith [(6, 9)] [] [(2, 0x03FF03FF03FF03FF)]) with | .next t => t.g 6 | _ => 9) = 0 := by
  decide +kernel
/-- `bmany` is taken and `bmall` is not (the same example). -/
theorem test_mask_branches : (match exec (.bmany 2 4) (slotWith [] [] [(2, 0x03FF03FF03FF03FF)]) with
      | .next t => t.hot.pc | _ => 0) = 0x8010 ∧
    (match exec (.bmall 2 4) (slotWith [] [] [(2, 0x03FF03FF03FF03FF)]) with | .next t => t.hot.pc | _ => 0) = 0x8004 := by
  decide +kernel

/-- A block of 64 bytes: B, T, sign and fraction nibbles, byte 18, and the tile scale in byte 63. -/
def blockOf (head : List Nat) (b18 scale : Nat) : VWord :=
  BitVec.ofNat 512 (packNat 8 (head ++ List.replicate (18 - head.length) 0 ++ [b18] ++ List.replicate 44 0 ++ [scale]))

/-- Two blocks combined (the example after R323): a holds `0x48` but `0xBC` in element 5, at scale −2; b holds `0x50`, at −3. -/
theorem test_barq_two_blocks :
    (match exec (.barq 3 1 2 1) (slotWith [] [(1, blockOf [9, 5, 0, 0, 0xC0] 0x60 0xFE), (2, blockOf [10, 4] 0 0xFD)] []) with
      | .next t => decide (t.v 3 = blockOf [9, 5, 0, 0, 0x20] 0x60 0xFF) && decide (t.hot.fcsr = 0)
      | _ => false) = true := by decide +kernel

/-- The FP64 sum of a gang of 4 with first logical core 4, in whatever order its members contribute (the example after R297). -/
theorem test_all_reduce_tree :
    combineBarrier 4 4 [(6, 4, 0x3FF0000000000000), (4, 4, 0x4340000000000000), (7, 4, 0xC340000000000000), (5, 4, 0x3FF0000000000000)] =
      0x3FF0000000000000 := by decide +kernel

/-- One block of a tile (the example after R82), both ways. -/
theorem test_one_block :
    let block : List Byte := [0x0A, 0x0A, 0x85, 0x27, 0x0C, 0x93] ++ List.replicate 12 0 ++
      [0xB2, 0xF3, 0xF0, 0x53, 0x55, 0x55, 0x55, 0x55, 0x55, 0x05]
    let codes := [0x55, 0xC8, 0x57, 0x42, 0xBC, 0x50, 0x03, 0x99] ++ List.replicate 24 0x48
    decodeBlock block = some codes ∧ encodeBlock codes = block := by decide +kernel

/-! ## One step -/

/-- A lone `ADDI g7, g7, 0x3678` placed where the next step fetches runs, and the slot goes on behind it. -/
theorem test_step_runs_addi : (match step (State.reset.withFetchWord 32 0xC539F678) with
    | .next t => decide (t.hot.getG 7 = 0xFFFFFFFFFFFFF678) && decide (t.hot.retired = 1) && decide (t.hot.pc = 4)
    | _ => false) = true := by decide +kernel

/-! ## A small package for the statements' hypotheses -/

/-- An entry of a core table (R33) for a gang of two at logical core 0. -/
def tableEntry (die pcore : Nat) : Nat := 2 ^ 63 + die * 2 ^ 52 + pcore * 2 ^ 44 + 1 * 2 ^ 4

/-- Numbers laid into memory: address, bytes, value. -/
def laid (l : List (Nat × Nat × Nat)) : List Host.Cell := l.foldl (fun m x => memWrite m x.1 (leBytes x.2.2 x.2.1)) []

/-- The tables of context 1: the first 512 GiB mapped to themselves (R97); a core table of 3 with its endpoint at core 5 (R33);
and the descriptors of three spill rings of 128 entries (R46). -/
def tables : List (Nat × Nat × Nat) :=
  [(0x1000, 8, 0x801), (0x2000, 8, 0xDF), (0x3000, 4, 3), (0x3004, 2, 5 * 256), (0x3008, 8, 0x8040), (0x3040, 8, tableEntry 0 0), (0x3048, 8, tableEntry 0 1),
   (0x3050, 8, tableEntry 1 4), (0x4000, 8, 0x10000), (0x4010, 1, 7), (0x4020, 8, 0x14000), (0x4030, 1, 7), (0x4040, 8, 0x18000),
   (0x4050, 1, 7)]

/-- A live context over those tables, with code bounds `0x8000` to `0x9000`. -/
def context : Context := { Context.reset with
  live := true
  everLive := true
  asidr := 0xA000000000000001
  coretab := 0x3000
  spillbase := 0x4000
  cbase := 0x8000
  clim := 0x9000
  csave := 0x80000
  ownmap := 0x5000
  supctx := 0x102 }

/-- Slot 0 of core 0 of die 0 runs logical core 0 of context 1; context 2 is its supervisor. -/
def world : State := { State.reset with
  agenda := []
  issuing := true
  hot := { Slot.reset with active := true, ctx := 1, tctx := 1, pc := 0x8000, wa := 0x8000, tpc := 0x8000, nxt := 0x8004 }
  ctxs := [(1, context), (2, { context with supctx := 0 })]
  mem := laid tables }

end Sys2Proof.Tests

namespace Sys2Proof.Machine

/-- The package with other bytes in memory, and with registers put. -/
def State.withMem (s : State) (l : List (Nat × Nat × Nat)) : State :=
  { s with mem := l.foldl (fun m x => memWrite m x.1 (leBytes x.2.2 x.2.1)) s.mem }
def State.withG (s : State) (rs : List (GReg × Word)) : State :=
  { s with hot := rs.foldl (fun x r => x.setG r.1 r.2) s.hot }
def State.withHot (s : State) (f : Slot → Slot) : State := { s with hot := f s.hot }

/-- The package with a core, a context or a die changed. -/
def State.withCore (s : State) (k : Nat) (f : Core → Core) : State := s.setCore k (f (s.getCore k))
def State.withCtx (s : State) (c : Nat) (f : Context → Context) : State := s.setCtx c (f (s.getCtx c))
def State.withDie (s : State) (d : Nat) (f : Die → Die) : State := s.setDie d (f (s.getDie d))

end Sys2Proof.Machine

namespace Sys2Proof.Tests

set_option Elab.async false

open Sys2Proof Sys2Proof.Machine

theorem test_world_translates : (world.translate world.me 0x8000 ⟨true, true, false⟩).2 = .ok ⟨.coh, 0x8000⟩ := by decide +kernel
theorem test_world_core_table : (match world.ctRead 1 2 with | .entry _ e => some (e.die, e.pcore) | _ => none) = some (1, 4) := by
  decide +kernel
theorem test_world_spill : world.spillDesc 1 0 = some ⟨0x10000, 0, 0, 7⟩ := by decide +kernel
theorem test_world_memory_form : memWf world.mem = true := by decide +kernel

/-! ## States and operands that meet the hypotheses of the statements: words of the slot -/

/-- A mark of logical core 0 on core 0. -/
def mark (preempted : Bool) : PreMark := ⟨1, 0, preempted, 0x8040, []⟩
/-- A slot that has an update outstanding. -/
def updating : State := world.withHot fun x => { x with updates := [(5, 0x9000)] }
/-- A message of R38: handler, type, PLEN, PRIO, context, SRC, DST and payload. -/
def msgOf (type plen prio c src dst : Nat) (p : List Word) : Msg :=
  ⟨0x8040, word (dst + src * 2 ^ 16 + c * 2 ^ 32 + type * 2 ^ 40 + plen * 2 ^ 44 + prio * 2 ^ 48), p⟩
/-- An entry of an arrival queue. -/
def entryOf (m : Msg) (id prio since : Nat) : ArrEntry := ⟨m, id, prio, since, none, none, false⟩

/-- BitWords: fields at both ends of the register. -/
theorem witness_fields : (0 : BitVec 6).toNat + ((63 : BitVec 6).toNat + 1) ≤ 64 ∧
    (63 : BitVec 6).toNat + ((0 : BitVec 6).toNat + 1) ≤ 64 := by decide

/-- FaultDelivery: a handler takes FP; no handler, a handler inside itself, or another cause takes the fault path. -/
theorem witness_fault_delivery :
    let s := world.withHot fun x => { x with trapvec := 0x8100 }
    s.hot.shipping = false ∧ (s.hot.trapvec ≠ 0 ∧ s.hot.trapcause.getLsbD 9 = false ∧ (Cause.fp = .fp ∨ Cause.fp = .queueStall)) ∧
    world.hot.shipping = false ∧ world.hot.trapvec = 0 ∧
    (s.withHot fun x => { x with trapcause := 0x200 }).hot.trapcause.getLsbD 9 = true := by decide +kernel

/-- TrapWords: inside a handler and outside one. -/
theorem witness_tret : (world.withHot fun x => { x with trapcause := 0x20C, trappc := 0x8007 }).hot.trapcause.getLsbD 9 = true ∧
    world.hot.trapcause.getLsbD 9 = false := by decide +kernel

/-- IllegalAndPrivileged: a user activation, a supervisor CSR, a reserved number, a read-only one, a reserved rounding mode. -/
theorem witness_illegal : world.hot.supervisor = false ∧ csrExists 0x100 = true ∧ 0x100 ≤ 0x100 ∧ csrExists 0x120 = true ∧
    csrExists 0x7FF = false ∧ csrExists 0x000 = false ∧ csrReadOnly false 0x010 = true ∧ csrReadOnly true 0x0A2 = true ∧
    csrExists 0x088 = true ∧ 3 < (world.withHot fun x => { x with fcsr := 4 * 32 }).hot.fcsr.toNat / 32 % 8 ∧
    3 < (world.withHot fun x => { x with fcsr := 7 * 32 }).hot.fcsr.toNat / 32 % 8 := by decide +kernel

/-- CsrReads: the first register of the table, and the last, in a supervisor activation. -/
theorem witness_csr_reads : ((0x001 : BitVec 11).toNat, world.hot.fcsr) ∈ csrValues world ∧
    (let s := world.withHot fun x => { x with supervisor := true }
     ((0x120 : BitVec 11).toNat, s.mctbase) ∈ csrValues s ∧ s.hot.supervisor = true) := by
  refine ⟨List.mem_cons_self, ?_, rfl⟩
  simp [csrValues]

/-- CsrWrites: a register of the core, a clamped register of the slot, and one of the package. -/
theorem witness_csr_writes : (∃ f, ((0x040 : BitVec 11).toNat, f) ∈ csrStored world) ∧ (∃ f, ((0x051 : BitVec 11).toNat, f) ∈ csrStored world) ∧
    (let s := world.withHot fun x => { x with supervisor := true }
     (∃ f, ((0x120 : BitVec 11).toNat, f) ∈ csrStored s) ∧ s.hot.supervisor = true) := by
  refine ⟨⟨_, List.mem_of_getElem? (i := 2) rfl⟩, ⟨_, List.mem_of_getElem? (i := 4) rfl⟩, ⟨_, List.mem_of_getElem? (i := 26) rfl⟩, rfl⟩

/-- RepOpens: 256 passes by K and by g[rs1]; 257 by g[rs1]; a capture under way. -/
theorem witness_rep : world.hot.rep = none ∧ (255 : BitVec 8) ≠ 0 ∧ (255 : BitVec 8).toNat + 1 ≤ 256 ∧
    ((world.withG [(8, 256)]).g 8).toNat ≤ 256 ∧ 256 < ((world.withG [(8, 257)]).g 8).toNat ∧
    (∃ r, (world.withHot fun x => { x with rep := some ⟨1, [], 2, 1, 0, 1, false, 1, 0, 0⟩ }).hot.rep = some r ∧ r.todo ≠ 0) := by
  refine ⟨?_, ?_, ?_, ?_, ?_, _, rfl, ?_⟩ <;> decide +kernel

/-- Wfm: a pre-emption, a message, a limit that has passed, and none of them. -/
theorem witness_wfm : (world.withCore 0 fun x => { x with marks := [mark false] }).wakeCode 0 none = some 2 ∧
    (world.withCore 0 fun x => { x with arrival := [entryOf (msgOf 0 0 0 1 0 0 []) 0 0 0] }).wakeCode 0 none = some 1 ∧
    world.wakeCode 0 (some 0) = some 0 ∧ world.wakeCode 0 none = none ∧ world.wakeCode 0 (some 1) = none := by decide +kernel

/-- BranchesAndJumps: an aligned target, and the least misaligned ones. -/
theorem witness_jalr : (world.g 8 + wordOfInt (4 : BitVec 14).toInt).toNat % 4 = 0 ∧
    (world.g 8 + wordOfInt (1 : BitVec 14).toInt).toNat % 4 ≠ 0 := by decide +kernel

/-- A queue with `n` entries. -/
def queued (q : QReg) (n : Nat) (s : State) : State := s.withHot fun x => x.setQ q (List.replicate n 7)

/-- QueueWords: one entry and none to take; a sink with 7 and with 8 entries. -/
theorem witness_queues : world.hot.taken = [] ∧ (queued 2 1 world).hot.q[2] = [7] ∧ world.hot.q[2] = [] ∧
    ((queued 0 7 (queued 2 1 world)).hot.q[0]).length < 8 ∧ 8 ≤ ((queued 0 8 (queued 2 1 world)).hot.q[0]).length := by decide +kernel

/-- Slots with token 3 live, not complete and complete, and with no free entry. -/
def tokened (done : Bool) : State := world.withHot fun x => { x with tokens := x.tokens.set 3 (some ⟨9, if done then [] else [5], done⟩) }
def tokenless : State := world.withHot fun x => { x with tokens := Vector.replicate 8 (some ⟨9, [5], false⟩) }

/-- FenceTokens: an entry free, the last one; none free; covered updates; a token that names no live entry, a complete one, a
pending one. -/
theorem witness_tokens : world.hot.tokens[7] = none ∧ tokenless.hot.tokenEntry = none ∧ updating.hot.updates.map (·.1) ≠ [] ∧
    (world.hot.updates.map (·.1) = []) ∧
    (∀ e : Fin 8, (tokened false).hot.tokens[e.val] = none ∨ e = 3) ∧
    ((3 : Fin 8).val = (9 * 8 + 3 : Word).toNat % 8 ∧ (tokened true).hot.tokens[3] = some ⟨9, [], true⟩ ∧ 9 = (9 * 8 + 3 : Word).toNat / 8) ∧
    (tokened false).hot.tokens[3] = some ⟨9, [5], false⟩ := by decide +kernel

/-- An access that passes its checks at a place of a kind. -/
def passes (s : State) (o : AccOp) (es : List (Nat × Elem)) (p : Phys → Bool) : Bool :=
  match s.checkAll s.me s.die o es with
  | (_, none, (q, _) :: _) => p q
  | _ => false

/-- The package with a class table at `0x6000000`, in which the 2 MiB granule at `0x800000` has the given byte, and slot 0 of core 0
with `g8` there. -/
def classed (byte : Nat) : State :=
  ({ world with mctbase := 0x6000001 }.withMem [(0x6000004, 1, byte)]).withG [(8, 0x800000)]

/-- CacheWords: a line of class COH, one of class SWM with dirty bytes in the core's cache; a line in M, and one on its way. -/
theorem witness_cache_words : passes (world.withG [(8, 0x9000)]) .maint [(0, ⟨0x9000, 1, 1, false⟩)] (fun p => p.kind == .coh) = true ∧
    passes ((classed 1).withCore 0 fun x => { x with l1 := [(0x800005, 3)] }) .maint [(0, ⟨0x800000, 1, 1, false⟩)]
      (fun p => decide (p = ⟨.swm, 0x800000⟩) && isHome 0 p) = true ∧
    { world with caches := [(0x9000 * 8192, CState.m)] }.cst 0x9000 0 = some .m ∧
    (({ world with caches := [(0x9000 * 8192, CState.isD)] }.cst 0x9000 0).map CState.moving) = some true := by decide +kernel

/-- A supervisor activation with target context 2. -/
def supervisor : State := world.withHot fun x => { x with supervisor := true, tctx := 2 }

/-- SupervisorWords: descriptors of each kind, an illegal one, and target contexts that are its own and another. -/
theorem witness_supervisor : supervisor.hot.supervisor = true ∧ badTlbinv 0x7 = true ∧ badTlbinv 0x403 = false ∧
    (0x403 : Word).bits 3 2 = 0 ∧ badTlbinv 0x0B = false ∧ (0x0B : Word).bits 3 2 = 1 ∧ badTlbinv 0xFFFF00000013 = false ∧
    (0xFFFF00000013 : Word).bits 3 2 = 2 ∧ supervisor.hot.updates = [] ∧ supervisor.granuleBusy 0x0B 0x800000 = false ∧
    supervisor.granuleLines 0x800000 = [] ∧ { supervisor with homes := [(0x800000 * 32, .o 0)] }.granuleLines 0x800000 ≠ [] ∧
    supervisor.hot.tokens[0] = none ∧ supervisor.hot.tctx ≠ supervisor.hot.ctx ∧ supervisor.memOk ∧
    (supervisor.withHot fun x => { x with tctx := 1 }).hot.tctx = (supervisor.withHot fun x => { x with tctx := 1 }).hot.ctx := by
  unfold State.memOk; decide +kernel

/-- The package with the page of the tables and the code shared (R153), and private to core 3 of die 0. -/
def sharedPage : Page := ⟨.shared, ⟨0, false, 0, 39, 0, true, true, true, true, true, 0x2000, some false, []⟩, false, false, []⟩
def claimed : State := { world with pages := [(0x2000, sharedPage)] }
def keptByAnother : State := { world with pages := [(0x2000, { sharedPage with owner := .priv 0 3 })] }

/-- The package with a safe-point descriptor of no live registers at `0x8020`. -/
def safePoint (w0 : Nat) : State := claimed.withMem [(0x8020, 8, w0), (0x8028, 8, 0), (0x8030, 8, 0), (0x8038, 8, 0)]

/-- SafePoint: a descriptor that is well formed, with and without a pre-emption; a malformed one; one that ends at the code bound, and
one past it; a misplaced one; a page that is not mapped; one private to another core; a capture; an entry in a queue. -/
theorem witness_safept : (match (safePoint 4).fetchWords 0x8020 4 with
      | (s, .ok ws) => !badSafePoint context s.hot.wa ws && !s.preempting s.core s.hot.ctx s.hot.lcore | _ => false) = true ∧
    (match ((safePoint 4).withCore 0 fun x => { x with marks := [mark false] }).fetchWords 0x8020 4 with
      | (s, .ok ws) => !badSafePoint context s.hot.wa ws && s.preempting s.core s.hot.ctx s.hot.lcore | _ => false) = true ∧
    (match (safePoint 1).fetchWords 0x8020 4 with | (s, .ok ws) => badSafePoint context s.hot.wa ws | _ => false) = true ∧
    (0x8FE0 + 32 ≤ context.clim.toNat) ∧ ¬(0x8FE8 + 32 ≤ context.clim.toNat) ∧ (0x8024 : Word).toNat % 8 ≠ 0 ∧
    (match (world.withCtx 1 fun x => { x with asidr := 0xA000000000000003 }).fetchWords 0x8020 4 with
      | (_, .error (.raise k _)) => decide (k = .fetchPage) | _ => false) = true ∧
    (match keptByAnother.fetchWords 0x8020 4 with | (_, .error .wait) => true | _ => false) = true ∧
    (queued 0 1 world).hot.q[0] ≠ [] := by decide +kernel

/-- A core-table entry as a lookup answers it. -/
def placeOfLookup : CtLookup → Option (Nat × Nat × Nat)
  | .entry _ e => some (e.pkg, e.die, e.pcore)
  | _ => none
def isUnmapped : CtLookup → Bool
  | .unmapped => true
  | _ => false

/-- Logical core 1 lies in package 1, to which no route is open. -/
def away : State := world.withMem [(0x3048, 8, tableEntry 0 1 + 2 ^ 57)]

/-- Messages: a payload that ends at `g31`, and one past it; destinations on this die, on another, unmapped, and behind a shut
route; the last creation that `SLIM` allows, and none left; an interface that retries; ANY. -/
theorem witness_messages : (20 : Fin 32).val + (12 : Plen).val ≤ 32 ∧ 32 < (20 : Fin 32).val + (13 : Plen).val ∧ world.hot.retrying = 0 ∧
    (world.destination 0 1 1).2 = .here 1 ∧ (world.destination 0 1 2).2 = .here 260 ∧ dieOfCore 1 = world.die ∧ dieOfCore 260 ≠ world.die ∧
    (world.destination 0 1 5).2 = .refused 1 ∧ (away.destination 0 1 1).2 = .refused 3 ∧
    (world.withHot fun x => { x with creations := 15 }).hot.creations < world.hot.slim ∧
    world.hot.slim ≤ (world.withHot fun x => { x with creations := 16 }).hot.creations ∧
    0 < (world.withHot fun x => { x with retrying := 1 }).hot.retrying ∧ (0x40000 : Word).toNat / 2 ^ 18 % 2 = 1 ∧
    (1 : Word).toNat / 2 ^ 18 % 2 = 0 ∧ (1 : Word).toNat % 2 ^ 16 ≠ world.hot.lcore ∧ world.gangRange 0 1 0 = some (0, 2) := by decide +kernel

/-- An owner map with one granule of 1 MiB at `0x100000`, owned by logical core 1. -/
def owned : State := world.withMem [(0x5000, 8, 0x100000), (0x5008, 8, 0x200000), (0x5010, 1, 20), (0x5020, 2, 1)]

/-- EndingWords: no capture and no stub; an owner, and an address outside the map; an update outstanding; a capture. -/
theorem witness_ending : world.hot.rep = none ∧ world.hot.stub = none ∧ world.preempting world.core 1 0 = false ∧ world.hot.updates = [] ∧
    (owned.ownerAccess 1 0x100000).2 = .lcore 1 ∧ (owned.ownerAccess 1 0xFFFFF).2 = .outside ∧ (owned.ownerAccess 1 0x200000).2 = .outside ∧
    (owned.destination 0 1 1).2 = .here 1 ∧ updating.hot.updates ≠ [] := by decide +kernel

/-- TaskQueries: a logical core that no entry maps, and one on another die. -/
theorem witness_task_queries : isUnmapped (world.ctLookup 0 1 3) = true ∧ placeOfLookup (world.ctLookup 0 1 2) = some (world.pkg, 1, 4) := by
  decide +kernel

/-- The package with one barrier of the gang on the die: contributions and results. -/
def barriered (given : List (Nat × Nat × Word)) (results : List (Nat × Word × Nat)) : State :=
  { world with barriers := [⟨3, 1, 0, .die, 0, 5, [0, 1], given, [], results⟩], ids := 4 }

/-- Barriers: legal and illegal descriptors; the first, the last and a second contribution; a result for this logical core, none, a
value that a waiting word was woken with, and a pre-emption. -/
theorem witness_barriers : barrierLegal 0x405 .die ∧ ¬barrierLegal 0x505 .die ∧ ¬barrierLegal 0x415 .die ∧ world.hot.updates = [] ∧
    ((world.getBarrier 0 .die 0 5).2.given = [] ∧ world.participants 0 1 0 .die 0 0 2 = some [0, 1]) ∧
    ((barriered [(1, 4, 7)] []).getBarrier 0 .die 0 5).2.members = [0, 1] ∧ ((barriered [(0, 4, 7)] []).getBarrier 0 .die 0 5).2.given = [(0, 4, 7)] ∧
    ((barriered [] [(0, 9, 1)]).getBarrier 0 .die 0 5).2.results.find? (·.1 == 0) = some (0, 9, 1) ∧
    (∀ y ∈ ((barriered [] [(1, 9, 1)]).getBarrier 0 .die 0 5).2.results, y.1 ≠ 0) ∧
    (world.withHot fun x => { x with wait := some (.combined 9 1) }).hot.wait = some (.combined 9 1) ∧ world.hot.wait = none ∧
    (world.withCore 0 fun x => { x with marks := [mark false] }).preempting 0 1 0 = true ∧ gangOf 0 (world.ctLookup 0 1 0) = (0, 2) := by
  unfold barrierLegal; decide +kernel

/-- Translation: a page found by a walk, for a write; and the aperture. -/
theorem witness_translation : world.memOk ∧ canonical 0x9000 = true ∧ inAperture 0x9000 = false ∧ (world.walk 0 0xA000000000000001 0x9000).isOk = true ∧
    world.tlbFind 0 0 0x9000 true = none ∧ (world.translate world.me 0x9000 ⟨false, true, false⟩).2 = .ok ⟨.coh, 0x9000⟩ ∧
    (world.walk 0 0xA000000000000001 (2 ^ 56)).isOk = false ∧ inAperture 0x00F0000000000000 = true ∧
    (world.translate world.me 0x00F0000000000000 ⟨true, false, false⟩).2 = .ok ⟨.spad 0, spadBase⟩ := by
  unfold State.memOk; decide +kernel

/-- The check of an access: none, or the cause of its fault. -/
def causeOf (s : State) (o : AccOp) (es : List (Nat × Elem)) : Option (Option Cause) := (s.checkAll s.me s.die o es).2.1.map (·.cause)

/-- The package with the page of the tables shared, and two of its lines in the cache of core 0. -/
def warm : State := { claimed with caches := [0x9000, 0x9F80].map fun l => (l * 8192, CState.e) }

/-- Scalar loads and stores: bytes that can be read, the last of a page; a wait for an update; accesses that miss; a page
fault. -/
theorem witness_scalar_accesses :
    (match warm.checkAll warm.me warm.die .load (scalarElems 0x9FF8 8 (warm.expanded warm.me 0x9FF8)) with
      | (s, none, ps) => !s.loadWaits ps && s.loadsHit ps && decide ((s.readAll (some s.core) ps).2.length = 8) | _ => false) = true ∧
    (match world.checkAll world.me world.die .load (scalarElems 0x9FF8 8 (world.expanded world.me 0x9FF8)) with
      | (s, none, ps) => !s.loadWaits ps && !s.loadsHit ps | _ => false) = true ∧
    (match world.checkAll world.me world.die .store (scalarElems 0x9FF8 8 false) with
      | (s, none, ps) => !s.storeWaits ps && !s.storesHit ps | _ => false) = true ∧
    (match updating.checkAll updating.me updating.die .load (scalarElems 0x9078 8 false) with
      | (s, none, ps) => s.loadWaits ps && s.storeWaits ps | _ => false) = true ∧
    (match warm.checkAll warm.me warm.die .store (scalarElems 0x9001 4 false) with
      | (s, none, ps) => !s.storeWaits ps && s.storesHit ps && ps.all (fun q => q.1.kind == .coh) && decide (ps.length = 4) &&
          decide (ps.Pairwise fun q r => q.1.pa + q.2.n ≤ r.1.pa ∨ r.1.pa + r.2.n ≤ q.1.pa) && memWf s.mem && !s.hot.shipping
      | _ => false) = true ∧
    passes world .zline [(0, ⟨0x9000, 128, 1, false⟩)] (fun p => p.kind == .coh) = true ∧
    causeOf world .load (scalarElems 0x0100000000000000 8 false) = some (some .loadPage) ∧
    causeOf world .store (scalarElems 0x0100000000000000 8 false) = some (some .storePage) := by decide +kernel

/-- AccessChecks: a misaligned element, a page fault and an access fault of an aligned one, and the sizes of accesses. -/
theorem witness_checks : (0x9004 : Word).toNat % 8 ≠ 0 ∧ (0x9000 : Word).toNat % 8 = 0 ∧
    (world.translate world.me 0x0100000000000000 AccOp.store.need).2 = .error (.page 7) ∧
    (world.translate world.me 0x00F7000000000000 AccOp.load.need).2 = .error (.access 4 7) ∧ (0x900F : Word).toNat % 16 ≠ 0 := by decide +kernel

/-- A table with entry 3 locked for reading over eight bytes, a poisoned word after them, and one of a software-managed line that the
core has taken. -/
def guarded : State :=
  let s := (classed 1).withCore 0 fun x => { x with l1c := [(0x800000, List.replicate 128 0)], l1p := [0x100001] }
  { s.setDie 0 { s.getDie 0 with locks := [(3, ⟨1, 0x9000, 0x9008, false, 0⟩)] } with poison := [0x9010 / 8] }

/-- AccessChecks: a store that meets a lock and a load that does not; loads of a poisoned word, at home and in the core's copy, and
of the words beside them. -/
theorem witness_guards :
    let check := fun (o : AccOp) (va : Word) => (guarded.checkElem guarded.me 0 o ⟨va, 8, 1, false⟩).2
    check .store 0x9000 = .error ⟨4, some .rangeLock, 3, 0x9000⟩ ∧ check .load 0x9000 = .ok ⟨.coh, 0x9000⟩ ∧
    check .store 0x9008 = .ok ⟨.coh, 0x9008⟩ ∧ check .load 0x9010 = .error ⟨5, some .poison, 1, 0x9010⟩ ∧
    check .store 0x9010 = .ok ⟨.coh, 0x9010⟩ ∧ check .load 0x800008 = .error ⟨5, some .poison, 1, 0x800008⟩ ∧
    check .load 0x800010 = .ok ⟨.swm, 0x800010⟩ ∧ tabHas (guarded.getCore 0).l1c 0x800000 = true := by decide +kernel

/-- R444: poison of a dirty copy goes home with the bytes of its word, and not with those of another. -/
theorem test_poison_travels_home :
    (((guarded.withCore 0 fun x => { x with l1 := [(0x800009, 5)] }).cleanLine 0 ⟨.swm, 0x800000⟩ true).poison.contains 0x100001) = true ∧
    (((guarded.withCore 0 fun x => { x with l1 := [(0x800001, 5)] }).cleanLine 0 ⟨.swm, 0x800000⟩ true).poison.contains 0x100001) = false := by
  decide +kernel

/-- Reads and software-managed stores: places of a plain and of a software-managed class; the last byte written. -/
theorem witness_visible_bytes : plainKind .coh ∧ plainKind (.spad 0) ∧ world.hot.held = [] ∧ 3 < ([1, 2, 3, 4] : List Byte).length ∧
    tabHas (guarded.getCore 0).l1c (0x800008 / 128 * 128) = true := by
  refine ⟨.inl rfl, .inr (.inr (.inr rfl)), ?_, ?_, ?_⟩ <;> decide +kernel

/-- A mask register with some lanes, and one with none. -/
def masked (x : Word) : State := world.withHot fun y => y.setM 1 x

/-- Vector accesses: elements of lanes 0 and 15, and no lane active. -/
theorem witness_vector_accesses :
    (let s := warm.withHot fun y => y.setM 1 0x8001
     match s.checkAll s.me s.die .load (vectorElems (s.m 1) fun k => 0x9000 + word (4 * k)) with
      | (s, none, ps) => !s.loadWaits ps && !s.storeWaits ps && s.loadsHit ps && s.storesHit ps && decide (ps.length = 2) && ps.all (fun q => q.1.kind == .coh) | _ => false) = true ∧
    passes world .load [(0, ⟨0x9000, 4, 4, false⟩)] (fun p => p.kind == .coh) = true ∧
    (∀ k < 16, ((masked 0).m 1).getLsbD k = false) ∧ ¬(∀ k < 16, ((masked 0x8000).m 1).getLsbD k = false) ∧
    causeOf (masked 1) .store (vectorElems ((masked 1).m 1) fun _ => 0x9002) = some (some .misaligned) := by decide +kernel

/-- Atomics: memory, HNC and a scratchpad; a word whose reply has come; a Bassoon. -/
theorem witness_atomics : passes world (.amo true) [(0, ⟨0x9000, 8, 8, false⟩)] (fun p => decide (p = ⟨.coh, 0x9000⟩)) = true ∧
    passes world (.amo false) [(0, ⟨0x00F0000000000000, 4, 4, false⟩)] (fun p => decide (p.kind = .spad 0)) = true ∧ world.hot.wait = none ∧
    world.atomicReady ⟨.coh, 0x9000⟩ = true ∧ { warm with homes := [(0x9000 * 32, .o 0)] }.atomicReady ⟨.coh, 0x9000⟩ = false ∧
    world.hot.meetsUpdate ⟨.coh, 0x9000⟩ 8 = false ∧ (amoWords 8 9 10 .pkg .none)[9]?.isSome = true ∧
    (let s := { world with hotId := 4 * 128 }
     s.piccolo = false ∧ passes s .cas2 [(0, ⟨0x9010, 16, 16, false⟩)] (fun p => decide (p = ⟨.coh, 0x9010⟩)) = true ∧ s.memOk) ∧
    (world.withHot fun x => { x with wait := some (.old 7) }).hot.wait = some (.old 7) := by
  unfold State.memOk; decide +kernel

/-- The accumulator granule at `0x800000` with two parts, whose first line is typed. -/
def accumulator : State := { classed 10 with acc := [(0x800000, ⟨.fp32, true, 1, true, true⟩)] }

/-- Reductions and accumulator words: the first element of the granule; the two half lines of a line; a legal descriptor for an
ordered line with one slot; no lane active; a misaligned base. -/
theorem witness_accumulators : passes accumulator .red [(0, ⟨0x800000, 4, 4, false⟩)] (fun p => decide (p = ⟨.acc 1, 0x800000⟩)) = true ∧
    passes accumulator .vacc (((List.range 16).filter fun k => (0x8001 : Word).getLsbD k).map fun k => (k, ⟨0x800040 + word (k * 4), 4, 4, false⟩))
      (fun p => decide (p.kind = .acc 1)) = true ∧
    passes accumulator (.accinit 0x10) [(0, ⟨0x800000, 128, 128, false⟩)] (fun p => decide (p.kind = .acc 1)) = true ∧
    passes accumulator .accz [(0, ⟨0x800000, 128, 128, false⟩)] (fun p => decide (p.kind = .acc 1)) = true ∧
    passes accumulator .accrd [(0, ⟨0x800004, accumulator.accElemSize 0x800004, 1, false⟩)] (fun p => decide (p = ⟨.acc 1, 0x800004⟩) && p.pa % 4 == 0) = true ∧
    (0x800040 : Word).toNat % 64 = 0 ∧ (0x800004 : Word).toNat % 64 ≠ 0 ∧ memWf accumulator.mem = true ∧ accumulator.hot.held = [] ∧
    (List.range 16).filter (fun k => (0 : Word).getLsbD k) = [] := by decide +kernel

/-! ## States and operands that meet the hypotheses of the statements: FP, vector and engine words -/

/-- `FCSR` with the trap for divisions by zero enabled, and the divide `FDIV g9, g8, g10` of 1.0 by zero. -/
def trapping : State := (world.withG [(8, 0x3F800000)]).withHot fun x => { x with fcsr := 0x800 }

/-- FpWords: every static mode, a dynamic one, flags whose trap is off and one whose trap is on. -/
theorem witness_fp_words : modeCode .rup 7 = 3 ∧ modeCode .dyn 3 = 3 ∧ modeCode .rne 7 = modeCode4 .rne 7 ∧ modeCode .rdn 0 = modeCode4 .rdn 0 ∧
    modeCode .rtz 0 = modeCode4 .rtz 0 ∧ world.piccolo = true ∧ shipsFp (.fdiv 9 8 10 .rne .fp32) = false ∧
    { world with hotId := 4 * 128 }.piccolo = false ∧
    (fDiv .fp32 .rne 0x3F800000 0).flags &&& (world.hot.fcsr.toNat / 2 ^ 8 % 2 ^ 5) = 0 ∧
    (fDiv .fp32 .rne (trapping.g 8).toNat (trapping.g 10).toNat).flags &&& (trapping.hot.fcsr.toNat / 2 ^ 8 % 2 ^ 5) ≠ 0 := by
  decide +kernel

/-- ShippedWords: words that ship; the window with its first entry free, its last, and none; HOME in service. -/
def shippedEntry : ShipEntry := ⟨.fadd 9 8 10 .rne .fp64, 0x8000, 0, 0, 0, none, none, none, 0⟩
def windowed (n : Nat) : State :=
  world.withHot fun x => { x with window := (List.range n).foldl (fun w k => w.set! k (some shippedEntry)) x.window }
theorem witness_shipped_words : shipsFp (.fadd 9 8 10 .rne .fp64) = true ∧ shipsFp (.fexp2 9 8 .fp32) = true ∧ (windowed 0).hot.window[0] = none ∧
    (windowed 7).hot.window[7] = none ∧ (∀ k : Fin 8, k < 7 → (windowed 7).hot.window[k.val] ≠ none) ∧
    (∀ k : Fin 8, (windowed 8).hot.window[k.val] ≠ none) ∧
    (world.getCore (coreKey world.die (128 + (world.shipTarget world.core).toNat % 2 ^ 8 % 4))).isolated = false := by decide +kernel

/-- A V word as an issue queue holds it. -/
def vectorEntry (i : Instr) : VEntry := ⟨i, 0x8000, [], 0, 0, 0, none, none, false, none, 0, 0⟩
def vectors (n : Nat) : State := world.withHot fun x => { x with vq := List.replicate n (vectorEntry (.vadd 1 2 3 0 .e32)) }

/-- Vector words: an empty stream on a Piccolo and a Bassoon; traps off and on; `q2` with 7 and 8 entries; the stream's queue
with 15 entries and with 16. -/
theorem witness_vector_words : performsAtOnce world (.vadd 1 2 3 0 .e8) ∧ performsAtOnce world (.vfdiv 1 2 3 0 .fp32) ∧
    performsAtOnce world (.barq 1 2 3 0) ∧ performsAtOnce trapping (.vfeq 1 2 3 0 .fp32) ∧ performsAtOnce world (.mfirst 8 1) ∧
    performsAtOnce (queued 2 7 world) (.vrsum (.q 0) 1 0 .e64) ∧ ((queued 2 7 world).hot.q[2]).length < 8 ∧
    performsAtOnce (queued 3 8 world) (.vext (.q 1) 1 8 0 .e16) ∧ 8 ≤ ((queued 3 8 world).hot.q[3]).length ∧
    0 &&& (world.hot.fcsr.toNat / 2 ^ 8 % 2 ^ 5) = 0 ∧ 8 &&& (trapping.hot.fcsr.toNat / 2 ^ 8 % 2 ^ 5) ≠ 0 ∧
    (vectors 15).hot.vq ≠ [] ∧ (vectors 15).hot.vq.length < 16 ∧ 16 ≤ (vectors 16).hot.vq.length ∧ (vectors 1).hot.rep = none ∧
    isV (.vadd 1 2 3 0 .e32) = true ∧ shipsV (.vadd 1 2 3 0 .e32) = false := by
  unfold performsAtOnce; decide +kernel

/-- ArithmeticRounds: in every format a zero, the least positive number, the greatest and its negative, an infinity, and a quiet and a
signalling NaN. -/
theorem witness_fp_operands : ∀ f ∈ [Fmt.fp64, .fp32, .h16, .b16], fpNumber f 0 = some 0 ∧ (fpNumber f 1).any (0 < ·) = true ∧
    (fpNumber f (fpGreatest f false)).any (0 < ·) = true ∧ (fpNumber f (fpGreatest f true)).any (· < 0) = true ∧
    fpIsInf f (fpInfinity f true) = true ∧ fpIsNan f (fpInfinity f true) = false ∧ fpIsNan f (fpQuietNan f) = true ∧
    fpIsSignalling f (fpQuietNan f) = false ∧ fpIsSignalling f (fpInfinity f false + 1) = true := by decide +kernel
/-- ArithmeticRounds: integers and powers of two, F8 and F8W codes at their ends and the NaN. -/
theorem witness_fp_values : fpNumber .fp32 0x3F800000 = some ((0 : ℤ) + 1) ∧ fpNumber .fp32 0xC0400000 = some (-3 : ℤ) ∧
    fpNumber .fp32 0x3E800000 = some ((2 : ℚ) ^ (-2 : ℤ)) ∧ (∀ wide : Bool, eightNumber wide 0x80 = none ∧ eightNumber wide 0 = some 0 ∧
      (eightNumber wide 0x7F).any (0 < ·) = true ∧ (eightNumber wide 0xFF).any (· < 0) = true) ∧ ((0 : ℤ) ≤ 5 ∧ (-2 ^ 7 : ℤ) < 0) := by
  decide +kernel

/-- Eight shadow registers of a transfer of 64 bytes, with no rows and no deal, and a parameter block of zeros at `0x9000`. -/
def shadowed (n : Word) : State :=
  warm.withHot fun x => { x with xset := x.xset.set 0 0x10000 |>.set 1 0x2000000000 |>.set 2 n |>.set 7 0x9000 }

/-- The block of an engine word as the word reads it: whether it can be read, the state after, and the bytes. -/
def blockAt (s : State) (va : Word) (n : Nat) : Bool × State × List Byte :=
  match s.checkAll s.me s.die .load [(0, ⟨va, n, 1, false⟩)] with
  | (s1, none, ps) => (!s1.loadWaits ps && s1.loadsHit ps, s1.readAll (some s1.core) ps)
  | (s1, _, _) => (false, s1, [])

/-- EngineWords: legal sets, the shortest and the longest, and one that deals to two targets; sets that break R307. -/
theorem shadowed_fields (n : Word) : (shadowed n).hot.xset[0] = 0x10000 ∧ (shadowed n).hot.xset[1] = 0x2000000000 ∧
    (shadowed n).hot.xset[2] = n ∧ (shadowed n).hot.xset[5] = 0 ∧ (shadowed n).hot.xset[6] = 0 := ⟨rfl, rfl, rfl, rfl, rfl⟩
theorem witness_legal_sets : legalShadow (shadowed 1).hot ∧ legalShadow (shadowed 0x1000000000).hot := by
  obtain ⟨-, -, h2, h5, h6⟩ := shadowed_fields 1
  obtain ⟨-, -, k2, k5, k6⟩ := shadowed_fields 0x1000000000
  simp only [legalShadow, h2, h5, h6, k2, k5, k6]
  decide
theorem witness_illegal_sets : ¬legalShadow (shadowed 0).hot ∧ ¬legalShadow (shadowed 0x1000000001).hot := by
  obtain ⟨-, -, h2, h5, h6⟩ := shadowed_fields 0
  obtain ⟨-, -, k2, k5, k6⟩ := shadowed_fields 0x1000000001
  simp only [legalShadow, h2, h5, h6, k2, k5, k6]
  decide
def dealing : Slot := { Slot.reset with
  xset := Slot.reset.xset.set 1 0x00F0000000000000 |>.set 2 128 |>.set 6 0x8000000000010200 }
theorem witness_legal_deal : legalShadow dealing := by
  have h : dealing.xset[1] = 0x00F0000000000000 ∧ dealing.xset[2] = 128 ∧ dealing.xset[5] = 0 ∧
    dealing.xset[6] = 0x8000000000010200 := ⟨rfl, rfl, rfl, rfl⟩
  simp only [legalShadow, h.1, h.2.1, h.2.2.1, h.2.2.2]
  decide
theorem witness_transfer_ranges : (shadowed 64).hot.writeRanges = [(0x2000000000, 0x2000000040)] ∧
    rangesApart [sideRange 0x10000 0 64 0 0] [(0x2000000000, 0x2000000040)] := by
  refine ⟨?_, ?_⟩
  · simp only [Slot.writeRanges, shadowed_fields]; decide +kernel
  · unfold rangesApart; decide +kernel
theorem witness_legal_block : let r := blockAt (shadowed 64) 0x9000 32
    r.1 = true ∧ r.2.1.hot.xset = (shadowed 64).hot.xset ∧ legalParams r.2.2 ∧ (shadowed 64).hot.updates = [] := by
  dsimp only [legalParams]; decide +kernel
theorem witness_illegal_block : let r := blockAt ((shadowed 64).withMem [(0x900A, 1, 16)]) 0x9000 32
    r.1 = true ∧ r.2.1.hot.xset = (shadowed 64).hot.xset ∧ ¬legalParams r.2.2 := by
  dsimp only [legalParams]; decide +kernel

/-- A matrix block of M = N = 32 and K = 64: A at `0x10000`, B at `0x20000`, C at `0x30000`. -/
def matrixBlock : List (Nat × Nat × Nat) :=
  [(0x9000, 8, 0x10000), (0x9008, 8, 0x20000), (0x9010, 8, 0x30000)]

/-- EngineWords: replies of each kind; an aligned block and a misaligned one; die 23 and die 24; legal and illegal blocks. -/
theorem witness_matrix_words : (world.withHot fun x => { x with wait := some .accepted }).hot.wait = some .accepted ∧
    (world.withHot fun x => { x with wait := some (.refused 6 7) }).hot.wait = some (.refused 6 7) ∧
    (world.withHot fun x => { x with wait := some .sent }).hot.wait = some .sent ∧ (0x9020 : Word).toNat % 64 ≠ 0 ∧ (0x9000 : Word).toNat % 64 = 0 ∧
    23 < (24 : Word).toNat % 2 ^ 5 ∧ (23 : Word).toNat % 2 ^ 5 ≤ 23 ∧
    (let r := blockAt (warm.withMem [(0x902F, 1, 1)]) 0x9000 64; r.1 = true ∧ badMqd r.2.2 = true) ∧
    (let r := blockAt (warm.withMem matrixBlock) 0x9000 64
     r.1 = true ∧ badMma r.2.2 = false ∧ rangesApart (mmaReads r.2.2) (mmaWrites r.2.2) ∧
      (mmaReads r.2.2).length + (mmaWrites r.2.2).length ≤ ((r.2.1.getDie 23).freeLocks).length ∧
      badMqd r.2.2 = false ∧ rangesApart (mqdReads r.2.2) (mqdWrites r.2.2) ∧
      (mqdReads r.2.2).length + (mqdWrites r.2.2).length ≤ ((r.2.1.getDie 0).freeLocks).length) := by
  dsimp only [rangesApart]; decide +kernel

/-! ## States and operands that meet the hypotheses of the statements: events of slots and cores -/

/-- A ship packet of `FADD` on fp64 from slot 0, under tag 0. -/
def packetOf (order : Nat) : ShipPacket :=
  ⟨(encode (.fadd 9 8 10 .rne .fp64)).getD 0, 0, 0, 0, 1, 0, false, 0, 0, 0, .scalar 1 2 0, 0, order⟩
/-- Bassoon 128 with a deficit and guest packets. -/
def bassoon (deficit : Nat) (guest : List ShipPacket) : State :=
  world.withCore 128 fun x => { x with deficit := deficit, guest := guest }

/-- SlotEvents: the last Piccolo and the first Bassoon; sums of 15, and of 16 with a guest and without. -/
theorem witness_issue_events : isBassoonCore 127 = false ∧ (world.getCore 127).isolated = false ∧ isBassoonCore 128 = true ∧
    (let x := (bassoon 14 [packetOf 0]).getCore 128; x.deficit + x.gshare < 16) ∧
    (let x := (bassoon 15 [packetOf 0]).getCore 128; 16 ≤ x.deficit + x.gshare ∧ x.guest = [packetOf 0] ∧ x.isolated = false) ∧
    (let x := (bassoon 15 []).getCore 128; 16 ≤ x.deficit + x.gshare ∧ x.guest = []) := by decide +kernel

/-- A slot in `WFM` that gives up at a tick, a token that awaits an arrival, and one whose activation has ended. -/
def waiting (limit : Option Nat) : State := world.withHot fun x => { x with phase := .wfm 9 limit, retired := 5 }
def awaiting (rest : List Event) : State := { tokened false with agenda := rest }

/-- SlotEvents: an arrival seen, one seen by an earlier word, a limit that has passed, none; a message awaited on its way and
not; a halted context; a live entry and an entry of another activation. -/
theorem witness_wakes_and_tokens : (waiting none).hot.phase = .wfm 9 none ∧ (waiting none).wakeCode 0 none = none ∧
    (waiting (some 0)).wakeCode 0 (some 0) = some 0 ∧ ((waiting none).hot.gen = 0 ∧ (waiting none).hot.retired = 5) ∧
    (let m := msgOf 0 0 0 1 0 0 []
     (awaiting [.taskMessageArrival 0 0 m .none]).awaited (.message m) = true ∧ (awaiting []).awaited (.message m) = false) ∧
    (tokened true).hot.tokens[3] = some ⟨9, [], true⟩ ∧ (tokened true).hot.gen ≠ 1 ∧
    (world.getCtx 1).live = true ∧ (world.getCtx 9).live = false := by decide +kernel

/-- SlotEvents: a V word at the head of its queue, and one performed whose trap is off. -/
theorem witness_vector_events : (let x := (vectors 1).hot
      x.vrun = none ∧ x.rep = none ∧ x.vq.length = 1 ∧ x.vq.all (fun v => v.tag.isNone && v.cap.isNone && (vTakes v.instr).isNone) = true) ∧
    (let v := vectorEntry (.vadd 1 2 3 0 .e32)
     let r := evalV v.instr (vOps v.instr world.hot v.gops 0) v.rm
     let x := (world.withHot fun x => { x with vrun := some (v, r) }).hot
     v.tag = none ∧ v.cap = none ∧ r.q = none ∧ vTrapped v.te r = false ∧ x.shipping = false ∧ x.phase = .running) := by decide +kernel

/-- A barrier whose two participants have contributed, and of which the slot waits. -/
def complete : State := { barriered [(0, 1, 5), (1, 1, 7)] [] with hot := { world.hot with wait := some (.barrier 3) } }

/-- SlotEvents: an acknowledgement awaited; an episode that is complete and of one OP, with one waiting slot and one that is not. -/
theorem witness_replies : (let x := (world.withHot fun x => { x with busy := [(9, .task)], creations := 1 }).hot
      x.gen = 0 ∧ (9, .task) ∈ x.busy ∧ x.phase = .running) ∧
    (∃ b, complete.barriers.find? (fun b => b.is 1 0 .die 0 5) = some b ∧ b.given = [(0, 1, 5), (1, 1, 7)] ∧ b.members = [0, 1] ∧
      waitsFor complete b 0 ∧ ¬waitsFor complete b 1) := by
  refine ⟨by decide +kernel, _, rfl, rfl, rfl, ?_, ?_⟩ <;> (unfold waitsFor; decide +kernel)

/-- A slot on the fault path, and the context that its report reaches. -/
def faulting : State := world.withHot fun x => { x with phase := .faulting ⟨0x0C, 0, false, 8, 0x8000, 0⟩ }

/-- A record is written where a position is free and every part of the record has a place. -/
theorem writes_save (s : State) (k p : Nat) (bs : List Byte)
    (hf : (s.getCtx (s.getSlot k).ctx).freePosition (s.getSlot k).lcore = some p)
    (hp : (s.tablePlaces (s.getSlot k).ctx (tableParts ((s.getCtx (s.getSlot k).ctx).saveAddr (s.getSlot k).lcore p) bs.length)).isSome = true) :
    ∃ u, s.writeSave k bs = (u, .position p) := by
  obtain ⟨l, hl⟩ := Option.isSome_iff_exists.mp hp
  simp [State.writeSave, hf, State.tableWrite, hl]

/-- SlotEvents: a slot on the fault path whose record goes to position 0 and whose endpoint is core 5; one with a shipped word. -/
theorem witness_fault_path : faulting.hot.quiet = true ∧ faulting.hot.supervisor = false ∧ faulting.hot.refusal = none ∧ faulting.hot.stub = none ∧
    (windowed 1).hot.quiet = false ∧ supervisor.hot.supervisor = true ∧
    (∃ u, faulting.writeSave 0 (saveRecord faulting.hot 0x8000 0 (2 ^ 32 - 1) (2 ^ 32 - 1) 255 1) = (u, .position 0)) ∧
    faulting.preempting 0 1 0 = false ∧ faulting.endpoint 0 1 = (.here 5, 0x8040) ∧ faulting.supervisorOf 1 = some 2 ∧
    (faulting.getCtx 2).acceptsHandler 0x8040 = true ∧ (faulting.getCtx 2).live = true := by
  refine ⟨?_, ?_, ?_, ?_, ?_, ?_, ?_, ?_, ?_, ?_, ?_, ?_⟩
  case refine_7 => exact writes_save _ _ 0 _ (by decide +kernel) (by decide +kernel)
  all_goals decide +kernel

/-- A slot at `ADD g9, q2, g8` with nothing in `q2`, whose page is in the instruction cache's reach. -/
def starved : State := claimed.withMem [(0x8000, 4, (encode (.add (.g 9) (.q 2) 8)).getD 0 + 2 ^ 30)]

/-- SlotEvents: a bundle that waits for an entry of `q2`; two recent errors of a core, and none. -/
theorem witness_watchdog : (starved.bundleWaits.map fun x => x.2).isSome = true ∧ starved.hot.wait = none ∧ starved.hot.rep = none ∧
    (∀ j : Fin 8, starved.hot.window[j.val] = none) ∧ (world.getCore 0).errors = [] ∧
    ((world.withCore 0 fun x => { x with errors := [0, 0] }).getCore 0).errors.length = 2 := by decide +kernel

/-! ## States and operands that meet the hypotheses of the statements: messages and pre-emption -/

/-- Logical core 0 with its spill queue's HEAD and TAIL, and with a given arrival queue at core 0. -/
def spilling (head tail : Nat) : State := world.withMem [(0x4008, 4, head), (0x400C, 4, tail)]
def arrived (l : List ArrEntry) (s : State) : State := s.withCore 0 fun x => { x with arrival := l }
/-- A task for logical core 0 of context 1. -/
def task (prio : Nat) : Msg := msgOf 0 0 prio 1 0 0 []
/-- A task of the same flow that is being retried. -/
def retried : State := { world with backoff := [.message 0 (task 0) .none none] }

/-- MessageEvents: a reserved flag; the forms of every type; a task of a live context that the queue takes, with 63 entries; one
that goes to the spill queue, with its last entry free; one that a full spill queue refuses. -/
theorem witness_arrivals : metaField ⟨0x8040, word (2 ^ 32 + 2 ^ 50), []⟩ 50 14 ≠ 0 ∧ formed (msgOf 3 0 0 1 0 0 []) 3 ∧ formed (msgOf 4 1 0 1 0 0 [1]) 4 ∧
    formed (msgOf 6 3 0 1 0 0 [1, 2, 3]) 6 ∧ taskMessage (task 0) ∧ (world.getCtx 1).live = true ∧ (world.getCtx 1).everLive = true ∧
    (spilling 0 0).spillDesc 1 0 = some ⟨0x10000, 0, 0, 7⟩ ∧ (spilling 0 0).holds 0 1 0 = some true ∧
    queueTakes (arrived (List.replicate 63 (entryOf (task 0) 0 0 0)) (spilling 0 0)) 0 (task 0) ⟨0x10000, 0, 0, 7⟩ true ∧
    ¬queueTakes (spilling 0 63) 0 (task 0) ⟨0x10000, 0, 63, 7⟩ true ∧ (spilling 0 63).spillDesc 1 0 = some ⟨0x10000, 0, 63, 7⟩ ∧
    (63 + 2 ^ 32 - 0) % 2 ^ 32 + 64 < 2 ^ 7 ∧ 2 ^ 7 ≤ (64 + 2 ^ 32 - 0) % 2 ^ 32 + 64 := by
  simp only [taskMessage, formed, queueTakes]; decide +kernel
theorem witness_spill_writes : ((spilling 0 63).tablePlaces 1 (tableParts (0x10000 + word (128 * 63)) 128)).isSome = true ∧
    ((spilling 0 63).tablePlaces 1 (tableParts ((context.spillbase + word 0) + 12) 4)).isSome = true := by decide +kernel
theorem witness_retries : ¬behindRetry world (task 0) ∧ behindRetry retried (task 0) := by
  refine ⟨?_, 0, task 0, Creator.none, ?_, rfl, rfl, rfl⟩
  · rintro ⟨k, n, c, h, -⟩
    exact absurd h List.not_mem_nil
  · decide +kernel

/-- MessageEvents: a fault report for a live context, for a dead one, and at a core with a mark of it. -/
theorem witness_fault_reports : endpointMessage (msgOf 5 6 3 1 0 0 []) ∧ endpointMessage (msgOf 2 1 3 1 0 0xFFFF [0]) ∧
    (world.getCtx 1).live = true ∧ (world.getCtx 9).live = false ∧ formed (msgOf 5 6 3 9 0 0 []) 5 ∧ (world.getCore 0).arrival.length < 64 ∧
    (∃ (k : PreMark), k ∈ ((world.withCore 0 fun x => { x with marks := [mark false] }).getCore 0).marks ∧ k.ctx = 1) := by
  refine ⟨?_, ?_, ?_, ?_, ?_, ?_, mark false, ?_, ?_⟩ <;> (try simp only [endpointMessage, formed]) <;> decide +kernel

/-- MessageEvents: a side whose register takes tasks for logical core 0 of context 1, and one that has no neighbour. -/
theorem witness_block_messages : (let u := world.withDie 0 fun x => { x with gateway := Vector.replicate 4 0x8000000100000000 }
      hasNeighbour 0 2 = true ∧ hasNeighbour 0 0 = false ∧ ((u.getDie 0).gateway[2]).toNat / 2 ^ 63 = 1 ∧
      ((u.getDie 0).gateway[2]).toNat / 2 ^ 32 % 2 ^ 8 = metaField (task 0) 32 8 ∧
      ((u.getDie 0).gateway[2]).toNat % 2 ^ 16 = metaField (task 0) 0 16) ∧ metaField (task 0) 40 4 = 0 := by decide +kernel

/-- MessageEvents: queues of 48 and 49 entries, with a spill queue that is not empty. -/
theorem witness_redelivery : ((arrived (List.replicate 48 (entryOf (task 0) 0 0 0)) (spilling 0 1)).getCore 0).arrival.length ≤ 48 ∧
    48 < ((arrived (List.replicate 49 (entryOf (task 0) 0 0 0)) (spilling 0 1)).getCore 0).arrival.length ∧
    ((spilling 0 1).withCtx 1 fun x => { x with spilled := [⟨0, 0, 0, false, none, 0, 0, 0⟩] }).servedContexts 0 ≠ [] ∧
    (world.ctxs.map fun x => x.1).Pairwise (· < ·) := by decide +kernel

/-- MessageEvents: a core whose slots 1 to 3 are free, with a task. -/
def ready : State := arrived [entryOf (task 0) 7 0 0] world
theorem witness_dispatch : lowestFree ready 0 1 ∧ chosenEntry ready 0 0 (entryOf (task 0) 7 0 0) ∧
    (ready.getCtx 1).acceptsHandler 0x8040 = true ∧ placeOfLookup (ready.ctLookup 0 1 0) = some (0, 0, 0) ∧
    (ready.getCore 0).isolated = false ∧ (ready.getCore 0).resuming = [] := by
  have hl : (ready.getCore 0).arrival = [entryOf (task 0) 7 0 0] := rfl
  refine ⟨?_, ⟨?_, ?_⟩, ?_, ?_, rfl, rfl⟩
  · simp only [lowestFree]; decide +kernel
  · refine ⟨rfl, rfl, ?_, ?_⟩
    · intro _ j b hj; omega
    · rw [if_neg (by decide +kernel)]; decide +kernel
  · intro j b hb
    obtain ⟨h, -⟩ := hb
    have h' : [entryOf (task 0) 7 0 0][j]? = some b := h
    cases j with
    | zero => cases h'; exact .inr ⟨rfl, le_refl _⟩
    | succ j => cases h'
  · decide +kernel
  · decide +kernel

/-- MessageEvents: an entry that rises, after 65,536 cycles, and one that does not. -/
theorem witness_aging : (let s := { arrived [entryOf (task 0) 0 0 0] world with time := 16384 }
     65536 ≤ ((s.cycleOf 0).toNat + 2 ^ 64 - 0) % 2 ^ 64) ∧
    (let s := { arrived [entryOf (task 0) 0 0 0] world with time := 16383 }
     ((s.cycleOf 0).toNat + 2 ^ 64 - 0) % 2 ^ 64 < 65536) := by decide +kernel

/-- MessageEvents: a task in the queue, in a spill ring, moved on, and moved so long ago that its entry has expired. -/
theorem witness_task_control : (metaField (task 0) 32 8 = 1 ∧ metaField (task 0) 40 4 < 3) ∧
    (let s := world.withHot fun x => { x with busy := [(9, .control)] }
     s.hot.gen = 0 ∧ (9, .control) ∈ s.hot.busy ∧ s.hot.phase = .running) ∧
    (let s := world.withCtx 1 fun x => { x with spilled := [⟨0, 0, 5, false, none, 0, 0, 0⟩] }
     (⟨0, 0, 5, false, none, 0, 0, 0⟩ : Spilled) ∈ (s.getCtx 1).spilled ∧ s.holds 0 1 0 = some true) ∧
    (world.cycleOf 0 - word 0).toNat < 2 ^ 20 ∧ ¬({ world with time := 2 ^ 18 }.cycleOf 0 - word 0).toNat < 2 ^ 20 ∧
    (1, 5, 1, 0) ∈ ((world.withCore 0 fun x => { x with fwd := [(1, 5, 1, 0)] }).getCore 0).fwd := by decide +kernel

/-! ### Pre-emption -/

/-- PreemptionEvents: logical core 0 of core 0 runs; core 1 holds logical core 1, which no slot runs. -/
theorem witness_preempt_messages : formed (msgOf 3 0 0 1 0 0 []) 3 ∧ world.heldCores 0 1 = some [0] ∧ runsOn world 0 1 0 ∧
    world.heldCores 1 1 = some [1] ∧ ¬runsOn world 1 1 1 ∧ world.endpoint 0 1 = (.here 5, 0x8040) ∧ world.supervisorOf 1 = some 2 ∧
    (world.getCtx 2).acceptsHandler 0x8040 = true ∧ (world.getCore 0).marks = [] := by
  refine ⟨?_, ?_, ⟨0, by decide, ?_⟩, ?_, ?_, ?_, ?_, ?_, rfl⟩
  all_goals first | (simp only [formed]; decide +kernel) | (unfold runsOn; decide +kernel) | decide +kernel
/-- PreemptionEvents: an entry of a marked logical core goes back before the head of its ring, and one of another context stays. -/
theorem witness_put_back : (spilling 1 1).spillDesc 1 0 = some ⟨0x10000, 1, 1, 7⟩ ∧
    ((spilling 1 1).tablePlaces 1 (tableParts (0x10000 + word 0) 128)).isSome = true ∧
    ((spilling 1 1).tablePlaces 1 (tableParts (context.spillbase + word 0 + 8) 4)).isSome = true ∧
    ¬(metaField (task 0) 32 8 ≠ 1 ∨ metaField (task 0) 40 4 = 5) ∧ metaField (msgOf 0 0 0 2 0 0 []) 32 8 ≠ 1 := by decide +kernel

/-- PreemptionEvents: a slot that saves, with the mark of its logical core and nothing under way. -/
def saver : State := (world.withHot fun x => { x with phase := .saving 0x8020 6 0 0 }).withCore 0 fun x => { x with marks := [mark false] }
theorem witness_safe_point_save : saver.hot.quiet = true ∧ (windowed 1).hot.quiet = false ∧
    (∃ u, saver.writeSave 0 (recordOf saver.hot saver.hot.pc 0x8020 6 0 0 0) = (u, .position 0)) := by
  refine ⟨by decide +kernel, by decide +kernel, writes_save _ _ 0 _ (by decide +kernel) (by decide +kernel)⟩

/-- PreemptionEvents: logical core 1 of core 1 with its record at position 0, and the resume of it. -/
def saved : State := (((world.withMem [(0x84000, 8, 0x8000), (0x84008, 8, 0), (0x84010, 4, 6), (0x84020, 8, 5)]).withCtx 1 fun x =>
  { x with occupied := [4], seqs := [(4, 9)] }).withCore 1 fun x => { x with marks := [⟨1, 1, true, 0x8040, []⟩] })
def resuming (mask n : Nat) : State := saved.withCore 1 fun x => { x with resuming := [(1, 1, mask, n)] }
theorem witness_resume_messages : formed (msgOf 4 1 0 1 0 1 [1]) 4 ∧ hasMark saved 1 1 1 ∧ ¬hasMark world 1 1 1 ∧ world.holds 1 1 1 = some true ∧
    1 * 4 + 0 ∈ (saved.getCtx 1).occupied ∧ (saved.getCore 1).resuming = [] := by
  refine ⟨by simp only [formed]; decide +kernel, ⟨⟨1, 1, true, 0x8040, []⟩, by decide +kernel, rfl, rfl⟩, ?_, by decide +kernel, by decide +kernel, rfl⟩
  rintro ⟨k, h, -⟩
  have : (world.getCore 1).marks = [] := rfl
  simp [this] at h
theorem witness_resumption : ((resuming 1 1).getCore 1).resuming[0]? = some (1, 1, 1, 1) ∧ lowestFree (resuming 1 1) 1 0 ∧
    (∃ b, (resuming 1 1).recordAt 1 1 0 = some b ∧ word (blockNumber b 0 8) = 0x8000 ∧ word (blockNumber b 8 8) = 0) ∧
    ((resuming 0 0).getCore 1).resuming = [(1, 1, 0, 0)] := by
  refine ⟨rfl, by simp only [lowestFree]; decide +kernel, ?_, rfl⟩
  have h : ((resuming 1 1).recordAt 1 1 0).isSome = true := by decide +kernel
  obtain ⟨b, hb⟩ := Option.isSome_iff_exists.mp h
  refine ⟨b, hb, ?_⟩
  have h2 : ((resuming 1 1).recordAt 1 1 0).all (fun b => decide (word (blockNumber b 0 8) = 0x8000) && decide (word (blockNumber b 8 8) = 0)) = true := by
    decide +kernel
  simpa [hb] using h2

/-! ## States and operands that meet the hypotheses of the statements: the ship path, engines, homes -/

/-- Bassoon 128 with `n` guest packets, out of service or not. -/
def guested (n : Nat) (out : Bool) : State :=
  world.withCore 128 fun x => { x with guest := List.replicate n (packetOf 0), isolated := out }

/-- ShipEvents: a guest queue of 63 and of 64 entries; a Bassoon out of service; targets that take turns, and that do not; a
refused packet. -/
theorem witness_ship_packets : ((guested 63 false).getCore 128).guest.length < 64 ∧ 64 ≤ ((guested 64 false).getCore 128).guest.length ∧
    ((guested 0 true).getCore 128).isolated = true ∧ (world.getSlot (packetOf 0).slot).gen = (packetOf 0).gen ∧
    takesTurns 0x84 ∧ ¬takesTurns 0x04 ∧ ¬takesTurns 0x80 ∧ homeBassoon 0 0x84 = 128 ∧ altBassoon 0 0x84 = 129 ∧
    Resend.packet (packetOf 0) true ∈ ({ world with backoff := [.packet (packetOf 0) true] } : State).backoff := by
  unfold takesTurns; decide +kernel

/-- The packet of a `CAS2` on the bytes at an address. -/
def pairPacket (a : Word) : ShipPacket :=
  ⟨(encode (.cas2 4 9 5 .pkg .none)).getD 0, 0, 0, 0, 1, 0, false, 0, 1, 0, .pair a 0 0 1 2, 0, 0⟩
def guestAt (p : ShipPacket) (s : State) : State := s.withCore 128 fun x => { x with running := [p] }
def guestWhoOf (p : ShipPacket) : Who := ⟨p.ctx, p.lcore, p.slot % 4, p.supervisor, 128, false, p.asid⟩
/-- The check of a `CAS2` in a guest entry. -/
def pairCheck (s : State) (p : ShipPacket) (a : Word) : State × Option AccFault × List (Phys × Elem) :=
  s.checkAll (guestWhoOf p) 0 .cas2 [(0, ⟨a, 16, 16, false⟩)]

/-- ShipEvents: a scalar packet whose flags its traps let by; a pair packet that faults, one at COH memory, whose line no cache holds and
one holds, and one at a scratchpad. -/
theorem witness_guest_entries : packetOf 0 ∈ ((guestAt (packetOf 0) world).getCore 128).running ∧ decodeWord ((packetOf 0).iword % 2 ^ 32) = .ok (.fadd 9 8 10 .rne .fp64) ∧
    (evalFp (.fadd 9 8 10 .rne .fp64) 1 2 0 0).2 &&& (packetOf 0).te = 0 ∧ decodeWord ((pairPacket 0).iword % 2 ^ 32) = .ok (.cas2 4 9 5 .pkg .none) ∧
    (match pairCheck world (pairPacket 0x9008) 0x9008 with | (_, some f, _) => decide (f.cause = some .misaligned) | _ => false) = true ∧
    (match pairCheck world (pairPacket 0x9010) 0x9010 with
      | (s, none, (q, _) :: _) => decide (q.kind = .coh) && s.atomicReady q && memWf s.mem && !{ s with homes := [(0x9000 * 32, .o 0)] }.atomicReady q
      | _ => false) = true ∧
    (match pairCheck world (pairPacket 0x00F0000000000000) 0x00F0000000000000 with
      | (_, none, (⟨.spad _, pa⟩, _) :: _) => decide (pa < remoteBase) | _ => false) = true := by decide +kernel

/-- A shipped word that has gone out, with a register logged behind it, and its slot. -/
def shipped : ShipEntry := { shippedEntry with order := 3, spd := 2, retired := 7 }
def shipping : State := world.withHot fun x => { x with
  window := x.window.set 2 (some shipped), order := 5, history := [(4, .g 9 11)] }

/-- ShipEvents: the only shipped word of a slot; what it writes; a reply for another activation; a packet that has been sent. -/
theorem witness_ship_replies : onlyShipped shipping.hot 0 2 3 shipped ∧ regUse shipped.instr = { regUse shipped.instr with vw := [], mw := [], gw := [9] } ∧
    vAppends shipped.instr = none ∧ (∀ h ∈ shipping.hot.history, shipped.order < h.1) ∧ shipping.hot.held = [] ∧ shipping.hot.gen ≠ 1 ∧
    shipping.hot.trapvec = 0 ∧ (shipping.withHot fun x => { x with trapvec := 0x8100 }).hot.trapcause.getLsbD 9 = false ∧
    regUse (.vfdiv 1 2 3 0 .fp32) = { regUse (.vfdiv 1 2 3 0 .fp32) with vw := [1] } ∧ vAppends (.vfdiv 1 2 3 0 .fp32) = none ∧
    ({ shipped with packet := some (packetOf 3) } : ShipEntry).packet = some (packetOf 3) ∧ shipped.reply = none := by
  refine ⟨⟨rfl, rfl, ?_, rfl, rfl, rfl, rfl, rfl, rfl, rfl, rfl⟩, ?_⟩
  · decide +kernel
  · decide +kernel

/-! ### Engines -/

/-- A transfer of 64 bytes from `0x10000` to `0x20000`, by the least busy engine. -/
def transferOf (auto : Bool) : BteCmd := ⟨0, 0, 9, 1, 0, false, 0x10000, 0x20000, 64, 0, 0, 0, 0, 0x8040, 0, 2, 5, auto, 0, 1, 7, []⟩
/-- A matrix command on die 0 with the given capability, of M = N = 32 and K = 64. -/
def matrixOf (mqd : Bool) (capability : Nat) : MxeCmd :=
  ⟨0, 0, 1, 0, false, 0, mqd, 0x9000, List.replicate 32 0 ++ leBytes capability 8 ++ List.replicate 24 0, 0, 2, 1, []⟩
/-- A capability of context 1 for engine 0, whose life has begun. -/
def goodCapability : Nat := 1 * 2 ^ 56 + 1 * 2 ^ 48 + 1 * 2 ^ 32

/-- EngineEvents: queues of 15 and of 16 transfers; a matrix command that each check refuses, and one that passes; a kept capability
and a wrong one. -/
theorem witness_engine_arrivals : ((world.withDie 0 fun x => { x with bteQ := x.bteQ.set 7 (List.replicate 16 (transferOf false)) }).getDie 0).bteQ[7].length = 16 ∧
    (∀ j : Fin 8, (world.getDie 0).bteQ[0].length < (world.getDie 0).bteQ[j.val].length ∨
      ((world.getDie 0).bteQ[0].length = (world.getDie 0).bteQ[j.val].length ∧ 0 ≤ j)) ∧
    capabilityFails world 0 0 (matrixOf false 0) = some 1 ∧ capabilityFails world 0 1 (matrixOf false goodCapability) = some 2 ∧
    capabilityFails world 1 0 (matrixOf false goodCapability) = some 3 ∧ capabilityFails world 0 0 (matrixOf false (goodCapability + 2 ^ 53)) = some 4 ∧
    capabilityFails world 0 0 (matrixOf false (1 * 2 ^ 56 + 1 * 2 ^ 48)) = some 5 ∧ capabilityFails world 0 0 (matrixOf false goodCapability) = none ∧
    world.package.keysErased = false ∧ blockNumber (matrixOf false goodCapability).bytes 32 8 = goodCapability := by decide +kernel

/-- EngineEvents: a slot that waits for each reply. -/
theorem witness_engine_replies : (let x := (world.withHot fun x => { x with busy := [(9, .engine), (10, .mac)] }).hot
      x.gen = 0 ∧ x.phase = .running ∧ (9, .engine) ∈ x.busy ∧ (10, .mac) ∈ x.busy) ∧
    (world.withHot fun x => { x with wait := some .sent }).hot.wait = some .sent ∧
    (((world.withDie 0 fun x => { x with macWait := [(8, matrixOf false goodCapability)] }).getDie 0).macWait.find? fun z => z.1 == 8) =
      some (8, matrixOf false goodCapability) := by decide +kernel

/-- The package with a transfer at the head of engine 0, and with a matrix command at the head of matrix engine 0. -/
def transferring : State := claimed.withDie 0 fun x => { x with bteQ := x.bteQ.set 0 [transferOf true] }
def multiplying (mqd : Bool) : State := claimed.withDie 0 fun x => { x with mxeQ := x.mxeQ.set 0 [matrixOf mqd goodCapability] }
/-- What the transfer moves at each of its bytes, for the first four of them. -/
def movesOf (s : State) (c : BteCmd) (n : Nat) : State × List CmdFault × List (Nat × Nat × Nat) :=
  foldAll (State.movePlaces ⟨c.ctx, c.lcore, 0, c.supervisor, 160, true, s.asidOf c.ctx⟩ c) s (List.range n)
def shortTransfer : BteCmd := { transferOf true with cnt := 4 }
/-- A transfer of which one byte alone meets a fault ends with that fault. -/
theorem transfer_meets (s : State) (die engine : Nat) (c : BteCmd) (fault : Bool) (e : CmdFault) (hc : e.code ≠ 0)
    (h : (foldAll (State.movePlaces (engineWho die engine c.ctx c.lcore c.supervisor (s.asidOf c.ctx)) c) s
      (List.range (c.cnt.bits 0 37))).2.1 = [e]) : (s.transfer die engine c fault).2 = some e := by
  rcases hf : foldAll (State.movePlaces (engineWho die engine c.ctx c.lcore c.supervisor (s.asidOf c.ctx)) c) s
    (List.range (c.cnt.bits 0 37)) with ⟨u, es, ms⟩
  rw [hf] at h
  obtain rfl : es = [e] := h
  simp [State.transfer, hf, State.chooseFault, State.movePart, hc]
def byteTransfer : BteCmd := { transferOf true with cnt := 1, src := 0x0100000000000000 }
theorem witness_transfer_faults (fault : Bool) : ((transferring.transfer 0 0 byteTransfer fault).2.map fun f => f.code) = some 2 := by
  rw [transfer_meets _ _ _ _ _ ⟨2, 0x0100000000000000⟩ (by decide) (by decide +kernel)]; rfl

/-- EngineEvents: a transfer of four bytes that meets no fault, one from an address that no page maps, and one from a page that nobody
has claimed; a completion whose logical core
lies on this die, and one on another. -/
theorem witness_transfers : (transferring.getDie 0).bteQ[0] = [transferOf true] ∧ transferring.running (transferOf true).after = false ∧
    (let r := movesOf transferring shortTransfer 4
     r.2.1 = [] ∧ r.2.2.length = 4 ∧ (r.2.2.map fun m => m.2.2).Nodup ∧ memWf r.1.mem = true ∧ r.1.poison = []) ∧
    (movesOf transferring { shortTransfer with src := 0x0100000000000000 } 4).2.1 ≠ [] ∧
    ((world.transfer 0 0 shortTransfer false).2.map fun f => f.code) = some 0 ∧
    (transferring.transfer 0 0 shortTransfer false).2 = none ∧ (transferring.getCtx 1).live = true ∧
    placeOfLookup (transferring.ctRead 1 0) = some (transferring.pkg, 0, 0) ∧
    placeOfLookup (transferring.ctRead 1 2) = some (transferring.pkg, 1, 4) := by decide +kernel

/-- EngineEvents: operands of one family, an isolated Bassoon, a parked command with a place in its queue and with none. -/
def parkedAt (n : Nat) : State := world.withDie 0 fun x => { x with
  park := [(3, ⟨matrixOf false goodCapability, 0, 6, 0, false⟩)], mxeQ := x.mxeQ.set 0 (List.replicate n (matrixOf false goodCapability)) }
theorem witness_matrix_engines : ((multiplying true).getDie 0).mxeQ[0] = [matrixOf true goodCapability] ∧ (multiplying true).running [] = false ∧
    mxeFamily (mmaFa (matrixOf false 0).bytes) = mxeFamily (mmaFb (matrixOf false 0).bytes) ∧
    ((guested 0 true).getCore (0 * 256 + 128 + 8 % 4)).isolated = true ∧ (world.getCore (0 * 256 + 128 + 8 % 4)).isolated = false ∧
    (((parkedAt 15).getDie 0).park.find? fun z => z.1 == 3) = some (3, ⟨matrixOf false goodCapability, 0, 6, 0, false⟩) ∧
    ((parkedAt 15).getDie 0).mxeQ[0].length < 16 ∧ 16 ≤ ((parkedAt 16).getDie 0).mxeQ[0].length ∧
    ((parkedAt 0).getDie 0).park.find? (fun z => z.1 == 4) = none := by decide +kernel

/-- EngineEvents: what is sent again: a command, a record at a work queue with a place, a message that the queue takes. -/
theorem witness_resends : (∀ (k : Nat) (n : Msg) (c : Creator), Resend.message k n c none ∈ retried.backoff → oneFlow n (task 0) →
      Resend.message k n c none = Resend.message 0 (task 0) Creator.none none) ∧ Resend.message 0 (task 0) Creator.none none ∈ retried.backoff ∧
    (world.getDie 0).work.length < 512 ∧ (world.getDie 0).mxeQ[0].length < 16 := by
  refine ⟨?_, by decide +kernel, by decide +kernel, by decide +kernel⟩
  intro k n c h _
  exact List.mem_singleton.mp h

/-! ### At the home -/

/-- An update of the first element of the accumulator granule, of a type and a contributor. -/
def updateOf (ty : AccType) (contrib : Nat) : NruUpdate := ⟨0, 0, 1, 0, 0, false, 5, ty, contrib, 1, [(0x800000, 0x800000, 0x3F800000)]⟩

/-- HomeEvents: an untyped line, another type, the first contributor that no slot line has, and the last that has one; a dirty line and
a clean one. -/
theorem witness_updates : tabHas (classed 10).acc (lineOf 0x800000) = false ∧ tabHas accumulator.acc (lineOf 0x800000) = true ∧
    (let st := accumulator.accState (lineOf 0x800000)
     st.ty ≠ (updateOf .i64 0).ty ∧ st.ty = (updateOf .fp32 0).ty ∧ st.ordered = true ∧ st.n ≤ (updateOf .fp32 1).contrib ∧
      (updateOf .fp32 0).contrib < st.n ∧ st.dirty = true) ∧ memWf accumulator.mem = true ∧ accumulator.accGranule 0x800000 = some 1 ∧
    (updating.getSlot 0).gen = (updateOf .fp32 0).gen ∧ (updating.getSlot 0).active = true ∧
    (accumulator.acc.map fun z => z.1).Pairwise (· < ·) ∧
    ({ accumulator with acc := [(0x800000, ⟨.fp32, true, 1, false, true⟩)] }.accState 0x800000).dirty = false := by decide +kernel

/-- A remote atomic of slot 0 on 8 bytes of its scratchpad. -/
def atomicOf (tag : Option (Fin 8)) : AtomMsg := ⟨0, 0, 5, tag, (encode (.amoaddD 9 8 10 .pkg .none)).getD 0, spadBase, 1, 2⟩
/-- HomeEvents: an atomic word on bytes with poison and without; a slot that waits for the reply; a `RED`; a line that no cache has and
one that a cache has. -/
theorem witness_home_atomics : (Instr.amoaddD 9 8 10 .pkg .none, 8, 0) ∈ microWords 9 8 10 0 0 .pkg .none ∧
    decodeWord ((atomicOf none).iword % 2 ^ 32) = .ok (.amoaddD 9 8 10 .pkg .none) ∧ world.poison = [] ∧
    ({ world with poison := [spadBase / 8] } : State).poison = [(atomicOf none).pa / 8] ∧
    (world.withHot fun x => { x with wait := some .sent }).hot.wait = some .sent ∧
    decodeWord ((encode (.redIaddD 8 10 .pkg .none)).getD 0 % 2 ^ 32) = .ok (.redIaddD 8 10 .pkg .none) ∧
    world.classify (homeDie 0x9000) 0x9000 = .ok ⟨.coh, 0x9000⟩ ∧ world.atomicReady ⟨.coh, 0x9000⟩ = true ∧
    { world with homes := [(0x9000 * 32, .o 0)] }.atomicReady ⟨.coh, 0x9000⟩ = false := by decide +kernel

/-- The package with host memory and ports accepted. -/
def hosting : State := { world with package := { world.package with accepted := 2 ^ 10 + 2 ^ 11 + 2 ^ 12 } }
/-- HomeEvents: DRAM and the host's window; features accepted and not; a page private to a core; a line that the host's agent has; an HCO
line that a port's agent has. -/
theorem witness_host_requests : hosting.package.accepts 10 = true ∧ hosting.package.accepts 11 = true ∧ world.package.accepts 10 = false ∧
    hosting.classify (hosting.lineHome 0x9000) 0x9000 = .ok ⟨.coh, 0x9000⟩ ∧ (∃ k, region hosting.pkg 0x9000 = .near k) ∧
    hosting.privateOwner 0x9000 = none ∧ hosting.cst 0x9000 (hostAgent 0) = none ∧ (hosting.hostCopies (hostAgent 0)).length < 262144 ∧
    { hosting with pages := [(0x2000, { sharedPage with owner := .priv 0 3 })] }.privateOwner 0x9000 = some 3 ∧
    { hosting with caches := [(0x9000 * 8192 + hostAgent 0, CState.e)] }.cst 0x9000 (hostAgent 0) = some .e ∧
    lineOf (0x9078 + 8 - 1) = lineOf 0x9078 ∧ (∃ k, region hosting.pkg hostBase = .host k) ∧ tabHas hosting.hco hostBase = false := by
  refine ⟨?_, ?_, ?_, ?_, ⟨_, rfl⟩, ?_, ?_, ?_, ?_, ?_, ?_, ⟨_, rfl⟩, ?_⟩ <;> decide +kernel
theorem witness_host_window : (let s := { hosting with
        mctbase := 0x6000001, package := { hosting.package with accepted := 2 ^ 9 } }.withMem [(0x6000000 + 3932160, 1, 4)]
      s.classify (s.lineHome hostBase) hostBase) = .ok ⟨.hco, hostBase⟩ := by decide +kernel

/-! ## States and operands that meet the hypotheses of the statements: coherence -/

/-- The package with a state of the line at `0x9000` in the caches of agents, and at the directory of its home, on a shared page. -/
def lined (cs : List (Nat × CState)) (h : Option HState) : State := { world with
  pages := [(0x2000, sharedPage)]
  caches := cs.map fun x => (0x9000 * 8192 + x.1, x.2)
  homes := (h.map fun y => (0x9000 * 32, y)).toList }

/-- LineEvents: the first line and a last; an agent that may hold it, and one of a page private to another; every state of a cache and of
a home; agents at the ends of their ranges; another die's proxy. -/
theorem witness_line_requests : 0x9000 % 128 = 0 ∧ (lined [] none).mayCache ((lined [] none).kindFor 0x9000 0) 0x9000 0 = true ∧
    (let u := { lined [] none with pages := [(0x2000, { sharedPage with owner := .priv 0 3 })] }
     u.mayCache (u.kindFor 0x9000 0) 0x9000 0 = false) ∧
    (lined [] none).cst 0x9000 0 = none ∧ (lined [(0, .s)] none).cst 0x9000 0 = some .s ∧ (lined [(0, .e)] none).cst 0x9000 0 = some .e ∧
    (lined [(0, .m)] none).cst 0x9000 0 = some .m ∧ (lined [] none).hst 0x9000 0 = none ∧ (lined [] (some (.s [1, 2]))).hst 0x9000 0 = some (.s [1, 2]) ∧
    (lined [] (some (.o 3))).hst 0x9000 0 = some (.o 3) ∧ (lined [] (some (.sd [3, 0]))).hst 0x9000 0 = some (.sd [3, 0]) ∧
    (lined [] none).privateOwner 0x9000 = none ∧ (lined [] none).lineHome 0x9000 = 0 ∧ plainAgent 0 ∧ plainAgent (31 * 256 + 135) ∧
    { lined [] none with pages := [(0x2000, { sharedPage with owner := .priv 0 3 })] }.privateOwner 0x9000 = some 3 ∧
    (lined [(proxyAgent 1, .e)] none).cst 0x9000 (proxyAgent 1) = some .e ∧ (lined [] none).cst 0x9000 (proxyAgent 1) = none ∧
    (256 : Nat) / 256 ≠ (lined [] none).lineHome 0x9000 ∧ (254 : Nat) % 256 = 254 := by
  unfold plainAgent; decide +kernel

/-- LineEvents: dirty lines of a software-managed class in a core, and of a hardware-managed one. -/
theorem witness_line_evictions : (∃ p, (lined [(0, .m)] none).classify 0 0x9000 = .ok p ∧ p.kind.bySoftware = false) ∧
    (∃ p, (classed 1).classify 0 0x800000 = .ok p ∧ p.kind.bySoftware = true) := by
  refine ⟨⟨⟨.coh, 0x9000⟩, ?_, ?_⟩, ⟨⟨.swm, 0x800000⟩, ?_, ?_⟩⟩ <;> decide +kernel

/-- LineEvents: a cache with no stalled forward and with one; the states that answer, stall, or give up; a proxy over an owner and over
sharers; a directory that recalls; the last acknowledgement and one before it. -/
theorem witness_line_answers : (lined [] none).forwards = [] ∧ forwardTo (.inv 0x9000 0 1) = some 0 ∧ (lined [(0, .miA)] none).cst 0x9000 0 = some .miA ∧
    (lined [(0, .imAD 0)] none).cst 0x9000 0 = some (.imAD 0) ∧ (lined [(0, .smA 1)] none).cst 0x9000 0 = some (.smA 1) ∧
    (lined [(0, .smAD 0)] none).cst 0x9000 0 = some (.smAD 0) ∧ (lined [(0, .siA)] none).cst 0x9000 0 = some .siA ∧
    (lined [(0, .iiA)] none).cst 0x9000 0 = some .iiA ∧ (lined [(0, .isD)] none).cst 0x9000 0 = some .isD ∧ (lined [(0, .imA 1)] none).cst 0x9000 0 = some (.imA 1) ∧
    ({ world with homes := [(0x9000 * 32 + 1, .o 256)] } : State).hst 0x9000 1 = some (.o 256) ∧
    ({ world with homes := [(0x9000 * 32 + 1, .s [256])] } : State).hst 0x9000 1 = some (.s [256]) ∧ (1 * 256 + 255) % 256 = 255 ∧
    (lined [] (some (.rc 1))).hst 0x9000 0 = some (.rc 1) ∧ (lined [] (some (.rc 2))).hst 0x9000 0 = some (.rc 2) ∧
    (136 : Nat) % 256 = 136 ∧ (hostAgent 0) % 256 = 136 ∧ hostAgent 0 < 8192 := by decide +kernel
theorem witness_host_lines : tabHas world.hco hostBase = false ∧ tabHas ({ world with hco := [(hostBase, true)] } : State).hco hostBase = true ∧
    ({ world with hco := [(hostBase, true)] } : State).lineFree hostBase = true ∧
    ({ world with hco := [(hostBase, true)], homes := [(hostBase * 32 + world.lineHome hostBase, .o 0)] } : State).lineFree hostBase = false ∧
    ({ world with homes := [(hostBase * 32 + world.lineHome hostBase, .o 0)] } : State).hst hostBase (world.lineHome hostBase) = some (.o 0) := by
  decide +kernel

/-- The page of the tables with an owner field, while it is recalled or evicted. -/
def paged (o : Owner) (recalling evicting : Bool) (waits : List Nat) : State := { world with
  pages := [(0x2000, { sharedPage with owner := o, recalling := recalling, evicting := evicting, waiting := waits })] }

/-- PageEvents: no field; a private one, of the claimant and of another, recalled and not; a shared one, evicted and not; lines that
change and that do not; a page with a line cached and with none. -/
theorem witness_pages : (world.pages.find? fun z => z.1 == 0x2000) = none ∧ world.ownerAgent 0 = true ∧ world.ownerAgent 160 = false ∧
    world.pageHeld sharedPage.leaf = false ∧ (lined [(0, .e)] (some (.o 0))).pageHeld sharedPage.leaf = true ∧
    ((paged (.priv 0 3) false false []).pages.find? fun z => z.1 == 0x2000) = some (0x2000, { sharedPage with owner := .priv 0 3 }) ∧
    ((paged (.priv 0 3) true true [5]).pages.find? fun z => z.1 == 0x2000) = some (0x2000, ⟨.priv 0 3, sharedPage.leaf, true, true, [5]⟩) ∧
    ((paged .shared false true []).pages.find? fun z => z.1 == 0x2000) = some (0x2000, ⟨.shared, sharedPage.leaf, false, true, []⟩) ∧
    leafHolds sharedPage.leaf ((0x9000 * 8192 + 3) / 8192) = true ∧ (0x9000 * 8192 + 3) % 8192 = 0 * 256 + 3 ∧ sharedPage.leaf.pte = 0x2000 := by
  decide +kernel

/-- PageEvents: a walk that no TLB forestalls, for an agent that may hold a page and for an engine; addresses that no walk takes. -/
theorem witness_page_walk : (world.getCtx 1).live = true ∧ (world.getCtx 1).asidr.toNat / 2 ^ 60 = 10 ∧ world.tlbFind 0 0 0x9000 false = none ∧
    (match world.walk (dieOfCore 0) (world.getCtx 1).asidr 0x9000 with
      | .ok l => (permFault false l.u l.r l.w l.x ⟨true, false, false⟩).isNone | _ => false) = true ∧ memWf world.mem = true ∧
    (160 ≤ 171 % 256 ∧ 171 % 256 < 172) ∧ canonical 0x0100000000000000 = false ∧ inAperture 0x00F0000000000000 = true := by decide +kernel

/-! ## States and operands that meet the hypotheses of the statements: placement, launches, power -/

/-- A work record of context 1 for logical cores 0 and 1. -/
def recordOfWork (prio : Nat) : WorkRecord := ⟨task prio, 0, 2, 0x40, 64, .none⟩
def working (n : Nat) : State := world.withDie 0 fun x => { x with work := List.replicate n (recordOfWork 0) }

/-- Logical core 0 of context 1 takes new work, on core 0. -/
theorem offers_first : offers world 0 1 0 0 := by
  have h : ∃ w e, world.ctRead 1 0 = .entry w e ∧ e.pkg = 0 ∧ e.die = 0 ∧ e.pcore = 0 := by
    have h : (match world.ctRead 1 0 with | .entry _ e => decide (e.pkg = 0) && decide (e.die = 0) && decide (e.pcore = 0) | _ => false) = true := by
      decide +kernel
    cases hr : world.ctRead 1 0 <;> simp_all
  obtain ⟨w, e, h1, h2, h3, h4⟩ := h
  refine ⟨w, e, h1, h2, h3, by rw [h4], ?_, ?_, ?_⟩
  · rw [h4]; decide +kernel
  · unfold quotaStops; decide +kernel
  · decide +kernel

/-- PlacementEvents: a live context, with a work queue of 511 and of 512 records; a dead one; an eligible logical core; the first record of
the highest priority. -/
theorem witness_work_queue : ((working 511).getDie 0).work.length < 512 ∧ 512 ≤ ((working 512).getDie 0).work.length ∧
    (world.getCtx (metaField (task 0) 32 8)).live = true ∧ (world.getCtx 9).live = false ∧ eligibleFor world 0 0 0 (recordOfWork 0) := by
  refine ⟨by decide +kernel, by decide +kernel, by decide +kernel, by decide +kernel, Nat.zero_le _, by decide, offers_first, by decide +kernel⟩
theorem witness_assignment : (match world.ctRead 1 0 with | .unreadable => false | _ => true) = true ∧ taskMessage (sentTo (task 0) 0) ∧
    nextInRound [0, 1] none 0 ∧ nextInRound [0, 1] (some 0) 1 ∧ (spilling 0 0).holds 0 1 0 = some true := by
  refine ⟨by decide +kernel, ?_, ?_, ?_, by decide +kernel⟩
  · simp only [taskMessage, formed]; decide +kernel
  · unfold nextInRound; decide +kernel
  · unfold nextInRound; decide +kernel

/-- Core 0 with its slots at work and 49 movable entries. -/
def overfull (n : Nat) : State :=
  let s := arrived (List.replicate n { entryOf (task 0) 7 0 0 with range := some (0, 2, 0, 0) }) world
  [1, 2, 3].foldl (fun s k => s.setSlot k { s.getSlot k with active := true, ctx := 1 }) s
/-- PlacementEvents: 49 entries at core 0, 48 or fewer elsewhere; the youngest entry is the first to move; a core with room. -/
theorem witness_rebalancer : ((overfull 49).getCore 0).arrival.length = 49 ∧ ((overfull 49).getCore 1).arrival.length ≤ 48 ∧
    (∀ j < 4, ((overfull 49).getSlot j).active = true) ∧ ((overfull 49).forwarded 0).length = 0 ∧ hasRoom (overfull 49) 1 1 ∧
    ¬hasRoom (overfull 49) 0 0 := by
  refine ⟨by decide +kernel, by decide +kernel, by decide +kernel, by decide +kernel, ⟨?_, ⟨0, by decide, ?_⟩, ?_, ?_⟩, ?_⟩
  · decide +kernel
  · decide +kernel
  · decide +kernel
  · decide +kernel
  · exact fun h => absurd h.1 (by decide +kernel)
theorem witness_first_moved : firstMoved (arrived [{ entryOf (task 0) 7 0 0 with range := some (0, 2, 0, 0) }] world) 0 0
    { entryOf (task 0) 7 0 0 with range := some (0, 2, 0, 0) } := by
  refine ⟨rfl, by decide, rfl, by decide, ?_⟩
  intro j b h _ _
  have h : [{ entryOf (task 0) 7 0 0 with range := some (0, 2, 0, 0) }][j]? = some b := h
  cases j with
  | zero => cases h; exact .inr ⟨rfl, le_refl _⟩
  | succ j => cases h

/-- PlacementEvents: an entry on the move to logical core 1, before and after the copy; its forwarding entry, and the last cycle of it. -/
def movingTo (copied : Bool) : State :=
  arrived [{ entryOf (task 0) 7 0 0 with range := some (0, 2, 0, 0), moving := some 1, copied := copied }] world
theorem witness_moves : ((movingTo false).getCore 0).arrival.length = 1 ∧ hasRoom (movingTo true) 1 1 ∧
    placeOfLookup ((movingTo true).ctRead 1 1) = some ((movingTo true).pkg, 0, 1) ∧ memWf (movingTo true).mem = true ∧
    2 ^ 20 ≤ ({ world with time := 2 ^ 18 }.cycleOf 0 - word 0).toNat := by
  refine ⟨by decide +kernel, ⟨?_, ⟨0, by decide, ?_⟩, ?_, ?_⟩, by decide +kernel, by decide +kernel, by decide +kernel⟩ <;> decide +kernel

/-- Context 1 with a launch queue of 16 records at `0x20000`, HEAD 0 and TAIL 1, and its first record. -/
def launching (l : List (Nat × Nat × Nat)) : State :=
  let s := (world.withMem ([(0x1FF00, 8, 0x20000), (0x1FF0C, 4, 1), (0x1FF10, 1, 4)] ++ l)).withCtx 1 fun x => { x with lqbase := 0x1FF01 }
  { s with package := { s.package with committed := true, belled := [1] } }
/-- A record of mode 0 for two tasks, and one of mode 1 at die 23. -/
def gangRecord : List (Nat × Nat × Nat) := [(0x20000, 1, 3), (0x20008, 4, 2)]
def dispenseRecord : List (Nat × Nat × Nat) := [(0x20000, 1, 3), (0x20001, 1, 1), (0x20006, 2, 2), (0x20008, 4, 2), (0x2000C, 1, 23)]

/-- LaunchEvents: a committed package, EN set, a descriptor in near DRAM of class COH. -/
theorem near_of (s : State) (a n : Nat) (hp : s.poison = [])
    (h : ∀ i < n, (match region s.pkg (a + i) with | .near _ => true | _ => false) = true ∧ s.classify 0 (a + i) = .ok ⟨.coh, a + i⟩) : nearReadable s a n := by
  intro i hi
  obtain ⟨h1, h2⟩ := h i hi
  refine ⟨?_, h2, by simp [hp]⟩
  cases hr : region s.pkg (a + i) <;> simp_all
theorem witness_bell : (launching []).package.committed = true ∧ ((launching []).getCtx 1).lqbase.getLsbD 0 = true ∧
    descriptorAt (launching []) 1 = 0x1FF00 ∧ nearReadable (launching []) 0x1FF00 32 ∧ (launching []).launchWork 1 = true ∧
    (launching []).package.launches = [] := by
  refine ⟨rfl, by decide +kernel, by decide +kernel, near_of _ _ _ rfl (by decide +kernel), by decide +kernel, rfl⟩
theorem witness_bell_lost : (match region 0 (hostBase + 12) with | .near _ => false | _ => true) = true := by decide +kernel

/-- LaunchEvents: a descriptor that is sound, and one that breaks the rule; records of both modes, and one for each REASON. -/
theorem witness_records : memValue (launching []) 0x1FF00 8 % 128 = 0 ∧ memValue (launching []) (0x1FF00 + 16) 1 = 4 ∧
    memValue ((launching []).withMem [(0x1FF10, 1, 13)]) (0x1FF00 + 16) 1 = 13 ∧ record3 (launching gangRecord) 0x20000 0 ∧
    record3 (launching dispenseRecord) 0x20000 1 ∧
    (let u := launching (gangRecord ++ [(0x20001, 1, 2)]); field u 0x20000 0 1 = 3 ∧ 1 < field u 0x20000 1 1) ∧
    (let u := launching (dispenseRecord ++ [(0x20003, 1, 12)]); field u 0x20000 1 1 = 1 ∧ 11 < field u 0x20000 3 1) ∧
    (let u := launching (gangRecord ++ [(0x20003, 1, 13)]); field u 0x20000 1 1 = 0 ∧ 12 < field u 0x20000 3 1) ∧
    (let u := launching [(0x20000, 1, 3)]; field u 0x20000 1 1 = 0 ∧ field u 0x20000 8 4 = 0) ∧
    (let u := launching (gangRecord ++ [(0x2000D, 1, 1)]); 1 ≤ field u 0x20000 8 4 ∧ field u 0x20000 13 1 ≠ 0) := by
  unfold record3; decide +kernel
theorem witness_launches : (launching gangRecord).launchWork 1 = true ∧ (world.getCtx 1).live = true ∧
    placeOfLookup (world.ctRead 1 0) = some (world.pkg, 0, 0) ∧ world.entrySide 0 0 = none ∧
    ((launching []).ctxs.map fun y => y.1).Pairwise (· < ·) := by decide +kernel

/-- PowerEvents: 32 sensors; a domain that asks for boost and none that does; a domain whose throttle state may change, and one whose may
not; shares and predictions at the bounds of R347; a quota in force. -/
theorem witness_power : (List.replicate 32 (100 : Nat)).length = 32 ∧
    boostRequest (world.withCore 0 fun x => { x with boostReq := 2 }) 0 0 ∧ ¬lowRequest world 0 0 ∧ sensorQuad 33 = 7 ∧
    throttles Domain.reset 0 392 true ∧ throttles Domain.reset 0 391 false ∧ throttles { Domain.reset with throttled := true, changedAt := 1 } 63999 0 true ∧
    throttles { Domain.reset with throttled := true, changedAt := 1 } 64000 380 false ∧ (0x8000000000000000 : Word).getLsbD 63 = true := by
  refine ⟨by decide, ⟨0, by decide, by decide, ⟨0, by decide, by decide +kernel⟩, by decide +kernel⟩, ?_, rfl, ?_, ?_, ?_, ?_, by decide⟩
  · intro h
    exact absurd (h 1 (by decide) (by decide)).2 (by decide +kernel)
  all_goals (unfold throttles; decide +kernel)

/-! ## States and operands that meet the hypotheses of the statements: registers, start-up, trust -/

/-- The package in a state of its start (R363), with a port's link down or up. -/
def started (state : Nat) (down : List Nat) : State :=
  { world with package := { world.package with bootState := state, hostDown := down } }

/-- RegisterEvents: a host that comes by port 0, by port 1, and not; offsets that it may write and that it may not; harts in their place and
not. -/
theorem witness_register_writes : hostComes (started 2 []) ∧ hostComes (started 2 [0]) ∧ ¬hostComes (started 2 [0, 1]) ∧
    hostDiscards (started 2 []) 0x201000 ∧ ¬hostDiscards (started 2 []) 0x20 ∧ ¬hostDiscards (started 2 []) (0x200000 + 8 * 255) ∧
    hostDiscards (started 2 []) 0x200800 ∧ hostDiscards (started 3 []) 0x20 ∧ ¬hostDiscards (started 3 []) 0x90 ∧ inPlace world 95 ∧ inPlace world 0 ∧
    ¬inPlace { world with package := { world.package with shawmsReset := [95] } } 95 := by
  refine ⟨?_, ?_, ?_, ?_, ?_, ?_, ?_, ?_, ?_, ?_, ?_, ?_⟩ <;> (simp only [hostComes, hostDiscards, inPlace]; decide +kernel)

/-- A hart acts. -/
theorem witness_hart : hartActed world { world with
    freeCtr := world.freeCtr + 1
    dies := tabSet world.dies 23 { world.getDie 23 with shawms := (world.getDie 23).shawms.set 3 Shawm.reset } } 95 := ⟨Shawm.reset, rfl, rfl⟩

/-- RegisterEvents: a save record that a loader can write, to the last position; a line of memory; contexts that a write of `ASIDR` makes live
and that it does not. -/
theorem witness_loader_writes : (world.tablePlaces 1 (tableParts ((world.getCtx 1).csave + word ((1 * 4 + 3) * 4096)) 64)).isSome = true ∧
    (classed 1).classify (95 / 4) 0x800000 = .ok ⟨.swm, 0x800000⟩ ∧ 0x800000 % 128 + 128 ≤ 128 ∧ memWf (classed 1).mem = true ∧
    (world.getCtx 1).live = true ∧ (world.getCtx 9).live = false ∧ (world.getCtx 9).everLive = false ∧
    ((world.withCtx 9 fun x => { x with everLive := true, haltDone := true }).getCtx 9).haltDone = true := by decide +kernel

/-- RegisterEvents: the partition locked, with an address inside, at its last bytes, and one past it; a package that negotiates, and
one that has; requests for a report, pending and not. -/
def partitioned : State := { world with package := { world.package with locked := true, ranges := [(0x300000400000, 0x20)] } }
theorem witness_trust_writes : partitioned.package.locked = true ∧
    (∃ r ∈ partitioned.package.ranges, r.1 ≤ 0x300000400018 ∧ 0x300000400018 + 8 ≤ r.1 + r.2) ∧
    (∀ r ∈ partitioned.package.ranges, ¬(r.1 ≤ 0x300000400019 ∧ 0x300000400019 + 8 ≤ r.1 + r.2)) ∧ inPlace partitioned 0 ∧
    (started 1 []).package.bootState = 1 ∧ (started 1 []).package.committed = false ∧
    ({ world with package := { world.package with committed := true } } : State).package.committed = true ∧
    ({ started 2 [] with package := { (started 2 []).package with attreq := 0x8001 } } : State).package.attreq.getLsbD 0 = true ∧
    (started 2 []).package.attreq.getLsbD 0 = false ∧ (started 2 []).package.keysErased = false ∧ (started 3 []).package.bootState = 3 ∧
    hostBytesAt (2 ^ 45 - 8192) = hostBase + 2 ^ 45 - 8192 ∧ hostBytesAt (2 ^ 45) = 2 ^ 62 + 2 ^ 45 := by
  refine ⟨rfl, ⟨_, List.mem_cons_self, ?_, ?_⟩, ?_, ?_, rfl, rfl, rfl, ?_, ?_, rfl, rfl, ?_, ?_⟩
  case refine_4 => unfold inPlace; decide +kernel
  all_goals decide +kernel

/-- A start that finds a mandatory step failed, and one that finds an optional unit of each kind. -/
def brokenStart : StartReport := ⟨[7], [], [], []⟩
def lesserStart : StartReport := ⟨[8], [3], [127], [95]⟩
/-- StartEvents: a step that breaks; steps that only skip a unit; a record with a step that has failed three times, and with two. -/
theorem witness_start (f : Flash) (n : Nat) : breaks brokenStart f n 7 ∧ ¬breaks lesserStart f n 8 ∧ ¬breaks lesserStart f n 10 ∧
    breaks { lesserStart with shawmsOut := [0] } f n 10 ∧ skips lesserStart 6 ∧ skips lesserStart 8 ∧ skips lesserStart 9 ∧ skips lesserStart 10 ∧
    ¬breaks brokenStart f n 0 := by
  refine ⟨⟨by decide, by decide, by decide, .inl (by decide)⟩, ?_, ?_, ?_, ?_, ?_, ?_, ?_, ?_⟩
  · simp [breaks]
  · simp [breaks, lesserStart]
  · show 0 ∈ [0]; decide
  · exact .inl (by decide)
  · exact .inr (.inl (by decide))
  · exact .inr (.inr (.inl (by decide)))
  · exact .inr (.inr (.inr (by decide)))
  · rintro ⟨-, -, -, h | ⟨k, h, -⟩⟩
    · exact absurd h (by decide)
    · simp [stepVerifies] at h
def failing (n : Nat) : BootRecord := { BootRecord.reset with steps := BootRecord.reset.steps.set 5 ⟨4, 2, n⟩ }
theorem witness_stuck : 3 ≤ (stepOf (failing 3) 5).fails ∧ (stepOf (failing 2) 5).fails < 3 ∧ (stepOf (failing 3) 4).fails < 3 ∧
    State.reset.package.identityErased = false ∧ (stepOf State.reset.package.record 13).fails = 0 := by decide +kernel

/-- StartEvents: dirty bytes of one core alone, in near DRAM; alarms that are too many, and that are not. -/
theorem witness_stops : (let u := (classed 1).withCore 0 fun x => { x with l1 := [(0x800005, 3)] }
      (u.getCore 0).l1.find? (fun z => z.1 == 0x800005) = some (0x800005, 3) ∧ (u.cores.map fun x => x.1).Pairwise (· < ·) ∧
      (u.getDie 0).elbase = 0 ∧ (∀ x ∈ u.cores, (x.2.l1.map fun (z : Host.Cell) => z.1).Pairwise (· < ·)) ∧ tabHas (u.getCore 1).l1 0x800005 = false) ∧
    (∃ k, region 0 0x800005 = .near k) ∧ 3 ≤ (([0, 0, 0] : List Nat).filter fun x => decide (0 < x + 10 ^ 9)).length ∧
    (([0, 0] : List Nat).filter fun x => decide (0 < x + 10 ^ 9)).length < 3 := by
  refine ⟨?_, ⟨_, rfl⟩, ?_, ?_⟩ <;> decide +kernel

/-- A ring of 64 records at `0x40000` on die 0, with its last place free, and full. -/
def ringed (tail : Nat) : State := world.withDie 0 fun x => { x with elbase := word (0x40000 + 6 * 2 ^ 52), eltail := tail }
theorem witness_records_once : recordsOnce (ringed 63) 0 ⟨1, 0, 1, 1, none, none, 0, 0⟩ ∧ ¬recordsOnce (ringed 64) 0 ⟨1, 0, 1, 1, none, none, 0, 0⟩ ∧
    ((ringed 63).getDie 0).recSeq + 1 < 2 ^ 64 ∧ memWf (ringed 63).mem = true := by
  refine ⟨⟨?_, ?_, ?_, ?_, ⟨.coh, ?_, .inl rfl⟩, ?_⟩, fun h => absurd h.2.2.1 (by decide +kernel), ?_, ?_⟩
  case refine_6 => intro _ x hx; exact absurd hx List.not_mem_nil
  all_goals decide +kernel

/-! ## States and operands that meet the hypotheses of the statements: errors, links, encoding, steps -/

/-- ErrorEvents: near DRAM of a die; agents of each kind; lines at rest and not, of a page private to a core and of none; a page with a
line cached and with none. -/
theorem witness_errors : region 0 0x9000 = .near 0 ∧ (131 < 132 ∧ 168 ≤ 171 ∧ 171 < 172 ∧ 132 ≤ 135 ∧ 135 < 136 ∧ ¬(136 < 136)) ∧
    (lined [(0, .e)] (some (.o 0))).privateOwner 0x9000 = none ∧ lineHolders (lined [(0, .e)] (some (.o 0))) 0x9000 = [(0x9000 * 8192, .e)] ∧
    lineHolders (lined [] none) 0x9000 = [] ∧ (paged (.priv 0 3) false false []).privateOwner 0x9000 = some 3 ∧
    (lined [(0, .e)] (some (.o 0))).pageHeld sharedPage.leaf = true ∧ world.pageHeld sharedPage.leaf = false := by decide +kernel
/-- ErrorEvents: a line in the L1 of a core, clean and dirty. -/
theorem witness_l1_errors : tabHas (guarded.getCore 0).l1c (0x800008 / 128 * 128) = true ∧ (guarded.getCore 0).l1 = [] ∧
    ∃ x ∈ ((guarded.withCore 0 fun x => { x with l1 := [(0x800005, 3)] }).getCore 0).l1, 0x800000 ≤ x.1 ∧ x.1 < 0x800000 + 128 :=
  ⟨by decide +kernel, by decide +kernel, (0x800005, 3), by decide +kernel, by decide, by decide⟩
theorem witness_lines_at_rest : lineAtRest (lined [(0, .e)] (some (.o 0))) 0x9000 ∧ ¬lineAtRest (lined [(0, .isD)] none) 0x9000 ∧
    ¬lineAtRest (lined [] (some (.rc 1))) 0x9000 := by
  have hh : (lined [(0, .e)] (some (.o 0))).hst 0x9000 ((lined [(0, .e)] (some (.o 0))).lineHome 0x9000) = some (.o 0) := by decide +kernel
  have hr : (lined [] (some (.rc 1))).hst 0x9000 ((lined [] (some (.rc 1))).lineHome 0x9000) = some (.rc 1) := by decide +kernel
  refine ⟨⟨?_, ?_, ?_⟩, ?_, ?_⟩
  · intro c hc _
    have hc : c ∈ [(0x9000 * 8192 + 0, CState.e)] := hc
    simp only [List.mem_singleton] at hc
    subst hc
    exact .inr (.inl rfl)
  · intro l h; rw [hh] at h; cases h
  · intro n h; rw [hh] at h; cases h
  · intro h
    have := h.1 (0x9000 * 8192 + 0, .isD) (by decide +kernel) (by decide)
    simp at this
  · intro h; exact h.2.2 1 hr

/-- The boundary between dies 0 and 1 after failed replays, with lane groups that use their spare, at a width. -/
def bounded (w : Width) (replays : Nat) (spares : List Nat) : State :=
  { world with package := { world.package with boundaries := [(0, ⟨w, replays, spares⟩)], replays := [(127, 8)] } }
/-- LinkEvents: a boundary that two dies share and a number that none has; 7 and 8 failed replays; a group whose spare lane is free, and in
use; the last port of the fabric; ports up and down. -/
theorem witness_links : (boundaryOfNumber (bounded .spared 8 [3]) 0).replays = 8 ∧ (boundaryOfNumber (bounded .full 7 []) 0).width = .full ∧
    (boundaryOfNumber (bounded .isolated 0 []) 0).width = .isolated ∧ 3 ∈ (boundaryOfNumber (bounded .spared 8 [3]) 0).spares ∧
    8 ≤ tabGet 0 (bounded .full 0 []).package.replays 127 ∧ 127 ∉ (bounded .full 0 []).package.portsOff ∧
    (0 : Fin 2).val ∉ world.package.hostDown ∧ 0 ∉ world.package.fallback ∧ hostPort 0 hostBase = some 0 ∧ hostPort 0 (hostBase + 2 ^ 45) = some 1 := by
  decide +kernel
theorem witness_boundaries : shareBoundary 0 1 0 ∧ shareBoundary 17 23 35 ∧ ∀ e f, ¬shareBoundary e f 100 := by
  refine ⟨by unfold shareBoundary; decide, by unfold shareBoundary; decide, ?_⟩
  rintro e f ⟨_, _, h | h⟩ <;> omega

/-- Slot 0 at a lone `LDW g9, 8(g8)` of a byte in the host's window, in an HNC granule that its page maps. -/
def hostPage : List (Nat × Nat × Nat) := [(0x2008, 8, 0x400000000000 / 4 + 0xDF), (0x8000, 4, 0x4448C008 / 2 ^ 24 * 2 ^ 24 + 9 * 2 ^ 19 + 8 * 2 ^ 14 + 8)]
def loadingHost : State := (({ claimed with
  mctbase := 0x6000001, package := { world.package with accepted := 2 ^ 9 } }.withMem hostPage).withMem [(0x6000000 + 3932160, 1, 5)]).withG [(8, 0x8000000000)]
theorem witness_host_load : (match loadingHost.prepare.2 with | .ok (.one i true) => decide (i = .ldw 9 8 8) | _ => false) = true ∧
    loadingHost.hot.blocked = false ∧ loadingHost.waits (.ldw 9 8 8) = false ∧ loadingHost.hot.shipping = false ∧ loadingHost.hot.wait = none ∧
    loadingHost.hot.spdOver (.one (.ldw 9 8 8) true) = false ∧
    (match (loadingHost.translate loadingHost.me (loadingHost.g 8 + (8 : BitVec 14).signExtend 64) AccOp.load.need).2 with
      | .ok p => decide (hostPort 0 p.pa = some 0) && (p.kind == .hnc || p.kind == .hco) | _ => false) = true := by decide +kernel

/-- DecodeAndEncode: well-formed words, of a class C and a class A instruction. -/
theorem witness_encodings : (Instr.done).wf = true ∧ (Instr.send 8 9 20 12).wf = true ∧ (Instr.exts 8 9 60 3).wf = true ∧
    decodeWord 0x3B000002 = .ok .tret ∧ decodeWord (0x80000000 + 25 * 2 ^ 19 + 3 * 2 ^ 14 + 20 * 2 ^ 9) = .ok (.add (.g 25) (.g 3) 20) := by
  decide +kernel

/-- StepRunsTheDecodedWords: a word, one that reads as no instruction, and the bytes of a word in the instruction cache. -/
def placed (w : Nat) : State := claimed.withMem [(0x8000, 4, w)]
def cached (w : Nat) : State := (placed 0).withCore 0 fun x => { x with icache := [(0x8000, leBytes w 4 ++ List.replicate 124 0)] }
theorem witness_issue : (let s := placed 0xC539F678; mayIssue s (s.retryStores s.hotId)) ∧
    (let s := cached 0xC539F678; mayIssue s (s.retryStores s.hotId)) ∧
    mayIssue keptByAnother (keptByAnother.retryStores keptByAnother.hotId) := by
  refine ⟨⟨?_, ?_, rfl, ?_⟩, ⟨?_, ?_, rfl, ?_⟩, ⟨?_, ?_, rfl, ?_⟩⟩ <;> decide +kernel
theorem fetchable_from_memory (u : State) (va : Word) (w pa : Nat) (h1 : (u.getCtx u.hot.ctx).cbase.toNat ≤ va.toNat)
    (h2 : va.toNat + 4 ≤ (u.getCtx u.hot.ctx).clim.toNat) (h3 : pa % 4 = 0) (h4 : (u.translate u.me va ⟨false, false, true⟩).2 = .ok ⟨.coh, pa⟩)
    (h5 : let v := (u.translate u.me va ⟨false, false, true⟩).1
      v.pageReady pa v.core = true ∧ ((v.getCore v.core).icache.find? fun x => x.1 == pa / 128 * 128) = none ∧ pa / 8 ∉ v.poison ∧ memValue v pa 4 = w) :
    ∃ v, fetchable u v va w :=
  ⟨_, h1, h2, _, pa, h3, Prod.ext rfl h4, h5.1, .inr ⟨h5.2.1, h5.2.2.1, h5.2.2.2, rfl⟩⟩
theorem witness_fetch : (∃ v, fetchable (placed 0xC539F678) v 0x8000 0xC539F678) ∧ 0xC539F678 / 2 ^ 30 % 2 = 1 ∧
    decodeWord 0xC539F678 = .ok (.addi 7 7 0x3678) ∧ (Instr.addi 7 7 0x3678).wf = true ∧ (placed 0xC539F678).waits (.addi 7 7 0x3678) = false ∧
    (placed 0xC539F678).encodingFault (.addi 7 7 0x3678) = none ∧ (decodeWord 0x7FFFFFFF).isOk = false ∧
    pairFault (.ldd 9 3 16) (.addi 7 7 1) = none ∧ isTransfer (.ldd 9 3 16) = false ∧ world.hot.historyWaits [.ldd 9 3 16, .addi 7 7 1] = false ∧
    stallsFirst exec (.addi 7 7 1) world = none := by
  refine ⟨fetchable_from_memory _ _ _ 0x8000 ?_ ?_ ?_ ?_ ?_, ?_⟩ <;> decide +kernel
theorem witness_fetch_from_cache :
    (let u := cached 0xC539F678
     (((u.translate u.me 0x8000 ⟨false, false, true⟩).1.getCore 0).icache.find? fun x => x.1 == 0x8000).any fun x =>
       decide (leValue (x.2.take 4) = 0xC539F678)) = true ∧
    (let u := keptByAnother
     (u.translate u.me 0x8000 ⟨false, false, true⟩).2 = .ok ⟨.coh, 0x8000⟩ ∧
       (u.translate u.me 0x8000 ⟨false, false, true⟩).1.pageReady 0x8000 0 = false) := by decide +kernel
/-- StepRunsTheDecodedWords: a package that has stopped, where the board starts nothing, and one in which no slot issues. -/
theorem witness_steps : (isStart (Config.input 0) = false → ({ world with package := { world.package with halted := true } } : State).stopped = true) ∧
    ({ world with issuing := false } : State).stopped = false ∧ State.reset.stopped = false ∧ State.reset.issuing = false := by
  refine ⟨fun h => ?_, rfl, rfl, rfl⟩
  show (true && !(false || isStart (Config.input 0))) = true
  rw [h]; rfl

/-- StepKeepsMemoryForm: the package after reset has the form. -/
theorem witness_memory_form : State.reset.memOk ∧ world.memOk := by unfold State.memOk; decide +kernel

/-- EngineSums: formats of each family; a list of products with an infinity of one sign; products of which one is nonzero. -/
theorem witness_sums : mxeFamily 2 = .f8 ∧ mxeFamily 3 = .b16 ∧ mxeFamily 5 = .i8 ∧ mxeFamily 6 = .fp64 ∧ FVal.inf true ∈ [FVal.inf true] ∧
    FVal.inf false ∉ [FVal.inf true] ∧ (FVal.inf true).isNaN = false := by decide

/-! ## States and operands that meet the hypotheses of the statements: waits, keepings and refusals of words -/

/-- FaultDelivery: a shipped word outstanding. BitWords: a field one past bit 63. -/
theorem witness_held_trap : (windowed 1).hot.shipping = true ∧ 64 < (60 : BitVec 6).toNat + ((4 : BitVec 6).toNat + 1) := by decide +kernel

/-- RepOpens: an earlier capture complete, its passes not over. -/
theorem witness_rep_waits : ∃ r, (world.withHot fun x => { x with rep := some ⟨0, [], 2, 1, 0, 1, false, 1, 0, 0⟩ }).hot.rep = some r ∧ r.todo = 0 :=
  ⟨_, rfl, rfl⟩

/-- QueueWords: an entry of `q2` taken and kept, with room in the sink and with none. -/
def kept (n : Nat) : State := (queued 0 n world).withHot fun x => { x with taken := [(2, 7)] }
theorem witness_kept_entries : (kept 7).hot.taken.filter (fun t => t.1 == 2) = [(2, 7)] ∧ ((kept 7).hot.q[0]).length < 8 ∧
    8 ≤ ((kept 8).hot.q[0]).length := by decide +kernel

/-- FenceTokens: eight live entries, the oldest of them, entry 0, complete or not; stores held back. -/
def crowded (done : Bool) : State := world.withHot fun x =>
  { x with seq := 8, tokens := #v[some ⟨1, if done then [] else [5], done⟩, some ⟨2, [5], false⟩, some ⟨3, [5], false⟩, some ⟨4, [5], false⟩,
    some ⟨5, [5], false⟩, some ⟨6, [5], false⟩, some ⟨7, [5], false⟩, some ⟨8, [5], false⟩] }
def holding : State := (windowed 1).withHot fun x => { x with held := [⟨1, [⟨⟨.coh, 0x9000⟩, [1, 2, 3, 4]⟩]⟩] }
theorem witness_oldest_tokens (done : Bool) : (∃ k, (crowded done).hot.tokens[0] = some k ∧ k.complete = done ∧ ∀ j : Fin 8, ∃ y,
      (crowded done).hot.tokens[j.val] = some y ∧ (j ≠ 0 →
        ((crowded done).hot.seq + 2 ^ 29 - y.seq) % 2 ^ 29 < ((crowded done).hot.seq + 2 ^ 29 - k.seq) % 2 ^ 29)) ∧
    holding.hot.held ≠ [] ∧ world.hot.held = [] := by
  refine ⟨⟨_, rfl, rfl, fun j => ?_⟩, by decide, rfl⟩
  cases done <;> fin_cases j <;> exact ⟨_, rfl, by decide⟩

/-- The executing slot on core 0 of die 1, where `classed` has a line of die 0. -/
def elsewhere : State := { classed 1 with hotId := 1024 }
/-- CacheWords: a dirty line of a class that hardware keeps consistent, in the core and in the proxy of its die; a class that neither
does; a software-managed line on its home die, and seen from another with dirty bytes in the L2 there. -/
theorem witness_cache_lines : (let s := { world with caches := [(0x9000 * 8192, CState.m), (0x9000 * 8192 + proxyOf 0, CState.m)] }
      s.cst 0x9000 s.core = some .m ∧ s.cst 0x9000 (proxyOf s.die) = some .m ∧ s.cst 0x9000 1 ≠ some .m) ∧
    passes (classed 3) .maint [(0, ⟨0x800000, 1, 1, false⟩)] (fun p => p.kind == .dev) = true ∧
    passes elsewhere .maint [(0, ⟨0x800000, 1, 1, false⟩)] (fun p => decide (p = ⟨.swm, 0x800000⟩) && !isHome elsewhere.die p) = true ∧
    lineCells ((elsewhere.withDie 1 fun x => { x with l2 := [(0x800005, 3)] }).getDie 1).l2 0x800000 = [(0x800005, 3)] := by
  decide +kernel

/-- SupervisorWords: tokens of `TLBINV` and `HALT` that wait for a message on its way, and that wait for nothing. -/
theorem witness_awaited : supervisor.tlbinvAwaits (supervisor.tlbinv 0x403 0x9000) 0x403 0x9000 = [] ∧
    (let s := { supervisor with agenda := [.taskMessageArrival 0 0 (msgOf 0 0 0 2 0 0 []) .none] }
     s.tlbinvAwaits (s.tlbinv 0xFFFF00000013 0) 0xFFFF00000013 0 ≠ []) ∧
    (let s := { supervisor with agenda := [.taskMessageArrival 0 0 (msgOf 0 0 0 2 0 0 []) .none] }
     s.haltAwaits 2 ≠ []) ∧ supervisor.haltAwaits 2 = [] := by decide +kernel

/-- A context with a route to package 1 by port 3, in a package whose ports are accepted, and logical core 1 there. -/
def routed : State := { (away.withMem [(0x6008, 8, 3)]).withCtx 1 fun x => { x with routetab := 0x6000 } with
  package := { world.package with accepted := 2 ^ 12 } }
/-- Messages, EndingWords, TaskQueries: a logical core of another package by an open port; an owner there, one that is refused, and an
address of this package. -/
theorem witness_other_packages : (routed.destination 0 1 1).2 = .away 3 ∧ (away.destination 0 1 1).2 = .refused 3 ∧
    (world.destination 0 1 5).2 = .refused 1 ∧
    (let u := routed.withMem [(0x5000, 8, 0x100000), (0x5008, 8, 0x200000), (0x5010, 1, 20), (0x5020, 2, 1)]
     (u.ownerAccess 1 0x100000).2 = .lcore 1 ∧ ((u.ownerAccess 1 0x100000).1.destination 0 1 1).2 = .away 3) ∧
    (let u := owned.withMem [(0x5020, 2, 5)]
     (u.ownerAccess 1 0x100000).2 = .lcore 5 ∧ ((u.ownerAccess 1 0x100000).1.destination 0 1 5).2 = .refused 1) ∧
    placeOfLookup (away.ctLookup 0 1 1) = some (1, 0, 1) ∧ (1 : Nat) ≠ away.pkg := by decide +kernel

/-- Barriers: an episode of which the slot is no participant, one that it has joined early, and reductions that it waits for. -/
theorem witness_barrier_waits : (let b := ({ world with barriers := [⟨3, 1, 0, .die, 0, 5, [1], [(1, 4, 7)], [], []⟩], ids := 4 } : State).getBarrier 0 .die 0 5
      b.2.given ≠ [] ∧ (0 : Nat) ∉ b.2.members) ∧
    (let b := ({ world with barriers := [⟨3, 1, 0, .die, 0, 5, [0, 1], [], [⟨0, 4, 7, [5]⟩], []⟩], ids := 4 } : State).getBarrier 0 .die 0 5
     b.2.early ≠ [] ∧ ∃ y ∈ b.2.early, y.lcore = 0) ∧
    updating.hot.reductions ≠ [] := by decide +kernel

/-! ### Stores to every class of memory -/

/-- The package with a page at a physical address: of the device registers of die 0, or of the domain window of package 1, which a port
reaches. -/
def windowPage (pa : Nat) : State := (({ claimed with
  package := { world.package with accepted := 2 ^ 12 } }.withMem [(0x2008, 8, pa / 4 + 0xDF), (0x6008, 8, 3)]).withCtx 1 fun x =>
    { x with routetab := 0x6000 }).withG [(8, 0x8000000000)]
def storesAt (s : State) (va : Word) (n : Nat) (p : Phys → Bool) : Bool :=
  match s.checkAll s.me s.die .store (scalarElems va n (s.expanded s.me va)) with
  | (u, none, ps) => !u.storeWaits ps && u.storesHit ps && ps.all (fun q => p q.1) && !ps.isEmpty
  | _ => false
theorem witness_store_places : storesAt (classed 1) 0x800004 4 (fun p => decide (p = ⟨.swm, 0x800004⟩)) = true ∧
    storesAt (classed 3) 0x800004 4 (fun p => p.kind == .dev && !(classed 3).isDevReg p.pa) = true ∧
    storesAt accumulator 0x800004 4 (fun p => p.kind == .acc 1 && accumulator.typed (p.pa / 128 * 128)) = true ∧
    storesAt (classed 10) 0x800004 4 (fun p => p.kind == .acc 1 && !(classed 10).typed (p.pa / 128 * 128)) = true ∧
    storesAt world 0x00F0000000000008 8 (fun p => p.kind == .spad 0) = true ∧
    storesAt world 0x00F1000000000008 8 (fun p => p.kind == .spad 1) = true ∧
    storesAt (windowPage devBase) 0x8000000000 8 (fun p => decide (p = ⟨.dev, devBase⟩)) = true ∧
    storesAt (windowPage (domBase + 2 ^ 43)) 0x8000000000 8 (fun p => p.kind == .domain) = true := by decide +kernel

/-! ### Engine words -/

/-- EngineWords: a capability refused while passes of a repetition are left, and while none are; a block that no page maps, and one
whose line the core has not. -/
theorem witness_engine_blocks : (let s := world.withHot fun x => { x with wait := some (.refused 6 7), rep := some ⟨0, [], 2, 1, 0, 1, false, 1, 0, 0⟩ }
      s.hot.wait = some (.refused 6 7) ∧ s.hot.passesLeft = true) ∧
    (let s := world.withHot fun x => { x with wait := some (.refused 6 7) }
     s.hot.passesLeft = false) ∧
    (world.checkAll world.me world.die .load [(0, ⟨0x0100000000000000, 64, 1, false⟩)]).2.1.map (·.cause) = some (some .loadPage) ∧
    (match world.checkAll world.me world.die .load [(0, ⟨0x9000, 64, 1, false⟩)] with
      | (s, none, ps) => !s.loadWaits ps && !s.loadsHit ps | _ => false) = true ∧
    world.hot.updates = [] ∧ updating.hot.updates ≠ [] := by decide +kernel
/-- EngineWords: a read range and a write range that share an address. -/
theorem witness_shared_ranges : lowestShared [(0x10000, 0x10040)] [(0x10020, 0x10060)] 0x10020 := by
  refine ⟨⟨_, List.mem_singleton_self _, _, List.mem_singleton_self _, by decide⟩, ?_⟩
  rintro x ⟨r, hr, w, hw, -, -, h, -⟩
  obtain rfl := List.mem_singleton.mp hr
  obtain rfl := List.mem_singleton.mp hw
  exact h

/-! ### Messages at a core -/

/-- Context 1 with its core table where no page is, and a task of its logical core 0 beside the ring. -/
def tableless : State := world.withCtx 1 fun x => { x with coretab := 0x0100000000000000, spilled := [⟨0, 0, 5, false, none, 0, 0, 0⟩] }
/-- MessageEvents: a core table that cannot be read, found at redelivery, at a dispatch and at a `TCANCEL`; one that can; remote atomics of a
live and of a dead context; a priority that rises no more. -/
theorem witness_unreadable_tables : tableless.tableRead 1 (tableless.getCtx 1).coretab 4 = none ∧ (tableless.getCtx 1).spilled ≠ [] ∧
    (match tableless.ctLookup 0 1 0 with | .unreadable => true | _ => false) = true ∧ tableless.holds 0 1 0 = none ∧
    tableless.unservable 0 1 = true ∧
    (let s := (spilling 0 1).withCtx 1 fun x => { x with spilled := [⟨0, 0, 0, false, none, 0, 0, 0⟩] }
     s.servedContexts 0 ≠ [] ∧ ∀ x ∈ s.ctxs, s.unservable 0 x.1 = false) ∧
    formed (msgOf 6 3 0 9 0 0 [1, 2, 3]) 6 ∧ (world.getCtx 9).live = false := by
  simp only [formed]; decide +kernel
/-- PreemptionEvents: a resume of a logical core whose entry cannot be read. -/
theorem witness_unreadable_resume : (tableless.getCtx 1).live = true ∧ tableless.holds 0 1 0 = none ∧ (tableless.getCore 0).marks = [] ∧
    (resuming 1 1).getCtx 1 = saved.getCtx 1 ∧ (∀ q < 0, 1 / 2 ^ q % 2 = 0) ∧ tabHas (saved.getCtx 1).seqs 4 = true := by
  refine ⟨rfl, by decide +kernel, rfl, rfl, by decide, rfl⟩

/-! ## States and operands that meet the hypotheses of the statements: more of the ship path -/

/-- The packet of a `CAS2` or `SWP2` at `0x9010` in a guest entry of a package whose page is shared, with a cache that holds the line,
and with the page kept by another core. -/
def pairMeets (s : State) (f : State → Phys → Bool) : Bool :=
  match pairCheck { s with cores := tabSet s.cores 128 { s.getCore 128 with running := [] } } (pairPacket 0x9010) 0x9010 with
  | (u, none, (q, _) :: _) => f u q
  | _ => false
/-- ShipEvents: a page that is ready and a line that is free; a line that a cache owns; a page that another core keeps; a scalar
packet that its traps stop, and vector packets with the traps clear and set. -/
theorem witness_more_guests : pairMeets (guestAt (pairPacket 0x9010) claimed)
      (fun u q => q.kind == .coh && u.pageReady q.pa 128 && u.atomicReady q && memWf (u.leaveCopy 0 q).mem) = true ∧
    pairMeets (guestAt (pairPacket 0x9010) { claimed with caches := [(0x9000 * 8192 + 5, .m)], homes := [(0x9000 * 32, .o 5)] })
      (fun u q => u.pageReady q.pa 128 && !u.atomicReady q) = true ∧
    pairMeets (guestAt (pairPacket 0x9010) keptByAnother) (fun u q => q.kind == .coh && !u.pageReady q.pa 128) = true ∧
    (evalFp (.fdiv 9 8 10 .rne .fp64) 0x3FF0000000000000 0 0 0).2 &&& 8 ≠ 0 ∧
    (∃ w, decodeWord (w % 2 ^ 32) = .ok (.vfdiv 1 2 3 0 .fp64)) ∧
    ((evalV (.vfdiv 1 2 3 0 .fp64) ⟨0, 0, 0, BitVec.allOnes 64, 0, 0⟩ 0).raised.all fun y => y.2 &&& 0 == 0) = true ∧
    ((evalV (.vfdiv 1 2 3 0 .fp64) ⟨0, 0, 0, BitVec.allOnes 64, 0, 0⟩ 0).raised.all fun y => y.2 &&& 16 == 0) = false := by
  refine ⟨?_, ?_, ?_, ?_, ⟨(encode (.vfdiv 1 2 3 0 .fp64)).getD 0, ?_⟩, ?_, ?_⟩ <;> decide +kernel

/-- A band that meets one fault ends with it. -/
theorem band_meets (s s1 s2 s3 : State) (w : Who) (b : List Byte) (e : CmdFault) (hc : e.code ≠ 0) (e1 e2 e3 : List CmdFault)
    (x y : Operand) (ls : List CLine)
    (h1 : s.loadOperand w (mmaFa b) (mmaA b) (mmaLda b) 0 (min 32 (mmaM b - 32 + mmaMlast b)) (mmaK b) = (s1, e1, x))
    (h2 : s1.loadOperand w (mmaFb b) (mmaB b) (mmaLdb b) 0 (mmaK b) (mmaN b - 32 + mmaNlast b) = (s2, e2, y))
    (h3 : foldAll (State.placeLine w (mmaC b) (mmaLdc b)) s2 ((List.range (min 32 (mmaM b - 32 + mmaMlast b))).flatMap fun i =>
      (List.range ((mmaN b - 32 + mmaNlast b + 128 / accSize (familyType (mxeFamily (mmaFa b))) - 1) /
        (128 / accSize (familyType (mxeFamily (mmaFa b)))))).map fun p => (0 + i, p)) = (s3, e3, ls))
    (h : e1 ++ e2 ++ e3 = [e]) : (s.runBand w b 0).2 = some e := by
  simp only [State.runBand, Nat.mul_zero, Nat.sub_zero, h1, h2, h3, h]
  simp [State.chooseFault, hc]
/-- A matrix command of one row and column whose line of C is no accumulator line, or not mapped. -/
def multiplyAt (c : Nat) : MxeCmd := { matrixOf false goodCapability with
  bytes := (matrixOf false goodCapability).bytes.take 16 ++ leBytes c 8 ++ (matrixOf false goodCapability).bytes.drop 24 }
def engineAt : Who := engineWho 0 8 1 0 false 1
/-- What the band of such a command meets. -/
def bandFaults (s : State) (b : List Byte) : List CmdFault :=
  let r1 := s.loadOperand engineAt (mmaFa b) (mmaA b) (mmaLda b) 0 (min 32 (mmaM b - 32 + mmaMlast b)) (mmaK b)
  let r2 := r1.1.loadOperand engineAt (mmaFb b) (mmaB b) (mmaLdb b) 0 (mmaK b) (mmaN b - 32 + mmaNlast b)
  r1.2.1 ++ r2.2.1 ++ (foldAll (State.placeLine engineAt (mmaC b) (mmaLdc b)) r2.1
    ((List.range (min 32 (mmaM b - 32 + mmaMlast b))).flatMap fun i =>
      (List.range ((mmaN b - 32 + mmaNlast b + 128 / accSize (familyType (mxeFamily (mmaFa b))) - 1) /
        (128 / accSize (familyType (mxeFamily (mmaFa b)))))).map fun p => (0 + i, p))).2.1
theorem multiply_meets (s : State) (k : MxeCmd) (e : CmdFault) (hc : e.code ≠ 0) (h : bandFaults s k.bytes = [e])
    (hm : mmaM k.bytes = 32) (hq : k.mqd = false) (h0 : k.sb = 0) (hw : engineWho 0 8 k.ctx k.lcore k.supervisor k.asid = engineAt) :
    (s.runMxe 0 8 k).2 = (0, some e) := by
  have hb : (s.runBand engineAt k.bytes 0).2 = some e := by
    generalize k.bytes = b at h
    simp only [bandFaults] at h
    rcases h1 : s.loadOperand engineAt (mmaFa b) (mmaA b) (mmaLda b) 0 (min 32 (mmaM b - 32 + mmaMlast b)) (mmaK b) with ⟨s1, e1, x⟩
    rw [h1] at h
    rcases h2 : s1.loadOperand engineAt (mmaFb b) (mmaB b) (mmaLdb b) 0 (mmaK b) (mmaN b - 32 + mmaNlast b) with ⟨s2, e2, y⟩
    rw [h2] at h
    exact band_meets s s1 s2 _ engineAt b e hc e1 e2 _ x y _ h1 h2 (Prod.mk.eta.symm.trans (by rw [Prod.mk.eta])) h
  rcases hr : s.runBand engineAt k.bytes 0 with ⟨u, f⟩
  rw [hr] at hb
  obtain rfl : f = some e := hb
  simp [State.runMxe, hq, h0, hm, hw, State.runBands, hr]
/-- EngineEvents: matrix commands that meet one fault that ends them and one that parks them, one from a page that nobody has claimed,
and one that meets none. -/
theorem witness_matrix_faults : ((multiplying false).runMxe 0 8 (multiplyAt 0x9000)).2 = (0, some ⟨9, 0x9000⟩) ∧
    ((multiplying false).runMxe 0 8 (multiplyAt 0x0100000000000000)).2 = (0, some ⟨7, 0x0100000000000000⟩) ∧
    ((world.runMxe 0 8 (multiplyAt 0x9000)).2.2.map fun f => f.code) = some 0 ∧
    ((multiplying true).runMxe 0 8 (matrixOf true goodCapability)).2.2 = none := by
  refine ⟨multiply_meets _ _ _ (by decide) (by decide +kernel) (by decide +kernel) rfl rfl rfl, multiply_meets _ _ _ (by decide) (by decide +kernel) (by decide +kernel) rfl rfl rfl, ?_, ?_⟩
  · decide +kernel
  · decide +kernel

/-- EngineEvents: a transfer behind a refused one of its slot; a command behind an earlier one that has not ended; families that differ; a right MAC; a queue that has filled; a supervisor that can be told. -/
theorem witness_more_engines : (let u : State := { world with backoff := [.command 0 0 (.bte (transferOf false))] }
      ∃ (n n' : Nat) (z : BteCmd), Resend.command n n' (.bte z) ∈ u.backoff ∧ z.slot = (transferOf true).slot ∧ (z.auto = true ∨ z.bte = (transferOf true).bte)) ∧
    (let u := claimed.withDie 0 fun x => { x with
       bteQ := (x.bteQ.set 0 [{ transferOf true with after := [7] }]).set 1 [transferOf true]
       locks := [(0, ⟨1, 0x30000, 0x30080, true, 7⟩)] }
     u.running ((u.getDie 0).headAfter 0) = true) ∧
    mxeFamily (mmaFa (List.replicate 58 0 ++ [0x50])) ≠ mxeFamily (mmaFb (List.replicate 58 0 ++ [0x50])) ∧
    (∃ n : Nat, (claimed.macOf (BitVec.ofNat 32 (n / 2 ^ 32))).toNat = n % 2 ^ 32) ∧
    16 ≤ ((world.withDie 0 fun x => { x with mxeQ := x.mxeQ.set 0 (List.replicate 16 (matrixOf false 0)) }).getDie 0).mxeQ[0].length ∧
    (match claimed.endpoint 0 1, claimed.supervisorOf 1 with
      | (.here _, h), some p => (claimed.getCtx p).acceptsHandler h && (claimed.getCtx p).live
      | _, _ => false) = true := by
  refine ⟨⟨0, 0, transferOf false, List.mem_singleton.mpr rfl, rfl, .inr rfl⟩, ?_, ?_, ?_, ?_, ?_⟩
  · decide +kernel
  · decide +kernel
  · have h := (claimed.macOf (BitVec.ofNat 32 5)).isLt
    refine ⟨5 * 2 ^ 32 + (claimed.macOf (BitVec.ofNat 32 5)).toNat, ?_⟩
    rw [show (5 * 2 ^ 32 + (claimed.macOf (BitVec.ofNat 32 5)).toNat) / 2 ^ 32 = 5 by omega]
    omega
  · decide +kernel
  · decide +kernel

/-! ### At the home, more of it -/

/-- HomeEvents: a second refused update; an atomic at the head of its line's queue, one behind it, and one on poison; a line that a cache
owns. -/
theorem witness_more_atomics : (let x := (world.withHot fun x => { x with refusals := (0, 1) }).getSlot 0
      x.refusals.1 = (updateOf .fp32 0).gen ∧ x.refusals.2 ≠ 0 ∧ x.active = true ∧ x.phase = .running) ∧
    (let a : AtomMsg := { atomicOf none with pa := 0x9010 }
     let u : State := { world with atHome := [(a, false)] }
     (a, false) ∈ u.atHome ∧ (u.atHome.filter fun z => lineOf z.1.pa == lineOf 0x9018) ≠ [] ∧
       (u.atHome.filter fun z => lineOf z.1.pa == lineOf 0x9080) = [] ∧
       u.classify (u.lineHome (lineOf a.pa)) a.pa = .ok ⟨.coh, a.pa⟩ ∧ u.lineFree (lineOf a.pa) = true ∧
       { u with homes := [(0x9000 * 32, .o 5)], caches := [(0x9000 * 8192 + 5, .m)] }.lineFree (lineOf a.pa) = false ∧
       (∀ i < 8, ({ u with poison := [0x9010 / 8] } : State).poison = [(a.pa + i) / 8] ∨ 0 < i) ∧ memWf u.mem = true) := by decide +kernel
/-- HomeEvents: a page that the host has still to claim, and one that it shares; a closed port; an HCO line that a port's agent has; memory
of another package. -/
theorem witness_more_requests : ({ hosting with pages := keptByAnother.pages }.hostClaim 0x9000).isSome = true ∧
    ({ hosting with pages := claimed.pages }.hostClaim 0x9000).isNone = true ∧
    (hosting.hostCopies (hostAgent 0)).length < 262144 ∧ hosting.cst 0x9000 (hostAgent 0) = none ∧
    tabHas ({ hosting with hco := [(hostBase, true)] } : State).hco hostBase = true ∧
    (∃ q o, region hosting.pkg (2 ^ 51 + 2 ^ 44) = .domain q o) ∧ world.package.accepts 12 = false ∧ hosting.package.accepts 12 = true := by
  refine ⟨?_, ?_, ?_, ?_, ?_, ⟨_, _, rfl⟩, ?_, ?_⟩ <;> decide +kernel

/-! ### Coherence, more of it -/

/-- Core 0 with 20 lines in the set of the L1 that `0x9000` competes in. -/
def crammed : State := { lined [] none with caches := (List.range 20).map fun i => ((0x9000 + (i + 1) * 32768) * 8192, CState.s) }
/-- LineEvents: a set with a way free, and with none; the housekeeping hart outside its partition and in it; an L1 and an L2 with copies of a line
that software keeps consistent, and without. -/
theorem witness_more_lines : (lined [] none).fits 0 [0x9000] = true ∧ crammed.fits 0 [0x9000] = false ∧ crammed.makeRoom 0 0x9000 [] ≠ crammed ∧
    (lined [] none).housekeepingMay 0x9000 128 false = false ∧
    ({ lined [] none with package := { world.package with locked := true, ranges := [(0x9000, 0x1000)] } } : State).housekeepingMay 0x9000 128 true = true ∧
    softHeld ((classed 1).withCore 0 fun x => { x with l1c := [(0x800000, List.replicate 128 0)] }).getCore 0x800000 0 = true ∧
    softHeld (classed 1).getCore 0x800000 0 = false ∧
    tabHas (((classed 1).withDie 0 fun x => { x with l2c := [(0x800000, List.replicate 128 0)] }).getDie (255 / 256)).l2c 0x800000 = true := by
  decide +kernel
/-- PageEvents: an owner that has still to make the access it claimed the page for; a line on its way, and one at rest; a private field evicted; a walk of the housekeeping
hart outside its partition. -/
theorem witness_more_pages : (keptByAnother.setSlot 12 { keptByAnother.getSlot 12 with active := true, did := .stalled, claiming := some (0x2000, 0) }).claimPending 3 0x2000 = true ∧
    keptByAnother.claimPending 3 0x2000 = false ∧
    (∃ c : Nat × CState, c ∈ ({ keptByAnother with caches := [(0x9000 * 8192 + 3, CState.isD)] } : State).caches ∧ c.1 % 8192 = 3 ∧
      leafHolds sharedPage.leaf (c.1 / 8192) = true ∧ c.2 ≠ .s ∧ c.2 ≠ .e ∧ c.2 ≠ .m) ∧
    (world.walkViolation 132 1 0x9000).isSome = true ∧ (world.walkViolation 0 1 0x9000).isNone = true := by
  refine ⟨?_, ?_, ⟨_, List.mem_singleton.mpr rfl, ?_⟩, ?_, ?_⟩ <;> decide +kernel

/-! ### Placement and power, more of them -/

/-- PlacementEvents: a range whose core-table entries cannot be read, of a record and of an entry; no target for an entry. LaunchEvents:
no context with EN set and work; tasks for two dies. -/
theorem witness_more_placement : unreadRange tableless 1 0 2 ∧ ¬unreadRange world 1 0 2 ∧
    ¬hasRoom (overfull 49) 0 0 ∧ (∀ y < 256, ((launching []).withMem [(0x1FF0C, 4, 0)]).launchWork y = false ∨ (world.getCtx y).lqbase.getLsbD 0 = false) ∧
    ((launching []).withMem [(0x1FF0C, 4, 0)]).launchWork 1 = false ∧
    placeOfLookup (world.ctRead 1 0) = some (world.pkg, 0, 0) ∧ placeOfLookup (world.ctRead 1 2) = some (world.pkg, 1, 4) ∧
    (world.entrySide 0 1).isSome = true ∧ dieOfCore (coreKey 1 4) = 1 := by
  refine ⟨⟨0, by decide, by decide, ?_⟩, ?_, ?_, ?_, ?_, ?_, ?_, ?_, ?_⟩
  · have h : (match tableless.ctRead 1 0 with | .unreadable => true | _ => false) = true := by decide +kernel
    cases hr : tableless.ctRead 1 0 <;> simp_all
  · rintro ⟨k, -, hk, h⟩
    have h' : ∀ k < 2, (match world.ctRead 1 k with | .unreadable => true | _ => false) = false := by decide +kernel
    have := h' k hk
    simp [h] at this
  · exact fun h => absurd h.1 (by decide +kernel)
  all_goals decide +kernel
/-- PowerEvents: a domain that has run above nominal; a pool that is spent; a die over its current, and one that is critical and cool again; currents at
the bounds of R475; a sensor at 110 °C. -/
theorem witness_more_power : ({ Domain.reset with ran := true } : Domain).ran = true ∧ (2 : Nat) ≤ ({ Domain.reset with level := 2 } : Domain).level ∧
    ((world.withDie 0 fun x => { x with limited := true, limit := 100 }).getDie 0).limited = true ∧
    (let d := (world.withDie 0 fun x => { x with critical := 1 }).getDie 0; d.critical ≠ 0 ∧ d.critical - 1 + 64000 ≤ 64000) ∧
    10 * 90 ≤ 9 * 100 ∧ ¬(10 * 91 ≤ 9 * 100) ∧ (∃ x ∈ [(0 : Nat), 440], 440 ≤ x) := by decide +kernel

/-! ### Trust, errors and links, more of them -/

/-- RegisterEvents: a request for recovery under way, and none; a partition not locked; a table of a live context. -/
theorem witness_more_trust : ({ started 3 [] with package := { (started 3 []).package with rcvreq := 0x6001 } } : State).package.rcvreq.getLsbD 0 = true ∧
    (started 3 []).package.rcvreq.getLsbD 0 = false ∧ 0 ∉ (started 3 []).package.hostDown ∧ world.package.locked = false ∧
    partitioned.meetsTables 0x300000400018 8 = false ∧ partitioned.meetsTables 0x3040 8 = true := by decide +kernel
/-- StartEvents: three alarms in the last second, and two; an address inside the partition and outside it. -/
theorem witness_more_alarms : 3 ≤ (([0, 0, 0] : List Nat).filter fun x => decide (world.time.toNat < x + 10 ^ 9)).length ∧
    (([0, 0] : List Nat).filter fun x => decide (world.time.toNat < x + 10 ^ 9)).length < 3 ∧
    partitioned.meetsTables 0x300000400000 1 = false ∧ (∃ r ∈ partitioned.package.ranges, r.1 ≤ 0x300000400000 ∧ 0x300000400000 + 1 ≤ r.1 + r.2) ∧
    ¬∃ r ∈ partitioned.package.ranges, r.1 ≤ 0x3040 ∧ 0x3040 + 1 ≤ r.1 + r.2 := by decide +kernel

/-- ErrorEvents: a `TLBINV` outstanding, and none; lines of an instruction cache, of an L1 that hardware keeps consistent, and of the proxy of
another die; an accumulator line in its slice. -/
theorem witness_more_errors : ({ world with agenda := [.fenceTokenCompletion 0 0 0 1 [.update 5] none] } : State).shootingDown = true ∧
    world.shootingDown = false ∧ (∃ y ∈ ((cached 0).getCore 0).icache, y.1 = 0x8000) ∧ tabHas ((lined [(0, .m)] none).getCore 0).l1c 0x9000 = false ∧
    (lined [(0, .m)] none).cst 0x9000 0 = some .m ∧ (lined [(proxyAgent 1, .m)] none).cst 0x9000 (proxyAgent 1) = some .m ∧
    tabHas (lined [(proxyAgent 1, .m)] none).acc 0x9000 = false ∧
    (accumulator.acc.find? fun z => z.1 == 0x800000) = some (0x800000, ⟨.fp32, true, 1, true, true⟩) ∧ homeDie 0x800000 = 0 := by decide +kernel

/-- LinkEvents: a die that its isolated boundaries cut off, and one that they do not; a port that is absent; a port that the waiting load
alone waits on; a context with a route through a port; copies and dirty lines of the host's window. -/
theorem witness_more_links : (∀ f n, shareBoundary 0 f n →
      (boundaryOfNumber { world with package := { world.package with boundaries := [(0, ⟨.isolated, 0, []⟩), (1, ⟨.isolated, 0, []⟩)] } } n).width = .isolated) ∧
    (boundaryOfNumber (bounded .isolated 0 []) 1).width = .full ∧ (∀ j < 2, loadingHost.fetchAt (loadingHost.atHost j) 0x8000000008 = none) ∧
    (∃ n < 64, routed.route 1 n = .open 3) ∧ (∀ l ∈ [0x9000 * 8192], hostPort 0 (l / 8192) ≠ some 0) := by
  refine ⟨?_, ?_, ?_, ⟨1, by decide, ?_⟩, ?_⟩
  · rintro f n ⟨-, -, ⟨h1, h2, rfl⟩ | ⟨h1, rfl⟩⟩
    · obtain rfl : f = 1 := by omega
      decide
    · obtain rfl : f = 6 := by omega
      decide
  all_goals decide +kernel

end Sys2Proof.Tests
end

