-- ==== Sys2Proof/Proofs/FpWords.lean ====
section
/-!
PROOF. Words that trap before they have an effect, and the scalar FP words that a core performs itself.
-/
namespace Sys2Proof.Machine

/-! ## CSR words and supervisor words that trap (R179, R206, R211, R213, R214, R427) -/

/-- A CSR word with a fault raises it. -/
theorem csrWord_fault {i : Instr} {n : BitVec 11} {w r : Bool} {k : State → Out} {s : State} {c : Cause} {detail : Nat}
    (h : s.csrFault n.toNat w r = some (c, detail)) : csrWord i n w r k s = .next (s.raise c detail (s.wordVal i)) := by
  simp [csrWord, h]

theorem csrFault_of_reserved {s : State} {n : Nat} (w r : Bool) (h : csrExists n = false) :
    s.csrFault n w r = some (.illegal, 9) := by simp [State.csrFault, h]

theorem csrFault_of_user {s : State} {n : Nat} (w r : Bool) (h : csrExists n = true) (hn : 0x100 ≤ n)
    (hs : s.hot.supervisor = false) : s.csrFault n w r = some (.privilege, n) := by simp [State.csrFault, h, hn, hs]

/-- A register that the activation may see is not written where it is read-only, and `XLAUNCH` only read. -/
theorem csrFault_of_forbidden {s : State} {n : Nat} {w r : Bool} (h : csrExists n = true)
    (hv : n < 0x100 ∨ s.hot.supervisor = true)
    (hf : w = true ∧ csrReadOnly s.hot.supervisor n = true ∨ r = false ∧ n = 0x088) :
    s.csrFault n w r = some (.illegal, 9) := by
  have visible : (decide (0x100 ≤ n) && !s.hot.supervisor) = false := by
    rcases hv with hv | hv
    · simp [Nat.not_le.mpr hv]
    · simp [hv]
  have forbidden : (w && csrReadOnly s.hot.supervisor n || !r && n == csrXlaunch) = true := by
    rcases hf with ⟨hw, ho⟩ | ⟨hr, hn⟩
    · simp [hw, ho]
    · simp [hr, hn, csrXlaunch]
  simp only [State.csrFault, h, visible, forbidden, Bool.not_true, Bool.false_eq_true, if_false, if_true]

/-- `XLAUNCH` is read-only to every activation. -/
theorem csrReadOnly_xlaunch (supervisor : Bool) : csrReadOnly supervisor 0x088 = true := by
  cases supervisor <;> decide

theorem supervisorWords_trap : supervisorWordsTrapInUserMode := by
  intro s d a b c hs
  refine ⟨?_, ?_, ?_, fun he hn => ?_⟩
  · simp [exec, execTlbinv, hs]
  · simp [exec, execHalt, hs]
  · simp [exec, execCapmint, hs]
  · have fault : ∀ w r, s.csrFault c.toNat w r = some (.privilege, c.toNat) := fun w r => csrFault_of_user w r he hn hs
    refine ⟨?_, ?_, ?_, ?_, ?_⟩ <;> (apply csrWord_fault; exact fault _ _)

theorem badCsrNumbers_illegal : badCsrNumbersAreIllegal := by
  intro s d a c
  refine ⟨fun he => ?_, fun he hv hf => ⟨?_, ?_, fun ha => ?_⟩⟩
  · have fault : ∀ w r, s.csrFault c.toNat w r = some (.illegal, 9) := fun w r => csrFault_of_reserved w r he
    refine ⟨?_, ?_, ?_, ?_, ?_⟩ <;> (apply csrWord_fault; exact fault _ _)
  all_goals
    have readOnly : csrReadOnly s.hot.supervisor c.toNat = true := by
      rcases hf with ho | hn
      · exact ho
      · rw [hn]; exact csrReadOnly_xlaunch _
  · apply csrWord_fault; exact csrFault_of_forbidden he hv (.inl ⟨rfl, readOnly⟩)
  · apply csrWord_fault; exact csrFault_of_forbidden he hv (.inl ⟨rfl, readOnly⟩)
  · have fault : s.csrFault c.toNat (a != 0) false = some (.illegal, 9) :=
      csrFault_of_forbidden he hv (ha.imp (fun h => ⟨by simpa using h, readOnly⟩) fun h => ⟨rfl, h⟩)
    constructor <;> (apply csrWord_fault; exact fault)

/-! ## Reserved rounding modes (R66, R424) -/

/-- A dynamic rounding field with a reserved mode traps. -/
theorem rmGuard_reserved {i : Instr} {s : State} {k : Out} (h : 3 < s.hot.rm) :
    rmGuard true i s k = .next (s.raise .illegal 4 (s.wordVal i)) := by simp [rmGuard, h]

theorem vectorWord_reserved {i : Instr} {s : State} (hi : vConsultsRm i = true) (h : 3 < s.hot.rm) :
    vectorWord i s = .next (s.raise .illegal 4 (s.wordVal i)) := by simp [vectorWord, hi, h]

theorem reservedRoundingModes_illegal : reservedRoundingModesAreIllegal := by
  intro s d a b c v w k f src dst (h : 3 < s.hot.rm)
  refine ⟨rmGuard_reserved h, rmGuard_reserved h, rmGuard_reserved h, rmGuard_reserved h, rmGuard_reserved h,
    fun h8 h8w => ?_, rmGuard_reserved h, rmGuard_reserved h, rmGuard_reserved h, rmGuard_reserved h,
    vectorWord_reserved rfl h, vectorWord_reserved rfl h, vectorWord_reserved rfl h⟩
  have dynamic : cvtDynamic true dst = true := by simp [cvtDynamic, h8, h8w]
  change rmGuard (cvtDynamic true dst) _ s _ = _
  rw [dynamic]
  exact rmGuard_reserved h

/-! ## Scalar FP words that a core performs (R216, R217, R430, R431) -/

/-- The other end of the guard: a mode that is not reserved lets the word go on. -/
theorem rmGuard_legal {dynamic : Bool} {i : Instr} {s : State} {k : Out} (h : dynamic = true → s.hot.rm ≤ 3) :
    rmGuard dynamic i s k = k := by
  cases dynamic <;> simp_all [rmGuard]

theorem rnd_legal {r : Rnd} {s : State} (h : modeCode r s.hot.rm ≤ 3) : (r == .dyn) = true → s.hot.rm ≤ 3 := by
  cases r <;> simp_all [modeCode]

theorem rnd4_legal {q : Rnd4} {s : State} (h : modeCode4 q s.hot.rm ≤ 3) : (q == .dyn) = true → s.hot.rm ≤ 3 := by
  cases q <;> simp_all [modeCode4]

theorem cvt_legal {r : Rnd} {dst : CvtType} {s : State}
    (h : (if dst = .f8 ∨ dst = .f8w then 0 else modeCode r s.hot.rm) ≤ 3) :
    cvtDynamic (r == .dyn) dst = true → s.hot.rm ≤ 3 := by
  intro hc
  simp only [cvtDynamic, Bool.and_eq_true, bne_iff_ne, ne_eq] at hc
  obtain ⟨⟨hr, h8⟩, h8w⟩ := hc
  simp only [h8, h8w, or_self, if_false] at h
  exact rnd_legal h hr

/-- A word of the list performs as the shared form of scalar FP words on its operand values. -/
theorem exec_fpWords (s : State) (d a b c : GReg) (r : Rnd) (q : Rnd4) (f : Fmt) (src dst : CvtType) :
    ∀ w ∈ fpWords s d a b c r q f src dst, w.2.2.2 ≤ 3 →
      exec w.1 s = fpWord w.1 d w.2.1.1 w.2.1.2.1 w.2.1.2.2 s := by
  have rnd : modeCode r (s.hot.fcsr.toNat / 32 % 8) ≤ 3 → (r == .dyn) = true → s.hot.rm ≤ 3 := rnd_legal (s := s)
  have rnd4 : modeCode4 q (s.hot.fcsr.toNat / 32 % 8) ≤ 3 → (q == .dyn) = true → s.hot.rm ≤ 3 := rnd4_legal (s := s)
  simp only [fpWords, List.forall_mem_cons]
  refine ⟨fun h => rmGuard_legal (rnd h), fun h => rmGuard_legal (rnd h), fun h => rmGuard_legal (rnd h),
    fun h => rmGuard_legal (rnd h), fun h => rmGuard_legal (rnd h), fun _ => rfl, fun _ => rfl, fun _ => rfl, fun _ => rfl,
    fun _ => rfl, fun _ => rfl, fun _ => rfl, fun _ => rfl, fun _ => rfl, fun h => rmGuard_legal (cvt_legal (s := s) h),
    fun _ => rfl, fun _ => rfl, fun _ => rfl, fun _ => rfl, fun _ => rfl, fun _ => rfl, fun _ => rfl, fun _ => rfl,
    fun _ => rfl, fun _ => rfl, fun h => rmGuard_legal (rnd4 h), fun h => rmGuard_legal (rnd4 h),
    fun h => rmGuard_legal (rnd4 h), fun h => rmGuard_legal (rnd4 h), by simp⟩

/-- Sign extension of a code is the word of its signed reading. -/
theorem sextTo64_eq {n x : Nat} (hn : 0 < n) (h64 : n ≤ 64) : sextTo64 n x = wordOfInt (signedOf n x) := by
  have e : (BitVec.ofNat n x).toInt = signedOf n x := by
    rw [BitVec.toInt_eq_toNat_cond, BitVec.toNat_ofNat, signedOf]
    have whole : 2 ^ n = 2 * 2 ^ (n - 1) := by rw [← Nat.pow_succ']; congr 1; omega
    have half : 2 * (x % 2 ^ n) < 2 ^ n ↔ x % 2 ^ n < 2 ^ (n - 1) := by omega
    simp only [half]
    push_cast
    rfl
  rw [sextTo64, BitVec.signExtend, e]; rfl

theorem cvtExtend_eq (dst : CvtType) (bits : Nat) :
    cvtExtend dst bits = if dst = .i8 then wordOfInt (signedOf 8 bits)
      else if dst = .i32 then wordOfInt (signedOf 32 bits) else word bits := by
  cases dst <;> simp [cvtExtend, sextTo64_eq]

theorem evalFp_fpWords (s : State) (d a b c : GReg) (r : Rnd) (q : Rnd4) (f : Fmt) (src dst : CvtType) :
    ∀ w ∈ fpWords s d a b c r q f src dst, evalFp w.1 w.2.1.1 w.2.1.2.1 w.2.1.2.2 s.hot.rm = w.2.2.1 := by
  simp only [fpWords, List.forall_mem_cons]
  refine ⟨rfl, rfl, rfl, rfl, rfl, rfl, rfl, rfl, rfl, rfl, rfl, rfl, rfl, rfl, ?_, rfl, rfl, rfl, rfl, rfl, rfl, rfl, rfl,
    rfl, rfl, rfl, rfl, rfl, rfl, by simp⟩
  rw [← cvtExtend_eq]; rfl

/-- Accruing flags writes `FCSR` and the log. -/
theorem Slot.accrue_eq (x : Slot) (flags : Nat) :
    x.accrue flags = { x with fcsr := x.fcsr ||| word flags, history := (x.accrue flags).history } := by
  unfold Slot.accrue
  split_ifs with h
  · simp [h, word]
  · simp [Slot.log_eq]

/-- What a word does that completes with a result for `rd` and flags to accrue. -/
def completesAndAccrues (s t : State) (d : GReg) (x : Word) (flags : Nat) : Prop :=
  t.g d = (if d = 0 then 0 else x) ∧ s.sameOtherG t d ∧ t.hot.fcsr = s.hot.fcsr ||| word flags ∧
    s.hot.completes t.hot s.hot.nxt ∧
    t.hot = { s.hot with
      g := t.hot.g, fcsr := t.hot.fcsr, pc := t.hot.pc, retired := t.hot.retired, did := t.hot.did,
      history := t.hot.history } ∧
    s.sameOutside t ∧ s.sameMemory t

theorem writeG_accrue_retire (s : State) (d : GReg) (x : Word) (flags : Nat) :
    completesAndAccrues s ((s.writeG d x).accrue flags).retire d x flags := by
  set y := s.hot.writeG d x with hy
  have e : ((s.writeG d x).accrue flags).retire =
      { s with hot := { y with
          fcsr := y.fcsr ||| word flags, history := (y.accrue flags).history, pc := y.nxt, retired := y.retired + 1, did := .done } } := by
    simp only [State.retire, State.retireTo, State.accrue, State.writeG, ← hy]
    rw [Slot.accrue_eq]
  have frame : y = { s.hot with g := y.g, history := y.history } := by
    rw [hy, Slot.writeG_eq]; split_ifs <;> rfl
  have reads : ∀ k : GReg, ((s.writeG d x).accrue flags).retire.g k = y.getG k := fun k => by rw [e]; rfl
  refine ⟨?_, fun k hk => ?_, ?_, ?_, ?_, by rw [e]; rfl, fun _ => rfl⟩
  · rw [reads, hy, Slot.getG_writeG]; simp
  · rw [reads, hy, Slot.getG_writeG]
    by_cases h0 : k = 0 <;> simp [h0, hk, State.g, Slot.getG]
  all_goals rw [e]
  · rw [frame]
  · rw [frame]; exact ⟨rfl, rfl, rfl⟩
  · rw [frame]

/-- The two ends of a scalar FP word that the core performs itself. -/
theorem fpWord_ends {i : Instr} {s : State} (hs : s.piccolo = false ∨ shipsFp i = false) (d : GReg) (a b c : Word) :
    let r := evalFp i a b c s.hot.rm
    (r.2 &&& s.hot.te = 0 → fpWord i d a b c s = .next ((s.writeG d r.1).accrue r.2).retire) ∧
    (r.2 &&& s.hot.te ≠ 0 →
      fpWord i d a b c s = .next (s.raise .fp 0 (word ((r.2 &&& s.hot.te) * 2 ^ 8 + r.2)))) := by
  have here : (s.piccolo && shipsFp i) = false := by rcases hs with h | h <;> simp [h]
  constructor <;> intro h
  · simp [fpWord, here, h]
  · simp [fpWord, here, h, fpTrapVal]

/-- Settles O36: the fault of a CSR word, the first test of a supervisor word, and the guard of a rounding field come before
any effect. -/
theorem illegalAndPrivilegedWordsTrap : Obligations.IllegalAndPrivilegedWordsTrap :=
  ⟨supervisorWords_trap, badCsrNumbers_illegal, reservedRoundingModes_illegal⟩

/-- Settles O30: every listed word is the shared form of scalar FP words, which either completes or raises. -/
theorem fpWordsWriteAndAccrue : Obligations.FpWordsWriteAndAccrue := by
  intro s d a b c r q f src dst w hw hm hs
  obtain ⟨completes, raises⟩ := fpWord_ends hs d w.2.1.1 w.2.1.2.1 w.2.1.2.2
  rw [← exec_fpWords s d a b c r q f src dst w hw hm, evalFp_fpWords s d a b c r q f src dst w hw] at completes raises
  exact ⟨fun h => ⟨_, completes h, writeG_accrue_retire s d w.2.2.1.1 w.2.2.1.2⟩, fun h => raises h⟩

end Sys2Proof.Machine
end

