-- ==== Sys2Proof/Proofs/Rounding.lean ====
section
/-!
PROOF. Rounding (R66, R68): the model rounds a magnitude to a multiple of a power of two; that this is the rounding of the real
number in every set of numbers with the statements' shape, bounded in precision, in exponent, or in both.
-/
namespace Sys2Proof.Machine

/-! ## Multiples of a power of two -/

/-- The multiples of `2^q`, and the even ones. -/
def multipleOf (q : ℤ) (z : ℝ) : Prop := ∃ k : ℤ, z = k * (2 : ℝ) ^ q
def evenMultipleOf (q : ℤ) (z : ℝ) : Prop := ∃ k : ℤ, z = (2 * k : ℤ) * (2 : ℝ) ^ q

/-- A real with a sign. -/
def withSign (neg : Bool) (x : ℝ) : ℝ := if neg then -x else x

@[simp] theorem abs_withSign (neg : Bool) (x : ℝ) : |withSign neg x| = |x| := by cases neg <;> simp [withSign]

theorem withSign_mul (neg : Bool) (x y : ℝ) : withSign neg (x * y) = withSign neg x * y := by cases neg <;> simp [withSign]

theorem withSign_inj {neg : Bool} {x y : ℝ} : withSign neg x = withSign neg y ↔ x = y := by cases neg <;> simp [withSign]

/-- A smaller set of numbers that still has the rounded one rounds alike. -/
theorem isRounding.mono {rm : RMode} {M E M' E' : ℝ → Prop} {x y : ℝ} (h : isRounding rm M E x y)
    (sub : ∀ z, M' z → M z) (mem : M' y) (even : E y → E' y) : isRounding rm M' E' x y := by
  refine ⟨mem, ?_⟩
  obtain ⟨-, h⟩ := h
  cases rm with
  | rne => exact fun z hz => ⟨(h z (sub z hz)).1, fun hne heq => even ((h z (sub z hz)).2 hne heq)⟩
  | rtz => exact ⟨h.1, h.2.1, fun z hz => h.2.2 z (sub z hz)⟩
  | rdn => exact ⟨h.1, fun z hz => h.2 z (sub z hz)⟩
  | rup => exact ⟨h.1, fun z hz => h.2 z (sub z hz)⟩

/-- Scaling by a positive number scales the rounding. -/
theorem isRounding.scale {rm : RMode} {M E M' E' : ℝ → Prop} {x y c : ℝ} (hc : 0 < c) (h : isRounding rm M E x y)
    (mem : ∀ z, M' (z * c) ↔ M z) (even : ∀ z, E z → E' (z * c)) : isRounding rm M' E' (x * c) (y * c) := by
  have back : ∀ z, z / c * c = z := fun z => div_mul_cancel₀ z hc.ne'
  have dist : ∀ z, |z * c - x * c| = |z - x| * c := fun z => by rw [← sub_mul, abs_mul, abs_of_pos hc]
  obtain ⟨hy, h⟩ := h
  refine ⟨(mem y).mpr hy, ?_⟩
  have every : ∀ {P : ℝ → Prop}, (∀ z, M z → P (z * c)) → ∀ z, M' z → P z := by
    intro P hP z hz
    rw [← back z] at hz ⊢
    exact hP _ ((mem _).mp hz)
  cases rm with
  | rne =>
    refine every fun z hz => ?_
    rw [dist, dist]
    obtain ⟨near, tie⟩ := h z hz
    refine ⟨mul_le_mul_of_nonneg_right near hc.le, fun hne heq => even y (tie ?_ (mul_right_cancel₀ hc.ne' heq))⟩
    rintro rfl
    exact hne rfl
  | rtz =>
    obtain ⟨sameSign, below, best⟩ := h
    refine ⟨by nlinarith [mul_pos hc hc], ?_, every fun z hz hs hle => ?_⟩
    · rw [abs_mul, abs_mul]; exact mul_le_mul_of_nonneg_right below (abs_nonneg c)
    · rw [abs_mul, abs_mul, abs_of_pos hc] at *
      refine mul_le_mul_of_nonneg_right (best z hz ?_ (le_of_mul_le_mul_right hle hc)) hc.le
      by_contra hneg
      nlinarith [mul_pos hc hc]
  | rdn =>
    exact ⟨mul_le_mul_of_nonneg_right h.1 hc.le, every fun z hz hle =>
      mul_le_mul_of_nonneg_right (h.2 z hz (le_of_mul_le_mul_right hle hc)) hc.le⟩
  | rup =>
    exact ⟨mul_le_mul_of_nonneg_right h.1 hc.le, every fun z hz hle =>
      mul_le_mul_of_nonneg_right (h.2 z hz (le_of_mul_le_mul_right hle hc)) hc.le⟩

/-- The mode that does below zero what a mode does above. -/
def mirrored : RMode → RMode | .rdn => .rup | .rup => .rdn | rm => rm

/-- Turning the sign mirrors the mode. -/
theorem isRounding.negate {rm : RMode} {M E : ℝ → Prop} {x y : ℝ} (h : isRounding (mirrored rm) M E x y)
    (mem : ∀ z, M (-z) ↔ M z) (even : ∀ z, E z → E (-z)) : isRounding rm M E (-x) (-y) := by
  obtain ⟨hy, h⟩ := h
  refine ⟨(mem y).mpr hy, ?_⟩
  have dist : ∀ z, |z - -x| = |-z - x| := fun z => by rw [← abs_neg]; ring_nf
  cases rm with
  | rne =>
    intro z hz
    obtain ⟨near, tie⟩ := h (-z) ((mem z).mpr hz)
    rw [dist, dist, neg_neg]
    exact ⟨near, fun hne heq => even y (tie (fun e => hne (by rw [← e, neg_neg])) heq)⟩
  | rtz =>
    obtain ⟨sameSign, below, best⟩ := h
    refine ⟨by linarith [neg_mul_neg x y], by simpa using below, fun z hz hs hle => ?_⟩
    have := best (-z) ((mem z).mpr hz) (by linarith [neg_mul_comm x z]) (by simpa using hle)
    simpa using this
  | rdn => exact ⟨neg_le_neg h.1, fun z hz hle => le_neg_of_le_neg (h.2 (-z) ((mem z).mpr hz) (le_neg_of_le_neg hle))⟩
  | rup => exact ⟨neg_le_neg h.1, fun z hz hle => neg_le_of_neg_le (h.2 (-z) ((mem z).mpr hz) (neg_le_of_neg_le hle))⟩

/-- When a mode takes the integer above a magnitude `X` that is at least `n` and below `n + 1` (R66). -/
def roundsUp (rm : RMode) (neg : Bool) (n : ℕ) (X : ℝ) : Prop :=
  match rm with
  | .rne => 1 / 2 < X - n ∨ X - n = 1 / 2 ∧ n % 2 = 1
  | .rtz => False
  | .rdn => neg = true ∧ X ≠ n
  | .rup => neg = false ∧ X ≠ n

theorem roundsUp_mirrored (rm : RMode) (n : ℕ) (X : ℝ) : roundsUp (mirrored rm) false n X = roundsUp rm true n X := by
  cases rm <;> simp [roundsUp, mirrored]

def isInteger (z : ℝ) : Prop := ∃ k : ℤ, z = k
def isEvenInteger (z : ℝ) : Prop := ∃ k : ℤ, z = (2 * k : ℤ)

/-- The integer that `roundsUp` selects for a magnitude is its rounding. -/
theorem isRounding_natural {rm : RMode} {up : Bool} {n : ℕ} {X : ℝ} (lo : (n : ℝ) ≤ X) (hi : X < n + 1)
    (hup : up = true ↔ roundsUp rm false n X) :
    isRounding rm isInteger isEvenInteger X ((if up then n + 1 else n : ℕ) : ℝ) := by
  have n0 : (0 : ℝ) ≤ n := Nat.cast_nonneg n
  have every : ∀ {P : ℝ → Prop}, (∀ k : ℤ, (k : ℝ) ≤ n ∨ (n : ℝ) + 1 ≤ k → P k) → ∀ z, isInteger z → P z := by
    rintro P hP z ⟨k, rfl⟩
    refine hP k ?_
    rcases le_or_gt k n with h | h
    · exact .inl (by exact_mod_cast h)
    · exact .inr (by exact_mod_cast h)
  refine ⟨⟨(if up then n + 1 else n : ℕ), by simp⟩, ?_⟩
  cases rm with
  | rne =>
    refine every fun k hk => ?_
    cases up with
    | true =>
      have half : 1 / 2 < X - n ∨ X - n = 1 / 2 ∧ n % 2 = 1 := hup.mp rfl
      have even : X - n = 1 / 2 → isEvenInteger ((n + 1 : ℕ) : ℝ) := fun e =>
        ⟨((n + 1) / 2 : ℕ), by rcases half with h | ⟨-, h⟩ <;> [linarith; exact_mod_cast (show n + 1 = 2 * ((n + 1) / 2) by omega)]⟩
      simp only [if_true, Nat.cast_add, Nat.cast_one] at even ⊢
      rw [abs_of_pos (by linarith : (0 : ℝ) < n + 1 - X)]
      rcases hk with hk | hk
      · rw [abs_of_nonpos (by linarith)]
        exact ⟨by rcases half with h | ⟨h, -⟩ <;> linarith, fun _ heq => even (by rcases half with h | ⟨h, -⟩ <;> linarith)⟩
      · rw [abs_of_pos (by linarith)]
        exact ⟨by linarith, fun hne heq => absurd (by linarith) hne⟩
    | false =>
      have half : ¬(1 / 2 < X - n ∨ X - n = 1 / 2 ∧ n % 2 = 1) := fun h => by simpa using hup.mpr h
      obtain ⟨small, odd⟩ := not_or.mp half
      have even : X - n = 1 / 2 → isEvenInteger (n : ℝ) := fun e =>
        ⟨(n / 2 : ℕ), by exact_mod_cast (show n = 2 * (n / 2) by have : ¬n % 2 = 1 := fun h => odd ⟨e, h⟩; omega)⟩
      simp only [Bool.false_eq_true, if_false]
      rw [abs_of_nonpos (by linarith : (n : ℝ) - X ≤ 0)]
      rcases hk with hk | hk
      · rw [abs_of_nonpos (by linarith)]
        exact ⟨by linarith, fun hne heq => absurd (by linarith) hne⟩
      · rw [abs_of_pos (by linarith)]
        exact ⟨by linarith, fun _ heq => even (by linarith)⟩
  | rtz =>
    obtain rfl : up = false := by simpa [roundsUp] using hup
    have pos : 0 ≤ X := by linarith
    refine ⟨mul_nonneg pos (by positivity), by simpa [abs_of_nonneg pos] using lo, every fun k hk hs hle => ?_⟩
    simp only [Bool.false_eq_true, if_false, abs_of_nonneg pos, Nat.abs_cast] at hle ⊢
    rcases hk with hk | hk
    · rw [abs_le] at hle ⊢
      refine ⟨?_, hk⟩
      rcases eq_or_lt_of_le pos with e | e
      · linarith
      · linarith [nonneg_of_mul_nonneg_right hs e]
    · linarith [le_abs_self (k : ℝ)]
  | rdn =>
    obtain rfl : up = false := by simpa [roundsUp] using hup
    simp only [Bool.false_eq_true, if_false]
    exact ⟨lo, every fun k hk hle => by rcases hk with hk | hk <;> linarith⟩
  | rup =>
    have up_iff : up = true ↔ X ≠ n := by simpa [roundsUp] using hup
    cases up with
    | true =>
      have above : (n : ℝ) < X := lt_of_le_of_ne lo (up_iff.mp rfl).symm
      simp only [if_true, Nat.cast_add, Nat.cast_one]
      exact ⟨hi.le, every fun k hk hle => by rcases hk with hk | hk <;> linarith⟩
    | false =>
      have exact_ : X = n := by by_contra h; simpa using up_iff.mpr h
      simp only [Bool.false_eq_true, if_false]
      exact ⟨exact_.le, fun z _ hle => by linarith⟩

/-- With a sign, and as multiples of a power of two. -/
theorem isRounding_multiple {rm : RMode} {neg up : Bool} {n : ℕ} {X : ℝ} (q : ℤ) (lo : (n : ℝ) ≤ X) (hi : X < n + 1)
    (hup : up = true ↔ roundsUp rm neg n X) :
    isRounding rm (multipleOf q) (evenMultipleOf q) (withSign neg (X * 2 ^ q))
      (withSign neg (((if up then n + 1 else n : ℕ) : ℝ) * 2 ^ q)) := by
  have c0 : (0 : ℝ) < 2 ^ q := by positivity
  rw [withSign_mul, withSign_mul]
  refine isRounding.scale (M := isInteger) (E := isEvenInteger) c0 ?_
    (fun z => ⟨fun ⟨k, hk⟩ => ⟨k, mul_right_cancel₀ c0.ne' hk⟩, fun ⟨k, hk⟩ => ⟨k, by rw [hk]⟩⟩)
    (fun z ⟨k, hk⟩ => ⟨k, by rw [hk]⟩)
  cases neg with
  | false => exact isRounding_natural lo hi hup
  | true =>
    refine isRounding.negate (isRounding_natural lo hi (by rwa [roundsUp_mirrored])) (fun z => ?_) (fun z => ?_)
    · exact ⟨fun ⟨k, hk⟩ => ⟨-k, by push_cast; linarith⟩, fun ⟨k, hk⟩ => ⟨-k, by push_cast; linarith⟩⟩
    · exact fun ⟨k, hk⟩ => ⟨-k, by push_cast at hk ⊢; linarith⟩

/-! ## What `roundAt` does -/

/-- A positive real that `m × 2^e` stands for when it is rounded to multiples of `2^q`: `m × 2^e` itself, or a number strictly
between its neighbours where the last bit of `m` is a sticky one below the bit that decides. -/
def standsFor (m : ℕ) (e q : ℤ) (x : ℝ) : Prop :=
  x = m * (2 : ℝ) ^ e ∨
    m % 2 = 1 ∧ e + 2 ≤ q ∧ ((m : ℝ) - 1) * (2 : ℝ) ^ e < x ∧ x < ((m : ℝ) + 1) * (2 : ℝ) ^ e

/-- A number at or near `m`, its remainder by a power of two against zero and against the half: the remainder of `m` tells. -/
theorem remainder_decides {m k : ℕ} {X : ℝ} (h : X = m ∨ m % 2 = 1 ∧ 2 ≤ k ∧ (m : ℝ) - 1 < X ∧ X < m + 1) :
    let d := 2 ^ k
    let rest := X - (m / d : ℕ) * (d : ℕ)
    0 ≤ rest ∧ rest < (d : ℕ) ∧ (rest = 0 ↔ m % d = 0) ∧ ((d : ℕ) < 2 * rest ↔ d < 2 * (m % d)) ∧
      (2 * rest = (d : ℕ) ↔ 2 * (m % d) = d) := by
  intro d rest
  have d0 : 0 < d := by positivity
  have split : (m : ℝ) = d * (m / d : ℕ) + (m % d : ℕ) := by exact_mod_cast (Nat.div_add_mod m d).symm
  have rlt : ((m % d : ℕ) : ℝ) + 1 ≤ d := by exact_mod_cast Nat.mod_lt m d0
  have r0 : (0 : ℝ) ≤ (m % d : ℕ) := Nat.cast_nonneg _
  rcases h with h | ⟨odd, h2, lo, hi⟩
  · obtain hrest : rest = (m % d : ℕ) := by simp only [rest, h]; linarith
    rw [hrest]
    exact ⟨r0, by linarith, Nat.cast_eq_zero, by exact_mod_cast Iff.rfl, by exact_mod_cast Iff.rfl⟩
  · -- the remainder of `m` is odd and `d` a multiple of four, so it is neither zero nor the half
    obtain ⟨j, rfl⟩ : ∃ j, k = j + 2 := ⟨k - 2, by omega⟩
    have d4 : d = 2 * (2 * 2 ^ j) := by simp only [d]; ring
    have rodd : m % d % 2 = 1 := by rw [Nat.mod_mod_of_dvd _ ⟨_, d4⟩]; exact odd
    have near : ((m % d : ℕ) : ℝ) - 1 < rest ∧ rest < (m % d : ℕ) + 1 := by constructor <;> simp only [rest] <;> linarith
    have r1 : (1 : ℝ) ≤ (m % d : ℕ) := by exact_mod_cast (show 1 ≤ m % d by omega)
    have side : ((2 * (m % d) + 2 : ℕ) : ℝ) ≤ d ∧ 2 * (m % d) < d ∨ ((d + 2 : ℕ) : ℝ) ≤ (2 * (m % d) : ℕ) ∧ d < 2 * (m % d) := by
      rcases le_or_gt (2 * (m % d)) d with hc | hc
      · exact .inl ⟨by exact_mod_cast (show 2 * (m % d) + 2 ≤ d by omega), by omega⟩
      · exact .inr ⟨by exact_mod_cast (show d + 2 ≤ 2 * (m % d) by omega), hc⟩
    push_cast at side
    refine ⟨by linarith, by linarith, ⟨fun h => by linarith, fun h => by omega⟩, ?_, ?_⟩
    · rcases side with ⟨hr, hn⟩ | ⟨hr, hn⟩
      · exact ⟨fun h => by linarith, fun h => by omega⟩
      · exact ⟨fun _ => hn, fun _ => by linarith⟩
    · rcases side with ⟨hr, hn⟩ | ⟨hr, hn⟩
      · exact ⟨fun h => by linarith, fun h => by omega⟩
      · exact ⟨fun h => by linarith, fun h => by omega⟩

/-- The quotient by `2^q` lies in the interval of the truncated integer, and `roundInc` decides as the mode does. -/
theorem roundAt_selects (rm : RMode) (neg : Bool) {m : ℕ} {e q : ℤ} {x : ℝ} (h : standsFor m e q x) :
    ∃ (n : ℕ) (up : Bool), (roundAt rm neg m e q).1 = (if up then n + 1 else n) ∧ (n : ℝ) ≤ x / 2 ^ q ∧ x / 2 ^ q < n + 1 ∧
      (up = true ↔ roundsUp rm neg n (x / 2 ^ q)) ∧ ((roundAt rm neg m e q).2 = false ↔ x / 2 ^ q = n) := by
  have e0 : (0 : ℝ) < 2 ^ e := by positivity
  by_cases hqe : q ≤ e
  · obtain rfl : x = m * (2 : ℝ) ^ e := by
      rcases h with h | ⟨-, hq, -⟩
      · exact h
      · omega
    have quotient : (m : ℝ) * 2 ^ e / 2 ^ q = (m * 2 ^ (e - q).toNat : ℕ) := by
      obtain ⟨k, rfl⟩ : ∃ k : ℕ, e = q + k := ⟨(e - q).toNat, by omega⟩
      have : (q + k - q).toNat = k := by omega
      rw [this, zpow_add₀ two_ne_zero, zpow_natCast]
      push_cast
      field_simp
    refine ⟨m * 2 ^ (e - q).toNat, false, by simp [roundAt, hqe], quotient.ge, by rw [quotient]; linarith, ?_, ?_⟩
    · rw [quotient]; cases rm <;> simp [roundsUp]
    · simp [roundAt, hqe, quotient]
  · obtain ⟨k, hk⟩ : ∃ k : ℕ, q = e + k := ⟨(q - e).toNat, by omega⟩
    set d : ℕ := 2 ^ k with hd
    have dr : (0 : ℝ) < d := by exact_mod_cast (show 0 < d by positivity)
    have value : roundAt rm neg m e q = (if roundInc rm neg (m / d) (m % d) d then m / d + 1 else m / d, m % d != 0) := by
      have : (q - e).toNat = k := by omega
      simp only [roundAt, hqe, if_false, this]; rfl
    have scale : x / 2 ^ q = x / 2 ^ e / d := by
      rw [hk, zpow_add₀ two_ne_zero, zpow_natCast, hd]; push_cast; rw [div_div]
    obtain ⟨lo, hi, isExact, above, tie⟩ := remainder_decides (m := m) (k := k) (X := x / 2 ^ e) (by
      rcases h with h | ⟨odd, h2, hlo, hhi⟩
      · exact .inl (by rw [h]; field_simp)
      · exact .inr ⟨odd, by omega, (lt_div_iff₀ e0).mpr hlo, (div_lt_iff₀ e0).mpr hhi⟩)
    rw [← hd] at lo hi isExact above tie
    have whole : x / 2 ^ e / d = (m / d : ℕ) ↔ m % d = 0 := by rw [← isExact, div_eq_iff dr.ne', sub_eq_zero]
    have over_ : x / 2 ^ e / d - (m / d : ℕ) = (x / 2 ^ e - (m / d : ℕ) * d) / d := by field_simp
    refine ⟨m / d, roundInc rm neg (m / d) (m % d) d, by rw [value], ?_, ?_, ?_, ?_⟩ <;> rw [scale]
    · rw [le_div_iff₀ dr]; linarith
    · rw [div_lt_iff₀ dr]; linarith
    · cases rm with
      | rne =>
        have half : 1 / 2 < x / 2 ^ e / d - (m / d : ℕ) ↔ d < 2 * (m % d) := by
          rw [over_, lt_div_iff₀ dr, ← above]; constructor <;> intro h <;> linarith
        have even : x / 2 ^ e / d - (m / d : ℕ) = 1 / 2 ↔ 2 * (m % d) = d := by
          rw [over_, div_eq_iff dr.ne', ← tie]; constructor <;> intro h <;> linarith
        simp only [roundsUp, half, even]
        simp [roundInc]
      | rtz => simp [roundInc, roundsUp]
      | rdn => simp [roundInc, roundsUp, whole]
      | rup => simp [roundInc, roundsUp, whole]
    · rw [whole, value]; simp

end Sys2Proof.Machine
end

section
namespace Sys2Proof.Machine

/-! ## Consequences: the rounding, its exactness, its bounds -/

/-- No mode moves an integer. -/
theorem roundsUp.ne {rm : RMode} {neg : Bool} {n : ℕ} {X : ℝ} (h : roundsUp rm neg n X) : X ≠ n := by
  rintro rfl
  cases rm <;> simp [roundsUp] at h
  norm_num at h

theorem roundAt_isRounding (rm : RMode) (neg : Bool) {m : ℕ} {e q : ℤ} {x : ℝ} (h : standsFor m e q x) :
    isRounding rm (multipleOf q) (evenMultipleOf q) (withSign neg x) (withSign neg ((roundAt rm neg m e q).1 * 2 ^ q)) := by
  obtain ⟨n, up, hn, lo, hi, hup, -⟩ := roundAt_selects rm neg h
  have back : x / 2 ^ q * 2 ^ q = x := div_mul_cancel₀ x (by positivity)
  have := isRounding_multiple q lo hi hup
  rwa [back, ← hn] at this

theorem roundAt_exact (rm : RMode) (neg : Bool) {m : ℕ} {e q : ℤ} {x : ℝ} (h : standsFor m e q x) :
    (roundAt rm neg m e q).2 = false ↔ (roundAt rm neg m e q).1 * (2 : ℝ) ^ q = x := by
  obtain ⟨n, up, hn, lo, hi, hup, hex⟩ := roundAt_selects rm neg h
  rw [hex, hn, ← eq_div_iff (by positivity)]
  cases up with
  | false => exact eq_comm
  | true =>
    refine iff_of_false (hup.mp rfl).ne fun e => ?_
    simp only [if_true] at e
    push_cast at e
    linarith

theorem roundAt_ge (rm : RMode) (neg : Bool) {m a : ℕ} {e q : ℤ} {x : ℝ} (h : standsFor m e q x) (ha : (a : ℝ) * 2 ^ q ≤ x) :
    a ≤ (roundAt rm neg m e q).1 := by
  obtain ⟨n, up, hn, lo, hi, -, -⟩ := roundAt_selects rm neg h
  have : (a : ℝ) < (n + 1 : ℕ) := by push_cast; exact lt_of_le_of_lt ((le_div_iff₀ (by positivity)).mpr ha) hi
  have := Nat.cast_lt.mp this
  rw [hn]; split_ifs <;> omega

theorem roundAt_le (rm : RMode) (neg : Bool) {m a : ℕ} {e q : ℤ} {x : ℝ} (h : standsFor m e q x) (ha : x ≤ a * 2 ^ q) :
    (roundAt rm neg m e q).1 ≤ a := by
  obtain ⟨n, up, hn, lo, hi, hup, hex⟩ := roundAt_selects rm neg h
  have hxa : x / 2 ^ q ≤ a := (div_le_iff₀ (by positivity)).mpr ha
  have na : n ≤ a := by exact_mod_cast lo.trans hxa
  rw [hn]
  split_ifs with hu
  · by_contra hc
    obtain rfl : n = a := by omega
    exact (hup.mp hu).ne (le_antisymm hxa lo)
  · exact na

/-! ## Sets of numbers of bounded precision -/

/-- The numbers `n × 2^k` of `p` significant bits with an exponent that a condition admits. -/
def floatSet (p : ℕ) (ok : ℤ → Prop) (z : ℝ) : Prop := ∃ n k : ℤ, |n| < 2 ^ p ∧ ok k ∧ z = n * (2 : ℝ) ^ k

theorem precise_iff (p : ℕ) (z : ℝ) : precise p z ↔ floatSet p (fun _ => True) z := by simp [precise, floatSet]

/-- A rounding to multiples of `2^q` is one in a set whose further members lie below a multiple of `2^q` that the number
reaches. -/
theorem isRounding_of_multiples {rm : RMode} {M : ℝ → Prop} {q : ℤ} {x y L : ℝ}
    (h : isRounding rm (multipleOf q) (evenMultipleOf q) x y) (hy : M y) (hL : multipleOf q L) (hL0 : 0 ≤ L) (hLx : L ≤ |x|)
    (far : ∀ z, M z → multipleOf q z ∨ |z| < L) : isRounding rm M (evenMultipleOf q) x y := by
  have neg : multipleOf q (-L) := by obtain ⟨k, rfl⟩ := hL; exact ⟨-k, by push_cast; ring⟩
  obtain ⟨-, h⟩ := h
  refine ⟨hy, ?_⟩
  cases rm with
  | rne =>
    intro z hz
    rcases far z hz with hz | hz
    · exact h z hz
    · -- `L` with the sign of `x` lies between
      have closer : |y - x| < |z - x| := by
        obtain ⟨lo, hi⟩ := abs_lt.mp hz
        rcases le_total 0 x with hx | hx
        · rw [abs_of_nonneg hx] at hLx
          refine lt_of_le_of_lt (h L hL).1 ?_
          rw [abs_of_nonpos (by linarith), abs_of_neg (by linarith)]; linarith
        · rw [abs_of_nonpos hx] at hLx
          refine lt_of_le_of_lt (h (-L) neg).1 ?_
          rw [abs_of_nonneg (by linarith), abs_of_pos (by linarith)]; linarith
      exact ⟨closer.le, fun _ e => absurd e closer.ne⟩
  | rtz =>
    obtain ⟨sameSign, below, best⟩ := h
    refine ⟨sameSign, below, fun z hz hs hle => ?_⟩
    rcases far z hz with hz | hz
    · exact best z hz hs hle
    · refine hz.le.trans ?_
      rcases le_total 0 x with hx | hx
      · simpa [abs_of_nonneg hL0] using best L hL (mul_nonneg hx hL0) (by rwa [abs_of_nonneg hL0])
      · simpa [abs_of_nonneg hL0] using best (-L) neg (by nlinarith) (by rwa [abs_neg, abs_of_nonneg hL0])
  | rdn =>
    refine ⟨h.1, fun z hz hle => ?_⟩
    rcases far z hz with hz | hz
    · exact h.2 z hz hle
    · obtain ⟨lo, hi⟩ := abs_lt.mp hz
      rcases le_total 0 x with hx | hx
      · rw [abs_of_nonneg hx] at hLx
        exact hi.le.trans (h.2 L hL hLx)
      · rw [abs_of_nonpos hx] at hLx; linarith
  | rup =>
    refine ⟨h.1, fun z hz hle => ?_⟩
    rcases far z hz with hz | hz
    · exact h.2 z hz hle
    · obtain ⟨lo, hi⟩ := abs_lt.mp hz
      rcases le_total 0 x with hx | hx
      · rw [abs_of_nonneg hx] at hLx; linarith
      · rw [abs_of_nonpos hx] at hLx
        exact (h.2 (-L) neg (by linarith)).trans lo.le

theorem multipleOf_natCast_mul {q k : ℤ} (n : ℤ) (h : q ≤ k) : multipleOf q (n * (2 : ℝ) ^ k) := by
  obtain ⟨j, rfl⟩ : ∃ j : ℕ, k = q + j := ⟨(k - q).toNat, by omega⟩
  exact ⟨n * 2 ^ j, by rw [zpow_add₀ two_ne_zero, zpow_natCast]; push_cast; ring⟩

/-- A multiple of `2^q` of at most `p` bits, or the power of two above them, is a number of `p` bits. -/
theorem floatSet_of_le {p : ℕ} {ok : ℤ → Prop} {q : ℤ} (hp : 1 ≤ p) (hq : ok q) (hq' : ok (q + 1)) (neg : Bool) {n : ℕ}
    (hn : n ≤ 2 ^ p) : floatSet p ok (withSign neg (n * 2 ^ q)) := by
  rcases Nat.lt_or_eq_of_le hn with hn | rfl
  · refine ⟨if neg then -n else n, q, ?_, hq, by cases neg <;> simp [withSign]⟩
    cases neg <;> simp <;> exact_mod_cast hn
  · obtain ⟨p, rfl⟩ : ∃ r, p = r + 1 := ⟨p - 1, by omega⟩
    refine ⟨if neg then -(2 ^ p) else 2 ^ p, q + 1, ?_, hq', ?_⟩
    · cases neg <;> simp [abs_of_pos, pow_succ]
    · rw [zpow_add₀ two_ne_zero]
      cases neg <;> simp [withSign, pow_succ] <;> ring

/-- The rounding in a set of numbers of `p` bits: to multiples of `2^q`, where `q` is the exponent of the last of `p` bits of
the number, or the least exponent that the set admits if that is greater. -/
theorem roundAt_isRounding_float {rm : RMode} (neg : Bool) {p m : ℕ} {ok : ℤ → Prop} {e q top : ℤ} {x : ℝ} (hp : 1 ≤ p)
    (h : standsFor m e q x) (lo : (2 : ℝ) ^ top ≤ x) (hi : x < 2 ^ (top + 1)) (hq : top + 1 ≤ q + p)
    (up : ∀ k, q ≤ k → ok k) (down : ∀ k, ok k → k < q → q + p = top + 1) :
    isRounding rm (floatSet p ok) (evenMultipleOf q) (withSign neg x) (withSign neg ((roundAt rm neg m e q).1 * 2 ^ q)) := by
  have x0 : 0 < x := lt_of_lt_of_le (by positivity) lo
  have small : (roundAt rm neg m e q).1 ≤ 2 ^ p := roundAt_le rm neg h (by
    push_cast
    rw [← zpow_natCast, ← zpow_add₀ two_ne_zero]
    exact hi.le.trans (zpow_le_zpow_right₀ one_le_two (by omega)))
  have member := floatSet_of_le hp (up q le_rfl) (up (q + 1) (by omega)) neg small
  have r := roundAt_isRounding rm neg h
  by_cases htop : q + p = top + 1
  · refine isRounding_of_multiples (L := 2 ^ top) r member ?_ (by positivity) (by rw [abs_withSign, abs_of_pos x0]; exact lo) ?_
    · simpa using multipleOf_natCast_mul 1 (show q ≤ top by omega)
    · rintro z ⟨n, k, hn, -, rfl⟩
      rcases le_or_gt q k with hk | hk
      · exact .inl (multipleOf_natCast_mul n hk)
      · right
        have hn' : |(n : ℝ)| < 2 ^ p := by exact_mod_cast hn
        calc |(n : ℝ) * 2 ^ k| = |(n : ℝ)| * 2 ^ k := by rw [abs_mul, abs_of_pos (by positivity : (0 : ℝ) < 2 ^ k)]
          _ < 2 ^ p * 2 ^ k := mul_lt_mul_of_pos_right hn' (by positivity)
          _ = (2 : ℝ) ^ ((p : ℤ) + k) := by rw [zpow_add₀ two_ne_zero, zpow_natCast]
          _ ≤ 2 ^ top := zpow_le_zpow_right₀ one_le_two (by omega)
  · refine isRounding_of_multiples (L := 0) r member ⟨0, by simp⟩ le_rfl (abs_nonneg _) ?_
    rintro z ⟨n, k, -, hk, rfl⟩
    exact .inl (multipleOf_natCast_mul n (by by_contra hc; exact htop (down k hk (by omega))))

/-- An even multiple of `2^q` of at most `p` bits, or the power of two above them, with an even integer of at most `p` bits. -/
theorem evenMultiple_cases {p n : ℕ} {q : ℤ} (hp : 2 ≤ p) (neg : Bool) (hi : n ≤ 2 ^ p)
    (h : evenMultipleOf q (withSign neg (n * 2 ^ q))) :
    ∃ j k : ℤ, withSign neg (n * 2 ^ q) = (2 * j : ℤ) * (2 : ℝ) ^ k ∧ |2 * j| < 2 ^ p ∧
      (|2 * j| = n ∧ k = q ∨ |2 * j| = 2 ^ (p - 1) ∧ q ≤ k) := by
  rcases Nat.lt_or_eq_of_le hi with hi | rfl
  · obtain ⟨j, hj⟩ := h
    have size : |2 * j| = (n : ℤ) := by
      have : withSign neg (n : ℝ) = (2 * j : ℤ) := by
        rw [withSign_mul] at hj; exact mul_right_cancel₀ (by positivity) hj
      have := congrArg abs this
      rw [abs_withSign, Nat.abs_cast] at this
      exact_mod_cast this.symm
    exact ⟨j, q, hj, by rw [size]; exact_mod_cast hi, .inl ⟨size, rfl⟩⟩
  · obtain ⟨r, rfl⟩ : ∃ r, p = r + 2 := ⟨p - 2, by omega⟩
    have size : |2 * ((if neg then -1 else 1) * 2 ^ r : ℤ)| = 2 ^ (r + 1) := by
      cases neg <;> simp [abs_mul, pow_succ, mul_comm]
    refine ⟨(if neg then -1 else 1) * 2 ^ r, q + 1, ?_, ?_, .inr ⟨size, by omega⟩⟩
    · rw [zpow_add₀ two_ne_zero]
      cases neg <;> simp [withSign] <;> ring
    · rw [size]; exact pow_lt_pow_right₀ (by norm_num) (by omega)

/-- With the leading bit of `p`, it is even at precision `p`. -/
theorem preciseEven_of_evenMultiple {p n : ℕ} {q : ℤ} (hp : 2 ≤ p) (neg : Bool) (lo : 2 ^ (p - 1) ≤ n) (hi : n ≤ 2 ^ p)
    (h : evenMultipleOf q (withSign neg (n * 2 ^ q))) : preciseEven p (withSign neg (n * 2 ^ q)) := by
  obtain ⟨j, k, hjk, hj, size⟩ := evenMultiple_cases hp neg hi h
  refine ⟨j, k, ?_, hj, hjk⟩
  rcases size with ⟨size, -⟩ | ⟨size, -⟩ <;> rw [size]
  exact_mod_cast lo

/-! ## Numbers kept with a sticky bit -/

/-- A number that `m × 2^e` stands for wherever at most `p` bits are kept: `m × 2^e` itself, or, where the last bit of `m` is one
and there are two bits more than `p`, a number strictly between its neighbours. -/
def approximates (p m : ℕ) (e : ℤ) (x : ℝ) : Prop :=
  x = m * (2 : ℝ) ^ e ∨ m % 2 = 1 ∧ 2 ^ (p + 1) ≤ m ∧ ((m : ℝ) - 1) * (2 : ℝ) ^ e < x ∧ x < ((m : ℝ) + 1) * (2 : ℝ) ^ e

/-- The exponent of the leading bit. -/
def topOf (m : ℕ) (e : ℤ) : ℤ := Nat.log2 m + e

theorem approximates.bounds {p m : ℕ} {e : ℤ} {x : ℝ} (h : approximates p m e x) (hm : m ≠ 0) :
    (2 : ℝ) ^ topOf m e ≤ x ∧ x < 2 ^ (topOf m e + 1) := by
  have e0 : (0 : ℝ) < 2 ^ e := by positivity
  have l1 : 2 ^ Nat.log2 m ≤ m := Nat.log2_self_le hm
  have l2 : m < 2 ^ (Nat.log2 m + 1) := Nat.lt_log2_self
  have t1 : (2 : ℝ) ^ topOf m e = (2 ^ Nat.log2 m : ℕ) * 2 ^ e := by
    rw [topOf, zpow_add₀ two_ne_zero, zpow_natCast]; push_cast; rfl
  have t2 : (2 : ℝ) ^ (topOf m e + 1) = (2 ^ (Nat.log2 m + 1) : ℕ) * 2 ^ e := by
    rw [topOf, add_right_comm, zpow_add₀ two_ne_zero]; push_cast; rw [← zpow_natCast]; push_cast; rfl
  rw [t1, t2]
  rcases h with rfl | ⟨odd, big, lo, hi⟩
  · exact ⟨mul_le_mul_of_nonneg_right (by exact_mod_cast l1) e0.le, mul_lt_mul_of_pos_right (by exact_mod_cast l2) e0⟩
  · have b1 : 2 ^ Nat.log2 m + 1 ≤ m := by
      have hl : Nat.log2 m ≠ 0 := fun hl => by
        rw [hl] at l2
        have : 2 ^ 1 ≤ 2 ^ (p + 1) := Nat.pow_le_pow_right (by norm_num) (by omega)
        omega
      have : 2 ^ Nat.log2 m % 2 = 0 := by
        obtain ⟨j, hj⟩ := Nat.exists_eq_succ_of_ne_zero hl
        rw [hj, Nat.pow_succ]; omega
      omega
    have c1 : ((2 ^ Nat.log2 m : ℕ) : ℝ) + 1 ≤ m := by exact_mod_cast b1
    have c2 : (m : ℝ) + 1 ≤ (2 ^ (Nat.log2 m + 1) : ℕ) := by exact_mod_cast l2
    exact ⟨(mul_le_mul_of_nonneg_right (by linarith) e0.le).trans lo.le, hi.trans_le (mul_le_mul_of_nonneg_right c2 e0.le)⟩

theorem approximates.standsFor {p m : ℕ} {e q : ℤ} {x : ℝ} (h : approximates p m e x) (hq : topOf m e + 1 ≤ q + p) :
    standsFor m e q x := by
  rcases h with h | ⟨odd, big, lo, hi⟩
  · exact .inl h
  · have : p + 1 ≤ Nat.log2 m := (Nat.le_log2 (by positivity |> fun h : 0 < 2 ^ (p + 1) => by omega)).mpr big
    exact .inr ⟨odd, by simp only [topOf] at hq; omega, lo, hi⟩

/-- The rounding to `p` bits with an unbounded exponent: the integer that the model forms has `p` bits, or is the power of two
above. -/
theorem roundAt_isRounding_precise {rm : RMode} (neg : Bool) {p m : ℕ} {e q : ℤ} {x : ℝ} (hp : 2 ≤ p) (hm : m ≠ 0)
    (h : approximates p m e x) (hq : q + p = topOf m e + 1) :
    let n := (roundAt rm neg m e q).1
    2 ^ (p - 1) ≤ n ∧ n ≤ 2 ^ p ∧ isRounding rm (precise p) (preciseEven p) (withSign neg x) (withSign neg (n * 2 ^ q)) := by
  intro n
  obtain ⟨lo, hi⟩ := h.bounds hm
  have hs := h.standsFor (q := q) hq.ge
  have n1 : 2 ^ (p - 1) ≤ n := roundAt_ge rm neg hs (by
    push_cast
    rw [← zpow_natCast, ← zpow_add₀ two_ne_zero]
    exact le_trans (zpow_le_zpow_right₀ one_le_two (by omega)) lo)
  have n2 : n ≤ 2 ^ p := roundAt_le rm neg hs (by
    push_cast
    rw [← zpow_natCast, ← zpow_add₀ two_ne_zero]
    exact hi.le.trans (zpow_le_zpow_right₀ one_le_two (by omega)))
  refine ⟨n1, n2, isRounding.mono (roundAt_isRounding_float neg (ok := fun _ => True) (by omega) hs lo hi (by omega) (fun _ _ => trivial)
    fun _ _ _ => hq) (fun z => (precise_iff p z).mp) ?_ (preciseEven_of_evenMultiple hp neg n1 n2)⟩
  exact (precise_iff p _).mpr (floatSet_of_le (by omega) trivial trivial neg n2)

end Sys2Proof.Machine
end

section
/-! ## Formats (R63) -/

namespace Sys2Proof

theorem Fmt.width_eq (f : Fmt) : f.width = f.expBits + f.fracBits + 1 := by cases f <;> rfl

theorem Fmt.signBit_eq (f : Fmt) : f.signBit = 2 ^ (f.expBits + f.fracBits) := by rw [Fmt.signBit, Fmt.width_eq]; rfl

/-- The greatest exponent field is that of the specials, and the greatest exponent is the bias. -/
theorem Fmt.bias_eq (f : Fmt) : 2 * f.bias + 2 = 2 ^ f.expBits := by cases f <;> rfl

theorem Fmt.fracBits_ge (f : Fmt) : 7 ≤ f.fracBits := by cases f <;> decide
theorem Fmt.fracBits_lt_bias (f : Fmt) : f.fracBits < f.bias + 1 ∧ 15 ≤ f.bias := by cases f <;> decide

end Sys2Proof

namespace Sys2Proof.Machine

theorem formatShape_eq (f : Fmt) : formatShape f = (f.expBits, f.fracBits, f.bias) := by cases f <;> rfl

/-- A code from its sign, and its exponent and fraction. -/
def codeOf (f : Fmt) (neg : Bool) (ex fr : ℕ) : ℕ := (if neg then f.signBit else 0) + (ex * 2 ^ f.fracBits + fr)

/-- The number that an exponent and a fraction of `n` bits are, with `least` the exponent of the last place of a subnormal. -/
def placeValue (n : ℕ) (least : ℤ) (neg : Bool) (ex fr : ℕ) : ℚ :=
  (if neg then -1 else 1) * (if ex = 0 then (fr : ℚ) * 2 ^ least else (2 ^ n + fr : ℚ) * 2 ^ (least + ex - 1))

/-- In a format. -/
def fieldsValue (f : Fmt) : Bool → ℕ → ℕ → ℚ := placeValue f.fracBits f.emin

theorem fpFields_eq (f : Fmt) (b : ℕ) :
    fpFields f b = (b / 2 ^ (f.expBits + f.fracBits) % 2 == 1, b / 2 ^ f.fracBits % 2 ^ f.expBits, b % 2 ^ f.fracBits) := by
  cases f <;> rfl

theorem fpPlace_eq (f : Fmt) (b : ℕ) :
    fpPlace f b = fieldsValue f (fpFields f b).1 (fpFields f b).2.1 (fpFields f b).2.2 := by
  have e1 : (1 : ℤ) - f.bias - f.fracBits = f.emin := rfl
  have e2 : ∀ ex : ℕ, (ex : ℤ) - f.bias - f.fracBits = f.emin + ex - 1 := fun ex => by rw [← e1]; ring
  simp only [fpPlace, formatShape_eq, fieldsValue, placeValue, e1, e2]

theorem codeOf_lt (f : Fmt) (neg : Bool) {ex fr : ℕ} (hex : ex < 2 ^ f.expBits) (hfr : fr < 2 ^ f.fracBits) :
    codeOf f neg ex fr < 2 ^ f.width := by
  have : (ex + 1) * 2 ^ f.fracBits ≤ 2 ^ f.expBits * 2 ^ f.fracBits := Nat.mul_le_mul_right _ hex
  rw [← pow_add, Nat.add_mul] at this
  rw [codeOf, Fmt.width_eq, pow_succ, Fmt.signBit_eq]
  split_ifs <;> omega

theorem fpFields_codeOf (f : Fmt) (neg : Bool) {ex fr : ℕ} (hex : ex < 2 ^ f.expBits) (hfr : fr < 2 ^ f.fracBits) :
    fpFields f (codeOf f neg ex fr) = (neg, ex, fr) := by
  have low : ex * 2 ^ f.fracBits + fr < 2 ^ (f.expBits + f.fracBits) := by
    have : (ex + 1) * 2 ^ f.fracBits ≤ 2 ^ f.expBits * 2 ^ f.fracBits := Nat.mul_le_mul_right _ hex
    rw [← pow_add, Nat.add_mul] at this
    omega
  have shape : codeOf f neg ex fr = (neg.toNat * 2 ^ f.expBits + ex) * 2 ^ f.fracBits + fr := by
    rw [codeOf, Fmt.signBit_eq, pow_add]
    cases neg <;> simp [Nat.add_mul, Nat.add_assoc]
  have quotient : codeOf f neg ex fr / 2 ^ f.fracBits = neg.toNat * 2 ^ f.expBits + ex := by
    rw [shape, Nat.add_comm, Nat.add_mul_div_right _ _ (by positivity), Nat.div_eq_of_lt hfr, Nat.zero_add]
  have sign : codeOf f neg ex fr / 2 ^ (f.expBits + f.fracBits) = neg.toNat := by
    rw [Nat.add_comm f.expBits, pow_add, ← Nat.div_div_eq_div_mul, quotient, Nat.add_comm, Nat.add_mul_div_right _ _ (by positivity),
      Nat.div_eq_of_lt hex, Nat.zero_add]
  rw [fpFields_eq, quotient, sign]
  refine Prod.ext ?_ (Prod.ext ?_ ?_)
  · cases neg <;> rfl
  · simp [Nat.mod_eq_of_lt hex]
  · simp [shape, Nat.mod_eq_of_lt hfr]

theorem fpNumber_codeOf (f : Fmt) (neg : Bool) {ex fr : ℕ} (hex : ex < 2 ^ f.expBits - 1) (hfr : fr < 2 ^ f.fracBits) :
    fpNumber f (codeOf f neg ex fr) = some (fieldsValue f neg ex fr) := by
  have fields := fpFields_codeOf f neg (by omega : ex < 2 ^ f.expBits) hfr
  have number : fpIsSpecial f (codeOf f neg ex fr) = false := by
    simp only [fpIsSpecial, fields, formatShape_eq, beq_eq_false_iff_ne]; omega
  simp [fpNumber, number, fpPlace_eq, fields]

theorem fpInfinity_eq (f : Fmt) (neg : Bool) : fpInfinity f neg = codeOf f neg (2 ^ f.expBits - 1) 0 := by
  simp [fpInfinity, formatShape_eq, codeOf, Fmt.signBit_eq]

theorem fpGreatest_eq (f : Fmt) (neg : Bool) : fpGreatest f neg = codeOf f neg (2 ^ f.expBits - 2) (2 ^ f.fracBits - 1) := by
  cases f <;> cases neg <;> rfl

/-- The greatest finite magnitude (R63). -/
theorem fpPlace_greatest (f : Fmt) :
    fpPlace f (fpGreatest f false) = (2 ^ (f.fracBits + 1) - 1) * (2 : ℚ) ^ ((f.bias : ℤ) - f.fracBits) := by
  have h := f.bias_eq
  have hb := f.fracBits_lt_bias.2
  have one : 1 ≤ 2 ^ f.fracBits := Nat.one_le_two_pow
  have hex : 2 ^ f.expBits - 2 ≠ 0 := by omega
  have ex : f.emin + ((2 ^ f.expBits - 2 : ℕ) : ℤ) - 1 = f.bias - f.fracBits := by rw [Fmt.emin, ← h]; push_cast; omega
  rw [fpPlace_eq, fpGreatest_eq, fpFields_codeOf f false (by omega) (by omega), fieldsValue, placeValue, if_neg hex, ex, pow_succ]
  push_cast [one]
  simp only [one_mul]
  ring

/-! ## The code of a rounded magnitude -/

/-- The exponent and the fraction of a rounded magnitude `n × 2^(least + k)` of at most one bit more than the fraction's. -/
theorem placeValue_rounded {fb n k : ℕ} (least : ℤ) (neg : Bool) (hn : n ≤ 2 ^ (fb + 1)) (hk : k ≠ 0 → 2 ^ fb ≤ n) :
    ∃ ex fr, fr < 2 ^ fb ∧ k * 2 ^ fb + n = ex * 2 ^ fb + fr ∧
      (placeValue fb least neg ex fr : ℝ) = withSign neg (n * (2 : ℝ) ^ (least + k)) := by
  rcases lt_or_ge n (2 ^ fb) with small | large
  · -- a subnormal number or zero
    obtain rfl : k = 0 := by by_contra hc; have := hk hc; omega
    refine ⟨0, n, small, by ring, ?_⟩
    cases neg <;> simp [placeValue, withSign]
  rcases Nat.lt_or_eq_of_le hn with lt | rfl
  · -- a normal number
    refine ⟨k + 1, n - 2 ^ fb, by rw [pow_succ] at lt; omega, by rw [Nat.add_mul]; omega, ?_⟩
    have e : least + ((k + 1 : ℕ) : ℤ) - 1 = least + k := by push_cast; ring
    simp only [placeValue, Nat.succ_ne_zero, if_false, e]
    push_cast [large]
    cases neg <;> simp [withSign]
  · -- the power of two above the normal numbers of this exponent
    refine ⟨k + 2, 0, by positivity, by rw [pow_succ]; ring, ?_⟩
    have e : least + ((k + 2 : ℕ) : ℤ) - 1 = least + k + 1 := by push_cast; ring
    simp only [placeValue, Nat.succ_ne_zero, if_false, e]
    push_cast
    rw [zpow_add₀ two_ne_zero, pow_succ]
    cases neg <;> simp [withSign] <;> ring

/-- Of positive codes the greater has the greater value. -/
theorem placeValue_lt {n : ℕ} (least : ℤ) {ex fr ex' fr' : ℕ} (hfr : fr < 2 ^ n) (hfr' : fr' < 2 ^ n)
    (h : ex * 2 ^ n + fr < ex' * 2 ^ n + fr') : placeValue n least false ex fr < placeValue n least false ex' fr' := by
  have hle : ex ≤ ex' := by
    by_contra hc
    have : (ex' + 1) * 2 ^ n ≤ ex * 2 ^ n := Nat.mul_le_mul_right _ (by omega)
    rw [Nat.add_mul] at this; omega
  have q1 : (fr : ℚ) < 2 ^ n := by exact_mod_cast hfr
  have q0 : (0 : ℚ) ≤ fr' := Nat.cast_nonneg _
  simp only [placeValue, Bool.false_eq_true, if_false, one_mul]
  rcases Nat.lt_or_eq_of_le hle with lt | rfl
  · -- below the least number of the next exponent
    rw [if_neg (by omega : ex' ≠ 0)]
    have least' : (2 : ℚ) ^ n * 2 ^ (least + ex' - 1) ≤ (2 ^ n + fr') * 2 ^ (least + ex' - 1) :=
      mul_le_mul_of_nonneg_right (by linarith) (by positivity)
    refine lt_of_lt_of_le ?_ least'
    split_ifs with h0
    · calc (fr : ℚ) * 2 ^ least < 2 ^ n * 2 ^ least := mul_lt_mul_of_pos_right q1 (by positivity)
        _ ≤ 2 ^ n * 2 ^ (least + ex' - 1) :=
          mul_le_mul_of_nonneg_left (zpow_le_zpow_right₀ one_le_two (by omega)) (by positivity)
    · calc (2 ^ n + fr : ℚ) * 2 ^ (least + ex - 1) < (2 ^ n * 2) * 2 ^ (least + ex - 1) :=
            mul_lt_mul_of_pos_right (by linarith) (by positivity)
        _ = 2 ^ n * 2 ^ (least + ex) := by rw [show least + ex = least + ex - 1 + 1 by ring, zpow_add_one₀ two_ne_zero]; ring_nf
        _ ≤ 2 ^ n * 2 ^ (least + ex' - 1) :=
          mul_le_mul_of_nonneg_left (zpow_le_zpow_right₀ one_le_two (by omega)) (by positivity)
  · have : (fr : ℚ) < fr' := by exact_mod_cast (by omega : fr < fr')
    split_ifs
    · exact mul_lt_mul_of_pos_right this (by positivity)
    · exact mul_lt_mul_of_pos_right (by linarith) (by positivity)

theorem placeValue_nonneg (n : ℕ) (least : ℤ) (ex fr : ℕ) : 0 ≤ placeValue n least false ex fr := by
  simp only [placeValue, Bool.false_eq_true, if_false, one_mul]
  split_ifs <;> positivity

theorem placeValue_signed (n : ℕ) (least : ℤ) (neg : Bool) (ex fr : ℕ) :
    placeValue n least neg ex fr = (if neg then -1 else 1) * placeValue n least false ex fr := by
  simp [placeValue]

/-- Equal values of one sign have equal exponents and fractions. -/
theorem placeValue_inj {n : ℕ} {least : ℤ} {ex fr ex' fr' : ℕ} (hfr : fr < 2 ^ n) (hfr' : fr' < 2 ^ n)
    (h : placeValue n least false ex fr = placeValue n least false ex' fr') : ex * 2 ^ n + fr = ex' * 2 ^ n + fr' := by
  rcases lt_trichotomy (ex * 2 ^ n + fr) (ex' * 2 ^ n + fr') with lt | eq | gt
  · exact absurd h (placeValue_lt least hfr hfr' lt).ne
  · exact eq
  · exact absurd h (placeValue_lt least hfr' hfr gt).ne'

/-- The place of an infinity above every number. -/
def infinitePlace (f : Fmt) : ℚ := fieldsValue f false (2 ^ f.expBits - 1) 0

theorem infinitePlace_eq (f : Fmt) : infinitePlace f = 2 ^ ((f.bias : ℤ) + 1) := by
  have h := f.bias_eq
  have hb := f.fracBits_lt_bias.2
  have ex : f.emin + ((2 ^ f.expBits - 1 : ℕ) : ℤ) - 1 = f.bias + 1 - f.fracBits := by rw [Fmt.emin, ← h]; push_cast; omega
  rw [infinitePlace, fieldsValue, placeValue, if_neg (by omega : 2 ^ f.expBits - 1 ≠ 0), ex, ← zpow_natCast (2 : ℚ) f.fracBits]
  simp only [Bool.false_eq_true, if_false, one_mul, Nat.cast_zero, add_zero]
  rw [← zpow_add₀ two_ne_zero]
  congr 1; ring

/-- Every number of a format has at most its precision and at least its least exponent. -/
theorem floatSet_of_inFormat {f : Fmt} {z : ℝ} (h : inFormat f z) : floatSet (f.fracBits + 1) (f.emin ≤ ·) z := by
  obtain ⟨b, v, hv, rfl⟩ := h
  simp only [fpNumber, fpPlace_eq, Option.ite_none_left_eq_some, Option.some.injEq] at hv
  obtain ⟨-, rfl⟩ := hv
  have hfr : (fpFields f b).2.2 < 2 ^ f.fracBits := by rw [fpFields_eq]; exact Nat.mod_lt _ (by positivity)
  generalize fpFields f b = t at hfr
  obtain ⟨neg, ex, fr⟩ := t
  dsimp only at hfr
  have sign : ∀ n : ℕ, n < 2 ^ (f.fracBits + 1) → |(if neg then -1 else 1) * (n : ℤ)| < 2 ^ (f.fracBits + 1) := fun n hn => by
    cases neg <;> simp <;> exact_mod_cast hn
  by_cases hex : ex = 0
  · exact ⟨(if neg then -1 else 1) * fr, f.emin, sign fr (by rw [pow_succ]; omega), le_rfl, by
      cases neg <;> simp [fieldsValue, placeValue, hex]⟩
  · exact ⟨(if neg then -1 else 1) * (2 ^ f.fracBits + fr : ℕ), f.emin + ex - 1, sign _ (by rw [pow_succ]; omega), by omega, by
      cases neg <;> simp [fieldsValue, placeValue, hex]; ring⟩

/-! ## `roundNum` is the rounding of R68 -/

theorem log2_add_lt_iff {n : ℕ} (hn : n ≠ 0) (q K : ℤ) : (Nat.log2 n : ℤ) + q < K ↔ (n : ℝ) * 2 ^ q < 2 ^ K := by
  have lo : ((2 ^ Nat.log2 n : ℕ) : ℝ) ≤ n := by exact_mod_cast Nat.log2_self_le hn
  have hi : (n : ℝ) < (2 ^ (Nat.log2 n + 1) : ℕ) := by exact_mod_cast Nat.lt_log2_self
  have q0 : (0 : ℝ) < 2 ^ q := by positivity
  push_cast at lo hi
  rw [← zpow_natCast] at lo hi
  constructor <;> intro h
  · calc (n : ℝ) * 2 ^ q < 2 ^ ((Nat.log2 n + 1 : ℕ) : ℤ) * 2 ^ q := mul_lt_mul_of_pos_right hi q0
      _ = 2 ^ (((Nat.log2 n + 1 : ℕ) : ℤ) + q) := (zpow_add₀ two_ne_zero _ _).symm
      _ ≤ 2 ^ K := zpow_le_zpow_right₀ one_le_two (by push_cast; omega)
  · have : (2 : ℝ) ^ ((Nat.log2 n : ℤ) + q) < 2 ^ K := by
      rw [zpow_add₀ two_ne_zero]; exact (mul_le_mul_of_nonneg_right lo q0.le).trans_lt h
    exact (zpow_lt_zpow_iff_right₀ one_lt_two).mp this

/-- A number of the format's precision is above the greatest finite magnitude exactly from the next power of two upward. -/
theorem greatest_lt_iff (f : Fmt) {n : ℕ} (hn : n ≤ 2 ^ (f.fracBits + 1)) (hn0 : n ≠ 0) (q : ℤ) :
    (fpPlace f (fpGreatest f false) : ℝ) < n * 2 ^ q ↔ (f.bias : ℤ) < Nat.log2 n + q := by
  have g : (fpPlace f (fpGreatest f false) : ℝ) = ((2 ^ (f.fracBits + 1) - 1 : ℕ) : ℝ) * 2 ^ ((f.bias : ℤ) - f.fracBits) := by
    rw [fpPlace_greatest]; push_cast [Nat.one_le_two_pow]; rfl
  have top : (2 : ℝ) ^ ((f.bias : ℤ) + 1) = ((2 ^ (f.fracBits + 1) : ℕ) : ℝ) * 2 ^ ((f.bias : ℤ) - f.fracBits) := by
    push_cast; rw [← zpow_natCast, ← zpow_add₀ two_ne_zero]; congr 1; push_cast; ring
  have g_lt : (fpPlace f (fpGreatest f false) : ℝ) < 2 ^ ((f.bias : ℤ) + 1) := by
    rw [g, top]; exact mul_lt_mul_of_pos_right (by exact_mod_cast Nat.sub_lt (by positivity) one_pos) (by positivity)
  have iff_top := log2_add_lt_iff hn0 q (f.bias + 1)
  constructor <;> intro h
  · by_contra hc
    -- below the next power of two a number of this precision is at most the greatest
    have below := iff_top.mp (by omega)
    refine absurd h (not_lt.mpr ?_)
    rcases Nat.lt_or_eq_of_le hn with lt | rfl
    · rcases le_or_gt q ((f.bias : ℤ) - f.fracBits) with hq | hq
      · rw [g]
        refine mul_le_mul ?_ (zpow_le_zpow_right₀ one_le_two hq) (by positivity) (by positivity)
        exact_mod_cast Nat.le_sub_one_of_lt lt
      · obtain ⟨j, rfl⟩ : ∃ j : ℕ, q = (f.bias : ℤ) - f.fracBits + j := ⟨(q - (f.bias - f.fracBits)).toNat, by omega⟩
        rw [g, zpow_add₀ two_ne_zero, ← mul_assoc, mul_right_comm]
        rw [zpow_add₀ two_ne_zero, ← mul_assoc, mul_right_comm, top] at below
        refine mul_le_mul_of_nonneg_right ?_ (by positivity)
        have := lt_of_mul_lt_mul_right below (by positivity)
        rw [zpow_natCast] at this ⊢
        exact_mod_cast Nat.le_sub_one_of_lt (by exact_mod_cast this)
    · rw [Nat.log2_two_pow] at hc
      have hb := f.fracBits_ge
      rw [g]
      calc ((2 ^ (f.fracBits + 1) : ℕ) : ℝ) * 2 ^ q = (2 : ℝ) ^ (((f.fracBits + 1 : ℕ) : ℤ) + q) := by
            push_cast; rw [zpow_add₀ two_ne_zero, ← zpow_natCast]; push_cast; rfl
        _ ≤ 2 ^ ((f.fracBits : ℤ) + (f.bias - f.fracBits)) := zpow_le_zpow_right₀ one_le_two (by omega)
        _ = (2 ^ f.fracBits : ℕ) * (2 : ℝ) ^ ((f.bias : ℤ) - f.fracBits) := by
            rw [zpow_add₀ two_ne_zero, zpow_natCast]; push_cast; rfl
        _ ≤ _ := mul_le_mul_of_nonneg_right (by
            exact_mod_cast (show 2 ^ f.fracBits ≤ 2 ^ (f.fracBits + 1) - 1 by
              have : 1 ≤ 2 ^ f.fracBits := Nat.one_le_two_pow
              rw [pow_succ]; omega)) (by positivity)
  · refine g_lt.trans_le (not_lt.mp fun hc => ?_)
    have := iff_top.mpr hc
    omega

end Sys2Proof.Machine
end

section
namespace Sys2Proof.Machine

theorem withSign_neg_iff {x : ℝ} (hx : 0 < x) (neg : Bool) : decide (withSign neg x < 0) = neg := by
  cases neg <;> simp [withSign, hx, hx.le]

/-- An even multiple of the exponent has an even code. -/
theorem codeOf_even {f : Fmt} {neg : Bool} {n k ex fr : ℕ} {q : ℤ}
    (h : (if n = 0 then 0 else k * 2 ^ f.fracBits + n) = ex * 2 ^ f.fracBits + fr)
    (even : evenMultipleOf q (withSign neg (n * 2 ^ q))) : codeOf f neg ex fr % 2 = 0 := by
  have half : ∀ j : ℕ, 0 < j → 2 ^ j % 2 = 0 := fun j hj => by
    obtain ⟨i, rfl⟩ := Nat.exists_eq_succ_of_ne_zero hj.ne'; rw [pow_succ]; omega
  have hf := half f.fracBits (by have := f.fracBits_ge; omega)
  have hs := half (f.expBits + f.fracBits) (by have := f.fracBits_ge; omega)
  have hn : n % 2 = 0 := by
    obtain ⟨j, hj⟩ := even
    rw [withSign_mul] at hj
    have : withSign neg (n : ℝ) = (2 * j : ℤ) := mul_right_cancel₀ (by positivity) hj
    have : ((n : ℤ) : ℝ) = ((if neg then -(2 * j) else 2 * j : ℤ) : ℝ) := by
      cases neg <;> simp [withSign] at this ⊢ <;> linarith
    have := Int.cast_inj.mp this
    split_ifs at this <;> omega
  have hk : k * 2 ^ f.fracBits % 2 = 0 := by rw [Nat.mul_mod, hf]; simp
  rw [codeOf, Fmt.signBit_eq]
  split_ifs at h ⊢ <;> omega

/-- A magnitude rounded to multiples of the last place, for a fraction of `fb` bits above a least exponent: the fields of its
code, and the rounding. -/
theorem roundAt_fields (rm : RMode) (neg : Bool) {fb m : ℕ} {e : ℤ} {x : ℝ} (least : ℤ) (hfb : 1 ≤ fb) (hm : m ≠ 0)
    (h : approximates (fb + 1) m e x) :
    let q := max (topOf m e - fb) least
    let n := (roundAt rm neg m e q).1
    ∃ ex fr, fr < 2 ^ fb ∧ (if n = 0 then 0 else (q - least).toNat * 2 ^ fb + n) = ex * 2 ^ fb + fr ∧
      (placeValue fb least neg ex fr : ℝ) = withSign neg (n * (2 : ℝ) ^ q) ∧
      isRounding rm (floatSet (fb + 1) (least ≤ ·)) (evenMultipleOf q) (withSign neg x) (withSign neg (n * 2 ^ q)) ∧
      n ≤ 2 ^ (fb + 1) ∧ (q ≠ least → 2 ^ fb ≤ n) := by
  intro q n
  obtain ⟨lo, hi⟩ := h.bounds hm
  have hqe : least ≤ q := le_max_right _ _
  have hqt : topOf m e + 1 ≤ q + (fb + 1 : ℕ) := by
    have : topOf m e - fb ≤ q := le_max_left _ _
    push_cast; omega
  have hs := h.standsFor hqt
  obtain ⟨k, hk⟩ : ∃ k : ℕ, q = least + k := ⟨(q - least).toNat, by omega⟩
  have normal : q ≠ least → q = topOf m e - fb := fun hne => by
    rcases max_choice (topOf m e - fb) least with hc | hc
    · exact hc
    · exact absurd hc hne
  have n_hi : n ≤ 2 ^ (fb + 1) := roundAt_le rm neg hs (by
    push_cast
    rw [← zpow_natCast, ← zpow_add₀ two_ne_zero]
    exact hi.le.trans (zpow_le_zpow_right₀ one_le_two (by push_cast at hqt ⊢; omega)))
  have n_lo : q ≠ least → 2 ^ fb ≤ n := fun hne => roundAt_ge rm neg hs (by
    push_cast
    rw [← zpow_natCast, ← zpow_add₀ two_ne_zero]
    exact le_trans (zpow_le_zpow_right₀ one_le_two (by have := normal hne; omega)) lo)
  obtain ⟨ex, fr, hfr, hcode, hval⟩ := placeValue_rounded (n := n) (k := k) least neg n_hi fun hk0 => n_lo (by omega)
  refine ⟨ex, fr, hfr, ?_, by rw [hval, ← hk], ?_, n_hi, n_lo⟩
  · rw [← hcode, show (q - least).toNat = k by omega]
    split_ifs with h0
    · have : k = 0 := by
        by_contra hk0
        have := n_lo (by omega)
        have := Nat.two_pow_pos fb
        omega
      simp [h0, this]
    · rfl
  · refine roundAt_isRounding_float neg (by omega) hs lo hi hqt (fun j hj => hqe.trans hj) fun j hj hjq => ?_
    have := normal (by omega)
    push_cast; omega

section
variable {f : Fmt} (rm : RMode) (neg : Bool) {m : ℕ} {e : ℤ} {x : ℝ}

/-- The exponent of the last place that `roundNum` keeps. -/
def lastPlace (f : Fmt) (m : ℕ) (e : ℤ) : ℤ := max (topOf m e - f.fracBits) f.emin

/-- Where the exponent of a format bounds the last place, the rounded magnitude is at most the least normal one. -/
theorem roundAt_subnormal (hm : m ≠ 0) (h : approximates (f.fracBits + 1) m e x) (hq : topOf m e - f.fracBits < f.emin) :
    (roundAt rm neg m e (lastPlace f m e)).1 ≤ 2 ^ f.fracBits := by
  have q : lastPlace f m e = f.emin := max_eq_right hq.le
  refine roundAt_le rm neg (h.standsFor (by rw [q]; push_cast; omega)) ?_
  rw [q]; push_cast
  rw [← zpow_natCast, ← zpow_add₀ two_ne_zero]
  exact (h.bounds hm).2.le.trans (zpow_le_zpow_right₀ one_le_two (by omega))

/-- `roundNum` finds an overflow exactly where the number of unbounded exponent is above the greatest finite magnitude. -/
theorem roundNum_overflows_iff (hm : m ≠ 0) (h : approximates (f.fracBits + 1) m e x) :
    let n := (roundAt rm neg m e (lastPlace f m e)).1
    (n ≠ 0 ∧ (Nat.log2 n : ℤ) + lastPlace f m e > f.bias) ↔
      (fpPlace f (fpGreatest f false) : ℝ) < (roundAt rm neg m e (topOf m e - f.fracBits)).1 * 2 ^ (topOf m e - f.fracBits) := by
  obtain ⟨lo, hi, -⟩ := roundAt_isRounding_precise (rm := rm) (q := topOf m e - f.fracBits) neg (by have := f.fracBits_ge; omega) hm h
    (by push_cast; ring)
  rw [Nat.add_sub_cancel] at lo
  have ne0 : (roundAt rm neg m e (topOf m e - f.fracBits)).1 ≠ 0 := by have : 0 < 2 ^ f.fracBits := by positivity
                                                                       omega
  rw [greatest_lt_iff f hi ne0]
  rcases le_or_gt f.emin (topOf m e - f.fracBits) with hq | hq
  · rw [lastPlace, max_eq_left hq]
    exact ⟨fun h => h.2, fun h => ⟨ne0, h⟩⟩
  · have small := roundAt_subnormal rm neg hm h hq
    have hb := f.fracBits_lt_bias.2
    have hemin : f.emin = 1 - (f.bias : ℤ) - f.fracBits := rfl
    have q : lastPlace f m e = f.emin := max_eq_right hq.le
    have log1 : ∀ n j : ℕ, n ≠ 0 → n ≤ 2 ^ j → Nat.log2 n ≤ j := fun n j hn hj => by
      refine Nat.lt_succ_iff.mp ((Nat.log2_lt hn).mpr (hj.trans_lt ?_))
      exact Nat.pow_lt_pow_right (by norm_num) (by omega)
    rw [q] at small ⊢
    refine iff_of_false (fun ⟨h0, h1⟩ => ?_) fun h1 => ?_
    · have := log1 _ _ h0 small; omega
    · have := log1 _ _ ne0 hi; omega

/-- Without an overflow the code of `roundNum` is the rounding in the format. -/
theorem roundNum_inFormat (hm : m ≠ 0) (h : approximates (f.fracBits + 1) m e x)
    (fits : let n := (roundAt rm neg m e (lastPlace f m e)).1
      n ≠ 0 → (Nat.log2 n : ℤ) + lastPlace f m e ≤ f.bias) :
    let n := (roundAt rm neg m e (lastPlace f m e)).1
    let bits := (if neg then f.signBit else 0) + (if n = 0 then 0 else (lastPlace f m e - f.emin).toNat * 2 ^ f.fracBits + n)
    ∃ y, fpNumber f bits = some y ∧ bits < 2 ^ f.width ∧ (fpFields f bits).1 = neg ∧
      (y : ℝ) = withSign neg (n * (2 : ℝ) ^ lastPlace f m e) ∧
      isRounding rm (inFormat f) (inFormatEven f) (withSign neg x) y := by
  obtain ⟨ex, fr, hfr, hcode, hval, hround, -⟩ := roundAt_fields rm neg f.emin (by have := f.fracBits_ge; omega) hm h
  change _ = ex * 2 ^ f.fracBits + fr at hcode
  change ((fieldsValue f neg ex fr : ℚ) : ℝ) = withSign neg ((roundAt rm neg m e (lastPlace f m e)).1 * 2 ^ lastPlace f m e) at hval
  set n := (roundAt rm neg m e (lastPlace f m e)).1
  -- a value below the infinity's place has a number's exponent field
  have below : ((fieldsValue f false ex fr : ℚ) : ℝ) < infinitePlace f := by
    have abs : ((fieldsValue f false ex fr : ℚ) : ℝ) = n * (2 : ℝ) ^ lastPlace f m e := by
      rw [fieldsValue, placeValue_signed] at hval
      cases neg <;> simpa [withSign, fieldsValue] using hval
    rw [abs, infinitePlace_eq]
    push_cast
    by_cases h0 : n = 0
    · rw [h0, Nat.cast_zero, zero_mul]; positivity
    · exact (log2_add_lt_iff h0 _ _).mp (by have := fits h0; omega)
  have hex : ex < 2 ^ f.expBits - 1 := by
    by_contra hc
    have : infinitePlace f ≤ fieldsValue f false ex fr := by
      rcases (Nat.mul_le_mul_right (2 ^ f.fracBits) (not_lt.mp hc)).eq_or_lt with h1 | h1
      · rcases Nat.eq_zero_or_pos fr with h2 | h2
        · have := Nat.eq_of_mul_eq_mul_right (Nat.two_pow_pos _) h1
          rw [infinitePlace, this, h2]
        · exact (placeValue_lt _ (Nat.two_pow_pos _) hfr (by omega)).le
      · exact (placeValue_lt _ (Nat.two_pow_pos _) hfr (by omega)).le
    exact absurd below (not_lt.mpr (by exact_mod_cast this))
  have number := fpNumber_codeOf f neg hex hfr
  intro n' bits
  have hbits : bits = codeOf f neg ex fr := by rw [codeOf, ← hcode]; rfl
  rw [hbits, fpFields_codeOf f neg (by omega) hfr, number]
  refine ⟨_, rfl, codeOf_lt f neg (by omega) hfr, rfl, hval, ?_⟩
  rw [hval]
  exact isRounding.mono hround (fun z => floatSet_of_inFormat) ⟨_, _, number, hval.symm⟩
    fun he => ⟨_, _, codeOf_even hcode he, number, hval.symm⟩

/-- The codes of an overflow are the infinity, or the greatest finite magnitude, as the mode says (R68). -/
theorem roundNum_of_overflow
    (h : let n := (roundAt rm neg m e (lastPlace f m e)).1
      n ≠ 0 ∧ (Nat.log2 n : ℤ) + lastPlace f m e > f.bias) :
    roundNum f rm neg m e =
      ⟨if rm = .rne ∨ rm = (if neg then .rdn else .rup) then fpInfinity f neg else fpGreatest f neg, 5⟩ := by
  have inf : ∀ neg, (if neg = true then f.signBit else 0) + f.infBits = fpInfinity f neg := fun neg => by
    rw [fpInfinity_eq, codeOf, Fmt.infBits]; rfl
  have max : ∀ neg, (if neg = true then f.signBit else 0) + (f.infBits - 1) = fpGreatest f neg := fun neg => by
    have : 1 ≤ f.infBits := by cases f <;> decide
    rw [fpGreatest, ← inf]; omega
  have unfolded : roundNum f rm neg m e = ⟨(if neg then f.signBit else 0) +
      (if (match rm with | .rne => true | .rtz => false | .rdn => neg | .rup => !neg) then f.infBits else f.infBits - 1), 5⟩ :=
    if_pos h
  rw [unfolded]
  cases rm <;> cases neg <;> simp [← inf, ← max]

/-- The code and the flags of `roundNum` without an overflow. -/
theorem roundNum_of_fits
    (h : let n := (roundAt rm neg m e (lastPlace f m e)).1
      ¬(n ≠ 0 ∧ (Nat.log2 n : ℤ) + lastPlace f m e > f.bias)) :
    roundNum f rm neg m e =
      let n := (roundAt rm neg m e (lastPlace f m e)).1
      ⟨(if neg then f.signBit else 0) + (if n = 0 then 0 else (lastPlace f m e - f.emin).toNat * 2 ^ f.fracBits + n),
        if (roundAt rm neg m e (lastPlace f m e)).2 then
          1 + (if tinyAfter rm neg m e (f.fracBits + 1) (f.emin + f.fracBits) then 2 else 0) else 0⟩ := if_neg h

/-- Tininess is that of the number rounded with an unbounded exponent. -/
theorem tinyAfter_iff {p : ℕ} (hp : 1 ≤ p) {K : ℤ} (h0 : (roundAt rm neg m e (topOf m e + 1 - p)).1 ≠ 0) :
    tinyAfter rm neg m e p K = true ↔ ((roundAt rm neg m e (topOf m e + 1 - p)).1 : ℝ) * 2 ^ (topOf m e + 1 - p) < 2 ^ K := by
  have q : (Nat.log2 m : ℤ) + e - (p - 1 : ℕ) = topOf m e + 1 - p := by push_cast [hp]; rw [topOf]; ring
  rw [← log2_add_lt_iff h0, tinyAfter]
  simp only [q, decide_eq_true_eq]

/-- `roundNum` of a magnitude is `round(x, f, rm)` of every number that the magnitude approximates (R66, R68). -/
theorem roundNum_roundsTo (hm : m ≠ 0) (h : approximates (f.fracBits + 1) m e x) :
    roundsTo f rm (roundNum f rm neg m e) (withSign neg x) := by
  have x0 : 0 < x := lt_of_lt_of_le (by positivity) (h.bounds hm).1
  have shape : (formatShape f).2.1 = f.fracBits ∧ (formatShape f).2.2 = f.bias := by rw [formatShape_eq]; exact ⟨rfl, rfl⟩
  have q : topOf m e - f.fracBits = topOf m e + 1 - (f.fracBits + 1 : ℕ) := by push_cast; ring
  obtain ⟨n_lo, -, isRound⟩ := roundAt_isRounding_precise (rm := rm) (q := topOf m e - f.fracBits) neg
    (by have := f.fracBits_ge; omega) hm h (by push_cast; ring)
  rw [Nat.add_sub_cancel] at n_lo
  simp only [roundsTo, shape, withSign_neg_iff x0]
  refine ⟨_, isRound, ?_⟩
  rw [abs_withSign, abs_of_nonneg (by positivity)]
  by_cases high : (roundAt rm neg m e (lastPlace f m e)).1 ≠ 0 ∧
      (Nat.log2 (roundAt rm neg m e (lastPlace f m e)).1 : ℤ) + lastPlace f m e > f.bias
  · rw [if_pos ((roundNum_overflows_iff rm neg hm h).mp high), roundNum_of_overflow rm neg high]
  · rw [if_neg (fun hc => high ((roundNum_overflows_iff rm neg hm h).mpr hc)), roundNum_of_fits rm neg high]
    obtain ⟨y, number, width, sign, value, rounded⟩ := roundNum_inFormat rm neg hm h fun h0 => not_lt.mp fun hc => high ⟨h0, hc⟩
    refine ⟨y, number, width, sign, rounded, ?_⟩
    have isExact := roundAt_exact rm neg (h.standsFor (q := lastPlace f m e) (by
      have : topOf m e - f.fracBits ≤ lastPlace f m e := le_max_left _ _
      push_cast; omega))
    have exact_iff : (y : ℝ) = withSign neg x ↔ (roundAt rm neg m e (lastPlace f m e)).2 = false := by
      rw [value, withSign_inj, isExact]
    have pos : 0 < 2 ^ f.fracBits := by positivity
    have tiny_iff := tinyAfter_iff rm neg (p := f.fracBits + 1) (K := f.emin + f.fracBits) (by omega) (m := m) (e := e)
      (by rw [← q]; omega)
    have hemin : f.emin + f.fracBits = 1 - (f.bias : ℤ) := by rw [Fmt.emin]; ring
    rw [← q, hemin] at tiny_iff
    simp only [exact_iff, ← tiny_iff, hemin]
    cases (roundAt rm neg m e (lastPlace f m e)).2 <;> simp
    split_ifs <;> rfl
end

end Sys2Proof.Machine
end

