-- ==== Sys2Proof/Proofs/Values.lean ====
section
/-!
PROOF. Codes of a format as exact values, and FP arithmetic: what the model computes on values is the exact result, or a number
that stands for it, and it is rounded once (R63 to R68, R216, R218, R226).
-/
namespace Sys2Proof.Machine

/-! ## Codes as values (R63, R64) -/

/-- A code read by its fields. -/
theorem read_eq (f : Fmt) (a : ℕ) :
    f.read a =
      let (neg, ex, fr) := fpFields f a
      if ex = 2 ^ f.expBits - 1 then (if fr = 0 then .inf neg else .nan (fr < 2 ^ (f.fracBits - 1)))
      else if ex = 0 then (if fr = 0 then .zero neg else .num neg fr f.emin)
      else .num neg (2 ^ f.fracBits + fr) (f.emin + (ex : ℤ) - 1) := by
  have width := f.width_eq
  have sign : a % 2 ^ f.width / f.signBit = a / 2 ^ (f.expBits + f.fracBits) % 2 := by
    rw [width, Fmt.signBit_eq, pow_succ, Nat.mod_mul_right_div_self]
  have ex : a % 2 ^ f.width / 2 ^ f.fracBits % 2 ^ f.expBits = a / 2 ^ f.fracBits % 2 ^ f.expBits := by
    rw [width, show f.expBits + f.fracBits + 1 = f.fracBits + (f.expBits + 1) by ring, pow_add, Nat.mod_mul_right_div_self,
      Nat.mod_mod_of_dvd _ (pow_dvd_pow 2 (Nat.le_succ _))]
  have fr : a % 2 ^ f.width % 2 ^ f.fracBits = a % 2 ^ f.fracBits :=
    Nat.mod_mod_of_dvd _ (pow_dvd_pow 2 (by omega))
  rw [fpFields_eq]
  simp only [Fmt.read, sign, ex, fr]

/-- What the rules say of a code, by the value that it reads as. -/
theorem read_cases (f : Fmt) (a : ℕ) :
    (∃ g, f.read a = .nan g ∧ fpIsNan f a = true ∧ fpIsInf f a = false ∧ fpNumber f a = none ∧ fpIsSignalling f a = g) ∨
    (f.read a = .inf (fpFields f a).1 ∧ fpIsNan f a = false ∧ fpIsInf f a = true ∧ fpNumber f a = none) ∨
    (f.read a = .zero (fpFields f a).1 ∧ fpIsNan f a = false ∧ fpIsInf f a = false ∧ fpNumber f a = some 0) ∨
    (∃ m e, m ≠ 0 ∧ f.emin ≤ e ∧ m < 2 ^ (f.fracBits + 1) ∧ f.read a = .num (fpFields f a).1 m e ∧ fpIsNan f a = false ∧
      fpIsInf f a = false ∧ fpNumber f a = some ((if (fpFields f a).1 then -1 else 1) * (m : ℚ) * 2 ^ e)) := by
  have hfr : (fpFields f a).2.2 < 2 ^ f.fracBits := by rw [fpFields_eq]; exact Nat.mod_lt _ (by positivity)
  have max : 2 ^ f.expBits - 1 ≠ 0 := by have := f.bias_eq; have := f.fracBits_lt_bias; omega
  have half : 0 < 2 ^ f.fracBits := by positivity
  rw [read_eq]
  simp only [fpIsNan, fpIsInf, fpIsSignalling, fpNumber, fpIsSpecial, fpPlace_eq, formatShape_eq]
  generalize fpFields f a = t at hfr ⊢
  obtain ⟨neg, ex, fr⟩ := t
  dsimp only at hfr ⊢
  by_cases hex : ex = 2 ^ f.expBits - 1
  · by_cases h0 : fr = 0
    · right; left; simp [hex, h0]
    · left; exact ⟨decide (fr < 2 ^ (f.fracBits - 1)), by simp [hex, h0]⟩
  · right; right
    by_cases he0 : ex = 0
    · by_cases h0 : fr = 0
      · left; simp [he0, h0, max.symm, fieldsValue, placeValue]
      · right
        exact ⟨fr, f.emin, h0, le_rfl, by rw [pow_succ]; omega, by simp [he0, h0, max.symm, fieldsValue, placeValue]⟩
    · right
      exact ⟨2 ^ f.fracBits + fr, f.emin + ex - 1, by omega, by omega, by rw [pow_succ]; omega, by
        simp [he0, hex, fieldsValue, placeValue]; split_ifs <;> ring⟩

theorem fpIsNan_eq (f : Fmt) (a : ℕ) : fpIsNan f a = (f.read a).isNaN := by
  rcases read_cases f a with ⟨g, h, hn, -⟩ | ⟨h, hn, -⟩ | ⟨h, hn, -⟩ | ⟨m, e, -, -, -, h, hn, -⟩ <;> simp [h, hn, FVal.isNaN]

theorem fpIsInf_eq (f : Fmt) (a : ℕ) : fpIsInf f a = (f.read a).isInf := by
  rcases read_cases f a with ⟨g, h, -, hn, -⟩ | ⟨h, -, hn, -⟩ | ⟨h, -, hn, -⟩ | ⟨m, e, -, -, -, h, -, hn, -⟩ <;> simp [h, hn, FVal.isInf]

theorem fpNumber_eq (f : Fmt) (a : ℕ) : fpNumber f a = finiteValue (f.read a) := by
  rcases read_cases f a with ⟨g, h, -, -, hn, -⟩ | ⟨h, -, -, hn⟩ | ⟨h, -, -, hn⟩ | ⟨m, e, -, -, -, h, -, -, hn⟩ <;>
    simp [h, hn, finiteValue]

theorem fpIsSignalling_eq (f : Fmt) (a : ℕ) : fpIsSignalling f a = (f.read a).isSNaN := by
  rcases read_cases f a with ⟨g, h, -, -, -, hn⟩ | ⟨h, hn, -⟩ | ⟨h, hn, -⟩ | ⟨m, e, -, -, -, h, hn, -⟩
  · simp [h, hn, FVal.isSNaN]
  all_goals simp [h, hn, FVal.isSNaN, fpIsSignalling]

/-- The sign of a code that is no NaN is that of its value. -/
theorem fpSign_eq {f : Fmt} {a : ℕ} (hn : (f.read a).isNaN = false) : (fpFields f a).1 = (f.read a).neg? := by
  rcases read_cases f a with ⟨g, h, -⟩ | ⟨h, -⟩ | ⟨h, -⟩ | ⟨m, e, -, -, -, h, -⟩
  · simp [h, FVal.isNaN] at hn
  all_goals simp [h, FVal.neg?]

/-- A value whose magnitude is zero only as a zero. -/
def FVal.proper : FVal → Prop
  | .num _ m _ => m ≠ 0
  | _ => True

theorem read_proper (f : Fmt) (a : ℕ) : FVal.proper (f.read a) := by
  rcases read_cases f a with ⟨g, h, -⟩ | ⟨h, -⟩ | ⟨h, -⟩ | ⟨m, e, hm, -, -, h, -⟩ <;> simp [h, FVal.proper]
  exact hm

/-- Zero is the one finite code of value zero. -/
theorem isZero_eq (f : Fmt) (a : ℕ) : (fpNumber f a == some 0) = (f.read a).isZero := by
  rcases read_cases f a with ⟨g, h, -, -, hn, -⟩ | ⟨h, -, -, hn⟩ | ⟨h, -, -, hn⟩ | ⟨m, e, hm, -, -, h, -, -, hn⟩ <;>
    simp [h, hn, FVal.isZero]
  split_ifs <;> simp [hm, zpow_ne_zero]

/-! ## Rounding of values (R68) -/

theorem canonNaN_eq (f : Fmt) : f.canonNaN = fpQuietNan f := by cases f <;> rfl

theorem roundVal_zero (f : Fmt) (rm : RMode) (s : Bool) : roundVal f rm (.zero s) = ⟨fpZero f s, 0⟩ := by
  simp [roundVal, fpZero, formatShape_eq, Fmt.signBit_eq]

theorem roundVal_inf (f : Fmt) (rm : RMode) (s : Bool) : roundVal f rm (.inf s) = ⟨fpInfinity f s, 0⟩ := by
  rw [roundVal, fpInfinity_eq, codeOf, Fmt.infBits]; rfl

/-- A value that stands for a number rounds as the number. -/
theorem roundVal_roundsTo {f : Fmt} (rm : RMode) (neg : Bool) {m : ℕ} {e : ℤ} {x : ℝ} (hm : m ≠ 0)
    (h : approximates (f.fracBits + 1) m e x) : roundsTo f rm (roundVal f rm (.num neg m e)) (withSign neg x) := by
  rw [roundVal, if_neg hm]; exact roundNum_roundsTo rm neg hm h

/-- An exact value rounds as its number. -/
theorem roundVal_finite {f : Fmt} (rm : RMode) {v : FVal} {x : ℚ} (hv : finiteValue v = some x) (hx : x ≠ 0) :
    roundsTo f rm (roundVal f rm v) x := by
  cases v with
  | num neg m e =>
    simp only [finiteValue, Option.some.injEq] at hv
    have hm : m ≠ 0 := by rintro rfl; exact hx (by rw [← hv]; simp)
    have : (x : ℝ) = withSign neg (m * (2 : ℝ) ^ e) := by
      rw [← hv]; cases neg <;> simp [withSign]
    rw [this]
    exact roundVal_roundsTo rm neg hm (.inl rfl)
  | zero s => exact absurd (by simpa [finiteValue] using hv) hx.symm
  | nan g => simp [finiteValue] at hv
  | inf s => simp [finiteValue] at hv

/-- The finite values. -/
theorem finite_cases {v : FVal} {x : ℚ} (h : finiteValue v = some x) :
    (∃ s, v = .zero s ∧ x = 0) ∨ ∃ neg m e, v = .num neg m e ∧ x = (if neg then -1 else 1) * (m : ℚ) * 2 ^ e := by
  cases v with
  | num neg m e => exact .inr ⟨neg, m, e, rfl, (Option.some.inj h).symm⟩
  | zero s => exact .inl ⟨s, rfl, (Option.some.inj h).symm⟩
  | nan g => cases h
  | inf s => cases h

/-- The number of a proper magnitude is not zero. -/
theorem num_ne_zero (neg : Bool) {m : ℕ} (hm : m ≠ 0) (e : ℤ) : (if neg then -1 else 1) * (m : ℚ) * 2 ^ e ≠ 0 := by
  have : (m : ℚ) * 2 ^ e ≠ 0 := mul_ne_zero (Nat.cast_ne_zero.mpr hm) (zpow_ne_zero _ two_ne_zero)
  cases neg <;> simpa using this

/-- A finite value of zero is a zero. -/
theorem eq_zero_of_finiteValue {v : FVal} (hp : FVal.proper v) (h : finiteValue v = some 0) : v = .zero v.neg? := by
  rcases finite_cases h with ⟨s, rfl, -⟩ | ⟨neg, m, e, rfl, h0⟩
  · rfl
  · exact absurd h0.symm (num_ne_zero neg hp e)

/-! ## Exact sums and products -/

theorem finiteValue_ofInt (x e : ℤ) (s : Bool) : finiteValue (FVal.ofInt x e s) = some ((x : ℚ) * 2 ^ e) := by
  rw [FVal.ofInt]
  split_ifs with h
  · simp [h, finiteValue]
  · simp only [finiteValue, Option.some.injEq]
    rcases lt_or_ge x 0 with hx | hx
    · rw [decide_eq_true hx, if_pos rfl, Nat.cast_natAbs, abs_of_neg hx]; push_cast; ring
    · rw [decide_eq_false (not_lt.mpr hx), if_neg (by simp), Nat.cast_natAbs, abs_of_nonneg hx]; ring

theorem ofInt_proper (x e : ℤ) (s : Bool) : FVal.proper (FVal.ofInt x e s) := by
  rw [FVal.ofInt]; split_ifs with h
  · trivial
  · exact Int.natAbs_ne_zero.mpr h

/-- A magnitude written at a lower exponent. -/
theorem signed_shift (neg : Bool) (m : ℕ) {e k : ℤ} (h : k ≤ e) :
    ((signed neg (m * 2 ^ (e - k).toNat) : ℤ) : ℚ) * 2 ^ k = (if neg then -1 else 1) * m * 2 ^ e := by
  obtain ⟨j, rfl⟩ : ∃ j : ℕ, e = k + j := ⟨(e - k).toNat, by omega⟩
  rw [show (k + (j : ℤ) - k).toNat = j by omega, zpow_add₀ two_ne_zero, zpow_natCast, signed]
  cases neg <;> simp <;> ring

section
variable {x y : FVal} {a b : ℚ} (rm : RMode)

/-- Two magnitudes written at the lesser exponent, added. -/
theorem add_num (n n' : Bool) (m m' : ℕ) (e e' : ℤ) :
    ((signed n (m * 2 ^ (e - min e e').toNat) + signed n' (m' * 2 ^ (e' - min e e').toNat) : ℤ) : ℚ) * 2 ^ min e e' =
      (if n then -1 else 1) * (m : ℚ) * 2 ^ e + (if n' then -1 else 1) * (m' : ℚ) * 2 ^ e' := by
  rw [Int.cast_add, add_mul, signed_shift n m (min_le_left e e'), signed_shift n' m' (min_le_right e e')]

/-- The sum of finite values is exact; a zero is of the sign that R68 gives. -/
theorem add_finite (hx : FVal.proper x) (hy : FVal.proper y) (ha : finiteValue x = some a) (hb : finiteValue y = some b) :
    finiteValue (x.add rm y) = some (a + b) ∧ FVal.proper (x.add rm y) ∧
      (a + b = 0 → x.add rm y = .zero (if x.neg? = y.neg? then x.neg? else decide (rm = .rdn))) := by
  have rdn : (rm == .rdn) = decide (rm = .rdn) := by cases rm <;> rfl
  rcases finite_cases ha with ⟨s, rfl, rfl⟩ | ⟨n, m, e, rfl, rfl⟩ <;>
    rcases finite_cases hb with ⟨t, rfl, rfl⟩ | ⟨n', m', e', rfl, rfl⟩
  · cases s <;> cases t <;> simp [FVal.add, finiteValue, FVal.neg?, FVal.proper, rdn]
  · refine ⟨by rw [zero_add]; rfl, hy, fun h0 => ?_⟩
    rw [zero_add] at h0
    exact absurd h0 (num_ne_zero n' hy e')
  · refine ⟨by rw [add_zero]; rfl, hx, fun h0 => ?_⟩
    rw [add_zero] at h0
    exact absurd h0 (num_ne_zero n hx e)
  · have sum : FVal.add rm (.num n m e) (.num n' m' e') = FVal.ofInt (signed n (m * 2 ^ (e - min e e').toNat) +
        signed n' (m' * 2 ^ (e' - min e e').toNat)) (min e e') (rm == .rdn) := rfl
    have value := add_num n n' m m' e e'
    refine ⟨by rw [sum, finiteValue_ofInt, value], by rw [sum]; exact ofInt_proper _ _ _, fun h0 => ?_⟩
    have signs : n ≠ n' := by
      rintro rfl
      have h1 : (0 : ℚ) < m * 2 ^ e := mul_pos (Nat.cast_pos.mpr (Nat.pos_of_ne_zero hx)) (by positivity)
      have h2 : (0 : ℚ) < m' * 2 ^ e' := mul_pos (Nat.cast_pos.mpr (Nat.pos_of_ne_zero hy)) (by positivity)
      cases n <;> simp at h0 <;> linarith
    have integer : signed n (m * 2 ^ (e - min e e').toNat) + signed n' (m' * 2 ^ (e' - min e e').toNat) = 0 := by
      rw [h0] at value
      exact_mod_cast (mul_eq_zero.mp value).resolve_right (zpow_ne_zero _ two_ne_zero)
    rw [sum, integer, FVal.ofInt, if_pos rfl, rdn]
    simp [FVal.neg?, signs]

/-- The product of finite values is exact, with the composed sign. -/
theorem mul_finite (hx : FVal.proper x) (hy : FVal.proper y) (ha : finiteValue x = some a) (hb : finiteValue y = some b) :
    finiteValue (x.mul y) = some (a * b) ∧ FVal.proper (x.mul y) ∧ (x.mul y).neg? = (x.neg? != y.neg?) := by
  rcases finite_cases ha with ⟨s, rfl, rfl⟩ | ⟨n, m, e, rfl, rfl⟩ <;>
    rcases finite_cases hb with ⟨t, rfl, rfl⟩ | ⟨n', m', e', rfl, rfl⟩
  · exact ⟨by rw [zero_mul]; rfl, trivial, rfl⟩
  · exact ⟨by rw [zero_mul]; rfl, trivial, rfl⟩
  · exact ⟨by rw [mul_zero]; rfl, trivial, rfl⟩
  · refine ⟨?_, Nat.mul_ne_zero hx hy, rfl⟩
    simp only [FVal.mul, finiteValue, Option.some.injEq, zpow_add₀ (two_ne_zero (α := ℚ))]
    push_cast
    cases n <;> cases n' <;> simp <;> ring

theorem negate_finite (ha : finiteValue x = some a) : finiteValue x.negate = some (-a) ∧ x.negate.neg? = !x.neg? := by
  rcases finite_cases ha with ⟨s, rfl, rfl⟩ | ⟨n, m, e, rfl, rfl⟩
  · exact ⟨by rw [neg_zero]; rfl, rfl⟩
  · refine ⟨?_, rfl⟩
    cases n <;> simp [FVal.negate, finiteValue]

theorem negate_proper (hx : FVal.proper x) : FVal.proper x.negate := by cases x <;> exact hx

theorem isNaN_of_finite (ha : finiteValue x = some a) : x.isNaN = false := by
  cases x <;> simp_all [finiteValue, FVal.isNaN]

end

end Sys2Proof.Machine
end

section
namespace Sys2Proof.Machine

/-! ## Quotients and roots with a sticky last bit -/

/-- The integer part of a number with the bit that tells whether there is more. -/
theorem approximates_of_floor {p q : ℕ} (e : ℤ) {X : ℝ} {whole : Prop} [Decidable whole] (big : 2 ^ p ≤ q) (lo : (q : ℝ) ≤ X)
    (hi : X < q + 1) (h : whole ↔ X = q) : approximates p (2 * q + (if whole then 0 else 1)) (e - 1) (X * 2 ^ e) := by
  have e0 : (0 : ℝ) < 2 ^ e := by positivity
  have half : ∀ z : ℝ, 2 * z * (2 : ℝ) ^ (e - 1) = z * 2 ^ e := fun z => by
    rw [zpow_sub_one₀ two_ne_zero]; ring
  by_cases hw : whole
  · left
    rw [if_pos hw, h.mp hw]; push_cast; rw [add_zero, half]
  · right
    have strict : (q : ℝ) < X := lt_of_le_of_ne lo fun e => hw (h.mpr e.symm)
    rw [if_neg hw]
    refine ⟨by omega, by rw [pow_succ]; omega, ?_, ?_⟩
    · have : ((2 * q + 1 : ℕ) : ℝ) - 1 = 2 * q := by push_cast; ring
      rw [this, half]
      exact mul_lt_mul_of_pos_right strict e0
    · have : ((2 * q + 1 : ℕ) : ℝ) + 1 = 2 * (q + 1) := by push_cast; ring
      rw [this, half]
      exact mul_lt_mul_of_pos_right hi e0

/-- A quotient of naturals, its integer part and its remainder. -/
theorem natDiv_floor (n : ℕ) {d : ℕ} (hd : d ≠ 0) :
    ((n / d : ℕ) : ℝ) ≤ n / d ∧ (n : ℝ) / d < (n / d : ℕ) + 1 ∧ (n % d = 0 ↔ (n : ℝ) / d = (n / d : ℕ)) := by
  have dr : (0 : ℝ) < d := by exact_mod_cast Nat.pos_of_ne_zero hd
  rw [le_div_iff₀ dr, div_lt_iff₀ dr, div_eq_iff dr.ne']
  refine ⟨by exact_mod_cast Nat.div_mul_le_self n d, ?_, ?_⟩
  · exact_mod_cast (Nat.div_lt_iff_lt_mul (Nat.pos_of_ne_zero hd)).mp (Nat.lt_succ_self (n / d))
  rw [← Nat.dvd_iff_mod_eq_zero, Nat.dvd_iff_div_mul_eq]
  exact_mod_cast eq_comm

/-- The quotient that `FDIV` forms stands for the quotient of the magnitudes. -/
theorem divNum_approximates (p : ℕ) {ma mb : ℕ} (ha : ma ≠ 0) (hb : mb ≠ 0) (ea eb : ℤ) :
    (divNum p ma mb ea eb).1 ≠ 0 ∧
      approximates p (divNum p ma mb ea eb).1 (divNum p ma mb ea eb).2 (ma * (2 : ℝ) ^ ea / (mb * 2 ^ eb)) := by
  set k := p + 3 + Nat.log2 mb - Nat.log2 ma with hk
  have br : (mb : ℝ) ≠ 0 := Nat.cast_ne_zero.mpr hb
  have large : 2 ^ p ≤ ma * 2 ^ k / mb := by
    rw [Nat.le_div_iff_mul_le (Nat.pos_of_ne_zero hb)]
    calc 2 ^ p * mb ≤ 2 ^ p * 2 ^ (Nat.log2 mb + 1) := Nat.mul_le_mul_left _ Nat.lt_log2_self.le
      _ = 2 ^ (p + Nat.log2 mb + 1) := by rw [← pow_add]; ring_nf
      _ ≤ 2 ^ (Nat.log2 ma + k) := Nat.pow_le_pow_right (by norm_num) (by omega)
      _ = 2 ^ Nat.log2 ma * 2 ^ k := pow_add ..
      _ ≤ ma * 2 ^ k := Nat.mul_le_mul_right _ (Nat.log2_self_le ha)
  have value : (ma : ℝ) * 2 ^ ea / (mb * 2 ^ eb) = ((ma * 2 ^ k : ℕ) : ℝ) / mb * 2 ^ (ea - eb - k) := by
    rw [zpow_sub₀ two_ne_zero, zpow_sub₀ two_ne_zero, zpow_natCast]; push_cast; field_simp
  obtain ⟨lo, hi, whole⟩ := natDiv_floor (ma * 2 ^ k) hb
  rw [value]
  refine ⟨?_, approximates_of_floor (ea - eb - k) large lo hi whole⟩
  have : 0 < 2 ^ p := by positivity
  simp only [divNum, ← hk]
  omega

/-! ## The integer square root -/

theorem isqrtGo_spec (n k r : ℕ) (lo : r * r ≤ n) (hi : n < (r + 2 ^ k) * (r + 2 ^ k)) :
    isqrtGo n k r * isqrtGo n k r ≤ n ∧ n < (isqrtGo n k r + 1) * (isqrtGo n k r + 1) := by
  induction k generalizing r with
  | zero => exact ⟨lo, by simpa [isqrtGo] using hi⟩
  | succ k ih =>
    rw [isqrtGo]
    split_ifs with h
    · exact ih _ h (by rwa [pow_succ, mul_two, ← add_assoc] at hi)
    · exact ih _ lo (by omega)

theorem isqrt_eq (n : ℕ) : isqrt n = Nat.sqrt n := by
  obtain ⟨lo, hi⟩ := isqrtGo_spec n (Nat.log2 n / 2 + 1) 0 (by simp) (by
    rw [Nat.zero_add, ← pow_add]
    exact Nat.lt_log2_self.trans_le (Nat.pow_le_pow_right (by norm_num) (by omega)))
  exact Nat.eq_sqrt.mpr ⟨lo, hi⟩

/-- A square root, its integer part, and whether that is all. -/
theorem isqrt_floor (n : ℕ) :
    ((isqrt n : ℕ) : ℝ) ≤ Real.sqrt n ∧ Real.sqrt n < isqrt n + 1 ∧ (isqrt n * isqrt n = n ↔ Real.sqrt n = isqrt n) := by
  rw [isqrt_eq]
  refine ⟨Real.nat_sqrt_le_real_sqrt, Real.real_sqrt_lt_nat_sqrt_succ, ?_⟩
  rw [Real.sqrt_eq_iff_mul_self_eq (by positivity) (by positivity)]
  exact_mod_cast eq_comm

/-- A number with an even exponent: the mantissa that takes the odd bit, and half the exponent. -/
theorem evenExponent (m : ℕ) (e : ℤ) :
    let m1 := if e % 2 = 0 then m else 2 * m
    let h := (if e % 2 = 0 then e else e - 1) / 2
    (m : ℝ) * 2 ^ e = m1 * 2 ^ (2 * h) := by
  by_cases he : e % 2 = 0
  · simp only [he, if_true]; congr 2; omega
  · simp only [he, if_false]
    rw [show e = 2 * ((e - 1) / 2) + 1 by omega, zpow_add_one₀ two_ne_zero]
    rw [show 2 * ((e - 1) / 2) + 1 - 1 = 2 * ((e - 1) / 2) by ring, Int.mul_ediv_cancel_left _ (by norm_num : (2 : ℤ) ≠ 0)]
    push_cast; ring

theorem sqrt_evenPower (m : ℝ) (h : ℤ) : Real.sqrt (m * (2 : ℝ) ^ (2 * h)) = Real.sqrt m * 2 ^ h := by
  rw [mul_comm 2 h, zpow_mul, Real.sqrt_mul' _ (by positivity)]
  congr 1
  exact Real.sqrt_sq (by positivity)

/-- The root that `FSQRT` forms stands for the root of the magnitude. -/
theorem sqrtNum_approximates (p : ℕ) {m : ℕ} (hm : m ≠ 0) (e : ℤ) :
    (sqrtNum p m e).1 ≠ 0 ∧ approximates p (sqrtNum p m e).1 (sqrtNum p m e).2 (Real.sqrt (m * (2 : ℝ) ^ e)) := by
  set m1 := if e % 2 = 0 then m else 2 * m with hm1
  set h := (if e % 2 = 0 then e else e - 1) / 2 with hh
  set n := m1 * 2 ^ (2 * (p + 3)) with hn
  have m1_pos : 1 ≤ m1 := by rw [hm1]; split_ifs <;> omega
  have large : 2 ^ p ≤ isqrt n := by
    rw [isqrt_eq, Nat.le_sqrt, hn]
    calc 2 ^ p * 2 ^ p = 2 ^ (p + p) := (pow_add ..).symm
      _ ≤ 2 ^ (2 * (p + 3)) := Nat.pow_le_pow_right (by norm_num) (by omega)
      _ ≤ m1 * 2 ^ (2 * (p + 3)) := Nat.le_mul_of_pos_left _ m1_pos
  obtain ⟨lo, hi, whole⟩ := isqrt_floor n
  have value : Real.sqrt (m * (2 : ℝ) ^ e) = Real.sqrt n * 2 ^ (h - (p + 3 : ℕ)) := by
    rw [evenExponent m e, ← hm1, ← hh, sqrt_evenPower, hn, zpow_sub₀ two_ne_zero]
    have : ((m1 * 2 ^ (2 * (p + 3)) : ℕ) : ℝ) = m1 * 2 ^ (2 * ((p + 3 : ℕ) : ℤ)) := by
      push_cast; rw [← zpow_natCast]; push_cast; rfl
    rw [this, sqrt_evenPower]
    field_simp
  rw [value]
  refine ⟨?_, approximates_of_floor (h - (p + 3 : ℕ)) large lo hi whole⟩
  have : 0 < 2 ^ p := by positivity
  simp only [sqrtNum, ← hm1, ← hn]
  omega

/-! ## Arithmetic on numbers (R68, R216, R218, R226) -/

section
variable {f : Fmt} (rm : RMode) {x y z : FVal} {a b c : ℚ}

/-- A sum, exact and rounded once; an exact zero has the sign of R68. -/
theorem roundVal_add (hx : FVal.proper x) (hy : FVal.proper y) (ha : finiteValue x = some a) (hb : finiteValue y = some b) :
    (a + b ≠ 0 → roundsTo f rm (roundVal f rm (x.add rm y)) ((a + b : ℚ) : ℝ)) ∧
      (a + b = 0 → roundVal f rm (x.add rm y) = ⟨fpZero f (if x.neg? = y.neg? then x.neg? else decide (rm = .rdn)), 0⟩) := by
  obtain ⟨value, -, zero⟩ := add_finite rm hx hy ha hb
  exact ⟨fun h => roundVal_finite rm value h, fun h => by rw [zero h, roundVal_zero]⟩

theorem fAddVal_finite (hx : FVal.proper x) (hy : FVal.proper y) (ha : finiteValue x = some a) (hb : finiteValue y = some b) :
    fAddVal f rm x y = roundVal f rm (x.add rm y) := by
  have hn := isNaN_of_finite (add_finite rm hx hy ha hb).1
  rw [fAddVal, isNaN_of_finite ha, isNaN_of_finite hb]
  generalize x.add rm y = v at hn
  cases v with
  | nan g => cases hn
  | inf s => rfl
  | zero s => rfl
  | num n m e => rfl

theorem mulInvalid_finite (ha : finiteValue x = some a) (hb : finiteValue y = some b) : mulInvalid x y = false := by
  rcases finite_cases ha with ⟨s, rfl, -⟩ | ⟨n, m, e, rfl, -⟩ <;> rcases finite_cases hb with ⟨t, rfl, -⟩ | ⟨n', m', e', rfl, -⟩ <;> rfl

/-- A value or, as the fused words have it, the value with its sign turned. -/
def turned (neg : Bool) (v : FVal) : FVal := if neg then v.negate else v

theorem turned_finite (neg : Bool) (ha : finiteValue x = some a) (hx : FVal.proper x) :
    finiteValue (turned neg x) = some (if neg then -a else a) ∧ (turned neg x).neg? = (x.neg? != neg) ∧ FVal.proper (turned neg x) := by
  cases neg
  · exact ⟨ha, by simp [turned], hx⟩
  · exact ⟨(negate_finite ha).1, by simp [turned, (negate_finite ha).2], negate_proper hx⟩

/-- A fused multiply-add of numbers is one addition of the exact product. -/
theorem fFma_finite (np nc : Bool) {i j k : ℕ} (ha : finiteValue (f.read i) = some a) (hb : finiteValue (f.read j) = some b)
    (hc : finiteValue (f.read k) = some c) :
    fFma f rm np nc i j k = roundVal f rm ((turned np ((f.read i).mul (f.read j))).add rm (turned nc (f.read k))) := by
  obtain ⟨hp, pp, -⟩ := mul_finite (read_proper f i) (read_proper f j) ha hb
  obtain ⟨ht, -, pt⟩ := turned_finite np hp pp
  obtain ⟨hz, -, pz⟩ := turned_finite nc hc (read_proper f k)
  have hn := isNaN_of_finite (add_finite rm pt pz ht hz).1
  simp only [fFma, mulInvalid_finite ha hb, isNaN_of_finite ha, isNaN_of_finite hb, isNaN_of_finite hc, Bool.or_self,
    Bool.false_eq_true, if_false]
  change (match (turned np ((f.read i).mul (f.read j))).add rm (turned nc (f.read k)) with | .nan _ => _ | r => roundVal f rm r) = _
  generalize (turned np ((f.read i).mul (f.read j))).add rm (turned nc (f.read k)) = v at hn
  cases v with
  | nan g => cases hn
  | inf s => rfl
  | zero s => rfl
  | num n m e => rfl

/-- A product or a quotient, whose zero has the composed sign. -/
theorem roundVal_signed {v : FVal} (hv : FVal.proper v) (h : finiteValue v = some a) :
    (a ≠ 0 → roundsTo f rm (roundVal f rm v) (a : ℝ)) ∧ (a = 0 → roundVal f rm v = ⟨fpZero f v.neg?, 0⟩) := by
  refine ⟨fun h0 => roundVal_finite rm h h0, fun h0 => ?_⟩
  subst h0
  rw [eq_zero_of_finiteValue hv h, roundVal_zero]; rfl

end

/-- `FDIV` of numbers by a number other than zero. -/
theorem fDiv_finite {f : Fmt} (rm : RMode) {i j : ℕ} {a b : ℚ} (ha : finiteValue (f.read i) = some a)
    (hb : finiteValue (f.read j) = some b) (h0 : b ≠ 0) :
    (a / b ≠ 0 → roundsTo f rm (fDiv f rm i j) ((a / b : ℚ) : ℝ)) ∧
      (a / b = 0 → fDiv f rm i j = ⟨fpZero f ((f.read i).neg? != (f.read j).neg?), 0⟩) := by
  have px := read_proper f i
  have py := read_proper f j
  unfold fDiv
  generalize f.read i = x at *
  generalize f.read j = y at *
  rcases finite_cases hb with ⟨t, rfl, rfl⟩ | ⟨n', m', e', rfl, rfl⟩
  · exact absurd rfl h0
  rcases finite_cases ha with ⟨s, rfl, rfl⟩ | ⟨n, m, e, rfl, rfl⟩
  · exact ⟨fun h => absurd (zero_div _) h, fun _ => roundVal_zero ..⟩
  · refine ⟨fun _ => ?_, fun h => absurd h (div_ne_zero (num_ne_zero n px e) h0)⟩
    obtain ⟨hm, ha⟩ := divNum_approximates (f.fracBits + 1) px py e e'
    have := roundVal_roundsTo rm (xor n n') hm ha
    convert this using 1
    cases n <;> cases n' <;> simp [withSign, neg_div, div_neg]

/-! ## The statements of O35 -/

theorem arithmetic_rounds_once : arithmeticRoundsTheExactResultOnce := by
  intro f rm a b c x y z ha hb hc
  rw [fpNumber_eq] at ha hb hc
  have pa := read_proper f a
  have pb := read_proper f b
  have pc := read_proper f c
  have ab := mul_finite pa pb ha hb
  simp only [fpSign_eq (isNaN_of_finite ha), fpSign_eq (isNaN_of_finite hb), fpSign_eq (isNaN_of_finite hc)]
  have fma : ∀ np nc : Bool, ∀ v : ℚ, v = (if np then -(x * y) else x * y) + (if nc then -z else z) →
      (v ≠ 0 → roundsTo f rm (fFma f rm np nc a b c) v) ∧
      (v = 0 → fFma f rm np nc a b c = ⟨fpZero f (if (((f.read a).neg? != (f.read b).neg?) != np) = ((f.read c).neg? != nc)
        then (((f.read a).neg? != (f.read b).neg?) != np) else decide (rm = .rdn)), 0⟩) := by
    rintro np nc v rfl
    obtain ⟨hp, pp, sp⟩ := ab
    obtain ⟨ht, st, pt⟩ := turned_finite np hp pp
    obtain ⟨hz, sz, pz⟩ := turned_finite nc hc pc
    rw [fFma_finite rm np nc ha hb hc, ← sp, ← st, ← sz]
    exact roundVal_add rm pt pz ht hz
  refine ⟨?_, ?_, ?_, fun hy => fDiv_finite rm ha hb hy, fun hx hy => ?_, fun hx hy => ?_, ?_, ?_, ?_, ?_⟩
  · rw [fAdd, fAddVal_finite rm pa pb ha hb]
    exact roundVal_add rm pa pb ha hb
  · obtain ⟨hn, sn⟩ := negate_finite hb
    rw [fSub, fAddVal_finite rm pa (negate_proper pb) ha hn, ← sn, sub_eq_add_neg]
    exact roundVal_add rm pa (negate_proper pb) ha hn
  · have product : fMul f rm a b = roundVal f rm ((f.read a).mul (f.read b)) := by
      simp [fMul, isNaN_of_finite ha, isNaN_of_finite hb, mulInvalid_finite ha hb]
    rw [product, ← ab.2.2]
    exact roundVal_signed rm ab.2.1 ab.1
  · subst hy
    have zero := eq_zero_of_finiteValue pb hb
    rcases finite_cases ha with ⟨s, -, h0⟩ | ⟨n, m, e, h, -⟩
    · exact absurd h0 hx
    · rw [fDiv, zero, h]
      simp only [roundVal_inf, FRes.withFlags]; rfl
  · subst hx; subst hy
    have zero := eq_zero_of_finiteValue pb hb
    have zero' := eq_zero_of_finiteValue pa ha
    rw [fDiv, zero, zero', ← canonNaN_eq]; rfl
  · simpa using fma false false _ rfl
  · simpa [sub_eq_add_neg] using fma false true _ rfl
  · simpa [sub_eq_add_neg] using fma true true _ rfl
  · simpa using fma true false _ rfl

/-! ### Infinite operands -/

/-- The sum with an infinity, rounded, or invalid. -/
theorem add_infinite (f : Fmt) (rm : RMode) {x y : FVal} (nx : x.isNaN = false) (ny : y.isNaN = false)
    (h : x.isInf = true ∨ y.isInf = true) :
    (match x.add rm y with | .nan _ => invalid f | z => roundVal f rm z) =
      if x.isInf && y.isInf && x.neg? != y.neg? then ⟨f.canonNaN, 16⟩
      else ⟨fpInfinity f (if x.isInf then x.neg? else y.neg?), 0⟩ := by
  cases x with
  | nan g => cases nx
  | inf s =>
    cases y with
    | nan g => cases ny
    | inf t => cases s <;> cases t <;> simp [FVal.add, FVal.isInf, FVal.neg?, roundVal_inf, invalid, flagNV]
    | zero t => exact roundVal_inf f rm s
    | num n m e => exact roundVal_inf f rm s
  | zero s => cases y <;> simp_all [FVal.isInf, FVal.isNaN, FVal.add, FVal.neg?, roundVal_inf]
  | num n m e => cases y <;> simp_all [FVal.isInf, FVal.isNaN, FVal.add, FVal.neg?, roundVal_inf]

theorem turned_notNaN (neg : Bool) {v : FVal} (hv : v.isNaN = false) :
    (turned neg v).isNaN = false ∧ (turned neg v).isInf = v.isInf ∧ (turned neg v).neg? = (v.neg? != neg) := by
  cases neg <;> cases v <;> simp_all [turned, FVal.negate, FVal.isNaN, FVal.isInf, FVal.neg?]

/-- Zero times infinity is what makes a product invalid. -/
theorem mulInvalid_eq (x y : FVal) : mulInvalid x y = (x.isInf && y.isZero || x.isZero && y.isInf) := by
  cases x <;> cases y <;> rfl

/-- Any other product is no NaN; it is infinite where an operand is, with the composed sign. -/
theorem mul_notNaN {x y : FVal} (nx : x.isNaN = false) (ny : y.isNaN = false) (h : mulInvalid x y = false) :
    (x.mul y).isNaN = false ∧ (x.mul y).isInf = (x.isInf || y.isInf) ∧ (x.mul y).neg? = (x.neg? != y.neg?) := by
  cases x <;> cases y <;> simp_all [FVal.mul, FVal.isNaN, FVal.isInf, FVal.neg?, mulInvalid]

theorem fAddVal_infinite (f : Fmt) (rm : RMode) {x y : FVal} (nx : x.isNaN = false) (ny : y.isNaN = false)
    (h : x.isInf = true ∨ y.isInf = true) :
    fAddVal f rm x y = if x.isInf && y.isInf && x.neg? != y.neg? then ⟨f.canonNaN, 16⟩
      else ⟨fpInfinity f (if x.isInf then x.neg? else y.neg?), 0⟩ := by
  rw [← add_infinite f rm nx ny h, fAddVal, nx, ny]; rfl

theorem infinite_operands_exact : infiniteOperandsGiveTheExactResult := by
  intro f rm a b c na nb nc
  rw [fpIsNan_eq] at na nb nc
  simp only [fpSign_eq na, fpSign_eq nb, fpSign_eq nc, fpIsInf_eq, isZero_eq, ← canonNaN_eq]
  refine ⟨fun h => fAddVal_infinite f rm na nb h, fun h => ?_, fun h => ⟨?_, ?_⟩, fun n m => ⟨fun h => ?_, fun h hi => ?_⟩⟩
  · obtain ⟨nt, it, st⟩ : (f.read b).negate.isNaN = false ∧ (f.read b).negate.isInf = (f.read b).isInf ∧
        (f.read b).negate.neg? = !(f.read b).neg? := by simpa [turned] using turned_notNaN true nb
    rw [fSub, fAddVal_infinite f rm na nt (by rwa [it]), it, st]
  · unfold fMul
    generalize f.read a = x at *
    generalize f.read b = y at *
    cases x <;> cases y <;> simp_all [FVal.isInf, FVal.isNaN, FVal.isZero, FVal.neg?, mulInvalid, FVal.mul, roundVal_inf, invalid, flagNV]
  · unfold fDiv
    generalize f.read a = x at *
    generalize f.read b = y at *
    cases x <;> cases y <;> simp_all [FVal.isInf, FVal.isNaN, FVal.neg?, roundVal_inf, roundVal_zero, invalid, flagNV]
  · rw [← mulInvalid_eq] at h
    simp only [fFma, h, if_true]; rfl
  · rw [← mulInvalid_eq] at h
    obtain ⟨np, ip, sp⟩ := mul_notNaN na nb h
    obtain ⟨nt, it, st⟩ := turned_notNaN n np
    obtain ⟨nz, iz, sz⟩ := turned_notNaN m nc
    have := add_infinite f rm nt nz (by rwa [it, iz, ip])
    rw [it, iz, ip, st, sz, sp] at this
    simp only [fFma, h, na, nb, nc, Bool.or_self, Bool.false_eq_true, if_false]
    exact this

/-! ### NaN operands -/

/-- A signalling operand is a NaN, and NV is for those. -/
theorem nvOf_eq (xs : List FVal) : nvOf xs = if xs.any FVal.isSNaN then 16 else 0 := rfl

theorem fDiv_nan {f : Fmt} (rm : RMode) {a b : ℕ} (h : ((f.read a).isNaN || (f.read b).isNaN) = true) :
    fDiv f rm a b = nanRes f [f.read a, f.read b] := by
  unfold fDiv
  cases hx : f.read a <;> cases hy : f.read b <;> simp_all [FVal.isNaN]

theorem nan_operands_canonical : nanOperandsGiveTheCanonicalNan := by
  intro f rm a b c
  have signalling : ∀ l : List ℕ, l.any (fpIsSignalling f) = (l.map f.read).any FVal.isSNaN := fun l => by
    rw [List.any_map]; congr 1; funext n; exact fpIsSignalling_eq f n
  simp only [fpIsNan_eq, fpIsInf_eq, isZero_eq, signalling, ← canonNaN_eq, ← mulInvalid_eq]
  refine ⟨fun h => ?_, fun h n m => ?_⟩
  · have some_nan : ((f.read a).isNaN || (f.read b).isNaN) = true := by rcases h with h | h <;> simp [h]
    have turned_b : (f.read b).negate.isNaN = (f.read b).isNaN ∧ (f.read b).negate.isSNaN = (f.read b).isSNaN := by
      cases f.read b <;> exact ⟨rfl, rfl⟩
    simp only [List.forall_mem_cons, List.map]
    refine ⟨?_, ?_, ?_, ?_, by simp⟩
    · simp only [fAdd, fAddVal, some_nan, if_true]; rfl
    · simp only [fSub, fAddVal, turned_b, some_nan, if_true, nanRes, nvOf_eq, List.any]; rfl
    · simp only [fMul, some_nan, if_true]; rfl
    · rw [fDiv_nan rm some_nan]; rfl
  · have some_nan : ((f.read a).isNaN || (f.read b).isNaN || (f.read c).isNaN) = true := by
      rcases h with h | h | h <;> simp [h]
    simp only [fFma, some_nan, if_true, nanRes, nvOf_eq, List.map]
    split_ifs <;> rfl

/-- Settles O35: the model forms the exact result, or a number with a sticky bit that stands for it, and rounds that once. -/
theorem arithmeticRoundsTheExactResultOnce : Obligations.ArithmeticRoundsTheExactResultOnce :=
  ⟨arithmetic_rounds_once, infinite_operands_exact, nan_operands_canonical⟩

end Sys2Proof.Machine
end

