-- ==== Sys2Proof/Proofs/Compares.lean ====
section
/-!
PROOF. Square roots, and the functions that only compare or compose: min and max, compares, classes, signs (R65, R218 to R221).
-/
namespace Sys2Proof.Machine

/-! ## Square roots -/

theorem squareRoots_rounded_once : squareRootsAreRoundedOnce := by
  intro f rm a
  rcases read_cases f a with ⟨g, h, hn, hi, hx, hg⟩ | ⟨h, hn, hi, hx⟩ | ⟨h, hn, hi, hx⟩ | ⟨m, e, hm, -, -, h, hn, hi, hx⟩ <;>
    simp only [fSqrt, h, hn, hi, hx, ← canonNaN_eq, Bool.false_eq_true, false_implies, true_and, reduceCtorEq, implies_true, and_true,
      forall_const, Option.some.injEq]
  · rw [hg]; rfl
  · cases (fpFields f a).1
    · exact roundVal_inf ..
    · rfl
  · rintro x rfl
    exact ⟨fun _ => roundVal_zero .., fun hlt => absurd hlt (lt_irrefl 0), fun hlt => absurd hlt (lt_irrefl 0)⟩
  · rintro x rfl
    have pos : (0 : ℚ) < m * 2 ^ e := mul_pos (Nat.cast_pos.mpr (Nat.pos_of_ne_zero hm)) (by positivity)
    refine ⟨fun h0 => absurd h0 (num_ne_zero _ hm e), ?_⟩
    cases (fpFields f a).1
    · simp only [Bool.false_eq_true, if_false, one_mul]
      refine ⟨fun hlt => absurd hlt pos.not_gt, fun _ => ?_⟩
      obtain ⟨hm', h'⟩ := sqrtNum_approximates (f.fracBits + 1) hm e
      have := roundVal_roundsTo rm false hm' h'
      push_cast
      exact this
    · simp only [if_true, neg_mul, one_mul]
      exact ⟨fun _ => rfl, fun hlt => absurd hlt (by linarith)⟩

/-! ## The order of values -/

theorem fracField_lt (f : Fmt) (a : ℕ) : (fpFields f a).2.2 < 2 ^ f.fracBits := by
  rw [fpFields_eq]; exact Nat.mod_lt _ (by positivity)

theorem expField_lt (f : Fmt) (a : ℕ) : (fpFields f a).2.1 < 2 ^ f.expBits := by
  rw [fpFields_eq]; exact Nat.mod_lt _ (by positivity)

/-- The low bits of a code are those of its fields. -/
theorem low_eq_codeOf (f : Fmt) (a : ℕ) :
    a % 2 ^ f.width = codeOf f (fpFields f a).1 (fpFields f a).2.1 (fpFields f a).2.2 := by
  have split : a % 2 ^ f.width = a / 2 ^ (f.expBits + f.fracBits) % 2 * 2 ^ (f.expBits + f.fracBits) +
      (a / 2 ^ f.fracBits % 2 ^ f.expBits * 2 ^ f.fracBits + a % 2 ^ f.fracBits) := by
    rw [f.width_eq, pow_succ, Nat.mod_mul, Nat.add_comm f.expBits, pow_add 2 f.fracBits, Nat.mod_mul]; ring
  rw [split, fpFields_eq, codeOf, Fmt.signBit_eq]
  congr 1
  rcases Nat.mod_two_eq_zero_or_one (a / 2 ^ (f.expBits + f.fracBits)) with h | h <;> simp [h]

theorem place_of_inf {f : Fmt} {a : ℕ} (h : fpIsInf f a = true) :
    fpPlace f a = (if (fpFields f a).1 then -1 else 1) * infinitePlace f := by
  simp only [fpIsInf, fpIsSpecial, formatShape_eq, Bool.and_eq_true, beq_iff_eq] at h
  rw [fpPlace_eq, h.1, h.2, infinitePlace, fieldsValue, placeValue_signed]

theorem place_of_number {f : Fmt} {a : ℕ} {x : ℚ} (h : fpNumber f a = some x) : x = fpPlace f a ∧ |x| < infinitePlace f := by
  simp only [fpNumber, Option.ite_none_left_eq_some, Option.some.injEq] at h
  obtain ⟨hs, rfl⟩ := h
  refine ⟨rfl, ?_⟩
  simp only [fpIsSpecial, formatShape_eq, beq_iff_eq] at hs
  rw [fpPlace_eq, fieldsValue, placeValue_signed, infinitePlace, fieldsValue]
  have abs_sign : ∀ q : ℚ, 0 ≤ q → |(if (fpFields f a).1 = true then -1 else 1) * q| = q := fun q hq => by
    split_ifs <;> simp [abs_of_nonneg hq]
  rw [abs_sign _ (placeValue_nonneg ..)]
  refine placeValue_lt _ (fracField_lt f a) (by positivity) ?_
  have := fracField_lt f a
  have lt : (fpFields f a).2.1 + 1 ≤ 2 ^ f.expBits - 1 := by have := expField_lt f a; omega
  have := Nat.mul_le_mul_right (2 ^ f.fracBits) lt
  rw [Nat.add_mul] at this
  omega

/-- The order of finite values is that of their numbers. -/
theorem lt_finite {x y : FVal} {a b : ℚ} (ha : finiteValue x = some a) (hb : finiteValue y = some b) : x.lt y = decide (a < b) := by
  have key : ∀ (n n' : Bool) (m m' : ℕ) (e e' : ℤ),
      decide (signed n (m * 2 ^ (e - min e e').toNat) < signed n' (m' * 2 ^ (e' - min e e').toNat)) =
        decide ((if n then -1 else 1) * (m : ℚ) * 2 ^ e < (if n' then -1 else 1) * (m' : ℚ) * 2 ^ e') := by
    intro n n' m m' e e'
    rw [← signed_shift n m (min_le_left e e'), ← signed_shift n' m' (min_le_right e e'), decide_eq_decide,
      mul_lt_mul_iff_left₀ (by positivity), Int.cast_lt]
  rcases finite_cases ha with ⟨s, rfl, rfl⟩ | ⟨n, m, e, rfl, rfl⟩ <;>
    rcases finite_cases hb with ⟨t, rfl, rfl⟩ | ⟨n', m', e', rfl, rfl⟩
  · rfl
  · have := key false n' 0 m' 0 e'
    rw [Nat.cast_zero, mul_zero, zero_mul, zero_mul] at this
    rw [← this]; simp [FVal.lt]
  · have := key n false m 0 e 0
    rw [Nat.cast_zero, mul_zero, zero_mul, zero_mul] at this
    rw [← this]; simp [FVal.lt]
  · exact key n n' m m' e e'

/-- The order of values is that of their places. -/
theorem lt_eq {f : Fmt} {a b : ℕ} (na : (f.read a).isNaN = false) (nb : (f.read b).isNaN = false) :
    (f.read a).lt (f.read b) = decide (fpPlace f a < fpPlace f b) := by
  have pos : 0 < infinitePlace f := by
    refine lt_of_le_of_lt (placeValue_nonneg f.fracBits f.emin 0 0) (placeValue_lt _ (by positivity) (by positivity) ?_)
    have := f.bias_eq; have := f.fracBits_lt_bias
    have : 0 < (2 ^ f.expBits - 1) * 2 ^ f.fracBits := Nat.mul_pos (by omega) (by positivity)
    omega
  have finite : ∀ {c x}, fpNumber f c = some x → finiteValue (f.read c) = some (fpPlace f c) ∧ |fpPlace f c| < infinitePlace f := by
    intro c x h
    rw [← (place_of_number h).1]
    exact ⟨by rw [← fpNumber_eq, h], (place_of_number h).2⟩
  have view : ∀ c, (f.read c).isNaN = false →
      (f.read c = .inf (fpFields f c).1 ∧ fpPlace f c = (if (fpFields f c).1 then -1 else 1) * infinitePlace f) ∨
      ((f.read c).isInf = false ∧ finiteValue (f.read c) = some (fpPlace f c) ∧ |fpPlace f c| < infinitePlace f) := by
    intro c nc
    rcases read_cases f c with ⟨g, h, -⟩ | ⟨h, -, hi, -⟩ | ⟨h, -, -, hx⟩ | ⟨m, e, -, -, -, h, -, -, hx⟩
    · rw [h] at nc; cases nc
    · exact .inl ⟨h, place_of_inf hi⟩
    · exact .inr ⟨by rw [h]; rfl, finite hx⟩
    · exact .inr ⟨by rw [h]; rfl, finite hx⟩
  rcases view a na with ⟨ra, pa⟩ | ⟨ia, va, ba⟩ <;> rcases view b nb with ⟨rb, pb⟩ | ⟨ib, vb, bb⟩
  · rw [ra, rb, pa, pb]
    cases (fpFields f a).1 <;> cases (fpFields f b).1 <;> simp [FVal.lt] <;> linarith
  · rw [ra, pa]
    rw [abs_lt] at bb
    cases hb : f.read b <;> simp [hb, FVal.isInf, FVal.isNaN] at ib nb
    all_goals cases (fpFields f a).1 <;> simp [FVal.lt] <;> linarith
  · rw [rb, pb]
    rw [abs_lt] at ba
    cases ha : f.read a <;> simp [ha, FVal.isInf, FVal.isNaN] at ia na
    all_goals cases (fpFields f b).1 <;> simp [FVal.lt] <;> linarith
  · exact lt_finite va vb

theorem eqv_eq {f : Fmt} {a b : ℕ} (na : (f.read a).isNaN = false) (nb : (f.read b).isNaN = false) :
    (f.read a).eqv (f.read b) = decide (fpPlace f a = fpPlace f b) := by
  rw [FVal.eqv, na, nb, lt_eq na nb, lt_eq nb na]
  rcases lt_trichotomy (fpPlace f a) (fpPlace f b) with h | h | h
  · simp [h, h.ne]
  · simp [h]
  · simp [h, h.ne']

theorem isZero_iff {f : Fmt} {a : ℕ} (na : (f.read a).isNaN = false) : (f.read a).isZero = true ↔ fpPlace f a = 0 := by
  rw [← isZero_eq]
  rcases read_cases f a with ⟨g, h, -⟩ | ⟨h, -, hi, hx⟩ | ⟨h, -, -, hx⟩ | ⟨m, e, -, -, -, h, -, -, hx⟩
  · rw [h] at na; cases na
  · have pos : infinitePlace f ≠ 0 := by
      have := (place_of_number (f := f) (a := 0) (x := fpPlace f 0) (by cases f <;> rfl)).2
      exact (lt_of_le_of_lt (abs_nonneg _) this).ne'
    rw [hx, place_of_inf hi]
    split_ifs <;> simp [pos]
  all_goals rw [hx, (place_of_number hx).1]; simp

/-- Codes of equal places and equal signs are equal in their low bits. -/
theorem low_eq_of_place {f : Fmt} {a b : ℕ} (h : fpPlace f a = fpPlace f b) (hs : (fpFields f a).1 = (fpFields f b).1) :
    a % 2 ^ f.width = b % 2 ^ f.width := by
  rw [fpPlace_eq, fpPlace_eq, fieldsValue, placeValue_signed, placeValue_signed _ _ (fpFields f b).1, hs] at h
  have := placeValue_inj (fracField_lt f a) (fracField_lt f b) (by
    split_ifs at h <;> linarith)
  rw [low_eq_codeOf, low_eq_codeOf, codeOf, codeOf, hs, this]

/-! ## The functions -/

theorem signOf_code {f : Fmt} {a : ℕ} (na : (f.read a).isNaN = false) : (f.read a).neg? = (fpFields f a).1 := (fpSign_eq na).symm

/-- The choice of `FMIN` and `FMAX` between two codes that are no NaN. -/
theorem minMax_less {f : Fmt} {a b : ℕ} (na : (f.read a).isNaN = false) (nb : (f.read b).isNaN = false) :
    ((f.read a).lt (f.read b) || (f.read a).isZero && (f.read b).isZero && (f.read a).neg? && !(f.read b).neg?) = true ↔
      fpPlace f a < fpPlace f b ∨ fpPlace f a = 0 ∧ fpPlace f b = 0 ∧ (fpFields f a).1 = true ∧ (fpFields f b).1 = false := by
  simp only [lt_eq na nb, signOf_code na, signOf_code nb, Bool.or_eq_true, Bool.and_eq_true, decide_eq_true_eq, isZero_iff na,
    isZero_iff nb, Bool.not_eq_true', and_assoc]

/-- A nonzero place shows the sign. -/
theorem sign_of_place {f : Fmt} {a b : ℕ} (h : fpPlace f a = fpPlace f b) (h0 : fpPlace f a ≠ 0) :
    (fpFields f a).1 = (fpFields f b).1 := by
  have signed : ∀ c, fpPlace f c = (if (fpFields f c).1 then -1 else 1) *
      placeValue f.fracBits f.emin false (fpFields f c).2.1 (fpFields f c).2.2 := fun c => by
    rw [fpPlace_eq, fieldsValue, placeValue_signed]
  have ha := signed a
  have hb := signed b
  have pa := placeValue_nonneg f.fracBits f.emin (fpFields f a).2.1 (fpFields f a).2.2
  have pb := placeValue_nonneg f.fracBits f.emin (fpFields f b).2.1 (fpFields f b).2.2
  rcases lt_or_gt_of_ne h0 with lt | gt
  · have lt' := h ▸ lt
    cases h1 : (fpFields f a).1 <;> cases h2 : (fpFields f b).1 <;> simp_all <;> linarith
  · have gt' := h ▸ gt
    cases h1 : (fpFields f a).1 <;> cases h2 : (fpFields f b).1 <;> simp_all <;> linarith

/-- The order of the rule: by value, −0 below +0. -/
def placedBelow (f : Fmt) (a b : ℕ) : Prop :=
  fpPlace f a < fpPlace f b ∨ fpPlace f a = 0 ∧ fpPlace f b = 0 ∧ (fpFields f a).1 = true ∧ (fpFields f b).1 = false

theorem placedBelow_asymm {f : Fmt} {a b : ℕ} (h : placedBelow f a b) : ¬placedBelow f b a := by
  rintro (h' | ⟨hb, ha, sb, sa⟩) <;> rcases h with h | ⟨ha', hb', sa', sb'⟩
  · exact absurd h h'.not_gt
  · rw [ha', hb'] at h'; exact lt_irrefl _ h'
  · rw [ha, hb] at h; exact lt_irrefl _ h
  · rw [sb] at sb'; cases sb'

theorem low_eq_of_not_placedBelow {f : Fmt} {a b : ℕ} (h : ¬placedBelow f a b) (h' : ¬placedBelow f b a) :
    a % 2 ^ f.width = b % 2 ^ f.width := by
  obtain ⟨h1, h2⟩ := not_or.mp h
  obtain ⟨h1', h2'⟩ := not_or.mp h'
  have place : fpPlace f a = fpPlace f b := le_antisymm (not_lt.mp h1') (not_lt.mp h1)
  refine low_eq_of_place place ?_
  by_cases h0 : fpPlace f a = 0
  · have h0' := place ▸ h0
    cases sa : (fpFields f a).1 <;> cases sb : (fpFields f b).1 <;> simp_all
  · exact sign_of_place place h0

theorem nvOf_pair (f : Fmt) (a b : ℕ) :
    nvOf [f.read a, f.read b] = if fpIsSignalling f a || fpIsSignalling f b then 16 else 0 := by
  simp [nvOf, fpIsSignalling_eq, flagNV]

/-- `FMIN` and `FMAX`: the other operand of a NaN, else the lower or the higher (R65). -/
theorem fMinMax_picks (f : Fmt) (wantMax : Bool) (a b : ℕ) :
    let r := fMinMax f wantMax a b
    let nv := if fpIsSignalling f a || fpIsSignalling f b then 16 else 0
    let second := if wantMax then placedBelow f a b else placedBelow f b a
    (fpIsNan f a = true → fpIsNan f b = true → r = ⟨fpQuietNan f, nv⟩) ∧
    (fpIsNan f a = true → fpIsNan f b = false → r = ⟨b % 2 ^ f.width, nv⟩) ∧
    (fpIsNan f a = false → fpIsNan f b = true → r = ⟨a % 2 ^ f.width, nv⟩) ∧
    (fpIsNan f a = false → fpIsNan f b = false →
      (second → r = ⟨b % 2 ^ f.width, nv⟩) ∧ (¬second → r = ⟨a % 2 ^ f.width, nv⟩)) := by
  intro r nv second
  simp only [fpIsNan_eq, ← canonNaN_eq, r, nv, ← nvOf_pair]
  refine ⟨fun na nb => by simp [fMinMax, na, nb], fun na nb => by simp [fMinMax, na, nb], fun na nb => by simp [fMinMax, na, nb],
    fun na nb => ?_⟩
  have bits : fMinMax f wantMax a b =
      ⟨if ((f.read a).lt (f.read b) || (f.read a).isZero && (f.read b).isZero && (f.read a).neg? && !(f.read b).neg?) == wantMax
        then b % 2 ^ f.width else a % 2 ^ f.width, nvOf [f.read a, f.read b]⟩ := by simp [fMinMax, na, nb]
  have less := minMax_less na nb
  rw [bits]
  generalize ((f.read a).lt (f.read b) || (f.read a).isZero && (f.read b).isZero && (f.read a).neg? && !(f.read b).neg?) = l at less
  change l = true ↔ placedBelow f a b at less
  cases wantMax
  · change (placedBelow f b a → _) ∧ (¬placedBelow f b a → _)
    refine ⟨fun h => ?_, fun h => ?_⟩
    · obtain rfl : l = false := Bool.eq_false_iff.mpr fun hl => placedBelow_asymm h (less.mp hl)
      rfl
    · cases l with
      | true => rfl
      | false => simp [low_eq_of_not_placedBelow (fun hl => by simpa using less.mpr hl) h]
  · change (placedBelow f a b → _) ∧ (¬placedBelow f a b → _)
    rw [← less]
    cases l <;> simp

/-- FCMP: the relation between values, one for true; no relation holds with a NaN (R220). -/
theorem fCmp_holds (f : Fmt) (r : FRel) (a b : ℕ) :
    let rel := match r with
      | .eq => fpPlace f a = fpPlace f b | .lt => fpPlace f a < fpPlace f b | .le => fpPlace f a ≤ fpPlace f b
    let all := fpIsNan f a = false ∧ fpIsNan f b = false ∧ rel
    (all → (fCmp f r a b).bits = 1) ∧ (¬all → (fCmp f r a b).bits = 0) := by
  intro rel all
  simp only [all, fpIsNan_eq]
  cases na : (f.read a).isNaN
  · cases nb : (f.read b).isNaN
    · simp only [true_and]
      cases r <;> simp +contextual [fCmp, na, nb, rel, lt_eq na nb, eqv_eq na nb, le_iff_lt_or_eq]
    · simp [fCmp, na, nb]
  · simp [fCmp, na]

theorem fClass_eq (f : Fmt) (a : ℕ) :
    let (neg, ex, fr) := fpFields f a
    fClass f a = 2 ^ (if ex = 2 ^ f.expBits - 1 then
        (if fr = 0 then (if neg then 0 else 7) else if fr < 2 ^ (f.fracBits - 1) then 8 else 9)
      else if ex = 0 then (if fr = 0 then (if neg then 3 else 4) else (if neg then 2 else 5)) else (if neg then 1 else 6)) := by
  have small := fracField_lt f a
  rw [fClass, read_eq]
  generalize fpFields f a = t at small
  obtain ⟨neg, ex, fr⟩ := t
  dsimp only at small ⊢
  by_cases hmax : ex = 2 ^ f.expBits - 1
  · by_cases h0 : fr = 0
    · cases neg <;> simp [hmax, h0]
    · by_cases hs : fr < 2 ^ (f.fracBits - 1) <;> simp [hmax, h0, hs]
  · by_cases he : ex = 0
    · by_cases h0 : fr = 0
      · cases neg <;> simp [he, h0, he ▸ hmax]
      · cases neg <;> simp [he, h0, he ▸ hmax, small.not_ge]
    · cases neg <;> simp [hmax, he]

theorem fSgn_eq (f : Fmt) (g : Bool) (a : ℕ) :
    fSgn f g a = ⟨if fpIsNan f a then fpQuietNan f else a % 2 ^ (f.width - 1) + (if g then 2 ^ (f.width - 1) else 0), 0⟩ := by
  rw [fSgn, fpIsNan_eq, ← canonNaN_eq]
  split_ifs <;> rfl

theorem comparisons_follow_order : comparisonsFollowTheOrderOfValues := by
  intro f a b
  have shape : (formatShape f).1 = f.expBits ∧ (formatShape f).2.1 = f.fracBits := by rw [formatShape_eq]; exact ⟨rfl, rfl⟩
  have any : (if (f.read a).isNaN || (f.read b).isNaN then flagNV else 0) = if fpIsNan f a || fpIsNan f b then 16 else 0 := by
    rw [fpIsNan_eq, fpIsNan_eq]; rfl
  have cls := fClass_eq f a
  rw [← shape.1, ← shape.2] at cls
  exact ⟨fMinMax_picks f false a b, fMinMax_picks f true a b, ⟨nvOf_pair f a b, fCmp_holds f .eq a b⟩,
    ⟨any, fCmp_holds f .lt a b⟩, ⟨any, fCmp_holds f .le a b⟩, cls, fun g => fSgn_eq f g a⟩

end Sys2Proof.Machine
end

