-- ==== Sys2Proof/Proofs/Conversions.lean ====
section
/-!
PROOF. Conversions between the kinds of formats (R69 to R74, R222, R223).
-/
namespace Sys2Proof.Machine

/-! ## To integers (R74) -/

theorem intMin_nonpos (sgn : Bool) (w : ℕ) : intMin sgn w ≤ 0 := by cases sgn <;> simp [intMin]

theorem intMax_nonneg (sgn : Bool) (w : ℕ) : 0 ≤ intMax sgn w := by
  have h1 := Nat.one_le_two_pow (n := w)
  have h2 := Nat.one_le_two_pow (n := w - 1)
  cases sgn <;> simp only [intMax, Bool.false_eq_true, if_false, if_true] <;> omega

theorem clampInt_low {sgn : Bool} {w : ℕ} {x : ℤ} (h : x < intMin sgn w) : clampInt sgn w x = intMin sgn w := by
  have := intMin_nonpos sgn w; have := intMax_nonneg sgn w
  simp only [clampInt]; omega

theorem clampInt_high {sgn : Bool} {w : ℕ} {x : ℤ} (h : intMax sgn w < x) : clampInt sgn w x = intMax sgn w := by
  have := intMin_nonpos sgn w; have := intMax_nonneg sgn w
  simp only [clampInt]; omega

theorem intBits_eq (w : ℕ) (x : ℤ) : intBits w x = (x % 2 ^ w).toNat := by simp [intBits]

/-- A finite value converts to the integer that the mode rounds it to, limited to the range. -/
theorem toInt_rounds (sgn : Bool) (w : ℕ) (rm : RMode) {v : FVal} {x : ℚ} (hv : finiteValue v = some x) :
    roundsToInteger w (intMin sgn w) (intMax sgn w) rm (toInt sgn w rm v) x := by
  have lo := intMin_nonpos sgn w
  have hi := intMax_nonneg sgn w
  rcases finite_cases hv with ⟨s, rfl, rfl⟩ | ⟨neg, m, e, rfl, rfl⟩
  · refine ⟨0, ⟨⟨0, by simp⟩, ?_⟩, by simp [toInt, lo.not_gt, hi.not_gt]⟩
    cases rm <;> simp
  · have real : (((if neg then -1 else 1) * (m : ℚ) * 2 ^ e : ℚ) : ℝ) = withSign neg (m * (2 : ℝ) ^ e) := by
      cases neg <;> simp [withSign]
    have stands : standsFor m e 0 (m * (2 : ℝ) ^ e) := .inl rfl
    have rounding := roundAt_isRounding rm neg stands
    have isExact := roundAt_exact rm neg stands
    rw [real]
    set n := (roundAt rm neg m e 0).1
    have integer : ((signed neg n : ℤ) : ℝ) = withSign neg (n * (2 : ℝ) ^ (0 : ℤ)) := by cases neg <;> simp [signed, withSign]
    refine ⟨signed neg n, ?_, ?_⟩
    · rw [integer]
      refine isRounding.mono rounding (fun z => ?_) ⟨signed neg n, integer.symm⟩ fun ⟨k, hk⟩ => ⟨k, by simpa using hk⟩
      rintro ⟨k, rfl⟩
      exact ⟨k, by simp⟩
    · have flag : (if (roundAt rm neg m e 0).2 then flagNX else 0) =
          if ((signed neg n : ℤ) : ℝ) = withSign neg (m * (2 : ℝ) ^ e) then 0 else 1 := by
        simp only [integer, withSign_inj, ← isExact]
        cases (roundAt rm neg m e 0).2 <;> rfl
      have unfolded : toInt sgn w rm (.num neg m e) =
          if signed neg n < intMin sgn w ∨ intMax sgn w < signed neg n then ⟨intBits w (clampInt sgn w (signed neg n)), flagNV⟩
          else ⟨intBits w (signed neg n), if (roundAt rm neg m e 0).2 then flagNX else 0⟩ := rfl
      rw [unfolded, flag]
      by_cases h1 : signed neg n < intMin sgn w
      · simp [h1, clampInt_low h1, intBits_eq, flagNV]
      · by_cases h2 : intMax sgn w < signed neg n
        · simp [h1, h2, clampInt_high h2, intBits_eq, flagNV]
        · simp [h1, h2, intBits_eq]

/-! ## The 8-bit formats (R69, R70) -/

/-- F8, or F8W. -/
def eightFormat (wide : Bool) : Fmt8 := if wide then .f8w else .f8

/-- The number of a code by its fields. -/
theorem eightNumber_eq (wide : Bool) (b : ℕ) :
    let n := (eightFormat wide).fracBits
    eightNumber wide b = if b % 256 = 128 then none
      else some (placeValue n (eightFormat wide).emin (b / 128 % 2 == 1) (b / 2 ^ n % 2 ^ (7 - n)) (b % 2 ^ n)) := by
  have e1 : ∀ e : ℕ, (e : ℤ) - 11 = -10 + e - 1 := fun e => by ring
  have e2 : ∀ e : ℕ, (e : ℤ) - 18 = -17 + e - 1 := fun e => by ring
  cases wide
  · simp only [eightNumber, eightFormat, Fmt8.fracBits, Fmt8.emin, placeValue, e1, Bool.false_eq_true, if_false]; norm_num
  · simp only [eightNumber, eightFormat, Fmt8.fracBits, Fmt8.emin, placeValue, e2, if_true]; norm_num

/-- The number of a code given by its sign, exponent and fraction. -/
theorem eightNumber_code (wide neg : Bool) {ex fr : ℕ} (hfr : fr < 2 ^ (eightFormat wide).fracBits)
    (hc : ex * 2 ^ (eightFormat wide).fracBits + fr < 128) (h0 : ex * 2 ^ (eightFormat wide).fracBits + fr = 0 → neg = false) :
    eightNumber wide (ex * 2 ^ (eightFormat wide).fracBits + fr + if neg then 128 else 0) =
      some (placeValue (eightFormat wide).fracBits (eightFormat wide).emin neg ex fr) := by
  have sign : (if neg then 128 else 0) = 128 * neg.toNat ∧ neg.toNat ≤ 1 := by cases neg <;> decide
  have positive : ex * 2 ^ (eightFormat wide).fracBits + fr = 0 → neg.toNat = 0 := fun h => by rw [h0 h]; rfl
  rw [eightNumber_eq, sign.1]
  have fields : ∀ b, b = ex * 2 ^ (eightFormat wide).fracBits + fr + 128 * neg.toNat →
      b % 256 ≠ 128 ∧ b / 128 % 2 = neg.toNat ∧
        b / 2 ^ (eightFormat wide).fracBits % 2 ^ (7 - (eightFormat wide).fracBits) = ex ∧ b % 2 ^ (eightFormat wide).fracBits = fr := by
    intro b hb
    cases wide <;> simp only [eightFormat, Fmt8.fracBits, Bool.false_eq_true, if_false, if_true] at hfr hc positive hb ⊢ <;> omega
  obtain ⟨h1, h2, h3, h4⟩ := fields _ rfl
  rw [if_neg h1, h2, h3, h4]
  cases neg <;> rfl

/-- What a code of an 8-bit format reads as. -/
theorem eightRead_cases (wide : Bool) (a : ℕ) :
    ((eightFormat wide).read a = .nan false ∧ eightNumber wide a = none) ∨
    ((eightFormat wide).read a = .zero false ∧ eightNumber wide a = some 0) ∨
    ∃ neg m e, m ≠ 0 ∧ m < 16 ∧ -17 ≤ e ∧ (e : ℤ) ≤ 13 ∧ (e ≤ 4 ∨ m < 8) ∧ (eightFormat wide).read a = .num neg m e ∧
      eightNumber wide a = finiteValue (.num neg m e) := by
  have n_le : (eightFormat wide).fracBits = 3 ∧ (eightFormat wide).emin = -10 ∨
      (eightFormat wide).fracBits = 2 ∧ (eightFormat wide).emin = -17 := by cases wide <;> decide
  have fields : a / 128 % 2 = a % 256 / 128 ∧
      a / 2 ^ (eightFormat wide).fracBits % 2 ^ (7 - (eightFormat wide).fracBits) = a % 256 % 128 / 2 ^ (eightFormat wide).fracBits ∧
      a % 2 ^ (eightFormat wide).fracBits = a % 256 % 128 % 2 ^ (eightFormat wide).fracBits := by
    rcases n_le with ⟨h, -⟩ | ⟨h, -⟩ <;> rw [h] <;> omega
  rw [eightNumber_eq, fields.1, fields.2.1, fields.2.2, Fmt8.read]
  generalize (eightFormat wide).fracBits = n at n_le
  generalize (eightFormat wide).emin = least at n_le
  generalize hneg : (a % 256 / 128 == 1) = neg
  have low := Nat.mod_lt (a % 256 % 128) (Nat.two_pow_pos n)
  by_cases hnan : a % 256 = 128
  · left; simp [hnan]
  right
  simp only [if_neg hnan]
  by_cases h0 : a % 256 % 128 = 0
  · left
    have : neg = false := by rw [← hneg]; have : a % 256 / 128 = 0 := by omega
                             simp [this]
    simp [h0, placeValue]
  right
  simp only [if_neg h0]
  by_cases hex : a % 256 % 128 / 2 ^ n = 0
  · obtain ⟨pos, small, lo, hi, narrow⟩ : a % 256 % 128 % 2 ^ n ≠ 0 ∧ a % 256 % 128 % 2 ^ n < 16 ∧ -17 ≤ least ∧ least ≤ 13 ∧
        (least ≤ 4 ∨ a % 256 % 128 % 2 ^ n < 8) := by
      rcases n_le with ⟨rfl, rfl⟩ | ⟨rfl, rfl⟩ <;> omega
    refine ⟨neg, _, least, pos, small, lo, hi, narrow, by rw [if_pos hex], ?_⟩
    rw [placeValue, if_pos hex, finiteValue, mul_assoc]
  · obtain ⟨pos, small, lo, hi, narrow⟩ : 2 ^ n + a % 256 % 128 % 2 ^ n ≠ 0 ∧ 2 ^ n + a % 256 % 128 % 2 ^ n < 16 ∧
        -17 ≤ least + (a % 256 % 128 / 2 ^ n : ℕ) - 1 ∧ least + (a % 256 % 128 / 2 ^ n : ℕ) - 1 ≤ 13 ∧
        (least + (a % 256 % 128 / 2 ^ n : ℕ) - 1 ≤ 4 ∨ 2 ^ n + a % 256 % 128 % 2 ^ n < 8) := by
      rcases n_le with ⟨rfl, rfl⟩ | ⟨rfl, rfl⟩ <;> omega
    refine ⟨neg, _, _, pos, small, lo, hi, narrow, by rw [if_neg hex], ?_⟩
    rw [placeValue, if_neg hex, finiteValue, mul_assoc]; push_cast; rfl

end Sys2Proof.Machine
end

section
namespace Sys2Proof.Machine

/-! ### Conversion to an 8-bit format -/

/-- `roundsToEight` with the bits and the exponents of the format. -/
theorem roundsToEight_of {wide : Bool} {r : FRes} {x : ℝ}
    (h : let fb := (eightFormat wide).fracBits
      let least := (eightFormat wide).emin
      ∃ u v : ℝ, isRounding .rne (floatSet (fb + 1) (least ≤ ·))
          (fun z => ∃ n k : ℤ, |2 * n| < 2 ^ (fb + 1) ∧ (2 ^ fb ≤ |2 * n| ∧ least ≤ k ∨ k = least) ∧ z = (2 * n : ℤ) * (2 : ℝ) ^ k) x u ∧
        isRounding .rne (precise (fb + 1)) (preciseEven (fb + 1)) x v ∧
        if (placeValue fb least false (127 / 2 ^ fb) (127 % 2 ^ fb) : ℝ) < |u| then r = ⟨if x < 0 then 0xFF else 0x7F, 5⟩
        else r.bits < 2 ^ 8 ∧ (∃ y, eightNumber wide r.bits = some y ∧ (y : ℝ) = u) ∧ (u = 0 → r.bits = 0) ∧
          r.flags = if u = x then 0 else if |v| < 2 ^ (least + fb) then 3 else 1) : roundsToEight wide r x := by
  have greatest : (placeValue (eightFormat wide).fracBits (eightFormat wide).emin false (127 / 2 ^ (eightFormat wide).fracBits)
      (127 % 2 ^ (eightFormat wide).fracBits) : ℝ) = if wide then 57344 else 240 := by
    cases wide <;> norm_num [placeValue, eightFormat, Fmt8.fracBits, Fmt8.emin]
  dsimp only at h
  rw [greatest] at h
  cases wide <;> exact h

/-- The code and the flags of a finite magnitude. -/
theorem toFmt8_num (g : Fmt8) (neg : Bool) {m : ℕ} (e : ℤ) (hm : m ≠ 0) :
    toFmt8 g (.num neg m e) =
      let q := max (topOf m e - g.fracBits) g.emin
      let n := (roundAt .rne neg m e q).1
      let code := if n = 0 then 0 else (q - g.emin).toNat * 2 ^ g.fracBits + n
      if 127 < code then ⟨if neg then 0xFF else 0x7F, 5⟩
      else ⟨if code = 0 then 0 else code + (if neg then 128 else 0), if (roundAt .rne neg m e q).2 then
        1 + (if tinyAfter .rne neg m e (g.fracBits + 1) (g.emin + g.fracBits) then 2 else 0) else 0⟩ := if_neg hm

/-- The sign of a value does not change its magnitude. -/
theorem abs_placeValue (n : ℕ) (least : ℤ) (neg : Bool) (ex fr : ℕ) :
    |placeValue n least neg ex fr| = placeValue n least false ex fr := by
  have := placeValue_nonneg n least ex fr
  rw [placeValue_signed]
  cases neg <;> simpa using this

/-- The codes are in the order of the magnitudes. -/
theorem greatestCode_lt_iff {n ex fr : ℕ} (least : ℤ) (hfr : fr < 2 ^ n) :
    placeValue n least false (127 / 2 ^ n) (127 % 2 ^ n) < placeValue n least false ex fr ↔ 127 < ex * 2 ^ n + fr := by
  have split : 127 / 2 ^ n * 2 ^ n + 127 % 2 ^ n = 127 := Nat.div_add_mod' 127 (2 ^ n)
  have low := Nat.mod_lt 127 (Nat.two_pow_pos n)
  constructor <;> intro h
  · by_contra hc
    rcases Nat.lt_or_eq_of_le (not_lt.mp hc) with lt | eq
    · exact absurd h (placeValue_lt least hfr low (by omega)).not_gt
    · refine absurd h (not_lt.mpr (le_of_eq ?_))
      have : 127 / 2 ^ n = ex ∧ 127 % 2 ^ n = fr := by
        rw [← eq, Nat.add_comm, Nat.add_mul_div_right _ _ (Nat.two_pow_pos n), Nat.div_eq_of_lt hfr, Nat.add_mul_mod_self_right,
          Nat.mod_eq_of_lt hfr, Nat.zero_add]
        exact ⟨rfl, rfl⟩
      rw [this.1, this.2]
  · exact placeValue_lt least low hfr (by omega)

/-- The rounding of a finite magnitude to an 8-bit format. -/
theorem toFmt8_rounds (wide neg : Bool) {m : ℕ} (e : ℤ) (hm : m ≠ 0) :
    roundsToEight wide (toFmt8 (eightFormat wide) (.num neg m e)) (withSign neg (m * (2 : ℝ) ^ e)) := by
  have hfb : 2 ≤ (eightFormat wide).fracBits := by cases wide <;> decide
  have number := fun ex fr => @eightNumber_code wide neg ex fr
  apply roundsToEight_of
  simp only [toFmt8_num _ neg e hm]
  generalize (eightFormat wide).fracBits = fb at hfb number
  generalize (eightFormat wide).emin = least at number
  have happ : approximates (fb + 1) m e (m * (2 : ℝ) ^ e) := .inl rfl
  have x0 : (0 : ℝ) < m * (2 : ℝ) ^ e := mul_pos (Nat.cast_pos.mpr (Nat.pos_of_ne_zero hm)) (by positivity)
  obtain ⟨ex, fr, hfr, hcode, hval, hround, n_hi, n_lo⟩ := roundAt_fields .rne neg least (by omega) hm happ
  obtain ⟨v_lo, -, vround⟩ := roundAt_isRounding_precise (rm := .rne) (q := topOf m e - fb) neg (by omega) hm happ (by push_cast; ring)
  have q1 : topOf m e - fb = topOf m e + 1 - (fb + 1 : ℕ) := by push_cast; ring
  have tiny := tinyAfter_iff .rne neg (p := fb + 1) (K := least + fb) (by omega) (m := m) (e := e)
    (by rw [← q1]; have := Nat.two_pow_pos fb; simp only [Nat.add_sub_cancel] at v_lo; omega)
  rw [← q1] at tiny
  have isExact := roundAt_exact .rne neg (happ.standsFor (q := max (topOf m e - fb) least) (by
    have : topOf m e - fb ≤ max (topOf m e - fb) least := le_max_left _ _
    push_cast; omega))
  set q := max (topOf m e - fb) least
  set n := (roundAt .rne neg m e q).1
  set v := ((roundAt .rne neg m e (topOf m e - fb)).1 : ℝ) * 2 ^ (topOf m e - fb)
  rw [hcode]
  refine ⟨withSign neg (n * 2 ^ q), withSign neg v, ?_, vround, ?_⟩
  · -- the even multiples of the last place are the even codes
    refine isRounding.mono hround (fun z => id) hround.1 fun he => ?_
    obtain ⟨j, k, hjk, hj, size⟩ := evenMultiple_cases (by omega) neg n_hi he
    refine ⟨j, k, hj, ?_, hjk⟩
    have hq : least ≤ q := le_max_right _ _
    rcases size with ⟨size, rfl⟩ | ⟨size, hk⟩ <;> rw [size]
    · rcases eq_or_ne q least with h | h
      · exact .inr h
      · exact .inl ⟨by exact_mod_cast n_lo h, hq⟩
    · exact .inl ⟨by simp, by omega⟩
  have magnitude : |withSign neg (n * (2 : ℝ) ^ q)| = ((placeValue fb least false ex fr : ℚ) : ℝ) := by
    rw [← hval, ← Rat.cast_abs, abs_placeValue]
  have sign : withSign neg (m * (2 : ℝ) ^ e) < 0 ↔ neg = true := decide_eq_true_iff.symm.trans (by rw [withSign_neg_iff x0])
  simp only [magnitude, Rat.cast_lt, greatestCode_lt_iff least hfr, sign]
  by_cases high : 127 < ex * 2 ^ fb + fr
  · rw [if_pos high, if_pos high]
  rw [if_neg high, if_neg high]
  have zero_iff : withSign neg (n * (2 : ℝ) ^ q) = 0 ↔ ex * 2 ^ fb + fr = 0 := by
    rw [← hval, Rat.cast_eq_zero, ← abs_eq_zero, abs_placeValue]
    refine ⟨fun h => ?_, fun h => ?_⟩
    · have := placeValue_inj (ex' := 0) (fr' := 0) hfr (Nat.two_pow_pos fb) (h.trans (by simp [placeValue]))
      omega
    · have : ex = 0 := by
        rcases Nat.eq_zero_or_pos ex with h0 | h0
        · exact h0
        · have := Nat.mul_pos h0 (Nat.two_pow_pos fb); omega
      have : fr = 0 := by omega
      simp [placeValue, *]
  have flags : (if (roundAt .rne neg m e q).2 then 1 + (if tinyAfter .rne neg m e (fb + 1) (least + fb) then 2 else 0) else 0) =
      if withSign neg (n * (2 : ℝ) ^ q) = withSign neg (m * (2 : ℝ) ^ e) then 0 else if |withSign neg v| < 2 ^ (least + fb) then 3 else 1 := by
    have v0 : 0 ≤ v := by positivity
    simp only [withSign_inj, ← isExact, abs_withSign, abs_of_nonneg v0, ← tiny]
    cases (roundAt .rne neg m e q).2 <;> simp
    split_ifs <;> rfl
  by_cases h0 : ex * 2 ^ fb + fr = 0
  · rw [if_pos h0]
    exact ⟨by norm_num, ⟨0, by cases wide <;> simp [eightNumber], by rw [zero_iff.mpr h0]; simp⟩, fun _ => rfl, flags⟩
  · rw [if_neg h0]
    refine ⟨?_, ⟨_, number ex fr hfr (by omega) fun h => absurd h h0, hval⟩, fun h => absurd (zero_iff.mp h) h0, flags⟩
    dsimp only
    split_ifs <;> omega

end Sys2Proof.Machine
end

section
namespace Sys2Proof.Machine

/-! ### One conversion of a value -/

/-- A value in the kind of a destination. -/
def convertVal (dst : CvtType) (rm : RMode) (v : FVal) : FRes :=
  match dst.kind with
  | .bin g => (roundVal g rm v).withFlags (nvOf [v])
  | .eight g => toFmt8 g v
  | .int s w => toInt s w rm v

theorem withFlags_zero (r : FRes) : r.withFlags 0 = r := by cases r; simp [FRes.withFlags, orFlags]

theorem convert_bin {src dst : CvtType} {f : Fmt} (rm : RMode) (a : ℕ) (h : src.kind = .bin f) :
    convert src dst rm a = convertVal dst rm (f.read a) := by
  simp only [convert, convertVal, h]
  cases dst.kind <;> rfl

theorem eightRead_quiet (wide : Bool) (a : ℕ) : nvOf [(eightFormat wide).read a] = 0 := by
  rcases eightRead_cases wide a with ⟨h, -⟩ | ⟨h, -⟩ | ⟨neg, m, e, -, -, -, -, -, h, -⟩ <;> rw [h] <;> rfl

theorem convert_eight {src dst : CvtType} {wide : Bool} (rm : RMode) (a : ℕ) (h : src.kind = .eight (eightFormat wide)) :
    convert src dst rm a = convertVal dst rm ((eightFormat wide).read a) := by
  simp only [convert, convertVal, h, eightRead_quiet, withFlags_zero]
  cases dst.kind <;> rfl

theorem ofInt_quiet (x e : ℤ) (s : Bool) : nvOf [FVal.ofInt x e s] = 0 := by
  rw [FVal.ofInt]; split_ifs <;> rfl

theorem convert_int {src dst : CvtType} {s : Bool} {w : ℕ} (rm : RMode) (a : ℕ) (h : src.kind = .int s w)
    (hd : ∀ s' w', dst.kind ≠ .int s' w') : convert src dst rm a = convertVal dst rm (valOfInt (readInt s w a)) := by
  simp only [convert, convertVal, h, valOfInt, ofInt_quiet, withFlags_zero]
  cases hk : dst.kind with
  | int s' w' => exact absurd hk (hd s' w')
  | _ => rfl

/-- A number rounded into each kind of destination. -/
def convertsNumber (dst : CvtType) (rm : RMode) (r : FRes) (x : ℚ) (neg : Bool) : Prop :=
  (∀ g, dst.kind = .bin g → (x = 0 → r = ⟨fpZero g neg, 0⟩) ∧ (x ≠ 0 → roundsTo g rm r x)) ∧
  (∀ wide, dst.kind = .eight (eightFormat wide) → (x = 0 → r = ⟨0, 0⟩) ∧ (x ≠ 0 → roundsToEight wide r x)) ∧
  ∀ s w, dst.kind = .int s w → roundsToInteger w (intMin s w) (intMax s w) rm r x

theorem convertVal_number (dst : CvtType) (rm : RMode) {v : FVal} {x : ℚ} {neg : Bool} (hp : FVal.proper v)
    (hv : finiteValue v = some x) (hn : x = 0 → v.neg? = neg) : convertsNumber dst rm (convertVal dst rm v) x neg := by
  have quiet : nvOf [v] = 0 := by rcases finite_cases hv with ⟨s, rfl, -⟩ | ⟨n, m, e, rfl, -⟩ <;> rfl
  refine ⟨fun g hg => ?_, fun wide hw => ?_, fun s w hi => ?_⟩
  · rw [convertVal, hg]
    simp only [quiet, withFlags_zero]
    refine ⟨fun h0 => ?_, roundVal_finite rm hv⟩
    subst h0
    rw [eq_zero_of_finiteValue hp hv, roundVal_zero, hn rfl]
  · rw [convertVal, hw]
    rcases finite_cases hv with ⟨s, rfl, rfl⟩ | ⟨n, m, e, rfl, rfl⟩
    · exact ⟨fun _ => rfl, fun h => absurd rfl h⟩
    · refine ⟨fun h => absurd h (num_ne_zero n hp e), fun _ => ?_⟩
      have := toFmt8_rounds wide n e hp
      convert this using 1
      cases n <;> simp [withSign]
  · rw [convertVal, hi]
    exact toInt_rounds s w rm hv

/-! ### The statement -/

/-- A magnitude with room in the format below and above is converted without a flag. -/
theorem roundNum_noFlags (f : Fmt) (rm : RMode) (neg : Bool) {m : ℕ} {e : ℤ} (hm : m ≠ 0) (lo : lastPlace f m e ≤ e)
    (hi : topOf m e ≤ f.bias) : (roundNum f rm neg m e).flags = 0 := by
  have happ : approximates (f.fracBits + 1) m e (m * (2 : ℝ) ^ e) := .inl rfl
  have isExact : (roundAt rm neg m e (lastPlace f m e)).2 = false := by simp [roundAt, lo]
  have value := (roundAt_exact rm neg (happ.standsFor (q := lastPlace f m e) (by
    have : topOf m e - f.fracBits ≤ lastPlace f m e := le_max_left _ _
    push_cast; omega))).mp isExact
  have fits : ¬((roundAt rm neg m e (lastPlace f m e)).1 ≠ 0 ∧
      (Nat.log2 (roundAt rm neg m e (lastPlace f m e)).1 : ℤ) + lastPlace f m e > f.bias) := fun ⟨h0, h⟩ => by
    have := (log2_add_lt_iff hm e (f.bias + 1)).mp (by rw [topOf] at hi; omega)
    have := (log2_add_lt_iff h0 (lastPlace f m e) (f.bias + 1)).mpr (by rwa [value])
    omega
  rw [roundNum_of_fits rm neg fits]
  simp [isExact]

/-- Every number of an 8-bit format is one of the larger formats. -/
theorem roundVal_eight_flags (g : Fmt) (rm : RMode) (wide : Bool) (a : ℕ) (h : eightNumber wide a ≠ none) :
    (roundVal g rm ((eightFormat wide).read a)).flags = 0 := by
  rcases eightRead_cases wide a with ⟨-, hn⟩ | ⟨hr, -⟩ | ⟨neg, m, e, hm, m16, lo, hi, small, hr, -⟩
  · exact absurd hn h
  · rw [hr, roundVal_zero]
  · have := g.fracBits_ge
    have := g.fracBits_lt_bias
    have log4 : Nat.log2 m < 4 := (Nat.log2_lt hm).mpr m16
    have log3 : m < 8 → Nat.log2 m < 3 := fun h => (Nat.log2_lt hm).mpr h
    rw [hr, roundVal, if_neg hm]
    refine roundNum_noFlags g rm neg hm ?_ ?_
    · rw [lastPlace, topOf, Fmt.emin]; omega
    · rw [topOf]; rcases small with h | h
      · omega
      · have := log3 h; omega

theorem readInt_eq (s : Bool) (w a : ℕ) :
    readInt s w a = if intMin s w < 0 then signedOf w (a % 2 ^ w) else (a % 2 ^ w : ℕ) := by
  have pos := Nat.two_pow_pos (w - 1)
  cases s
  · simp [readInt, intMin]
  · rw [if_pos (by simp only [intMin, if_true]; omega)]
    have mod : ((a % 2 ^ w : ℕ) : ℤ) % 2 ^ w = (a % 2 ^ w : ℕ) := by exact_mod_cast Nat.mod_mod a (2 ^ w)
    simp only [readInt, signedOf, Bool.true_and, decide_eq_true_eq, Nat.mod_mod, mod]
    split_ifs <;> omega

/-- What a NaN gives in each kind of destination. -/
theorem convertVal_nan (dst : CvtType) (rm : RMode) (s : Bool) :
    (∀ g, dst.kind = .bin g → convertVal dst rm (.nan s) = ⟨fpQuietNan g, if s then 16 else 0⟩) ∧
    (∀ g, dst.kind = .eight g → convertVal dst rm (.nan s) = ⟨0x80, if s then 16 else 0⟩) ∧
    ∀ t w, dst.kind = .int t w → convertVal dst rm (.nan s) = ⟨0, 16⟩ := by
  refine ⟨fun g h => ?_, fun g h => ?_, fun t w h => ?_⟩ <;> rw [convertVal, h]
  · rw [← canonNaN_eq]; cases s <;> simp [roundVal, nvOf_eq, FVal.isSNaN, FRes.withFlags, orFlags]
  · rfl
  · rfl

theorem convertVal_inf (dst : CvtType) (rm : RMode) (s : Bool) :
    (∀ g, dst.kind = .bin g → convertVal dst rm (.inf s) = ⟨fpInfinity g s, 0⟩) ∧
    (∀ g, dst.kind = .eight g → convertVal dst rm (.inf s) = ⟨if s then 0xFF else 0x7F, 5⟩) ∧
    ∀ t w, dst.kind = .int t w →
      convertVal dst rm (.inf s) = ⟨((if s then intMin t w else intMax t w) % 2 ^ w).toNat, 16⟩ := by
  refine ⟨fun g h => ?_, fun g h => ?_, fun t w h => ?_⟩ <;> rw [convertVal, h]
  · simp [roundVal_inf, nvOf_eq, FVal.isSNaN, withFlags_zero]
  · rfl
  · simp only [toInt, intBits_eq]; rfl

theorem conversions_follow_families : conversionsFollowTheirFamilies := by
  intro rm src dst a fmt eight integer r number
  have bin : ∀ t f, fmt t = some f → t.kind = .bin f := fun t f h => by cases t <;> cases h <;> rfl
  have eights : ∀ t wide, eight t = some wide → t.kind = .eight (eightFormat wide) := fun t f h => by cases t <;> cases h <;> rfl
  have ints : ∀ t w lo hi, integer t = some (w, lo, hi) → ∃ s, t.kind = .int s w ∧ lo = intMin s w ∧ hi = intMax s w :=
    fun t w lo hi h => by cases t <;> cases h <;> exact ⟨_, rfl, rfl, rfl⟩
  have numbers : ∀ x neg, convertsNumber dst rm r x neg → number x neg ∧
      ∀ w lo hi, integer dst = some (w, lo, hi) → roundsToInteger w lo hi rm r x := fun x neg ⟨h1, h2, h3⟩ =>
    ⟨⟨fun g hg => h1 g (bin _ _ hg), fun wide hw => h2 wide (eights _ _ hw)⟩, fun w lo hi h => by
      obtain ⟨s, hk, rfl, rfl⟩ := ints _ _ _ _ h
      exact h3 s w hk⟩
  have nans : ∀ s, r = convertVal dst rm (.nan s) →
      (∀ g, fmt dst = some g → r = ⟨fpQuietNan g, if s then 16 else 0⟩) ∧
      (∀ wide, eight dst = some wide → r = ⟨0x80, if s then 16 else 0⟩) ∧
      ∀ w lo hi, integer dst = some (w, lo, hi) → r = ⟨0, 16⟩ := fun s h => by
    obtain ⟨h1, h2, h3⟩ := convertVal_nan dst rm s
    rw [h]
    refine ⟨fun g hg => h1 g (bin _ _ hg), fun wide hw => h2 _ (eights _ _ hw), fun w lo hi hi' => ?_⟩
    obtain ⟨t, hk, -⟩ := ints _ _ _ _ hi'
    exact h3 t w hk
  refine ⟨fun f hf => ?_, fun wide hw => ?_, fun w lo hi hi' => ?_⟩
  · have value : r = convertVal dst rm (f.read a) := convert_bin rm a (bin _ _ hf)
    refine ⟨fun x hx => ?_, fun hn => ?_, fun hi => ?_⟩
    · rw [fpNumber_eq] at hx
      rw [fpSign_eq (isNaN_of_finite hx)]
      refine numbers x _ ?_
      rw [value]
      exact convertVal_number dst rm (read_proper f a) hx fun _ => rfl
    · rw [fpIsNan_eq] at hn
      rw [fpIsSignalling_eq]
      cases hv : f.read a with
      | nan s => rw [hv] at value; exact nans s value
      | _ => simp [hv, FVal.isNaN] at hn
    · rw [fpIsInf_eq] at hi
      cases hv : f.read a with
      | inf s =>
        rw [fpSign_eq (by rw [hv]; rfl), value, hv]
        obtain ⟨h1, h2, h3⟩ := convertVal_inf dst rm s
        refine ⟨fun g hg => h1 g (bin _ _ hg), fun wide hw => h2 _ (eights _ _ hw), fun w lo hi hi' => ?_⟩
        obtain ⟨t, hk, rfl, rfl⟩ := ints _ _ _ _ hi'
        exact h3 t w hk
      | _ => simp [hv, FVal.isInf] at hi
  · have value : r = convertVal dst rm ((eightFormat wide).read a) := convert_eight rm a (eights _ _ hw)
    refine ⟨fun x hx => ?_, fun hn => ?_⟩
    · have converted : convertsNumber dst rm r x false := by
        rw [value]
        rcases eightRead_cases wide a with ⟨-, hn⟩ | ⟨hr, hn⟩ | ⟨neg, m, e, hm, -, -, -, -, hr, hn⟩
        · rw [hn] at hx; cases hx
        · rw [hr]; exact convertVal_number dst rm trivial (by rw [← hx, hn]; rfl) fun _ => rfl
        · rw [hr]
          refine convertVal_number dst rm hm (hn.symm.trans hx) fun h0 => ?_
          rw [hn, h0, finiteValue, Option.some.injEq] at hx
          exact absurd hx (num_ne_zero neg hm e)
      obtain ⟨h1, h2⟩ := numbers x false converted
      refine ⟨h1, fun g hg => ?_, h2⟩
      simp only [value, convertVal, bin _ _ hg, eightRead_quiet, withFlags_zero]
      exact roundVal_eight_flags g rm wide a (by rw [hx]; simp)
    · rcases eightRead_cases wide a with ⟨hr, -⟩ | ⟨-, h⟩ | ⟨neg, m, e, -, -, -, -, -, -, h⟩
      · rw [hr] at value; exact nans false value
      · rw [h] at hn; cases hn
      · rw [h] at hn; cases hn
  · obtain ⟨s, hk, rfl, rfl⟩ := ints _ _ _ _ hi'
    rw [← readInt_eq s w a]
    refine ⟨?_, fun w' lo' hi' h => ?_⟩
    · by_cases hd : ∀ s' w', dst.kind ≠ .int s' w'
      · have value : r = convertVal dst rm (valOfInt (readInt s w a)) := convert_int rm a hk hd
        refine (numbers _ false ?_).1
        rw [value]
        refine convertVal_number dst rm (ofInt_proper _ _ _) (by rw [valOfInt, finiteValue_ofInt]; simp) fun h0 => ?_
        have : readInt s w a = 0 := by exact_mod_cast h0
        rw [this]; rfl
      · simp only [not_forall, not_not] at hd
        obtain ⟨s', w', hd⟩ := hd
        exact ⟨fun g hg => absurd (bin _ _ hg) (by rw [hd]; nofun), fun g hg => absurd (eights _ _ hg) (by rw [hd]; nofun)⟩
    · obtain ⟨t, ht, rfl, rfl⟩ := ints _ _ _ _ h
      simp only [r, convert, hk, ht, intBits_eq]; rfl

end Sys2Proof.Machine
end

