-- ==== Sys2Proof/Proofs/Seeds.lean ====
section
/-!
PROOF. Seed words (R84, R85, R224): the integer that the model forms is the seed rounded to 12 bits, since an odd divisor leaves
no tie.
-/
namespace Sys2Proof.Machine

/-- A number that lies strictly between `N` and `N + 1`, `N` of 13 bits, is rounded to 12 bits by halving `N + 1`. -/
theorem isRounding_half {N : ℕ} {Z : ℝ} (k : ℤ) (lo : 2 ^ 12 ≤ N) (hi : N < 2 ^ 13) (h : (N : ℝ) < Z) (h' : Z < N + 1) :
    isRounding .rne (precise 12) (preciseEven 12) (Z * 2 ^ (k - 1)) (((N + 1) / 2 : ℕ) * 2 ^ k) := by
  have happ : approximates 12 (2 * N + 1) (k - 2) (Z * 2 ^ (k - 1)) := by
    have := approximates_of_floor (whole := False) (k - 1) lo h.le h' (by simpa using h.ne')
    rwa [if_neg not_false, show k - 1 - 1 = k - 2 by ring] at this
  have log : Nat.log2 (2 * N + 1) = 13 := (Nat.log2_eq_iff (by omega)).mpr (by omega)
  obtain ⟨-, -, r⟩ := roundAt_isRounding_precise (rm := .rne) (q := k) false (by norm_num) (by omega) happ
    (by rw [topOf, log]; push_cast; ring)
  have value : (roundAt .rne false (2 * N + 1) (k - 2) k).1 = (N + 1) / 2 := by
    have shift : (k - (k - 2)).toNat = 2 := by omega
    simp only [roundAt, show ¬k ≤ k - 2 by omega, if_false, shift, roundInc, Bool.or_eq_true, decide_eq_true_eq, Bool.and_eq_true,
      beq_iff_eq]
    split_ifs <;> omega
  rw [value] at r
  exact r

/-! ## The integers of a seed -/

/-- An odd number above one divides no power of two. -/
theorem not_odd_mul_eq_two_pow {d a j : ℕ} (hd : d % 2 = 1) (h1 : 1 < d) : a * d ≠ 2 ^ j := fun h => by
  obtain ⟨i, -, rfl⟩ := (Nat.dvd_prime_pow Nat.prime_two).mp ⟨a, by rw [← h, Nat.mul_comm]⟩
  cases i with
  | zero => simp at h1
  | succ i => rw [pow_succ] at hd; omega

/-- The reciprocal of the middle of an interval. -/
theorem reciprocal_between {d : ℕ} (hd : d % 2 = 1) (lo : 2049 ≤ d) (hi : d ≤ 4095) :
    let N := 8192 * 2048 / d
    2 ^ 12 ≤ N ∧ N < 2 ^ 13 ∧ (N : ℝ) < 2 ^ 24 / d ∧ (2 : ℝ) ^ 24 / d < N + 1 := by
  intro N
  obtain ⟨h1, h2, h3⟩ := natDiv_floor (2 ^ 24) (d := d) (by omega)
  have cast : ((2 ^ 24 : ℕ) : ℝ) = 2 ^ 24 := by norm_num
  rw [cast] at h1 h2 h3
  refine ⟨(Nat.le_div_iff_mul_le (by omega)).mpr (by omega), (Nat.div_lt_iff_lt_mul (by omega)).mpr (by omega),
    lt_of_le_of_ne h1 fun h => ?_, h2⟩
  have := Nat.div_mul_cancel (Nat.dvd_of_mod_eq_zero (h3.mpr h.symm))
  exact not_odd_mul_eq_two_pow hd (by omega) this

/-- The root of a power of two over the middle of an interval. -/
theorem root_between {d j n : ℕ} (hd : d % 2 = 1) (hd1 : 1 < d) (hn : n = 2 ^ j) (lo : 2 ^ 24 * d ≤ n) (hi : n < 2 ^ 26 * d) :
    let N := isqrt (n / d)
    2 ^ 12 ≤ N ∧ N < 2 ^ 13 ∧ (N : ℝ) < Real.sqrt (2 ^ j / d) ∧ Real.sqrt (2 ^ j / d) < N + 1 := by
  subst hn
  intro N
  obtain ⟨h1, h2, -⟩ := natDiv_floor (2 ^ j) (d := d) (by omega)
  have d0 : (0 : ℝ) < d := Nat.cast_pos.mpr (by omega)
  have root : N = Nat.sqrt (2 ^ j / d) := isqrt_eq _
  have below : N * N ≤ 2 ^ j / d := by rw [root]; exact Nat.sqrt_le _
  have above : 2 ^ j / d + 1 ≤ (N + 1) * (N + 1) := by rw [root]; exact Nat.lt_succ_sqrt _
  push_cast at h1 h2
  refine ⟨?_, ?_, (Real.lt_sqrt (by positivity)).mpr (lt_of_le_of_ne ?_ fun h => ?_), (Real.sqrt_lt' (by positivity)).mpr ?_⟩
  · rw [root, Nat.le_sqrt]; exact (Nat.le_div_iff_mul_le (by omega)).mpr lo
  · rw [root, Nat.sqrt_lt]; exact (Nat.div_lt_iff_lt_mul (by omega)).mpr hi
  · rw [sq]
    exact le_trans (by exact_mod_cast below) h1
  · rw [eq_div_iff d0.ne'] at h
    exact not_odd_mul_eq_two_pow (a := N ^ 2) (j := j) hd (by omega) (by exact_mod_cast h)
  · rw [sq]
    exact h2.trans_le (by exact_mod_cast above)

/-! ## The index -/

/-- The index is the integer part of the first ten bits of the fraction. -/
theorem seedIndex_eq {m : ℕ} (hm : m ≠ 0) :
    seedIndex m < 1024 ∧ ((seedIndex m : ℕ) : ℤ) = ⌊((m : ℚ) / 2 ^ Nat.log2 m - 1) * 1024⌋ := by
  have h1 : 2 ^ Nat.log2 m ≤ m := Nat.log2_self_le hm
  have h2 : m < 2 ^ (Nat.log2 m + 1) := Nat.lt_log2_self
  refine ⟨Nat.mod_lt _ (by norm_num), ?_⟩
  set l := Nat.log2 m with hl
  have quotient : (if l ≤ 10 then m * 2 ^ (10 - l) else m / 2 ^ (l - 10)) = m * 1024 / 2 ^ l := by
    split_ifs with h
    · have : m * 1024 = m * 2 ^ (10 - l) * 2 ^ l := by rw [mul_assoc, ← pow_add, show 10 - l + l = 10 by omega]; rfl
      rw [this, Nat.mul_div_cancel _ (Nat.two_pow_pos l)]
    · have : 2 ^ l = 2 ^ (l - 10) * 1024 := by rw [show 1024 = 2 ^ 10 by rfl, ← pow_add, show l - 10 + 10 = l by omega]
      rw [this, Nat.mul_div_mul_right _ _ (by norm_num)]
  have lo : 1024 ≤ m * 1024 / 2 ^ l := (Nat.le_div_iff_mul_le (Nat.two_pow_pos l)).mpr (by omega)
  have hi : m * 1024 / 2 ^ l < 2048 := (Nat.div_lt_iff_lt_mul (Nat.two_pow_pos l)).mpr (by rw [pow_succ] at h2; omega)
  have real : ((m : ℚ) / 2 ^ l - 1) * 1024 = ((m * 1024 : ℕ) : ℚ) / (2 ^ l : ℕ) - (1024 : ℕ) := by push_cast; ring
  rw [real, Int.floor_sub_natCast, Rat.floor_natCast_div_natCast, seedIndex, ← hl, quotient]
  omega

/-! ## The seed -/

theorem seedScale (t : ℤ) : (2 : ℝ) ^ (-t - 12 - 1) = 2 ^ (-t) / 2 ^ 13 := by
  rw [show -t - 12 - 1 = -t - (13 : ℕ) by push_cast; ring, zpow_sub₀ two_ne_zero, zpow_natCast]

/-- The seed of a reciprocal square root. -/
theorem rootSeed_rounds {d j n : ℕ} {R : ℝ} (t : ℤ) (hd : d % 2 = 1) (hd1 : 1 < d) (hn : n = 2 ^ j) (lo : 2 ^ 24 * d ≤ n)
    (hi : n < 2 ^ 26 * d) (hR : (2 : ℝ) ^ j / d = (2 ^ 13) ^ 2 / R) :
    (isqrt (n / d) + 1) / 2 ≠ 0 ∧ isRounding .rne (precise 12) (preciseEven 12) ((2 : ℝ) ^ (-t) / Real.sqrt R)
      (((isqrt (n / d) + 1) / 2 : ℕ) * 2 ^ (-t - 12)) := by
  obtain ⟨lo, hi, h, h'⟩ := root_between hd hd1 hn lo hi
  have r := isRounding_half (-t - 12) lo hi h h'
  rw [hR, Real.sqrt_div (by positivity), Real.sqrt_sq (by positivity), seedScale, div_mul_div_comm, mul_comm ((2 : ℝ) ^ 13),
    mul_div_mul_right _ _ (by positivity : (2 : ℝ) ^ 13 ≠ 0)] at r
  exact ⟨by omega, r⟩

/-- The seed of a magnitude, and what it is the rounding of. -/
theorem seedNum_rounds (root : Bool) {m : ℕ} (hm : m ≠ 0) (e : ℤ) :
    let top := topOf m e
    let middle : ℝ := 1 + (2 * (seedIndex m : ℤ) + 1 : ℤ) / 2048
    (seedNum root m e).1 ≠ 0 ∧
      isRounding .rne (precise 12) (preciseEven 12)
        (if root then (if top % 2 = 0 then (2 : ℝ) ^ (-(top / 2)) / Real.sqrt middle
            else (2 : ℝ) ^ (-((top - 1) / 2)) / Real.sqrt (2 * middle))
          else (2 : ℝ) ^ (-top) / middle) ((seedNum root m e).1 * 2 ^ (seedNum root m e).2) := by
  intro top middle
  have index := (seedIndex_eq hm).1
  set d := 2049 + 2 * seedIndex m with hd
  have middle_eq : middle = d / 2048 := by simp only [middle, hd]; push_cast; ring
  have d0 : (0 : ℝ) < d := Nat.cast_pos.mpr (by omega)
  cases root
  · obtain ⟨lo, hi, h, h'⟩ := reciprocal_between (d := d) (by omega) (by omega) (by omega)
    have value : seedNum false m e = ((8192 * 2048 / d + 1) / 2, -top - 12) := rfl
    have target : (2 : ℝ) ^ (-top) / middle = 2 ^ 24 / d * 2 ^ (-top - 12 - 1) := by
      rw [seedScale, middle_eq]; field_simp; norm_num
    have := isRounding_half (-top - 12) lo hi h h'
    rw [value]
    rw [← target] at this
    exact ⟨by dsimp only; omega, this⟩
  · by_cases even : top % 2 = 0
    · have value : seedNum true m e = ((isqrt (0x4000000 * 2048 / d) + 1) / 2, -(top / 2) - 12) := if_pos even
      rw [value, if_pos rfl, if_pos even]
      exact rootSeed_rounds (j := 37) (top / 2) (by omega) (by omega) rfl (by omega) (by omega)
        (by rw [middle_eq]; field_simp; norm_num)
    · have value : seedNum true m e = ((isqrt (0x4000000 * 1024 / d) + 1) / 2, -((top - 1) / 2) - 12) := if_neg even
      rw [value, if_pos rfl, if_neg even]
      exact rootSeed_rounds (j := 36) ((top - 1) / 2) (by omega) (by omega) rfl (by omega) (by omega)
        (by rw [middle_eq]; field_simp; norm_num)

/-- The special operands, and the rest. -/
theorem seeds_follow_table : seedsFollowTheTable := by
  intro f root a r neg
  rcases read_cases f a with ⟨g, h, hn, hi, hx, hg⟩ | ⟨h, hn, hi, hx⟩ | ⟨h, hn, hi, hx⟩ | ⟨m, e, hm, -, -, h, hn, hi, hx⟩ <;>
    simp only [r, fSeed, h, hn, hi, hx, ← canonNaN_eq, Bool.false_eq_true, false_implies, true_and, reduceCtorEq, implies_true, and_true,
      forall_const, Option.some.injEq]
  · rw [hg]; rfl
  · simp only [roundVal_zero]; rfl
  · rintro x rfl
    simp only [roundVal_inf, lt_irrefl, false_and, or_self, false_implies, and_true, forall_const]
    simp only [FRes.withFlags, orFlags, flagDZ, Nat.zero_or]; rfl
  · rintro x rfl
    have pos : (0 : ℚ) < m * 2 ^ e := mul_pos (Nat.cast_pos.mpr (Nat.pos_of_ne_zero hm)) (by positivity)
    have sign : (if (fpFields f a).1 then -1 else 1) * (m : ℚ) * 2 ^ e < 0 ↔ (fpFields f a).1 = true := by
      cases (fpFields f a).1 <;> simp [pos, pos.le]
    refine ⟨fun h0 => absurd h0 (num_ne_zero _ hm e), fun hlt hr => ?_, fun hs => ?_⟩
    · rw [if_pos (by rw [hr, sign.mp hlt]; rfl)]; rfl
    · have kept : (root && (fpFields f a).1) = false := by
        rcases hs with hs | ⟨-, hr⟩
        · rw [Bool.eq_false_iff.mpr fun hneg => hs.not_gt (sign.mpr hneg), Bool.and_false]
        · rw [hr, Bool.false_and]
      rw [kept, if_neg Bool.false_ne_true]
      obtain ⟨hn, hu⟩ := seedNum_rounds root hm e
      have lo : ((2 ^ Nat.log2 m : ℕ) : ℚ) ≤ m := by exact_mod_cast Nat.log2_self_le hm
      have hi : (m : ℚ) < (2 ^ (Nat.log2 m + 1) : ℕ) := by exact_mod_cast Nat.lt_log2_self
      have l0 : (0 : ℚ) < 2 ^ Nat.log2 m := by positivity
      push_cast [pow_succ] at lo hi
      rw [(seedIndex_eq hm).2] at hu
      refine ⟨topOf m e, m / 2 ^ Nat.log2 m, _, (one_le_div₀ l0).mpr lo, (div_lt_iff₀ l0).mpr (by linarith), ?_, hu, ?_⟩
      · have : |(if (fpFields f a).1 then -1 else 1) * (m : ℚ) * 2 ^ e| = m * 2 ^ e := by
          cases (fpFields f a).1 <;> simp [abs_of_pos pos]
        rw [this, topOf, zpow_add₀ two_ne_zero, zpow_natCast]; field_simp
      · have rounded := roundVal_finite (f := f) .rne (v := .num (fpFields f a).1 (seedNum root m e).1 (seedNum root m e).2) rfl
          (num_ne_zero _ hn _)
        convert rounded using 1
        simp only [sign]
        cases (fpFields f a).1 <;> simp

end Sys2Proof.Machine
end

