-- ==== Sys2Proof/Proofs/Transcendentals.lean ====
section
/-!
PROOF. FTRANS (R86, R225): the table of the special operands, the two functions rounded once, and the exact results.
-/
namespace Sys2Proof.Machine

/-! ## Reciprocal and reciprocal square root -/

/-- The integer that `FRSQ` forms stands for the reciprocal root of the magnitude. -/
theorem rsq_approximates (p : ℕ) {m : ℕ} (hm : m ≠ 0) (e : ℤ) :
    let m1 := if e % 2 = 0 then m else 2 * m
    let e1 := if e % 2 = 0 then e else e - 1
    let k := p + 3 + Nat.log2 m1
    let s := isqrt (2 ^ (2 * k) / m1)
    s ≠ 0 ∧ approximates p (2 * s + (if s * s * m1 = 2 ^ (2 * k) then 0 else 1)) (-(e1 / 2) - k - 1)
      (1 / Real.sqrt (m * (2 : ℝ) ^ e)) := by
  intro m1 e1 k s
  have m1_pos : 0 < m1 := by simp only [m1]; split_ifs <;> omega
  have r0 : (0 : ℝ) < m1 := Nat.cast_pos.mpr m1_pos
  obtain ⟨lo, hi, -⟩ := natDiv_floor (2 ^ (2 * k)) m1_pos.ne'
  have root : s = Nat.sqrt (2 ^ (2 * k) / m1) := isqrt_eq _
  have below : s * s ≤ 2 ^ (2 * k) / m1 := by rw [root]; exact Nat.sqrt_le _
  have above : 2 ^ (2 * k) / m1 + 1 ≤ (s + 1) * (s + 1) := by rw [root]; exact Nat.lt_succ_sqrt _
  set Q : ℝ := ((2 ^ (2 * k) : ℕ) : ℝ) / m1 with hQ
  have large : 2 ^ p ≤ s := by
    rw [root, Nat.le_sqrt, Nat.le_div_iff_mul_le m1_pos]
    calc 2 ^ p * 2 ^ p * m1 ≤ 2 ^ p * 2 ^ p * 2 ^ (Nat.log2 m1 + 1) := Nat.mul_le_mul_left _ Nat.lt_log2_self.le
      _ = 2 ^ (p + p + (Nat.log2 m1 + 1)) := by rw [← pow_add, ← pow_add]
      _ ≤ 2 ^ (2 * k) := Nat.pow_le_pow_right (by norm_num) (by omega)
  have value : 1 / Real.sqrt (m * (2 : ℝ) ^ e) = Real.sqrt Q * 2 ^ (-(e1 / 2) - k) := by
    have square : ((2 ^ (2 * k) : ℕ) : ℝ) = (2 ^ k) ^ 2 := by push_cast; rw [← pow_mul, Nat.mul_comm]
    rw [evenExponent m e]
    change 1 / Real.sqrt ((m1 : ℝ) * 2 ^ (2 * (e1 / 2))) = _
    rw [sqrt_evenPower, hQ, square, Real.sqrt_div (by positivity), Real.sqrt_sq (by positivity), zpow_sub₀ two_ne_zero, zpow_neg,
      zpow_natCast]
    field_simp
  have whole : s * s * m1 = 2 ^ (2 * k) ↔ Real.sqrt Q = s := by
    rw [Real.sqrt_eq_iff_mul_self_eq (by positivity) (by positivity), hQ, div_eq_iff r0.ne']
    exact_mod_cast eq_comm
  rw [value]
  refine ⟨by have := Nat.two_pow_pos p; omega, approximates_of_floor _ large ?_ ?_ whole⟩
  · exact Real.le_sqrt_of_sq_le (by rw [sq]; exact le_trans (by exact_mod_cast below) lo)
  · exact (Real.sqrt_lt' (by positivity)).mpr (by rw [sq]; exact hi.trans_le (by exact_mod_cast above))

/-! ## Powers of two -/

theorem topOf_one (n : ℤ) : topOf 1 n = n := by rw [topOf, show Nat.log2 1 = 0 from rfl]; simp

theorem roundAt_one (n : ℤ) (fb : ℕ) : roundAt .rne false 1 n (n - fb) = (2 ^ fb, false) := by simp [roundAt]

/-- Every power of two above the greatest magnitude rounds alike. -/
theorem roundNum_power_high (f : Fmt) {n : ℤ} (hn : 1023 < n) : roundNum f .rne false 1 n = ⟨fpInfinity f false, 5⟩ := by
  have limits : (f.bias : ℤ) ≤ 1023 ∧ f.emin ≤ 0 ∧ f.fracBits ≤ 52 := by cases f <;> decide
  have last : lastPlace f 1 n = n - f.fracBits := by rw [lastPlace, topOf_one]; omega
  rw [roundNum_of_overflow .rne false (by
    simp only [last, roundAt_one, Nat.log2_two_pow]
    exact ⟨(Nat.two_pow_pos _).ne', by omega⟩)]
  simp

/-- Every power of two below half the least subnormal rounds alike. -/
theorem roundNum_power_low (f : Fmt) {n : ℤ} (hn : n < -1100) : roundNum f .rne false 1 n = ⟨0, 3⟩ := by
  have limits : -1074 ≤ f.emin := by cases f <;> decide
  have last : lastPlace f 1 n = f.emin := by rw [lastPlace, topOf_one]; omega
  have rounded : roundAt .rne false 1 n f.emin = (0, true) := by
    have large : 2 ^ 2 ≤ 2 ^ (f.emin - n).toNat := Nat.pow_le_pow_right (by norm_num) (by omega)
    have small : 1 < 2 ^ (f.emin - n).toNat := by omega
    simp only [roundAt, show ¬f.emin ≤ n by omega, if_false, Nat.div_eq_of_lt small, Nat.mod_eq_of_lt small]
    simp [roundInc]; omega
  have tiny : tinyAfter .rne false 1 n (f.fracBits + 1) (f.emin + f.fracBits) = true := by
    have place : (Nat.log2 1 : ℤ) + n - (f.fracBits + 1 - 1 : ℕ) = n - f.fracBits := by
      rw [show Nat.log2 1 = 0 from rfl, Nat.add_sub_cancel]; simp
    simp only [tinyAfter, place, roundAt_one, Nat.log2_two_pow, decide_eq_true_eq]
    omega
  rw [roundNum_of_fits .rne false (by simp [last, rounded])]
  simp [last, rounded, tiny]

/-- So the far powers of two that `FEXP2` uses round as every other beyond the exponents. -/
theorem power_rounds (f : Fmt) {n n' : ℤ} (h : n' = n ∨ 1023 < n ∧ 1023 < n' ∨ n < -1100 ∧ n' < -1100) :
    roundsTo f .rne (roundVal f .rne (.num false 1 n')) ((2 : ℝ) ^ n) := by
  have same : roundVal f .rne (.num false 1 n') = roundVal f .rne (.num false 1 n) := by
    simp only [roundVal, one_ne_zero, if_false]
    rcases h with rfl | ⟨h, h'⟩ | ⟨h, h'⟩
    · rfl
    · rw [roundNum_power_high f h, roundNum_power_high f h']
    · rw [roundNum_power_low f h, roundNum_power_low f h']
  have rounded := roundVal_finite (f := f) .rne (v := .num false 1 n) rfl (num_ne_zero false one_ne_zero n)
  rw [same]
  convert rounded using 1
  simp

/-- The integer that a magnitude is. -/
theorem integer_magnitude {m N : ℕ} {e : ℤ} (h : (m : ℚ) * 2 ^ e = N) :
    (0 ≤ e ∨ m % 2 ^ (-e).toNat = 0) ∧ (if 0 ≤ e then m * 2 ^ e.toNat else m / 2 ^ (-e).toNat) = N := by
  rcases le_or_gt 0 e with he | he
  · obtain ⟨k, rfl⟩ := Int.eq_ofNat_of_zero_le he
    refine ⟨.inl he, ?_⟩
    rw [if_pos he]
    exact_mod_cast h
  · obtain ⟨k, hk⟩ : ∃ k : ℕ, e = -k := ⟨(-e).toNat, by omega⟩
    have whole : m = N * 2 ^ (-e).toNat := by
      rw [hk, neg_neg, Int.toNat_natCast]
      rw [hk, zpow_neg, zpow_natCast, ← div_eq_mul_inv, div_eq_iff (by positivity)] at h
      exact_mod_cast h
    rw [if_neg he.not_ge]
    subst whole
    have d0 : 0 < 2 ^ (-e).toNat := Nat.two_pow_pos _
    exact ⟨.inr (Nat.mul_mod_left _ _), Nat.mul_div_cancel _ d0⟩

/-- A power of two of an integer. -/
theorem fExp2_integer {f : Fmt} {a : ℕ} {neg : Bool} {m : ℕ} {e n : ℤ} (hm : m ≠ 0) (h : f.read a = .num neg m e)
    (hn : ((if neg then -1 else 1) * (m : ℚ) * 2 ^ e) = n) : roundsTo f .rne (fExp2 f a) ((2 : ℝ) ^ n) := by
  have magnitude : (m : ℚ) * 2 ^ e = n.natAbs ∧ n = signed neg n.natAbs := by
    have pos : (0 : ℚ) < m * 2 ^ e := mul_pos (Nat.cast_pos.mpr (Nat.pos_of_ne_zero hm)) (by positivity)
    cases neg
    · have : (0 : ℚ) < n := by rw [← hn]; simpa using pos
      have n0 : 0 < n := by exact_mod_cast this
      rw [Nat.cast_natAbs, abs_of_pos n0]
      exact ⟨by simpa using hn, by change n = (n.natAbs : ℤ); omega⟩
    · have : (n : ℚ) < 0 := by rw [← hn]; simpa using pos
      have n0 : n < 0 := by exact_mod_cast this
      rw [Nat.cast_natAbs, abs_of_neg n0]
      exact ⟨by push_cast; rw [← hn]; simp, by change n = -(n.natAbs : ℤ); omega⟩
  obtain ⟨value, sign⟩ := magnitude
  have n1 : 1 ≤ n.natAbs := by
    rcases Nat.eq_zero_or_pos n.natAbs with h0 | h0
    · rw [h0, Nat.cast_zero] at value
      exact absurd value (mul_ne_zero (Nat.cast_ne_zero.mpr hm) (zpow_ne_zero _ two_ne_zero))
    · exact h0
  have real : (m : ℝ) * 2 ^ e = n.natAbs := by
    have := congrArg (Rat.cast (K := ℝ)) value
    push_cast only [Rat.cast_mul, Rat.cast_natCast, Rat.cast_zpow, Rat.cast_ofNat] at this
    exact this
  have top0 : ¬(Nat.log2 m : ℤ) + e < 0 := fun hlt => by
    have := (log2_add_lt_iff hm e 0).mp hlt
    rw [real, zpow_zero] at this
    have : n.natAbs < 1 := by exact_mod_cast this
    omega
  have top15 : 14 < (Nat.log2 m : ℤ) + e → 2 ^ 15 ≤ n.natAbs := fun hlt => by
    by_contra hc
    have small : (m : ℝ) * 2 ^ e < 2 ^ (15 : ℤ) := by rw [real]; exact_mod_cast not_le.mp hc
    have := (log2_add_lt_iff hm e 15).mpr small
    omega
  obtain ⟨whole, quotient⟩ := integer_magnitude value
  simp only [fExp2, h]
  by_cases far : 14 < (Nat.log2 m : ℤ) + e
  · have large := top15 far
    rw [if_pos far]
    refine power_rounds f (.inr ?_)
    cases neg
    · have : n = (n.natAbs : ℤ) := sign
      exact .inl ⟨by omega, by decide⟩
    · have : n = -(n.natAbs : ℤ) := sign
      exact .inr ⟨by omega, by decide⟩
  · rw [if_neg far, if_neg (by omega), if_pos whole, quotient, ← sign]
    exact power_rounds f (.inl rfl)

/-- The logarithm of a power of two. -/
theorem fLog2_power {f : Fmt} {a m : ℕ} {e n : ℤ} (h : f.read a = .num false m e) (hn : (m : ℚ) * 2 ^ e = 2 ^ n) :
    fLog2 f a = roundVal f .rne (valOfInt n) := by
  have le : e ≤ n := by
    by_contra hc
    have small : (m : ℚ) * 2 ^ e < 1 * 2 ^ e := by
      rw [hn, one_mul]
      exact zpow_lt_zpow_right₀ one_lt_two (not_le.mp hc)
    have : m < 1 := by exact_mod_cast lt_of_mul_lt_mul_right small (by positivity)
    have : m = 0 := by omega
    rw [this, Nat.cast_zero, zero_mul] at hn
    exact absurd hn (zpow_ne_zero _ two_ne_zero).symm
  obtain ⟨k, rfl⟩ : ∃ k : ℕ, n = e + k := ⟨(n - e).toNat, by omega⟩
  have power : m = 2 ^ k := by
    rw [zpow_add₀ two_ne_zero, mul_comm, zpow_natCast] at hn
    exact_mod_cast mul_left_cancel₀ (zpow_ne_zero e two_ne_zero) hn
  simp only [fLog2, h, power, Nat.log2_two_pow, if_true]

/-! ## The arc tangent of an infinity -/

/-- Half of π as an integer with a sticky bit. -/
theorem halfPi_approximates (f : Fmt) : approximates (f.fracBits + 1) 226375608064910089 (-57) (Real.pi / 2) := by
  have lo := Real.pi_gt_d20
  have hi := Real.pi_lt_d20
  refine .inr ⟨by norm_num, ?_, ?_, ?_⟩
  · cases f <;> norm_num [Fmt.fracBits]
  · norm_num; linarith
  · norm_num; linarith

/-- The approximation of `FATAN` rounds as that integer. -/
theorem fAtan_inf_eq (f : Fmt) (neg : Bool) :
    roundVal f .rne (stickyVal 160 ((if neg then -1 else 1) * (fixPi 160 / 2)) 0) =
      roundVal f .rne (.num neg 226375608064910089 (-57)) := by
  cases f <;> cases neg <;> decide +kernel

theorem atan_infinity (f : Fmt) (neg : Bool) :
    roundsTo f .rne (roundVal f .rne (stickyVal 160 ((if neg then -1 else 1) * (fixPi 160 / 2)) 0))
      (if neg then -(Real.pi / 2) else Real.pi / 2) := by
  rw [fAtan_inf_eq]
  exact roundVal_roundsTo .rne neg (by norm_num) (halfPi_approximates f)

/-! ## The table -/

theorem roundVal_one (f : Fmt) (neg : Bool) : roundsTo f .rne (roundVal f .rne (.num neg 1 0)) (if neg then -1 else 1) := by
  have := roundVal_finite (f := f) .rne (v := .num neg 1 0) rfl (num_ne_zero neg one_ne_zero 0)
  convert this using 1
  cases neg <;> simp

theorem roundVal_inf_dz (f : Fmt) (neg : Bool) : (roundVal f .rne (.inf neg)).withFlags flagDZ = ⟨fpInfinity f neg, 8⟩ := by
  simp only [roundVal_inf, FRes.withFlags, orFlags, flagDZ, Nat.zero_or]

theorem fRsq_positive {f : Fmt} {a m : ℕ} {e : ℤ} (hm : m ≠ 0) (h : f.read a = .num false m e) :
    roundsTo f .rne (fRsq f a) (1 / Real.sqrt (m * (2 : ℝ) ^ e)) := by
  obtain ⟨s0, ha⟩ := rsq_approximates (f.fracBits + 1) hm e
  simp only [show f.fracBits + 1 + 3 = f.fracBits + 4 from rfl] at s0 ha
  simp only [fRsq, h]
  exact roundVal_roundsTo .rne false (by omega) ha

theorem fRcp_number {f : Fmt} {a : ℕ} {neg : Bool} {m : ℕ} {e : ℤ} (hm : m ≠ 0) (h : f.read a = .num neg m e) :
    roundsTo f .rne (fRcp f a) (withSign neg (1 / (m * (2 : ℝ) ^ e))) := by
  obtain ⟨q0, ha⟩ := divNum_approximates (f.fracBits + 1) one_ne_zero hm 0 e
  simp only [Nat.cast_one, zpow_zero, one_mul] at ha
  simp only [fRcp, h]
  exact roundVal_roundsTo .rne neg q0 ha

theorem transcendentals_follow_table : transcendentalsFollowTheTable := by
  intro f a neg one nan zero inf
  rcases read_cases f a with ⟨g, h, hn, hi, hx, hg⟩ | ⟨h, hn, hi, hx⟩ | ⟨h, hn, hi, hx⟩ | ⟨m, e, hm, -, -, h, hn, hi, hx⟩ <;>
    simp only [hn, hi, hx, Bool.false_eq_true, false_implies, true_and, reduceCtorEq, implies_true, and_true,
      forall_const, Option.some.injEq]
  · rw [hg, ← canonNaN_eq]
    simp only [List.forall_mem_cons, fExp2, fLog2, fSin, fCos, fTanh, fAtan, fRsq, fRcp, h]
    exact ⟨rfl, rfl, rfl, rfl, rfl, rfl, rfl, rfl, by simp⟩
  · simp only [fExp2, fLog2, fSin, fCos, fTanh, fAtan, fRsq, fRcp, h, roundVal_zero]
    have atan := atan_infinity f neg
    have tanh := roundVal_one f neg
    have invalid_eq : invalid f = nan := by simp only [nan, ← canonNaN_eq]; rfl
    rw [invalid_eq]
    change _ ∧ _ ∧ _ ∧ _ ∧ _ ∧ _ ∧ _ ∧ _
    cases hneg : (fpFields f a).1 <;> simp only [neg, hneg] at atan tanh ⊢
    · exact ⟨roundVal_inf .., roundVal_inf .., trivial, trivial, tanh, atan, rfl, rfl⟩
    · exact ⟨rfl, (if_pos trivial).symm, trivial, trivial, tanh, atan, (if_pos trivial).symm, rfl⟩
  · rintro x rfl
    refine ⟨fun _ => ?_, fun hlt => absurd hlt (lt_irrefl 0), fun hlt => absurd hlt (lt_irrefl 0), fun h0 => absurd rfl h0,
      fun n _ h0 => absurd rfl h0, fun n h0 => absurd h0.symm (zpow_ne_zero n two_ne_zero)⟩
    simp only [fExp2, fLog2, fSin, fCos, fTanh, fAtan, fRsq, fRcp, h, roundVal_zero, roundVal_inf_dz]
    exact ⟨roundVal_one f false, trivial, rfl, roundVal_one f false, rfl, rfl, rfl, rfl⟩
  · rintro x rfl
    have pos : (0 : ℚ) < m * 2 ^ e := mul_pos (Nat.cast_pos.mpr (Nat.pos_of_ne_zero hm)) (by positivity)
    have sign : (if (fpFields f a).1 then -1 else 1) * (m : ℚ) * 2 ^ e < 0 ↔ (fpFields f a).1 = true := by
      cases (fpFields f a).1 <;> simp [pos, pos.le]
    refine ⟨fun h0 => absurd h0 (num_ne_zero _ hm e), fun hlt => ?_, fun hgt => ?_, fun _ => ?_, fun n hn _ => fExp2_integer hm h hn,
      fun n hn => ?_⟩
    · have hneg := sign.mp hlt
      simp only [fLog2, fRsq, h, hneg, nan, ← canonNaN_eq]
      exact ⟨rfl, rfl⟩
    · have hpos : (fpFields f a).1 = false := Bool.eq_false_iff.mpr fun hneg => hgt.not_gt (sign.mpr hneg)
      have := fRsq_positive hm (by rw [h, hpos])
      convert this using 2
      simp [hpos]
    · have := fRcp_number hm h
      convert this using 1
      cases (fpFields f a).1 <;> simp [withSign, div_neg]
    · have hpos : (fpFields f a).1 = false := Bool.eq_false_iff.mpr fun hneg => by
        have := sign.mpr hneg
        rw [hn] at this
        exact this.not_gt (by positivity)
      simp only [hpos, Bool.false_eq_true, if_false, one_mul] at hn
      rw [fLog2_power (by rw [h, hpos]) hn]
      refine ⟨fun h0 => by rw [h0]; exact roundVal_zero .., fun h0 => ?_⟩
      have := roundVal_finite (f := f) .rne (finiteValue_ofInt n 0 false) (by simpa using h0)
      simpa [valOfInt] using this

/-- Settles O60: the values of roots, compares, conversions, seeds and FTRANS, each family by its own lemma. -/
theorem fpValuesFollowTheRules : Obligations.FpValuesFollowTheRules :=
  ⟨squareRoots_rounded_once, comparisons_follow_order, conversions_follow_families, seeds_follow_table, transcendentals_follow_table⟩

end Sys2Proof.Machine
end

