-- ==== Sys2Proof/Proofs/EngineSums.lean ====
section
/-!
PROOF. The sums of matrix elements (R87, R88).
-/
namespace Sys2Proof.Machine

theorem foldl_add_eq {α β : Type} [AddCommMonoid β] (g : α → β) (l : List α) (c : β) :
    l.foldl (fun s x => s + g x) c = c + (l.map g).sum := by
  induction l generalizing c with
  | nil => simp
  | cons x l ih => rw [List.foldl_cons, ih, List.map_cons, List.sum_cons, add_assoc]

/-! ## Exact sums of values -/

/-- An exponent, or that of a number if it is lower. -/
def lowerExp (c : ℤ) (v : FVal) : ℤ := match v with | .num _ _ k => min c k | _ => c

theorem lowerExp_le (c : ℤ) (v : FVal) : lowerExp c v ≤ c := by cases v <;> simp [lowerExp]

theorem foldl_lowerExp_le (vs : List FVal) (c : ℤ) :
    vs.foldl lowerExp c ≤ c ∧ ∀ n m e, FVal.num n m e ∈ vs → vs.foldl lowerExp c ≤ e := by
  induction vs generalizing c with
  | nil => simp
  | cons v vs ih =>
    obtain ⟨h1, h2⟩ := ih (lowerExp c v)
    refine ⟨h1.trans (lowerExp_le c v), fun n m e he => ?_⟩
    rcases List.mem_cons.mp he with rfl | he
    · exact h1.trans (min_le_right _ _)
    · exact h2 n m e he

theorem minExp_le (vs : List FVal) : ∀ n m e, FVal.num n m e ∈ vs → minExp vs ≤ e := by
  have step : (fun (s : ℤ) (v : FVal) => match v with | .num _ _ k => min s k | _ => s) = lowerExp := by
    funext s v
    cases v <;> rfl
  have value : minExp vs = vs.foldl lowerExp 0 := congrArg (fun h => vs.foldl h 0) step
  rw [value]
  exact (foldl_lowerExp_le vs 0).2

/-- The integer that a finite value is at a lower exponent. -/
def integerAt (e : ℤ) (v : FVal) : ℤ := match v with | .num n m k => signed n (m * 2 ^ (k - e).toNat) | _ => 0

theorem exactSum_eq (vs : List FVal) (e : ℤ) : exactSum vs e = (vs.map (integerAt e)).sum := by
  have step : (fun (s : ℤ) (v : FVal) => match v with | .num n m k => s + signed n (m * 2 ^ (k - e).toNat) | _ => s) =
      fun s v => s + integerAt e v := by
    funext s v
    cases v <;> simp [integerAt]
  rw [exactSum]
  exact (congrArg (fun h => vs.foldl h 0) step).trans ((foldl_add_eq _ vs 0).trans (zero_add _))

/-- The sum of finite values is exact. -/
theorem sumVals_finite {vs : List FVal} {xs : List ℚ} (h : vs.map finiteValue = xs.map some) :
    finiteValue (sumVals vs) = some xs.sum := by
  rw [sumVals, finiteValue_ofInt, exactSum_eq, Option.some.injEq]
  have low := minExp_le vs
  generalize minExp vs = e at low
  induction vs generalizing xs with
  | nil =>
    obtain rfl : xs = [] := by simpa using h.symm
    simp
  | cons v vs ih =>
    obtain ⟨x, xs, rfl⟩ : ∃ x ys, xs = x :: ys := by cases xs with
      | nil => simp at h
      | cons x ys => exact ⟨x, ys, rfl⟩
    obtain ⟨hv, hvs⟩ := List.cons.inj h
    have tail := ih hvs fun n m e he => low n m e (List.mem_cons_of_mem _ he)
    have head : (integerAt e v : ℚ) * 2 ^ e = x := by
      rcases finite_cases hv with ⟨s, rfl, rfl⟩ | ⟨n, m, k, rfl, rfl⟩
      · simp [integerAt]
      · exact signed_shift n m (low n m k List.mem_cons_self)
    simp only [List.map_cons, List.sum_cons, Int.cast_add, add_mul, head, tail]

/-- An exact sum rounded once. -/
theorem sumRounded_sumVals {vs : List FVal} {xs : List ℚ} (h : vs.map finiteValue = xs.map some) :
    sumRounded (roundVal .fp32 .rne (sumVals vs)).bits xs.sum := by
  have value := sumVals_finite h
  refine ⟨fun h0 => ⟨_, rfl, roundVal_finite .rne value h0⟩, fun h0 => ?_⟩
  rw [h0] at value
  rw [eq_zero_of_finiteValue (v := sumVals vs) (ofInt_proper _ _ _) value, roundVal_zero]
  cases (sumVals vs).neg?
  · exact ⟨by norm_num [fpNumber, fpIsSpecial, fpFields, fpPlace, fpZero, formatShape], by decide⟩
  · exact ⟨by norm_num [fpNumber, fpIsSpecial, fpFields, fpPlace, fpZero, formatShape], by decide⟩

/-! ## Truncation -/

theorem truncatedTo_neg (u x : ℚ) : truncatedTo u (-x) = -truncatedTo u x := by
  have nonneg : ∀ {y : ℚ}, 0 ≤ y → truncatedTo u y = u * ⌊y / u⌋ := fun h => by rw [truncatedTo, if_pos h]
  have negative : ∀ {y : ℚ}, y < 0 → truncatedTo u y = u * ⌈y / u⌉ := fun h => by rw [truncatedTo, if_neg h.not_ge]
  rcases lt_trichotomy x 0 with h | rfl | h
  · rw [nonneg (neg_pos.mpr h).le, negative h, neg_div, Int.floor_neg]; push_cast; ring
  · simp [truncatedTo]
  · rw [negative (neg_lt_zero.mpr h), nonneg h.le, neg_div, Int.ceil_neg]; push_cast; ring

/-- Truncation of a magnitude. -/
theorem truncated_magnitude (m : ℕ) (e q : ℤ) :
    truncatedTo (2 ^ q) (m * 2 ^ e) = if q ≤ e then (m : ℚ) * 2 ^ e else (m / 2 ^ (q - e).toNat : ℕ) * 2 ^ q := by
  rw [truncatedTo, if_pos (by positivity)]
  split_ifs with h
  · obtain ⟨k, rfl⟩ : ∃ k : ℕ, e = q + k := ⟨(e - q).toNat, by omega⟩
    have whole : (m : ℚ) * 2 ^ (q + k : ℤ) / 2 ^ q = ((m * 2 ^ k : ℕ) : ℤ) := by
      rw [zpow_add₀ two_ne_zero, zpow_natCast]; push_cast; field_simp
    rw [whole, Int.floor_intCast, zpow_add₀ two_ne_zero, zpow_natCast]; push_cast; ring
  · obtain ⟨k, rfl⟩ : ∃ k : ℕ, q = e + k := ⟨(q - e).toNat, by omega⟩
    have quotient : (m : ℚ) * 2 ^ e / 2 ^ (e + k : ℤ) = (m : ℚ) / (2 ^ k : ℕ) := by
      rw [zpow_add₀ two_ne_zero, zpow_natCast]; push_cast; field_simp
    rw [quotient, Rat.floor_natCast_div_natCast, show (e + (k : ℤ) - e).toNat = k by omega, mul_comm]
    norm_cast

/-- A finite product truncated is the number truncated. -/
theorem truncVal_finite {v : FVal} {x : ℚ} (q : ℤ) (h : finiteValue v = some x) :
    finiteValue (truncVal q v) = some (truncatedTo (2 ^ q) x) := by
  rcases finite_cases h with ⟨s, rfl, rfl⟩ | ⟨n, m, e, rfl, rfl⟩
  · simp [truncVal, finiteValue, truncatedTo]
  · have signs : truncatedTo (2 ^ q) ((if n then -1 else 1) * (m : ℚ) * 2 ^ e) =
        (if n then -1 else 1) * truncatedTo (2 ^ q) (m * 2 ^ e) := by
      cases n <;> simp [truncatedTo_neg]
    rw [signs, truncated_magnitude, truncVal]
    split_ifs with h1 h2 h3 <;> simp_all [finiteValue]

/-! ## Groups -/

theorem foldl_max_eq {t e : ℤ} {ts : List ℤ} (mem : e ∈ t :: ts) (le : ∀ x ∈ t :: ts, x ≤ e) : ts.foldl max t = e := by
  induction ts generalizing t with
  | nil => exact (List.mem_singleton.mp mem).symm
  | cons x ts ih =>
    have ht := le t List.mem_cons_self
    have hx := le x (by simp)
    rw [List.foldl_cons]
    refine ih ?_ fun y hy => ?_
    · rcases List.mem_cons.mp mem with rfl | h
      · rw [max_eq_left hx]; exact List.mem_cons_self
      · rcases List.mem_cons.mp h with rfl | h
        · rw [max_eq_right ht]; exact List.mem_cons_self
        · exact List.mem_cons_of_mem _ h
    · rcases List.mem_cons.mp hy with rfl | h
      · exact max_le ht hx
      · exact le y (by simp [h])

/-- The leading exponents of the numbers other than zero. -/
def topExp (v : FVal) : Option ℤ := match v with | .num _ m e => some (topOf m e) | _ => none

theorem b16Group_eq (ps : List FVal) :
    b16Group ps =
      if ps.any FVal.isNaN || (ps.contains (.inf true) && ps.contains (.inf false)) then Fmt.fp32.canonNaN
      else match ps.find? FVal.isInf with
        | some v => (roundVal .fp32 .rne v).bits
        | none => match ps.filterMap topExp with
          | [] => 0
          | t :: ts => (roundVal .fp32 .rne (sumVals (ps.map (truncVal (ts.foldl max t - 52))))).bits := by
  have step : (fun v : FVal => match v with | .num _ m e => some ((Nat.log2 m : ℤ) + e) | _ => none) = topExp := by
    funext v
    cases v <;> rfl
  rw [← step]; rfl

theorem each_finite {ps : List FVal} {xs : List ℚ} (h : ps.map finiteValue = xs.map some) :
    (∀ p ∈ ps, ∃ x ∈ xs, finiteValue p = some x) ∧ ∀ x ∈ xs, ∃ p ∈ ps, finiteValue p = some x := by
  refine ⟨fun p hp => ?_, fun x hx => ?_⟩
  · obtain ⟨x, hx, e⟩ := List.mem_map.mp (h ▸ List.mem_map_of_mem hp : finiteValue p ∈ xs.map some)
    exact ⟨x, hx, e.symm⟩
  · exact List.mem_map.mp (h ▸ List.mem_map_of_mem hx : some x ∈ ps.map finiteValue)

/-- Finite values are none of the special ones. -/
theorem finite_none_special {ps : List FVal} {xs : List ℚ} (h : ps.map finiteValue = xs.map some) :
    ps.any FVal.isNaN = false ∧ ps.contains (.inf true) = false ∧ ps.find? FVal.isInf = none := by
  have each := (each_finite h).1
  refine ⟨List.any_eq_false.mpr fun p hp => ?_, ?_, List.find?_eq_none.mpr fun p hp => ?_⟩
  · obtain ⟨x, -, hx⟩ := each p hp
    simp [isNaN_of_finite hx]
  · rw [List.contains_eq_mem, decide_eq_false_iff_not]
    intro hp
    obtain ⟨x, -, hx⟩ := each _ hp
    cases hx
  · obtain ⟨x, -, hx⟩ := each p hp
    cases p <;> simp_all [finiteValue, FVal.isInf]

/-- The group sum of the F8 families. -/
theorem f8Group_sum (ps : List FVal) : groupSum false ps (f8Group ps) := by
  refine ⟨fun xs h => ⟨fun _ => ?_, nofun, nofun⟩, fun ⟨p, hp, hn⟩ => ?_, nofun, nofun⟩
  · rw [f8Group, (finite_none_special h).1]
    exact sumRounded_sumVals h
  · rw [f8Group, if_pos (List.any_eq_true.mpr ⟨p, hp, hn⟩)]; rfl

/-- The bounds of a magnitude by its leading exponent. -/
theorem topExp_bounds {v : FVal} {x : ℚ} (hp : FVal.proper v) (h : finiteValue v = some x) :
    (x = 0 ∧ topExp v = none) ∨ ∃ t, topExp v = some t ∧ (2 : ℚ) ^ t ≤ |x| ∧ |x| < 2 ^ (t + 1) := by
  rcases finite_cases h with ⟨s, rfl, rfl⟩ | ⟨n, m, e, rfl, rfl⟩
  · exact .inl ⟨rfl, rfl⟩
  · have magnitude : |(if n then -1 else 1) * (m : ℚ) * 2 ^ e| = m * 2 ^ e := by
      cases n <;> simp [abs_mul, abs_zpow]
    obtain ⟨lo, hi⟩ := approximates.bounds (p := 0) (m := m) (e := e) (.inl rfl) hp
    rw [magnitude]
    exact .inr ⟨_, rfl, (Rat.cast_le (K := ℝ)).mp (by push_cast; exact lo), (Rat.cast_lt (K := ℝ)).mp (by push_cast; exact hi)⟩

theorem exponent_le {t e : ℤ} {x : ℚ} (h : (2 : ℚ) ^ t ≤ x) (h' : x < 2 ^ (e + 1)) : t ≤ e :=
  Int.lt_add_one_iff.mp ((zpow_lt_zpow_iff_right₀ one_lt_two).mp (h.trans_lt h'))

/-- The leading exponents of a group of finite values. -/
theorem topExps_iff {ps : List FVal} {xs : List ℚ} (proper : ∀ p ∈ ps, FVal.proper p) (h : ps.map finiteValue = xs.map some) (t : ℤ) :
    t ∈ ps.filterMap topExp ↔ ∃ x ∈ xs, (2 : ℚ) ^ t ≤ |x| ∧ |x| < 2 ^ (t + 1) := by
  obtain ⟨left, right⟩ := each_finite h
  rw [List.mem_filterMap]
  constructor
  · rintro ⟨p, hp, ht⟩
    obtain ⟨x, hx, value⟩ := left p hp
    rcases topExp_bounds (proper p hp) value with ⟨-, hn⟩ | ⟨t', ht', bounds⟩
    · rw [hn] at ht; cases ht
    · obtain rfl : t' = t := Option.some.inj (ht'.symm.trans ht)
      exact ⟨x, hx, bounds⟩
  · rintro ⟨x, hx, lo, hi⟩
    obtain ⟨p, hp, value⟩ := right x hx
    refine ⟨p, hp, ?_⟩
    rcases topExp_bounds (proper p hp) value with ⟨rfl, -⟩ | ⟨t', ht', lo', hi'⟩
    · rw [abs_zero] at lo
      exact absurd lo (by positivity : (0 : ℚ) < 2 ^ t).not_ge
    · rw [ht', le_antisymm (exponent_le lo' hi) (exponent_le lo hi')]

/-- The group sum of the B16 families. -/
theorem b16Group_sum {ps : List FVal} (proper : ∀ p ∈ ps, FVal.proper p) : groupSum true ps (b16Group ps) := by
  rw [b16Group_eq]
  refine ⟨fun xs h => ⟨nofun, fun _ h0 => ?_, fun _ e he hle => ?_⟩, fun ⟨p, hp, hn⟩ => ?_, fun _ ht hf => ?_, fun _ neg hi ho hn => ?_⟩
  · obtain ⟨nan, inf, find⟩ := finite_none_special h
    have none_left : ps.filterMap topExp = [] := List.eq_nil_iff_forall_not_mem.mpr fun t ht => by
      obtain ⟨x, hx, lo, -⟩ := (topExps_iff proper h t).mp ht
      rw [h0 x hx, abs_zero] at lo
      exact absurd lo (by positivity : (0 : ℚ) < 2 ^ t).not_ge
    rw [nan, inf, find, none_left]; rfl
  · obtain ⟨nan, inf, find⟩ := finite_none_special h
    have exps := topExps_iff proper h
    rw [nan, inf, find]
    simp only [Bool.false_and, Bool.or_self, Bool.false_eq_true, if_false]
    have mem : e ∈ ps.filterMap topExp := (exps e).mpr (by
      obtain ⟨x, hx, lo⟩ := he
      exact ⟨x, hx, lo, hle x hx⟩)
    have le : ∀ t ∈ ps.filterMap topExp, t ≤ e := fun t ht => by
      obtain ⟨x, hx, lo, -⟩ := (exps t).mp ht
      exact exponent_le lo (hle x hx)
    generalize ps.filterMap topExp = ts at mem le
    cases ts with
    | nil => cases mem
    | cons t ts =>
      simp only [foldl_max_eq mem le]
      refine sumRounded_sumVals ?_
      have each : ∀ p ∈ ps, finiteValue (truncVal (e - 52) p) = (finiteValue p).map (truncatedTo (2 ^ (e - 52))) := fun p hp => by
        obtain ⟨x, -, hx⟩ := (each_finite h).1 p hp
        rw [truncVal_finite _ hx, hx, Option.map_some]
      calc (ps.map (truncVal (e - 52))).map finiteValue
          = (ps.map finiteValue).map (Option.map (truncatedTo (2 ^ (e - 52)))) := by
            rw [List.map_map, List.map_map]; exact List.map_congr_left each
        _ = (xs.map (truncatedTo (2 ^ (e - 52)))).map some := by rw [h, List.map_map, List.map_map]; rfl
  · rw [List.any_eq_true.mpr ⟨p, hp, hn⟩]; rfl
  · rw [List.contains_iff_mem.mpr ht, List.contains_iff_mem.mpr hf, Bool.and_self, Bool.or_true]; rfl
  · have nan : ps.any FVal.isNaN = false := List.any_eq_false.mpr fun p hp => by rw [hn p hp]; nofun
    have one_sign : (ps.contains (.inf true) && ps.contains (.inf false)) = false := by
      cases neg <;> simp_all
    rw [nan, one_sign]
    cases find : ps.find? FVal.isInf with
    | none => exact absurd (List.find?_eq_none.mp find _ hi) (by simp [FVal.isInf])
    | some v =>
      have isInf := List.find?_some find
      have mem := List.mem_of_find?_eq_some find
      cases v with
      | inf s =>
        obtain rfl : s = neg := by
          by_contra hne
          have : s = !neg := by cases s <;> cases neg <;> simp_all
          exact ho (this ▸ mem)
        cases s <;> rfl
      | _ => cases isInf

/-! ## The families -/

theorem mul_proper {x y : FVal} (hx : FVal.proper x) (hy : FVal.proper y) : FVal.proper (x.mul y) := by
  cases x <;> cases y <;> simp only [FVal.mul, FVal.proper]
  exact Nat.mul_ne_zero hx hy

theorem eightRead_proper (wide : Bool) (a : ℕ) : FVal.proper ((eightFormat wide).read a) := by
  rcases eightRead_cases wide a with ⟨h, -⟩ | ⟨h, -⟩ | ⟨neg, m, e, hm, -, -, -, -, h, -⟩ <;> rw [h]
  · trivial
  · trivial
  · exact hm

theorem operandVal_proper (code : ℕ) (x : ℕ × ℤ) : FVal.proper (operandVal code x) := by
  unfold operandVal
  split
  · exact eightRead_proper false _
  · exact eightRead_proper true _
  · have := eightRead_proper false x.1
    change FVal.proper (scaleVal ((eightFormat false).read x.1) x.2)
    cases h : (eightFormat false).read x.1 <;> simp_all [scaleVal, FVal.proper]
  · exact read_proper _ _
  · exact read_proper _ _

/-- The running sum takes one group more. -/
theorem groupedSum_succ (group : List FVal → ℕ) {g : ℕ} (hg : 0 < g) (k : ℕ) (p : ℕ → FVal) :
    groupedSum group g (g * (k + 1)) p =
      (fAdd .fp32 .rne (groupedSum group g (g * k) p) (group ((List.range g).map fun j => p (g * k + j)))).bits := by
  rw [groupedSum, groupedSum, Nat.mul_div_cancel_left _ hg, Nat.mul_div_cancel_left _ hg, List.range_succ, List.foldl_append]; rfl

theorem readInt_signed (x : ℕ) : readInt true 8 x = (BitVec.ofNat 8 x).toInt := by
  rw [readInt_eq, BitVec.toInt_eq_toNat_cond, BitVec.toNat_ofNat]
  simp only [intMin, signedOf, if_true]
  norm_num
  split_ifs <;> omega

/-- Settles O59: every family is a fold over `k`, and a group is an exact sum rounded once. -/
theorem engineSumsFollowTheirFamilies : Obligations.EngineSumsFollowTheirFamilies := by
  intro fa fb k a b sum product
  refine ⟨?_, fun h => ?_, fun h => ?_, fun h _ => ?_, fun h _ => ?_⟩
  · simp only [sum, productElem]
    cases mxeFamily fa <;> rfl
  · simp only [sum, productElem, h, foldl_add_eq, zero_add, readInt_signed, intBits]
    exact Int.toNat_of_nonneg (Int.emod_nonneg _ (by norm_num))
  · simp only [sum, productElem, h, List.range_succ, List.foldl_append]; rfl
  · refine ⟨_, f8Group_sum _, ?_⟩
    simp only [sum, productElem, h]
    exact groupedSum_succ f8Group (by norm_num) k _
  · refine ⟨_, b16Group_sum fun p hp => ?_, ?_⟩
    · obtain ⟨j, -, rfl⟩ := List.mem_map.mp hp
      exact mul_proper (operandVal_proper _ _) (operandVal_proper _ _)
    · simp only [sum, productElem, h]
      exact groupedSum_succ b16Group (by norm_num) k _

end Sys2Proof.Machine
end

