-- ==== Sys2Proof/Proofs/Home.lean ====
section
/-!
PROOF. What takes place at the home of an access (R89, R90, R114, R116, R144, R161, R281, R448, R450).
-/
namespace Sys2Proof.Machine

/-! ## Messages set out -/

theorem sends_nil (s : State) : sends s [] = s := by simp [sends]

theorem sends_sends (s : State) (es fs : List Event) : sends (sends s es) fs = sends s (es ++ fs) := by
  simp [sends, List.append_assoc]

/-- A state in which only messages have set out. -/
def onlySends (s t : State) : Prop := ∃ es, t = sends s es

theorem onlySends.refl (s : State) : onlySends s s := ⟨[], (sends_nil s).symm⟩

theorem onlySends.post {s t : State} (h : onlySends s t) (e : Event) : onlySends s (t.post e) := by
  obtain ⟨es, rfl⟩ := h
  exact ⟨es ++ [e], sends_sends s es [e]⟩

theorem onlySends.trans {s t u : State} (h : onlySends s t) (h' : onlySends t u) : onlySends s u := by
  obtain ⟨es, rfl⟩ := h
  obtain ⟨fs, rfl⟩ := h'
  exact ⟨es ++ fs, sends_sends s es fs⟩

theorem onlySends.subset {s t : State} (h : onlySends s t) {e : Event} (he : e ∈ s.agenda) : e ∈ t.agenda := by
  obtain ⟨es, rfl⟩ := h
  exact List.mem_append_left _ he

theorem onlySends.getSlot {s t : State} (h : onlySends s t) (k : ℕ) : t.getSlot k = s.getSlot k := by
  obtain ⟨es, rfl⟩ := h; rfl

/-- A fold of steps that send messages only. -/
theorem onlySends.foldl {α : Type} {f : State → α → State} (h : ∀ s a, onlySends s (f s a)) (l : List α) (s : State) :
    onlySends s (l.foldl f s) := by
  induction l generalizing s with
  | nil => exact .refl s
  | cons a l ih => exact (h s a).trans (ih (f s a))

theorem poke_onlySends (s : State) (k : ℕ) : onlySends s (s.poke k) := by
  unfold State.poke
  split
  · split_ifs
    · exact .refl s
    · exact (onlySends.refl s).post _
  · split_ifs
    · exact .refl s
    · exact (onlySends.refl s).post _
  · exact .refl s

theorem poke_running {s : State} {k : ℕ} (h : (s.getSlot k).phase = .running) : s.poke k = s := by
  rw [State.poke, h]

/-! ## The end of an update (R132, R143, R296) -/

theorem settleBarriers_eq (s : State) (id : ℕ) :
    onlySends { s with barriers := s.barriers.map fun b => b.settle id } (s.settleBarriers id) :=
  onlySends.foldl (fun s b => by
    split_ifs
    · exact (onlySends.refl s).post _
    · exact .refl s) _ _

/-- The token at an entry completes, if nothing more covers it. -/
def tokenStep (k gen : ℕ) (tokens : Vector (Option Token) 8) (s : State) (e : Fin 8) : State :=
  match tokens[e.val] with
  | some t =>
    if t.need.isEmpty && !t.complete && !s.agenda.contains (.fenceTokenCompletion k gen e t.seq [] none) then
      s.post (.fenceTokenCompletion k gen e t.seq [] none)
    else s
  | none => s

theorem tokenStep_onlySends (k gen : ℕ) (tokens : Vector (Option Token) 8) (s : State) (e : Fin 8) :
    onlySends s (tokenStep k gen tokens s e) := by
  unfold tokenStep
  split
  · split_ifs
    · exact (onlySends.refl s).post _
    · exact .refl s
  · exact .refl s

/-- A token without need has its completion on its way. -/
theorem tokenStep_posts {k gen : ℕ} {tokens : Vector (Option Token) 8} (s : State) {e : Fin 8} {z : Token}
    (h : tokens[e.val] = some z) (hn : z.need = []) (hc : z.complete = false) :
    Event.fenceTokenCompletion k gen e z.seq [] none ∈ (tokenStep k gen tokens s e).agenda := by
  simp only [tokenStep, h, hn, hc, List.isEmpty_nil, Bool.not_false, Bool.and_self, Bool.true_and, List.contains_eq_mem,
    Bool.not_eq_true', decide_eq_false_iff_not]
  split_ifs with hm
  · exact hm
  · simp

theorem foldl_tokenStep_posts {k gen : ℕ} {tokens : Vector (Option Token) 8} {l : List (Fin 8)} (s : State) {e : Fin 8} {z : Token}
    (he : e ∈ l) (h : tokens[e.val] = some z) (hn : z.need = []) (hc : z.complete = false) :
    Event.fenceTokenCompletion k gen e z.seq [] none ∈ (l.foldl (tokenStep k gen tokens) s).agenda := by
  induction l generalizing s with
  | nil => cases he
  | cons a l ih =>
    rcases List.mem_cons.mp he with rfl | he
    · exact (onlySends.foldl (tokenStep_onlySends k gen tokens) l _).subset (tokenStep_posts s h hn hc)
    · exact ih _ he

/-- The tokens of a slot without an update. -/
def tokensWithout (x : Slot) (id : ℕ) : Vector (Option Token) 8 :=
  x.tokens.map fun t => t.map fun t => { t with need := t.need.filter (· != id) }

/-- A slot without an update. -/
def slotWithout (x : Slot) (id : ℕ) : Slot :=
  { x with updates := x.updates.filter (·.1 != id), matrix := x.matrix.filter (· != id), tokens := tokensWithout x id }

theorem settleBarriers_getSlot (s : State) (id k : ℕ) : (s.settleBarriers id).getSlot k = s.getSlot k :=
  (settleBarriers_eq s id).getSlot k

theorem updateDone_eq (s : State) (k gen id : ℕ) :
    s.updateDone k gen id =
      if (s.getSlot k).gen ≠ gen then s.settleBarriers id
      else ((List.finRange 8).foldl (tokenStep k gen (tokensWithout (s.getSlot k) id))
        ((s.settleBarriers id).setSlot k (slotWithout (s.getSlot k) id))).poke k := by
  rw [← settleBarriers_getSlot s id k]; rfl

theorem sends_setSlot (s : State) (es : List Event) (k : ℕ) (x : Slot) : (sends s es).setSlot k x = sends (s.setSlot k x) es := by
  by_cases h : k = s.hotId
  · rw [State.setSlot, State.setSlot, if_pos h, if_pos (show k = (sends s es).hotId from h)]; rfl
  · rw [State.setSlot, State.setSlot, if_neg h, if_neg (show k ≠ (sends s es).hotId from h)]; rfl

/-- The barriers of the package without an update. -/
def settled (s : State) (id : ℕ) : State := { s with barriers := s.barriers.map fun (b : Barrier) => b.settle id }

/-- What the end of an update leaves: the slot's lists and the barriers apart, only messages. -/
theorem updateDone_onlySends (s : State) (k gen id : ℕ) :
    onlySends (if (s.getSlot k).gen ≠ gen then settled s id else (settled s id).setSlot k (slotWithout (s.getSlot k) id))
      (s.updateDone k gen id) := by
  have only : onlySends (settled s id) (s.settleBarriers id) := settleBarriers_eq s id
  rw [updateDone_eq]
  split_ifs with h
  · exact only
  · obtain ⟨es, he⟩ := only
    rw [he, sends_setSlot]
    exact (onlySends.trans ⟨es, rfl⟩ (onlySends.foldl (tokenStep_onlySends _ _ _) _ _)).trans (poke_onlySends _ _)

/-- The events of a slot's fences that nothing covers any more are on their way. -/
theorem updateDone_posts {s : State} {k gen id : ℕ} (h : (s.getSlot k).gen = gen) {e : Fin 8} {z : Token}
    (hz : (tokensWithout (s.getSlot k) id)[e.val] = some z) (hn : z.need = []) (hc : z.complete = false) :
    Event.fenceTokenCompletion k gen e z.seq [] none ∈ (s.updateDone k gen id).agenda := by
  rw [updateDone_eq, if_neg (not_not.mpr h)]
  exact (poke_onlySends _ _).subset (foldl_tokenStep_posts _ (List.mem_finRange e) hz hn hc)

/-- Everything that the end of an update keeps, in a state that has been changed in a slot before. -/
theorem updateDone_ends {u v : State} {k gen id : ℕ} {change : Slot → Slot} (hb : v.barriers = u.barriers)
    (hother : ∀ n, n ≠ k → v.getSlot n = u.getSlot n) (hk : (u.getSlot k).gen = gen → v.getSlot k = change (u.getSlot k))
    (hgen : (v.getSlot k).gen = (u.getSlot k).gen)
    (kept : let x := u.getSlot k
      (change x).updates = x.updates ∧ (change x).matrix = x.matrix ∧ (change x).tokens = x.tokens) :
    updateEnds u (v.updateDone k gen id) k gen id change := by
  obtain ⟨es, only⟩ := updateDone_onlySends v k gen id
  obtain ⟨hup, hmat, htok⟩ := kept
  have slots : ∀ n, (v.updateDone k gen id).getSlot n =
      if n = k ∧ (u.getSlot k).gen = gen then slotWithout (v.getSlot k) id else v.getSlot n := fun n => by
    rw [only, hgen]
    by_cases hg : (u.getSlot k).gen = gen
    · rw [if_neg (not_not.mpr hg)]
      change ((settled v id).setSlot k _).getSlot n = _
      rw [State.getSlot_setSlot]
      by_cases hn : n = k
      · rw [if_pos hn, if_pos ⟨hn, hg⟩]
      · rw [if_neg hn, if_neg fun h => hn h.1]; rfl
    · rw [if_pos hg, if_neg fun h => hg h.2]; rfl
  have barriers : (v.updateDone k gen id).barriers = u.barriers.map fun b => b.settle id := by
    rw [only, ← hb]
    split_ifs
    · rfl
    · exact State.setSlot_barriers ..
  refine ⟨fun hg => ?_, barriers, fun n hn => ?_⟩
  · have y : (v.updateDone k gen id).getSlot k = slotWithout (change (u.getSlot k)) id := by rw [slots, if_pos ⟨rfl, hg⟩, hk hg]
    rw [y]
    refine ⟨by simp only [slotWithout, hup, hmat], fun e => ?_, fun e z hz hn hc => ?_⟩
    · simp only [slotWithout, tokensWithout, htok, Vector.getElem_map]
    · refine updateDone_posts (hgen.trans hg) ?_ hn hc
      rw [hk hg]; exact hz
  · rw [slots, if_neg fun h => hn h.1, hother n hn]

end Sys2Proof.Machine
end

section
namespace Sys2Proof.Machine

/-! ## Memory as numbers -/

@[simp] theorem updateDone_mem (s : State) (k gen id : ℕ) : (s.updateDone k gen id).mem = s.mem := by
  obtain ⟨es, h⟩ := updateDone_onlySends s k gen id
  rw [h]
  split_ifs
  · rfl
  · exact State.setSlot_mem ..

@[simp] theorem updateDone_acc (s : State) (k gen id : ℕ) : (s.updateDone k gen id).acc = s.acc := by
  obtain ⟨es, h⟩ := updateDone_onlySends s k gen id
  rw [h]
  split_ifs
  · rfl
  · exact State.setSlot_acc ..

@[simp] theorem updateDone_dies (s : State) (k gen id : ℕ) : (s.updateDone k gen id).dies = s.dies := by
  obtain ⟨es, h⟩ := updateDone_onlySends s k gen id
  rw [h]
  split_ifs
  · rfl
  · exact State.setSlot_dies ..

theorem leNat_eq_leValue (bs : List Byte) : leNat bs = leValue bs := by
  induction bs with
  | nil => rfl
  | cons b bs ih => rw [leNat, ih]; rfl

theorem readMem_eq (s : State) (a n : ℕ) : s.readMem a n = memValue s a n := by
  rw [State.readMem, leNat_eq_leValue, memRead_eq]; rfl

theorem leBytes_eq (x n : ℕ) : leBytes x n = (List.range n).map (byteOf x) := by
  induction n generalizing x with
  | zero => rfl
  | succ n ih =>
    rw [leBytes, ih, List.range_succ_eq_map, List.map_cons, List.map_map]
    congr 1
    · simp [byteOf]
    · refine List.map_congr_left fun j _ => ?_
      simp only [byteOf, Function.comp, Nat.div_div_eq_div_mul, pow_succ, Nat.mul_comm]

/-- A direct write. -/
theorem writeMem_bytes {s : State} (h : s.memOk) (a n x : ℕ) :
    bytesWritten s (s.writeMem a n x) a ((List.range n).map (byteOf x)) := fun c => by
  rw [State.writeMem, memGet_memWrite _ _ _ _ h, leBytes_eq]

theorem memValue_congr {s t : State} {a n : ℕ} (h : ∀ j < n, memGet t.mem (a + j) = memGet s.mem (a + j)) :
    memValue t a n = memValue s a n := by
  simp only [memValue]
  congr 1
  exact List.map_congr_left fun j hj => h j (List.mem_range.mp hj)

/-- What has been written reads back. -/
theorem memValue_written {t : State} {a n x : ℕ} (h : ∀ j < n, memGet t.mem (a + j) = byteOf x j) :
    memValue t a n = x % 256 ^ n := by
  rw [← leNat_leBytes, leNat_eq_leValue, leBytes_eq, memValue]
  congr 1
  exact List.map_congr_left fun j hj => h j (List.mem_range.mp hj)

theorem writeMem_outside {s : State} (h : s.memOk) {a n x c : ℕ} (hc : c < a ∨ a + n ≤ c) :
    memGet (s.writeMem a n x).mem c = memGet s.mem c := by
  rw [writeMem_bytes h a n x c, if_neg (by simp; omega)]

theorem writeMem_inside {s : State} (h : s.memOk) {a n x j : ℕ} (hj : j < n) :
    memGet (s.writeMem a n x).mem (a + j) = byteOf x j := by
  rw [writeMem_bytes h a n x (a + j), if_pos (by simp; omega)]
  simp [List.getD, hj]

/-! ## NRU_UPDATE (R89, R114, R448) -/

theorem accSize_eq (ty : AccType) : accSize ty = elemBytes ty := by cases ty <;> rfl
theorem accAdd_eq (ty : AccType) (a b : ℕ) : accAdd ty a b = sumOf ty a b := by cases ty <;> rfl

/-- Why an update of a line is refused, as the rules list it. -/
theorem updateDetail_eq (u : State) (line : ℕ) (ty : AccType) (contrib : ℕ) :
    u.updateDetail line ty contrib =
      if tabHas u.acc line = false then some 2
      else if (u.accState line).ty ≠ ty then some 3
      else if (u.accState line).ordered = true ∧ (u.accState line).n ≤ contrib then some 4 else none := by
  simp only [State.updateDetail, State.typed, Bool.not_eq_true', Bool.and_eq_true, decide_eq_true_eq]

theorem nruUpdate_effect (u : State) (un : NruUpdate) {x : ℕ} {y z : Word} (h : un.elems = [(x, y, z)]) :
    let st := u.accState (lineOf x)
    let t := u.nruUpdate un
    let refused := fun (k : ℕ) => t = { u with agenda := u.agenda ++ [Event.updateRefusal un k y] }
    (tabHas u.acc (lineOf x) = false → refused 2) ∧
    (tabHas u.acc (lineOf x) = true → st.ty ≠ un.ty → refused 3) ∧
    (tabHas u.acc (lineOf x) = true → st.ty = un.ty → st.ordered = true → st.n ≤ un.contrib → refused 4) ∧
    (tabHas u.acc (lineOf x) = true → st.ty = un.ty → (st.ordered = true → un.contrib < st.n) → u.memOk →
      let at_ := if st.ordered then slotLine un.accn x un.contrib else x
      bytesWritten u t at_ ((List.range (elemBytes st.ty)).map fun i =>
        byteOf (sumOf st.ty (memValue u at_ (elemBytes st.ty)) z.toNat) i) ∧
      t.accState (lineOf x) = { st with dirty := st.dirty || st.ordered, resident := true } ∧
      updateEnds u t un.slot un.gen un.id id) := by
  intro st t refused
  have value : t = match u.updateDetail (lineOf x) un.ty un.contrib with
      | none => (u.applyUpdate un.accn (lineOf x) un.contrib [(x, z.toNat)]).updateDone un.slot un.gen un.id
      | some d => u.post (.updateRefusal un d y) := by
    simp only [t, State.nruUpdate, h]; rfl
  rw [updateDetail_eq] at value
  refine ⟨fun hf => ?_, fun ht hty => ?_, fun ht hty ho hn => ?_, fun ht hty ho hmem => ?_⟩
  · rw [if_pos hf] at value; exact value
  · rw [if_neg (by simp [ht]), if_pos hty] at value; exact value
  · rw [if_neg (by simp [ht]), if_neg (not_not.mpr hty), if_pos ⟨ho, hn⟩] at value; exact value
  · rw [if_neg (by simp [ht]), if_neg (not_not.mpr hty), if_neg fun hc => (ho hc.1).not_ge hc.2] at value
    simp only at value
    refine ⟨fun c => ?_, ?_, ?_⟩
    · rw [value, updateDone_mem]
      have := writeMem_bytes hmem (if st.ordered then slotLine un.accn x un.contrib else x) (elemBytes st.ty)
        (sumOf st.ty (memValue u (if st.ordered then slotLine un.accn x un.contrib else x) (elemBytes st.ty)) z.toNat) c
      rw [← readMem_eq, ← accSize_eq, ← accAdd_eq] at this ⊢
      exact this
    · rw [value, State.accState, updateDone_acc]
      exact tabGet_tabSet_self ..
    · rw [value]
      exact updateDone_ends rfl (fun n _ => rfl) (fun _ => rfl) rfl ⟨rfl, rfl, rfl⟩

end Sys2Proof.Machine
end

section
namespace Sys2Proof.Machine

/-! ## What touches memory only -/

/-- Only memory, its poison and the state of accumulator lines may differ. -/
def onlyMemory (s t : State) : Prop := ∃ m p a, t = { s with mem := m, poison := p, acc := a }

theorem onlyMemory.refl (s : State) : onlyMemory s s := ⟨_, _, _, rfl⟩

theorem onlyMemory.trans {s t u : State} (h : onlyMemory s t) (h' : onlyMemory t u) : onlyMemory s u := by
  obtain ⟨m, p, a, rfl⟩ := h
  obtain ⟨m', p', a', rfl⟩ := h'
  exact ⟨m', p', a', rfl⟩

theorem onlyMemory.getSlot {s t : State} (h : onlyMemory s t) (k : ℕ) : t.getSlot k = s.getSlot k := by
  obtain ⟨m, p, a, rfl⟩ := h; rfl

theorem writeMem_onlyMemory (s : State) (a n x : ℕ) : onlyMemory s (s.writeMem a n x) := ⟨_, _, _, rfl⟩

theorem unpoison_onlyMemory (s : State) (l : List (ℕ × ℕ)) : onlyMemory s (s.unpoison l) := by
  obtain ⟨p, h⟩ := unpoison_eq s l
  exact ⟨_, p, _, h⟩

theorem clearSlots_onlyMemory (s : State) (n a len k : ℕ) : onlyMemory s (s.clearSlots n a len k) := by
  induction k with
  | zero => exact .refl s
  | succ k ih => exact ih.trans (writeMem_onlyMemory ..)

theorem combineElems_onlyMemory (ty : AccType) (n slots k : ℕ) (s : State) (a : ℕ) : onlyMemory s (s.combineElems ty n slots a k) := by
  induction k generalizing s a with
  | zero => exact .refl s
  | succ k ih => exact (writeMem_onlyMemory ..).trans (ih _ _)

theorem combinePoison_onlyMemory (s : State) (n line slots : ℕ) : onlyMemory s (s.combinePoison n line slots) := by
  unfold State.combinePoison
  split_ifs
  · exact .refl s
  · exact ⟨_, _, _, rfl⟩

theorem combine_onlyMemory (s : State) (n line : ℕ) : onlyMemory s (s.combine n line) := by
  unfold State.combine
  split_ifs
  · have combined : ∀ st : AccState, onlyMemory s (if st.dirty then ((s.combineElems st.ty n st.n line (128 / accSize st.ty)).clearSlots
        n line 128 st.n).combinePoison n line st.n else s) := fun st => by
      split_ifs
      · exact ((combineElems_onlyMemory ..).trans (clearSlots_onlyMemory ..)).trans (combinePoison_onlyMemory ..)
      · exact .refl s
    exact (combined _).trans ⟨_, _, _, rfl⟩
  · exact .refl s

theorem storeAcc_onlyMemory (s : State) (n pa : ℕ) (bs : List Byte) : onlyMemory s (s.storeAcc n pa bs) := by
  have write : ∀ t : State, onlyMemory t { t with mem := memWrite t.mem pa bs } := fun t => ⟨_, _, _, rfl⟩
  have combined : ∀ (c : Prop) [Decidable c], onlyMemory s (if c then s else s.combine n (lineOf pa)) := fun c _ => by
    split_ifs
    · exact .refl s
    · exact combine_onlyMemory ..
  unfold State.storeAcc
  dsimp only
  split
  · split
    · exact ((combined _).trans (write _)).trans (clearSlots_onlyMemory ..)
    · exact (combined _).trans (write _)
  · exact write s

/-- A store of the hardware to a place that is no register. -/
theorem writePlace_onlyMemory (s : State) (who : Writer) (p : Phys) (bs : List Byte) (h : s.isDevReg p.pa = false) :
    onlyMemory s (s.writePlace none who p bs) := by
  have plain : onlyMemory s (State.unpoison { s with mem := memWrite s.mem p.pa bs } [(p.pa, bs.length)]) :=
    onlyMemory.trans ⟨_, _, _, rfl⟩ (unpoison_onlyMemory ..)
  unfold State.writePlace
  split
  · exact (storeAcc_onlyMemory ..).trans (unpoison_onlyMemory ..)
  · split
    · next hr => rw [State.isDevReg, hr] at h; cases h
    · exact plain
  · exact plain
  · exact plain
  · exact plain

/-! ## Records (R416) -/

/-- The place of a mapped address by its class byte. -/
def classedPlace (s : State) (die pa : ℕ) : Except ℕ Phys :=
  if s.mctbase.bit 0 then
    match mctIndex s.pkg pa with
    | none => .error 1
    | some i =>
      match s.package.kindOfByte (hostPort s.pkg pa) (s.mctByte [llTlb die] pa i) with
      | .error d => .error d
      | .ok (.acc n) => if 2 ^ 21 / accParts n ≤ pa % 2 ^ 21 then .error 1 else .ok ⟨.acc n, pa⟩
      | .ok k => .ok ⟨k, pa⟩
  else .ok ⟨if hostBase ≤ pa then .hnc else .coh, pa⟩

theorem classedPlace_pa {s : State} {die pa : ℕ} {p : Phys} (h : classedPlace s die pa = .ok p) : p.pa = pa := by
  unfold classedPlace at h
  by_cases hb : s.mctbase.bit 0 = true
  · rw [if_pos hb] at h
    split at h
    · cases h
    · split at h
      · cases h
      · split_ifs at h
        cases h; rfl
      · cases h; rfl
  · rw [if_neg hb] at h
    cases h; rfl

/-- A place in DRAM or behind a host window is at the address itself. -/
theorem classify_pa {s : State} {die pa : ℕ} {p : Phys} (h : s.classify die pa = .ok p)
    (hr : (∃ k, region s.pkg pa = .near k) ∨ region s.pkg pa = .far ∨ ∃ k, region s.pkg pa = .host k) : p.pa = pa := by
  have classed : s.classify die pa = if s.closed pa then .error 1 else classedPlace s die pa := by
    unfold State.classify State.classifyBy
    rcases hr with ⟨k, hr⟩ | hr | ⟨k, hr⟩ <;> rw [hr] <;> rfl
  rw [classed] at h
  split_ifs at h
  exact classedPlace_pa h

/-- The hardware writes a record where the die finds its ring. -/
theorem ringPlace_onlyMemory {s : State} {die a : ℕ} {p : Phys} (h : s.ringPlace die a = some p) (bs : List Byte) :
    onlyMemory s (s.writePlace none .housekeeping p bs) := by
  unfold State.ringPlace at h
  split at h
  · next d hr =>
    split_ifs at h
    have place : s.classify die a = .ok p := by
      cases hc : s.classify die a with
      | error e => rw [hc] at h; cases h
      | ok q => rw [hc] at h; cases h; rfl
    refine writePlace_onlyMemory s _ p bs ?_
    rw [State.isDevReg, classify_pa place (.inl ⟨d, hr⟩), hr]
  · cases h

/-- Only the package's own state may differ. -/
def onlyPackage (s t : State) : Prop := ∃ p, t = { s with package := p }

theorem notify_onlyPackage {s t : State} (h : onlyPackage s t) (v : ℕ) : onlyPackage s (t.notify v) := by
  obtain ⟨p, rfl⟩ := h
  unfold State.notify
  dsimp only
  split_ifs
  · exact ⟨_, rfl⟩
  · exact ⟨_, rfl⟩
  · exact ⟨_, rfl⟩

theorem recordSeen_onlyPackage (s : State) (c : ℕ) : onlyPackage s (s.recordSeen c) := by
  have noted : ∀ (q : Prop) [Decidable q] (t : State) (v : ℕ), onlyPackage s t → onlyPackage s (if q then t.notify v else t) :=
    fun q _ t v h => by
      split_ifs
      · exact notify_onlyPackage h v
      · exact h
  exact noted _ _ _ ⟨_, rfl⟩

/-- A record of an error that is not corrected touches no slot, no barrier and nothing on its way. -/
theorem logRecord_keeps (s : State) (die : ℕ) (r : LogRecord) (h : r.containment ≠ 0) :
    (∀ n, (s.logRecord die r).getSlot n = s.getSlot n) ∧ (s.logRecord die r).barriers = s.barriers := by
  unfold State.logRecord
  simp only [if_neg h]
  split
  · exact ⟨fun n => rfl, rfl⟩
  · next p hp =>
    split_ifs at hp
    obtain ⟨m, q, a, written⟩ := ringPlace_onlyMemory hp (recordBytes r ((s.getDie die).recSeq + 1) s.time.toNat 1)
    rw [written]
    obtain ⟨k, seen⟩ := recordSeen_onlyPackage (State.setDie { s with mem := m, poison := q, acc := a } die
      { State.getDie { s with mem := m, poison := q, acc := a } die with
        recSeq := (s.getDie die).recSeq + 1
        eltail := ((s.getDie die).eltail + 1) % 2 ^ 32
        recent := (s.getDie die).recent }) r.containment
    rw [seen]
    exact ⟨fun n => rfl, rfl⟩

/-! ## UPDATE_REFUSAL (R448) -/

theorem updateRefusal_effect (u : State) (un : NruUpdate) (detail : ℕ) (va : Word)
    (hg : (u.getSlot un.slot).gen = un.gen) (ha : (u.getSlot un.slot).active = true) (hp : (u.getSlot un.slot).phase = .running) :
    let x := u.getSlot un.slot
    let t := u.updateRefusal un detail va
    let before := if x.refusals.1 = un.gen then x.refusals.2 else 0
    updateEnds u t un.slot un.gen un.id (fun x => { x with
      refusals := (un.gen, before + 1)
      refusal := if before = 0 then some (detail, va) else x.refusal }) ∧
    (before = 0 → u.sameMemory t ∧ t.acc = u.acc ∧ t.dies = u.dies) ∧
    (before ≠ 0 → ∃ (v : State) (r : LogRecord), r.detail = before + 1 ∧ r.cause = 0x12 ∧ r.ctx = some un.ctx ∧
      r.addr = some (va.toNat, false) ∧ t.dies = (v.logRecord (dieOfSlot un.slot) r).dies ∧ v.dies = u.dies) := by
  intro x t before
  set counted := u.setSlot un.slot { x with refusals := (un.gen, before + 1) } with hcounted
  have value : t = (if before = 0 then counted.firstRefusal un detail va else counted.laterRefusal un va (before + 1)).updateDone
    un.slot un.gen un.id := rfl
  have own : counted.getSlot un.slot = { x with refusals := (un.gen, before + 1) } := by rw [hcounted, State.getSlot_setSlot, if_pos rfl]
  have others : ∀ n, n ≠ un.slot → counted.getSlot n = u.getSlot n := fun n hn => by rw [hcounted, State.getSlot_setSlot, if_neg hn]
  have barriers : counted.barriers = u.barriers := State.setSlot_barriers ..
  by_cases h0 : before = 0
  · have first : counted.firstRefusal un detail va =
        counted.setSlot un.slot { x with refusals := (un.gen, before + 1), refusal := some (detail, va) } := by
      unfold State.firstRefusal
      rw [own]
      simp only [x, ha, hg, hp, and_self, if_true]
    rw [if_pos h0, first] at value
    refine ⟨?_, fun _ => ?_, fun h => absurd h0 h⟩
    · rw [value]
      refine updateDone_ends ?_ (fun n hn => ?_) (fun _ => ?_) ?_ ⟨rfl, rfl, rfl⟩
      · rw [State.setSlot_barriers, barriers]
      · rw [State.getSlot_setSlot, if_neg hn, others n hn]
      · rw [State.getSlot_setSlot, if_pos rfl, if_pos h0]
      · rw [State.getSlot_setSlot, if_pos rfl]
    · rw [value]
      simp only [State.sameMemory, updateDone_mem, updateDone_acc, updateDone_dies, State.setSlot_mem, State.setSlot_acc,
        State.setSlot_dies, hcounted, implies_true, and_self]
  · rw [if_neg h0] at value
    obtain ⟨slots, bars⟩ := logRecord_keeps counted (dieOfSlot un.slot) ⟨0, 1, Cause.cls.code, 0, some un.ctx, some (va.toNat, false),
      counted.slotPlace un.slot, before + 1⟩ one_ne_zero
    refine ⟨?_, fun h => absurd h h0, fun _ => ?_⟩
    · rw [value]
      refine updateDone_ends (bars.trans barriers) (fun n hn => (slots n).trans (others n hn)) (fun _ => ?_) ?_ ⟨rfl, rfl, rfl⟩
      · rw [if_neg h0]; exact (slots _).trans own
      · have gens := congrArg Slot.gen ((slots un.slot).trans own)
        exact gens
    · exact ⟨counted, _, rfl, rfl, rfl, rfl, by rw [value, updateDone_dies]; rfl, State.setSlot_dies ..⟩

end Sys2Proof.Machine
end

section
namespace Sys2Proof.Machine

/-! ## Combining a line (R90, R114) -/

/-- Slot values are read above the element. -/
theorem slotSum_congr {s t : State} (ty : AccType) (n a k : ℕ) (h : ∀ c, a ≤ c → memGet t.mem c = memGet s.mem c) :
    t.slotSum ty n a k = s.slotSum ty n a k := by
  have read : ∀ j, t.readMem (slotLine n a j) (accSize ty) = s.readMem (slotLine n a j) (accSize ty) := fun j => by
    rw [readMem_eq, readMem_eq]
    exact memValue_congr fun i _ => h _ (by rw [slotLine]; omega)
  induction k using Nat.strong_induction_on with
  | _ k ih =>
    match k with
    | 0 => rfl
    | 1 => exact read 0
    | k + 2 => rw [State.slotSum, State.slotSum, ih (k + 1) (by omega), read]

/-- Elements combined, from one upward: each gets its slots' sum, and no other byte changes. -/
theorem combineElems_spec (ty : AccType) (n slots k : ℕ) {s : State} (a : ℕ) (h : s.memOk) :
    (∀ i < k, memValue (s.combineElems ty n slots a k) (a + i * accSize ty) (accSize ty) =
      accAdd ty (memValue s (a + i * accSize ty) (accSize ty)) (s.slotSum ty n (a + i * accSize ty) slots) % 256 ^ accSize ty) ∧
    ∀ c, c < a ∨ a + k * accSize ty ≤ c → memGet (s.combineElems ty n slots a k).mem c = memGet s.mem c := by
  induction k generalizing s a with
  | zero => exact ⟨fun i hi => absurd hi (Nat.not_lt_zero i), fun c _ => rfl⟩
  | succ k ih =>
    have unfolded : s.combineElems ty n slots a (k + 1) = (s.writeMem a (accSize ty) (accAdd ty (memValue s a (accSize ty))
        (s.slotSum ty n a slots))).combineElems ty n slots (a + accSize ty) k := by rw [← readMem_eq]; rfl
    rw [unfolded]
    generalize hx : accAdd ty (memValue s a (accSize ty)) (s.slotSum ty n a slots) = x
    obtain ⟨values, outside⟩ := ih (a + accSize ty) (writeMem_memOk s a (accSize ty) x h)
    have above : ∀ c, a + accSize ty ≤ c → memGet (s.writeMem a (accSize ty) x).mem c = memGet s.mem c := fun c hc =>
      writeMem_outside h (.inr hc)
    refine ⟨fun i hi => ?_, fun c hc => ?_⟩
    · rcases i with _ | i
      · rw [Nat.zero_mul, Nat.add_zero, hx]
        exact memValue_written fun j hj => by rw [outside _ (.inl (by omega)), writeMem_inside h hj]
      · have shift : a + (i + 1) * accSize ty = a + accSize ty + i * accSize ty := by ring
        rw [shift, values i (by omega), slotSum_congr ty n _ _ fun c hc => above c (by omega),
          memValue_congr fun j _ => above _ (by omega)]
    · have split : (k + 1) * accSize ty = accSize ty + k * accSize ty := by ring
      rw [split] at hc
      rw [outside c (by omega), writeMem_outside h (by omega)]

/-- Slot lines zeroed, and no other byte. -/
theorem clearSlots_spec (n a len k : ℕ) {s : State} (h : s.memOk) (c : ℕ) :
    memGet (s.clearSlots n a len k).mem c =
      if ∃ j < k, slotLine n a j ≤ c ∧ c < slotLine n a j + len then 0 else memGet s.mem c := by
  induction k with
  | zero => simp [State.clearSlots]
  | succ k ih =>
    have ok := clearSlots_memOk s n a len k h
    rw [State.clearSlots]
    by_cases hk : slotLine n a k ≤ c ∧ c < slotLine n a k + len
    · obtain ⟨j, rfl⟩ : ∃ j, c = slotLine n a k + j := ⟨c - slotLine n a k, by omega⟩
      rw [writeMem_inside ok (by omega), if_pos ⟨k, Nat.lt_succ_self k, hk⟩]
      simp [byteOf]
    · rw [writeMem_outside ok (by omega), ih]
      have same : (∃ j < k + 1, slotLine n a j ≤ c ∧ c < slotLine n a j + len) ↔ ∃ j < k, slotLine n a j ≤ c ∧ c < slotLine n a j + len :=
        ⟨fun ⟨j, hj, hc⟩ => ⟨j, lt_of_le_of_ne (Nat.lt_succ_iff.mp hj) fun e => hk (e ▸ hc), hc⟩, fun ⟨j, hj, hc⟩ => ⟨j, by omega, hc⟩⟩
      simp only [same]

/-- Slot lines lie beyond the base line. -/
theorem slotLine_ge (n a j : ℕ) : a + 128 ≤ slotLine n a j := by
  have parts : 128 ≤ 2 ^ 21 / accParts n := by
    unfold accParts
    split_ifs <;> norm_num
  have : 2 ^ 21 / accParts n ≤ (j + 1) * (2 ^ 21 / accParts n) := Nat.le_mul_of_pos_left _ (Nat.succ_pos j)
  rw [slotLine]; omega

theorem elemBytes_dvd (ty : AccType) : 128 / elemBytes ty * elemBytes ty = 128 := by cases ty <;> rfl

/-- The elements of a DIRTY line with their slots' sums, the slot lines zero. -/
def combinedLine (s : State) (st : AccState) (n line : ℕ) : State :=
  ((s.combineElems st.ty n st.n line (128 / accSize st.ty)).clearSlots n line 128 st.n).combinePoison n line st.n

theorem combine_effect {u : State} {m b : ℕ} (ht : tabHas u.acc b = true) (h : u.memOk) :
    let st := u.accState b
    let size := elemBytes st.ty
    let t := u.combine m b
    t.accState b = { st with dirty := false, resident := true } ∧
    (st.dirty = false → u.sameMemory t) ∧
    (st.dirty = true →
      (∀ i < 128 / size, memValue t (b + i * size) size =
        sumOf st.ty (memValue u (b + i * size) size) (u.slotSum st.ty m (b + i * size) st.n) % 2 ^ (8 * size)) ∧
      (∀ j < st.n, ∀ i < 128, memGet t.mem (slotLine m b j + i) = 0) ∧
      (∀ c, ¬inAccLines m b st.n c → memGet t.mem c = memGet u.mem c)) := by
  intro st size t
  have value : t = { (if st.dirty then combinedLine u st m b else u) with
      acc := tabSet (if st.dirty then combinedLine u st m b else u).acc b { st with dirty := false, resident := true } } := if_pos ht
  refine ⟨by rw [value]; exact tabGet_tabSet_self .., fun hd c => ?_, fun hd => ?_⟩
  · rw [value, hd]; rfl
  have ok := combineElems_memOk st.ty m st.n (128 / accSize st.ty) u b h
  have mem : ∀ c, memGet t.mem c = memGet ((u.combineElems st.ty m st.n b (128 / accSize st.ty)).clearSlots m b 128 st.n).mem c := fun c => by
    rw [value, hd]
    exact congrArg (memGet · c) (combinePoison_mem ..)
  obtain ⟨values, outside⟩ := combineElems_spec st.ty m st.n (128 / accSize st.ty) b h
  have slots := fun c => clearSlots_spec m b 128 st.n ok c
  have line : 128 / accSize st.ty * accSize st.ty = 128 := by rw [accSize_eq]; exact elemBytes_dvd _
  have base : ∀ c, b ≤ c → c < b + 128 →
      memGet t.mem c = memGet (u.combineElems st.ty m st.n b (128 / accSize st.ty)).mem c := fun c _ hc => by
    rw [mem, slots, if_neg]
    rintro ⟨j, -, hj, -⟩
    have := slotLine_ge m b j
    omega
  refine ⟨fun i hi => ?_, fun j hj i hi => ?_, fun c hc => ?_⟩
  · have room : (i + 1) * size ≤ 128 := by
      calc (i + 1) * size ≤ 128 / size * size := Nat.mul_le_mul_right _ hi
        _ = 128 := elemBytes_dvd _
    rw [Nat.add_mul] at room
    rw [memValue_congr fun j hj => base _ (by omega) (by omega)]
    have sizes : size = accSize st.ty := (accSize_eq st.ty).symm
    rw [sizes] at hi ⊢
    rw [values i hi, accAdd_eq, show (256 : ℕ) = 2 ^ 8 by norm_num, ← pow_mul]
  · rw [mem, slots, if_pos ⟨j, hj, by omega, by omega⟩]
  · rw [inAccLines, not_or] at hc
    rw [mem, slots, if_neg hc.2, outside c (by rw [line]; omega)]

/-! ## ACCUMULATOR_READ and ACCUMULATOR_EVICTION (R114, R116, R450) -/

theorem tabHas_of_above {V : Type} {t : List (ℕ × V)} {x : ℕ} (h : ∀ a ∈ t, x < a.1) : tabHas t x = false := by
  cases t with
  | nil => rfl
  | cons a t =>
    have := h a List.mem_cons_self
    simp only [tabHas, if_neg (by omega : ¬a.1 < x), beq_eq_false_iff_ne]
    omega

/-- A key erased from a table is gone. -/
theorem tabHas_tabErase {V : Type} {t : List (ℕ × V)} (x : ℕ) (h : (t.map fun z => z.1).Pairwise (· < ·)) :
    tabHas (tabErase t x) x = false := by
  induction t with
  | nil => rfl
  | cons a t ih =>
    obtain ⟨above, rest⟩ := List.pairwise_cons.mp h
    have above : ∀ z ∈ t, a.1 < z.1 := fun z hz => above _ (List.mem_map_of_mem hz)
    rw [tabErase]
    split_ifs with h1 h2
    · rw [tabHas, if_pos h1]; exact ih rest
    · exact tabHas_of_above (h2 ▸ above)
    · simp [tabHas, h1, h2]

@[simp] theorem clearSlots_acc (s : State) (n a len k : ℕ) : (s.clearSlots n a len k).acc = s.acc := by
  induction k with
  | zero => rfl
  | succ k ih => exact ih

theorem loseMeta_effect (u : State) (m b : ℕ) (h : (u.acc.map fun z => z.1).Pairwise (· < ·)) :
    ∃ (v : State) (r : LogRecord), u.loseMeta m b = v.logRecord (homeDie b) r ∧ r.cls = 1 ∧ r.cause = 5 ∧ r.addr = some (b, true) ∧
      tabHas v.acc b = false ∧ ∀ i < 16, b / 8 + i ∈ v.poison := by
  set w : State := (if u.typed b then u.clearSlots m b 128 (u.accState b).n else u).poisonLine b with hw
  refine ⟨{ w with acc := tabErase w.acc b }, ⟨1, 1, 5, 0, none, some (b, true), location 1 (sliceOf b) w.pkg (homeDie b) 0, b⟩, rfl,
    rfl, rfl, rfl, ?_, fun i hi => ?_⟩
  · have acc : w.acc = u.acc := by
      rw [hw]
      split_ifs
      · exact clearSlots_acc ..
      · rfl
    change tabHas (tabErase w.acc b) b = false
    rw [acc]
    exact tabHas_tabErase b h
  · have listed : ∀ s : State, b / 8 + i ∈ (s.poisonLine b).poison := fun s => by
      by_cases hp : b / 8 + i ∈ s.poison
      · exact List.mem_append_left _ hp
      · refine List.mem_append_right _ (List.mem_filter.mpr ⟨List.mem_map.mpr ⟨i, List.mem_range.mpr hi, rfl⟩, ?_⟩)
        simpa using hp
    exact listed _

/-- An event whose row is a function of the state without it. -/
theorem takes_of_next {s : State} {i : Instr} {e : Event} {effect : State → State → Prop} (f : State → State)
    (next : ∀ rest, s.agenda = e :: rest → exec i s = .next (f { s with agenda := rest })) (h : ∀ u, effect u (f u)) :
    takes s i e effect := fun rest hs => ⟨_, next rest hs, h _⟩

/-- A base line is read. -/
def readLine (u : State) (b : ℕ) (lost : Bool) : State :=
  match u.accGranule b with
  | some n => if lost then u.loseMeta n b else u.combine n b
  | none => u

theorem accumulatorRead_takes (s : State) (line : ℕ) (lost : Bool) :
    takes s .accumulatorRead (.accumulatorRead line lost) (fun u t =>
      let b := lineOf line
      let st := u.accState b
      let size := elemBytes st.ty
      ∀ m, u.accGranule b = some m →
        (lost = true → (u.acc.map fun z => z.1).Pairwise (· < ·) → ∃ (v : State) (r : LogRecord),
          t = v.logRecord (homeDie b) r ∧ r.cls = 1 ∧ r.cause = 5 ∧ r.addr = some (b, true) ∧
          tabHas v.acc b = false ∧ ∀ i < 16, b / 8 + i ∈ v.poison) ∧
        (lost = false → tabHas u.acc b = false → t = u) ∧
        (lost = false → tabHas u.acc b = true → u.memOk →
          t.accState b = { st with dirty := false, resident := true } ∧
          (st.dirty = false → u.sameMemory t) ∧
          (st.dirty = true →
            (∀ i < 128 / size, memValue t (b + i * size) size =
              sumOf st.ty (memValue u (b + i * size) size) (u.slotSum st.ty m (b + i * size) st.n) % 2 ^ (8 * size)) ∧
            (∀ j < st.n, ∀ i < 128, memGet t.mem (slotLine m b j + i) = 0) ∧
            (∀ c, ¬inAccLines m b st.n c → memGet t.mem c = memGet u.mem c)))) := by
  refine takes_of_next (readLine · (lineOf line) lost) (fun rest hs => ?_) ?_
  · change execAccumulatorRead s = _
    simp only [execAccumulatorRead, hs]; rfl
  · intro u b st size m hm
    have value : readLine u b lost = if lost then u.loseMeta m b else u.combine m b := by rw [readLine, hm]
    change (lost = true → _ → ∃ v r, readLine u b lost = _ ∧ _) ∧ (_ → _ → readLine u b lost = _) ∧ (_ → _ → _ → _)
    rw [value]
    refine ⟨fun hl hp => ?_, fun hl hf => ?_, fun hl ht hmem => ?_⟩
    · rw [if_pos hl]; exact loseMeta_effect u m b hp
    · rw [if_neg (by simp [hl]), State.combine, if_neg (by simp [hf])]
    · rw [if_neg (by simp [hl])]; exact combine_effect ht hmem

/-- A line goes to DRAM, or stays. -/
def evictedLine (u : State) (b : ℕ) (acked : Bool) : State :=
  if u.typed b then
    if acked then { u with acc := tabSet u.acc b { u.accState b with resident := false } }
    else u.logRecord (homeDie b) ⟨1, 0, 6, 2, none, some (b, true), location 1 (sliceOf b) u.pkg (homeDie b) 0, b⟩
  else u

theorem accumulatorEviction_takes (s : State) (line : ℕ) (acked : Bool) :
    takes s .accumulatorEviction (.accumulatorEviction line acked) (fun u t =>
      let b := lineOf line
      (tabHas u.acc b = false → t = u) ∧
      (tabHas u.acc b = true → acked = true →
        t = { u with acc := tabSet u.acc b { u.accState b with resident := false } }) ∧
      (tabHas u.acc b = true → acked = false → ∃ r : LogRecord, t = u.logRecord (homeDie b) r ∧ r.cls = 1 ∧ r.cause = 6 ∧
        r.addr = some (b, true))) := by
  refine takes_of_next (evictedLine · (lineOf line) acked) (fun rest hs => ?_) ?_
  · change execAccumulatorEviction s = _
    simp only [execAccumulatorEviction, hs]; rfl
  · intro u b
    refine ⟨fun hf => ?_, fun ht ha => ?_, fun ht ha => ?_⟩
    · exact if_neg (by rw [State.typed, hf]; exact Bool.false_ne_true)
    · exact (if_pos ht).trans (if_pos ha)
    · exact ⟨_, (if_pos ht).trans (if_neg (by rw [ha]; exact Bool.false_ne_true)), rfl, rfl, rfl⟩

end Sys2Proof.Machine
end

section
namespace Sys2Proof.Machine

/-! ## The functions of atomics (R279, R281) -/

theorem readInt_signedOf (w x : ℕ) : readInt true w x = signedOf w x := by
  have mod : ((x % 2 ^ w : ℕ) : ℤ) = (x : ℤ) % 2 ^ w := by push_cast; rfl
  simp only [readInt, signedOf, Bool.true_and, decide_eq_true_eq, mod]
  split_ifs <;> omega

/-- Numbers of a width with one signed value are equal. -/
theorem signedOf_inj {w x y : ℕ} (hx : x < 2 ^ w) (hy : y < 2 ^ w) (h : signedOf w x = signedOf w y) : x = y := by
  have mod : ∀ z : ℕ, z < 2 ^ w → (z : ℤ) % 2 ^ w = z := fun z hz => by exact_mod_cast congrArg (Nat.cast (R := ℤ)) (Nat.mod_eq_of_lt hz)
  have half : 2 ^ w ≤ 2 * 2 ^ (w - 1) := by
    rw [← pow_succ']; exact Nat.pow_le_pow_right (by norm_num) (by omega)
  simp only [signedOf, mod x hx, mod y hy, Nat.mod_eq_of_lt hx, Nat.mod_eq_of_lt hy] at h
  have cast : ((2 ^ w : ℕ) : ℤ) = 2 ^ w := by push_cast; rfl
  rw [← cast] at h
  split_ifs at h <;> omega

theorem amoPick_signed_min {n old b : ℕ} (ho : old < 2 ^ (8 * n)) (hb : b < 2 ^ (8 * n)) :
    amoPick true false n old b = if signedOf (8 * n) old ≤ signedOf (8 * n) b then old else b := by
  simp only [amoPick, readInt_signedOf, if_true, Bool.false_eq_true, if_false, Bool.or_eq_true, decide_eq_true_eq, beq_iff_eq]
  have : signedOf (8 * n) old < signedOf (8 * n) b ∨ old = b ↔ signedOf (8 * n) old ≤ signedOf (8 * n) b := by
    rw [le_iff_lt_or_eq]
    exact or_congr_right ⟨fun h => by rw [h], signedOf_inj ho hb⟩
  simp only [this]

theorem amoPick_signed_max (n old b : ℕ) :
    amoPick true true n old b = if signedOf (8 * n) old < signedOf (8 * n) b then b else old := by
  simp only [amoPick, readInt_signedOf, if_true, decide_eq_true_eq]

theorem amoPick_min (n old b : ℕ) : amoPick false false n old b = min old b := by
  simp only [amoPick, Bool.false_eq_true, if_false, Bool.or_eq_true, decide_eq_true_eq, beq_iff_eq]
  split_ifs <;> omega

theorem amoPick_max (n old b : ℕ) : amoPick false true n old b = max old b := by
  simp only [amoPick, Bool.false_eq_true, if_false, if_true, decide_eq_true_eq]
  split_ifs <;> omega

/-- A word of a micro-handler, with its width and its function. -/
def performs (w : Instr × ℕ × ℕ) : Prop :=
  atomicSize w.1 = w.2.1 ∧ 1 ≤ w.2.1 ∧ isRed w.1 = false ∧ ∀ old b e, old < 2 ^ (8 * w.2.1) → b < 2 ^ (8 * w.2.1) →
    atomicFn w.1 b e old = amoWrites w.2.1 old b e w.2.2

theorem performs_of {i : Instr} {n k : ℕ} (size : atomicSize i = n) (hn : 1 ≤ n) (word : isRed i = false)
    (fn : ∀ old b e, atomicFn i b e old = amoWrites n old b e k) : performs (i, n, k) :=
  ⟨size, hn, word, fun old b e _ _ => fn old b e⟩

/-- The least and greatest. -/
theorem performs_picks (d a b : GReg) (sc : Scope) (o : Order) :
    (performs (.amominW d a b sc o, 4, 4) ∧ performs (.amominD d a b sc o, 8, 4)) ∧
    (performs (.amomaxW d a b sc o, 4, 5) ∧ performs (.amomaxD d a b sc o, 8, 5)) ∧
    (performs (.amominnW d a b sc o, 4, 6) ∧ performs (.amominnD d a b sc o, 8, 6)) ∧
    (performs (.amomaxnW d a b sc o, 4, 7) ∧ performs (.amomaxnD d a b sc o, 8, 7)) := by
  refine ⟨⟨?_, ?_⟩, ⟨?_, ?_⟩, ⟨?_, ?_⟩, ⟨?_, ?_⟩⟩
  · exact ⟨rfl, by norm_num, rfl, fun _ _ _ ho hb => congrArg some (amoPick_signed_min ho hb)⟩
  · exact ⟨rfl, by norm_num, rfl, fun _ _ _ ho hb => congrArg some (amoPick_signed_min ho hb)⟩
  · exact performs_of rfl (by decide) rfl fun _ _ _ => congrArg some (amoPick_signed_max ..)
  · exact performs_of rfl (by decide) rfl fun _ _ _ => congrArg some (amoPick_signed_max ..)
  · exact performs_of rfl (by decide) rfl fun _ _ _ => congrArg some (amoPick_min ..)
  · exact performs_of rfl (by decide) rfl fun _ _ _ => congrArg some (amoPick_min ..)
  · exact performs_of rfl (by decide) rfl fun _ _ _ => congrArg some (amoPick_max ..)
  · exact performs_of rfl (by decide) rfl fun _ _ _ => congrArg some (amoPick_max ..)

theorem microWords_perform (d a b : GReg) (p q : GPair) (sc : Scope) (o : Order) : ∀ w ∈ microWords d a b p q sc o, performs w := by
  obtain ⟨⟨min4, min8⟩, ⟨max4, max8⟩, ⟨minn4, minn8⟩, maxn4, maxn8⟩ := performs_picks d a b sc o
  simp only [microWords, amoWords, List.zipIdx_cons, List.zipIdx_nil, List.flatMap_cons, List.flatMap_nil, List.cons_append,
    List.nil_append, List.append_nil, List.forall_mem_cons, Nat.zero_add, Nat.reduceAdd]
  refine ⟨?_, ?_, ?_, ?_, ?_, ?_, ?_, ?_, min4, min8, max4, max8, minn4, minn8, maxn4, maxn8, ?_, ?_, ?_, ?_, ?_, ?_, nofun⟩ <;>
    exact performs_of rfl (by decide) rfl fun _ _ _ => rfl

/-! ## Poison of the words that bytes meet -/

theorem poisonedWord_none {s : State} {pa n : ℕ} (hn : 1 ≤ n) (h : ∀ i < n, (pa + i) / 8 ∉ s.poison) : s.poisonedWord pa n = none := by
  rw [State.poisonedWord, List.find?_eq_none]
  intro w hw
  obtain ⟨j, hj, rfl⟩ := List.mem_map.mp hw
  have hj := List.mem_range.mp hj
  have := h (8 * (pa / 8 + j) - pa) (by omega)
  rw [show (pa + (8 * (pa / 8 + j) - pa)) / 8 = pa / 8 + j by omega] at this
  simpa using this

theorem poisonedWord_some {s : State} {pa n i : ℕ} (hi : i < n) (h : (pa + i) / 8 ∈ s.poison)
    (first : ∀ j < i, (pa + j) / 8 ∉ s.poison) : s.poisonedWord pa n = some ((pa + i) / 8) := by
  rw [State.poisonedWord, List.find?_map, Option.map_eq_some_iff]
  refine ⟨(pa + i) / 8 - pa / 8, List.find?_range_eq_some.mpr ⟨?_, ?_, fun j hj => ?_⟩, by omega⟩
  · simp only [Function.comp, show pa / 8 + ((pa + i) / 8 - pa / 8) = (pa + i) / 8 by omega]
    simpa using h
  · exact List.mem_range.mpr (by omega)
  · have := first (8 * (pa / 8 + j) - pa) (by omega)
    rw [show (pa + (8 * (pa / 8 + j) - pa)) / 8 = pa / 8 + j by omega] at this
    simpa using this

/-- Bytes that meet no poison clear none. -/
theorem unpoison_clean {s : State} {pa n : ℕ} (h : ∀ i < n, (pa + i) / 8 ∉ s.poison) : s.unpoison [(pa, n)] = s := by
  have kept : s.poison.filter (fun w => !wordWritten [(pa, n)] w) = s.poison := by
    refine List.filter_eq_self.mpr fun w hw => ?_
    rw [Bool.not_eq_true']
    by_contra hc
    rw [Bool.not_eq_false, wordWritten, List.all_eq_true] at hc
    have first := hc 0 (by simp)
    simp only [List.any_cons, List.any_nil, Bool.or_false, Bool.and_eq_true, decide_eq_true_eq] at first
    refine h (8 * w - pa) (by omega) ?_
    rwa [show (pa + (8 * w - pa)) / 8 = w by omega]
  rw [State.unpoison]
  split_ifs
  · rfl
  · rw [kept]

/-! ## REMOTE_ATOMIC_MESSAGE (R144, R281, R444) -/

theorem memValue_lt (s : State) (a n : ℕ) : memValue s a n < 2 ^ (8 * n) := by
  have bytes : ∀ (l : List Byte), leValue l < 256 ^ l.length := fun l => by
    induction l with
    | nil => simp [leValue]
    | cons b l ih =>
      have hb : b.toNat < 256 := b.isLt
      have step : leValue (b :: l) = b.toNat + 256 * leValue l := rfl
      rw [step, List.length_cons, pow_succ]
      omega
  have := bytes ((List.range n).map fun j => memGet s.mem (a + j))
  rw [List.length_map, List.length_range, show (256 : ℕ) = 2 ^ 8 by norm_num, ← pow_mul] at this
  exact this

/-- The value that a unit writes which received whole registers. -/
theorem atomicCut_eq {w : Instr × ℕ × ℕ} (hw : performs w) (s : State) (a operand comparand : ℕ) :
    atomicCut w.1 operand comparand (memValue s a w.2.1) =
      amoWrites w.2.1 (memValue s a w.2.1) (operand % 2 ^ (8 * w.2.1)) (comparand % 2 ^ (8 * w.2.1)) w.2.2 := by
  obtain ⟨size, -, -, fn⟩ := hw
  rw [atomicCut, size]
  exact fn _ _ _ (memValue_lt ..) (Nat.mod_lt _ (Nat.two_pow_pos _))

/-- The write of an atomic, where there is one. -/
def atomicWrite (u : State) (a n : ℕ) (new : Option ℕ) : State := match new with | some x => u.writeMem a n x | none => u

theorem microHandler_effect (u : State) (a : AtomMsg) {w : Instr × ℕ × ℕ} (hw : performs w) (hd : decodeWord (a.iword % 2 ^ 32) = .ok w.1) :
    let t := u.microHandler a
    let old := memValue u a.pa w.2.1
    let cut := fun (z : ℕ) => z % 2 ^ (8 * w.2.1)
    ((∀ i < w.2.1, (a.pa + i) / 8 ∉ u.poison) → u.memOk →
      { t with mem := u.mem, agenda := u.agenda } = u ∧ t.agenda = u.agenda ++ [Event.remoteAtomicReply a (.old old)] ∧
      bytesWritten u t a.pa (match amoWrites w.2.1 old (cut a.operand) (cut a.comparand) w.2.2 with
        | some x => (List.range w.2.1).map fun i => byteOf x i | none => [])) ∧
    (∀ i < w.2.1, (a.pa + i) / 8 ∈ u.poison → (∀ j < i, (a.pa + j) / 8 ∉ u.poison) →
      t = { u with agenda := u.agenda ++ [Event.remoteAtomicReply a (.poison ((a.pa + i) / 8))] }) := by
  obtain ⟨size, hn, red, -⟩ := id hw
  intro t old cut
  have value : t = match u.poisonedWord a.pa w.2.1 with
      | some x => u.post (.remoteAtomicReply a (.poison x))
      | none => (match atomicCut w.1 a.operand a.comparand (u.readMem a.pa w.2.1) with
        | some x => (u.writeMem a.pa w.2.1 x).unpoison [(a.pa, w.2.1)]
        | none => u).post (.remoteAtomicReply a (.old (u.readMem a.pa w.2.1))) := by
    simp only [t, State.microHandler, hd, size, red, Bool.false_eq_true, if_false] <;> rfl
  refine ⟨fun clean hmem => ?_, fun i hi hp first => ?_⟩
  · have written : t = (atomicWrite u a.pa w.2.1 (amoWrites w.2.1 old (cut a.operand) (cut a.comparand) w.2.2)).post
        (.remoteAtomicReply a (.old old)) := by
      rw [value, poisonedWord_none hn clean, readMem_eq, atomicCut_eq hw]
      cases amoWrites w.2.1 (memValue u a.pa w.2.1) (a.operand % 2 ^ (8 * w.2.1)) (a.comparand % 2 ^ (8 * w.2.1)) w.2.2 with
      | none => rfl
      | some x =>
        have kept : (u.writeMem a.pa w.2.1 x).unpoison [(a.pa, w.2.1)] = u.writeMem a.pa w.2.1 x := unpoison_clean clean
        simp only [kept]; rfl
    rw [written]
    cases amoWrites w.2.1 old (cut a.operand) (cut a.comparand) w.2.2 with
    | none => exact ⟨rfl, rfl, fun c => by rw [if_neg (by simp)]; rfl⟩
    | some x => exact ⟨rfl, rfl, writeMem_bytes hmem a.pa w.2.1 x⟩
  · rw [value, poisonedWord_some hi hp first]; rfl

/-! ## REMOTE_ATOMIC_REPLY (R281) -/

theorem shippedReply_takes (u : State) (a : AtomMsg) (tag : Fin 8) (v : ℕ) :
    exec .shipReply { u with
      agenda := .shipReply a.slot a.gen tag a.id (.clean 0 (BitVec.ofNat 512 v)) :: u.agenda } = .next (u.shippedReply a tag (.old v)) := by
  change Host.Outcome.next (match (u.getSlot a.slot).shipEntryOf a.gen tag a.id with
    | some e => u.shipReply a.slot tag e (.clean 0 (BitVec.ofNat 512 v))
    | none => u) = _
  congr 1
  rw [State.shippedReply, Slot.shipEntryOf]
  cases (u.getSlot a.slot).window[tag.val] with
  | none => rfl
  | some e => dsimp only; split_ifs <;> rfl

theorem atomicReply_effect (u : State) (a : AtomMsg) (v : ℕ) :
    let t := u.atomicReply a (.old v)
    let x := u.getSlot a.slot
    (∀ tag, a.tag = some tag → exec .shipReply { u with
      agenda := .shipReply a.slot a.gen tag a.id (.clean 0 (BitVec.ofNat 512 v)) :: u.agenda } = .next t) ∧
    (∀ w : Instr × ℕ × ℕ, a.tag = none → performs w → decodeWord (a.iword % 2 ^ 32) = .ok w.1 →
      (x.gen = a.gen → x.wait = some .sent → x.phase = .running →
        t = u.setSlot a.slot { x with wait := some (.old v) }) ∧
      (x.gen ≠ a.gen ∨ x.wait ≠ some .sent → t = u)) ∧
    (∀ i, a.tag = none → isRed i = true → decodeWord (a.iword % 2 ^ 32) = .ok i → updateEnds u t a.slot a.gen a.id id) := by
  intro t x
  refine ⟨fun tag ht => ?_, fun w ht hw hd => ?_, fun i ht hr hd => ?_⟩
  · rw [shippedReply_takes]
    simp only [t, State.atomicReply, ht]
  · obtain ⟨-, -, red, -⟩ := hw
    have value : t = if x.gen = a.gen ∧ x.wait = some .sent then
        (u.setSlot a.slot { x with wait := some (.old v) }).poke a.slot else u := by
      simp only [t, State.atomicReply, ht, hd, red, Bool.false_eq_true, if_false]; rfl
    refine ⟨fun hg hs hp => ?_, fun h => ?_⟩
    · rw [value, if_pos ⟨hg, hs⟩]
      exact poke_running (by rw [State.getSlot_setSlot, if_pos rfl]; exact hp)
    · rw [value, if_neg fun hc => h.elim (absurd hc.1) (absurd hc.2)]
  · have value : t = u.updateDone a.slot a.gen a.id := by simp only [t, State.atomicReply, ht, hd, hr, if_true]
    rw [value]
    exact updateDone_ends rfl (fun n _ => rfl) (fun _ => rfl) rfl ⟨rfl, rfl, rfl⟩

end Sys2Proof.Machine
end

section
namespace Sys2Proof.Machine

/-! ## ATOMIC_AT_HOME (R62, R144) -/

theorem seeBytes_none (s : State) (k : MemKind) (pa n : ℕ) :
    s.seeBytes none k pa n = (List.range n).map fun j => memGet s.mem (pa + j) := by
  rw [← memRead_eq]
  induction n generalizing pa with
  | zero => rfl
  | succ n ih => rw [State.seeBytes, ih]; rfl

/-- An atomic at the home, on bytes that meet no poison. -/
theorem atomicAt_clean (s : State) (who : Writer) {pa n : ℕ} (f : ℕ → Option ℕ) (clean : ∀ i < n, (pa + i) / 8 ∉ s.poison) :
    s.atomicAt who ⟨.coh, pa⟩ n f = (atomicWrite s pa n (f (memValue s pa n)), memValue s pa n) := by
  have read : s.readPlace none ⟨.coh, pa⟩ n = (s, (List.range n).map fun j => memGet s.mem (pa + j)) := by
    rw [← seeBytes_none s .coh]; rfl
  have value : leNat ((List.range n).map fun j => memGet s.mem (pa + j)) = memValue s pa n := leNat_eq_leValue _
  have unfolded : s.atomicAt who ⟨.coh, pa⟩ n f = match f (leNat (s.readPlace none ⟨.coh, pa⟩ n).2) with
      | none => ((s.readPlace none ⟨.coh, pa⟩ n).1, leNat (s.readPlace none ⟨.coh, pa⟩ n).2)
      | some x => ((s.readPlace none ⟨.coh, pa⟩ n).1.writePlace none who ⟨.coh, pa⟩ (leBytes x n), leNat (s.readPlace none ⟨.coh, pa⟩ n).2) :=
    rfl
  rw [unfolded, read]
  simp only [value]
  cases f (memValue s pa n) with
  | none => rfl
  | some x =>
    have kept : (s.writeMem pa n x).unpoison [(pa, n)] = s.writeMem pa n x := unpoison_clean clean
    have write : s.writePlace none who ⟨.coh, pa⟩ (leBytes x n) = (s.writeMem pa n x).unpoison [(pa, (leBytes x n).length)] := rfl
    rw [leBytes_length, kept] at write
    simp only [write]; rfl

/-- The atomics that wait for a line, and what follows when one has had its turn. -/
def behind (l : List (AtomMsg × Bool)) (line : ℕ) : List (AtomMsg × Bool) := l.filter fun z => lineOf z.1.pa == line
def follows (l : List (AtomMsg × Bool)) (line : ℕ) : List Event :=
  match behind l line with | z :: _ => [Event.atomicAtHome z.1 z.2 true] | [] => []
def replies (a : AtomMsg) (outside : Bool) (r : AtomReply) : List Event := if outside then [] else [Event.remoteAtomicReply a r]

/-- The reply sets out, and the next atomic takes its turn. -/
theorem homeReply_nextAtomic (s : State) (a : AtomMsg) (outside : Bool) (r : AtomReply) (line : ℕ) :
    (s.homeReply a outside r).nextAtomic line = sends s (replies a outside r ++ follows s.atHome line) := by
  have next : ∀ t : State, t.nextAtomic line = sends t (follows t.atHome line) := fun t => by
    rw [State.nextAtomic, follows, State.atomicsOf, behind]
    cases t.atHome.filter fun z => lineOf z.1.pa == line with
    | nil => exact (sends_nil t).symm
    | cons z l => rfl
  have reply : s.homeReply a outside r = sends s (replies a outside r) := by
    cases outside
    · rfl
    · exact (sends_nil s).symm
  rw [next, reply, ← sends_sends]; rfl

/-- The write of an atomic touches the bytes of its access only. -/
theorem atomicWrite_performedAt {s : State} (ok : s.memOk) (pa n : ℕ) (new : Option ℕ) (es : List Event) :
    let t := sends (atomicWrite s pa n new) es
    performedAt s { t with agenda := s.agenda } ⟨.coh, pa⟩ n new ∧ t.hot = s.hot ∧ t.agenda = s.agenda ++ es := by
  cases new with
  | none => exact ⟨⟨fun c _ => rfl, fun c => rfl, rfl, fun _ => rfl⟩, rfl, rfl⟩
  | some x =>
    refine ⟨⟨fun c hc => ?_, fun j hj => ?_, rfl, fun _ => rfl⟩, rfl, rfl⟩
    · exact writeMem_outside ok (by dsimp only at hc; omega)
    · exact writeMem_inside ok hj

theorem performAtomic_effect (v : State) (a : AtomMsg) (outside : Bool) {w : Instr × ℕ × ℕ} (hw : performs w)
    (hd : decodeWord (a.iword % 2 ^ 32) = .ok w.1) (place : v.classify (v.lineHome (lineOf a.pa)) a.pa = .ok ⟨.coh, a.pa⟩) :
    let t := v.performAtomic a outside
    let line := lineOf a.pa
    let done := { v with atHome := v.atHome.erase (a, outside) }
    let cut := fun (z : ℕ) => z % 2 ^ (8 * w.2.1)
    (∀ i < w.2.1, (a.pa + i) / 8 ∈ v.poison → (∀ j < i, (a.pa + j) / 8 ∉ v.poison) →
      t = sends done (replies a outside (.poison ((a.pa + i) / 8)) ++ follows done.atHome line)) ∧
    ((∀ i < w.2.1, (a.pa + i) / 8 ∉ v.poison) →
      (v.lineFree line = false → t = (v.recallLine line).post (.atomicAtHome a outside true)) ∧
      (v.lineFree line = true → v.memOk →
        let old := memValue v a.pa w.2.1
        performedAt done { t with agenda := done.agenda } ⟨.coh, a.pa⟩ w.2.1
          (amoWrites w.2.1 old (cut a.operand) (cut a.comparand) w.2.2) ∧ t.hot = v.hot ∧
        t.agenda = v.agenda ++ replies a outside (.old old) ++ follows done.atHome line)) := by
  obtain ⟨size, hn, -, -⟩ := id hw
  intro t line done cut
  have value : t = match v.poisonedWord a.pa w.2.1 with
      | some x => (done.homeReply a outside (.poison x)).nextAtomic line
      | none => if !v.lineFree line then (v.recallLine line).post (.atomicAtHome a outside true)
        else ((done.atomicAt (if outside then .host else .slot 0 false) ⟨.coh, a.pa⟩ w.2.1 (atomicCut w.1 a.operand a.comparand)).1.homeReply
          a outside (.old (done.atomicAt (if outside then .host else .slot 0 false) ⟨.coh, a.pa⟩ w.2.1
            (atomicCut w.1 a.operand a.comparand)).2)).nextAtomic line := by
    simp only [t, State.performAtomic, hd, place, size]; rfl
  refine ⟨fun i hi hp first => ?_, fun clean => ⟨fun hf => ?_, fun hf hmem => ?_⟩⟩
  · rw [value, poisonedWord_some hi hp first]
    exact homeReply_nextAtomic ..
  · rw [value, poisonedWord_none hn clean]
    simp only [hf, Bool.not_false, if_true]
  · have written : t = sends (atomicWrite done a.pa w.2.1 (amoWrites w.2.1 (memValue v a.pa w.2.1) (cut a.operand) (cut a.comparand) w.2.2))
        (replies a outside (.old (memValue v a.pa w.2.1)) ++ follows done.atHome line) := by
      rw [value, poisonedWord_none hn clean]
      simp only [hf, Bool.not_true, Bool.false_eq_true, if_false]
      rw [atomicAt_clean done _ _ clean, homeReply_nextAtomic, show memValue done a.pa w.2.1 = memValue v a.pa w.2.1 from rfl,
        atomicCut_eq hw]
      cases amoWrites w.2.1 (memValue v a.pa w.2.1) (cut a.operand) (cut a.comparand) w.2.2 <;> rfl
    rw [written]
    obtain ⟨performed, hot, agenda⟩ := atomicWrite_performedAt (s := done) hmem a.pa w.2.1
      (amoWrites w.2.1 (memValue v a.pa w.2.1) (cut a.operand) (cut a.comparand) w.2.2)
      (replies a outside (.old (memValue v a.pa w.2.1)) ++ follows done.atHome line)
    exact ⟨performed, hot, agenda.trans (List.append_assoc ..).symm⟩

/-- An atomic arrives, or is looked at again. -/
def atomicTurn (u : State) (a : AtomMsg) (outside queued : Bool) : State :=
  if queued then (if u.atHome.contains (a, outside) then u.performAtomic a outside else u)
  else if u.atomicQueued (lineOf a.pa) then { u with atHome := u.atHome ++ [(a, outside)] }
  else { u with atHome := u.atHome ++ [(a, outside)] }.performAtomic a outside

theorem atomicAtHome_next (s : State) (a : AtomMsg) (outside queued : Bool) (rest : List Event)
    (hs : s.agenda = .atomicAtHome a outside queued :: rest) :
    exec .atomicAtHome s = .next (atomicTurn { s with agenda := rest } a outside queued) := by
  change execAtomicAtHome s = _
  simp only [execAtomicAtHome, hs, atomicTurn]
  cases queued
  · simp only [Bool.false_eq_true, if_false]
    by_cases h : State.atomicQueued { s with agenda := rest } (lineOf a.pa) = true
    · rw [if_pos h, h]; rfl
    · rw [if_neg h, Bool.eq_false_iff.mpr h]; rfl
  · rfl

theorem atomicQueued_iff (u : State) (line : ℕ) : u.atomicQueued line = true ↔ behind u.atHome line ≠ [] := by
  rw [State.atomicQueued, behind, List.any_eq_true, ne_eq, List.filter_eq_nil_iff]
  push Not
  rfl

theorem atomicTurn_effect (u : State) (a : AtomMsg) (outside queued : Bool) :
    let t := atomicTurn u a outside queued
    let line := lineOf a.pa
    let u1 := { u with atHome := if queued then u.atHome else u.atHome ++ [(a, outside)] }
    let done := { u1 with atHome := u1.atHome.erase (a, outside) }
    (queued = true → (a, outside) ∉ u.atHome → t = u) ∧
    (queued = false → behind u.atHome line ≠ [] → t = u1) ∧
    ((queued = true ∧ (a, outside) ∈ u.atHome) ∨ (queued = false ∧ behind u.atHome line = []) →
      ∀ w : Instr × ℕ × ℕ, performs w → decodeWord (a.iword % 2 ^ 32) = .ok w.1 →
      let cut := fun (z : ℕ) => z % 2 ^ (8 * w.2.1)
      u.classify (u.lineHome line) a.pa = .ok ⟨.coh, a.pa⟩ →
        (∀ i < w.2.1, (a.pa + i) / 8 ∈ u.poison → (∀ j < i, (a.pa + j) / 8 ∉ u.poison) →
          t = sends done (replies a outside (.poison ((a.pa + i) / 8)) ++ follows done.atHome line)) ∧
        ((∀ i < w.2.1, (a.pa + i) / 8 ∉ u.poison) →
          (u.lineFree line = false → t = (u1.recallLine line).post (.atomicAtHome a outside true)) ∧
          (u.lineFree line = true → u.memOk →
            let old := memValue u a.pa w.2.1
            performedAt done { t with agenda := done.agenda } ⟨.coh, a.pa⟩ w.2.1
              (amoWrites w.2.1 old (cut a.operand) (cut a.comparand) w.2.2) ∧ t.hot = u.hot ∧
            t.agenda = u.agenda ++ replies a outside (.old old) ++ follows done.atHome line))) := by
  intro t line u1 done
  refine ⟨?_, ?_, ?_⟩
  · rintro rfl hm
    exact if_neg (show ¬u.atHome.contains (a, outside) = true by simpa using hm)
  · rintro rfl hb
    exact if_pos ((atomicQueued_iff u line).mpr hb)
  · intro turn w hw hd cut place
    have value : t = u1.performAtomic a outside := by
      rcases turn with ⟨rfl, hm⟩ | ⟨rfl, hb⟩
      · exact if_pos (show u.atHome.contains (a, outside) = true by simpa using hm)
      · exact if_neg fun hc => (atomicQueued_iff u line).mp hc hb
    rw [value]
    exact performAtomic_effect u1 a outside hw hd place

end Sys2Proof.Machine
end

section
namespace Sys2Proof.Machine

/-! ## Accesses of the host (R96, R146, R148, R153, R161, R162) -/

/-- The bytes of memory at an address, as one list. -/
def bytesAt (u : State) (pa n : ℕ) : List Byte := (List.range n).map fun i => memGet u.mem (pa + i)

/-- Whether a host's store writes: always, or where the bytes are those expected. -/
def hostWrites (u : State) (pa n : ℕ) (expect : Option (List Byte)) : Prop := expect = none ∨ expect = some (bytesAt u pa n)

theorem memWrite_bytesWritten {u : State} (h : u.memOk) (pa : ℕ) (bs : List Byte) {t : State} (ht : t.mem = memWrite u.mem pa bs) :
    bytesWritten u t pa bs := fun c => by rw [ht, memGet_memWrite _ _ _ _ h]

/-- A plain store at its home. -/
theorem homeStore_effect (u : State) (who : Writer) {k : MemKind} (hk : k = .coh ∨ k = .hco) (pa : ℕ) (bs : List Byte) :
    let t := u.writePlace none who ⟨k, pa⟩ bs
    (u.memOk → bytesWritten u t pa bs) ∧ ∃ m p, t = { u with mem := m, poison := p } := by
  have value : u.writePlace none who ⟨k, pa⟩ bs = State.unpoison { u with mem := memWrite u.mem pa bs } [(pa, bs.length)] := by
    rcases hk with rfl | rfl <;> rfl
  obtain ⟨p, cleaned⟩ := unpoison_eq { u with mem := memWrite u.mem pa bs } [(pa, bs.length)]
  rw [value, cleaned]
  exact ⟨fun h => memWrite_bytesWritten h pa bs rfl, _, _, rfl⟩

theorem hostBytes_read (u : State) {k : MemKind} (hk : k = .coh ∨ k = .hco) (pa n : ℕ) (expect : Option (List Byte)) :
    u.hostBytes ⟨k, pa⟩ n none expect = u := by
  rcases hk with rfl | rfl <;> rfl

theorem hostBytes_effect (u : State) {k : MemKind} (hk : k = .coh ∨ k = .hco) (pa : ℕ) {n : ℕ} {bs : List Byte}
    (expect : Option (List Byte)) (hn : bs.length = n) :
    let t := u.hostBytes ⟨k, pa⟩ n (some bs) expect
    (u.memOk → hostWrites u pa n expect → bytesWritten u t pa bs) ∧ (¬hostWrites u pa n expect → t = u) ∧
      ∃ m p, t = { u with mem := m, poison := p } := by
  have value : u.hostBytes ⟨k, pa⟩ n (some bs) expect =
      if expect.isNone || expect == some (bytesAt u pa n) then u.writePlace none .host ⟨k, pa⟩ (bs.take n) else u := by
    rw [bytesAt, ← seeBytes_none u k]
    rcases hk with rfl | rfl <;> rfl
  have whole : bs.take n = bs := List.take_of_length_le hn.le
  have writes : (expect.isNone || expect == some (bytesAt u pa n)) = true ↔ hostWrites u pa n expect := by
    rw [Bool.or_eq_true, Option.isNone_iff_eq_none, beq_iff_eq, hostWrites]
  rw [value, whole]
  obtain ⟨written, only⟩ := homeStore_effect u .host hk pa bs
  by_cases h : hostWrites u pa n expect
  · rw [if_pos (writes.mpr h)]
    exact ⟨fun hm _ => written hm, fun hc => absurd h hc, only⟩
  · rw [if_neg (mt writes.mp h)]
    exact ⟨fun _ hc => absurd hc h, fun _ => rfl, _, _, rfl⟩

/-! ### The agent of a host port -/

theorem hostAgent_mod (port : Fin 2) : hostAgent port % 256 = 136 := by
  rw [hostAgent, Nat.mul_add_mod_self_right]

theorem isHostAgent_hostAgent (port : Fin 2) : isHostAgent (hostAgent port) = true := by
  simp [isHostAgent, hostAgent_mod]

theorem waysOf_hostAgent (port : Fin 2) : waysOf (hostAgent port) = none := by
  simp [waysOf, isProxy, hostAgent_mod]

theorem cacheAgent_hostAgent (u : State) (port : Fin 2) : u.cacheAgent (hostAgent port) = true := by
  fin_cases port <;> simp [State.cacheAgent]

/-- Where the host need not claim the page, the agent of its port may hold the line. -/
theorem mayCache_of_hostClaim {u : State} {line : ℕ} (h : u.hostClaim line = none) (port : Fin 2) :
    u.mayCache .coh line (hostAgent port) = true := by
  have shared : u.privateOwner line = none := by
    unfold State.hostClaim at h
    unfold State.privateOwner
    cases hp : u.pageOf line with
    | none => rfl
    | some x =>
      simp only [hp] at h ⊢
      split_ifs at h with ho
      simp only [ho.1]
  simp [State.mayCache, cacheAgent_hostAgent, isHostAgent_hostAgent, shared]

theorem fits_hostAgent (u : State) (port : Fin 2) (new : List ℕ) : u.fits (hostAgent port) new = true := by
  rw [State.fits, waysOf_hostAgent]

/-! ### Stores to DRAM -/

theorem missStore_none {u : State} {line : ℕ} {port : Fin 2} (hm : u.mayCache .coh line (hostAgent port) = true)
    (hc : u.cst line (hostAgent port) = none) :
    u.missStore .coh [] line (hostAgent port) =
      (u.setCst line (hostAgent port) (some (.imAD 0))).post (.getm line (hostAgent port) true) := by
  rw [State.missStore, if_pos hm, hc]
  exact if_pos (fits_hostAgent ..)

theorem missStore_owned {u : State} {line : ℕ} {port : Fin 2} (hm : u.mayCache .coh line (hostAgent port) = true)
    (hc : u.cst line (hostAgent port) = some .e ∨ u.cst line (hostAgent port) = some .m) :
    ∃ c, u.missStore .coh [] line (hostAgent port) = { u with caches := c } := by
  rw [State.missStore, if_pos hm]
  rcases hc with hc | hc
  · rw [hc]; exact ⟨_, rfl⟩
  · rw [hc]; exact ⟨_, rfl⟩

/-- A store of the host to a line that its agent may take or has taken. -/
theorem hostDram_performs {u : State} {port : Fin 2} {pa n : ℕ} {bs : List Byte} {expect : Option (List Byte)}
    (hc : u.hostClaim (lineOf pa) = none)
    (hits : u.storeHits .coh (lineOf pa) (hostAgent port) = true)
    (room : u.cst (lineOf pa) (hostAgent port) = none → (u.hostCopies (hostAgent port)).length < 262144) :
    u.hostDram port ⟨.coh, pa⟩ n (some bs) expect =
      (u.hostBytes ⟨.coh, pa⟩ n (some bs) expect).missStore .coh [] (lineOf pa) (hostAgent port) := by
  have full : ¬((u.cst (lineOf pa) (hostAgent port)).isNone && decide (filterLines ≤ (u.hostCopies (hostAgent port)).length)) = true := by
    rw [Bool.and_eq_true, Option.isNone_iff_eq_none, decide_eq_true_eq]
    exact fun h => (room h.1).not_ge h.2
  simp only [State.hostDram, hc, Option.isNone_some, hits, if_neg full, ne_eq, not_true_eq_false, Bool.not_true, Bool.false_eq_true, if_false]

/-- A host's store to DRAM, after which the states of lines change and messages set out. -/
theorem hostBytes_then (u : State) (pa : ℕ) {n : ℕ} {bs : List Byte} (expect : Option (List Byte)) (hn : bs.length = n) (hm : u.memOk)
    {t : State} {c : List (ℕ × CState)} {a : List Event}
    (ht : t = { u.hostBytes ⟨.coh, pa⟩ n (some bs) expect with caches := c, agenda := a }) :
    (hostWrites u pa n expect → bytesWritten u t pa bs) ∧ (¬hostWrites u pa n expect → u.sameMemory t) ∧
      (∀ k, t.getSlot k = u.getSlot k) ∧ t.cores = u.cores := by
  obtain ⟨written, untouched, m, p, only⟩ := hostBytes_effect u (.inl rfl) pa expect hn
  subst ht
  refine ⟨written hm, fun hw x => ?_, fun k => ?_, ?_⟩
  · exact congrArg (fun m => memGet m x) (congrArg (·.mem) (untouched hw))
  · exact congrArg (·.getSlot k) only
  · exact congrArg (·.cores) only

theorem hostDram_store (u : State) (port : Fin 2) (pa n : ℕ) (bs : List Byte) (expect : Option (List Byte)) (hn : bs.length = n) :
    let t := u.hostDram port ⟨.coh, pa⟩ n (some bs) expect
    let line := lineOf pa
    let agent := hostAgent port
    let quiet := (∀ k, t.getSlot k = u.getSlot k) ∧ t.cores = u.cores
    (∀ e, u.hostClaim line = some e → t = (u.sendClaim e agent false).post (.hostMemoryRequest port pa n (some bs) expect)) ∧
    (u.hostClaim line = none → u.memOk →
      (u.cst line agent = none → (u.hostCopies agent).length < 262144 →
        (hostWrites u pa n expect → bytesWritten u t pa bs) ∧ (¬hostWrites u pa n expect → u.sameMemory t) ∧ quiet ∧
        t.agenda = u.agenda ++ [Event.getm line agent true]) ∧
      (u.cst line agent = some .e ∨ u.cst line agent = some .m →
        (hostWrites u pa n expect → bytesWritten u t pa bs) ∧ (¬hostWrites u pa n expect → u.sameMemory t) ∧ quiet ∧
        t.agenda = u.agenda)) := by
  intro t line agent quiet
  obtain ⟨-, -, m, p, only⟩ := hostBytes_effect u (.inl rfl) pa expect hn
  refine ⟨fun e he => ?_, fun hc hmem => ⟨fun hcst hroom => ?_, fun hcst => ?_⟩⟩
  · have hd : u.hostClaim (lineOf pa) = some e := he
    simp only [t, State.hostDram, hd, ne_eq, not_true_eq_false, if_false]; rfl
  all_goals have may := mayCache_of_hostClaim hc port
  · have value : t = ((u.hostBytes ⟨.coh, pa⟩ n (some bs) expect).setCst line agent (some (.imAD 0))).post (.getm line agent true) := by
      have hits : u.storeHits .coh line agent = true := by
        simp only [State.storeHits, may, hcst, agent, fits_hostAgent, Bool.and_self, Bool.or_true]
      refine (hostDram_performs hc hits fun _ => hroom).trans (missStore_none ?_ ?_)
      · rw [only]; exact may
      · rw [only]; exact hcst
    obtain ⟨bytes, same, quiet⟩ := hostBytes_then u pa expect hn hmem value
    exact ⟨bytes, same, quiet, by rw [value]; exact congrArg (·.agenda ++ _) only⟩
  · have value : ∃ c, t = { u.hostBytes ⟨.coh, pa⟩ n (some bs) expect with caches := c } := by
      have hits : u.storeHits .coh line agent = true := by
        rw [State.storeHits, may]
        rcases hcst with hcst | hcst
        · rw [hcst]; rfl
        · rw [hcst]; rfl
      have owned := missStore_owned (u := u.hostBytes ⟨.coh, pa⟩ n (some bs) expect) (line := line) (port := port)
        (by rw [only]; exact may) (by rw [only]; exact hcst)
      rw [show t = _ from hostDram_performs hc hits fun h => by rcases hcst with hcst | hcst <;> cases hcst.symm.trans h]
      exact owned
    obtain ⟨c, value⟩ := value
    obtain ⟨bytes, same, quiet⟩ := hostBytes_then u pa expect hn hmem value
    exact ⟨bytes, same, quiet, by rw [value]; exact congrArg (·.agenda) only⟩

/-! ### Stores to the host's own memory -/

theorem hostOwn_store (u : State) (port : Fin 2) (pa n : ℕ) (bs : List Byte) (expect : Option (List Byte)) (hn : bs.length = n) :
    let t := u.hostOwn port ⟨.hco, pa⟩ n (some bs) expect
    let line := lineOf pa
    let quiet := (∀ k, t.getSlot k = u.getSlot k) ∧ t.cores = u.cores
    (tabHas u.hco line = true → t = { u with
      agenda := u.agenda ++ (if Event.snpinv line ∈ u.agenda then [] else [Event.snpinv line]) ++
        [Event.hostMemoryRequest port pa n (some bs) expect] }) ∧
    (tabHas u.hco line = false → u.memOk →
      (hostWrites u pa n expect → bytesWritten u t pa bs) ∧ (¬hostWrites u pa n expect → t = u) ∧ quiet ∧ t.agenda = u.agenda) := by
  intro t line quiet
  refine ⟨fun h => ?_, fun h hmem => ?_⟩
  · have value : t = (if u.agenda.contains (.snpinv line) then u else u.post (.snpinv line)).post
        (.hostMemoryRequest port pa n (some bs) expect) := if_pos ⟨rfl, rfl, h⟩
    rw [value]
    by_cases hs : Event.snpinv line ∈ u.agenda
    · rw [if_pos (List.contains_iff_mem.mpr hs), if_pos hs, List.append_nil]; rfl
    · rw [if_neg (mt List.contains_iff_mem.mp hs), if_neg hs]; rfl
  · have value : t = u.hostBytes ⟨.hco, pa⟩ n (some bs) expect := if_neg fun hc => Bool.noConfusion (h.symm.trans hc.2.2)
    obtain ⟨written, untouched, m, p, only⟩ := hostBytes_effect u (.inr rfl) pa expect hn
    have only := value.trans only
    rw [← value] at written untouched
    exact ⟨written hmem, untouched, ⟨fun k => congrArg (·.getSlot k) only, congrArg (·.cores) only⟩, congrArg (·.agenda) only⟩

/-- A port is closed to the host. -/
theorem hdmOpen_eq_false_iff (u : State) (port : Fin 2) :
    u.hdmOpen port = false ↔ u.package.accepts 10 = false ∨ port.val ∈ u.package.hostDown ∨ port = 1 ∧ u.package.accepts 11 = false := by
  have other : ¬port = 0 ↔ port = 1 := by omega
  simp only [State.hdmOpen, Bool.and_eq_false_iff, Bool.or_eq_false_iff, beq_eq_false_iff_ne, other, Bool.not_eq_false',
    List.contains_eq_mem, decide_eq_true_eq, or_assoc]

/-! ### Reads -/

/-- Only the states of lines, at caches and homes, and what is on its way may differ. -/
def onlyLines (s t : State) : Prop := ∃ c h a, t = { s with caches := c, homes := h, agenda := a }

theorem onlyLines.refl (s : State) : onlyLines s s := ⟨_, _, _, rfl⟩

theorem onlyLines.trans {s t u : State} (h : onlyLines s t) (h' : onlyLines t u) : onlyLines s u := by
  obtain ⟨c, l, a, rfl⟩ := h
  obtain ⟨c', l', a', rfl⟩ := h'
  exact ⟨c', l', a', rfl⟩

theorem post_onlyLines (s : State) (e : Event) : onlyLines s (s.post e) := ⟨_, _, _, rfl⟩
theorem setCst_post_onlyLines (s : State) (line a : ℕ) (x : Option CState) (e : Event) : onlyLines s ((s.setCst line a x).post e) :=
  ⟨_, _, _, rfl⟩

theorem evictLine_onlyLines (s : State) (line a : ℕ) : onlyLines s (s.evictLine line a) := by
  have announced : onlyLines s (if s.ownPage line a then s.setCst line a none else (s.setCst line a (some .miA)).post (.pute line a true)) := by
    split_ifs
    · exact ⟨_, _, _, rfl⟩
    · exact setCst_post_onlyLines ..
  unfold State.evictLine
  by_cases held : (isProxy a && (s.hst line (a / 256)).isSome) = true
  · rw [if_pos held]; exact .refl s
  · rw [if_neg held]
    split
    · exact setCst_post_onlyLines ..
    · exact announced
    · exact setCst_post_onlyLines ..
    · exact .refl s

theorem filterRoom_onlyLines (s : State) (agent line : ℕ) : onlyLines s (s.filterRoom agent line) := by
  unfold State.filterRoom
  split
  · exact evictLine_onlyLines ..
  · exact .refl s

theorem sendClaim_onlyLines (s : State) (e : TlbEntry) (agent : ℕ) (own : Bool) : onlyLines s (s.sendClaim e agent own) := by
  unfold State.sendClaim
  dsimp only
  split_ifs
  · exact .refl s
  · exact post_onlyLines ..

/-- The agent of a host's port always has room: its miss only asks. -/
theorem missLoad_onlyLines (s : State) (line : ℕ) (port : Fin 2) : onlyLines s (s.missLoad .coh [] line (hostAgent port)) := by
  simp only [State.missLoad, fits_hostAgent, if_true]
  split_ifs
  · exact setCst_post_onlyLines ..
  · exact .refl s

theorem hostDram_read (u : State) (port : Fin 2) (pa n : ℕ) (expect : Option (List Byte)) :
    onlyLines u (u.hostDram port ⟨.coh, pa⟩ n none expect) := by
  unfold State.hostDram
  simp only [ne_eq, not_true_eq_false, if_false, Option.isNone_none, if_true, hostBytes_read u (.inl rfl)]
  split
  · exact (sendClaim_onlyLines ..).trans (post_onlyLines ..)
  · split_ifs
    · exact post_onlyLines ..
    · exact (filterRoom_onlyLines ..).trans (post_onlyLines ..)
    · exact missLoad_onlyLines ..

theorem hostRequest_read {u : State} {pa : ℕ} (hp : u.classify (u.lineHome (lineOf pa)) pa = .ok ⟨.coh, pa⟩) (port : Fin 2) (n : ℕ)
    (expect : Option (List Byte)) :
    let t := u.hostRequest port pa n none expect
    u.sameMemory t ∧ (∀ k, t.getSlot k = u.getSlot k) ∧ t.cores = u.cores := by
  have only : onlyLines u (u.hostRequest port pa n none expect) := by
    unfold State.hostRequest
    rw [hp]
    have dram : onlyLines u (if u.hdmOpen port then u.hostDram port ⟨.coh, pa⟩ n none expect else u) := by
      split_ifs
      · exact hostDram_read ..
      · exact .refl u
    have own : onlyLines u (u.hostOwn port ⟨.coh, pa⟩ n none expect) := .refl u
    by_cases hl : lineOf (pa + n - 1) ≠ lineOf pa
    · rw [if_pos hl]; exact .refl u
    · rw [if_neg hl]
      cases region u.pkg pa with
      | near k => exact dram
      | far => exact dram
      | host k => exact own
      | _ => exact .refl u
  obtain ⟨c, h, a, value⟩ := only
  rw [value]
  exact ⟨fun _ => rfl, fun _ => rfl, rfl⟩

/-! ## Requests of other packages (R96, R148) -/

/-- Bytes laid over memory one by one are one write. -/
theorem layBytes_eq (m : List Host.Cell) (pa : ℕ) (bs : List Byte) :
    ((List.range bs.length).map fun i => (pa + i, bs.getD i 0)).foldl (fun m (c : Host.Cell) => memSet m c.1 c.2) m = memWrite m pa bs := by
  induction bs generalizing m pa with
  | nil => rfl
  | cons b bs ih =>
    rw [memWrite, ← ih, List.length_cons, List.range_succ_eq_map, List.map_cons, List.map_map, List.foldl_cons]
    congr 1
    refine List.map_congr_left fun j _ => ?_
    simp only [Function.comp, Nat.succ_eq_add_one, List.getD_cons_succ, Prod.mk.injEq, and_true]
    omega

theorem fabricRequest_shut {u : State} (h : u.package.accepts 12 = false) (r : FabricRequest) : u.fabricRequest r = u := by
  simp only [State.fabricRequest, h, Bool.not_false, if_true]

theorem fabricStore_effect {u : State} {pa : ℕ} (hr : (∃ k, region u.pkg pa = .near k) ∨ region u.pkg pa = .far)
    (hp : u.classify (homeDie pa) pa = .ok ⟨.coh, pa⟩) (ha : u.package.accepts 12 = true) (hm : u.memOk) (bs : List Byte) :
    let t := u.fabricRequest (.store pa bs)
    bytesWritten u t pa bs ∧ { t with mem := u.mem, poison := u.poison } = u := by
  have value : u.fabricRequest (.store pa bs) = u.writePlace none .host ⟨.coh, pa⟩ bs := by
    rcases hr with ⟨k, hr⟩ | hr <;>
      simp only [State.fabricRequest, ha, hr, hp, Bool.not_true, Bool.false_eq_true, if_false]
  obtain ⟨written, m, p, only⟩ := homeStore_effect u .host (.inl rfl) pa bs
  rw [value]
  refine ⟨written hm, ?_⟩
  rw [only]

theorem fabricElsewhere_effect {u : State} {pa q o : ℕ} (hr : region u.pkg pa = .domain q o)
    (ha : u.package.accepts 12 = true) (hm : u.memOk) (bs : List Byte) :
    let t := u.fabricRequest (.elsewhere pa bs)
    bytesWritten u t pa bs ∧ { t with mem := u.mem, poison := u.poison } = u := by
  have value : u.fabricRequest (.elsewhere pa bs) = u.writeHome ((List.range bs.length).map fun i => (pa + i, bs.getD i 0)) [] := by
    simp only [State.fabricRequest, ha, hr, Bool.not_true, Bool.false_eq_true, if_false]
  rw [value]
  exact ⟨memWrite_bytesWritten hm pa bs (layBytes_eq ..), rfl⟩

theorem fabricAtomic_effect {u : State} {a : AtomMsg} (hr : (∃ k, region u.pkg a.pa = .near k) ∨ region u.pkg a.pa = .far)
    (hp : u.classify (homeDie a.pa) a.pa = .ok ⟨.coh, a.pa⟩) (ha : u.package.accepts 12 = true) :
    u.fabricRequest (.atomic a) = u.post (.atomicAtHome a true false) := by
  rcases hr with ⟨k, hr⟩ | hr <;>
    simp only [State.fabricRequest, ha, hr, hp, Bool.not_true, Bool.false_eq_true, if_false]

end Sys2Proof.Machine
end

section
namespace Sys2Proof.Machine

/-! ## The host's stores by the region of their address -/

theorem hostRequest_dram {u : State} {pa n : ℕ} (hl : lineOf (pa + n - 1) = lineOf pa)
    (hr : (∃ k, region u.pkg pa = .near k) ∨ region u.pkg pa = .far)
    (hp : u.classify (u.lineHome (lineOf pa)) pa = .ok ⟨.coh, pa⟩) (port : Fin 2) (data expect : Option (List Byte)) :
    u.hostRequest port pa n data expect = if u.hdmOpen port then u.hostDram port ⟨.coh, pa⟩ n data expect else u := by
  rw [State.hostRequest, if_neg (not_not.mpr hl), hp]
  rcases hr with ⟨k, hr⟩ | hr
  · rw [hr]
  · rw [hr]

theorem hostRequest_own {u : State} {pa n : ℕ} (hl : lineOf (pa + n - 1) = lineOf pa) (hr : ∃ k, region u.pkg pa = .host k)
    (hp : u.classify (u.lineHome (lineOf pa)) pa = .ok ⟨.hco, pa⟩) (port : Fin 2) (data expect : Option (List Byte)) :
    u.hostRequest port pa n data expect = u.hostOwn port ⟨.hco, pa⟩ n data expect := by
  obtain ⟨k, hr⟩ := hr
  rw [State.hostRequest, if_neg (not_not.mpr hl), hp, hr]

/-! ## Events as functions of the state after they have been taken off -/

theorem hostMemoryRequest_next (s : State) (port : Fin 2) (pa n : ℕ) (data expect : Option (List Byte)) (rest : List Event)
    (hs : s.agenda = .hostMemoryRequest port pa n data expect :: rest) :
    exec .hostMemoryRequest s = .next (State.hostRequest { s with agenda := rest } port pa n data expect) := by
  change execHostMemoryRequest s = _
  simp only [execHostMemoryRequest, hs]

theorem fabricMemoryRequest_next (s : State) (r : FabricRequest) (rest : List Event) (hs : s.agenda = .fabricMemoryRequest r :: rest) :
    exec .fabricMemoryRequest s = .next (State.fabricRequest { s with agenda := rest } r) := by
  change execFabricMemoryRequest s = _
  simp only [execFabricMemoryRequest, hs]

theorem nruUpdate_next (s : State) (un : NruUpdate) (rest : List Event) (hs : s.agenda = .nruUpdate un :: rest) :
    exec .nruUpdate s = .next (State.nruUpdate { s with agenda := rest } un) := by
  change execNruUpdate s = _
  simp only [execNruUpdate, hs]

theorem updateRefusal_next (s : State) (un : NruUpdate) (detail : ℕ) (va : Word) (rest : List Event)
    (hs : s.agenda = .updateRefusal un detail va :: rest) :
    exec .updateRefusal s = .next (State.updateRefusal { s with agenda := rest } un detail va) := by
  change execUpdateRefusal s = _
  simp only [execUpdateRefusal, hs]

theorem remoteAtomicMessage_next (s : State) (a : AtomMsg) (rest : List Event) (hs : s.agenda = .remoteAtomicMessage a :: rest) :
    exec .remoteAtomicMessage s = .next (State.microHandler { s with agenda := rest } a) := by
  change execRemoteAtomicMessage s = _
  simp only [execRemoteAtomicMessage, hs]

theorem remoteAtomicReply_next (s : State) (a : AtomMsg) (r : AtomReply) (rest : List Event)
    (hs : s.agenda = .remoteAtomicReply a r :: rest) :
    exec .remoteAtomicReply s = .next (State.atomicReply { s with agenda := rest } a r) := by
  change execRemoteAtomicReply s = _
  simp only [execRemoteAtomicReply, hs]

/-- Settles O44: each event of the home by the lemma about its function. -/
theorem homeEventsTakeEffect : Obligations.HomeEventsTakeEffect := by
  unfold Obligations.HomeEventsTakeEffect
  intro s un line detail va lost acked a v port pa n bs expect d ra rb p q sc o outside queued
  have words := microWords_perform d ra rb p q sc o
  refine ⟨?nru, ?refusal, accumulatorRead_takes s line lost, accumulatorEviction_takes s line acked, ?message, ?reply, ?atHome,
    ?hostStore, ?hostRead, ?fabricStore, ?fabricElsewhere, ?fabricAtomic⟩
  case nru => exact takes_of_next (·.nruUpdate un) (nruUpdate_next s un) fun u x y z hx => nruUpdate_effect u un hx
  case refusal =>
    exact takes_of_next (·.updateRefusal un detail va) (updateRefusal_next s un detail va)
      fun u hg ha hp => updateRefusal_effect u un detail va hg ha hp
  case message =>
    exact takes_of_next (·.microHandler a) (remoteAtomicMessage_next s a)
      fun u w hw hd => microHandler_effect u a (words w hw) hd
  case reply =>
    refine takes_of_next (·.atomicReply a (.old v)) (remoteAtomicReply_next s a _) fun u => ?_
    obtain ⟨shipped, plain, red⟩ := atomicReply_effect u a v
    exact ⟨shipped, fun w ht hw hd => plain w ht (words w hw) hd, fun ht hd => red _ ht rfl hd⟩
  case atHome =>
    refine takes_of_next (atomicTurn · a outside queued) (atomicAtHome_next s a outside queued) fun u => ?_
    obtain ⟨gone, waits, turn⟩ := atomicTurn_effect u a outside queued
    exact ⟨gone, waits, fun hturn w hw hd => turn hturn w (words w hw) hd⟩
  case hostStore =>
    refine takes_of_next (·.hostRequest port pa n (some bs) expect) (hostMemoryRequest_next s port pa n _ expect) ?_
    intro u line agent closed again writes quiet held hl hn
    refine ⟨fun hr hp => ?_, fun hr hp => ?_⟩
    · have value := hostRequest_dram hl hr hp port (some bs) expect
      refine ⟨fun hc => ?_, fun hc => ?_⟩
      · exact value.trans (if_neg (by rw [(hdmOpen_eq_false_iff u port).mpr hc]; decide))
      · have performed := value.trans (if_pos (Bool.not_eq_false _ ▸ mt (hdmOpen_eq_false_iff u port).mp hc))
        simp only [quiet, performed]
        exact hostDram_store u port pa n bs expect hn
    · simp only [quiet, hostRequest_own hl hr hp]
      exact hostOwn_store u port pa n bs expect hn
  case hostRead =>
    exact takes_of_next (·.hostRequest port pa n none expect) (hostMemoryRequest_next s port pa n none expect)
      fun u hp => hostRequest_read hp port n expect
  case fabricStore =>
    exact takes_of_next (·.fabricRequest (.store pa bs)) (fabricMemoryRequest_next s _)
      fun u => ⟨fun h => fabricRequest_shut h _, fun hr hp ha hm => fabricStore_effect hr hp ha hm bs⟩
  case fabricElsewhere =>
    exact takes_of_next (·.fabricRequest (.elsewhere pa bs)) (fabricMemoryRequest_next s _)
      fun u => ⟨fun h => fabricRequest_shut h _, fun _ _ hr ha hm => fabricElsewhere_effect hr ha hm bs⟩
  case fabricAtomic =>
    exact takes_of_next (·.fabricRequest (.atomic a)) (fabricMemoryRequest_next s _)
      fun u hr hp ha => fabricAtomic_effect hr hp ha

end Sys2Proof.Machine
end
